-- ==== Sys2Proof/Word.lean ====
section
/-!
DEFINITION. The word types of the part and their plainest arithmetic (00 R1 to R3).
Every address counts bits (R1); bit 0 is the least significant bit (R2).
-/
namespace Sys2Proof

/-- A 64-bit register or virtual bit address. -/
abbrev W64 := BitVec 64

/-- One byte of memory. -/
abbrev Byte := BitVec 8

/-- The 2,048 bits of a vector register (05 R105). -/
abbrev V2048 := BitVec 2048

/-- `bits(x, hi, lo)` of Table 0.2 on a natural number, given as start and length. -/
abbrev nbits (x lo len : Nat) : Nat := (x / 2 ^ lo) % 2 ^ len

/-- `sext(x, w)` of Table 0.2: the signed value of the low `w` bits of `x` (w = 0 gives 0). -/
abbrev nsext (x w : Nat) : Int :=
  if x % 2 ^ w < 2 ^ (w - 1) then ((x % 2 ^ w : Nat) : Int) else ((x % 2 ^ w : Nat) : Int) - (2 ^ w : Nat)

/-- The low `w` bits of an integer in two's complement. -/
abbrev itrunc (x : Int) (w : Nat) : Nat := (x % ((2 ^ w : Nat) : Int)).toNat

end Sys2Proof
end

