-- ==== Sys2Proof/Syntax.lean ====
section
/-!
DEFINITION. The steps of the part: one constructor of `Instr` per row of spec/opcode_table.json.
A row is a word of one of the four streams, or an event of the part (95_what_each_step_holds.md).
A word carries the fields of its format (04 R86, R90, R94, R98) as the tables of chapter 4 draw them;
an event carries nothing: `State.cur` and `State.ev` name its place (a core, a copy, a message, a command's arguments).
-/

namespace Sys2Proof

/-- The four streams of a job (01 R16). -/
inductive Str where
  | c | a | v | m
deriving DecidableEq, Repr, Inhabited

/-- The two arithmetic planes of the M engine (11 R240). -/
inductive Plane where
  | ternary | fp
deriving DecidableEq, Repr, Inhabited

/-- Who waits on a full/empty bit: a stream at its word, or a running copy (07 R187). -/
inductive Waiter where
  | stream (st : Str)
  | copy (id : Nat)
deriving DecidableEq, Repr, Inhabited

/-- Why a word is no instruction (04 R77). -/
inductive DecodeError where
  | reservedOpcode
  | badGuard
  | reservedBit
  | reservedValue
  | badRegister
deriving DecidableEq, Repr, Inhabited

/-- Why a word cannot be fetched (04 R75, 15 R347, R348); `sub` is the subcode of a page fault. -/
inductive FetchFault where
  | page (sub : Nat)
  | perm
  | role
  | poison
deriving DecidableEq, Repr, Inhabited

/-- The guard fields of a C or V word (04 R81). -/
structure Guard where
  gd : BitVec 5
  gb : BitVec 6
  gs : BitVec 1
deriving DecidableEq, Repr, Inhabited

/-- Format CR (04 Table 4.4). -/
structure CrF where
  g  : Guard
  rd : BitVec 5
  ra : BitVec 5
  rb : BitVec 5
  pk : BitVec 1
  qd : BitVec 1
  qa : BitVec 1
  qb : BitVec 1
  fn : BitVec 10
deriving DecidableEq, Repr, Inhabited

/-- Format CI (04 Table 4.5). -/
structure CiF where
  g   : Guard
  rd  : BitVec 5
  ra  : BitVec 5
  imm : BitVec 19
deriving DecidableEq, Repr, Inhabited

/-- Format CB (04 Table 4.6). -/
structure CbF where
  g   : Guard
  ra  : BitVec 5
  off : BitVec 24
deriving DecidableEq, Repr, Inhabited

/-- Format CS (04 Table 4.7). -/
structure CsF where
  g   : Guard
  sub : BitVec 5
  sys : BitVec 24
deriving DecidableEq, Repr, Inhabited

/-- Format AR (04 Table 4.9). -/
structure ArF where
  pk  : BitVec 1
  aq  : BitVec 7
  gen : BitVec 4
  ad  : BitVec 5
  aa  : BitVec 5
  ab  : BitVec 5
  ac  : BitVec 5
  w   : BitVec 24
deriving DecidableEq, Repr, Inhabited

/-- Format AI (04 Table 4.10). -/
structure AiF where
  pk  : BitVec 1
  aq  : BitVec 7
  gen : BitVec 4
  ad  : BitVec 5
  aa  : BitVec 5
  rsv : BitVec 2
  imm : BitVec 32
deriving DecidableEq, Repr, Inhabited

/-- The V format with the qualifier layout of q (04 Tables 4.13 and 4.14). -/
structure VF where
  g   : Guard
  tag : BitVec 5
  vd  : BitVec 5
  va  : BitVec 5
  vb  : BitVec 5
  vc  : BitVec 5
  k   : BitVec 3
  rm  : BitVec 3
  sat : BitVec 1
  pk  : BitVec 1
  qd  : BitVec 1
  qa  : BitVec 1
  qb  : BitVec 1
  qx  : BitVec 7
deriving DecidableEq, Repr, Inhabited

/-- The V format with the immediate layout of q (04 R95): `gaddi`, `glim`, `gbr`, `gbdec`. -/
structure ViF where
  g   : Guard
  tag : BitVec 5
  vd  : BitVec 5
  va  : BitVec 5
  vb  : BitVec 5
  vc  : BitVec 5
  k   : BitVec 3
  q   : BitVec 15
deriving DecidableEq, Repr, Inhabited

/-- The upper half of an M word (04 Table 4.16). -/
structure MHead where
  fst  : BitVec 1
  lst  : BitVec 1
  lvl  : BitVec 3
  wid  : BitVec 4
  wcnt : BitVec 3
  sid  : BitVec 4
  scnt : BitVec 3
  lgen : BitVec 4
  fw   : BitVec 1
  fpb  : BitVec 18
  fpx  : BitVec 8
  dd   : BitVec 4
  da   : BitVec 4
deriving DecidableEq, Repr, Inhabited

/-- An M word with the operand layout of the lower half (04 Table 4.16). -/
structure MF where
  h    : MHead
  db   : BitVec 4
  mq   : BitVec 28
  mimm : BitVec 32
deriving DecidableEq, Repr, Inhabited

/-- An M word with the constant layout of the lower half (04 R98): `mchk`, `mscan`. -/
structure MkF where
  h     : MHead
  const : BitVec 64
deriving DecidableEq, Repr, Inhabited

/-- The ARG fields of the command mailbox as the host writes them (22 Table 22.1). -/
structure Args where
  a0 : W64
  a1 : W64
  a2 : W64
  a3 : W64
  a4 : W64
  a5 : W64
deriving DecidableEq, Repr, Inhabited

/-- The fields of the launch mailbox as the host writes them (15 Table 15.13). -/
structure LaunchBox where
  ctx   : BitVec 4
  image : BitVec 32
  pri   : BitVec 32
  root  : W64
  args  : W64
deriving DecidableEq, Repr, Inhabited

/-- What names the place of an event beside the core (package, die) that it concerns: a stream or what waits; a copy,
message, walk, command, bank, weir or block by its number; an element or a length; a context; a plane; why a word was
refused; the bytes of a host transaction; the arguments of a mailbox. -/
structure EvArg where
  st   : Str := .c
  who  : Waiter := .stream .c
  id   : Nat := 0
  el   : Nat := 0
  ctx  : BitVec 4 := 0
  pl   : Plane := .ternary
  up   : Bool := false
  why  : DecodeError := .reservedOpcode
  ff   : FetchFault := .perm
  data : List Byte := []
  box  : LaunchBox := { ctx := 0, image := 0, pri := 0, root := 0, args := 0 }
  args : Args := { a0 := 0, a1 := 0, a2 := 0, a3 := 0, a4 := 0, a5 := 0 }
deriving DecidableEq, Repr, Inhabited

/-- One constructor per row of spec/opcode_table.json; each docstring cites the row's rule. -/
inductive Instr where
  /-- ADD (R146): C register form: rd receives ua + ub modulo 2^64. -/
  | add (f : CrF)
  /-- SUB (R146): C register form: rd receives ua − ub modulo 2^64. -/
  | sub (f : CrF)
  /-- MUL (R146): C register form: rd receives the low 64 bits of ua · ub. -/
  | mul (f : CrF)
  /-- MULH (R146): C register form: rd receives the high 64 bits of the signed product. -/
  | mulh (f : CrF)
  /-- MULHN (R146): C register form: rd receives the high 64 bits of the unsigned product. -/
  | mulhn (f : CrF)
  /-- DIV (R147): Signed division that never traps; DZ is set on a zero divisor and OF on −2^63 / −1. -/
  | div (f : CrF)
  /-- DIVN (R147): Unsigned division that never traps; a zero divisor gives 2^64 − 1 and sets DZ. -/
  | divn (f : CrF)
  /-- REM (R147): Signed remainder, taking the sign of the dividend; DZ is set on a zero divisor. -/
  | rem (f : CrF)
  /-- REMN (R147): Unsigned remainder; DZ is set on a zero divisor. -/
  | remn (f : CrF)
  /-- AND (R146): C register form: bitwise and. -/
  | and (f : CrF)
  /-- OR (R146): C register form: bitwise or; also copies values to and from queues. -/
  | or (f : CrF)
  /-- XOR (R146): C register form: bitwise exclusive or. -/
  | xor (f : CrF)
  /-- ANDN (R146): C register form: a AND NOT b. -/
  | andn (f : CrF)
  /-- SLL (R146): C register form: shift left by ub mod 64. -/
  | sll (f : CrF)
  /-- SRL (R146): C register form: logical shift right by ub mod 64. -/
  | srl (f : CrF)
  /-- SRA (R146): C register form: arithmetic shift right by ub mod 64. -/
  | sra (f : CrF)
  /-- MIN (R146): C register form: signed minimum. -/
  | min (f : CrF)
  /-- MAX (R146): C register form: signed maximum. -/
  | max (f : CrF)
  /-- MINN (R146): C register form: unsigned minimum. -/
  | minn (f : CrF)
  /-- MAXN (R146): C register form: unsigned maximum. -/
  | maxn (f : CrF)
  /-- CMPEQ (R146): C register form: 1 if a = b, else 0. -/
  | cmpeq (f : CrF)
  /-- CMPLT (R146): C register form: 1 if sa < sb, else 0. -/
  | cmplt (f : CrF)
  /-- CMPLTN (R146): C register form: 1 if ua < ub, else 0. -/
  | cmpltn (f : CrF)
  /-- CMPLE (R146): C register form: 1 if sa ≤ sb, else 0. -/
  | cmple (f : CrF)
  /-- CMPLEN (R146): C register form: 1 if ua ≤ ub, else 0. -/
  | cmplen (f : CrF)
  /-- ADDI (R148): C immediate form: rd receives ua plus the signed 19-bit immediate. -/
  | addi (f : CiF)
  /-- ANDI (R148): C immediate form: bitwise and with the signed immediate. -/
  | andi (f : CiF)
  /-- ORI (R148): C immediate form: bitwise or with the signed immediate. -/
  | ori (f : CiF)
  /-- XORI (R148): C immediate form: bitwise exclusive or with the signed immediate. -/
  | xori (f : CiF)
  /-- SLLI (R148): C immediate form: shift left by sh. -/
  | slli (f : CiF)
  /-- SRLI (R148): C immediate form: logical shift right by sh. -/
  | srli (f : CiF)
  /-- SRAI (R148): C immediate form: arithmetic shift right by sh. -/
  | srai (f : CiF)
  /-- CMPEQI (R148): C immediate form: 1 if sa equals the immediate, else 0. -/
  | cmpeqi (f : CiF)
  /-- CMPLTI (R148): C immediate form: 1 if sa is below the immediate, else 0. -/
  | cmplti (f : CiF)
  /-- LIM (R148): Loads the sign-extended 19-bit immediate into rd. -/
  | lim (f : CiF)
  /-- LIMH (R148): Replaces 16-bit piece h of ra's value with v and writes the result to rd. -/
  | limh (f : CiF)
  /-- CLZ (R149): Counts the leading zero bits of a. -/
  | clz (f : CrF)
  /-- CTZ (R149): Counts the trailing zero bits of a. -/
  | ctz (f : CrF)
  /-- POPC (R149): Counts the one bits of a. -/
  | popc (f : CrF)
  /-- BEXT (R150): Extracts a bit field of length len at pos. -/
  | bext (f : CiF)
  /-- BINS (R150): Inserts the low len bits of a into rd at pos. -/
  | bins (f : CiF)
  /-- BSET (R150): Sets bit pos. -/
  | bset (f : CiF)
  /-- BCLR (R150): Clears bit pos. -/
  | bclr (f : CiF)
  /-- ADDX (R151): Adds an element index times the element width to a bit address. -/
  | addx (f : CrF)
  /-- XIDX (R151): Divides a bit address by the element width, giving an element index. -/
  | xidx (f : CrF)
  /-- ALNUP (R151): Rounds an address up to the element width, or to the granule or span boundary. -/
  | alnup (f : CrF)
  /-- BR (R144): Branches by a signed offset counted in 48-bit words. -/
  | br (f : CbF)
  /-- BRL (R144): Branches and writes the link address to g[ra]. -/
  | brl (f : CbF)
  /-- BDEC (R144): Decrements g[ra] and branches if the result is nonzero. -/
  | bdec (f : CbF)
  /-- JR (R144): Jumps to src(ra); FETCH_ALIGN if the target is not a multiple of 48. -/
  | jr (f : CrF)
  /-- JRL (R144): Jumps to src(ra) and writes the link to rd. -/
  | jrl (f : CrF)
  /-- LD (R153): Loads one element of the own scratchpad into a C register, with role, scope and alignment tests. -/
  | ld (f : CiF)
  /-- ST (R153): Stores one element into the own scratchpad and sets the full/empty bits of the granules it touches. -/
  | st (f : CiF)
  /-- RDV (R142): C rendezvous: id 0 ends the stream, id 1 to 31 waits at a mid-task rendezvous. -/
  | rdv (f : CsF)
  /-- MCANCEL (R274): Requests cancellation of unstarted M-queue entries and loops of generation g, or of all under .all. -/
  | mcancel (f : CsF)
  /-- WLPUSH (R375): Builds a continuation record and sends it to the headworks for placement on the best die. -/
  | wlpush (f : CrF)
  /-- WLSPAWN (R375): Builds a continuation record to be placed on the die of the issuing core. -/
  | wlspawn (f : CrF)
  /-- WLJOIN_DEC (R376): Decrements an armed join slot and pushes its stored record when the count reaches zero. -/
  | wljoinDec (f : CrF)
  /-- WLJOIN_ARM (R376): Arms the lowest free join slot with a count and a stored record, returning the slot number. -/
  | wljoinArm (f : CrF)
  /-- WLJOIN_ADD (R376): Adds k to the count of an armed join slot. -/
  | wljoinAdd (f : CrF)
  /-- WLFLOOR_GATE (R378): Reads the gate floor G of the issuing die. -/
  | wlfloorGate (f : CrF)
  /-- WLFLOOR_FRESH (R378): Starts a min-reduction and returns a floor value that the true floor held after issue. -/
  | wlfloorFresh (f : CrF)
  /-- WLFLOOR_FB (R378): Reads the freeboard WLCFG.FB. -/
  | wlfloorFb (f : CrF)
  /-- WLYIELD (R379): Asks the headworks to pre-empt the job; the job is pre-empted if granted, and the word completes after 300 cycles otherwise. -/
  | wlyield (f : CsF)
  /-- FLINIT (R317): Checks and initialises a flume control block, clearing its counters and filled bits. -/
  | flinit (f : CrF)
  /-- FLCLAIM (R316): Claims a free slot of a flume and returns its address. -/
  | flclaim (f : CrF)
  /-- FLFILL (R316): Optionally writes 64 bits, then marks a claimed slot filled as a release. -/
  | flfill (f : CrF)
  /-- FLWAITF (R316): Waits for the oldest unheld slot to be filled, takes it, and returns its address. -/
  | flwaitf (f : CrF)
  /-- FLWAITR (R316): Waits until every slot of the flume has been released and returns TAIL. -/
  | flwaitr (f : CrF)
  /-- FLTAKE (R316): Reads 64 bits at an offset in the head held slot. -/
  | fltake (f : CrF)
  /-- FLREL (R316): Releases the oldest held slot back to the producer. -/
  | flrel (f : CrF)
  /-- MFENCE (R320): Places markers of an identifier in the A, V and M queues it names. -/
  | mfence (f : CsF)
  /-- MJOIN (R321): Stalls the C stream until every marker of the identifier has reached its head. -/
  | mjoin (f : CsF)
  /-- WEIR_SET (R324): Sets a weir's count N and clears its arrivals and GEN. -/
  | weirSet (f : CsF)
  /-- WEIR_ARR (R324): Counts an arrival at a weir, after draining under .rel, and returns its generation. -/
  | weirArr (f : CsF)
  /-- WEIR_WT (R324): Waits until the weir's GEN reaches the given generation, acquiring under .acq. -/
  | weirWt (f : CsF)
  /-- WEIR_SYNC (R324): Arrives at a weir, then waits for the generation it joined. -/
  | weirSync (f : CsF)
  /-- RECAST (R286): Tests a region, reserves its granules in address order, and waits for announced writes before flipping its role. -/
  | recast (f : CrF)
  /-- RCWAIT (R293): Waits until every granule of a region has the given role and is not held, acquiring the recasts that set them. -/
  | rcwait (f : CrF)
  /-- PHMARK (R295): Starts a phase on a scratchpad region and records the header and the semaphore values. -/
  | phmark (f : CrF)
  /-- PHCOMMIT (R297): Waits for overlapping copies and commands, then commits the current copy; .end also ends the phase. -/
  | phcommit (f : CsF)
  /-- PHABORT (R298): Stops the job, restores the committed copy, runs the input copy and restarts the streams at the phase entries. -/
  | phabort (f : CsF)
  /-- SEMSIG (R329): Adds cnt to a core semaphore, releasing the C stream's earlier stores. -/
  | semsig (f : CsF)
  /-- SEMWAIT (R329): Waits until the semaphore holds at least cnt, then subtracts cnt. -/
  | semwait (f : CsF)
  /-- FXWIN (R412): Opens, moves or closes the send side of a window after its outstanding messages drain. -/
  | fxwin (f : CrF)
  /-- FXALLOW (R413): Opens or closes the receive side of a window, with an optional grant and counter reset. -/
  | fxallow (f : CrF)
  /-- FXSEND_BLK (R414): Reads a send descriptor and starts a send on the copy engine. -/
  | fxsendBlk (f : CrF)
  /-- FXSEND_MC (R414): Starts a multicast send to the rack packages named by a bitmap. -/
  | fxsendMc (f : CrF)
  /-- FXSEND_FAA (R415): Makes a remote fetch-and-add on a lane and waits for the old value. -/
  | fxsendFaa (f : CrF)
  /-- FXARM (R416): Arms a trigger slot with a send descriptor, counter and threshold. -/
  | fxarm (f : CrF)
  /-- FXDISARM (R416): Unarms one trigger slot, or all under .all. -/
  | fxdisarm (f : CsF)
  /-- FXCNT_RD (R417): Reads a window's receive counter as an acquire. -/
  | fxcntRd (f : CrF)
  /-- FXCNT_SUB (R417): Subtracts n from a receive counter, trapping if n exceeds it. -/
  | fxcntSub (f : CrF)
  /-- FXCNT_WT (R417): Waits until a receive counter reaches n. -/
  | fxcntWt (f : CrF)
  /-- FXFENCE (R418): Waits for replies to the job's posted messages, then completes or traps with FABRIC_ERR. -/
  | fxfence (f : CsF)
  /-- NOP (R340): C no-operation. -/
  | nop (f : CsF)
  /-- TRAP (R340): Raises a precise trap with cause TRAP and EINFO n. -/
  | trap (f : CsF)
  /-- ERET (R337): Ends the handler: restores g30 and g31, then enters the next pending handler, resumes the stopped streams, or begins pre-emption. -/
  | eret (f : CsF)
  /-- SYSRD (R341): Reads a system register by number into rd. -/
  | sysrd (f : CrF)
  /-- SYSWR (R341): Writes a system register that has no row of its own, under its access codes. -/
  | syswr (f : CrF)
  /-- SEM_WRITE (R330): A syswr to SEMn replaces the count before the cycle's signals and waits are applied. -/
  | semWrite (f : CrF)
  /-- EPC_WRITE (R338): A syswr to EPC of a stream traps if the value is unaligned and is ignored if the stream is not stopped. -/
  | epcWrite (f : CrF)
  /-- ALLOW_WRITE (R400): A syswr that lowers a window's allowance below LW sets LW to the new allowance. -/
  | allowWrite (f : CrF)
  /-- WORKLIST_REGISTER_WRITE (R380): A syswr to a worklist register takes effect at the headworks after 150 cycles and at the dies at the next reduction. -/
  | worklistRegisterWrite (f : CrF)
  /-- TLBINV (R344): Removes a context's translations for a range, or all of them, within a scope. -/
  | tlbinv (f : CrF)
  /-- SNAPRD (R342): Reads a 64-bit word of the V snapshot buffer inside a handler. -/
  | snaprd (f : CrF)
  /-- SNAPWR (R342): Writes a 64-bit word of the V snapshot buffer, checking meta words. -/
  | snapwr (f : CrF)
  /-- CTXSAVE (R345): Writes the job's stopped state to a save area inside a handler. -/
  | ctxsave (f : CrF)
  /-- CTXLOAD (R345): Checks a save area and loads the job's state from it for the following eret. -/
  | ctxload (f : CrF)
  /-- AADD (R170): A stream: sum of two operands. -/
  | aadd (f : ArF)
  /-- AADDI (R170): A stream: adds a signed 32-bit immediate. -/
  | aaddi (f : AiF)
  /-- ASUB (R170): A stream: difference of two operands. -/
  | asub (f : ArF)
  /-- AMUL (R170): A stream: product of two operands. -/
  | amul (f : ArF)
  /-- ASHL (R170): A stream: shift left. -/
  | ashl (f : ArF)
  /-- AAND (R170): A stream: bitwise and. -/
  | aand (f : ArF)
  /-- ALIM (R170): A stream: loads a 32-bit constant, or its high half under .hi. -/
  | alim (f : AiF)
  /-- AADDX (R170): A stream: adds an element index scaled by the width code. -/
  | aaddx (f : ArF)
  /-- ABR (R171): A-stream branch, always or on a register being nonzero or zero. -/
  | abr (f : AiF)
  /-- ABR_Q7 (R173): Waits for and pops a q7 branch outcome, then branches on bit 0. -/
  | abrQ7 (f : AiF)
  /-- ABR_Q7_LIKELY (R174): Runs ahead as a taken branch within RADEPTH: checkpoints the registers and opens a new generation. -/
  | abrQ7Likely (f : AiF)
  /-- ABR_RDV (R171): The A stream's rendezvous, final or mid-task. -/
  | abrRdv (f : AiF)
  /-- ABDEC (R171): Decrements a register and branches if the result is nonzero. -/
  | abdec (f : AiF)
  /-- AJR (R171): Jumps to a register target and writes the link. -/
  | ajr (f : ArF)
  /-- AGEN (R172): Waits until PEND is 0, then sets RADEPTH. -/
  | agen (f : AiF)
  /-- LDA (R176): Loads one element into a register or queue, with translation, scope, alignment, role and poison tests. -/
  | lda (f : AiF)
  /-- STA (R176): Stores one element, or adds it into a lane under .add. -/
  | sta (f : AiF)
  /-- LDV (R177): Loads 2,048 bits and pushes them, tagged, to wq0 or wq1. -/
  | ldv (f : AiF)
  /-- STV (R177): Pops wq2 or wq3 and writes 2,048 bits, or adds its elements into lanes. -/
  | stv (f : AiF)
  /-- CP (R179): Starts a contiguous copy of n elements on the copy engine. -/
  | cp (f : ArF)
  /-- CPG (R179): Starts a gather of indexed rows, or adds them into lanes. -/
  | cpg (f : ArF)
  /-- CPS (R179): Starts a scatter of rows to indexed positions. -/
  | cps (f : ArF)
  /-- CPT (R179): Starts a transposing copy. -/
  | cpt (f : ArF)
  /-- CPZ (R179): Starts a fill of n elements with a value. -/
  | cpz (f : ArF)
  /-- ASWZ (R192): Applies a swizzle mode to a page offset. -/
  | aswz (f : ArF)
  /-- FEWAIT (R188): Waits until n granules are full, and empties them under .clr. -/
  | fewait (f : AiF)
  /-- FESET (R188): Sets the full/empty bits of n granules. -/
  | feset (f : AiF)
  /-- FECLR (R188): Empties the full/empty bits of n granules. -/
  | feclr (f : AiF)
  /-- PF (R189): Prefetches into the home slice's read buffer and the TLB, with no visible effect. -/
  | pf (f : AiF)
  /-- AFLCLAIM (R191): A stream: claims a flume slot. -/
  | aflclaim (f : ArF)
  /-- AFLFILL (R191): A stream: waits for its writes to a slot, then fills it. -/
  | aflfill (f : ArF)
  /-- AFLWAITF (R191): A stream: waits for the head slot to be filled and takes it. -/
  | aflwaitf (f : ArF)
  /-- AFLREL (R191): A stream: releases a held slot. -/
  | aflrel (f : ArF)
  /-- VADD (R206): Elementwise add, rounded for floats and wrapping for integers. -/
  | vadd (f : VF)
  /-- VSUB (R206): Elementwise subtract. -/
  | vsub (f : VF)
  /-- VMUL (R206): Elementwise multiply. -/
  | vmul (f : VF)
  /-- VFMA (R206): Fused multiply-add, rounded once. -/
  | vfma (f : VF)
  /-- VFMS (R206): Fused multiply-subtract. -/
  | vfms (f : VF)
  /-- VFNMA (R206): Fused negated multiply-add. -/
  | vfnma (f : VF)
  /-- VMIN (R207): Elementwise minimum. -/
  | vmin (f : VF)
  /-- VMAX (R207): Elementwise maximum. -/
  | vmax (f : VF)
  /-- VABS (R207): Elementwise absolute value. -/
  | vabs (f : VF)
  /-- VNEG (R207): Elementwise negation. -/
  | vneg (f : VF)
  /-- VRCP (R208): Correctly rounded reciprocal. -/
  | vrcp (f : VF)
  /-- VRSQRT (R208): Correctly rounded reciprocal square root. -/
  | vrsqrt (f : VF)
  /-- VSQRT (R208): Correctly rounded square root. -/
  | vsqrt (f : VF)
  /-- VEXP2 (R208): Correctly rounded 2^x. -/
  | vexp2 (f : VF)
  /-- VLOG2 (R208): Correctly rounded log2 x. -/
  | vlog2 (f : VF)
  /-- VAND (R209): Bitwise and over 2,048 bits. -/
  | vand (f : VF)
  /-- VOR (R209): Bitwise or. -/
  | vor (f : VF)
  /-- VXOR (R209): Bitwise exclusive or. -/
  | vxor (f : VF)
  /-- VNOT (R209): Bitwise not. -/
  | vnot (f : VF)
  /-- VSLL (R209): Elementwise shift left. -/
  | vsll (f : VF)
  /-- VSRL (R209): Elementwise logical shift right. -/
  | vsrl (f : VF)
  /-- VSRA (R209): Elementwise arithmetic shift right. -/
  | vsra (f : VF)
  /-- VADDSAT (R209): Saturating integer add. -/
  | vaddsat (f : VF)
  /-- VSUBSAT (R209): Saturating integer subtract. -/
  | vsubsat (f : VF)
  /-- VMULHI (R209): High half of the integer product. -/
  | vmulhi (f : VF)
  /-- VCMPEQ (R210): Compares for equality into a mask. -/
  | vcmpeq (f : VF)
  /-- VCMPLT (R210): Compares less-than into a mask. -/
  | vcmplt (f : VF)
  /-- VCMPLE (R210): Compares less-or-equal into a mask. -/
  | vcmple (f : VF)
  /-- KAND (R211): Mask and. -/
  | kand (f : VF)
  /-- KOR (R211): Mask or. -/
  | kor (f : VF)
  /-- KXOR (R211): Mask exclusive or. -/
  | kxor (f : VF)
  /-- KNOT (R211): Mask not. -/
  | knot (f : VF)
  /-- KPOP (R211): Counts the one bits of a mask into a scalar. -/
  | kpop (f : VF)
  /-- KFIRST (R211): Gives the index of the lowest set bit of a mask, or 256. -/
  | kfirst (f : VF)
  /-- VMOV (R212): Copies a register or queue entry with its tag and poison mark. -/
  | vmov (f : VF)
  /-- VBCAST (R212): Broadcasts a scalar's low bits to every active element. -/
  | vbcast (f : VF)
  /-- VSEL (R213): Selects elements of va or vb by a mask. -/
  | vsel (f : VF)
  /-- VPERM (R214): Permutes elements by an index vector. -/
  | vperm (f : VF)
  /-- VROT (R214): Rotates elements by a scalar amount. -/
  | vrot (f : VF)
  /-- VSLIDE (R214): Slides elements across two registers. -/
  | vslide (f : VF)
  /-- VZIP (R215): Interleaves halves of two registers. -/
  | vzip (f : VF)
  /-- VUNZIP (R215): De-interleaves the even or odd elements. -/
  | vunzip (f : VF)
  /-- VPART (R216): Sorts indices by outcome into a dense INT16 list and writes the outcome start lanes. -/
  | vpart (f : VF)
  /-- VCOMPACT (R217): Packs the active elements to the low lanes and writes their count. -/
  | vcompact (f : VF)
  /-- VREDSUM (R218): Sum reduction by tree_sum. -/
  | vredsum (f : VF)
  /-- VREDMAX (R218): Maximum reduction. -/
  | vredmax (f : VF)
  /-- VREDMIN (R218): Minimum reduction. -/
  | vredmin (f : VF)
  /-- VREDAMAX (R218): Absolute-maximum reduction. -/
  | vredamax (f : VF)
  /-- VSCAN (R219): Inclusive prefix sum. -/
  | vscan (f : VF)
  /-- VLD (R221): Loads 2,048 bits from the own scratchpad into a register or queue. -/
  | vld (f : VF)
  /-- VST (R221): Stores a register, or its active elements, to the own scratchpad. -/
  | vst (f : VF)
  /-- VLDT (R221): Gathers elements from the scratchpad by an index vector. -/
  | vldt (f : VF)
  /-- VCVT (R232): Converts a window of elements by value, optionally with block scales. -/
  | vcvt (f : VF)
  /-- VQUANT (R234): Quantises elements with a computed block or row scale and writes the scale. -/
  | vquant (f : VF)
  /-- VDEQ (R236): Dequantises elements with block or row scales. -/
  | vdeq (f : VF)
  /-- VSCL (R237): Multiplies elements by a power-of-two scale. -/
  | vscl (f : VF)
  /-- VPACK (R238): Narrows elements by keeping their low bits. -/
  | vpack (f : VF)
  /-- VUNPACK (R238): Widens elements by sign or zero extension. -/
  | vunpack (f : VF)
  /-- VTAG (R239): Copies a register under a new tag. -/
  | vtag (f : VF)
  /-- VTAGRD (R239): Reads a register's tag and poison mark into a scalar. -/
  | vtagrd (f : VF)
  /-- GADD (R223): V scalar add. -/
  | gadd (f : VF)
  /-- GADDI (R223): V scalar add of a 15-bit immediate. -/
  | gaddi (f : ViF)
  /-- GLIM (R223): Replaces a 15-bit piece of a scalar. -/
  | glim (f : ViF)
  /-- GMOV (R223): V scalar move, to or from a queue. -/
  | gmov (f : VF)
  /-- GBR (R224): V branch, always or on a register being nonzero or zero; a taken branch marks the results in flight. -/
  | gbr (f : ViF)
  /-- GBR_RDV (R200): Waits until every result has landed and every store is performed, then reaches the rendezvous. -/
  | gbrRdv (f : ViF)
  /-- GBDEC (R224): Decrements a scalar and branches if it is nonzero. -/
  | gbdec (f : ViF)
  /-- VSEMSIG (R225): Waits until earlier vst words are performed, then signals a semaphore. -/
  | vsemsig (f : VF)
  /-- VSEMWAIT (R225): Frozen until the semaphore holds cnt, then subtracts cnt. -/
  | vsemwait (f : VF)
  /-- MBASE (R256): Enters the M queue; at start, writes one field of a descriptor. -/
  | mbase (f : MF)
  /-- MROW (R257): Enters the M queue; at start, copies rows into row-buffer entries. -/
  | mrow (f : MF)
  /-- MSEED (R260): Enters the M queue; at start, reads a seeded tile and expands its bases into a basis buffer. -/
  | mseed (f : MF)
  /-- MTERN_SEED (R261): Sign-select products against a basis buffer, combined by coefficients, into lanes. -/
  | mternSeed (f : MF)
  /-- MTERN_CIM (R261): Sign-select products against a resident macro into lanes. -/
  | mternCim (f : MF)
  /-- MTERN_TILE (R261): Sign-select products against a TRIT tile in memory into lanes. -/
  | mternTile (f : MF)
  /-- MCIMLD_MEM (R263): Loads a macro from a TRIT tile in IMM and sets its VALID bit and key. -/
  | mcimldMem (f : MF)
  /-- MCIMLD_BASIS (R263): Loads a macro from basis k of a buffer. -/
  | mcimldBasis (f : MF)
  /-- MFP (R264): FP-plane block product over K steps into lanes. -/
  | mfp (f : MF)
  /-- MACCZ (R266): Zeroes n PRV lanes and clears their poison. -/
  | maccz (f : MF)
  /-- MACCRD (R267): Reads lanes in a lane mode and writes rounded elements. -/
  | maccrd (f : MF)
  /-- MACCWR (R268): Adds elements into ACC lanes, or overwrites PRV lanes. -/
  | maccwr (f : MF)
  /-- MCHK (R270): Computes CRC-32C over lanes and traps on poison or on a mismatch. -/
  | mchk (f : MkF)
  /-- MSCAN (R269): Searches candidate seeds for the best fit to a target and writes its record. -/
  | mscan (f : MkF)
  /-- MTEST (R271): Runs fixed-pattern tests on plane quarters and fences the quarters that fail. -/
  | mtest (f : MF)
  /-- MLOOP (R251): Opens a loop level whose body the sequencer replays trip times. -/
  | mloop (f : MF)
  /-- MSEM (R272): Waits and signals by its upper fields and signals at its start. -/
  | msem (f : MF)
  /-- MDRAIN (R273): Starts when every older command has completed and signals at once. -/
  | mdrain (f : MF)
  /-- MDRAIN_RDV (R273): Drains, then reaches the M stream's rendezvous. -/
  | mdrainRdv (f : MF)
  /-- TLBINV_COMPLETE (R344): The removal completes after the time of its scope, and the C stream issues again. -/
  | tlbinvComplete
  /-- RESULT_LANDING (R194): A V result, with its tag, mark and flags, lands in its slot and pushes any queue entry it owes. -/
  | resultLanding
  /-- COMMAND_START (R242): The head M command starts once its semaphore, footprint, state and unit allow, consuming wcnt and its descriptors. -/
  | commandStart
  /-- COMMAND_COMPLETE (R243): An M command completes: it signals, frees its checker entry and sets its flags. -/
  | commandComplete
  /-- MCANCEL_ACT (R274): At the end of cycle c + 2 the cancellation discards matching unstarted entries and ends the matching loop. -/
  | mcancelAct
  /-- INJECTED_SELF_TEST (R271): After INTERVAL busy cycles of a plane, the sequencer injects a self-test of all four quarters. -/
  | injectedSelfTest
  /-- RENDEZVOUS_RESUME (R142): When all unended streams wait at one mid-task id, they resume 2 cycles later; different ids trap with RDV_MISMATCH. -/
  | rendezvousResume
  /-- QUEUE_STALL (R137): A queue wait reaching QSTALL.LIMIT traps the stream. -/
  | queueStall
  /-- FE_STALL (R187): A full/empty wait reaching QSTALL.LIMIT traps the load or stops the copy. -/
  | feStall
  /-- SYNC_STALL (R225): A flume, marker, weir, semaphore, credit, reply or counter wait reaching QSTALL.LIMIT traps the stream. -/
  | syncStall
  /-- RC_STALL (R293): An rcwait reaching QSTALL.LIMIT traps the stream. -/
  | rcStall
  /-- HANDLER_ENTRY (R335): 12 cycles after the last started stream stops, the C stream enters the vector of the lowest pending stream, or the context is killed. -/
  | handlerEntry
  /-- LIKELY_RESOLUTION (R174): The q7 outcome of the oldest unresolved likely branch confirms its held entries or flushes its generation. -/
  | likelyResolution
  /-- LOAD_RETURN (R178): A load's data return and fill its register or queue entry, or its home fault is taken. -/
  | loadReturn
  /-- COPY_COMPLETE (R182): A copy or send completes when every element is performed, freeing its entries and signalling its semaphore. -/
  | copyComplete
  /-- COPY_STOP (R181): A running copy meets a fault, records CFADDR and CFINFO, and traps the A stream with COPY_FAULT. -/
  | copyStop
  /-- WALK_COMPLETE (R349): A page walk ends, filling the core and stream TLBs or raising a translation fault. -/
  | walkComplete
  /-- RECAST_COMPLETE (R288): After its announced writes are performed, a recast flips its granules, pushes invalidations and clears HELD. -/
  | recastComplete
  /-- FLUME_HOME_OPERATION (R311): A claim, fill, wait-filled or release is applied at the flume's home in arrival order, or refused. -/
  | flumeHomeOperation
  /-- WEIR_RELEASE (R327): The arrival that completes a generation releases its waiters after the level's release time. -/
  | weirRelease
  /-- TASK_DISPATCH (R381): The headworks picks the eligible context of least pass and grants a record to one die's free core. -/
  | taskDispatch
  /-- TASK_START (R140): A core reads the header and starts every named stream in one cycle, after zeroing on a change of context. -/
  | taskStart
  /-- TASK_RETIRE (R143): The task retires once all streams have ended and owed work is done, and the core reports itself free. -/
  | taskRetire
  /-- PUSH_ACCEPT (R367): The headworks accepts a pushed record, places it in a basin and returns the credit. -/
  | pushAccept
  /-- FLOOR_REDUCTION (R369): Every 64 cycles the dies' minima are min-reduced into F_h and returned to them as G. -/
  | floorReduction
  /-- DOMAIN_FLOOR_REDUCTION (R371): Every 4,096 cycles in domain mode the headworks reduce their F_h over the domain. -/
  | domainFloorReduction
  /-- NEIGHBOUR_REQUEST (R383): An idle die takes an admissible head record from a neighbouring die on the package ring. -/
  | neighbourRequest
  /-- RECORD_FORWARD (R383): Every 64 cycles above THRESH, a headworks forwards a head record to a neighbour package. -/
  | recordForward
  /-- INVERSION (R374): A floor job blocked for WLINV.TIMEOUT cycles is reported and counted. -/
  | inversion
  /-- TERMINATION (R385): A two-pass wave finds the context idle, then pushes WLDONE or reports DONE. -/
  | termination
  /-- PREEMPT_REQUEST (R352): The headworks requests pre-emption of a job; the request waits for eret or is refused with SAVE_FULL. -/
  | preemptRequest
  /-- SAVE_AREA_WRITE (R353): After the stopped job's copies and commands drain, the save engine writes the save area and frees the core. -/
  | saveAreaWrite
  /-- RESUME (R356): A saved job is restored on a free core and its started streams restart at their saved pcs. -/
  | resume
  /-- CONTEXT_KILL (R359): Stops every job of the context, abandons its state and quarantines its granules by recasts. -/
  | contextKill
  /-- KILLED (R359): When every granule has flipped, the kill is complete and KILLED is reported. -/
  | killed
  /-- HOME_MESSAGE (R398): A posted write, add, fetch-and-add or read request is performed or refused at its home and counted by receive sides. -/
  | homeMessage
  /-- READ_DATA (R399): Read data through a window return to the source. -/
  | readData
  /-- REPLY (R400): A reply lowers OUT, adjusts the live window and records a refusal in RPEND. -/
  | reply
  /-- MEMORY_ACKNOWLEDGEMENT (R396): A memory slice or port acknowledges a write or add, setting MPEND on a refusal. -/
  | memoryAcknowledgement
  /-- SLOT_ARRIVAL (R393): A ring slot reaches a station and is taken, circulates again, or goes to overflow; multicast bits are cleared. -/
  | slotArrival
  /-- TRIGGER_FIRE (R408): An armed slot whose counter meets its threshold is unarmed and starts its send. -/
  | triggerFire
  /-- LAUNCH (R363): A DOOR write to the launch mailbox checks the launch and pushes the root record. -/
  | launch
  /-- LOAD_IMAGE (R426): Checks a signed .tho image, places it in DRAM and sets its roles. -/
  | loadImage
  /-- CREATE_CONTEXT (R426): Builds page tables, worklist settings, weir allotment and the save pool of a context. -/
  | createContext
  /-- QUERY_IDENTITY (R426): Returns the SHA-256 hash of the identity key's public part. -/
  | queryIdentity
  /-- QUERY_ROLE_ENTRY (R426): Returns the role directory entry at a physical address. -/
  | queryRoleEntry
  /-- QUERY_FLUME_BLOCK (R426): Returns a flume control block. -/
  | queryFlumeBlock
  /-- QUERY_GRANULE (R426): Returns 128 bits of a granule, quarantined or not. -/
  | queryGranule
  /-- QUERY_DRAM_BANK (R430): Returns the state of a DRAM bank. -/
  | queryDramBank
  /-- RESET_CONTEXT (R426): Kills a context, then zeroes and frees its granules, join slots, weirs and save pool. -/
  | resetContext
  /-- READ_ERRORS (R431): Moves error-log records, oldest first, to host memory. -/
  | readErrors
  /-- PACKAGE_RESET (R424): Power-on or PERST# resets the package, derives the identity key, checks and loads the firmware. -/
  | packageReset
  /-- HOST_WRITE (R429): Data entering from the host receive their CRC-32C per 256-byte block. -/
  | hostWrite
  /-- HOST_READ (R429): Data leaving to the host are CRC-checked and sent poisoned on a mismatch. -/
  | hostRead
  /-- POWER_ESTIMATE (R432): Every 3,000 cycles the governor estimates power and sets the throttle level. -/
  | powerEstimate
  /-- ECC_INTERVAL (R430): At the end of each 3 × 10^9-cycle interval a bank's corrected-error count restarts. -/
  | eccInterval
  /-- BANK_REENCODE (R430): A bank's count exceeding THR moves its top pages and starts re-encoding under the strong code. -/
  | bankReencode
  /-- REENCODE_COMPLETE (R430): The scrubber finishes; the top 1/16 becomes unusable, STRONG is set and a record is logged. -/
  | reencodeComplete
  /-- RESERVED_OPCODE (R77): A stream meets a word whose opcode is reserved, such as the all-zero word, and traps with ILLEGAL_OP before reading any operand. -/
  | reservedOpcode
  /-- WORD_FETCH_FAULT (R75): A stream's fetch of its next word fails translation, meets a non-IMM granule or reads poison, and the stream traps with PAGE_FAULT, PERM_FAULT, ROLE_FAULT or POISON at that word. -/
  | wordFetchFault
  /-- LINK_LAYER_RETRY (R391): A flit that fails its CRC on a ring port is replayed by the flit-mode link-layer retry, keeping the flits of the link in order. -/
  | linkLayerRetry
  /-- BAD_OP (R426): A DOOR write to the command mailbox with an OP that Table 22.2 does not list writes STATUS 4. -/
  | badOp
deriving DecidableEq, Repr, Inhabited

end Sys2Proof
end

