-- ==== Sys2Proof/Machine/Fields.lean ====
section
/-!
DEFINITION. The fields of every form, and the field values that make a word an instruction
(04 R77 to R103 and the description of each form). `Instr.checks i` lists the tests that R77 makes
on the fields of `i`, in order, each with the name of the rule it breaks; an event has none.
-/
namespace Sys2Proof

/-! The fields inside the formats. -/

/-- `imm` of CI as the signed immediate si (06 R148). -/
def CiF.si (f : CiF) : W64 := f.imm.signExtend 64
/-- The shift count or bit position of CI words, imm 5:0 (06 R148, R150). -/
def CiF.sh (f : CiF) : Nat := (f.imm.extractLsb' 0 6).toNat
/-- ln of `bext` and `bins`, imm 11:6 (06 R150). -/
def CiF.ln (f : CiF) : Nat := (f.imm.extractLsb' 6 6).toNat
/-- wc of `ld` and `st`, imm 18:15 (06 R152). -/
def CiF.wc (f : CiF) : Nat := (f.imm.extractLsb' 15 4).toNat
/-- s of `ld`, imm 14 (06 R152). -/
def CiF.sx (f : CiF) : BitVec 1 := f.imm.extractLsb' 14 1
/-- d of `ld` and `st`, imm 13:0, signed (06 R152). -/
def CiF.d (f : CiF) : Int := (f.imm.extractLsb' 0 14).toInt
/-- wc of `addx`, `xidx`, `alnup`, fn 3:0 (06 R151). -/
def CrF.wc (f : CrF) : Nat := (f.fn.extractLsb' 0 4).toNat
/-- bd of `alnup`, fn 4 (06 R151). -/
def CrF.bd (f : CrF) : BitVec 1 := f.fn.extractLsb' 4 1
/-- wc of the A copies and of `aaddx`, w 3:0 (07 Table 7.10). -/
def ArF.wc (f : ArF) : Nat := (f.w.extractLsb' 0 4).toNat
/-- ix of copies, w 4. -/
def ArF.ix (f : ArF) : BitVec 1 := f.w.extractLsb' 4 1
/-- fl of copies, w 5. -/
def ArF.fl (f : ArF) : BitVec 1 := f.w.extractLsb' 5 1
/-- sen of copies, w 6. -/
def ArF.sen (f : ArF) : BitVec 1 := f.w.extractLsb' 6 1
/-- sid of copies, w 10:7. -/
def ArF.sid (f : ArF) : BitVec 4 := f.w.extractLsb' 7 4
/-- n13 of copies, w 23:11. -/
def ArF.n13 (f : ArF) : BitVec 13 := f.w.extractLsb' 11 13
/-- `.wait`, word bit 48 (07 Table 7.7). -/
def ArF.wait (f : ArF) : Bool := f.aq.getLsbD 0
def ArF.clr (f : ArF) : Bool := f.aq.getLsbD 1
def ArF.zf (f : ArF) : Bool := f.aq.getLsbD 2
def ArF.ord (f : ArF) : Bool := f.aq.getLsbD 3
def ArF.add (f : ArF) : Bool := f.aq.getLsbD 4
def AiF.wait (f : AiF) : Bool := f.aq.getLsbD 0
def AiF.clr (f : AiF) : Bool := f.aq.getLsbD 1
def AiF.zf (f : AiF) : Bool := f.aq.getLsbD 2
def AiF.ord (f : AiF) : Bool := f.aq.getLsbD 3
def AiF.add (f : AiF) : Bool := f.aq.getLsbD 4
def AiF.hi (f : AiF) : Bool := f.aq.getLsbD 6
/-- cond of `abr`, word bits 50:48. -/
def AiF.cond (f : AiF) : BitVec 3 := f.aq.extractLsb' 0 3
/-- `.likely`, word bit 53. -/
def AiF.likely (f : AiF) : Bool := f.aq.getLsbD 5
/-- wc of `lda` and `sta`, imm 31:28 (07 Table 7.8). -/
def AiF.wc (f : AiF) : Nat := (f.imm.extractLsb' 28 4).toNat
/-- s of `lda`, fl of `sta`: imm 27. -/
def AiF.b27 (f : AiF) : BitVec 1 := f.imm.extractLsb' 27 1
/-- The displacement d, imm 26:0, in bits (07 R169). -/
def AiF.d (f : AiF) : Int := (f.imm.extractLsb' 0 27).toInt
/-- The tag of `ldv`, imm 31:27. -/
def AiF.tag (f : AiF) : BitVec 5 := f.imm.extractLsb' 27 5
/-- n of the full/empty forms, imm 31:28 plus 1 (07 R188). -/
def AiF.n (f : AiF) : Nat := (f.imm.extractLsb' 28 4).toNat + 1
/-- One bit of qx. -/
def VF.x (f : VF) (i : Nat) : Bool := f.qx.getLsbD i
/-- p of the conversion forms, qx 4:0 (09 Table 9.2). -/
def VF.p (f : VF) : Nat := (f.qx.extractLsb' 0 5).toNat
/-- d of `vld` and `vst`: vb ‖ vc, signed, in granules (08 R220). -/
def VF.dg (f : VF) : Int := (f.vb ++ f.vc).toInt
/-- A bit range of mq, named by its word bits (11 Table 11.9: word bit 32 is mq bit 0). -/
def MF.q (f : MF) (lo len : Nat) : Nat := (f.mq.extractLsb' (lo - 32) len).toNat
/-- A bit range of mimm. -/
def MF.i (f : MF) (lo len : Nat) : Nat := (f.mimm.extractLsb' lo len).toNat


/-- The first check that fails, by name. -/
def firstBad : List (Bool × DecodeError) → Option DecodeError
  | [] => none
  | (ok, e) :: rest => if ok then firstBad rest else some e

/-- A reserved field is 0 (R77). -/
def rsvd {w : Nat} (b : BitVec w) : Bool × DecodeError := (b == 0, .reservedBit)
/-- A field value is one the description allows. -/
def val (b : Bool) : Bool × DecodeError := (b, .reservedValue)
/-- A register field names a register of its position. -/
def reg (b : Bool) : Bool × DecodeError := (b, .badRegister)

/-- 04 Table 4.2: the width of each width code; 15 is reserved (0). -/
def widthOf : Nat → Nat
  | 0 => 1 | 1 => 2 | 2 => 3 | 3 => 4 | 4 => 6 | 5 => 8 | 6 => 12 | 7 => 16
  | 8 => 24 | 9 => 32 | 10 => 48 | 11 => 64 | 12 => 128 | 13 => 40 | 14 => 80 | _ => 0

/-- 04 Table 4.2: the codes of the triple class. -/
def tripleCode (wc : Nat) : Bool := wc == 2 || wc == 4 || wc == 6 || wc == 8 || wc == 10

/-- 05 Table 5.1: the element width of each tag; RAW and reserved codes have 0. -/
def tagWidth : Nat → Nat
  | 1 => 2 | 2 => 3 | 3 => 4 | 4 => 6 | 5 => 8 | 6 => 16 | 7 => 32 | 8 => 64
  | 9 => 4 | 10 => 6 | 11 => 6 | 12 => 8 | 13 => 8 | 14 => 16 | 15 => 16 | 16 => 32 | 17 => 64 | _ => 0

/-- 05 Table 5.1: L, the elements of a vector register under a tag. -/
def tagLanes (t : Nat) : Nat := if tagWidth t = 0 then 0 else 2048 / tagWidth t

/-- The floating formats of Table 5.1. -/
def tagFloat (t : Nat) : Bool := 9 ≤ t && t ≤ 17

/-- 04 R81 for the C stream. -/
def Guard.okC (g : Guard) : Bool × DecodeError :=
  (g.gd != 0 || (g.gb == 0 && g.gs == 1), .badGuard)
/-- 04 R81 for the V stream: gd is 0 to 15. -/
def Guard.okV (g : Guard) : Bool × DecodeError :=
  ((g.gd != 0 || (g.gb == 0 && g.gs == 1)) && g.gd.toNat < 16, .badGuard)

/-- 04 R87: a source field of a CR word. -/
def cSrc (q : BitVec 1) (r : BitVec 5) : List (Bool × DecodeError) :=
  if q == 0 then [] else
    [rsvd (r.extractLsb' 3 2), reg (r.toNat == 0 || r.toNat == 1 || r.toNat == 5)]
/-- 04 R87: a destination field of a CR word. -/
def cDst (q : BitVec 1) (r : BitVec 5) : List (Bool × DecodeError) :=
  if q == 0 then [] else
    [rsvd (r.extractLsb' 3 2), reg (r.toNat == 2 || r.toNat == 3 || r.toNat == 4 || r.toNat == 7)]
/-- 04 R88: an unused register field and its queue flag are 0. -/
def cNone (q : BitVec 1) (r : BitVec 5) : List (Bool × DecodeError) := [rsvd q, rsvd r]
/-- A register field that is a source register without a queue flag (`recast`, `phmark`, `wlpush`, ...). -/
def cGpr (q : BitVec 1) : List (Bool × DecodeError) := [rsvd q]

/-- The part of a CR word that every form shares: the guard and pk (04 R87). -/
def CrF.common (f : CrF) : List (Bool × DecodeError) :=
  [f.g.okC, val (f.pk == 0 || f.qa == 1 || f.qb == 1)]

/-- Destination, two sources, fn reserved (06 R146). -/
def CrF.dss (f : CrF) : List (Bool × DecodeError) :=
  f.common ++ cDst f.qd f.rd ++ cSrc f.qa f.ra ++ cSrc f.qb f.rb
/-- Destination and one source. -/
def CrF.ds (f : CrF) : List (Bool × DecodeError) :=
  f.common ++ cDst f.qd f.rd ++ cSrc f.qa f.ra ++ cNone f.qb f.rb
/-- Destination only. -/
def CrF.d (f : CrF) : List (Bool × DecodeError) :=
  f.common ++ cDst f.qd f.rd ++ cNone f.qa f.ra ++ cNone f.qb f.rb
/-- One source only. -/
def CrF.s (f : CrF) : List (Bool × DecodeError) :=
  f.common ++ cNone f.qd f.rd ++ cSrc f.qa f.ra ++ cNone f.qb f.rb
/-- Two sources only. -/
def CrF.ss (f : CrF) : List (Bool × DecodeError) :=
  f.common ++ cNone f.qd f.rd ++ cSrc f.qa f.ra ++ cSrc f.qb f.rb
/-- rd a source register, two sources. -/
def CrF.gss (f : CrF) : List (Bool × DecodeError) :=
  f.common ++ cGpr f.qd ++ cSrc f.qa f.ra ++ cSrc f.qb f.rb

/-- fn holds exactly this value (a selector with every other bit reserved). -/
def CrF.fnIs (f : CrF) (n : Nat) : Bool × DecodeError := (f.fn.toNat == n, .reservedBit)
/-- The bits of fn from `lo` up are reserved. -/
def CrF.fnBelow (f : CrF) (lo : Nat) : Bool × DecodeError := (f.fn.toNat < 2 ^ lo, .reservedBit)

/-- 15 Table 15.5, 18 R380, 20 R419, 22 R432: the numbers that name a system register. -/
def sysNumber (n : Nat) : Bool :=
  n ≤ 0x003 || n == 0x008 || n == 0x009 || (0x010 ≤ n && n ≤ 0x012) || (0x014 ≤ n && n ≤ 0x026) ||
  (0x028 ≤ n && n ≤ 0x02A) || n == 0x030 || (0x038 ≤ n && n ≤ 0x03E) || (0x040 ≤ n && n ≤ 0x045) ||
  n == 0x048 || (0x050 ≤ n && n ≤ 0x060) || (0x100 ≤ n && n ≤ 0x152) || (0x200 ≤ n && n ≤ 0x20E) ||
  (0x300 ≤ n && n ≤ 0x303)
/-- SEM0 to SEM15. -/
def sysSem (n : Nat) : Bool := 0x050 ≤ n && n ≤ 0x05F
/-- EPCC to EPCM. -/
def sysEpc (n : Nat) : Bool := 0x018 ≤ n && n ≤ 0x01B
/-- WEXT0 to WEXT15 and FXPALLOW, the registers that hold an allowance. -/
def sysAllow (n : Nat) : Bool := (0x110 ≤ n && n ≤ 0x11F) || n == 0x152
/-- The worklist registers. -/
def sysWl (n : Nat) : Bool := 0x200 ≤ n && n ≤ 0x20E
/-- The numbers that plain `syswr` names: every register without a row of its own. -/
def sysPlain (n : Nat) : Bool := sysNumber n && !sysSem n && !sysEpc n && !sysAllow n && !sysWl n

/-- `syswr` of a register that `p` selects. -/
def CrF.wr (f : CrF) (p : Nat → Bool) : List (Bool × DecodeError) := f.s ++ [val (p f.fn.toNat)]

/-- The guard and the reserved bits of CI words. -/
def CiF.ok (f : CiF) (more : List (Bool × DecodeError)) : List (Bool × DecodeError) := f.g.okC :: more
/-- imm 18:6 reserved. -/
def CiF.sh6 (f : CiF) : Bool × DecodeError := rsvd (f.imm.extractLsb' 6 13)

/-- The fields of a weir word (14 R323). -/
def CsF.wLvl (f : CsF) : Nat := (f.sys.extractLsb' 0 3).toNat
def CsF.wId (f : CsF) : Nat := (f.sys.extractLsb' 7 8).toNat
def CsF.wRel (f : CsF) : BitVec 1 := f.sys.extractLsb' 5 1
def CsF.wAcq (f : CsF) : BitVec 1 := f.sys.extractLsb' 6 1
def CsF.wAct (f : CsF) : Nat := (f.sys.extractLsb' 3 2).toNat
/-- 14 R322: the weirs of each level. -/
def weirCount : Nat → Nat
  | 1 => 4 | 2 => 16 | 3 => 32 | 4 => 32 | 5 => 32 | _ => 0
/-- 14 R323: act, level, id, and which of rel and acq the act admits. -/
def CsF.weir (f : CsF) (act : Nat) (rel acq : Bool) : List (Bool × DecodeError) :=
  [f.g.okC, rsvd (f.sys.extractLsb' 15 9), val (1 ≤ f.wLvl && f.wLvl ≤ 5), val (f.wAct == act),
   val (rel || f.wRel == 0), val (acq || f.wAcq == 0), val (f.wId < weirCount f.wLvl)]
/-- 14 R329. -/
def CsF.sem (f : CsF) : List (Bool × DecodeError) :=
  [f.g.okC, rsvd (f.sub.extractLsb' 4 1), rsvd (f.sys.extractLsb' 16 8), val (f.sys.extractLsb' 0 16 != 0)]
/-- sub and sys reserved. -/
def CsF.bare (f : CsF) : List (Bool × DecodeError) := [f.g.okC, rsvd f.sub, rsvd f.sys]

/-! The A stream. -/

/-- 04 Table 4.11: a destination of a scalar form (registers, q0, q1, q6). -/
def aDst (r : BitVec 5) : Bool × DecodeError := reg (r.toNat ≤ 26)
/-- 04 Table 4.11: a source of a scalar form (registers, q2, q3). -/
def aSrc (r : BitVec 5) : Bool × DecodeError := reg (r.toNat ≤ 25)
/-- A register operand. -/
def aReg (r : BitVec 5) : Bool × DecodeError := reg (r.toNat ≤ 23)
/-- The base of a memory form: a0 to a15 (07 R169). -/
def aBase (r : BitVec 5) : Bool × DecodeError := reg (r.toNat ≤ 15)
/-- A wide queue: codes 27 and 28. -/
def aWide (r : BitVec 5) : Bool × DecodeError := reg (r.toNat == 27 || r.toNat == 28)
/-- A field that names a queue as a source. -/
def aIsQ (r : BitVec 5) : Bool := 24 ≤ r.toNat && r.toNat ≤ 28
/-- The aq bits outside `m` are reserved (07 R168). -/
def aqOnly (aq m : BitVec 7) : Bool × DecodeError := (aq &&& ~~~m == 0, .reservedBit)

/-- Three scalar operands (07 R170). -/
def ArF.dss (f : ArF) : List (Bool × DecodeError) :=
  [rsvd f.gen, aqOnly f.aq 0, aDst f.ad, aSrc f.aa, aSrc f.ab, rsvd f.ac,
   val (f.pk == 0 || aIsQ f.aa || aIsQ f.ab)]
/-- One destination, one source. -/
def ArF.ds (f : ArF) : List (Bool × DecodeError) :=
  [rsvd f.gen, aqOnly f.aq 0, aDst f.ad, aSrc f.aa, rsvd f.ab, rsvd f.ac, val (f.pk == 0 || aIsQ f.aa)]
/-- Two sources. -/
def ArF.ss (f : ArF) : List (Bool × DecodeError) :=
  [rsvd f.gen, aqOnly f.aq 0, rsvd f.ad, aSrc f.aa, aSrc f.ab, rsvd f.ac,
   val (f.pk == 0 || aIsQ f.aa || aIsQ f.ab)]
/-- The subfields of w that every copy shares (07 R179); `ix`, `n13` and `fl` where the form has them (DEDUCED, log entry 24). -/
def ArF.copyW (f : ArF) (ix n13 fl : Bool) : List (Bool × DecodeError) :=
  [rsvd f.gen, val (f.wc ≤ 12), val (f.sen == 1 || f.sid == 0), val (ix || f.ix == 0),
   val (n13 || f.n13 == 0), val (f.fl == 0 || (fl && f.add && (f.wc == 7 || f.wc == 9 || f.wc == 11)))]

/-- Memory forms of AI: base a0 to a15, gen and rsvd reserved (07 R169). -/
def AiF.mem (f : AiF) (aq : BitVec 7) : List (Bool × DecodeError) :=
  [rsvd f.gen, rsvd f.rsv, aqOnly f.aq aq, aBase f.aa]
/-- AI words that are no memory form. -/
def AiF.ctl (f : AiF) (aq : BitVec 7) : List (Bool × DecodeError) :=
  [rsvd f.rsv, aqOnly f.aq aq]

/-! The V stream. -/

/-- A vector source, or wq0 or wq1 under its flag (04 R96). -/
def vSrc (q : BitVec 1) (r : BitVec 5) : Bool × DecodeError := reg (q == 0 || r.toNat ≤ 1)
/-- A vector destination, or wq2 or wq3 under its flag. -/
def vDst (q : BitVec 1) (r : BitVec 5) : Bool × DecodeError := reg (q == 0 || r.toNat == 2 || r.toNat == 3)
/-- A scalar source: g0 to g15, or q4 or q6. -/
def gSrc (q : BitVec 1) (r : BitVec 5) : Bool × DecodeError :=
  reg (if q == 0 then r.toNat ≤ 15 else r.toNat == 4 || r.toNat == 6)
/-- A scalar destination: g0 to g15, or q5. -/
def gDst (q : BitVec 1) (r : BitVec 5) : Bool × DecodeError :=
  reg (if q == 0 then r.toNat ≤ 15 else r.toNat == 5)
/-- g0 to g15 without a queue. -/
def gReg (q : BitVec 1) (r : BitVec 5) : Bool × DecodeError := reg (q == 0 && r.toNat ≤ 15)
/-- g1 to g15 without a queue. -/
def gBase (q : BitVec 1) (r : BitVec 5) : Bool × DecodeError := reg (q == 0 && 1 ≤ r.toNat && r.toNat ≤ 15)
/-- v0 to v31 without a queue. -/
def vReg (q : BitVec 1) : Bool × DecodeError := reg (q == 0)
/-- k0 to k7. -/
def kReg (q : BitVec 1) (r : BitVec 5) : Bool × DecodeError := reg (q == 0 && r.toNat ≤ 7)
/-- An unused field of a V word. -/
def vNone (q : BitVec 1) (r : BitVec 5) : Bool × DecodeError := (q == 0 && r == 0, .reservedBit)

/-- The guard, pk (04 R87, R96) and qx bits outside `qx`. -/
def VF.common (f : VF) (qx : BitVec 7) : List (Bool × DecodeError) :=
  [f.g.okV, val (f.pk == 0 || f.qa == 1 || f.qb == 1), (f.qx &&& ~~~qx == 0, .reservedBit)]
/-- The tag is one of a list (08 Table 8.4). -/
def VF.tagIn (f : VF) (l : List Nat) : Bool × DecodeError := val (l.contains f.tag.toNat)
/-- rm is a rounding code where the tag rounds, else reserved (04 R95, 08 R205). -/
def VF.rmIf (f : VF) (b : Bool) : Bool × DecodeError :=
  if b then val (f.rm.toNat ≤ 4) else rsvd f.rm
/-- sat where the form has it. -/
def VF.satIf (f : VF) (b : Bool) : Bool × DecodeError := if b then val true else rsvd f.sat
/-- 08 R202: a write or contribution mask needs a tag with at most 256 elements. -/
def VF.mask (f : VF) : Bool × DecodeError :=
  val (f.k == 0 || (f.tag.toNat != 0 && tagLanes f.tag.toNat ≤ 256))
/-- The tag is a floating format. -/
def VF.flt (f : VF) : Bool := tagFloat f.tag.toNat

def tFloat : List Nat := [14, 15, 16, 17]
def tArith : List Nat := [5, 6, 7, 8, 14, 15, 16, 17]
def tInt : List Nat := [5, 6, 7, 8]
def tAll : List Nat := [0, 1, 2, 3, 4, 5, 6, 7, 8, 9, 10, 11, 12, 13, 14, 15, 16, 17]
def tElem : List Nat := [1, 2, 3, 4, 5, 6, 7, 8, 9, 10, 11, 12, 13, 14, 15, 16, 17]
def tSel : List Nat := [5, 6, 7, 8, 12, 13, 14, 15, 16, 17]
def tZip : List Nat := [1, 3, 5, 6, 7, 8, 9, 12, 13, 14, 15, 16, 17]

/-- vd, va and vb vectors, vc unused, k a write mask. -/
def VF.vv (f : VF) (tags : List Nat) (round : Bool) (qx : BitVec 7) : List (Bool × DecodeError) :=
  f.common qx ++ [f.tagIn tags, vDst f.qd f.vd, vSrc f.qa f.va, vSrc f.qb f.vb, vNone 0 f.vc,
    f.rmIf (round && f.flt), f.satIf (round && f.flt), f.mask]
/-- vd and va vectors, vb and vc unused, k a write mask. -/
def VF.v1 (f : VF) (tags : List Nat) (round : Bool) : List (Bool × DecodeError) :=
  f.common 0 ++ [f.tagIn tags, vDst f.qd f.vd, vSrc f.qa f.va, vNone f.qb f.vb, vNone 0 f.vc,
    f.rmIf (round && f.flt), f.satIf (round && f.flt), f.mask]
/-- vd, va, vb and vc vectors. -/
def VF.vvv (f : VF) : List (Bool × DecodeError) :=
  f.common 0 ++ [f.tagIn tFloat, vDst f.qd f.vd, vSrc f.qa f.va, vSrc f.qb f.vb, f.rmIf true, f.satIf true, f.mask]
/-- 08 R210: a compare into k1 to k7; `.n` for integer tags only. -/
def VF.cmp (f : VF) : List (Bool × DecodeError) :=
  f.common 1 ++ [f.tagIn tArith, reg (f.qd == 0 && 1 ≤ f.vd.toNat && f.vd.toNat ≤ 7), vSrc f.qa f.va, vSrc f.qb f.vb,
    vNone 0 f.vc, f.rmIf false, f.satIf false, val (!f.flt || !f.x 0), f.mask]
/-- rm, sat, tag and k reserved. -/
def VF.plain (f : VF) : List (Bool × DecodeError) := [rsvd f.tag, rsvd f.k, rsvd f.rm, rsvd f.sat]
/-- 08 R211: the mask forms. -/
def VF.kk (f : VF) (two : Bool) : List (Bool × DecodeError) :=
  f.common 0 ++ f.plain ++ [kReg f.qd f.vd, kReg f.qa f.va, if two then kReg f.qb f.vb else vNone f.qb f.vb, vNone 0 f.vc]
/-- 08 R211: `kpop`, `kfirst`. -/
def VF.kg (f : VF) : List (Bool × DecodeError) :=
  f.common 0 ++ f.plain ++ [gDst f.qd f.vd, kReg f.qa f.va, vNone f.qb f.vb, vNone 0 f.vc]
/-- 08 R218: the reductions. -/
def VF.red (f : VF) (tags : List Nat) (sum : Bool) : List (Bool × DecodeError) :=
  f.common 1 ++ [f.tagIn tags, if f.x 0 then gDst f.qd f.vd else vDst f.qd f.vd, vSrc f.qa f.va, vNone f.qb f.vb,
    vNone 0 f.vc, f.rmIf (sum && f.flt), f.satIf sum, f.mask]

/-! The conversion forms (09). -/

/-- S, the tag code in vc. -/
def VF.srcTag (f : VF) : Nat := f.vc.toNat
/-- 09 R228: the number of parts of a window. -/
def windowParts (s d : Nat) : Nat :=
  let n := min (tagLanes s) (tagLanes d)
  if n = 0 then 0 else (max (tagLanes s) (tagLanes d) + n - 1) / n
/-- 09 R228, R229: the part exists; a queue destination takes the whole register. -/
def VF.window (f : VF) : List (Bool × DecodeError) :=
  [val (f.p < windowParts f.srcTag f.tag.toNat),
   val (f.qd == 0 || (tagLanes f.srcTag ≥ tagLanes f.tag.toNat && f.k == 0))]
/-- 09 R233: the pairs that `.blk` admits. -/
def blkPair (s d : Nat) : Bool :=
  let b := if tagLanes s > tagLanes d then s else d
  let o := if tagLanes s > tagLanes d then d else s
  tagLanes s != tagLanes d && [2, 3, 4, 5, 9, 10, 11, 12, 13].contains b && [14, 15, 16].contains o
/-- What every conversion form shares; `qx` gives its subfields. -/
def VF.conv (f : VF) (qx : BitVec 7) (round : Bool) : List (Bool × DecodeError) :=
  f.common qx ++ [vDst f.qd f.vd, vSrc f.qa f.va, f.rmIf (round && f.flt), f.satIf (round && f.flt), f.mask]

/-- The unused fields of the immediate layout. -/
def ViF.plain (f : ViF) : List (Bool × DecodeError) := [f.g.okV, rsvd f.tag, rsvd f.k, rsvd f.vc]
/-- g0 to g15 in an immediate form. -/
def iReg (r : BitVec 5) : Bool × DecodeError := reg (r.toNat ≤ 15)

/-! The M stream. -/

/-- 04 R99, R100: the upper half of an M word. -/
def MHead.ok (h : MHead) : List (Bool × DecodeError) :=
  [val (h.lvl.toNat ≤ 5), val (h.fst == 1 || h.lst == 1 || h.lvl == 0), val (h.wcnt != 0 || h.wid == 0),
   val (h.scnt != 0 || h.sid == 0), val (h.fpx != 0 || (h.fpb == 0 && h.fw == 0)),
   val (h.fpb.toNat + h.fpx.toNat ≤ 262144)]
/-- 11 Table 11.8: the form declares no footprint. -/
def MHead.noFp (h : MHead) : Bool × DecodeError := val (h.fpx == 0)
/-- 11 Table 11.8: the form declares a read (0) or write (1) footprint. -/
def MHead.fp (h : MHead) (fw : BitVec 1) : Bool × DecodeError := val (h.fpx != 0 && h.fw == fw)
/-- The mq bits outside `m` are reserved. -/
def MF.mqOnly (f : MF) (m : BitVec 28) : Bool × DecodeError := (f.mq &&& ~~~m == 0, .reservedBit)
/-- n of the accumulator forms (11 R249). -/
def MF.nOk (f : MF) : List (Bool × DecodeError) := [rsvd (f.mimm.extractLsb' 18 14), val (f.i 0 18 ≤ 163840)]
/-- am and om: om only under `.ovw`, at most 2 (11 Table 11.9). -/
def MF.amOm (f : MF) (am om : Nat) : Bool × DecodeError := val (if f.q am 1 = 0 then f.q om 2 = 0 else f.q om 2 ≤ 2)
/-- The shape of `mtern` (11 Tables 11.8, 11.9). -/
def MF.tern (f : MF) (src : Nat) : List (Bool × DecodeError) :=
  f.h.ok ++ [f.h.fp 1, val (f.q 32 2 == src), rsvd f.h.da, (f.q 47 13 == 0, .reservedBit), rsvd (f.mimm.extractLsb' 12 20),
    val (src == 0 || f.q 34 1 == 0), val (src == 1 || f.q 35 4 == 0), val (src == 2 || f.db == 0),
    f.amOm 39 40, val (f.q 44 3 ≤ 6)]

/-- The first rule of R77 that the fields of an instruction break. A masked `vscl` may push to a queue, and `vdeq` takes every S of
Table 9.1, INT16 to INT64 among them, through windows (DESIGN CHOICE, log entry 99). -/
def Instr.checks : Instr → List (Bool × DecodeError)
  | .add f | .sub f | .mul f | .mulh f | .mulhn f | .div f | .divn f | .rem f | .remn f | .and f | .or f | .xor f
  | .andn f | .sll f | .srl f | .sra f | .min f | .max f | .minn f | .maxn f | .cmpeq f | .cmplt f | .cmpltn f
  | .cmple f | .cmplen f => f.dss ++ [f.fnIs 0]
  | .addi f | .andi f | .ori f | .xori f | .cmpeqi f | .cmplti f => f.ok []
  | .slli f | .srli f | .srai f | .bset f | .bclr f => f.ok [f.sh6]
  | .lim f => f.ok [rsvd f.ra]
  | .limh f => f.ok [rsvd (f.imm.extractLsb' 18 1)]
  | .clz f | .ctz f | .popc f => f.ds ++ [f.fnIs 0]
  | .bext f | .bins f => f.ok [rsvd (f.imm.extractLsb' 12 7), val (f.sh + f.ln + 1 ≤ 64)]
  | .addx f => f.dss ++ [f.fnBelow 4, val (f.wc ≤ 14)]
  | .xidx f => f.ds ++ [f.fnBelow 4, val (f.wc ≤ 14)]
  | .alnup f => f.ds ++ [f.fnBelow 5, val (f.wc ≤ 14), val (f.bd == 0 || f.wc ≤ 12)]
  | .br f => [f.g.okC, rsvd f.ra]
  | .brl f => [f.g.okC]
  | .bdec f => [f.g.okC, val (f.ra != 0)]
  | .jr f => f.s ++ [f.fnIs 0]
  | .jrl f => f.ds ++ [f.fnIs 0]
  | .ld f => f.ok [val (f.wc ≤ 11)]
  | .st f => f.ok [val (f.wc ≤ 11), rsvd f.sx]
  | .rdv f => [f.g.okC, rsvd f.sys]
  | .mcancel f => [f.g.okC, rsvd f.sub, rsvd (f.sys.extractLsb' 5 19)]
  | .wlpush f | .wlspawn f => f.gss ++ [f.fnBelow 1]
  | .wljoinDec f => f.ds ++ [f.fnIs 0]
  | .wljoinArm f => f.dss ++ [f.fnIs 1]
  | .wljoinAdd f => f.dss ++ [f.fnIs 2]
  | .wlfloorGate f => f.d ++ [f.fnIs 0]
  | .wlfloorFresh f => f.d ++ [f.fnIs 1]
  | .wlfloorFb f => f.d ++ [f.fnIs 2]
  | .wlyield f => f.bare
  | .flinit f => f.gss ++ [f.fnIs 0]
  | .flclaim f | .flwaitf f | .flwaitr f => f.ds ++ [f.fnIs 0]
  | .flfill f => (if f.fn.getLsbD 0 then f.gss else f.ss) ++ [f.fnBelow 1]
  | .fltake f => f.dss ++ [f.fnIs 0]
  | .flrel f => f.ss ++ [f.fnIs 0]
  | .mfence f => [f.g.okC, rsvd (f.sub.extractLsb' 3 2), rsvd (f.sys.extractLsb' 4 20), val (f.sub.extractLsb' 0 3 != 0)]
  | .mjoin f => [f.g.okC, rsvd f.sub, rsvd (f.sys.extractLsb' 3 21)]
  | .weirSet f => f.weir 3 false false
  | .weirArr f => f.weir 0 true false
  | .weirWt f => f.weir 1 false true
  | .weirSync f => f.weir 2 true true
  | .recast f =>
      let dst := (f.fn.extractLsb' 0 3).toNat
      let fr := (f.fn.extractLsb' 3 3).toNat
      f.gss ++ [val (1 ≤ dst && dst ≤ 4),
        val (if f.fn.getLsbD 9 then fr == 0 else 1 ≤ fr && fr ≤ 4), val (f.fn.extractLsb' 6 3 != 7),
        (dst == 3 || f.rd == 0, .reservedBit)]
  | .rcwait f => f.ss ++ [f.fnBelow 3, val (1 ≤ (f.fn.extractLsb' 0 3).toNat && (f.fn.extractLsb' 0 3).toNat ≤ 4)]
  | .phmark f => f.gss ++ [f.fnIs 0]
  | .phcommit f => [f.g.okC, rsvd (f.sub.extractLsb' 1 4), rsvd f.sys]
  | .phabort f => [f.g.okC, rsvd f.sys]
  | .semsig f | .semwait f => f.sem
  | .fxwin f => f.ss ++ [f.fnBelow 5]
  | .fxallow f => f.ss ++ [f.fnBelow 6]
  | .fxsendBlk f => f.s ++ [f.fnIs 0]
  | .fxsendMc f => f.common ++ cGpr f.qd ++ cSrc f.qa f.ra ++ cNone f.qb f.rb ++ [f.fnIs 2]
  | .fxsendFaa f => f.dss ++ [f.fnIs 1]
  | .fxarm f => f.s ++ [f.fnBelow 4]
  | .fxdisarm f => [f.g.okC, rsvd (f.sys.extractLsb' 1 23), val (f.sub.toNat ≤ 15), val (f.sys == 0 || f.sub == 0)]
  | .fxcntRd f => f.d ++ [f.fnBelow 4]
  | .fxcntSub f => f.ds ++ [f.fnBelow 6, val (f.fn.extractLsb' 4 2 == 1)]
  | .fxcntWt f => f.ds ++ [f.fnBelow 6, val (f.fn.extractLsb' 4 2 == 2)]
  | .fxfence f | .nop f | .eret f => f.bare
  | .trap f => [f.g.okC, rsvd f.sub, rsvd (f.sys.extractLsb' 16 8)]
  | .sysrd f => f.d ++ [val (sysNumber f.fn.toNat)]
  | .syswr f => f.wr sysPlain
  | .semWrite f => f.wr sysSem
  | .epcWrite f => f.wr sysEpc
  | .allowWrite f => f.wr sysAllow
  | .worklistRegisterWrite f => f.wr sysWl
  | .tlbinv f =>
      (if f.fn.getLsbD 3 then f.common ++ cNone f.qd f.rd ++ cNone f.qa f.ra ++ cNone f.qb f.rb else f.ss) ++
      [f.fnBelow 4, val ([1, 3, 4].contains (f.fn.extractLsb' 0 3).toNat)]
  | .snaprd f => f.ds ++ [f.fnIs 0]
  | .snapwr f => f.ss ++ [f.fnIs 0]
  | .ctxsave f => f.ds ++ [f.fnBelow 2]
  | .ctxload f => f.s ++ [f.fnIs 0]
  | .aadd f | .asub f | .amul f | .ashl f | .aand f => f.dss ++ [rsvd f.w]
  | .aaddi f => f.ctl 0 ++ [rsvd f.gen, aDst f.ad, aSrc f.aa, val (f.pk == 0 || aIsQ f.aa)]
  | .alim f => f.ctl 0x40 ++ [rsvd f.gen, if f.hi then aReg f.ad else aDst f.ad, rsvd f.aa, val (f.pk == 0)]
  | .aaddx f => f.dss ++ [rsvd (f.w.extractLsb' 4 20), val (f.wc ≤ 12)]
  | .abr f => f.ctl 0x07 ++ [rsvd f.gen, rsvd f.ad, val (f.cond.toNat ≤ 2),
      if f.cond == 0 then rsvd f.aa else aReg f.aa, val (f.pk == 0)]
  | .abrQ7 f => f.ctl 0x07 ++ [rsvd f.gen, rsvd f.ad, val (f.cond == 3), rsvd f.aa, val (f.pk == 0)]
  | .abrQ7Likely f => f.ctl 0x27 ++ [rsvd f.gen, rsvd f.ad, val (f.cond == 3 && f.likely), rsvd f.aa, val (f.pk == 0)]
  | .abrRdv f => f.ctl 0x07 ++ [rsvd f.gen, rsvd f.ad, val (f.cond == 4), rsvd f.aa, rsvd (f.imm.extractLsb' 5 27), val (f.pk == 0)]
  | .abdec f => f.ctl 0 ++ [rsvd f.gen, aReg f.ad, reg (f.ad.toNat != 16), rsvd f.aa, val (f.pk == 0)]
  | .ajr f => f.ds ++ [rsvd f.w]
  | .agen f => f.ctl 0 ++ [val (f.gen.toNat ≤ 3), rsvd f.ad, rsvd f.aa, rsvd f.imm, val (f.pk == 0)]
  | .lda f => f.mem 0x07 ++ [aDst f.ad, val (f.wc ≤ 11), val (f.pk == 0)]
  | .sta f => f.mem 0x18 ++ [aSrc f.ad, val (f.wc ≤ 11), val (!f.add || 3 ≤ f.wc),
      val (f.b27 == 0 || (f.add && (f.wc == 7 || f.wc == 9 || f.wc == 11))), val (f.pk == 0 || aIsQ f.ad)]
  | .ldv f => f.mem 0x07 ++ [aWide f.ad, val (f.tag.toNat ≤ 17), val (f.pk == 0)]
  | .stv f => f.mem 0x18 ++ [aWide f.ad, rsvd f.tag]
  | .cp f => f.copyW false false true ++ [aqOnly f.aq 0x1F, aReg f.ad, aReg f.aa, aReg f.ab, rsvd f.ac, val (f.pk == 0)]
  | .cpg f => f.copyW true true true ++ [aqOnly f.aq 0x1C, aReg f.ad, aReg f.aa, aSrc f.ab,
      if aIsQ f.ab then rsvd f.ac else aReg f.ac, val (f.pk == 0 || aIsQ f.ab)]
  | .cps f => f.copyW true true false ++ [aqOnly f.aq 0x08, aReg f.ad, aReg f.aa, aReg f.ab, aReg f.ac, val (f.pk == 0)]
  | .cpt f => f.copyW false true false ++ [aqOnly f.aq 0x07, aReg f.ad, aReg f.aa, aReg f.ab, aReg f.ac, val (f.pk == 0)]
  | .cpz f => f.copyW false false false ++ [aqOnly f.aq 0, aReg f.ad, aSrc f.aa, aReg f.ab, rsvd f.ac, val (f.pk == 0 || aIsQ f.aa)]
  | .aswz f => f.ds ++ [rsvd (f.w.extractLsb' 3 21), val ((f.w.extractLsb' 0 3).toNat ≤ 3)]
  | .fewait f => f.mem 0x02 ++ [rsvd f.ad, rsvd f.b27, val (f.pk == 0)]
  | .feset f | .feclr f | .pf f => f.mem 0 ++ [rsvd f.ad, rsvd f.b27, val (f.pk == 0)]
  | .aflclaim f | .aflwaitf f => f.ds ++ [rsvd f.w]
  | .aflfill f | .aflrel f => f.ss ++ [rsvd f.w]
  | .vadd f | .vsub f | .vmul f => f.vv tArith true 0
  | .vfma f | .vfms f | .vfnma f => f.vvv
  | .vmin f | .vmax f => f.vv tArith false 0
  | .vabs f | .vneg f => f.v1 tArith false
  | .vrcp f | .vrsqrt f | .vsqrt f | .vexp2 f | .vlog2 f => f.v1 tFloat true
  | .vand f | .vor f | .vxor f => f.vv tAll false 0
  | .vnot f => f.v1 tAll false
  | .vsll f | .vsrl f | .vsra f | .vaddsat f | .vsubsat f => f.vv tInt false 0
  | .vmulhi f => f.vv tInt false 1
  | .vcmpeq f | .vcmplt f | .vcmple f => f.cmp
  | .kand f | .kor f | .kxor f => f.kk true
  | .knot f => f.kk false
  | .kpop f | .kfirst f => f.kg
  | .vmov f => f.v1 tAll false
  | .vbcast f => f.common 0 ++ [f.tagIn tElem, vDst f.qd f.vd, gSrc f.qa f.va, vNone f.qb f.vb, vNone 0 f.vc,
      f.rmIf false, f.satIf false, f.mask]
  | .vsel f => f.common 0 ++ [f.tagIn tSel, vDst f.qd f.vd, vSrc f.qa f.va, vSrc f.qb f.vb, vNone 0 f.vc,
      f.rmIf false, f.satIf false, val (f.k != 0)]
  | .vperm f => f.vv tElem false 0
  | .vrot f => f.common 0 ++ [f.tagIn tElem, vDst f.qd f.vd, vSrc f.qa f.va, gReg f.qb f.vb, vNone 0 f.vc,
      f.rmIf false, f.satIf false, f.mask]
  | .vslide f => f.common 0 ++ [f.tagIn tElem, vDst f.qd f.vd, vSrc f.qa f.va, vSrc f.qb f.vb, gReg 0 f.vc,
      f.rmIf false, f.satIf false, f.mask]
  | .vzip f | .vunzip f => f.common 1 ++ [f.tagIn tZip, vDst f.qd f.vd, vSrc f.qa f.va, vSrc f.qb f.vb, vNone 0 f.vc,
      f.rmIf false, f.satIf false, rsvd f.k]
  | .vpart f => f.common 1 ++ [f.tagIn [6], vReg f.qd, if f.x 0 then reg (f.qa == 0 && f.va.toNat ≤ 13) else gReg f.qa f.va,
      if f.x 0 then kReg f.qb f.vb else vNone f.qb f.vb, gReg 0 f.vc, f.rmIf false, f.satIf false, val (f.k != 0)]
  | .vcompact f => f.common 0 ++ [f.tagIn tSel, vReg f.qd, vReg f.qa, gReg f.qb f.vb, vNone 0 f.vc,
      f.rmIf false, f.satIf false]
  | .vredsum f => f.red tArith true
  | .vredmax f | .vredmin f => f.red tArith false
  | .vredamax f => f.red tFloat false
  | .vscan f => f.v1 tArith true
  | .vld f => f.common 3 ++ [f.tagIn tAll, vDst f.qd f.vd, gBase f.qa f.va, vReg f.qb, f.rmIf false, f.satIf false, rsvd f.k]
  | .vst f => f.common 0 ++ [f.tagIn tAll, vReg f.qd, gBase f.qa f.va, vReg f.qb, f.rmIf false, f.satIf false, f.mask]
  | .vldt f => f.common 0 ++ [f.tagIn tElem, vDst f.qd f.vd, gBase f.qa f.va, vReg f.qb, vNone 0 f.vc,
      f.rmIf false, f.satIf false, f.mask]
  | .vcvt f => f.conv 0x3F true ++ f.window ++ [f.tagIn tElem, val (tElem.contains f.srcTag),
      if f.x 5 then gBase f.qb f.vb else vNone f.qb f.vb, val (!f.x 5 || blkPair f.srcTag f.tag.toNat)]
  | .vquant f => f.conv 0x7F true ++ f.window ++ [f.tagIn [2, 3, 4, 5, 9, 10, 11, 12, 13], val ([14, 15, 16].contains f.srcTag),
      vReg f.qd, gBase f.qb f.vb, rsvd f.k, val (!(f.x 5 && f.x 6))]
  | .vdeq f => f.conv 0x3F true ++ f.window ++ [f.tagIn [14, 15, 16], val (1 ≤ f.srcTag && f.srcTag ≤ 13), gBase f.qb f.vb,
      val (!f.x 5 || blkPair f.srcTag f.tag.toNat)]
  | .vpack f => f.conv 0x1F false ++ f.window ++ [f.tagIn tElem, val (tElem.contains f.srcTag), vNone f.qb f.vb,
      val (tagWidth f.tag.toNat < tagWidth f.srcTag)]
  | .vunpack f => f.conv 0x5F false ++ f.window ++ [f.tagIn tElem, val (tElem.contains f.srcTag), vNone f.qb f.vb,
      val (tagWidth f.tag.toNat > tagWidth f.srcTag)]
  | .vscl f => f.conv 0x20 true ++ [f.tagIn [9, 10, 11, 12, 13, 14, 15, 16, 17], gBase f.qb f.vb, vNone 0 f.vc,
      val (!f.x 5 || 12 ≤ f.tag.toNat)]
  | .vtag f => f.common 0 ++ [f.tagIn tAll, vDst f.qd f.vd, vSrc f.qa f.va, vNone f.qb f.vb, vNone 0 f.vc,
      f.rmIf false, f.satIf false, rsvd f.k]
  | .vtagrd f => f.common 0 ++ f.plain ++ [gDst f.qd f.vd, vSrc f.qa f.va, vNone f.qb f.vb, vNone 0 f.vc]
  | .gadd f => f.common 0 ++ f.plain ++ [gDst f.qd f.vd, gSrc f.qa f.va, gSrc f.qb f.vb, vNone 0 f.vc]
  | .gmov f => f.common 0 ++ f.plain ++ [gDst f.qd f.vd, gSrc f.qa f.va, vNone f.qb f.vb, vNone 0 f.vc]
  | .gaddi f => f.plain ++ [iReg f.vd, iReg f.va, rsvd f.vb]
  | .glim f => f.plain ++ [iReg f.vd, iReg f.va, val (f.vb.toNat ≤ 4), (f.vb.toNat != 4 || f.q.toNat < 16, .reservedBit)]
  | .gbr f => f.plain ++ [val (f.vd.toNat ≤ 2), rsvd f.vb, if f.vd == 0 then rsvd f.va else iReg f.va]
  | .gbrRdv f => f.plain ++ [val (f.vd == 3), rsvd f.vb, rsvd f.va, rsvd (f.q.extractLsb' 5 10)]
  | .gbdec f => f.plain ++ [reg (1 ≤ f.vd.toNat && f.vd.toNat ≤ 15), rsvd f.va, rsvd f.vb]
  | .vsemsig f | .vsemwait f => f.common 0x7F ++ f.plain ++
      [vNone f.qd f.vd, vNone f.qa f.va, vNone f.qb f.vb, vNone 0 f.vc]
  | .mbase f => f.h.ok ++ [f.h.noFp, rsvd f.h.da, rsvd f.db, f.mqOnly 0x1FF, val (f.q 32 4 ≤ 9),
      val (f.q 32 4 == 2 || f.q 36 5 == 0), val (f.q 36 5 ≤ 17), (f.q 32 4 != 2 || f.mimm.extractLsb' 16 16 == 0, .reservedBit)]
  | .mrow f => f.h.ok ++ [f.h.fp 0, rsvd f.h.dd, f.mqOnly 1, val (f.q 32 1 == 1 || f.db == 0), rsvd (f.mimm.extractLsb' 6 26)]
  | .mseed f => f.h.ok ++ [f.h.noFp, rsvd f.h.dd, rsvd f.db, f.mqOnly 0xF, val (f.q 33 3 ≤ 6), rsvd f.mimm]
  | .mternSeed f => f.tern 0
  | .mternCim f => f.tern 1
  | .mternTile f => f.tern 2
  | .mcimldMem f => f.h.ok ++ [f.h.noFp, rsvd f.h.dd, rsvd f.db, rsvd f.mq, rsvd (f.mimm.extractLsb' 20 12)]
  | .mcimldBasis f => f.h.ok ++ [f.h.noFp, rsvd f.h.dd, rsvd f.h.da, rsvd f.db, f.mqOnly 0x1F, val (f.q 32 1 == 1),
      rsvd (f.mimm.extractLsb' 20 12)]
  | .mfp f => f.h.ok ++ [f.h.fp 1, f.mqOnly 0x1FF, val (9 ≤ f.q 32 5 && f.q 32 5 ≤ 17), val (f.q 37 1 == 0 || f.h.da == 0),
      val (f.q 37 1 == 1 || f.i 16 6 == 0), rsvd (f.mimm.extractLsb' 22 10), f.amOm 38 39]
  | .maccz f => f.h.ok ++ [f.h.fp 1, rsvd f.h.da, rsvd f.db, rsvd f.mq] ++ f.nOk
  | .maccrd f => f.h.ok ++ [f.h.fp 1, rsvd f.db, f.mqOnly 0x1FFF, val (f.q 32 3 ≤ 3),
      val (if f.q 32 3 = 1 then f.q 35 6 ≤ 39 else f.q 35 6 = 0), val (f.q 41 3 ≤ 4)] ++ f.nOk
  | .maccwr f => f.h.ok ++ [f.h.fp 1, rsvd f.db, f.mqOnly 0x3FF, val (if f.q 32 1 = 1 then f.q 33 3 ≤ 3 else f.q 33 3 = 0),
      val (if f.q 33 3 = 1 then f.q 36 6 ≤ 39 else f.q 36 6 = 0)] ++ f.nOk
  | .mchk f => f.h.ok ++ [f.h.fp 0, rsvd f.h.dd, rsvd f.h.da]
  | .mscan f => f.h.ok ++ [f.h.fp 1]
  | .mtest f => f.h.ok ++ [f.h.noFp, rsvd f.h.dd, rsvd f.h.da, rsvd f.db, f.mqOnly 0x3F, val (f.q 32 2 ≤ 2), rsvd f.mimm]
  | .mloop f => f.h.ok ++ [f.h.noFp, rsvd f.h.dd, rsvd f.h.da, rsvd f.db, f.mqOnly 0x3F,
      (f.h.wid == 0 && f.h.wcnt == 0 && f.h.sid == 0 && f.h.scnt == 0, .reservedBit)]
  | .msem f => f.h.ok ++ [f.h.noFp, rsvd f.h.dd, rsvd f.h.da, rsvd f.db, rsvd f.mq, rsvd f.mimm]
  | .mdrain f => f.h.ok ++ [f.h.noFp, rsvd f.h.dd, rsvd f.h.da, rsvd f.db, rsvd f.mq, rsvd f.mimm]
  | .mdrainRdv f => f.h.ok ++ [f.h.noFp, rsvd f.h.dd, rsvd f.h.da, rsvd f.db, f.mqOnly 0x3F, val (f.q 32 1 == 1), rsvd f.mimm]
  | .tlbinvComplete => []
  | .resultLanding => []
  | .commandStart => []
  | .commandComplete => []
  | .mcancelAct => []
  | .injectedSelfTest => []
  | .rendezvousResume => []
  | .queueStall => []
  | .feStall => []
  | .syncStall => []
  | .rcStall => []
  | .handlerEntry => []
  | .likelyResolution => []
  | .loadReturn => []
  | .copyComplete => []
  | .copyStop => []
  | .walkComplete => []
  | .recastComplete => []
  | .flumeHomeOperation => []
  | .weirRelease => []
  | .taskDispatch => []
  | .taskStart => []
  | .taskRetire => []
  | .pushAccept => []
  | .floorReduction => []
  | .domainFloorReduction => []
  | .neighbourRequest => []
  | .recordForward => []
  | .inversion => []
  | .termination => []
  | .preemptRequest => []
  | .saveAreaWrite => []
  | .resume => []
  | .contextKill => []
  | .killed => []
  | .homeMessage => []
  | .readData => []
  | .reply => []
  | .memoryAcknowledgement => []
  | .slotArrival => []
  | .triggerFire => []
  | .launch => []
  | .loadImage => []
  | .createContext => []
  | .queryIdentity => []
  | .queryRoleEntry => []
  | .queryFlumeBlock => []
  | .queryGranule => []
  | .queryDramBank => []
  | .resetContext => []
  | .readErrors => []
  | .packageReset => []
  | .hostWrite => []
  | .hostRead => []
  | .powerEstimate => []
  | .eccInterval => []
  | .bankReencode => []
  | .reencodeComplete => []
  | .reservedOpcode => []
  | .wordFetchFault => []
  | .linkLayerRetry => []
  | .badOp => []

end Sys2Proof
end

