-- ==== Sys2Proof/WellFormed.lean ====
section
/-!
DEFINITION. Well-formedness: an instruction whose fields all pass the tests of 04 R77 (Machine/Fields.lean).
`Instr.illegal i` names the first rule that the fields of `i` break, or is `none`; events are never illegal.
-/
namespace Sys2Proof

/-- The name of the first check an instruction fails; `none` where it is well formed. -/
def Instr.illegal (i : Instr) : Option DecodeError := firstBad i.checks

/-- R77: every field of the instruction holds a defined value. -/
abbrev Instr.WellFormed (i : Instr) : Prop := i.illegal = none

end Sys2Proof
end

