-- ==== Sys2Proof/Decode.lean ====
section
/-!
DEFINITION. The decoder and the encoder of the four streams (04 R73 to R103).
A word is cut into the fields of the format its opcode selects; the instruction these give is then held
against the tests of R77 (WellFormed), and a word that fails one is refused with the name of the test.
-/
namespace Sys2Proof

/-- The upper half of an M word (Table 4.16). -/
def mHeadOf (w : BitVec 128) : MHead :=
  { fst := w.extractLsb' 121 1,
    lst := w.extractLsb' 120 1,
    lvl := w.extractLsb' 117 3,
    wid := w.extractLsb' 113 4,
    wcnt := w.extractLsb' 110 3,
    sid := w.extractLsb' 106 4,
    scnt := w.extractLsb' 103 3,
    lgen := w.extractLsb' 99 4,
    fw := w.extractLsb' 98 1,
    fpb := w.extractLsb' 80 18,
    fpx := w.extractLsb' 72 8,
    dd := w.extractLsb' 68 4,
    da := w.extractLsb' 64 4 }

/-- The bits 121:64 of an M word. -/
def MHead.bits (h : MHead) : BitVec 58 :=
  h.fst ++ h.lst ++ h.lvl ++ h.wid ++ h.wcnt ++ h.sid ++ h.scnt ++ h.lgen ++ h.fw ++ h.fpb ++ h.fpx ++ h.dd ++ h.da

/-- The fields of a word of format CR (Table 4.4). -/
def crOf (w : BitVec 48) : CrF :=
  { g := { gd := w.extractLsb' 36 5, gb := w.extractLsb' 30 6, gs := w.extractLsb' 29 1 },
    rd := w.extractLsb' 24 5,
    ra := w.extractLsb' 19 5,
    rb := w.extractLsb' 14 5,
    pk := w.extractLsb' 13 1,
    qd := w.extractLsb' 12 1,
    qa := w.extractLsb' 11 1,
    qb := w.extractLsb' 10 1,
    fn := w.extractLsb' 0 10 }

/-- The word of format CR with an opcode and its fields. -/
def crWord (op : BitVec 7) (f : CrF) : BitVec 48 :=
  op ++ f.g.gd ++ f.g.gb ++ f.g.gs ++ f.rd ++ f.ra ++ f.rb ++ f.pk ++ f.qd ++ f.qa ++ f.qb ++ f.fn

/-- The fields of a word of format CI (Table 4.5). -/
def ciOf (w : BitVec 48) : CiF :=
  { g := { gd := w.extractLsb' 36 5, gb := w.extractLsb' 30 6, gs := w.extractLsb' 29 1 },
    rd := w.extractLsb' 24 5,
    ra := w.extractLsb' 19 5,
    imm := w.extractLsb' 0 19 }

/-- The word of format CI with an opcode and its fields. -/
def ciWord (op : BitVec 7) (f : CiF) : BitVec 48 :=
  op ++ f.g.gd ++ f.g.gb ++ f.g.gs ++ f.rd ++ f.ra ++ f.imm

/-- The fields of a word of format CB (Table 4.6). -/
def cbOf (w : BitVec 48) : CbF :=
  { g := { gd := w.extractLsb' 36 5, gb := w.extractLsb' 30 6, gs := w.extractLsb' 29 1 },
    ra := w.extractLsb' 24 5,
    off := w.extractLsb' 0 24 }

/-- The word of format CB with an opcode and its fields. -/
def cbWord (op : BitVec 7) (f : CbF) : BitVec 48 :=
  op ++ f.g.gd ++ f.g.gb ++ f.g.gs ++ f.ra ++ f.off

/-- The fields of a word of format CS (Table 4.7). -/
def csOf (w : BitVec 48) : CsF :=
  { g := { gd := w.extractLsb' 36 5, gb := w.extractLsb' 30 6, gs := w.extractLsb' 29 1 },
    sub := w.extractLsb' 24 5,
    sys := w.extractLsb' 0 24 }

/-- The word of format CS with an opcode and its fields. -/
def csWord (op : BitVec 7) (f : CsF) : BitVec 48 :=
  op ++ f.g.gd ++ f.g.gb ++ f.g.gs ++ f.sub ++ f.sys

/-- The fields of a word of format AR (Table 4.9). -/
def arOf (w : BitVec 64) : ArF :=
  { pk := w.extractLsb' 55 1,
    aq := w.extractLsb' 48 7,
    gen := w.extractLsb' 44 4,
    ad := w.extractLsb' 39 5,
    aa := w.extractLsb' 34 5,
    ab := w.extractLsb' 29 5,
    ac := w.extractLsb' 24 5,
    w := w.extractLsb' 0 24 }

/-- The word of format AR with an opcode and its fields. -/
def arWord (op : BitVec 8) (f : ArF) : BitVec 64 :=
  op ++ f.pk ++ f.aq ++ f.gen ++ f.ad ++ f.aa ++ f.ab ++ f.ac ++ f.w

/-- The fields of a word of format AI (Table 4.10). -/
def aiOf (w : BitVec 64) : AiF :=
  { pk := w.extractLsb' 55 1,
    aq := w.extractLsb' 48 7,
    gen := w.extractLsb' 44 4,
    ad := w.extractLsb' 39 5,
    aa := w.extractLsb' 34 5,
    rsv := w.extractLsb' 32 2,
    imm := w.extractLsb' 0 32 }

/-- The word of format AI with an opcode and its fields. -/
def aiWord (op : BitVec 8) (f : AiF) : BitVec 64 :=
  op ++ f.pk ++ f.aq ++ f.gen ++ f.ad ++ f.aa ++ f.rsv ++ f.imm

/-- The fields of a word of format VF (Table 4.13 and 4.14). -/
def vfOf (w : BitVec 64) : VF :=
  { g := { gd := w.extractLsb' 50 5, gb := w.extractLsb' 44 6, gs := w.extractLsb' 43 1 },
    tag := w.extractLsb' 38 5,
    vd := w.extractLsb' 33 5,
    va := w.extractLsb' 28 5,
    vb := w.extractLsb' 23 5,
    vc := w.extractLsb' 18 5,
    k := w.extractLsb' 15 3,
    rm := w.extractLsb' 12 3,
    sat := w.extractLsb' 11 1,
    pk := w.extractLsb' 10 1,
    qd := w.extractLsb' 9 1,
    qa := w.extractLsb' 8 1,
    qb := w.extractLsb' 7 1,
    qx := w.extractLsb' 0 7 }

/-- The word of format VF with an opcode and its fields. -/
def vfWord (op : BitVec 9) (f : VF) : BitVec 64 :=
  op ++ f.g.gd ++ f.g.gb ++ f.g.gs ++ f.tag ++ f.vd ++ f.va ++ f.vb ++ f.vc ++ f.k ++ f.rm ++ f.sat ++ f.pk ++ f.qd ++ f.qa ++ f.qb ++ f.qx

/-- The fields of a word of format VI (Table 4.13). -/
def viOf (w : BitVec 64) : ViF :=
  { g := { gd := w.extractLsb' 50 5, gb := w.extractLsb' 44 6, gs := w.extractLsb' 43 1 },
    tag := w.extractLsb' 38 5,
    vd := w.extractLsb' 33 5,
    va := w.extractLsb' 28 5,
    vb := w.extractLsb' 23 5,
    vc := w.extractLsb' 18 5,
    k := w.extractLsb' 15 3,
    q := w.extractLsb' 0 15 }

/-- The word of format VI with an opcode and its fields. -/
def viWord (op : BitVec 9) (f : ViF) : BitVec 64 :=
  op ++ f.g.gd ++ f.g.gb ++ f.g.gs ++ f.tag ++ f.vd ++ f.va ++ f.vb ++ f.vc ++ f.k ++ f.q

/-- The fields of a word of format MF (Table 4.16). -/
def mfOf (w : BitVec 128) : MF :=
  { h := mHeadOf w,
    db := w.extractLsb' 60 4,
    mq := w.extractLsb' 32 28,
    mimm := w.extractLsb' 0 32 }

/-- The word of format MF with an opcode and its fields. -/
def mfWord (op : BitVec 6) (f : MF) : BitVec 128 :=
  op ++ f.h.bits ++ f.db ++ f.mq ++ f.mimm

/-- The fields of a word of format MK (Table 4.16). -/
def mkOf (w : BitVec 128) : MkF :=
  { h := mHeadOf w,
    const := w.extractLsb' 0 64 }

/-- The word of format MK with an opcode and its fields. -/
def mkWord (op : BitVec 6) (f : MkF) : BitVec 128 :=
  op ++ f.h.bits ++ f.const

/-- The row of the opcode `wljoin` that its subfields select. -/
def wljoinRow (f : CrF) : Instr :=
  match f.fn.toNat with | 1 => .wljoinArm f | 2 => .wljoinAdd f | _ => .wljoinDec f

/-- The row of the opcode `wlfloor` that its subfields select. -/
def wlfloorRow (f : CrF) : Instr :=
  match f.fn.toNat with | 1 => .wlfloorFresh f | 2 => .wlfloorFb f | _ => .wlfloorGate f

/-- The row of the opcode `weir` that its subfields select. -/
def weirRow (f : CsF) : Instr :=
  match f.wAct with | 0 => .weirArr f | 1 => .weirWt f | 2 => .weirSync f | _ => .weirSet f

/-- The row of the opcode `fxsend` that its subfields select. -/
def fxsendRow (f : CrF) : Instr :=
  match f.fn.toNat with | 1 => .fxsendFaa f | 2 => .fxsendMc f | _ => .fxsendBlk f

/-- The row of the opcode `fxcnt` that its subfields select. -/
def fxcntRow (f : CrF) : Instr :=
  match (f.fn.extractLsb' 4 2).toNat with | 1 => .fxcntSub f | 2 => .fxcntWt f | _ => .fxcntRd f

/-- The row of the opcode `syswr` that its subfields select. -/
def syswrRow (f : CrF) : Instr :=
  if sysSem f.fn.toNat then .semWrite f else if sysEpc f.fn.toNat then .epcWrite f else if sysAllow f.fn.toNat then .allowWrite f else if sysWl f.fn.toNat then .worklistRegisterWrite f else .syswr f

/-- The row of the opcode `abr` that its subfields select. -/
def abrRow (f : AiF) : Instr :=
  if f.cond == 4 then .abrRdv f else if f.cond == 3 then (if f.likely then .abrQ7Likely f else .abrQ7 f) else .abr f

/-- The row of the opcode `gbr` that its subfields select. -/
def gbrRow (f : ViF) : Instr :=
  if f.vd == 3 then .gbrRdv f else .gbr f

/-- The row of the opcode `mtern` that its subfields select. -/
def mternRow (f : MF) : Instr :=
  match f.q 32 2 with | 0 => .mternSeed f | 1 => .mternCim f | _ => .mternTile f

/-- The row of the opcode `mcimld` that its subfields select. -/
def mcimldRow (f : MF) : Instr :=
  if f.q 32 1 = 1 then .mcimldBasis f else .mcimldMem f

/-- The row of the opcode `mdrain` that its subfields select. -/
def mdrainRow (f : MF) : Instr :=
  if f.q 32 1 = 1 then .mdrainRdv f else .mdrain f

/-- The row that the opcode of a word selects (Table 4.8); a reserved opcode has none. -/
def rowC (op : Nat) (w : BitVec 48) : Option Instr :=
  match op with
  | 0x01 => some (.add (crOf w))
  | 0x02 => some (.sub (crOf w))
  | 0x03 => some (.mul (crOf w))
  | 0x04 => some (.mulh (crOf w))
  | 0x05 => some (.mulhn (crOf w))
  | 0x06 => some (.div (crOf w))
  | 0x07 => some (.divn (crOf w))
  | 0x08 => some (.rem (crOf w))
  | 0x09 => some (.remn (crOf w))
  | 0x0a => some (.and (crOf w))
  | 0x0b => some (.or (crOf w))
  | 0x0c => some (.xor (crOf w))
  | 0x0d => some (.andn (crOf w))
  | 0x0e => some (.sll (crOf w))
  | 0x0f => some (.srl (crOf w))
  | 0x10 => some (.sra (crOf w))
  | 0x11 => some (.min (crOf w))
  | 0x12 => some (.max (crOf w))
  | 0x13 => some (.minn (crOf w))
  | 0x14 => some (.maxn (crOf w))
  | 0x15 => some (.cmpeq (crOf w))
  | 0x16 => some (.cmplt (crOf w))
  | 0x17 => some (.cmpltn (crOf w))
  | 0x18 => some (.cmple (crOf w))
  | 0x19 => some (.cmplen (crOf w))
  | 0x20 => some (.addi (ciOf w))
  | 0x21 => some (.andi (ciOf w))
  | 0x22 => some (.ori (ciOf w))
  | 0x23 => some (.xori (ciOf w))
  | 0x24 => some (.slli (ciOf w))
  | 0x25 => some (.srli (ciOf w))
  | 0x26 => some (.srai (ciOf w))
  | 0x27 => some (.cmpeqi (ciOf w))
  | 0x28 => some (.cmplti (ciOf w))
  | 0x29 => some (.lim (ciOf w))
  | 0x2a => some (.limh (ciOf w))
  | 0x30 => some (.clz (crOf w))
  | 0x31 => some (.ctz (crOf w))
  | 0x32 => some (.popc (crOf w))
  | 0x33 => some (.bext (ciOf w))
  | 0x34 => some (.bins (ciOf w))
  | 0x35 => some (.bset (ciOf w))
  | 0x36 => some (.bclr (ciOf w))
  | 0x37 => some (.addx (crOf w))
  | 0x38 => some (.xidx (crOf w))
  | 0x39 => some (.alnup (crOf w))
  | 0x40 => some (.br (cbOf w))
  | 0x41 => some (.brl (cbOf w))
  | 0x42 => some (.jr (crOf w))
  | 0x43 => some (.jrl (crOf w))
  | 0x44 => some (.bdec (cbOf w))
  | 0x45 => some (.ld (ciOf w))
  | 0x46 => some (.st (ciOf w))
  | 0x48 => some (.rdv (csOf w))
  | 0x49 => some (.mcancel (csOf w))
  | 0x4a => some (.wlpush (crOf w))
  | 0x4b => some (.wlspawn (crOf w))
  | 0x4c => some (wljoinRow (crOf w))
  | 0x4d => some (wlfloorRow (crOf w))
  | 0x4e => some (.wlyield (csOf w))
  | 0x50 => some (.flinit (crOf w))
  | 0x51 => some (.flclaim (crOf w))
  | 0x52 => some (.flfill (crOf w))
  | 0x53 => some (.flwaitf (crOf w))
  | 0x54 => some (.flwaitr (crOf w))
  | 0x55 => some (.fltake (crOf w))
  | 0x56 => some (.flrel (crOf w))
  | 0x58 => some (.mfence (csOf w))
  | 0x59 => some (.mjoin (csOf w))
  | 0x5a => some (weirRow (csOf w))
  | 0x5b => some (.recast (crOf w))
  | 0x5c => some (.rcwait (crOf w))
  | 0x5d => some (.phmark (crOf w))
  | 0x5e => some (.phcommit (csOf w))
  | 0x5f => some (.phabort (csOf w))
  | 0x60 => some (.semsig (csOf w))
  | 0x61 => some (.semwait (csOf w))
  | 0x62 => some (.fxwin (crOf w))
  | 0x63 => some (.fxallow (crOf w))
  | 0x64 => some (fxsendRow (crOf w))
  | 0x65 => some (.fxarm (crOf w))
  | 0x66 => some (.fxdisarm (csOf w))
  | 0x67 => some (fxcntRow (crOf w))
  | 0x68 => some (.fxfence (csOf w))
  | 0x70 => some (.nop (csOf w))
  | 0x71 => some (.trap (csOf w))
  | 0x72 => some (.eret (csOf w))
  | 0x73 => some (.sysrd (crOf w))
  | 0x74 => some (syswrRow (crOf w))
  | 0x75 => some (.tlbinv (crOf w))
  | 0x76 => some (.snaprd (crOf w))
  | 0x77 => some (.snapwr (crOf w))
  | 0x78 => some (.ctxsave (crOf w))
  | 0x79 => some (.ctxload (crOf w))
  | _ => none

/-- The row that the opcode of a word selects (Table 4.12); a reserved opcode has none. -/
def rowA (op : Nat) (w : BitVec 64) : Option Instr :=
  match op with
  | 0x01 => some (.aadd (arOf w))
  | 0x02 => some (.aaddi (aiOf w))
  | 0x03 => some (.asub (arOf w))
  | 0x04 => some (.amul (arOf w))
  | 0x05 => some (.ashl (arOf w))
  | 0x06 => some (.aand (arOf w))
  | 0x07 => some (.alim (aiOf w))
  | 0x08 => some (.aaddx (arOf w))
  | 0x10 => some (abrRow (aiOf w))
  | 0x11 => some (.abdec (aiOf w))
  | 0x12 => some (.ajr (arOf w))
  | 0x13 => some (.agen (aiOf w))
  | 0x18 => some (.lda (aiOf w))
  | 0x19 => some (.ldv (aiOf w))
  | 0x1a => some (.sta (aiOf w))
  | 0x1b => some (.stv (aiOf w))
  | 0x20 => some (.cp (arOf w))
  | 0x21 => some (.cpg (arOf w))
  | 0x22 => some (.cps (arOf w))
  | 0x23 => some (.cpt (arOf w))
  | 0x24 => some (.cpz (arOf w))
  | 0x28 => some (.aswz (arOf w))
  | 0x2c => some (.fewait (aiOf w))
  | 0x2d => some (.feset (aiOf w))
  | 0x2e => some (.feclr (aiOf w))
  | 0x30 => some (.pf (aiOf w))
  | 0x34 => some (.aflclaim (arOf w))
  | 0x35 => some (.aflfill (arOf w))
  | 0x36 => some (.aflwaitf (arOf w))
  | 0x37 => some (.aflrel (arOf w))
  | _ => none

/-- The row that the opcode of a word selects (Table 4.15); a reserved opcode has none. -/
def rowV (op : Nat) (w : BitVec 64) : Option Instr :=
  match op with
  | 0x01 => some (.vadd (vfOf w))
  | 0x02 => some (.vsub (vfOf w))
  | 0x03 => some (.vmul (vfOf w))
  | 0x04 => some (.vfma (vfOf w))
  | 0x05 => some (.vfms (vfOf w))
  | 0x06 => some (.vfnma (vfOf w))
  | 0x07 => some (.vmin (vfOf w))
  | 0x08 => some (.vmax (vfOf w))
  | 0x09 => some (.vabs (vfOf w))
  | 0x0a => some (.vneg (vfOf w))
  | 0x0b => some (.vrcp (vfOf w))
  | 0x0c => some (.vrsqrt (vfOf w))
  | 0x0d => some (.vsqrt (vfOf w))
  | 0x0e => some (.vexp2 (vfOf w))
  | 0x0f => some (.vlog2 (vfOf w))
  | 0x10 => some (.vand (vfOf w))
  | 0x11 => some (.vor (vfOf w))
  | 0x12 => some (.vxor (vfOf w))
  | 0x13 => some (.vnot (vfOf w))
  | 0x14 => some (.vsll (vfOf w))
  | 0x15 => some (.vsrl (vfOf w))
  | 0x16 => some (.vsra (vfOf w))
  | 0x17 => some (.vaddsat (vfOf w))
  | 0x18 => some (.vsubsat (vfOf w))
  | 0x19 => some (.vmulhi (vfOf w))
  | 0x20 => some (.vcmpeq (vfOf w))
  | 0x21 => some (.vcmplt (vfOf w))
  | 0x22 => some (.vcmple (vfOf w))
  | 0x28 => some (.kand (vfOf w))
  | 0x29 => some (.kor (vfOf w))
  | 0x2a => some (.kxor (vfOf w))
  | 0x2b => some (.knot (vfOf w))
  | 0x2c => some (.kpop (vfOf w))
  | 0x2d => some (.kfirst (vfOf w))
  | 0x30 => some (.vmov (vfOf w))
  | 0x31 => some (.vbcast (vfOf w))
  | 0x32 => some (.vsel (vfOf w))
  | 0x33 => some (.vperm (vfOf w))
  | 0x34 => some (.vrot (vfOf w))
  | 0x35 => some (.vslide (vfOf w))
  | 0x36 => some (.vzip (vfOf w))
  | 0x37 => some (.vunzip (vfOf w))
  | 0x38 => some (.vpart (vfOf w))
  | 0x39 => some (.vcompact (vfOf w))
  | 0x40 => some (.vredsum (vfOf w))
  | 0x41 => some (.vredmax (vfOf w))
  | 0x42 => some (.vredmin (vfOf w))
  | 0x43 => some (.vredamax (vfOf w))
  | 0x44 => some (.vscan (vfOf w))
  | 0x48 => some (.vld (vfOf w))
  | 0x49 => some (.vst (vfOf w))
  | 0x4a => some (.vldt (vfOf w))
  | 0x50 => some (.vcvt (vfOf w))
  | 0x51 => some (.vquant (vfOf w))
  | 0x52 => some (.vdeq (vfOf w))
  | 0x53 => some (.vpack (vfOf w))
  | 0x54 => some (.vunpack (vfOf w))
  | 0x55 => some (.vscl (vfOf w))
  | 0x58 => some (.vtag (vfOf w))
  | 0x59 => some (.vtagrd (vfOf w))
  | 0x60 => some (.gadd (vfOf w))
  | 0x61 => some (.gaddi (viOf w))
  | 0x62 => some (.glim (viOf w))
  | 0x63 => some (.gmov (vfOf w))
  | 0x64 => some (gbrRow (viOf w))
  | 0x65 => some (.gbdec (viOf w))
  | 0x68 => some (.vsemsig (vfOf w))
  | 0x69 => some (.vsemwait (vfOf w))
  | _ => none

/-- The row that the opcode of a word selects (Table 4.17); a reserved opcode has none. -/
def rowM (op : Nat) (w : BitVec 128) : Option Instr :=
  match op with
  | 0x01 => some (.mbase (mfOf w))
  | 0x02 => some (.mrow (mfOf w))
  | 0x03 => some (.mseed (mfOf w))
  | 0x04 => some (mternRow (mfOf w))
  | 0x05 => some (mcimldRow (mfOf w))
  | 0x06 => some (.mfp (mfOf w))
  | 0x07 => some (.maccz (mfOf w))
  | 0x08 => some (.maccrd (mfOf w))
  | 0x09 => some (.maccwr (mfOf w))
  | 0x0a => some (.mchk (mkOf w))
  | 0x0b => some (.mscan (mkOf w))
  | 0x0c => some (.mtest (mfOf w))
  | 0x0d => some (.mloop (mfOf w))
  | 0x0e => some (.msem (mfOf w))
  | 0x0f => some (mdrainRow (mfOf w))
  | _ => none

/-- R77, R78: the instruction of a row, or the first rule its fields break. -/
def decideRow (r : Option Instr) : Except DecodeError Instr :=
  match r with
  | none => .error .reservedOpcode
  | some i => match i.illegal with
    | none => .ok i
    | some e => .error e

/-- The C stream's decoder (R78). -/
def decodeC (w : BitVec 48) : Except DecodeError Instr := decideRow (rowC (w.extractLsb' 41 7).toNat w)
/-- The A stream's decoder. -/
def decodeA (w : BitVec 64) : Except DecodeError Instr := decideRow (rowA (w.extractLsb' 56 8).toNat w)
/-- The V stream's decoder. -/
def decodeV (w : BitVec 64) : Except DecodeError Instr := decideRow (rowV (w.extractLsb' 55 9).toNat w)
/-- The M stream's decoder. -/
def decodeM (w : BitVec 128) : Except DecodeError Instr := decideRow (rowM (w.extractLsb' 122 6).toNat w)

/-- The size of a word of each stream, in bits (R73). -/
def Str.wordBits : Str → Nat
  | .c => 48 | .a => 64 | .v => 64 | .m => 128

/-- The decoder of a stream, on a word given as a number below 2^wordBits. -/
def decode (st : Str) (w : Nat) : Except DecodeError Instr :=
  match st with
  | .c => decodeC (BitVec.ofNat 48 w)
  | .a => decodeA (BitVec.ofNat 64 w)
  | .v => decodeV (BitVec.ofNat 64 w)
  | .m => decodeM (BitVec.ofNat 128 w)

/-- The stream and word of an instruction; an event of the part has no word. -/
def encode : Instr → Option (Str × Nat)
  | .add f => some (.c, (crWord 0x01 f).toNat)
  | .sub f => some (.c, (crWord 0x02 f).toNat)
  | .mul f => some (.c, (crWord 0x03 f).toNat)
  | .mulh f => some (.c, (crWord 0x04 f).toNat)
  | .mulhn f => some (.c, (crWord 0x05 f).toNat)
  | .div f => some (.c, (crWord 0x06 f).toNat)
  | .divn f => some (.c, (crWord 0x07 f).toNat)
  | .rem f => some (.c, (crWord 0x08 f).toNat)
  | .remn f => some (.c, (crWord 0x09 f).toNat)
  | .and f => some (.c, (crWord 0x0a f).toNat)
  | .or f => some (.c, (crWord 0x0b f).toNat)
  | .xor f => some (.c, (crWord 0x0c f).toNat)
  | .andn f => some (.c, (crWord 0x0d f).toNat)
  | .sll f => some (.c, (crWord 0x0e f).toNat)
  | .srl f => some (.c, (crWord 0x0f f).toNat)
  | .sra f => some (.c, (crWord 0x10 f).toNat)
  | .min f => some (.c, (crWord 0x11 f).toNat)
  | .max f => some (.c, (crWord 0x12 f).toNat)
  | .minn f => some (.c, (crWord 0x13 f).toNat)
  | .maxn f => some (.c, (crWord 0x14 f).toNat)
  | .cmpeq f => some (.c, (crWord 0x15 f).toNat)
  | .cmplt f => some (.c, (crWord 0x16 f).toNat)
  | .cmpltn f => some (.c, (crWord 0x17 f).toNat)
  | .cmple f => some (.c, (crWord 0x18 f).toNat)
  | .cmplen f => some (.c, (crWord 0x19 f).toNat)
  | .addi f => some (.c, (ciWord 0x20 f).toNat)
  | .andi f => some (.c, (ciWord 0x21 f).toNat)
  | .ori f => some (.c, (ciWord 0x22 f).toNat)
  | .xori f => some (.c, (ciWord 0x23 f).toNat)
  | .slli f => some (.c, (ciWord 0x24 f).toNat)
  | .srli f => some (.c, (ciWord 0x25 f).toNat)
  | .srai f => some (.c, (ciWord 0x26 f).toNat)
  | .cmpeqi f => some (.c, (ciWord 0x27 f).toNat)
  | .cmplti f => some (.c, (ciWord 0x28 f).toNat)
  | .lim f => some (.c, (ciWord 0x29 f).toNat)
  | .limh f => some (.c, (ciWord 0x2a f).toNat)
  | .clz f => some (.c, (crWord 0x30 f).toNat)
  | .ctz f => some (.c, (crWord 0x31 f).toNat)
  | .popc f => some (.c, (crWord 0x32 f).toNat)
  | .bext f => some (.c, (ciWord 0x33 f).toNat)
  | .bins f => some (.c, (ciWord 0x34 f).toNat)
  | .bset f => some (.c, (ciWord 0x35 f).toNat)
  | .bclr f => some (.c, (ciWord 0x36 f).toNat)
  | .addx f => some (.c, (crWord 0x37 f).toNat)
  | .xidx f => some (.c, (crWord 0x38 f).toNat)
  | .alnup f => some (.c, (crWord 0x39 f).toNat)
  | .br f => some (.c, (cbWord 0x40 f).toNat)
  | .brl f => some (.c, (cbWord 0x41 f).toNat)
  | .jr f => some (.c, (crWord 0x42 f).toNat)
  | .jrl f => some (.c, (crWord 0x43 f).toNat)
  | .bdec f => some (.c, (cbWord 0x44 f).toNat)
  | .ld f => some (.c, (ciWord 0x45 f).toNat)
  | .st f => some (.c, (ciWord 0x46 f).toNat)
  | .rdv f => some (.c, (csWord 0x48 f).toNat)
  | .mcancel f => some (.c, (csWord 0x49 f).toNat)
  | .wlpush f => some (.c, (crWord 0x4a f).toNat)
  | .wlspawn f => some (.c, (crWord 0x4b f).toNat)
  | .wljoinDec f => some (.c, (crWord 0x4c f).toNat)
  | .wljoinArm f => some (.c, (crWord 0x4c f).toNat)
  | .wljoinAdd f => some (.c, (crWord 0x4c f).toNat)
  | .wlfloorGate f => some (.c, (crWord 0x4d f).toNat)
  | .wlfloorFresh f => some (.c, (crWord 0x4d f).toNat)
  | .wlfloorFb f => some (.c, (crWord 0x4d f).toNat)
  | .wlyield f => some (.c, (csWord 0x4e f).toNat)
  | .flinit f => some (.c, (crWord 0x50 f).toNat)
  | .flclaim f => some (.c, (crWord 0x51 f).toNat)
  | .flfill f => some (.c, (crWord 0x52 f).toNat)
  | .flwaitf f => some (.c, (crWord 0x53 f).toNat)
  | .flwaitr f => some (.c, (crWord 0x54 f).toNat)
  | .fltake f => some (.c, (crWord 0x55 f).toNat)
  | .flrel f => some (.c, (crWord 0x56 f).toNat)
  | .mfence f => some (.c, (csWord 0x58 f).toNat)
  | .mjoin f => some (.c, (csWord 0x59 f).toNat)
  | .weirSet f => some (.c, (csWord 0x5a f).toNat)
  | .weirArr f => some (.c, (csWord 0x5a f).toNat)
  | .weirWt f => some (.c, (csWord 0x5a f).toNat)
  | .weirSync f => some (.c, (csWord 0x5a f).toNat)
  | .recast f => some (.c, (crWord 0x5b f).toNat)
  | .rcwait f => some (.c, (crWord 0x5c f).toNat)
  | .phmark f => some (.c, (crWord 0x5d f).toNat)
  | .phcommit f => some (.c, (csWord 0x5e f).toNat)
  | .phabort f => some (.c, (csWord 0x5f f).toNat)
  | .semsig f => some (.c, (csWord 0x60 f).toNat)
  | .semwait f => some (.c, (csWord 0x61 f).toNat)
  | .fxwin f => some (.c, (crWord 0x62 f).toNat)
  | .fxallow f => some (.c, (crWord 0x63 f).toNat)
  | .fxsendBlk f => some (.c, (crWord 0x64 f).toNat)
  | .fxsendMc f => some (.c, (crWord 0x64 f).toNat)
  | .fxsendFaa f => some (.c, (crWord 0x64 f).toNat)
  | .fxarm f => some (.c, (crWord 0x65 f).toNat)
  | .fxdisarm f => some (.c, (csWord 0x66 f).toNat)
  | .fxcntRd f => some (.c, (crWord 0x67 f).toNat)
  | .fxcntSub f => some (.c, (crWord 0x67 f).toNat)
  | .fxcntWt f => some (.c, (crWord 0x67 f).toNat)
  | .fxfence f => some (.c, (csWord 0x68 f).toNat)
  | .nop f => some (.c, (csWord 0x70 f).toNat)
  | .trap f => some (.c, (csWord 0x71 f).toNat)
  | .eret f => some (.c, (csWord 0x72 f).toNat)
  | .sysrd f => some (.c, (crWord 0x73 f).toNat)
  | .syswr f => some (.c, (crWord 0x74 f).toNat)
  | .semWrite f => some (.c, (crWord 0x74 f).toNat)
  | .epcWrite f => some (.c, (crWord 0x74 f).toNat)
  | .allowWrite f => some (.c, (crWord 0x74 f).toNat)
  | .worklistRegisterWrite f => some (.c, (crWord 0x74 f).toNat)
  | .tlbinv f => some (.c, (crWord 0x75 f).toNat)
  | .snaprd f => some (.c, (crWord 0x76 f).toNat)
  | .snapwr f => some (.c, (crWord 0x77 f).toNat)
  | .ctxsave f => some (.c, (crWord 0x78 f).toNat)
  | .ctxload f => some (.c, (crWord 0x79 f).toNat)
  | .aadd f => some (.a, (arWord 0x01 f).toNat)
  | .aaddi f => some (.a, (aiWord 0x02 f).toNat)
  | .asub f => some (.a, (arWord 0x03 f).toNat)
  | .amul f => some (.a, (arWord 0x04 f).toNat)
  | .ashl f => some (.a, (arWord 0x05 f).toNat)
  | .aand f => some (.a, (arWord 0x06 f).toNat)
  | .alim f => some (.a, (aiWord 0x07 f).toNat)
  | .aaddx f => some (.a, (arWord 0x08 f).toNat)
  | .abr f => some (.a, (aiWord 0x10 f).toNat)
  | .abrQ7 f => some (.a, (aiWord 0x10 f).toNat)
  | .abrQ7Likely f => some (.a, (aiWord 0x10 f).toNat)
  | .abrRdv f => some (.a, (aiWord 0x10 f).toNat)
  | .abdec f => some (.a, (aiWord 0x11 f).toNat)
  | .ajr f => some (.a, (arWord 0x12 f).toNat)
  | .agen f => some (.a, (aiWord 0x13 f).toNat)
  | .lda f => some (.a, (aiWord 0x18 f).toNat)
  | .ldv f => some (.a, (aiWord 0x19 f).toNat)
  | .sta f => some (.a, (aiWord 0x1a f).toNat)
  | .stv f => some (.a, (aiWord 0x1b f).toNat)
  | .cp f => some (.a, (arWord 0x20 f).toNat)
  | .cpg f => some (.a, (arWord 0x21 f).toNat)
  | .cps f => some (.a, (arWord 0x22 f).toNat)
  | .cpt f => some (.a, (arWord 0x23 f).toNat)
  | .cpz f => some (.a, (arWord 0x24 f).toNat)
  | .aswz f => some (.a, (arWord 0x28 f).toNat)
  | .fewait f => some (.a, (aiWord 0x2c f).toNat)
  | .feset f => some (.a, (aiWord 0x2d f).toNat)
  | .feclr f => some (.a, (aiWord 0x2e f).toNat)
  | .pf f => some (.a, (aiWord 0x30 f).toNat)
  | .aflclaim f => some (.a, (arWord 0x34 f).toNat)
  | .aflfill f => some (.a, (arWord 0x35 f).toNat)
  | .aflwaitf f => some (.a, (arWord 0x36 f).toNat)
  | .aflrel f => some (.a, (arWord 0x37 f).toNat)
  | .vadd f => some (.v, (vfWord 0x01 f).toNat)
  | .vsub f => some (.v, (vfWord 0x02 f).toNat)
  | .vmul f => some (.v, (vfWord 0x03 f).toNat)
  | .vfma f => some (.v, (vfWord 0x04 f).toNat)
  | .vfms f => some (.v, (vfWord 0x05 f).toNat)
  | .vfnma f => some (.v, (vfWord 0x06 f).toNat)
  | .vmin f => some (.v, (vfWord 0x07 f).toNat)
  | .vmax f => some (.v, (vfWord 0x08 f).toNat)
  | .vabs f => some (.v, (vfWord 0x09 f).toNat)
  | .vneg f => some (.v, (vfWord 0x0a f).toNat)
  | .vrcp f => some (.v, (vfWord 0x0b f).toNat)
  | .vrsqrt f => some (.v, (vfWord 0x0c f).toNat)
  | .vsqrt f => some (.v, (vfWord 0x0d f).toNat)
  | .vexp2 f => some (.v, (vfWord 0x0e f).toNat)
  | .vlog2 f => some (.v, (vfWord 0x0f f).toNat)
  | .vand f => some (.v, (vfWord 0x10 f).toNat)
  | .vor f => some (.v, (vfWord 0x11 f).toNat)
  | .vxor f => some (.v, (vfWord 0x12 f).toNat)
  | .vnot f => some (.v, (vfWord 0x13 f).toNat)
  | .vsll f => some (.v, (vfWord 0x14 f).toNat)
  | .vsrl f => some (.v, (vfWord 0x15 f).toNat)
  | .vsra f => some (.v, (vfWord 0x16 f).toNat)
  | .vaddsat f => some (.v, (vfWord 0x17 f).toNat)
  | .vsubsat f => some (.v, (vfWord 0x18 f).toNat)
  | .vmulhi f => some (.v, (vfWord 0x19 f).toNat)
  | .vcmpeq f => some (.v, (vfWord 0x20 f).toNat)
  | .vcmplt f => some (.v, (vfWord 0x21 f).toNat)
  | .vcmple f => some (.v, (vfWord 0x22 f).toNat)
  | .kand f => some (.v, (vfWord 0x28 f).toNat)
  | .kor f => some (.v, (vfWord 0x29 f).toNat)
  | .kxor f => some (.v, (vfWord 0x2a f).toNat)
  | .knot f => some (.v, (vfWord 0x2b f).toNat)
  | .kpop f => some (.v, (vfWord 0x2c f).toNat)
  | .kfirst f => some (.v, (vfWord 0x2d f).toNat)
  | .vmov f => some (.v, (vfWord 0x30 f).toNat)
  | .vbcast f => some (.v, (vfWord 0x31 f).toNat)
  | .vsel f => some (.v, (vfWord 0x32 f).toNat)
  | .vperm f => some (.v, (vfWord 0x33 f).toNat)
  | .vrot f => some (.v, (vfWord 0x34 f).toNat)
  | .vslide f => some (.v, (vfWord 0x35 f).toNat)
  | .vzip f => some (.v, (vfWord 0x36 f).toNat)
  | .vunzip f => some (.v, (vfWord 0x37 f).toNat)
  | .vpart f => some (.v, (vfWord 0x38 f).toNat)
  | .vcompact f => some (.v, (vfWord 0x39 f).toNat)
  | .vredsum f => some (.v, (vfWord 0x40 f).toNat)
  | .vredmax f => some (.v, (vfWord 0x41 f).toNat)
  | .vredmin f => some (.v, (vfWord 0x42 f).toNat)
  | .vredamax f => some (.v, (vfWord 0x43 f).toNat)
  | .vscan f => some (.v, (vfWord 0x44 f).toNat)
  | .vld f => some (.v, (vfWord 0x48 f).toNat)
  | .vst f => some (.v, (vfWord 0x49 f).toNat)
  | .vldt f => some (.v, (vfWord 0x4a f).toNat)
  | .vcvt f => some (.v, (vfWord 0x50 f).toNat)
  | .vquant f => some (.v, (vfWord 0x51 f).toNat)
  | .vdeq f => some (.v, (vfWord 0x52 f).toNat)
  | .vpack f => some (.v, (vfWord 0x53 f).toNat)
  | .vunpack f => some (.v, (vfWord 0x54 f).toNat)
  | .vscl f => some (.v, (vfWord 0x55 f).toNat)
  | .vtag f => some (.v, (vfWord 0x58 f).toNat)
  | .vtagrd f => some (.v, (vfWord 0x59 f).toNat)
  | .gadd f => some (.v, (vfWord 0x60 f).toNat)
  | .gaddi f => some (.v, (viWord 0x61 f).toNat)
  | .glim f => some (.v, (viWord 0x62 f).toNat)
  | .gmov f => some (.v, (vfWord 0x63 f).toNat)
  | .gbr f => some (.v, (viWord 0x64 f).toNat)
  | .gbrRdv f => some (.v, (viWord 0x64 f).toNat)
  | .gbdec f => some (.v, (viWord 0x65 f).toNat)
  | .vsemsig f => some (.v, (vfWord 0x68 f).toNat)
  | .vsemwait f => some (.v, (vfWord 0x69 f).toNat)
  | .mbase f => some (.m, (mfWord 0x01 f).toNat)
  | .mrow f => some (.m, (mfWord 0x02 f).toNat)
  | .mseed f => some (.m, (mfWord 0x03 f).toNat)
  | .mternSeed f => some (.m, (mfWord 0x04 f).toNat)
  | .mternCim f => some (.m, (mfWord 0x04 f).toNat)
  | .mternTile f => some (.m, (mfWord 0x04 f).toNat)
  | .mcimldMem f => some (.m, (mfWord 0x05 f).toNat)
  | .mcimldBasis f => some (.m, (mfWord 0x05 f).toNat)
  | .mfp f => some (.m, (mfWord 0x06 f).toNat)
  | .maccz f => some (.m, (mfWord 0x07 f).toNat)
  | .maccrd f => some (.m, (mfWord 0x08 f).toNat)
  | .maccwr f => some (.m, (mfWord 0x09 f).toNat)
  | .mchk f => some (.m, (mkWord 0x0a f).toNat)
  | .mscan f => some (.m, (mkWord 0x0b f).toNat)
  | .mtest f => some (.m, (mfWord 0x0c f).toNat)
  | .mloop f => some (.m, (mfWord 0x0d f).toNat)
  | .msem f => some (.m, (mfWord 0x0e f).toNat)
  | .mdrain f => some (.m, (mfWord 0x0f f).toNat)
  | .mdrainRdv f => some (.m, (mfWord 0x0f f).toNat)
  | .tlbinvComplete => none
  | .resultLanding => none
  | .commandStart => none
  | .commandComplete => none
  | .mcancelAct => none
  | .injectedSelfTest => none
  | .rendezvousResume => none
  | .queueStall => none
  | .feStall => none
  | .syncStall => none
  | .rcStall => none
  | .handlerEntry => none
  | .likelyResolution => none
  | .loadReturn => none
  | .copyComplete => none
  | .copyStop => none
  | .walkComplete => none
  | .recastComplete => none
  | .flumeHomeOperation => none
  | .weirRelease => none
  | .taskDispatch => none
  | .taskStart => none
  | .taskRetire => none
  | .pushAccept => none
  | .floorReduction => none
  | .domainFloorReduction => none
  | .neighbourRequest => none
  | .recordForward => none
  | .inversion => none
  | .termination => none
  | .preemptRequest => none
  | .saveAreaWrite => none
  | .resume => none
  | .contextKill => none
  | .killed => none
  | .homeMessage => none
  | .readData => none
  | .reply => none
  | .memoryAcknowledgement => none
  | .slotArrival => none
  | .triggerFire => none
  | .launch => none
  | .loadImage => none
  | .createContext => none
  | .queryIdentity => none
  | .queryRoleEntry => none
  | .queryFlumeBlock => none
  | .queryGranule => none
  | .queryDramBank => none
  | .resetContext => none
  | .readErrors => none
  | .packageReset => none
  | .hostWrite => none
  | .hostRead => none
  | .powerEstimate => none
  | .eccInterval => none
  | .bankReencode => none
  | .reencodeComplete => none
  | .reservedOpcode => none
  | .wordFetchFault => none
  | .linkLayerRetry => none
  | .badOp => none

/-- The decoder on a word numbered as spec/opcode_table.json numbers bits. The streams have words of three sizes:
48 bits are a C word and 128 bits an M word; 64 bits are an A word where the A stream has that word, else a V word. -/
def decodeTableWord (nbits w : Nat) : Option Instr :=
  if nbits = 48 then (decode .c w).toOption
  else if nbits = 128 then (decode .m w).toOption
  else if nbits = 64 then
    match decode .a w with
    | .ok i => some i
    | .error _ => (decode .v w).toOption
  else none

/-- The stream whose word `decodeTableWord` reads. -/
def tableStream (nbits w : Nat) : Str :=
  if nbits = 48 then .c else if nbits = 128 then .m
  else match decode .a w with
    | .ok _ => .a
    | .error _ => .v

end Sys2Proof
end

