-- ==== Sys2Proof/Config.lean ====
section
/-!
DEFINITION. What the spec leaves to the implementation or to the outside world, as free values without a body,
and the turns in which the part runs.

The part has many agents that act side by side. The model performs their acts one at a time: a `Turn` says which
agent acts next and how many cycles pass before it. Turns are plain data of the state (`State.agenda`); when none
is listed, the free value `Config.schedule` supplies one, so nothing is known about the order of the acts.
-/
namespace Sys2Proof

/-- What one turn does. -/
inductive Act where
  /-- A stream of a core meets the word at its program counter. -/
  | stream (core : Nat) (st : Str)
  /-- An event of the part, one of the rows of the opcode table that is no word, at a core (its package or die) and a place. -/
  | event (i : Instr) (core : Nat) (ev : EvArg)
  /-- The copy engine of a core moves element `e` of copy `id` (07 R160, R179). -/
  | copyMove (core id e : Nat)
deriving DecidableEq, Repr, Inhabited

/-- One turn: after `dt` cycles, the act. -/
structure Turn where
  dt  : Nat
  act : Act
deriving DecidableEq, Repr, Inhabited

namespace Config

/-- The turn that follows when the agenda lists none: free (01 R28, 20 R401: no order of agents is fixed) (DESIGN CHOICE, log entry 4)
(DESIGN CHOICE, log entry 14). -/
opaque schedule : Nat → Turn

/-- The values that a firmware image with its overlays loads into fields of reset code F (00 Table 0.1), by register number: where they
stand in the image is open (DESIGN CHOICE, log entry 77). -/
opaque firmwareField : List Byte → Nat → Nat

/-- The hash of the key of task images that a firmware image carries, and that of the vendor's key in ROM (22 R427): free. -/
opaque taskKeyHash : List Byte → List Byte
opaque vendorKeyHash : List Byte

/-- Whether a plane quarter fails the `n`th pattern test (11 R271): free. -/
opaque selfTestFails : Nat → Bool

/-- The helper data in a package's configuration flash, the identity key that 4,096 cells corrected with them give, and the public part
of a key (22 R424): free. -/
opaque helperData : Nat → Nat
opaque identityKey : Nat → Nat → BitVec 256
opaque publicPart : BitVec 256 → List Byte

/-- A position of a rack that holds no package (20 R388), by package number: free. -/
opaque emptyPosition : Nat → Bool

/-- The power estimate of a package at a throttle level, from the issue counts of its planes, engines and links since the last (22 R432),
in W: free. The first argument is a fresh number. -/
opaque powerEstimate : Nat → List Nat → Nat → Nat

/-- Values that the spec leaves open: each use takes the next number of `State.fresh`. -/
opaque freeNat : Nat → Nat

end Config

end Sys2Proof
end

