-- ==== Sys2Proof/Machine/Tbl.lean ====
section
/-!
DEFINITION. Sparse tables: a list of keys and values, the keys strictly rising, no value equal to the value
that an unlisted key reads as (the default). Equal tables are equal lists. Memory is one of these.
-/
namespace Sys2Proof.Machine

/-- A sparse table from natural keys. -/
abbrev Tbl (α : Type) := List (Nat × α)

/-- The value at a key; an unlisted key reads as `d`. -/
def tget {α : Type} (d : α) : Tbl α → Nat → α
  | [], _ => d
  | (k', v) :: t, k => if k = k' then v else tget d t k

/-- The table without a key. -/
def tdel {α : Type} : Tbl α → Nat → Tbl α
  | [], _ => []
  | (k', v) :: t, k => if k = k' then tdel t k else (k', v) :: tdel t k

/-- The table with an entry put before the first greater key. -/
def tins {α : Type} : Tbl α → Nat → α → Tbl α
  | [], k, v => [(k, v)]
  | (k', v') :: t, k, v => if k < k' then (k, v) :: (k', v') :: t else (k', v') :: tins t k v

/-- Sets the value at a key; setting the default removes the entry. -/
def tset {α : Type} [DecidableEq α] (d : α) (t : Tbl α) (k : Nat) (v : α) : Tbl α :=
  if v = d then tdel t k else tins (tdel t k) k v

/-- Sets `n` consecutive keys from `k` to one value. -/
def tfill {α : Type} [DecidableEq α] (d : α) (t : Tbl α) (k : Nat) (v : α) : Nat → Tbl α
  | 0 => t
  | n + 1 => tfill d (tset d t k v) (k + 1) v n

/-- Drops every key from `lo` to `hi - 1`. -/
def tclear {α : Type} (t : Tbl α) (lo hi : Nat) : Tbl α := t.filter (fun e => e.1 < lo || hi ≤ e.1)

/-- Every key of the table is above `k`. -/
def tabove {α : Type} (k : Nat) : Tbl α → Bool
  | [] => true
  | (k', _) :: t => decide (k < k') && tabove k t

/-- The canonical form: keys strictly rising, no default value listed. -/
def twf {α : Type} [DecidableEq α] (d : α) : Tbl α → Bool
  | [] => true
  | (k, v) :: t => decide (v ≠ d) && tabove k t && twf d t

end Sys2Proof.Machine
end

