-- ==== Sys2Proof/Machine/State.lean ====
section
/-!
DEFINITION. The state of the part: everything the spec gives the machine, as plain data.
A core is keyed by package * 768 + number, a die by package * 8 + number, a context by package * 16 + number.
The docstring of a field names the rule that gives it.
-/
namespace Sys2Proof.Machine
open Sys2Proof

/-- Why the machine stops: no behaviour of the spec ends here; see the constructor. -/
inductive Fault where
  /-- Raised by no meaning: an access outside the physical map is the PAGE_FAULT of 15 R347, a trap. Safe: it is a stop. -/
  | noSuchAddress
deriving DecidableEq, Repr

/-- Why an instruction has no meaning. -/
inductive Refusal where
  /-- Raised by the arm of an instruction that is not modelled yet. Safe: nothing happens. -/
  | notModelled (mnemonic : String)
deriving DecidableEq, Repr

/-- The four roles (01 R22). -/
inductive Role where
  | imm | str | acc | prv
deriving DecidableEq, Repr, Inhabited

/-- A role-directory entry (13 Table 13.1). -/
structure DirEntry where
  frame : W64 := 0
  ctx   : BitVec 4 := 0
  sys   : Bool := true
  qr    : Bool := false
  ph    : Bool := false
  held  : Bool := false
  role  : Role := .prv
  mode  : BitVec 3 := 0
  point : BitVec 6 := 0
deriving DecidableEq, Repr, Inhabited

/-- A continuation record (18 Table 18.1). -/
structure Rec where
  code  : W64 := 0
  frame : W64 := 0
  pri   : BitVec 32 := 0
  join  : BitVec 20 := 0
  ctx   : BitVec 4 := 0
  flags : BitVec 12 := 0
deriving DecidableEq, Repr, Inhabited

/-- The causes of Table 15.1. -/
inductive Cause where
  | illegalOp | fetchAlign | pageFault | permFault | ldstScope | misalign | roleFault | roleRange
  | tagMismatch | poison | queueStall | feStall | syncStall | rcStall | copyRange | copyFault
  | mRange | loopNest | operandOverlap | planeFenced | gaugeFail | rdvMismatch | phaseFault
  | flumeFault | weirFault | fabricErr | trap | sysState | windowFault | atomicFault | wlFault
deriving DecidableEq, Repr, Inhabited

/-- A trap about to be taken: cause, EINFO and the subcode of a translation cause (15 R331, R333). -/
structure Trap where
  cause : Cause
  info  : W64 := 0
  sub   : Nat := 0
deriving DecidableEq, Repr, Inhabited

/-- What a word waits for; the kind decides which stall limit applies (06 R137, 07 R187, 13 R293, 14, 18, 20). -/
inductive WaitKind where
  /-- An empty or full queue, by its number of Table 15.1 (q0 to q7: 0 to 7, wq0 to wq3: 8 to 11). -/
  | queue (n : Nat)
  /-- A full/empty bit: the virtual bit address of the access. -/
  | fe (ea : W64)
  /-- A flume, marker, weir, semaphore or credit. -/
  | sync
  /-- A window's room, a receive counter, a fence, a marker in use, or a reply: the limit of `sync`, but none of the waits of 18 R374. -/
  | fabric
  /-- A fetch-and-add that waits for room or its reply: the address that its stall reports (20 R415). -/
  | syncAt (ea : W64)
  /-- The roles of a region (13 R293): its base. -/
  | rc (base : W64)
  /-- A rendezvous (06 R142). -/
  | rdv
  /-- The next cycle: the word's act on a semaphore comes too late in this one (14 R330). -/
  | turn
  /-- Anything without a stall limit: a page walk, a unit, an earlier access, a copy slot, a result. -/
  | free
deriving DecidableEq, Repr, Inhabited

/-- A wait in progress: since which cycle, for what, and since when the stream has waited, at this word and without a break, for
things that 18 R374 lists. -/
structure Waiting where
  since : Nat
  kind  : WaitKind
  blocked : Option Nat := none
  /-- The number of the core's next act (`Core.stamp`) when the wait under its limit began. -/
  stamp : Nat := 0
deriving DecidableEq, Repr, Inhabited

/-- A translation held in a TLB (15 R349, Table 15.9): the context, the page's first virtual bit address, its size as a
power of two, its physical bit address, swizzle mode and permissions. -/
structure TlbEntry where
  ctx  : BitVec 4
  va   : Nat
  size : Nat
  pa   : Nat
  swz  : Nat
  r    : Bool
  w    : Bool
  x    : Bool
  add  : Bool
deriving DecidableEq, Repr, Inhabited

/-- What every stream has (04 R74, 05 R108, 06 R142, 15 Tables 15.2 and 15.3). -/
structure Stream where
  /-- The task named an entry for the stream (01 R15, R17). -/
  started : Bool := false
  /-- It has reached its final rendezvous (06 R142). -/
  ended : Bool := false
  /-- It was stopped with its job and resumes at EPC (15 R334, R337). -/
  stopped : Bool := false
  pc : W64 := 0
  /-- The identifier of the mid-task rendezvous it waits at, and since when. -/
  rdv : Option (BitVec 5) := none
  rdvAt : Nat := 0
  wait : Option Waiting := none
  /-- XFLAGS bits 7:0 (Table 5.2). -/
  xflags : BitVec 8 := 0
  tvec : W64 := 0
  epc : W64 := 0
  einfo : W64 := 0
  ecause : W64 := 0
  /-- A fault that the stream takes at its first word not yet issued (07 R181, 20 R399). -/
  due : Option Trap := none
  /-- A page walk of the stream that ended in a fault: virtual page start and SUB (15 R347). -/
  walkFault : Option (W64 × Nat) := none
  /-- The stream TLB, most recently used first (15 R349). -/
  tlb : List TlbEntry := []
  /-- The word last fetched, with its address: one that waits is not fetched again (13 R292). -/
  word : Option (W64 × Nat) := none
deriving DecidableEq, Repr, Inhabited

/-- An entry of q0 to q7 (06 R132, 07 R174, R190, 20 R399). -/
structure QEntry where
  val  : W64
  psn  : Bool := false
  /-- The generation under which the A stream pushed it (07 R174). -/
  gen  : Nat := 0
  /-- Pushed on a run-ahead path not yet confirmed. -/
  held : Bool := false
  /-- The load whose data it still waits for. -/
  load : Option Nat := none
  /-- The first cycle in which a pop can take it (06 R134). -/
  rdy  : Nat := 0
  /-- What its pop acquires: the A words below this number happen before it (06 R136, 13 R305). -/
  seen : Nat := 0
deriving DecidableEq, Repr, Inhabited

/-- A vector value: 2,048 bits, tag and poison mark (05 R104, R105, 08 R193). -/
structure VVal where
  bits : V2048 := 0
  tag  : BitVec 5 := 0
  psn  : Bool := false
deriving DecidableEq, Repr, Inhabited

/-- An entry of wq0 to wq3. -/
structure WEntry where
  val  : VVal
  gen  : Nat := 0
  held : Bool := false
  load : Option Nat := none
  rdy  : Nat := 0
  seen : Nat := 0
deriving DecidableEq, Repr, Inhabited

/-- A queue q0 to q7: its entries, oldest first, and the cycles of its last eight pops, latest first: a pop frees its entry only at
the end of its cycle (06 R134). -/
structure Queue where
  ents : List QEntry := []
  pops : List Nat := []
deriving DecidableEq, Repr, Inhabited

/-- A queue wq0 to wq3, with the cycles of its last four pops. -/
structure WQueue where
  ents : List WEntry := []
  pops : List Nat := []
deriving DecidableEq, Repr, Inhabited

/-- A checkpoint of the A registers at a likely branch (07 R174). -/
structure Ckpt where
  a    : Tbl W64
  g    : Tbl W64
  /-- The address of the branch and the generation it opened. -/
  addr : W64
  gen  : Nat
  /-- XFLAGS of the A stream to return to. -/
  xflags : BitVec 8
deriving DecidableEq, Repr, Inhabited

/-- Where the value of a load goes. -/
inductive LoadDst where
  /-- A register of the A stream by its operand code (Table 4.11). -/
  | areg (code : Nat)
  /-- The entry of queue q `n` that waits for this load. -/
  | q (n : Nat)
  /-- The entry of queue wq `n` that waits for this load. -/
  | wq (n : Nat)
  /-- Element `e` of copy `id`. -/
  | copy (id e : Nat)
  /-- A register of the C stream (`fltake`, `fxsend.faa`). -/
  | creg (st : Str)
deriving DecidableEq, Repr, Inhabited

/-- A load in flight (07 R178, 20 R399): its sign extension, width, zero fill, address and word. -/
structure Load where
  id   : Nat
  dst  : LoadDst
  ea   : W64
  word : W64
  w    : Nat
  sx   : Bool := false
  zf   : Bool := false
  tag  : BitVec 5 := 0
  gen  : Nat := 0
  /-- The data once they are back: the bits, the bits with poisoned granules as zeros, poison; or the home's fault. -/
  ret  : Option (Nat × Nat × Bool) := none
  bad  : Option Trap := none
deriving DecidableEq, Repr, Inhabited

/-- The forms that the copy engine runs (07 R179, 20 R407). -/
inductive CopyKind where
  | cp | cpz | cpt | cpg | cps
deriving DecidableEq, Repr, Inhabited

/-- A copy issued and not completed (07 R160, R179 to R185). -/
structure Copy where
  id    : Nat
  kind  : CopyKind
  /-- The address of its word, or of its send descriptor (Table 7.3). -/
  word  : W64
  dst   : W64
  src   : W64
  /-- The fill value of `cpz`, the index of a `cpg` from a queue. -/
  imm   : W64 := 0
  fromQ : Bool := false
  idx   : W64 := 0
  pitch : W64 := 0
  /-- Elements or rows, and elements per row. -/
  n     : Nat
  m     : Nat := 1
  w     : Nat
  ix64  : Bool := false
  fl    : Bool := false
  wait  : Bool := false
  clr   : Bool := false
  zf    : Bool := false
  ord   : Bool := false
  add   : Bool := false
  sen   : Bool := false
  sid   : BitVec 4 := 0
  /-- It was started by `fxsend` or a trigger (20 R407), with the packages of a multicast. -/
  send  : Bool := false
  mc    : Option W64 := none
  /-- The trigger slot that fired it. -/
  trig  : Nat := 0
  /-- It is the registered input copy of an abort (13 R298). -/
  input : Bool := false
  started : Bool := false
  /-- Elements moved, elements read through a window and waiting for their data. -/
  done  : Tbl Bool := []
  reads : List Nat := []
  /-- Data that have come back: value and poison. -/
  got   : Tbl (Option (Nat × Bool)) := []
  /-- The reads, by the same keys, that their home has refused (20 R399). -/
  bad   : Tbl (Option Trap) := []
  /-- Messages and memory writes not yet answered. -/
  owed  : Nat := 0
  /-- The page walk that ended in a fault. -/
  walkFault : Option (W64 × Nat) := none
  /-- The translations it has used, which serve it to its end (15 R344). -/
  pages : List TlbEntry := []
  zfSet : Bool := false
  /-- The element below which all are done, while it waits on a full/empty bit, and since when. -/
  feSince : Option (Nat × Nat) := none
deriving DecidableEq, Repr, Inhabited

/-- An entry of the footprint hazard checker (07 R183, R184): aperture offsets, and whose it is. -/
structure Foot where
  age   : Nat
  lo    : Nat
  hi    : Nat
  wr    : Bool
  /-- A copy, or else an M command, by its identifier. -/
  copy  : Bool
  id    : Nat
deriving DecidableEq, Repr, Inhabited

/-- Where a V result lands (15 Table 15.6). -/
inductive VDst where
  | v (n : Nat)
  | k (n : Nat)
  | g (n : Nat)
  | wq (n : Nat)
  | q5
deriving DecidableEq, Repr, Inhabited

/-- A V result in flight (08 R194, R199): its landing slot, its bits, the elements it writes, tag, mark and flags.
For a load the bits come with it at issue (the data are read at issue). -/
structure VRes where
  dst   : VDst
  due   : Nat
  val   : VVal
  /-- The bits of the destination that it writes (all, unless masked: 08 R202). -/
  wmask : V2048
  /-- It writes the tag and the mark of its destination (a masked result only sets the mark: 08 R203). -/
  full  : Bool
  flags : BitVec 9
  mark  : Bool := false
  /-- The number of its issue (14 R320). -/
  stamp : Nat := 0
deriving DecidableEq, Repr, Inhabited

/-- An entry of the V snapshot buffer (15 R343, Table 15.6). -/
structure Snap where
  res   : VRes
  d     : Nat
  valid : Bool
deriving DecidableEq, Repr, Inhabited

/-- A descriptor register (11 Table 11.3). -/
structure Desc where
  tag    : BitVec 5 := 0
  rows   : BitVec 16 := 0
  pitch  : BitVec 32 := 0
  stride : Tbl (BitVec 32) := []
  base   : W64 := 0
deriving DecidableEq, Repr, Inhabited

/-- An active loop level (11 R251): the address of its `mloop`, its generation, trips, body length and counter. -/
structure MLoop where
  addr : W64
  lgen : BitVec 4
  trip : Nat
  len  : Nat
  iter : Nat
deriving DecidableEq, Repr, Inhabited

/-- A word of the M queue with its address and the loop levels active at its instance, whose counters are its loop
indices (11 R241, R247, R254). -/
structure MEntry where
  id    : Nat
  instr : Instr
  addr  : W64
  loops : List MLoop
  foot  : Bool := false
deriving DecidableEq, Repr, Inhabited

/-- A command started and not completed: what it read at its start (11 R242 to R244). -/
structure MRun where
  ent   : MEntry
  /-- The descriptors dd, da and db and their effective bases, as read at the start. -/
  dd : Desc
  da : Desc
  db : Desc
  ed : Nat
  ea : Nat
  eb : Nat
  /-- The basis buffer and the window after R253. -/
  buf   : Nat
  win   : Nat
  /-- The bits, and their poison, that it read through the TLB of the stream (11 R260, R263). -/
  seen  : Nat := 0
  seenPsn : Bool := false
  /-- An `mseed` that has not gone on to the generator: it holds the load path (11 R240). -/
  reading : Bool := false
deriving DecidableEq, Repr, Inhabited

/-- An entry of the row buffer (11 R257). -/
structure Row where
  bits  : V2048 := 0
  tag   : BitVec 5 := 0
  scale : BitVec 32 := 0
  psn   : Bool := false
deriving DecidableEq, Repr, Inhabited

/-- A basis buffer (11 R260): K', the seed that R259 expands, the coefficients and their format. -/
structure Basis where
  kp    : Nat := 0
  seed  : BitVec 32 := 0
  coef  : List (BitVec 16) := []
  cfmt  : BitVec 5 := 0
  psn   : Bool := false
deriving DecidableEq, Repr, Inhabited

/-- A macro (11 R263): a 64 x 128 tile of two-bit trit codes, row j at bit 256*j, its key and poison. -/
structure Macro where
  bits  : BitVec 16384 := 0
  valid : Bool := false
  key   : BitVec 16 := 0
  psn   : Bool := false
deriving DecidableEq, Repr, Inhabited

/-- The C engine (06 R130). -/
structure CEng where
  ctl : Stream := {}
  g   : Tbl W64 := []
deriving DecidableEq, Repr, Inhabited

/-- The kinds of a message (20 Table 20.2), and the writes to memory slices and ports with their acknowledgements (20 R396). -/
inductive MsgKind where
  | write | addInt | addFloat | faa | read | readData | reply | forward
  | memWrite | memAck
deriving DecidableEq, Repr, Inhabited

/-- The rings outside the dies (20 R388): of a package, of a rack, and domain ring d. -/
inductive Ring where
  | package (p : Nat) | rack (r : Nat) | domain (d : Nat)
deriving DecidableEq, Repr, Inhabited

/-- Where a message is on its way (20 R387 to R394). -/
inductive Leg where
  /-- At the place that it leaves. -/
  | start
  /-- In the torus of a die of a package: in the ring buffer at the first stop, on its way through the others. -/
  | torus (pkg die : Nat) (stops : List (Nat × Nat))
  /-- In the output buffer of a station for a ring, towards another station (R400). -/
  | output (r : Ring) (at_ dest : Nat)
  /-- In a slot of a ring, clockwise or not, towards a station, which has turned it away `n` times. -/
  | slot (r : Ring) (cw : Bool) (dest : Nat) (n : Nat)
  /-- In the input buffer of a station for a direction, or in its overflow buffer; `k` numbers what stations take. -/
  | input (r : Ring) (cw : Bool) (at_ : Nat) (k : Nat)
  | overflow (r : Ring) (at_ : Nat) (k : Nat)
  /-- Delivered at the place that it goes to. -/
  | home
deriving DecidableEq, Repr, Inhabited

/-- Who sent a message. -/
inductive Sender where
  | stream (st : Str)
  | copy (id : Nat)
  | command (id : Nat)
  | headworks
deriving DecidableEq, Repr, Inhabited

/-- A write or add of the core in flight to a memory slice or port, or a posted one (07 R178, 13 R287, 20 R396, R418): its
message, its source (a stream by number, 4 the send source), its window (17 for memory), the package and the physical bits
it writes, the number of the issue of its word or copy, and who sent it. -/
structure OwedWrite where
  id  : Nat
  src : Nat
  win : Nat
  pkg : Nat
  lo  : Nat
  hi  : Nat
  stamp : Nat
  sender : Sender := .headworks
deriving DecidableEq, Repr, Inhabited

/-- A run of bits that a message writes, adds or carries: target bit address, width, value, poison. -/
structure Part where
  at_ : Nat
  w   : Nat
  val : Nat
  psn : Bool := false
deriving DecidableEq, Repr, Inhabited

/-- A message on the networks (20 R392 to R403). -/
structure Msg where
  kind  : MsgKind
  /-- Target package and core, and the bits at it: aperture offsets for a core, physical bit addresses for memory. -/
  dpkg  : Nat
  dcore : Nat
  parts : List Part
  ctx   : BitVec 4
  frame : W64
  spkg  : Nat
  score : Nat
  /-- The sender's job, so that a late reply is dropped (20 R420). -/
  job   : Nat
  sender : Sender
  /-- The source of R402: a stream by its number, or 4, the send source. -/
  src   : Nat
  win   : Nat
  /-- The virtual bit address of its first granule. -/
  va    : W64
  /-- Its place in the order in which its source sent. -/
  seq   : Nat
  pin   : Bool := false
  sq    : Bool := false
  ref   : Bool := false
  /-- The branches of a multicast still to be served, those already turned away once, and those served and not answered;
  in a branch, its multicast. -/
  mc    : Option W64 := none
  refs  : W64 := 0
  left  : Nat := 0
  parent : Option Nat := none
  /-- Element width of an add; 0 for integer addends, else their format tag. -/
  w     : Nat := 0
  fmt   : Nat := 0
  /-- The elements of the word in earlier messages: the home counts its lane strides from them (Table 20.2). -/
  skip : Nat := 0
  /-- The load a read serves, or the element of a copy. -/
  load  : Nat := 0
  /-- The number that the two halves of a write to a register window share, and whether this half has arrived (07 R163). -/
  pair  : Option Nat := none
  held  : Bool := false
  leg   : Leg := .home
  /-- The domain ring by which it goes to another rack, once chosen (20 R389). -/
  via   : Option Nat := none
  /-- A forwarded record (18 R383). -/
  rcd   : Option Rec := none
  /-- Why a home refused a read or a fetch-and-add. -/
  why   : Option Cause := none
deriving DecidableEq, Repr, Inhabited

/-- The A engine (07 R158, R161, R174). -/
structure AEng where
  ctl : Stream := {}
  a   : Tbl W64 := []
  g   : Tbl W64 := []
  radepth : Nat := 2
  gen  : Nat := 0
  /-- Unresolved likely branches, oldest first: ASTAT.PEND is their number. -/
  ckpts : List Ckpt := []
  cfaddr : W64 := 0
  cfCause : BitVec 8 := 0
  cfValid : Bool := false
  cfIndex : BitVec 32 := 0
  loads : List Load := []
  copies : List Copy := []
  /-- Sends of triggers that wait for a copy slot, in slot order (20 R408). -/
  sends : List Copy := []
  /-- The first of the two messages of a `stv` has left: its word, and the message that is still to leave (20 R392, R400). -/
  half : Option (W64 × Msg) := none
deriving DecidableEq, Repr, Inhabited

/-- The V engine (08 R193, R194, R199). -/
structure VEng where
  ctl : Stream := {}
  v   : Tbl VVal := []
  k   : Tbl (BitVec 256) := []
  g   : Tbl W64 := []
  /-- The slot in which the next word can issue. -/
  slot : Nat := 0
  fly  : List VRes := []
  snap : List Snap := []
deriving DecidableEq, Repr, Inhabited

/-- The M engine (11). -/
structure MEng where
  ctl : Stream := {}
  d   : Tbl Desc := []
  queue : List MEntry := []
  run : List MRun := []
  loops : List MLoop := []
  /-- The replay buffer: words of the bodies of the active loops, by address (11 R251). -/
  replay : List (W64 × BitVec 128) := []
  tfence : BitVec 4 := 0
  ffence : BitVec 4 := 0
  interval : BitVec 32 := 0
  /-- Busy cycles of each plane since its last injected test (11 R271). -/
  busyT : Nat := 0
  busyF : Nat := 0
  rows : Tbl Row := []
  bases : Tbl Basis := []
  macros : Tbl Macro := []
  /-- Cancellations requested: the cycle at whose end they act and the generation, or all (11 R274). -/
  cancels : List (Nat × Option (BitVec 4)) := []
deriving DecidableEq, Repr, Inhabited

/-- A pending marker fence of one identifier (14 R320): what must have happened ahead of each named queue. -/
structure Marker where
  id    : Nat
  done  : Bool
  /-- The last action counted when the marker was placed: older loads, copies, stores, results and commands are ahead. -/
  a     : Bool
  v     : Bool
  m     : Bool
  stamp : Nat
  /-- Generations of the A stream not yet confirmed when it was placed are not counted. -/
  gens  : List Nat := []
deriving DecidableEq, Repr, Inhabited

/-- The active phase (13 R294 to R301): header words, the role granules of region and shadow as scratchpad offsets, with the
swizzle modes of the region's pages, dirty granules,
the semaphores recorded by `phmark`. -/
structure Phase where
  hdr    : W64
  va     : W64
  entry  : List W64
  region : List Nat
  shadow : List Nat
  swz    : List Nat := []
  insrc  : W64
  indst  : W64
  incnt  : Nat
  inwc   : Nat
  dirty  : Tbl Bool := []
  sems   : Tbl (BitVec 16)
deriving DecidableEq, Repr, Inhabited

/-- A removal of translations (15 R344): the cycle in which it is complete, its range (none under `.all`), its scope. -/
structure TlbInv where
  till  : Nat
  range : Option (Nat × Nat)
  scope : Nat
deriving DecidableEq, Repr, Inhabited

/-- A recast in issue (13 R286 to R288): its virtual base, its granules by physical bit address in ascending order, of which
those of `todo` are still to be reserved, the role to set, the number of its issue, and what is announced: the copies and commands
then started, the copies of other cores, by core and identifier, and the messages with a number below `ids`. -/
structure RecastRun where
  va     : Nat
  grans  : List Nat
  todo   : List Nat := []
  role   : Role
  mode   : BitVec 3
  point  : BitVec 6
  stamp  : Nat
  copies : List Nat
  cmds   : List Nat
  others : List (Nat × Nat) := []
  ids    : Nat := 0
  /-- The scope it names (04 Table 4.3). -/
  scope  : Nat := 0
deriving DecidableEq, Repr, Inhabited

/-- What a granule held in an IMM period that has ended: its entry, its bits, and a mask of its poisoned granules (13 R288, R308). -/
structure Period where
  entry : DirEntry
  bits  : Nat
  psn   : Nat
  /-- The recasts of the granule since, whose invalidations have dropped the replicas in their reach: effective scope and issuer. -/
  cuts  : List (Nat × Nat) := []
deriving DecidableEq, Repr, Inhabited

/-- The send side of a window (20 Tables 20.11, 20.12, 20.15, R400). -/
structure Window where
  v    : Bool := false
  faa  : Bool := false
  pkg  : Nat := 0
  core : Nat := 0
  /-- TB, in 128-bit units. -/
  tb   : Nat := 0
  extm1 : Nat := 0
  /-- Messages unanswered, the live window, the allowance, and the internal H and C. -/
  out  : Nat := 0
  lw   : Nat := 64
  allow : Nat := 64
  h    : Nat := 0
  c    : Nat := 0
deriving DecidableEq, Repr, Inhabited

/-- A receive side (20 Table 20.13): base and extent in 128-bit units, the byte counter. -/
structure RecvSide where
  v     : Bool := false
  grant : Bool := false
  rb    : Nat := 0
  rextm1 : Nat := 0
  cnt   : Nat := 0
deriving DecidableEq, Repr, Inhabited

/-- A trigger slot (20 Table 20.14). -/
structure Trigger where
  v    : Bool := false
  cnt  : Nat := 0
  desc : Nat := 0
  thr  : Nat := 0
  /-- The cycle in which it fires, once its counter meets the threshold (20 R408). -/
  due  : Option Nat := none
deriving DecidableEq, Repr, Inhabited

/-- The fabric part of a core (20). -/
structure Fabric where
  win  : Tbl Window := []
  recv : Tbl RecvSide := []
  trig : Tbl Trigger := []
  rpend : BitVec 17 := 0
  mpend : Bool := false
  fxerr : W64 := 0
deriving DecidableEq, Repr, Inhabited

/-- The job on a core (01 R16, 06 R140, 13 R276). -/
structure Job where
  rcd  : Rec
  /-- A number no other job of the run has; messages carry it. -/
  serial : Nat
  accx : Nat := 0
  /-- The cycle its job began to run (18 R382). -/
  since : Nat := 0
  /-- The blocked interval, by its first cycle, for which INVERSION has been reported (18 R374). -/
  blocked : Option Nat := none
deriving DecidableEq, Repr, Inhabited

/-- An abort of the phase in progress (13 R298, R299): by `phabort` or by an error, the stream and the trap that led
to it, the value for C's g5, and how far it has come (0 stopping, 1 the input copy runs). -/
structure Abort where
  err   : Bool
  st    : Str
  trap  : Option Trap
  g5    : W64
  stage : Nat := 0
deriving DecidableEq, Repr, Inhabited

/-- A queued record: a task to start, or a saved job with the area that holds it (18 R366, 15 R352). -/
structure QRec where
  rcd  : Rec
  area : Option Nat := none
deriving DecidableEq, Repr, Inhabited

/-- A `flfill.put` in issue, whose tests are behind it: its flume by package and physical base, its slot, and the physical bits
of the slot by package, first bit and length (14 R314, R316). -/
structure FlPut where
  pkg  : Nat
  base : Nat
  slot : Nat
  lo   : Nat
  len  : Nat
deriving DecidableEq, Repr, Inhabited

/-- One core (01 Table 1.1). -/
structure Core where
  job : Option Job := none
  /-- A record granted to the core and not yet started (18 R381). -/
  grant : Option QRec := none
  /-- The context of the core's previous task (13 R279). -/
  prev : Option (BitVec 4) := none
  c : CEng := {}
  a : AEng := {}
  v : VEng := {}
  m : MEng := {}
  q  : Tbl Queue := []
  wq : Tbl WQueue := []
  /-- QSTALL.LIMIT (06 Table 6.2a). -/
  limit : BitVec 32 := 0
  /-- TSTAT and TSAV (15 Table 15.4, R335). -/
  pend : BitVec 4 := 0
  inh  : Bool := false
  cur  : Nat := 0
  pre  : Bool := false
  sarr : Bool := false
  /-- The `.sync` of SARR: its address, and until a stop the generation it waits for (14 R324). -/
  sarrAt : W64 := 0
  sgen : Option W64 := none
  sav30 : W64 := 0
  sav31 : W64 := 0
  /-- The cycle in which the job began to stop (15 R334), and why: a trap, a pre-emption, an abort. -/
  stopAt : Option Nat := none
  /-- The pre-emption that the stop leads to (15 R353). -/
  saving : Bool := false
  saveSlot : Nat := 0
  /-- SEM0 to SEM15 and SEMSTAT.OVF (14 Tables 14.8, 14.9). -/
  sem : Tbl (BitVec 16) := []
  semOvf : BitVec 16 := 0
  /-- The model's own: the last stage of R330 in which a semaphore was changed, with its cycle plus 1. -/
  semAct : Tbl (Nat × Nat) := []
  /-- The model's own, for happens-before at core scope (13 R305, 14 R325): the A words below this number happen before the next word
  of a stream, by its number, and before a wait that a semaphore lets pass. -/
  seen : Tbl Nat := []
  semSeen : Tbl Nat := []
  feet : List Foot := []
  owed : List OwedWrite := []
  marks : List Marker := []
  phase : Option Phase := none
  /-- PHSTAT (13 Table 13.8). -/
  aborts : BitVec 16 := 0
  last : BitVec 2 := 0
  erun : BitVec 2 := 0
  abort : Option Abort := none
  /-- The job is being killed (15 R336, R359): nothing of it issues any more. -/
  dead : Bool := false
  recast : Option RecastRun := none
  /-- Killed jobs with their receive sides, by which writes in flight are checked until the kill is complete (15 R359). -/
  gone : List (Job × Tbl RecvSide) := []
  /-- A translation removal under way (15 R344). -/
  tlbInv : Option TlbInv := none
  fab : Fabric := {}
  /-- Push credits (18 R368); the message, or record, whose reply a C word waits for, and that reply. -/
  credits : Nat := 8
  sent : Option Nat := none
  reply : Option (Nat × Option Trap) := none
  /-- The `flfill.put` whose write has left (14 R316). -/
  put : Option FlPut := none
  /-- Full/empty bits of scratchpad granules that are full (07 R186). -/
  full : Tbl Bool := []
  /-- Poison bits of accumulator lanes (11 R255). -/
  lanePsn : Tbl Bool := []
  /-- Roles of the own aperture: the default of every granule, and those that differ (13 R275, R279). -/
  roleDef : DirEntry := {}
  roles : Tbl DirEntry := []
  /-- The core TLB, most recently used first (15 R349). -/
  tlb : List TlbEntry := []
  /-- Numbers for loads, copies, commands and stores, in the order of their issue. -/
  stamp : Nat := 0
deriving DecidableEq, Repr, Inhabited


/-- A flume control block (14 Table 14.1) with its filled bits; `base` is the physical bit address of slot 0. -/
structure Flume where
  base     : Nat := 0
  slotBits : Nat := 0
  slotsM1  : Nat := 0
  pv    : Bool := false
  ppkg  : Nat := 0
  pcore : Nat := 0
  pstr  : Nat := 0
  cv    : Bool := false
  cpkg  : Nat := 0
  ccore : Nat := 0
  cstr  : Nat := 0
  claimed : Nat := 0
  held  : Nat := 0
  valid : Bool := false
  tail  : BitVec 32 := 0
  head  : BitVec 32 := 0
  filled : Tbl Bool := []
deriving DecidableEq, Repr, Inhabited

/-- A weir (14 R322): N, arrivals, GEN; the generation whose waiters are released, and the completed ones whose waiters are not yet,
oldest first, each with the cycle of its completion (14 R327). -/
structure Weir where
  n    : BitVec 24 := 0
  arr  : Nat := 0
  gen  : W64 := 0
  rel  : W64 := 0
  comps : List (W64 × Nat) := []
deriving DecidableEq, Repr, Inhabited

/-- A page walk of a die (15 R349): the context, the page's virtual address, who asked. -/
structure Walk where
  die  : Nat
  ctx  : BitVec 4
  va   : Nat
  /-- Core key and client: a stream, or a copy. -/
  who  : List (Nat × Waiter)
  /-- A removal since its start forbids to enter its result (15 R344). -/
  stale : Bool := false
deriving DecidableEq, Repr, Inhabited

/-- A cached page-table entry of level 0 to 2 (15 R349). -/
structure WalkCache where
  ctx   : BitVec 4
  level : Nat
  pre   : Nat
  pte   : W64
deriving DecidableEq, Repr, Inhabited

/-- What one die holds for one context (18 R366, R369). -/
structure DieCtx where
  basins : Tbl (List QRec) := []
  ovf    : List QRec := []
  g      : Option (BitVec 32) := none
  /-- The freeboard as the die has it (18 R380), and a lowered floor on its way to it (18 R372). -/
  fb     : BitVec 32 := 0
  low    : Option (BitVec 32) := none
deriving DecidableEq, Repr, Inhabited

/-- A push on its way to the headworks (18 R367, R368). -/
structure Push where
  rcd   : Rec
  /-- The die whose core issued it, whether it stays there, whether it carries the core's credit back. -/
  die   : Nat
  spawn : Bool
  core  : Option Nat
deriving DecidableEq, Repr, Inhabited

/-- A join slot (18 R376). -/
structure JoinSlot where
  armed : Bool := false
  ctx   : BitVec 4 := 0
  count : BitVec 32 := 0
  rcd   : Rec := {}
deriving DecidableEq, Repr, Inhabited

/-- One context of one package (18, 22 R426). -/
structure Ctx where
  live   : Bool := false
  image  : Nat := 0
  root   : Nat := 0
  /-- The event ring: bus byte address, records, next place. -/
  ringAt : Nat := 0
  ringN  : Nat := 0
  ringI  : Nat := 0
  dom    : Bool := false
  b      : Nat := 0
  fb     : BitVec 32 := 0
  tickets : Nat := 1
  quantum : Nat := 0
  strag  : Tbl W64 := []
  done   : Tbl W64 := []
  invTimeout : BitVec 32 := 0
  balMode : Nat := 0
  thresh : Nat := 0
  fh     : Option (BitVec 32) := none
  pass   : W64 := 0
  eligible : Bool := false
  inv    : BitVec 16 := 0
  stragN : BitVec 16 := 0
  mask   : BitVec 768 := 0
  weirs  : Tbl (BitVec 32) := []
  savex  : Nat := 0
  dvec   : W64 := 0
  qlimit : BitVec 32 := 0
  saveSlots : Nat := 0
  /-- The physical bit addresses of the pool's slots: runs of slots, by first address and count. -/
  pool : List (Nat × Nat) := []
  saveUsed : Tbl Bool := []
  /-- Register writes under way to the headworks: the cycle in which each takes effect, its number and value (18 R380). -/
  writes : List (Nat × Nat × W64) := []
  /-- A kill asked for (15 R358), and the granules of a kill in progress still to flip (15 R359). -/
  killReq : Option Nat := none
  killing : Option Nat := none
  /-- The context was launched and has not terminated; it was killed and not launched since. -/
  running : Bool := false
  killed  : Bool := false
  /-- The DRAM of its page tables: physical bit addresses, one role granule each. -/
  tables : List Nat := []
deriving DecidableEq, Repr, Inhabited

/-- A DRAM bank (22 Table 22.4). -/
structure Bank where
  strong : Bool := false
  thr    : BitVec 16 := 0
  cnt    : BitVec 16 := 0
  ue     : BitVec 16 := 0
  /-- The scrubber re-encodes it (22 R430). -/
  busy   : Bool := false
  /-- The count of some interval has exceeded THR, and the bank is still to be re-encoded (22 R430). -/
  due    : Bool := false
deriving DecidableEq, Repr, Inhabited

/-- A section of a loaded image (03, 13 R279, 22 R426): role, address (for ACC the offset in the lane space), extent in bits,
and for ACC its lanes' mode and point. -/
structure ImgSec where
  role  : Role
  va    : Nat
  len   : Nat
  mode  : BitVec 3 := 0
  point : BitVec 6 := 0
deriving DecidableEq, Repr, Inhabited

/-- A loaded image (22 R426). -/
structure Image where
  handle : Nat
  secs   : List ImgSec
  /-- The 64 KiB pages it lies in: virtual and physical bit address. -/
  pages  : List (Nat × Nat)
  /-- Bit addresses of the task table's entries. -/
  tasks  : List Nat
  /-- The launch record: root, context, arguments (03 R70). -/
  launch : Option (W64 × BitVec 4 × W64)
deriving DecidableEq, Repr, Inhabited

/-- The two mailboxes of BAR 0 with a DOOR: commands and launches (15 R362, 22 R425). -/
inductive Door where
  | command
  | launch
deriving DecidableEq, Repr, Inhabited

/-- One package: its mailboxes, firmware and governor (15 R362, 22). -/
structure Pkg where
  /-- Command mailbox (22 Table 22.1). -/
  status : BitVec 8 := 0
  busy   : Bool := true
  /-- The firmware is up: it serves the mailboxes (22 R424). -/
  up     : Bool := false
  op     : BitVec 8 := 0
  args   : Args := { a0 := 0, a1 := 0, a2 := 0, a3 := 0, a4 := 0, a5 := 0 }
  /-- Launch mailbox (15 Table 15.13). -/
  lcode  : BitVec 8 := 0
  lbusy  : Bool := false
  lbox   : LaunchBox := { ctx := 0, image := 0, pri := 0, root := 0, args := 0 }
  /-- The DOOR writes that the firmware has still to serve, in the order in which they arrived (22 R425). -/
  doors  : List Door := []
  images : List Image := []
  handles : Nat := 1
  /-- The error log, oldest first (22 R431). -/
  log    : List (BitVec 128) := []
  /-- Windows of bus byte addresses that the host granted: base and length (22 R428). -/
  granted : List (Nat × Nat) := []
  /-- PWRLIM, PWRAVG, PWRTHR, PWRCNT (22 Table 22.7). -/
  pwrLim : BitVec 16 := 0
  pwrAvg : BitVec 16 := 0
  pwrThr : BitVec 5 := 16
  pwrCnt : W64 := 0
  /-- The issue counts as of the last estimate (22 R432). -/
  pwrSeen : List Nat := []
  /-- The identity key, read by no one (22 R424). -/
  key    : BitVec 256 := 0
  /-- The firmware image that the ROM has loaded with its overlays, empty as shipped (22 R424, R427). -/
  firmware : List Byte := []
deriving DecidableEq, Repr, Inhabited

/-- The whole machine: every package of the domain, its networks and its hosts' memory. -/
structure State where
  cores : Tbl Core := []
  /-- Memory by byte: key package * 2^59 + physical byte address (15 R346); an unlisted byte reads 0. -/
  mem   : List Host.Cell := []
  /-- Poisoned 128-bit granules: key package * 2^55 + physical granule (07 R190). -/
  psn   : Tbl Bool := []
  /-- Role directory of memory slices and ports: key package * 2^47 + physical granule number (13 R275). -/
  dir   : Tbl DirEntry := []
  /-- The ended IMM periods of a granule, last first, that replicas may hold (13 R308), keyed as the directory. -/
  replicas : Tbl (List Period) := []
  /-- The stored CRC-32C of 256-byte blocks where it is not that of their data: key package * 2^51 + physical block (22 R429). -/
  crcs : Tbl (Option (BitVec 32)) := []
  /-- Flumes: key package * 2^55 + physical granule of the base. -/
  flumes : Tbl Flume := []
  weirs : Tbl Weir := []
  pkgs  : Tbl Pkg := []
  ctxs  : Tbl Ctx := []
  /-- Key die key * 16 + context. -/
  dctxs : Tbl DieCtx := []
  joins : Tbl JoinSlot := []
  banks : Tbl Bank := []
  /-- What the layout of a save area lacks (15 R354), kept with the area by the granule key of its base: the job as it was saved. -/
  sides : Tbl (Option Core) := []
  /-- Pushes on their way, oldest first. -/
  pushes : List (Nat × Push) := []
  msgs  : Tbl (Option Msg) := []
  walks : Tbl (Option Walk) := []
  wcache : Tbl (List WalkCache) := []
  /-- Positions that the firmware marked as holding no package (20 R388). -/
  absent : List Nat := []
  /-- The model's own fields: numbers for messages, walks and jobs; the turns to come, the cycle, the core that acts
  and the place of the event at hand, and the count of free values used. -/
  ids   : Nat := 1
  agenda : List Turn := []
  now   : Nat := 0
  cur   : Nat := 0
  ev    : EvArg := {}
  fresh : Nat := 0
deriving DecidableEq, Repr, Inhabited

/-- The machine right after reset, before the firmware has run (22 R424 step 1): every table empty, so every
register at its default above (DESIGN CHOICE, log entry 1) (DEDUCED, log entry 23). -/
def State.reset : State := {}

end Sys2Proof.Machine
end

