-- ==== Sys2Proof/Machine/Map.lean ====
section
/-!
DEFINITION. The physical address map of a package and the numbering of its parts (01, 07 R162, 20 R387).
The places of DRAM, far memory, host memory, apertures and device registers in the 62-bit physical space are the
model's (DESIGN CHOICE, log entry 3): the spec gives their sizes and no addresses.
-/
namespace Sys2Proof.Machine
open Sys2Proof

/-- Cores, dies and packages of a core key. -/
def pkgOf (ck : Nat) : Nat := ck / 768
def numOf (ck : Nat) : Nat := ck % 768
def dieKey (ck : Nat) : Nat := pkgOf ck * 8 + numOf ck / 96
def quadKey (ck : Nat) : Nat := pkgOf ck * 192 + numOf ck / 4
def coreKey (pkg n : Nat) : Nat := pkg * 768 + n
def ctxKey (pkg : Nat) (x : BitVec 4) : Nat := pkg * 16 + x.toNat

/-- 24 GiB in bits (01 R27). -/
def dramBits : Nat := 24 * 2 ^ 33
/-- The first bit of a die's bonded DRAM. -/
def dramBase (die : Nat) : Nat := die * 2 ^ 38
/-- CXL far memory: 8 TiB. -/
def cxlBase : Nat := 2 ^ 47
def cxlBits : Nat := 2 ^ 46
/-- Host memory, seen by bus byte address: 2^56 bytes. -/
def hostBase : Nat := 2 ^ 59
/-- The apertures of the cores: 2^30 bits each (07 R162). -/
def apBase : Nat := 2 ^ 60
/-- Device register space (20 R411). -/
def devBase : Nat := 2 ^ 61
def devBits : Nat := 2 ^ 40

/-- What a physical bit address lies in. -/
inductive Place where
  | dram (die off : Nat)
  | ap (core off : Nat)
  | cxl | host | dev | none
deriving DecidableEq, Repr, Inhabited

/-- The physical map (15 R347: an address it does not cover ends a walk). -/
def place (pa : Nat) : Place :=
  if pa < 2 ^ 41 then
    if pa % 2 ^ 38 < dramBits then .dram (pa / 2 ^ 38) (pa % 2 ^ 38) else .none
  else if cxlBase ≤ pa ∧ pa < cxlBase + cxlBits then .cxl
  else if hostBase ≤ pa ∧ pa < apBase then .host
  else if apBase ≤ pa ∧ pa < apBase + 768 * 2 ^ 30 then .ap ((pa - apBase) / 2 ^ 30) (pa % 2 ^ 30)
  else if devBase ≤ pa ∧ pa < devBase + devBits then .dev
  else .none

/-- The physical bit address of an aperture offset of core n of its package. -/
def apAddr (n off : Nat) : Nat := apBase + n * 2 ^ 30 + off

/-- The parts of an aperture (07 Table 7.5). -/
def scratchBits : Nat := 2 ^ 24
def accBase : Nat := 2 ^ 27
def accEnd : Nat := 2 ^ 27 + 40 * 163840
def regBase : Nat := 2 ^ 29
def regEnd : Nat := 2 ^ 29 + 65536
inductive ApPart where
  | scratch | acc | regs
deriving DecidableEq, Repr, Inhabited

/-- The part an offset lies in; an offset that no part covers has none. -/
def apPart (o : Nat) : Option ApPart :=
  if o < scratchBits then some .scratch
  else if accBase ≤ o ∧ o < accEnd then some .acc
  else if regBase ≤ o ∧ o < regEnd then some .regs
  else none

/-- The end of a part. -/
def ApPart.stop : ApPart → Nat
  | .scratch => scratchBits | .acc => accEnd | .regs => regEnd

/-- The whole range lies in one part. -/
def inPart (p : ApPart) (o n : Nat) : Bool := apPart o == some p && (n == 0 || apPart (o + n - 1) == some p)

/-- The aperture offset of lane n (07 R165), and how many lanes there are. -/
def laneOff (n : Nat) : Nat := accBase + 40 * n
def laneCount : Nat := 163840

/-- The virtual places that are not translated by page tables (07 R162, 20 R395). -/
def selfVa : Nat := 0x7E00000000000000
def absVa : Nat := 0x7F00000000000000
def winVa : Nat := 0x7C00000000000000
def winVaEnd : Nat := 0x7E00000000000000

/-- The memory slice of a physical address within its die (20 R387). -/
def sliceOf (pa : Nat) : Nat := pa / 2 ^ 15 % 8

/-- The pieces of an access, cut at 128-bit granules: first bit and length of each. -/
def cutsF : Nat → Nat → Nat → List (Nat × Nat)
  | 0, _, _ => []
  | f + 1, a, n =>
    if n = 0 then [] else
    (a, min n (128 - a % 128)) :: cutsF f (a + min n (128 - a % 128)) (n - min n (128 - a % 128))
def cuts (a n : Nat) : List (Nat × Nat) := cutsF (n / 128 + 2) a n

end Sys2Proof.Machine
end

