-- ==== Sys2Proof/Machine/Mem.lean ====
section
/-!
DEFINITION. Memory, poison, roles and the phase map: the named operations over the bits the part holds
(00 R2, 06 R155, 07 R166, R186, R190, 13 R275, R296).
-/
namespace Sys2Proof.Machine
open Sys2Proof

/-- The canonical form of memory: keys rising, no zero byte listed. -/
def Memory.wf (m : List Host.Cell) : Bool := twf (0 : Byte) m

/-- The byte at a key; an unlisted byte reads 0 (DESIGN CHOICE for DRAM, log entry 2; 22 R424 for on-chip memory). -/
def memByte (m : List Host.Cell) (k : Nat) : Byte := tget 0 m k
def memSetByte (m : List Host.Cell) (k : Nat) (b : Byte) : List Host.Cell := tset 0 m k b

/-- `n` bytes from a key, the first the least significant (00 R2). -/
def memBytes (m : List Host.Cell) (k : Nat) : Nat → Nat
  | 0 => 0
  | n + 1 => (memByte m k).toNat + 256 * memBytes m (k + 1) n
def memSetBytes (m : List Host.Cell) (k : Nat) : Nat → Nat → List Host.Cell
  | 0, _ => m
  | n + 1, v => memSetBytes (memSetByte m k (BitVec.ofNat 8 v)) (k + 1) n (v / 256)

/-- The number of bytes that `n` bits from bit `a` touch. -/
def spanBytes (a n : Nat) : Nat := if n = 0 then 0 else (a % 8 + n + 7) / 8

/-- `n` bits from bit key `a` (8 times a byte key plus the bit in it). -/
def memBits (m : List Host.Cell) (a n : Nat) : Nat := memBytes m (a / 8) (spanBytes a n) / 2 ^ (a % 8) % 2 ^ n
/-- Replaces `n` bits from bit key `a`; only the bytes they touch are written. -/
def memSetBits (m : List Host.Cell) (a n v : Nat) : List Host.Cell :=
  let old := memBytes m (a / 8) (spanBytes a n)
  let lo := old % 2 ^ (a % 8)
  let hi := old / 2 ^ (a % 8 + n)
  memSetBytes m (a / 8) (spanBytes a n) (lo + 2 ^ (a % 8) * (v % 2 ^ n) + 2 ^ (a % 8 + n) * hi)

/-! Reaching a core, a context, a package. -/

def State.coreAt (s : State) (k : Nat) : Core := tget {} s.cores k
def State.setCoreAt (s : State) (k : Nat) (c : Core) : State := { s with cores := tset {} s.cores k c }
/-- The core whose stream or engine acts. -/
def State.me (s : State) : Core := s.coreAt s.cur
def State.setMe (s : State) (c : Core) : State := s.setCoreAt s.cur c
def State.ctxAt (s : State) (k : Nat) : Ctx := tget {} s.ctxs k
def State.setCtxAt (s : State) (k : Nat) (x : Ctx) : State := { s with ctxs := tset {} s.ctxs k x }
def State.pkgAt (s : State) (k : Nat) : Pkg := tget {} s.pkgs k
def State.setPkgAt (s : State) (k : Nat) (p : Pkg) : State := { s with pkgs := tset {} s.pkgs k p }
def State.myPkg (s : State) : Nat := pkgOf s.cur

/-- Bit key, granule keys of a physical bit address of a package. -/
def bitKey (pkg pa : Nat) : Nat := pkg * 2 ^ 62 + pa
def granKey (pkg pa : Nat) : Nat := pkg * 2 ^ 55 + pa / 128

/-! The phase map (13 R296). -/

/-- The bits of the region. -/
def Phase.extent (p : Phase) : Nat := 32768 * p.region.length
/-- The number, in the region, of the 128-bit granule at an aperture offset: its slot in the shadow area has the same. -/
def Phase.slot (p : Phase) (o : Nat) : Option Nat :=
  (p.region.findIdx? (· == o / 32768 * 32768)).map fun i => 256 * i + o % 32768 / 128
/-- The offsets of granule `k` of the region and of its slot. -/
def Phase.regionOff (p : Phase) (k : Nat) : Nat := p.region.getD (k / 256) 0 + 128 * (k % 256)
def Phase.shadowOff (p : Phase) (k : Nat) : Nat := p.shadow.getD (k / 256) 0 + 128 * (k % 256)
/-- Where the current copy of a granule of a core's scratchpad stands: its slot in the shadow area once dirty. -/
def Phase.mapOff (p : Phase) (o : Nat) : Nat :=
  match p.slot o with
  | some k => if tget false p.dirty k then p.shadowOff k + o % 128 else o
  | none => o
/-- Where the current copy of a physical bit stands. -/
def State.curPa (s : State) (pkg pa : Nat) : Nat :=
  match place pa with
  | .ap n o =>
    match (s.coreAt (coreKey pkg n)).phase with
    | some p => apAddr n (p.mapOff o)
    | none => pa
  | _ => pa

/-! Bits within one granule. -/

/-- Bits within one 128-bit granule, as they stand at their home. -/
def State.rdGran (s : State) (pkg pa n : Nat) : Nat := memBits s.mem (bitKey pkg (s.curPa pkg pa)) n
/-- The lanes that some of `n` bits from an offset of the accumulator part lie in: the first and how many. -/
def lanesOf (o n : Nat) : Nat × Nat := ((o - accBase) / 40, (o + n - 1 - accBase) / 40 + 1 - (o - accBase) / 40)
/-- The poison of `n` bits within one granule (07 R190); the accumulator carries poison per lane (11 R255). -/
def State.isPsn (s : State) (pkg pa n : Nat) : Bool :=
  match place pa with
  | .ap c o =>
    if accBase ≤ o ∧ o < accEnd then
      let (l, k) := lanesOf o n
      (List.range k).any fun i => tget false (s.coreAt (coreKey pkg c)).lanePsn (l + i)
    else tget false s.psn (granKey pkg (s.curPa pkg pa))
  | _ => tget false s.psn (granKey pkg pa)
/-- A write of data to the accumulator part: a lane written whole takes their mark, one written in part adds it (log entry 12). -/
def markLanes (t : Tbl Bool) (o n : Nat) (psn : Bool) : Tbl Bool :=
  let (l, k) := lanesOf o n
  (List.range k).foldl (fun t i =>
    let a := accBase + 40 * (l + i)
    if psn then tset false t (l + i) true else if o ≤ a ∧ a + 40 ≤ o + n then tset false t (l + i) false else t) t
def State.setPsn (s : State) (pkg pa : Nat) (b : Bool) : State :=
  { s with psn := tset false s.psn (granKey pkg (s.curPa pkg pa)) b }
/-- The full/empty bit of a scratchpad granule of a core, by its offset (07 R186). -/
def State.isFull (s : State) (ck o : Nat) : Bool := tget false (s.coreAt ck).full (o / 128)
def State.setFull (s : State) (ck o : Nat) (b : Bool) : State :=
  let c := s.coreAt ck
  s.setCoreAt ck { c with full := tset false c.full (o / 128) b }

/-- The first write of the phase to a granule takes its slot in the shadow area, which then holds what the granule held (13 R296). -/
def State.touchPhase (s : State) (pkg pa : Nat) : State :=
  match place pa with
  | .ap n o =>
    let ck := coreKey pkg n
    let c := s.coreAt ck
    match c.phase with
    | some p =>
      match p.slot o with
      | some k =>
        if tget false p.dirty k then s else
        let v := memBits s.mem (bitKey pkg (apAddr n (o / 128 * 128))) 128
        let b := tget false s.psn (granKey pkg (apAddr n o))
        let sh := apAddr n (p.shadowOff k)
        { s with mem := memSetBits s.mem (bitKey pkg sh) 128 v, psn := tset false s.psn (granKey pkg sh) b }.setCoreAt ck
          { c with phase := some { p with dirty := tset false p.dirty k true } }
      | none => s
    | none => s
  | _ => s

/-- Appends to a package's error log, dropping the oldest of more than 4,096 records (22 R431). -/
def State.logError (s : State) (pkg : Nat) (r : BitVec 128) : State :=
  let p := s.pkgAt pkg
  s.setPkgAt pkg { p with log := if p.log.length < 4096 then p.log ++ [r] else p.log.drop 1 ++ [r] }
/-- An error record (22 Table 22.5). -/
def errRec (kind die core ctx detail addr : Nat) : BitVec 128 :=
  BitVec.ofNat 128 (kind % 2 ^ 8 * 2 ^ 120 + die % 2 ^ 8 * 2 ^ 112 + core % 2 ^ 10 * 2 ^ 102 + ctx % 2 ^ 6 * 2 ^ 96 + detail % 2 ^ 32 * 2 ^ 64 + addr % 2 ^ 64)

/-! The end-to-end CRC-32C (11 R270, 22 R429). -/

def crcBit (c : Nat) : Nat := if c % 2 = 1 then Nat.xor (c / 2) 0x82F63B78 else c / 2
def crcBits : Nat → Nat → Nat
  | 0, c => c
  | n + 1, c => crcBits n (crcBit c)
/-- CRC-32C over bytes, reflected, from a running value. -/
def crcFrom : Nat → List Nat → Nat
  | c, [] => c
  | c, b :: l => crcFrom (crcBits 8 (Nat.xor c b)) l
def crc32c (l : List Nat) : Nat := Nat.xor (crcFrom 0xFFFFFFFF l) 0xFFFFFFFF
/-- The CRC-32C that the data of a physical bit's block give, its bytes in ascending order. -/
def State.crcNow (s : State) (pkg pa : Nat) : Nat :=
  let v := memBits s.mem (bitKey pkg (pa / 2048 * 2048)) 2048
  crc32c ((List.range 256).map fun i => v / 2 ^ (8 * i) % 256)
def crcKey (pkg pa : Nat) : Nat := pkg * 2 ^ 51 + pa / 2048
/-- The stored CRC-32C of the block of a bit where it is not that of its data. -/
def State.crcBad (s : State) (pkg pa : Nat) : Option (BitVec 32) := tget none s.crcs (crcKey pkg pa)
/-- The die of a physical bit, 0 off the dies. -/
def dieOf (pa : Nat) : Nat := match place pa with | .dram d _ => d | .ap n _ => n / 96 | _ => 0
/-- A CRC mismatch is logged with the CRC found stored; where the bit lies on no die, the die reads 0 (DESIGN CHOICE, log entry 42). -/
def State.logCrc (s : State) (pkg pa : Nat) (c : BitVec 32) : State := s.logError pkg (errRec 3 (dieOf pa) 0 0 c.toNat pa)
/-- Far memory and host memory lie outside the device. -/
def leavesDevice (pa : Nat) : Bool := match place pa with | .cxl => true | .host => true | _ => false
/-- Data that leave the device from a block whose CRC does not match go out poisoned, and the error is logged; what enters from far
memory or the host takes a new CRC (22 R429). -/
def State.crcExit (s : State) (pkg : Nat) (ps : List (Nat × Nat)) : State × Bool :=
  let l := ps.filterMap fun p => if leavesDevice p.1 then none else (s.crcBad pkg p.1).map fun c => (p.1, c)
  (l.foldl (fun t p => t.logCrc pkg p.1 p.2) s, !l.isEmpty)
/-- A host-bound access may leave: its bytes lie in a window that the host granted (22 R428). Other places need none. -/
def State.hostGranted (s : State) (pkg pa n : Nat) : Bool :=
  match place pa with
  | .host =>
    let b := (pa - hostBase) / 8
    (s.pkgAt pkg).granted.any fun w => w.1 ≤ b && b + (n + 7) / 8 ≤ w.1 + w.2
  | _ => true
/-- A host-bound transaction outside every granted window is dropped and logged, with its core and context (22 R428). -/
def State.dropHost (s : State) (pkg core ctx pa : Nat) : State := s.logError pkg (errRec 7 (core / 96) core ctx 0 pa)
/-- A partial write at a home checks the block's stored CRC-32C first: a mismatch poisons the block and is logged (22 R429). -/
def State.crcCheck (s : State) (pkg pa : Nat) : State :=
  match s.crcBad pkg pa with
  | some c =>
    let s1 := (List.range 16).foldl (fun t i => t.setPsn pkg (pa / 2048 * 2048 + 128 * i) true) s
    { s1 with crcs := tset none s1.crcs (crcKey pkg pa) none }.logCrc pkg pa c
  | none => s
/-- The blocks of pieces, by first bit, each once. -/
def crcBlocks (ps : List (Nat × Nat)) : List Nat :=
  ps.foldl (fun l p => if l.contains (p.1 / 2048 * 2048) then l else l ++ [p.1 / 2048 * 2048]) []
/-- What a write to pieces does to the CRCs of their blocks: a block written whole takes that of the new data, another is checked
first (22 R429). -/
def State.crcWrite (s : State) (pkg : Nat) (ps : List (Nat × Nat)) : State :=
  if s.crcs.isEmpty then s else
  (crcBlocks ps).foldl (fun t b =>
    if 2048 ≤ (ps.filter fun p => p.1 / 2048 * 2048 == b).foldl (fun n p => n + p.2) 0 then { t with crcs := tset none t.crcs (crcKey pkg b) none }
    else t.crcCheck pkg b) s

/-- Writes bits within one granule at their home: the phase map, the full/empty bit of a scratchpad granule, and the poison
bit, which a whole-granule write sets to the data's and a partial one adds to (06 R155, 07 R186, R190, 13 R296). -/
def State.wrGran (s : State) (pkg pa n v : Nat) (psn : Bool) : State :=
  let s2 := s.touchPhase pkg pa
  let cp := s2.curPa pkg pa
  let s3 := { s2 with
    mem := memSetBits s2.mem (bitKey pkg cp) n v,
    psn := if n = 128 || psn then tset false s2.psn (granKey pkg cp) psn else s2.psn }
  match place pa with
  | .ap c o =>
    if o < scratchBits then s3.setFull (coreKey pkg c) o true
    else
      let k := coreKey pkg c
      let x := s2.coreAt k
      { s2 with mem := memSetBits s2.mem (bitKey pkg pa) n v }.setCoreAt k { x with lanePsn := markLanes x.lanePsn o n psn }
  | _ => s3

/-! Pieces: an access is a list of (physical bit address, length), each within one granule. -/

abbrev Pieces := List (Nat × Nat)

/-- The bits of the pieces, the first the least significant. -/
def State.rdPieces (s : State) (pkg : Nat) : Pieces → Nat
  | [] => 0
  | (pa, n) :: ps => s.rdGran pkg pa n + 2 ^ n * s.rdPieces pkg ps
/-- Some granule of the pieces is poisoned. -/
def State.psnPieces (s : State) (pkg : Nat) (ps : Pieces) : Bool := ps.any fun p => s.isPsn pkg p.1 p.2
/-- The bits with every poisoned granule read as zeros (07 R190 `.zf`). -/
def State.rdPiecesZf (s : State) (pkg : Nat) : Pieces → Nat
  | [] => 0
  | (pa, n) :: ps => (if s.isPsn pkg pa n then 0 else s.rdGran pkg pa n) + 2 ^ n * s.rdPiecesZf pkg ps
/-- The bits of the pieces from one value. -/
def State.wrBits (s : State) (pkg : Nat) : Pieces → Nat → Bool → State
  | [], _, _ => s
  | (pa, n) :: ps, v, psn => (s.wrGran pkg pa n (v % 2 ^ n) psn).wrBits pkg ps (v / 2 ^ n) psn
/-- Writes the pieces from one value: the CRCs of their blocks, then their bits. -/
def State.wrPieces (s : State) (pkg : Nat) (ps : Pieces) (v : Nat) (psn : Bool) : State := (s.crcWrite pkg ps).wrBits pkg ps v psn

/-! Roles (13 R275). -/

/-- The directory entry of the role granule of a physical bit address. -/
def State.roleAt (s : State) (pkg pa : Nat) : DirEntry :=
  match place pa with
  | .ap n o => let c := s.coreAt (coreKey pkg n); tget c.roleDef c.roles (o / 32768)
  | _ => tget {} s.dir (pkg * 2 ^ 47 + pa / 32768)
def State.setRoleAt (s : State) (pkg pa : Nat) (e : DirEntry) : State :=
  match place pa with
  | .ap n o =>
    let c := s.coreAt (coreKey pkg n)
    s.setCoreAt (coreKey pkg n) { c with roles := tset c.roleDef c.roles (o / 32768) e }
  | _ => { s with dir := tset {} s.dir (pkg * 2 ^ 47 + pa / 32768) e }

/-- A job owns a PRV granule (13 R276). -/
def DirEntry.ownedBy (e : DirEntry) (j : Job) : Bool :=
  e.role == .prv && !e.sys && e.ctx == j.rcd.ctx && e.frame == j.rcd.frame

/-- Slot arithmetic of a flume (14 R310, R311, R313). -/
def Flume.slots (f : Flume) : Nat := f.slotsM1 + 1
def Flume.used (f : Flume) : Nat := (f.tail - f.head).toNat
def Flume.pos (f : Flume) (i : Nat) : Nat := (i + f.slots - f.head.toNat % f.slots) % f.slots
def Flume.isFilled (f : Flume) (i : Nat) : Bool := tget false f.filled i
def Flume.isClaimed (f : Flume) (i : Nat) : Bool := i < f.slots && f.pos i < f.used && !f.isFilled i
def Flume.isHeld (f : Flume) (i : Nat) : Bool := i < f.slots && f.pos i < f.held
/-- The slot of a physical bit, where the flume's storage covers it. -/
def Flume.slotAt (f : Flume) (pa : Nat) : Option Nat :=
  if f.valid && f.base ≤ pa && pa < f.base + f.slots * f.slotBits && 0 < f.slotBits then some ((pa - f.base) / f.slotBits) else none

/-- The bits lie in a slot that the consumer job of core `n` holds, or that the producer's has claimed (14 R313) (DEDUCED, log entry 15). -/
def State.slotOk (s : State) (pkg pa : Nat) (wr : Bool) (hpkg n : Nat) : Bool :=
  s.flumes.any fun e => e.1 / 2 ^ 55 == pkg &&
    match e.2.slotAt pa with
    | some i => if wr then e.2.isClaimed i && e.2.pv && e.2.ppkg == hpkg && e.2.pcore == n
                else e.2.isHeld i && e.2.cv && e.2.cpkg == hpkg && e.2.ccore == n
    | none => false

/-- The accesses of Table 13.2. -/
inductive Acc where
  | rd | wr | add
deriving DecidableEq, Repr, Inhabited

/-- The role check of Table 13.2 for one granule, for an access of job `j` of core key `ck`. -/
def State.roleOk (s : State) (ck : Nat) (j : Job) (pkg pa : Nat) (a : Acc) : Bool :=
  let e := s.roleAt pkg pa
  match e.role, a with
  | .imm, .rd => true
  | .imm, _ => false
  | .str, .rd => s.slotOk pkg pa false (pkgOf ck) (numOf ck)
  | .str, .wr => s.slotOk pkg pa true (pkgOf ck) (numOf ck)
  | .str, .add => false
  | .acc, .add => e.ctx == j.rcd.ctx
  | .acc, _ => false
  | .prv, .add => false
  | .prv, _ => e.ownedBy j
def State.rolePieces (s : State) (ck : Nat) (j : Job) (pkg : Nat) (ps : Pieces) (a : Acc) : Bool :=
  ps.all fun p => s.roleOk ck j pkg p.1 a

end Sys2Proof.Machine
end

