-- ==== Sys2Proof/Machine/Ops.lean ====
section
/-!
DEFINITION. The shared operations: streams and their counters, waiting, taking a trap, queues, translation,
the registers of the four engines.
-/
namespace Sys2Proof

/-- The number of a stream in PEND, CUR and the vectors: C, A, V, M (15 Table 15.4). -/
def Str.num : Str → Nat
  | .c => 0 | .a => 1 | .v => 2 | .m => 3

end Sys2Proof

namespace Sys2Proof.Machine
open Sys2Proof

/-- 15 Table 15.1. -/
def Cause.code : Cause → Nat
  | .illegalOp => 1 | .fetchAlign => 2 | .pageFault => 3 | .permFault => 4 | .ldstScope => 5 | .misalign => 6
  | .roleFault => 7 | .roleRange => 8 | .tagMismatch => 9 | .poison => 10 | .queueStall => 11 | .feStall => 12
  | .syncStall => 13 | .rcStall => 14 | .copyRange => 15 | .copyFault => 16 | .mRange => 17 | .loopNest => 18
  | .operandOverlap => 19 | .planeFenced => 20 | .gaugeFail => 21 | .rdvMismatch => 22 | .phaseFault => 23
  | .flumeFault => 24 | .weirFault => 25 | .fabricErr => 26 | .trap => 27 | .sysState => 28 | .windowFault => 29
  | .atomicFault => 30 | .wlFault => 31

/-- Why a word does not complete now. -/
inductive Stop where
  /-- It traps (00 R9). -/
  | trap (t : Trap)
  /-- It waits at its place. -/
  | wait (k : WaitKind)
  /-- It waits for a page walk that it asks for (15 R349, R350). -/
  | walk (va : Nat)
deriving DecidableEq, Repr, Inhabited

/-- A trap with no information. -/
def tr (c : Cause) : Stop := .trap { cause := c }
/-- A trap whose EINFO is an address. -/
def trAt (c : Cause) (ea : Nat) : Stop := .trap { cause := c, info := BitVec.ofNat 64 ea }
/-- A test of an instruction: it stops with `e` unless `b`. -/
def need (b : Bool) (e : Stop) : Except Stop Unit := if b then .ok () else .error e

/-- Tests in their order of priority (00 R9). -/
def tests : List (Bool × Stop) → Except Stop Unit
  | [] => .ok ()
  | (b, e) :: l => if b then tests l else .error e

/-! Streams. -/

def strs : List Str := [.c, .a, .v, .m]

def Core.ctl (c : Core) : Str → Stream
  | .c => c.c.ctl | .a => c.a.ctl | .v => c.v.ctl | .m => c.m.ctl
def Core.setCtl (c : Core) (st : Str) (x : Stream) : Core :=
  match st with
  | .c => { c with c := { c.c with ctl := x } }
  | .a => { c with a := { c.a with ctl := x } }
  | .v => { c with v := { c.v with ctl := x } }
  | .m => { c with m := { c.m with ctl := x } }
def State.ctl (s : State) (st : Str) : Stream := s.me.ctl st
def State.setCtl (s : State) (st : Str) (x : Stream) : State := s.setMe (s.me.setCtl st x)

/-- The stream goes on at an address; its wait is over. -/
def State.jump (s : State) (st : Str) (t : W64) : State :=
  s.setCtl st { s.ctl st with pc := t, wait := none }
/-- The stream goes on at the next word (04 R74). -/
def State.advance (s : State) (st : Str) : State := s.jump st ((s.ctl st).pc + BitVec.ofNat 64 st.wordBits)

/-- Two waits run under one limit: for the same thing, or both for queues (06 R137). -/
def WaitKind.goesOn : WaitKind → WaitKind → Bool
  | .queue _, .queue _ => true
  | a, b => a == b
/-- What 18 R374 lists: a queue, a full/empty bit, a flume, weir, semaphore, `mjoin` or credit, `rcwait`, a rendezvous. -/
def WaitKind.blocks : WaitKind → Bool
  | .queue _ | .fe _ | .sync | .rc _ | .rdv => true
  | .fabric | .syncAt _ | .turn | .free => false
/-- A wait that follows another at the same word, under the limit of one that goes `on`, else under one of its own. -/
def Waiting.after (o on : Option Waiting) (k : WaitKind) (now stamp : Nat) : Waiting :=
  { since := (on.map (·.since)).getD now, kind := k, stamp := (on.map (·.stamp)).getD stamp
    blocked := if k.blocks then some ((o.bind (·.blocked)).getD now) else none }
/-- The stream waits at its word: since now, unless it already waited under the same limit. Cycles that a V word spends
under the scoreboard, on a page walk or at a rendezvous are slots (08 R195, R197) (DEDUCED, log entry 9). -/
def State.noteWait (s : State) (st : Str) (k : WaitKind) : State :=
  let x := s.ctl st
  let s1 := s.setCtl st { x with wait := some (.after x.wait (x.wait.filter (·.kind.goesOn k)) k s.now s.me.stamp) }
  if st = .v ∧ (k = .free ∨ k = .rdv) then
    let c := s1.me
    s1.setMe { c with v := { c.v with slot := c.v.slot + 1 } }
  else s1

/-- A wait whose limit starts anew, whatever the stream waited for before. -/
def State.freshWait (s : State) (st : Str) (k : WaitKind) : State :=
  let x := s.ctl st
  s.setCtl st { x with wait := some (.after x.wait none k s.now s.me.stamp) }

/-- The job of the core that acts; a core without one has the empty record (nothing of it runs then). -/
def State.job (s : State) : Job := s.me.job.getD { rcd := {}, serial := 0 }
/-- The context of the acting job. -/
def State.myCtx (s : State) : Nat := ctxKey s.myPkg s.job.rcd.ctx

/-- A kill of a context is asked for, with the cause that led to it (15 R336, R358). -/
def State.askKill (s : State) (xk cause : Nat) : State :=
  let x := s.ctxAt xk
  s.setCtxAt xk { x with killReq := some (x.killReq.getD cause) }

/-- The address that a trap of a stream records: the word at its counter (15 R333). -/
def Core.trapPc (c : Core) (st : Str) : W64 := (c.ctl st).pc

/-- The registers a trap of a stream writes (15 R333, R334): ECAUSE, EINFO, EPC, its PEND bit; the job begins to stop. -/
def Core.recordTrap (c : Core) (st : Str) (t : Trap) (pc : W64) (now : Nat) : Core :=
  let x := c.ctl st
  let c1 := c.setCtl st { x with ecause := BitVec.ofNat 64 (t.cause.code + 256 * t.sub), einfo := t.info, epc := pc,
                                 wait := none, rdv := none, due := none, walkFault := none }
  { c1 with pend := c.pend ||| BitVec.ofNat 4 (2 ^ st.num), stopAt := some (c.stopAt.getD now) }

/-- A trap recorded at a given word; one of the C stream inside a handler is a double trap and asks for the kill of the context
(15 R336) (DEDUCED, log entry 11). -/
def State.trapAt (s : State) (st : Str) (t : Trap) (pc : W64) : State :=
  let c := s.me
  let s1 := s.setMe (c.recordTrap st t pc s.now)
  if c.inh ∧ st = .c then
    (s1.setMe { s1.me with dead := true }).askKill s.myCtx t.cause.code
  else s1
/-- TAKING A TRAP at a given word. A POISON trap while a phase is active with ERUN < 2, one inside a handler too, becomes an error
abort (13 R299). -/
def State.takeTrapAt (s : State) (st : Str) (t : Trap) (pc : W64) : State :=
  let c := s.me
  if t.cause = .poison ∧ c.phase.isSome ∧ c.erun.toNat < 2 ∧ c.abort.isNone then
    s.setMe { c with
      abort := some { err := true, st := st, trap := some t, g5 := BitVec.allOnes 64 }, stopAt := some (c.stopAt.getD s.now) }
  else s.trapAt st t pc
/-- Taking a trap at the word of the stream's counter (00 R9, 15 R333). -/
def State.takeTrap (s : State) (st : Str) (t : Trap) : State := s.takeTrapAt st t (s.me.trapPc st)

/-- A fault that a stream takes at its first word not yet issued: the A stream's, else the C stream's, and when every
started stream has ended the context is killed (07 R181, 20 R399, R407) (DEDUCED, log entry 72). -/
def State.deferTrap (s : State) (ck : Nat) (t : Trap) : State :=
  let c := s.coreAt ck
  let open_ (x : Stream) : Bool := x.started && !x.ended
  if open_ c.a.ctl then
    s.setCoreAt ck (c.setCtl .a { c.a.ctl with due := some (c.a.ctl.due.getD t) })
  else if open_ c.c.ctl then
    s.setCoreAt ck (c.setCtl .c { c.c.ctl with due := some (c.c.ctl.due.getD t) })
  else if open_ c.v.ctl || open_ c.m.ctl then
    s.setCoreAt ck (c.setCtl .a { c.a.ctl with due := some (c.a.ctl.due.getD t) })
  else
    match c.job with
    | some j => (s.setCoreAt ck { c with dead := true }).askKill (ctxKey (pkgOf ck) j.rcd.ctx) t.cause.code
    | none => s

/-- The lowest stream with a PEND bit, in the order C, A, V, M (15 R335). -/
def lowestPend (p : BitVec 4) : Option Str := strs.find? fun st => p.getLsbD st.num

/-- ENTERING THE HANDLER of a stream: g30 and g31 receive its ECAUSE and EPC and the C stream goes to its vector
(15 R335). The first entry saves g30 and g31. A vector that is no multiple of 48 is entered as it stands (DESIGN CHOICE, log entry 98). -/
def Core.enterHandler (c : Core) (st : Str) (save : Bool) : Core :=
  let x := c.ctl st
  let c1 := if save then { c with sav30 := tget 0 c.c.g 30, sav31 := tget 0 c.c.g 31 } else c
  { c1 with
    inh := true, cur := st.num,
    c := { c1.c with
      g := tset 0 (tset 0 c1.c.g 30 x.ecause) 31 x.epc,
      ctl := { c1.c.ctl with pc := x.tvec, wait := none, rdv := none } } }

/-- THE RETURN FROM A HANDLER (15 R337): g30 and g31 are restored; every stopped stream resumes at its EPC. -/
def Core.restore30 (c : Core) : Core := { c with c := { c.c with g := tset 0 (tset 0 c.c.g 30 c.sav30) 31 c.sav31 } }
def Stream.resume (x : Stream) : Stream :=
  if x.stopped then { x with stopped := false, pc := x.epc, wait := none, rdv := none } else x
/-- Drained V results land at their distance from the first slot after the resumption (08 R199). -/
def VEng.refly (v : VEng) : VEng :=
  { v with fly := (v.snap.filter (·.valid)).map (fun e => { e.res with due := v.slot + e.d }), snap := [] }
def Core.resumeAll (c : Core) : Core :=
  { c with
    sarr := c.sarr && c.c.ctl.epc == c.sarrAt,
    inh := false, stopAt := none,
    c := { c.c with ctl := c.c.ctl.resume }, a := { c.a with ctl := c.a.ctl.resume },
    v := { c.v.refly with ctl := c.v.ctl.resume }, m := { c.m with ctl := c.m.ctl.resume } }

/-- Stopping at the next word boundary (15 R334): EPC names the word not issued; a rendezvous is left (DEDUCED, log entry 57).
A stream that a handler's return left stopped keeps the EPC it has (15 R352). -/
def Stream.halt (x : Stream) (trapped : Bool) : Stream :=
  if x.started ∧ !x.ended ∧ !x.stopped then
    { x with stopped := true, epc := if trapped then x.epc else x.pc, wait := none, rdv := none, rdvAt := 0, walkFault := none }
  else x
/-- V results in flight drain into the snapshot buffer (08 R199): `slot` is the slot t. -/
def VEng.drain (v : VEng) : VEng :=
  { v with snap := v.snap ++ (v.fly.map fun r => { res := r, d := r.due - v.slot, valid := true }), fly := [] }
def Core.haltAll (c : Core) : Core :=
  let p (st : Str) : Bool := c.pend.getLsbD st.num
  { c with
    sgen := none, put := none,
    c := { c.c with ctl := c.c.ctl.halt (p .c) }, a := { c.a with ctl := c.a.ctl.halt (p .a) },
    v := { c.v.drain with ctl := c.v.ctl.halt (p .v) }, m := { c.m with ctl := c.m.ctl.halt (p .m) } }

/-- Changes the entries of some granules. -/
def State.mapRoles (s : State) (pkg : Nat) (g : DirEntry → DirEntry) (pas : List Nat) : State :=
  pas.foldl (fun t pa => t.setRoleAt pkg pa (g (t.roleAt pkg pa))) s

/-- The granules that a recast in issue holds. -/
def RecastRun.mine (r : RecastRun) : List Nat := r.grans.take (r.grans.length - r.todo.length)
/-- A recast gives up what it has reserved (13 R286). -/
def State.release (s : State) (r : RecastRun) : State :=
  let t := s.mapRoles s.myPkg (fun e => { e with held := false }) r.mine
  t.setMe { t.me with recast := none }

/-- The streams of the job issue: no stop has been asked for before this cycle and no kill is under way. -/
def Core.running (c : Core) (now : Nat) : Bool :=
  c.job.isSome && !c.dead && !c.inh && (match c.stopAt with | none => true | some t => now ≤ t)
/-- A word of the stream that has issued is still to complete at its turns: a C word that waits for its reply, its `.put` or its recast,
a removal of translations that is not complete, an A word of which one message has left. -/
def Core.issued (c : Core) : Str → Bool
  | .c => c.sent.isSome || c.put.isSome || c.recast.isSome || c.tlbInv.isSome
  | .a => c.a.half.isSome
  | _ => false
/-- A cancellation whose cycle has passed acts before anything else of the core (11 R274). -/
def Core.cancelDue (c : Core) (now : Nat) : Bool := c.m.cancels.any (·.1 < now)
/-- A trigger fires in this cycle: a word that would take the firing away waits for it (20 R408, R416). -/
def Core.trigNow (c : Core) (now : Nat) : Bool :=
  !c.saving && c.fab.trig.any fun e => e.2.v && match e.2.due with | some d => d ≤ now | none => false
/-- A trigger that was to fire in an earlier cycle does so before anything else of the core (20 R408). -/
def Core.trigLate (c : Core) (now : Nat) : Bool :=
  !c.saving && c.fab.trig.any fun e => e.2.v && match e.2.due with | some d => d < now | none => false
/-- The stream can take a turn: it has started and not ended, has not trapped, and its job runs, or its word has issued and is
to complete; inside a handler only the C stream issues (15 R334, R335) (DEDUCED, log entry 10). -/
def Core.canIssue (c : Core) (st : Str) (now : Nat) : Bool :=
  if c.cancelDue now || c.trigLate now then false
  else if c.inh then c.job.isSome && !c.dead && c.abort.isNone && st == .c
  else (c.ctl st).started && !(c.ctl st).ended && !c.pend.getLsbD st.num && !(c.ctl st).stopped &&
    ((c.running now && c.abort.isNone) || (c.issued st && c.job.isSome && !c.dead))

/-! Translation (15 R346 to R351). -/

/-- 07 R167: a swizzle mode on a page offset. -/
def swizzle (mode o : Nat) : Nat :=
  let c := nbits o 7 6
  let rw := nbits o 13 6
  let c' := match mode with
    | 1 => Nat.xor c rw
    | 2 => Nat.xor c (rw % 16 * 4)
    | 3 => (c + rw) % 64
    | _ => c
  o / 2 ^ 13 * 2 ^ 13 + c' * 2 ^ 7 + o % 2 ^ 7

def TlbEntry.covers (e : TlbEntry) (x : BitVec 4) (va : Nat) : Bool := e.ctx == x && e.va ≤ va && va < e.va + 2 ^ e.size

/-- The translations that a client of a core holds: its stream TLB, or what the copy has used (15 R344); then the core TLB. -/
def Core.tlbFor (c : Core) : Waiter → List TlbEntry
  | .stream st => (c.ctl st).tlb ++ c.tlb
  | .copy id => (((c.a.copies ++ c.a.sends).find? (·.id == id)).map (·.pages)).getD [] ++ c.tlb
/-- A walk fault that waits for its client. -/
def Core.walkFaultOf (c : Core) : Waiter → Option (W64 × Nat)
  | .stream st => (c.ctl st).walkFault
  | .copy id => ((c.a.copies ++ c.a.sends).find? (·.id == id)).bind (·.walkFault)

/-- What an access needs of its page (15 R348). -/
inductive Perm where
  | r | w | add | x
deriving DecidableEq, Repr, Inhabited
def Perm.sub : Perm → Nat
  | .r => 1 | .w => 2 | .add => 3 | .x => 4
def TlbEntry.allows (e : TlbEntry) : Perm → Bool
  | .r => e.r | .w => e.w | .add => e.add | .x => e.x

/-- Translates one virtual bit address for a client: the physical address and whether its page is swizzled.
The own and the absolute apertures are mapped in every context (07 R162). -/
def State.xlate (s : State) (ck : Nat) (cl : Waiter) (va : Nat) (p : Perm) : Except Stop (Nat × Bool) :=
  let c := s.coreAt ck
  let x := (c.job.getD { rcd := {}, serial := 0 }).rcd.ctx
  if selfVa ≤ va ∧ va < selfVa + 2 ^ 30 then
    if p = .x then .error (.trap { cause := .permFault, info := BitVec.ofNat 64 va, sub := 4 })
    else .ok (apAddr (numOf ck) (va - selfVa), false)
  else if absVa ≤ va ∧ va < absVa + 768 * 2 ^ 30 then
    if p = .x then .error (.trap { cause := .permFault, info := BitVec.ofNat 64 va, sub := 4 })
    else .ok (apBase + (va - absVa), false)
  else
    match (c.tlbFor cl).find? (·.covers x va) with
    | some e =>
      if e.allows p then .ok (e.pa + swizzle e.swz (va - e.va), e.swz != 0)
      else .error (.trap { cause := .permFault, info := BitVec.ofNat 64 va, sub := p.sub })
    | none =>
      match c.walkFaultOf cl with
      | some (f, sub) =>
        if f.toNat / 2 ^ 19 = va / 2 ^ 19 then .error (.trap { cause := .pageFault, info := BitVec.ofNat 64 va, sub := sub })
        else .error (.walk va)
      | none => .error (.walk va)

/-- Translates every piece of an access, the lowest first (15 R332). -/
def State.xlateAll (s : State) (ck : Nat) (cl : Waiter) (p : Perm) : List (Nat × Nat) → Except Stop (List (Nat × Nat × Bool))
  | [] => .ok []
  | (va, n) :: ps => do
    let (pa, sw) ← s.xlate ck cl va p
    let r ← s.xlateAll ck cl p ps
    .ok ((pa, n, sw) :: r)

/-- Puts an entry first and keeps at most `n` (least recently used leaves) (PRESUMED, log entry 13). -/
def tlbPut (l : List TlbEntry) (e : TlbEntry) (n : Nat) : List TlbEntry :=
  (e :: l.filter (fun o => !(o.ctx == e.ctx && o.va == e.va && o.size == e.size))).take n

/-- A use of a translation: it becomes the most recent of the stream's TLB, and of the core's where it came from there. -/
def Core.useTlb (c : Core) (cl : Waiter) (x : BitVec 4) (va : Nat) : Core :=
  match cl with
  | .stream st =>
    let t := c.ctl st
    match t.tlb.find? (·.covers x va) with
    | some e => c.setCtl st { t with tlb := tlbPut t.tlb e 64 }
    | none =>
      match c.tlb.find? (·.covers x va) with
      | some e => { c with tlb := tlbPut c.tlb e 1024 }.setCtl st { t with tlb := tlbPut t.tlb e 64 }
      | none => c
  | .copy _ =>
    match c.tlb.find? (·.covers x va) with
    | some e => { c with tlb := tlbPut c.tlb e 1024 }
    | none => c
def State.useTlb (s : State) (ck : Nat) (cl : Waiter) (va : Nat) : State :=
  let c := s.coreAt ck
  s.setCoreAt ck (c.useTlb cl (c.job.getD { rcd := {}, serial := 0 }).rcd.ctx va)

/-- Asks for a page walk: a walk of the same page on the die is joined (15 R349). -/
def State.askWalk (s : State) (ck : Nat) (cl : Waiter) (va : Nat) : State :=
  let c := s.coreAt ck
  let x := (c.job.getD { rcd := {}, serial := 0 }).rcd.ctx
  let pg := va / 2 ^ 19 * 2 ^ 19
  match s.walks.find? (fun e => match e.2 with | some w => w.die == dieKey ck && w.ctx == x && w.va == pg | none => false) with
  | some (k, some w) =>
    if w.who.contains (ck, cl) then s
    else { s with walks := tset none s.walks k (some { w with who := w.who ++ [(ck, cl)] }) }
  | _ => { s with
      walks := tset none s.walks s.ids (some { die := dieKey ck, ctx := x, va := pg, who := [(ck, cl)] }), ids := s.ids + 1 }

/-- The end of a word of a stream: the state it gives, its trap, or its wait. -/
def State.finish (s : State) (st : Str) (r : Except Stop State) : State :=
  match r with
  | .ok t => t
  | .error (.trap t) => s.takeTrap st t
  | .error (.wait k) => s.noteWait st k
  | .error (.walk va) => (s.askWalk s.cur (.stream st) va).noteWait st .free

/-! The registers of the engines. A write to g0 is discarded (06 R130, 07 R158, 08 R193). -/

def regSet (t : Tbl W64) (r : Nat) (x : W64) : Tbl W64 := if r = 0 then t else tset 0 t r x
def regGet (t : Tbl W64) (r : Nat) : W64 := if r = 0 then 0 else tget 0 t r
def Core.cg (c : Core) (r : Nat) : W64 := regGet c.c.g r
def Core.setCg (c : Core) (r : Nat) (x : W64) : Core := { c with c := { c.c with g := regSet c.c.g r x } }
def State.cg (s : State) (r : Nat) : W64 := s.me.cg r
def State.setCg (s : State) (r : Nat) (x : W64) : State := s.setMe (s.me.setCg r x)
def Core.vg (c : Core) (r : Nat) : W64 := regGet c.v.g r

/-! Queues (06 R132 to R137). -/

def Core.queue (c : Core) (n : Nat) : Queue := tget {} c.q n
def Core.wqueue (c : Core) (n : Nat) : WQueue := tget {} c.wq n
/-- Entries of a V queue destination that results in flight or drained ones have reserved (08 R198, 15 R343). -/
def Core.reserved (c : Core) (d : VDst) : Nat :=
  (c.v.fly.filter (·.dst == d)).length + (c.v.snap.filter (fun e => e.valid && e.res.dst == d)).length
/-- Entries in use in the cycle `now`: a pop frees its entry at the end of its cycle, so an entry popped in it or later counts
(06 R134). While its producer waits for room a queue loses no more entries than it keeps the pops of. -/
def Core.qUsed (c : Core) (n now : Nat) : Nat :=
  let q := c.queue n
  q.ents.length + (q.pops.filter (now ≤ ·)).length + (if n = 5 then c.reserved .q5 else 0)
def Core.wqUsed (c : Core) (n now : Nat) : Nat :=
  let q := c.wqueue n
  q.ents.length + (q.pops.filter (now ≤ ·)).length + c.reserved (.wq n)
def Core.qFree (c : Core) (n now : Nat) : Bool := c.qUsed n now < 8
def Core.wqFree (c : Core) (n now : Nat) : Bool := c.wqUsed n now < 4
/-- The entry that a pop takes in the cycle `now`: the oldest, if it is visible. -/
def Core.qHead (c : Core) (n now : Nat) : Option QEntry :=
  match (c.queue n).ents with
  | e :: _ => if !e.held && e.load.isNone && e.rdy ≤ now then some e else none
  | [] => none
def Core.wqHead (c : Core) (n now : Nat) : Option WEntry :=
  match (c.wqueue n).ents with
  | e :: _ => if !e.held && e.load.isNone && e.rdy ≤ now then some e else none
  | [] => none
/-- The streams that push and pop q0 to q7, and wq0 to wq3, by number (Table 6.3). -/
def qFrom (n : Nat) : Nat := if n = 0 ∨ n = 1 ∨ n = 6 then 1 else if n = 5 then 2 else 0
def qInto (n : Nat) : Nat := if n = 0 ∨ n = 1 ∨ n = 5 then 0 else if n = 4 ∨ n = 6 then 2 else 1
def wqFrom (n : Nat) : Nat := if n < 2 then 1 else 2
def wqInto (n : Nat) : Nat := if n < 2 then 2 else 1
/-- The A words below this number happen before the next word of a stream (13 R305): all that the A stream has issued, for its own. -/
def Core.seenBy (c : Core) (st : Nat) : Nat := if st = 1 then c.stamp else tget 0 c.seen st
/-- A stream acquires the A words below a number. -/
def seenMore (t : Tbl Nat) (i n : Nat) : Tbl Nat := tset 0 t i (max (tget 0 t i) n)
/-- A pop is the acquire of its entry's push (06 R136). -/
def Core.qPop (c : Core) (n now : Nat) : Core :=
  let q := c.queue n
  { c with q := tset {} c.q n { ents := q.ents.drop 1, pops := now :: q.pops.take 7 }
           seen := seenMore c.seen (qInto n) ((q.ents.head?.map (·.seen)).getD 0) }
def Core.wqPop (c : Core) (n now : Nat) : Core :=
  let q := c.wqueue n
  { c with wq := tset {} c.wq n { ents := q.ents.drop 1, pops := now :: q.pops.take 3 }
           seen := seenMore c.seen (wqInto n) ((q.ents.head?.map (·.seen)).getD 0) }
/-- A push releases what its stream has seen. -/
def Core.qPush (c : Core) (n : Nat) (e : QEntry) : Core :=
  let q := c.queue n
  { c with q := tset {} c.q n { q with ents := q.ents ++ [{ e with seen := c.seenBy (qFrom n) }] } }
def Core.wqPush (c : Core) (n : Nat) (e : WEntry) : Core :=
  let q := c.wqueue n
  { c with wq := tset {} c.wq n { q with ents := q.ents ++ [{ e with seen := c.seenBy (wqFrom n) }] } }

/-! Semaphores (14 R328 to R330). -/

def Core.semAt (c : Core) (i : Nat) : Nat := (tget 0 c.sem i).toNat
/-- The stage of R330 that the cycle has reached for a semaphore: 1 `syswr`, 2 signals, 3 to 5 the waits of C, V and M. -/
def Core.semStage (c : Core) (i now : Nat) : Nat := let a := tget (0, 0) c.semAct i; if a.1 = now + 1 then a.2 else 0
/-- A change of stage `k` can still be made in the cycle; one that comes too late waits for the next cycle, in which it freezes V (DEDUCED, log entry 86). -/
def Core.semMay (c : Core) (i k now : Nat) : Bool := c.semStage i now ≤ k
def Core.semMark (c : Core) (i k now : Nat) : Core := { c with semAct := tset (0, 0) c.semAct i (now + 1, max k (c.semStage i now)) }
/-- A signal saturates at 65,535 and then sets the OVF bit; it releases the A words below `hb`. -/
def Core.signal (c : Core) (i n now hb : Nat) : Core :=
  let t := c.semAt i + n
  let c1 := { c.semMark i 2 now with semSeen := seenMore c.semSeen i hb }
  if t < 65536 then { c1 with sem := tset 0 c.sem i (BitVec.ofNat 16 t) }
  else { c1 with sem := tset 0 c.sem i 0xFFFF, semOvf := c.semOvf ||| BitVec.ofNat 16 (2 ^ i) }
/-- A wait of stage `k` (3 to 5: C, V, M) passes, and its stream acquires what the signals released. -/
def Core.takeSem (c : Core) (i n k now : Nat) : Core :=
  { c.semMark i k now with sem := tset 0 c.sem i (BitVec.ofNat 16 (c.semAt i - n))
                           seen := seenMore c.seen (if k = 3 then 0 else k - 2) (tget 0 c.semSeen i) }

end Sys2Proof.Machine
end

