-- ==== Sys2Proof/Machine/Flags.lean ====
section
/-!
DEFINITION. XFLAGS (05 R108, R109, Table 5.2): the bits, and setting them in a stream.
-/
namespace Sys2Proof.Machine
open Sys2Proof

abbrev Fl := BitVec 8
def fNX : Fl := 0x01
def fUF : Fl := 0x02
def fOF : Fl := 0x04
def fDZ : Fl := 0x08
def fNV : Fl := 0x10
def fSC : Fl := 0x20
def fTI : Fl := 0x40
def fZF : Fl := 0x80

/-- A flag where a condition holds. -/
def flagIf (b : Bool) (f : Fl) : Fl := if b then f else 0

/-- Sets flags in a stream's XFLAGS; nothing clears one but a write of software (Table 5.2: W1C). -/
def Core.orFlags (c : Core) (st : Str) (f : Fl) : Core :=
  let x := c.ctl st
  c.setCtl st { x with xflags := x.xflags ||| f }
def State.orFlags (s : State) (st : Str) (f : Fl) : State := s.setMe (s.me.orFlags st f)

/-- The flags of the C stream's divisions (06 R147). -/
def divFlags (a b : W64) : Fl :=
  if b = 0 then fDZ else if a.toInt = -(2 ^ 63 : Int) ∧ b.toInt = -1 then fOF else 0
def divnFlags (b : W64) : Fl := if b = 0 then fDZ else 0

end Sys2Proof.Machine
end

