-- ==== Sys2Proof/Machine/Pages.lean ====
section
/-!
DEFINITION. The page walk (15 R346, R347, R349), the translation of a page without a wait (07 R160, R183, 13 R302), and what
the replicas of an IMM granule may show (13 R288, R308).
-/
namespace Sys2Proof.Machine
open Sys2Proof

/-- A cached table entry of level l covers pages whose address has these leading bits (R346). -/
def levelBits (l : Nat) : Nat := 55 - 9 * l
/-- The fields of a page-table entry (Table 15.9). -/
def pteV (e : Nat) : Bool := e.testBit 0
def pteLeaf (e : Nat) : Bool := e.testBit 1
def pteRsv (e : Nat) : Bool := nbits e 2 3 != 0 || nbits e 12 3 != 0 || nbits e 62 2 != 0
def ptePa (e : Nat) : Nat := nbits e 15 47 * 2 ^ 15
def pteSwz (e : Nat) : Nat := nbits e 9 3
/-- The size of a page that a leaf of a level maps, as a power of two. -/
def pageBits (level : Nat) : Nat := levelBits level
/-- The physical map covers a range. -/
def covered (pa n : Nat) : Bool := place pa != .none && place (pa + n - 1) != .none
/-- The SUB of the fault that an entry of a level meets (R347); 0 where it meets none. -/
def pteFault (level e : Nat) : Nat :=
  if !pteV e then 1
  else if pteRsv e then 2
  else if pteLeaf e && 4 ≤ pteSwz e then 3
  else if pteLeaf e && 2 ≤ level && ptePa e % 2 ^ pageBits level != 0 then 4
  else if (pteLeaf e && level < 2) || (!pteLeaf e && level == 4) then 5
  else if !covered (ptePa e) (if pteLeaf e then 2 ^ pageBits level else 32768) then 6
  else 0

/-- What a walk ends in. -/
inductive WalkEnd where
  | page (e : TlbEntry)
  | fault (sub : Nat)
deriving DecidableEq, Repr, Inhabited

/-- The 64 bits of an entry in physical memory: the walker reads tables without role checks (R347) (DEDUCED, log entry 68). -/
def State.pteAt (s : State) (pkg pa : Nat) : Nat := memBits s.mem (bitKey pkg pa) 64
/-- The entry of a level: from the walker's cache for levels 0 to 2, else from memory (R349). -/
def State.ptePick (s : State) (die : Nat) (x : BitVec 4) (table va level : Nat) : Nat :=
  let pre := va / 2 ^ levelBits level
  match if level ≤ 2 then (tget [] s.wcache die).find? (fun c => c.ctx == x && c.level == level && c.pre == pre) else none with
  | some c => c.pte.toNat
  | none => s.pteAt (die / 8) (table + 64 * (pre % 512))
/-- Walks from a level on; `n` levels are left. The entries of levels 0 to 2 that it passed come with the result. -/
def State.walkFrom (s : State) (die : Nat) (x : BitVec 4) (va : Nat) : Nat → Nat → Nat → List WalkCache × WalkEnd
  | 0, _, _ => ([], .fault 5)
  | n + 1, level, table =>
    let e := s.ptePick die x table va level
    let sub := pteFault level e
    if sub ≠ 0 then ([], .fault sub) else
    let c : WalkCache := { ctx := x, level := level, pre := va / 2 ^ levelBits level, pte := BitVec.ofNat 64 e }
    let keep (l : List WalkCache) : List WalkCache := if level ≤ 2 then c :: l else l
    if pteLeaf e then
      let b := pageBits level
      (keep [], .page { ctx := x, va := va / 2 ^ b * 2 ^ b, size := b, pa := ptePa e, swz := pteSwz e,
                        r := e.testBit 5, w := e.testBit 6, x := e.testBit 7, add := e.testBit 8 })
    else
      let (l, r) := s.walkFrom die x va n (level + 1) (ptePa e)
      (keep l, r)
/-- A whole walk of a virtual address (R346). -/
def State.walk (s : State) (die : Nat) (x : BitVec 4) (va : Nat) : List WalkCache × WalkEnd :=
  s.walkFrom die x va 5 0 (s.ctxAt (die / 8 * 16 + x.toNat)).root

/-! Translation that asks for nothing. -/

/-- The page of a virtual bit address as client `cl` of core `ck` has it, else as a walk finds it now: its physical bit address and
its swizzle mode. Nothing where the address has no page. A footprint and an order of accesses act on physical bits (07 R183,
13 R302) and wait for no walk (07 R160) (DEDUCED, log entry 34). -/
def State.peek (s : State) (ck : Nat) (cl : Waiter) (va : Nat) : Option (Nat × Nat) :=
  let c := s.coreAt ck
  let x := (c.job.getD { rcd := {}, serial := 0 }).rcd.ctx
  if selfVa ≤ va ∧ va < selfVa + 2 ^ 30 then some (apAddr (numOf ck) (va - selfVa), 0)
  else if absVa ≤ va ∧ va < absVa + 768 * 2 ^ 30 then some (apBase + (va - absVa), 0)
  else if winVa ≤ va ∧ va < winVaEnd then none
  else
    match (c.tlbFor cl).find? (·.covers x va) with
    | some e => some (e.pa + swizzle e.swz (va - e.va), e.swz)
    | none =>
      match (s.walk (dieKey ck) x va).2 with
      | .page e => some (e.pa + swizzle e.swz (va - e.va), e.swz)
      | .fault _ => none
/-- The bits from a virtual address to the end of its page, or of its aperture. -/
def pageRest (va : Nat) : Nat :=
  if (selfVa ≤ va ∧ va < selfVa + 2 ^ 30) ∨ (absVa ≤ va ∧ va < absVa + 768 * 2 ^ 30) then 2 ^ 30 - va % 2 ^ 30 else 2 ^ 19 - va % 2 ^ 19
/-- A virtual range cut at its pages: first bit and length of each part. -/
def pageCuts : Nat → Nat → Nat → List (Nat × Nat)
  | 0, _, _ => []
  | f + 1, a, n => if n = 0 then [] else (a, min n (pageRest a)) :: pageCuts f (a + min n (pageRest a)) (n - min n (pageRest a))
/-- A part of a virtual range that one page maps: its first virtual bit and length, the page's physical bit address there as if
it were not swizzled, and its swizzle mode. -/
structure Run where
  va  : Nat
  len : Nat
  pa  : Nat
  swz : Nat
deriving Repr, Inhabited
/-- The mapped parts of a virtual range. -/
def State.runs (s : State) (ck : Nat) (cl : Waiter) (a n : Nat) : List Run :=
  (pageCuts (n / 2 ^ 19 + 2) a n).filterMap fun p =>
    (s.peek ck cl (p.1 - p.1 % 2 ^ 19)).map fun q => { va := p.1, len := p.2, pa := q.1 + p.1 % 2 ^ 19, swz := q.2 }
/-- The physical bits that a run can touch: swizzling moves a granule within its row of 8,192 bits (13 R303). -/
def Run.span (r : Run) : Nat × Nat :=
  if r.swz = 0 then (r.pa, r.pa + r.len) else (r.pa / 8192 * 8192, (r.pa + r.len + 8191) / 8192 * 8192)
/-- The physical bit of bit `i` of a run in a swizzled page (07 R167). -/
def Run.bit (r : Run) (i : Nat) : Nat := r.pa - r.va % 2 ^ 19 + swizzle r.swz ((r.va + i) % 2 ^ 19)
/-- A range too long to be one: its index has no bound at issue (07 R183). -/
def unbounded : Nat := 2 ^ 62
/-- The physical spans of a virtual range; a range without a bound may touch any bit. -/
def State.spans (s : State) (ck : Nat) (cl : Waiter) (r : Nat × Nat) : List (Nat × Nat) :=
  if unbounded ≤ r.2 then [(0, 2 ^ 62)] else (s.runs ck cl r.1 r.2).map Run.span
/-- Two lists of spans share a bit. -/
def spansMeet (l m : List (Nat × Nat)) : Bool := l.any fun p => m.any fun q => p.1 < q.2 && q.1 < p.2
/-- Pieces as spans. -/
def pieceSpans (ps : Pieces) : List (Nat × Nat) := ps.map fun p => (p.1, p.1 + p.2)

/-! Replicas of IMM granules of memory (13 R288, R308). -/

/-- The least scope of Table 1.2, by its code, that holds a core and the home of a physical bit. -/
def leastScope (ck pa : Nat) : Nat :=
  let m := numOf ck
  match place pa with
  | .ap n _ => if n = m then 1 else if n / 4 = m / 4 then 2 else if n / 96 = m / 96 then 3 else 4
  | .dram d _ => if d = m / 96 then 3 else 4
  | _ => 4
/-- Core `k` lies outside a scope around core `ck`. -/
def outOfScope (scope ck k : Nat) : Bool :=
  if scope ≤ 1 then k != ck else if scope = 2 then quadKey k != quadKey ck else if scope = 3 then dieKey k != dieKey ck
  else scope == 4 && pkgOf k != pkgOf ck
/-- Replicas are kept of bonded DRAM and far memory. -/
def replicated (pa : Nat) : Bool := match place pa with | .dram _ _ => true | .cxl => true | _ => false
/-- The key of a role granule in the directory and among the replicas. -/
def roleKey (pkg pa : Nat) : Nat := pkg * 2 ^ 47 + pa / 32768
/-- A replica filled in the period may stand with core `k`: every recast since has left it out of its effective scope. -/
def Period.standsAt (p : Period) (k : Nat) : Bool := p.cuts.all fun q => outOfScope q.1 q.2 k
/-- The periods of a role granule that a replica may still show the acting core. -/
def State.staleAt (s : State) (g : Nat) : List Period := (tget [] s.replicas (roleKey s.myPkg g)).filter (·.standsAt s.cur)
/-- The role granules of an access, each once, of which a replica may show an ended period. -/
def State.staleOf (s : State) (ps : Pieces) : List Nat :=
  if s.replicas.isEmpty then [] else
  (ps.foldl (fun l p => if l.contains (p.1 / 32768 * 32768) then l else l ++ [p.1 / 32768 * 32768]) []).filter fun g => !(s.staleAt g).isEmpty
/-- The period that serves granule `g` where the free value is `n`, if a replica does: which, is free (R308). -/
def State.served (s : State) (g n : Nat) : Option Period := (s.staleAt g)[Config.freeNat n % ((s.staleAt g).length + 1)]?
/-- The granule as a period held it: bits, poison and entry. -/
def State.withPeriod (s : State) (g : Nat) : Option Period → State
  | none => s
  | some p =>
    { s with
      mem := memSetBits s.mem (bitKey s.myPkg g) 32768 p.bits
      psn := (List.range 256).foldl (fun t i => tset false t (granKey s.myPkg (g + 128 * i)) (p.psn.testBit i)) s.psn }.setRoleAt s.myPkg g p.entry
/-- The pieces of host memory outside every granted window: a read of them is dropped before the host port (22 R428). -/
def State.denied (s : State) (ps : Pieces) : Pieces := ps.filter fun p => !s.hostGranted s.myPkg p.1 p.2
/-- What a read that the port drops brings, bits and poison, the spec does not say: free values (DESIGN CHOICE, log entry 94). -/
def State.unread (s : State) (p : Nat × Nat) (n : Nat) : State :=
  { s with
    mem := memSetBits s.mem (bitKey s.myPkg p.1) p.2 (Config.freeNat n / 2)
    psn := tset false s.psn (granKey s.myPkg p.1) (Config.freeNat n % 2 == 1) }
/-- The machine as a read finds it: where a replica serves a role granule, it shows that period; the free values from `n` on choose. -/
def State.viewedFrom (s : State) (n : Nat) (ps : Pieces) : State :=
  ((s.denied ps).zipIdx).foldl (fun t e => t.unread e.1 (n + (s.staleOf ps).length + e.2))
    (((s.staleOf ps).zipIdx).foldl (fun t e => t.withPeriod e.1 (s.served e.1 (n + e.2))) s)
def State.viewed (s : State) (ps : Pieces) : State := s.viewedFrom s.fresh ps
/-- The reads that the host port drops are logged (22 R428). -/
def State.dropped (s : State) (ps : Pieces) : State :=
  (s.denied ps).foldl (fun t p => t.dropHost s.myPkg (numOf s.cur) s.job.rcd.ctx.toNat p.1) s
/-- A read takes a free value for each role granule that a replica may serve and for each piece that the host port drops, and the
drops are logged. -/
def State.drawn (s : State) (ps : Pieces) : State :=
  { s with fresh := s.fresh + (s.staleOf ps).length + (s.denied ps).length }.dropped ps

end Sys2Proof.Machine
end

