-- ==== Sys2Proof/Machine/Operands.lean ====
section
/-!
DEFINITION. The operand forms: registers and queues of C and A words (04 R87, R91, 06 R145, 07 R170),
guards (04 R81, R82), and the memory operand of a single access with its tests in their order
(06 R153, 07 R162 to R167, R176, 20 R395 to R397).
-/
namespace Sys2Proof.Machine
open Sys2Proof

/-! C words. -/

/-- The guard admits the word (04 R81): gd = 0 is unguarded. -/
def guardOn (g : Guard) (rd : Nat → W64) : Bool :=
  g.gd == 0 || ((rd g.gd.toNat).getLsbD g.gb.toNat == (g.gs == 1))

/-- A C word: a false guard takes the word's place and does nothing else (04 R81, R82). -/
def cWord (g : Guard) (body : State → Except Stop State) (s : State) : State :=
  if guardOn g s.cg then s.finish .c (body s) else s.advance .c

/-- The queue that a register field names. -/
def qName (q : BitVec 1) (r : BitVec 5) : List Nat := if q == 1 then [r.toNat % 8] else []
/-- The queue sources of a CR word, each once (02 R41, 06 R145). -/
def CrQ (f : CrF) (useA useB : Bool) : List Nat :=
  let a := if useA then qName f.qa f.ra else []
  let b := if useB then qName f.qb f.rb else []
  if a = b then a else a ++ b

/-- No entry at the head of a source queue is poisoned: POISON of a queue operand ranks before the form's own causes (07 R190, 15 R332). -/
def State.cClean (s : State) (src : List Nat) : Except Stop Unit :=
  tests (src.map fun n => (!((s.me.qHead n s.now).map (·.psn)).getD false, tr .poison))
/-- The source queues of a word hold entries: one that is there and poisoned traps before another is waited for. -/
def State.cSources (s : State) (src : List Nat) : Except Stop Unit := do
  s.cClean src
  tests (src.map fun n => ((s.me.qHead n s.now).isSome, .wait (.queue n)))
/-- The destination queues of a word have room: the last of its tests, since stall causes rank last (15 R332). -/
def State.cRoom (s : State) (dst : List Nat) : Except Stop Unit := tests (dst.map fun n => (s.me.qFree n s.now, .wait (.queue n)))
/-- A C word finds its queues ready: each that it pops holds an entry, and each that it pushes has room (06 R129). -/
def State.cReady (s : State) (src dst : List Nat) : Except Stop Unit := do
  s.cSources src
  s.cRoom dst

/-- src(f) of a C word (06 R145). -/
def State.cSrc (s : State) (q : BitVec 1) (r : BitVec 5) : W64 :=
  if q == 1 then ((s.me.qHead (r.toNat % 8) s.now).map (·.val)).getD 0 else s.cg r.toNat
/-- dst(f) := x of a C word: a register, or a push that can be popped from the second cycle on (06 R134, R145). -/
def State.cDst (s : State) (q : BitVec 1) (r : BitVec 5) (x : W64) : State :=
  if q == 1 then s.setMe (s.me.qPush (r.toNat % 8) { val := x, rdy := s.now + 2 }) else s.setCg r.toNat x
/-- Pops the queue sources of a word, unless it peeks (06 R133). -/
def State.cPop (s : State) (pk : BitVec 1) (src : List Nat) : State :=
  if pk == 1 then s else s.setMe (src.foldl (fun c n => c.qPop n s.now) s.me)

/-- A CR word with a destination and sources: its sources, then a value of them, then room at its destination, the pops, the
destination and the next word. `op` may stop the word: its causes rank before the wait for room (15 R332). -/
def State.crForm (s : State) (f : CrF) (useA useB useD : Bool) (op : W64 → W64 → Except Stop (W64 × State)) : Except Stop State := do
  let qs := CrQ f useA useB
  s.cSources qs
  let (x, s1) ← op (s.cSrc f.qa f.ra) (s.cSrc f.qb f.rb)
  s.cRoom (if useD then qName f.qd f.rd else [])
  let s2 := s1.cPop f.pk qs
  .ok ((if useD then s2.cDst f.qd f.rd x else s2).advance .c)

/-! A words. -/

def Core.areg (c : Core) (code : Nat) : W64 :=
  if code < 16 then tget 0 c.a.a code else regGet c.a.g (code - 16)
def Core.setAreg (c : Core) (code : Nat) (x : W64) : Core :=
  if code < 16 then { c with a := { c.a with a := tset 0 c.a.a code x } }
  else { c with a := { c.a with g := regSet c.a.g (code - 16) x } }

/-- The queue of a source code (Table 4.11): q2, q3; wq2, wq3 by their numbers 10 and 11. -/
def aSrcQ (code : Nat) : List Nat := if code = 24 then [2] else if code = 25 then [3] else []
/-- The queue of a destination code: q0, q1, q6. -/
def aDstQ (code : Nat) : List Nat := if code = 24 then [0] else if code = 25 then [1] else if code = 26 then [6] else []

/-- The A stream is on a run-ahead path (07 R174). -/
def Core.onPath (c : Core) : Bool := !c.a.ckpts.isEmpty

/-- An A word finds its queues ready, as a C word does (15 R332). -/
def State.aReady (s : State) (src dst : List Nat) : Except Stop Unit := s.cReady src dst
def State.aSrc (s : State) (code : BitVec 5) : W64 :=
  match aSrcQ code.toNat with
  | n :: _ => ((s.me.qHead n s.now).map (·.val)).getD 0
  | [] => s.me.areg code.toNat
/-- A destination of the A stream; a push on a run-ahead path is held under its generation (07 R174). -/
def State.aDst (s : State) (code : BitVec 5) (x : W64) (psn : Bool := false) : State :=
  match aDstQ code.toNat with
  | n :: _ => s.setMe (s.me.qPush n { val := x, psn := psn, gen := s.me.a.gen, held := s.me.onPath, rdy := s.now + 2 })
  | [] => s.setMe (s.me.setAreg code.toNat x)
def State.aPop (s : State) (pk : BitVec 1) (src : List Nat) : State :=
  if pk == 1 then s else s.setMe (src.foldl (fun c n => c.qPop n s.now) s.me)

/-- The words that a run-ahead path admits are issued; every other waits until the path is confirmed, and so does a word
that would trap (07 R174). -/
def aWord (onPath : Bool) (body : State → Except Stop State) (s : State) : State :=
  if s.me.onPath then
    if onPath then
      match body s with
      | .error (.trap _) => s.noteWait .a .free
      | r => s.finish .a r
    else s.noteWait .a .free
  else s.finish .a (body s)

/-- An A word with a destination ad and scalar sources. -/
def State.arForm (s : State) (pk : BitVec 1) (ad : BitVec 5) (src : List (BitVec 5)) (useD : Bool)
    (op : State → Except Stop (W64 × State)) : Except Stop State := do
  let qs := (src.map (fun r => aSrcQ r.toNat)).foldl (fun l q => if l = q then l else l ++ q) []
  s.cSources qs
  let (x, s1) ← op s
  s.cRoom (if useD then aDstQ ad.toNat else [])
  let s2 := s1.aPop pk qs
  .ok ((if useD then s2.aDst ad x else s2).advance .a)

/-! Memory operands. -/

/-- What an address names: bits at a local home (the own aperture with its offset, or a memory slice or port), or bits of
another core through window `win`, with the runs of aperture offsets that its pages give them (07 R167, 20 R395). -/
inductive Target where
  | own (off : Nat) (ps : Pieces)
  | mem (ps : Pieces)
  | peer (win pkg n off : Nat) (rs : Pieces)
deriving DecidableEq, Repr, Inhabited

/-- A piece joins the runs before it where it goes on from them. -/
def joinRun (p : Nat × Nat) : Pieces → Pieces
  | [] => [p]
  | q :: l => if p.1 + p.2 = q.1 then (p.1, p.2 + q.2) :: l else p :: q :: l
/-- The runs of aperture offsets of an access to an aperture. -/
def apRuns (ps : Pieces) : Pieces := ps.foldr (fun p l => joinRun (p.1 % 2 ^ 30, p.2) l) []

/-- Translates every piece of an access into physical pieces, and says whether a piece lies in a swizzled page. -/
def State.pieces (s : State) (ck : Nat) (cl : Waiter) (p : Perm) (ea n : Nat) : Except Stop (Pieces × Bool) := do
  let l ← s.xlateAll ck cl p (cuts ea n)
  .ok (l.map (fun e => (e.1, e.2.1)), l.any (·.2.2))

/-- A physical address lies in the aperture of core `c`, in some aperture, in bonded DRAM. -/
def onAp (c pa : Nat) : Bool := match place pa with | .ap n _ => n == c | _ => false
def isAp (pa : Nat) : Bool := match place pa with | .ap _ _ => true | _ => false
def isDram (pa : Nat) : Bool := match place pa with | .dram _ _ => true | _ => false

/-- Translation and window tests of an access (07 R162, 20 R395, R397): WINDOW_FAULT before LDST_SCOPE. `any` admits
windows; without it a window address is out of scope. Host, CXL and device addresses refuse an add (20 R411) (DEDUCED, log entry 61). -/
def State.target (s : State) (ck : Nat) (cl : Waiter) (p : Perm) (windows : Bool) (ea n : Nat) : Except Stop (Target × Bool) := do
  if winVa ≤ ea ∧ ea < winVaEnd then
    let w := (ea - winVa) / 2 ^ 30
    need (windows && w < 16) (trAt .ldstScope ea)
    let x := tget {} (s.coreAt ck).fab.win w
    let o := (ea - winVa) % 2 ^ 30
    need (x.v && o + n ≤ 128 * (x.extm1 + 1)) (trAt .windowFault ea)
    .ok (.peer w x.pkg x.core (128 * x.tb + o) [(128 * x.tb + o, n)], false)
  else
    let (ps, sw) ← s.pieces ck cl p ea n
    match ps with
    | [] => .ok (.mem [], sw)
    | (pa, _) :: _ =>
      match place pa with
      | .ap c o => do
        need (ps.all fun q => onAp c q.1) (trAt .ldstScope ea)
        if c = numOf ck then .ok (.own o ps, sw)
        else do
          need windows (trAt .ldstScope ea)
          .ok (.peer 16 (pkgOf ck) c o (apRuns ps), sw)
      | _ => do
        need (p != .add || ps.all fun q => isDram q.1) (trAt .atomicFault ea)
        need (ps.all fun q => !isAp q.1) (trAt .ldstScope ea)
        .ok (.mem ps, sw)

/-- 07 R165: the class rule of an element at an offset or address: natural classes lie at a multiple of the width within
a granule, triple classes at a multiple of the width within a 384-bit span. -/
def classOk (w a : Nat) : Bool :=
  a % w == 0 && (if w = 3 ∨ w = 6 ∨ w = 12 ∨ w = 24 ∨ w = 48 then a % 384 + w ≤ 384 else a % 128 + w ≤ 128)

/-- A piece lies in one part of an aperture. -/
def offIn (part : ApPart) (p : Nat × Nat) : Bool := match place p.1 with | .ap _ o => inPart part o p.2 | _ => false

/-- LDST_SCOPE and MISALIGN of an element of width w (07 R162, R163, R165, R167). -/
def elemPlace (t : Target) (sw : Bool) (ea w : Nat) : Except Stop Unit := do
  match t with
  | .own o ps =>
    need (ps.all (offIn .scratch) || ps.all (offIn .acc)) (trAt .ldstScope ea)
    need (classOk w o && !(sw && o % 128 + w > 128)) (trAt .misalign ea)
  | .mem _ => need (classOk w ea && !(sw && ea % 128 + w > 128)) (trAt .misalign ea)
  | .peer _ _ _ o rs =>
    need ((rs.all fun r => inPart .scratch r.1 r.2) || (rs.all fun r => inPart .acc r.1 r.2)) (trAt .ldstScope ea)
    need (classOk w o && !(sw && o % 128 + w > 128)) (trAt .misalign ea)

/-- Local pieces of a target. -/
def Target.local : Target → Pieces
  | .own _ ps => ps
  | .mem ps => ps
  | .peer .. => []

/-- The address of the memory operand of an A word: base plus displacement in bits, modulo 2^64 (07 R169, R176). -/
def State.aEa (s : State) (f : AiF) : Nat := (itrunc ((s.me.areg f.aa.toNat).toNat + f.d) 64)
/-- The address of `ld` and `st`: base plus displacement in elements (06 R153). -/
def State.cEa (s : State) (f : CiF) : Nat := itrunc ((s.cg f.ra.toNat).toNat + f.d * (widthOf f.wc : Int)) 64

/-- A run of physical bits that an access may touch, and how it gets there: by window 0 to 15, by window 16 in another core's aperture,
or at once or by an acknowledged write (17). -/
structure Reach where
  win : Nat
  pkg : Nat
  lo  : Nat
  hi  : Nat
deriving DecidableEq, Repr, Inhabited
def Reach.meets (p q : Reach) : Bool := p.pkg == q.pkg && p.lo < q.hi && q.lo < p.hi
/-- The parts of a virtual range that windows 0 to 15 name; a range without a bound may name any bit of a window. -/
def State.winReach (s : State) (ck : Nat) (r : Nat × Nat) : List Reach :=
  (List.range 16).filterMap fun w =>
    let x : Window := tget {} (s.coreAt ck).fab.win w
    let b := winVa + w * 2 ^ 30
    let lo := if unbounded ≤ r.2 then b else max r.1 b
    let hi := if unbounded ≤ r.2 then b + 128 * (x.extm1 + 1) else min (r.1 + r.2) (b + 2 ^ 30)
    if x.v && lo < hi then some { win := w, pkg := x.pkg, lo := apAddr x.core (128 * x.tb + (lo - b)), hi := apAddr x.core (128 * x.tb + (hi - b)) }
    else none
/-- The physical bits that a virtual range may touch, under whatever name. -/
def State.reach (s : State) (ck : Nat) (cl : Waiter) (r : Nat × Nat) : List Reach :=
  s.winReach ck r ++
  (if unbounded ≤ r.2 then [{ win := 17, pkg := pkgOf ck, lo := 0, hi := 2 ^ 62 }, { win := 16, pkg := pkgOf ck, lo := apBase, hi := devBase }]
   else (s.spans ck cl r).map fun p =>
    { win := if isAp p.1 && !onAp (numOf ck) p.1 then 16 else 17, pkg := pkgOf ck, lo := p.1, hi := p.2 })

/-- A piece lies in one part of the aperture of core n. -/
def pieceIn (n : Nat) (part : ApPart) (p : Nat × Nat) : Bool :=
  match place p.1 with
  | .ap c o => c == n && inPart part o p.2
  | _ => false

/-- An access of the own scratchpad (06 R153, 08 R221): translation, LDST_SCOPE, MISALIGN on the offset, ROLE_FAULT. -/
def State.scratch (s : State) (cl : Waiter) (p : Perm) (a : Acc) (ea n align : Nat) : Except Stop (Nat × Pieces) := do
  let (t, sw) ← s.target s.cur cl p false ea n
  match t with
  | .own o ps =>
    need (ps.all (pieceIn (numOf s.cur) .scratch)) (trAt .ldstScope ea)
    need (o % align == 0 && !(sw && n ≤ 128 && o % 128 + n > 128)) (trAt .misalign ea)
    need (s.rolePieces s.cur s.job s.myPkg ps a) (trAt .roleFault ea)
    .ok (o, ps)
  | _ => .error (trAt .ldstScope ea)

/-- The upper half of an M word. -/
def mHead : Instr → Option MHead
  | .mbase f | .mrow f | .mseed f | .mternSeed f | .mternCim f | .mternTile f | .mcimldMem f | .mcimldBasis f | .mfp f
  | .maccz f | .maccrd f | .maccwr f | .mtest f | .mloop f | .msem f | .mdrain f | .mdrainRdv f => some f.h
  | .mchk f | .mscan f => some f.h
  | _ => none

end Sys2Proof.Machine
end

