-- ==== Sys2Proof/Machine/CArith.lean ====
section
/-!
DEFINITION. The C stream's integer, bit and address words (06 R146 to R151).
-/
namespace Sys2Proof.Machine
open Sys2Proof

abbrev Out := Host.Outcome State Fault Refusal

/-- A CR word of two sources and a destination, with the flags of its result. -/
def crAlu (f : CrF) (op : W64 → W64 → W64) (fl : W64 → W64 → Fl) (s : State) : State :=
  cWord f.g (fun s => s.crForm f true true true (fun a b => .ok (op a b, s.orFlags .c (fl a b)))) s
/-- A CR word of one source and a destination. -/
def crUn (f : CrF) (op : W64 → W64) (s : State) : State :=
  cWord f.g (fun s => s.crForm f true false true (fun a _ => .ok (op a, s))) s
/-- A CI word: rd receives a function of ra. -/
def ciAlu (f : CiF) (op : W64 → W64) (s : State) : State :=
  cWord f.g (fun s => .ok ((s.setCg f.rd.toNat (op (s.cg f.ra.toNat))).advance .c)) s

/-- 1 where a condition holds, else 0. -/
def bit1 (b : Bool) : W64 := if b then 1 else 0
/-- The high 64 bits of a product (06 Table 6.7). -/
def mulHiS (a b : W64) : W64 := ((a.signExtend 128) * (b.signExtend 128)).extractLsb' 64 64
def mulHiU (a b : W64) : W64 := ((a.zeroExtend 128) * (b.zeroExtend 128)).extractLsb' 64 64
/-- 06 R147. -/
def divS (a b : W64) : W64 :=
  if b = 0 then BitVec.allOnes 64
  else if a.toInt = -(2 ^ 63 : Int) ∧ b.toInt = -1 then a
  else BitVec.ofInt 64 (a.toInt.tdiv b.toInt)
def divU (a b : W64) : W64 := if b = 0 then BitVec.allOnes 64 else BitVec.ofNat 64 (a.toNat / b.toNat)
def remS (a b : W64) : W64 :=
  if b = 0 then a
  else if a.toInt = -(2 ^ 63 : Int) ∧ b.toInt = -1 then 0
  else BitVec.ofInt 64 (a.toInt - b.toInt * (a.toInt.tdiv b.toInt))
def remU (a b : W64) : W64 := if b = 0 then a else BitVec.ofNat 64 (a.toNat - b.toNat * (a.toNat / b.toNat))
/-- Shifts by the low six bits of the count (06 R146). -/
def shl64 (a : W64) (n : Nat) : W64 := a <<< (n % 64)
def shr64 (a : W64) (n : Nat) : W64 := a >>> (n % 64)
def sar64 (a : W64) (n : Nat) : W64 := a.sshiftRight (n % 64)
/-- The number of leading zeros among the low `n` bits from the top, trailing zeros, and ones (06 R149). -/
def clzN (a : W64) : Nat → Nat
  | 0 => 0
  | n + 1 => if a.getLsbD n then 0 else clzN a n + 1
def ctzN (a : W64) : Nat → Nat → Nat
  | 0, _ => 0
  | f + 1, i => if a.getLsbD i then 0 else ctzN a f (i + 1) + 1
def popN (a : W64) : Nat → Nat
  | 0 => 0
  | n + 1 => (if a.getLsbD n then 1 else 0) + popN a n
/-- 06 R150: the field of `len` bits at `pos`. -/
def bextV (a : W64) (pos len : Nat) : W64 := BitVec.ofNat 64 (nbits a.toNat pos len)
def binsV (d a : W64) (pos len : Nat) : W64 :=
  let m : W64 := BitVec.ofNat 64 ((2 ^ len - 1) * 2 ^ pos)
  (d &&& ~~~m) ||| (BitVec.ofNat 64 (a.toNat % 2 ^ len * 2 ^ pos))
/-- 06 R151: rounding up to a multiple, modulo 2^64. -/
def alnupV (a : W64) (m : Nat) : W64 := BitVec.ofNat 64 ((a.toNat + m - 1) / m * m)
/-- The multiple that `alnup` rounds to. -/
def alnupM (wc : Nat) (bd : BitVec 1) : Nat := if bd = 0 then widthOf wc else if tripleCode wc then 384 else 128
/-- 06 R148: the 16-bit piece h of a value replaced. -/
def limhV (a : W64) (v : BitVec 16) (h : Nat) : W64 := binsV a (v.zeroExtend 64) (16 * h) 16

/-- `add`: ua + ub (06 R146) -/
def execAdd (f : CrF) (s : State) : Out := .next (crAlu f (fun a b => a + b) (fun _ _ => 0) s)

/-- `sub`: ua − ub -/
def execSub (f : CrF) (s : State) : Out := .next (crAlu f (fun a b => a - b) (fun _ _ => 0) s)

/-- `mul`: the low 64 bits of the product -/
def execMul (f : CrF) (s : State) : Out := .next (crAlu f (fun a b => a * b) (fun _ _ => 0) s)

/-- `mulh` -/
def execMulh (f : CrF) (s : State) : Out := .next (crAlu f (fun a b => mulHiS a b) (fun _ _ => 0) s)

/-- `mulhn` -/
def execMulhn (f : CrF) (s : State) : Out := .next (crAlu f (fun a b => mulHiU a b) (fun _ _ => 0) s)

/-- `div` (06 R147) -/
def execDiv (f : CrF) (s : State) : Out := .next (crAlu f (fun a b => divS a b) divFlags s)

/-- `divn` (06 R147) -/
def execDivn (f : CrF) (s : State) : Out := .next (crAlu f (fun a b => divU a b) (fun _ b => divnFlags b) s)

/-- `rem` (06 R147) -/
def execRem (f : CrF) (s : State) : Out := .next (crAlu f (fun a b => remS a b) (fun _ b => divnFlags b) s)

/-- `remn` (06 R147) -/
def execRemn (f : CrF) (s : State) : Out := .next (crAlu f (fun a b => remU a b) (fun _ b => divnFlags b) s)

/-- `and` (06 R146) -/
def execAnd (f : CrF) (s : State) : Out := .next (crAlu f (fun a b => a &&& b) (fun _ _ => 0) s)

/-- `or` (06 R146) -/
def execOr (f : CrF) (s : State) : Out := .next (crAlu f (fun a b => a ||| b) (fun _ _ => 0) s)

/-- `xor` (06 R146) -/
def execXor (f : CrF) (s : State) : Out := .next (crAlu f (fun a b => a ^^^ b) (fun _ _ => 0) s)

/-- `andn` (06 R146) -/
def execAndn (f : CrF) (s : State) : Out := .next (crAlu f (fun a b => a &&& ~~~b) (fun _ _ => 0) s)

/-- `sll` (06 R146) -/
def execSll (f : CrF) (s : State) : Out := .next (crAlu f (fun a b => shl64 a b.toNat) (fun _ _ => 0) s)

/-- `srl` (06 R146) -/
def execSrl (f : CrF) (s : State) : Out := .next (crAlu f (fun a b => shr64 a b.toNat) (fun _ _ => 0) s)

/-- `sra` (06 R146) -/
def execSra (f : CrF) (s : State) : Out := .next (crAlu f (fun a b => sar64 a b.toNat) (fun _ _ => 0) s)

/-- `min` (06 R146) -/
def execMin (f : CrF) (s : State) : Out := .next (crAlu f (fun a b => if a.slt b then a else b) (fun _ _ => 0) s)

/-- `max` (06 R146) -/
def execMax (f : CrF) (s : State) : Out := .next (crAlu f (fun a b => if a.slt b then b else a) (fun _ _ => 0) s)

/-- `minn` (06 R146) -/
def execMinn (f : CrF) (s : State) : Out := .next (crAlu f (fun a b => if a.ult b then a else b) (fun _ _ => 0) s)

/-- `maxn` (06 R146) -/
def execMaxn (f : CrF) (s : State) : Out := .next (crAlu f (fun a b => if a.ult b then b else a) (fun _ _ => 0) s)

/-- `cmpeq` (06 R146) -/
def execCmpeq (f : CrF) (s : State) : Out := .next (crAlu f (fun a b => bit1 (a == b)) (fun _ _ => 0) s)

/-- `cmplt` (06 R146) -/
def execCmplt (f : CrF) (s : State) : Out := .next (crAlu f (fun a b => bit1 (a.slt b)) (fun _ _ => 0) s)

/-- `cmpltn` (06 R146) -/
def execCmpltn (f : CrF) (s : State) : Out := .next (crAlu f (fun a b => bit1 (a.ult b)) (fun _ _ => 0) s)

/-- `cmple` (06 R146) -/
def execCmple (f : CrF) (s : State) : Out := .next (crAlu f (fun a b => bit1 (a.sle b)) (fun _ _ => 0) s)

/-- `cmplen` (06 R146) -/
def execCmplen (f : CrF) (s : State) : Out := .next (crAlu f (fun a b => bit1 (a.ule b)) (fun _ _ => 0) s)

/-- `addi` (06 R148) -/
def execAddi (f : CiF) (s : State) : Out := .next (ciAlu f (fun a => a + f.si) s)

/-- `andi` (06 R148) -/
def execAndi (f : CiF) (s : State) : Out := .next (ciAlu f (fun a => a &&& f.si) s)

/-- `ori` (06 R148) -/
def execOri (f : CiF) (s : State) : Out := .next (ciAlu f (fun a => a ||| f.si) s)

/-- `xori` (06 R148) -/
def execXori (f : CiF) (s : State) : Out := .next (ciAlu f (fun a => a ^^^ f.si) s)

/-- `slli` (06 R148) -/
def execSlli (f : CiF) (s : State) : Out := .next (ciAlu f (fun a => shl64 a f.sh) s)

/-- `srli` (06 R148) -/
def execSrli (f : CiF) (s : State) : Out := .next (ciAlu f (fun a => shr64 a f.sh) s)

/-- `srai` (06 R148) -/
def execSrai (f : CiF) (s : State) : Out := .next (ciAlu f (fun a => sar64 a f.sh) s)

/-- `cmpeqi` (06 R148) -/
def execCmpeqi (f : CiF) (s : State) : Out := .next (ciAlu f (fun a => bit1 (a == f.si)) s)

/-- `cmplti` (06 R148) -/
def execCmplti (f : CiF) (s : State) : Out := .next (ciAlu f (fun a => bit1 (a.slt f.si)) s)

/-- `lim` (06 R148) -/
def execLim (f : CiF) (s : State) : Out := .next (ciAlu f (fun _ => f.si) s)

/-- `limh` (06 R148) -/
def execLimh (f : CiF) (s : State) : Out := .next (ciAlu f (fun a => limhV a (f.imm.extractLsb' 0 16) (f.imm.extractLsb' 16 2).toNat) s)

/-- `clz` (06 R149) -/
def execClz (f : CrF) (s : State) : Out := .next (crUn f (fun a => BitVec.ofNat 64 (clzN a 64)) s)

/-- `ctz` (06 R149) -/
def execCtz (f : CrF) (s : State) : Out := .next (crUn f (fun a => BitVec.ofNat 64 (ctzN a 64 0)) s)

/-- `popc` (06 R149) -/
def execPopc (f : CrF) (s : State) : Out := .next (crUn f (fun a => BitVec.ofNat 64 (popN a 64)) s)

/-- `bext` (06 R150) -/
def execBext (f : CiF) (s : State) : Out := .next (ciAlu f (fun a => bextV a f.sh (f.ln + 1)) s)

/-- `bins`: rd is also a source (06 R150) -/
def execBins (f : CiF) (s : State) : Out := .next (cWord f.g (fun s => .ok ((s.setCg f.rd.toNat (binsV (s.cg f.rd.toNat) (s.cg f.ra.toNat) f.sh (f.ln + 1))).advance .c)) s)

/-- `bset` (06 R150) -/
def execBset (f : CiF) (s : State) : Out := .next (ciAlu f (fun a => a ||| BitVec.ofNat 64 (2 ^ f.sh)) s)

/-- `bclr` (06 R150) -/
def execBclr (f : CiF) (s : State) : Out := .next (ciAlu f (fun a => a &&& ~~~(BitVec.ofNat 64 (2 ^ f.sh))) s)

/-- `addx`: ua + sb·w modulo 2^64 (06 R151) -/
def execAddx (f : CrF) (s : State) : Out := .next (crAlu f (fun a b => a + b * BitVec.ofNat 64 (widthOf f.wc)) (fun _ _ => 0) s)

/-- `xidx` (06 R151) -/
def execXidx (f : CrF) (s : State) : Out := .next (crUn f (fun a => BitVec.ofNat 64 (a.toNat / widthOf f.wc)) s)

/-- `alnup` (06 R151) -/
def execAlnup (f : CrF) (s : State) : Out := .next (crUn f (fun a => alnupV a (alnupM f.wc f.bd)) s)

end Sys2Proof.Machine
end

