-- ==== Sys2Proof/Machine/CFlow.lean ====
section
/-!
DEFINITION. The C stream's branches, loads and stores, rendezvous and traps by word (06 R141 to R157, 15 R340, 11 R274).
-/
namespace Sys2Proof.Machine
open Sys2Proof

/-- The target of a branch by a count of words (06 R144, 07 R171, 08 R224). -/
def State.target_ (s : State) (st : Str) (off : Int) : W64 :=
  (s.ctl st).pc + BitVec.ofInt 64 (off * (st.wordBits : Int))
/-- The address of the next word. -/
def State.link (s : State) (st : Str) : W64 := (s.ctl st).pc + BitVec.ofNat 64 st.wordBits

/-- `br` (06 R144). -/
def execBr (f : CbF) (s : State) : Out := .next (cWord f.g (fun s => .ok (s.jump .c (s.target_ .c f.off.toInt))) s)
/-- `brl`: the link goes to g[ra] (06 R144). -/
def execBrl (f : CbF) (s : State) : Out :=
  .next (cWord f.g (fun s => .ok ((s.setCg f.ra.toNat (s.link .c)).jump .c (s.target_ .c f.off.toInt))) s)
/-- `bdec` (06 R144). -/
def execBdec (f : CbF) (s : State) : Out :=
  .next (cWord f.g (fun s =>
    let v := s.cg f.ra.toNat - 1
    .ok ((s.setCg f.ra.toNat v).jump .c (if v ≠ 0 then s.target_ .c f.off.toInt else s.link .c))) s)
/-- `jr` (06 R144): FETCH_ALIGN where the target is no multiple of 48. -/
def execJr (f : CrF) (s : State) : Out :=
  .next (cWord f.g (fun s => do
    let qs := CrQ f true false
    s.cSources qs
    let t := s.cSrc f.qa f.ra
    need (t.toNat % 48 == 0) (trAt .fetchAlign t.toNat)
    .ok ((s.cPop f.pk qs).jump .c t)) s)
/-- `jrl` (06 R144): as `jr`, and dst(rd) receives the link. -/
def execJrl (f : CrF) (s : State) : Out :=
  .next (cWord f.g (fun s => do
    let qs := CrQ f true false
    s.cSources qs
    let t := s.cSrc f.qa f.ra
    need (t.toNat % 48 == 0) (trAt .fetchAlign t.toNat)
    s.cRoom (qName f.qd f.rd)
    .ok (((s.cPop f.pk qs).cDst f.qd f.rd (s.link .c)).jump .c t)) s)

/-- The value of a load: the bits, sign- or zero-extended (06 R153, 07 R176). -/
def extend (sx : Bool) (w v : Nat) : W64 := if sx then BitVec.ofInt 64 (nsext v w) else BitVec.ofNat 64 v

/-- The pages that an access of a stream lies in, used by it. -/
def State.usePages (s : State) (st : Str) (ea n : Nat) : State :=
  (cuts ea n).foldl (fun t p => t.useTlb s.cur (.stream st) p.1) s

/-- `ld` (06 R153). -/
def execLd (f : CiF) (s : State) : Out :=
  .next (cWord f.g (fun s => do
    let w := widthOf f.wc
    let ea := s.cEa f
    let (_, ps) ← s.scratch (.stream .c) .r .rd ea w w
    need (!s.psnPieces s.myPkg ps) (trAt .poison ea)
    .ok (((s.usePages .c ea w).setCg f.rd.toNat (extend (f.sx == 1) w (s.rdPieces s.myPkg ps))).advance .c)) s)
/-- `st` (06 R153): the store sets the full/empty bit of every granule it touches. -/
def execSt (f : CiF) (s : State) : Out :=
  .next (cWord f.g (fun s => do
    let w := widthOf f.wc
    let ea := s.cEa f
    let (_, ps) ← s.scratch (.stream .c) .w .wr ea w w
    .ok (((s.usePages .c ea w).wrPieces s.myPkg ps ((s.cg f.rd.toNat).toNat % 2 ^ w) false).advance .c)) s)

/-- A rendezvous word of a stream (06 R142): id 0 ends the stream; another id makes it wait at the word. -/
def State.rendezvous (s : State) (st : Str) (id : BitVec 5) : State :=
  let x := s.ctl st
  if id = 0 then s.setCtl st { x with ended := true, wait := none, rdv := none }
  else if x.rdv.isSome then s.noteWait st .rdv
  else (s.setCtl st { x with rdv := some id, rdvAt := s.now }).noteWait st .rdv
/-- `rdv` (06 R141, R142). -/
def execRdv (f : CsF) (s : State) : Out := .next (cWord f.g (fun s => .ok (s.rendezvous .c f.sub)) s)

/-- `nop` (15 R340). -/
def execNop (f : CsF) (s : State) : Out := .next (cWord f.g (fun s => .ok (s.advance .c)) s)
/-- `trap` (15 R340). -/
def execTrap (f : CsF) (s : State) : Out :=
  .next (cWord f.g (fun _ => .error (.trap { cause := .trap, info := (f.sys.extractLsb' 0 16).zeroExtend 64 })) s)
/-- `mcancel` (11 R274): it acts at the end of the second cycle after its issue. -/
def execMcancel (f : CsF) (s : State) : Out :=
  .next (cWord f.g (fun s =>
    let c := s.me
    let g : Option (BitVec 4) := if f.sys.getLsbD 4 then none else some (f.sys.extractLsb' 0 4)
    .ok ((s.setMe { c with m := { c.m with cancels := c.m.cancels ++ [(s.now + 2, g)] } }).advance .c)) s)

end Sys2Proof.Machine
end

