-- ==== Sys2Proof/Machine/Num.lean ====
section
/-!
DEFINITION. Number formats and exact arithmetic (05): values, reading and rounding in every format, exact sums and
products, the functions rounded correctly, accumulator lanes, scales, and the orders of sums.
Rounding modes are numbered as Table 4.3: 0 rne, 1 rna, 2 rz, 3 rdn, 4 rup.
-/
namespace Sys2Proof.Machine
open Sys2Proof

/-- A real value with its sign, or an infinity, or NaN. `fin neg m e st` has the magnitude m * 2^e, or, when `st` holds,
lies strictly between m * 2^e and (m + 1) * 2^e: a quotient or root cut off below any rounding position. -/
inductive Val where
  | nan
  | inf (neg : Bool)
  | fin (neg : Bool) (m : Nat) (e : Int) (st : Bool)
deriving DecidableEq, Repr, Inhabited

def Val.zero : Val := .fin false 0 0 false
def Val.ofInt (x : Int) : Val := .fin (x < 0) x.natAbs 0 false
def Val.neg : Val → Val
  | .nan => .nan | .inf s => .inf !s | .fin s m e st => .fin (!s) m e st
def Val.abs : Val → Val
  | .nan => .nan | .inf _ => .inf false | .fin _ m e st => .fin false m e st
def Val.isNan : Val → Bool
  | .nan => true | _ => false
def Val.isZero : Val → Bool
  | .fin _ 0 _ false => true | _ => false
/-- x * 2^k; an exponent beyond every format is cut to one that still is. -/
def Val.scale (x : Val) (k : Int) : Val :=
  match x with
  | .fin s m e st => .fin s m (e + (if k < -40000 then -40000 else if 40000 < k then 40000 else k)) st
  | v => v

/-- Whether a truncated magnitude is increased (R8): `odd`, above half, at half, inexact. -/
def roundsUp (md : Nat) (neg odd gt eq inexact : Bool) : Bool :=
  match md with
  | 0 => gt || (eq && odd)
  | 1 => gt || eq
  | 2 => false
  | 3 => inexact && neg
  | _ => inexact && !neg

/-- The magnitude in units of 2^u, rounded by mode, and whether that was inexact. -/
def roundAt (md : Nat) (neg : Bool) (m : Nat) (e : Int) (st : Bool) (u : Int) : Nat × Bool :=
  if u ≤ e then
    let q := m * 2 ^ (e - u).toNat
    (q + (if roundsUp md neg (q % 2 == 1) false false st then 1 else 0), st)
  else
    let k := (u - e).toNat
    let q := m / 2 ^ k
    let r := m % 2 ^ k
    let h := 2 ^ (k - 1)
    let ix := r != 0 || st
    (q + (if roundsUp md neg (q % 2 == 1) (h < r || (r == h && st)) (r == h && !st) ix then 1 else 0), ix)

/-- A floating format (R111, Table 5.3, R118): exponent and fraction bits, bias, and what the highest exponent means:
0 normal values only, 1 as FP8A, 2 infinities and NaN. -/
structure FFmt where
  e : Nat
  m : Nat
  bias : Int
  kind : Nat
deriving DecidableEq, Repr, Inhabited

def fa40 : FFmt := ⟨8, 31, 127, 2⟩
def fa80 : FFmt := ⟨11, 68, 1023, 2⟩
def fp32 : FFmt := ⟨8, 23, 127, 2⟩
def fp64 : FFmt := ⟨11, 52, 1023, 2⟩
/-- The floating format of a tag (Tables 5.1 and 5.3). -/
def ffmt : Nat → FFmt
  | 9 => ⟨2, 1, 1, 0⟩ | 10 => ⟨3, 2, 3, 0⟩ | 11 => ⟨2, 3, 1, 0⟩ | 12 => ⟨4, 3, 7, 1⟩ | 13 => ⟨5, 2, 15, 2⟩
  | 14 => ⟨8, 7, 127, 2⟩ | 15 => ⟨5, 10, 15, 2⟩ | 16 => fp32 | _ => fp64

def FFmt.sign (F : FFmt) : Nat := 2 ^ (F.e + F.m)
def FFmt.infCode (F : FFmt) : Nat := (2 ^ F.e - 1) * 2 ^ F.m
/-- The code of the largest finite value. -/
def FFmt.maxCode (F : FFmt) : Nat :=
  match F.kind with
  | 0 => F.sign - 1 | 1 => F.sign - 2 | _ => F.infCode - 1
/-- The canonical NaN; a format without NaN has +0 for it (R112). -/
def FFmt.nanCode (F : FFmt) : Nat :=
  match F.kind with
  | 0 => 0 | 1 => F.sign - 1 | _ => F.infCode + 2 ^ (F.m - 1)

/-- The value of a code and the flag of a signalling NaN consumed (R111, R112). -/
def FFmt.read (F : FFmt) (c : Nat) : Val × Fl :=
  let neg := c / F.sign % 2 == 1
  let x := c / 2 ^ F.m % 2 ^ F.e
  let f := c % 2 ^ F.m
  if x = 2 ^ F.e - 1 ∧ F.kind = 2 then
    if f = 0 then (.inf neg, 0) else (.nan, flagIf (f < 2 ^ (F.m - 1)) fNV)
  else if c % F.sign = F.sign - 1 ∧ F.kind = 1 then (.nan, 0)
  else if x = 0 then (.fin neg f (1 - F.bias - F.m) false, 0)
  else (.fin neg (2 ^ F.m + f) (x - F.bias - F.m) false, 0)

/-- The code of the result of an overflow (R115). -/
def FFmt.overflow (F : FFmt) (md : Nat) (sat neg : Bool) : Nat × Fl :=
  let s := if neg then F.sign else 0
  let toInf := md == 0 || md == 1 || (md == 3 && neg) || (md == 4 && !neg)
  if sat || F.kind == 0 || !toInf then (s + F.maxCode, fOF ||| fNX)
  else if F.kind = 1 then (F.nanCode, fOF ||| fNX ||| fNV)
  else (s + F.infCode, fOF ||| fNX)

/-- round_m(x, F) of R8 with `.sat` (R112, R114 to R116): the code and the flags. -/
def FFmt.round (F : FFmt) (md : Nat) (sat : Bool) (x : Val) : Nat × Fl :=
  match x with
  | .nan => (F.nanCode, flagIf (F.kind == 0) fNV)
  | .inf neg =>
    let s := if neg then F.sign else 0
    if sat || F.kind == 0 then (s + F.maxCode, fOF)
    else if F.kind = 1 then (F.nanCode, fNV)
    else (s + F.infCode, 0)
  | .fin neg m e st =>
    let s := if neg then F.sign else 0
    if m = 0 ∧ !st then (s, 0) else
    let ev : Int := Nat.log2 m + e
    let emin : Int := 1 - F.bias
    let u0 := ev - F.m
    let lo := emin - F.m
    let u := if u0 < lo then lo else u0
    let (q, ix) := roundAt md neg m e st u
    let code := (u - lo).toNat * 2 ^ F.m + q
    let tiny := ev < emin - 1 || (ev == emin - 1 && (roundAt md neg m e st u0).1 < 2 ^ (F.m + 1))
    if F.maxCode < code then F.overflow md sat neg
    else (s + code, flagIf ix fNX ||| flagIf (ix && tiny) fUF)

/-- The two's complement code of width w of an integer. -/
def icode (w : Nat) (x : Int) : Nat := itrunc x w
/-- round_m(x, INTn) (R106): it saturates, and its flags. -/
def roundInt (md w : Nat) (x : Val) : Nat × Fl :=
  let hi : Int := (2 ^ (w - 1) : Nat) - 1
  let lo : Int := -((2 ^ (w - 1) : Nat) : Int)
  match x with
  | .nan => (0, fNV)
  | .inf neg => (icode w (if neg then lo else hi), fNV)
  | .fin neg m e st =>
    let (q, ix) := roundAt md neg m e st 0
    let v : Int := if neg then -(q : Int) else q
    if v < lo then (icode w lo, fOF ||| fNX) else if hi < v then (icode w hi, fOF ||| fNX)
    else (icode w v, flagIf ix fNX)
/-- A TRIT from a value (R107). -/
def roundTrit (x : Val) : Nat × Fl :=
  match x with
  | .nan => (0, fNV)
  | .inf neg => (if neg then 2 else 1, fNV)
  | .fin neg m e st =>
    let (q, ix) := roundAt 0 neg m e st 0
    if q = 0 then (0, flagIf ix fNX)
    else (if neg then 2 else 1, if 1 < q then fOF ||| fNX else flagIf ix fNX)

/-- The value of an element of a tagged format (R104, R106, R107, R112). -/
def readTag (t c : Nat) : Val × Fl :=
  if t = 1 then
    match c % 4 with
    | 0 => (.zero, 0) | 1 => (.fin false 1 0 false, 0) | 2 => (.fin true 1 0 false, 0) | _ => (.zero, fTI)
  else if t ≤ 8 then (.ofInt (nsext c (tagWidth t)), 0)
  else (ffmt t).read c
/-- round_m(x, D) for any tagged format: an integer or TRIT rounds by rne (R227). -/
def roundTag (t md : Nat) (sat : Bool) (x : Val) : Nat × Fl :=
  if t = 1 then roundTrit x
  else if t ≤ 8 then roundInt 0 (tagWidth t) x
  else (ffmt t).round md sat x
/-- The canonical NaN of a tagged format, or +0 (0) where it has none. -/
def nanTag (t : Nat) : Nat := if t ≤ 8 then 0 else (ffmt t).nanCode

/-! Exact arithmetic (R113, R114). -/

/-- Two magnitudes as signed integers over one exponent. -/
def alignInt (s : Bool) (m : Nat) (e u : Int) : Int :=
  let x : Int := (m * 2 ^ (e - u).toNat : Nat)
  if s then -x else x
def minE (a b : Int) : Int := if a ≤ b then a else b
/-- The exact sum; the mode decides the sign of an exact zero. -/
def Val.add (md : Nat) (x y : Val) : Val × Fl :=
  match x, y with
  | .nan, _ => (.nan, 0)
  | _, .nan => (.nan, 0)
  | .inf s, .inf t => if s = t then (.inf s, 0) else (.nan, fNV)
  | .inf s, _ => (.inf s, 0)
  | _, .inf t => (.inf t, 0)
  | .fin s m e st, .fin t n f st' =>
    let u := minE e f
    let z := alignInt s m e u + alignInt t n f u
    if z = 0 then
      if m = 0 ∧ s = t then (.fin s 0 0 false, 0) else (.fin (md == 3) 0 0 false, 0)
    else (.fin (z < 0) z.natAbs u (st || st'), 0)
/-- The exact product. -/
def Val.mul (x y : Val) : Val × Fl :=
  match x, y with
  | .nan, _ => (.nan, 0)
  | _, .nan => (.nan, 0)
  | .inf s, .inf t => (.inf (s != t), 0)
  | .inf s, .fin t n _ _ => if n = 0 then (.nan, fNV) else (.inf (s != t), 0)
  | .fin s m _ _, .inf t => if m = 0 then (.nan, fNV) else (.inf (s != t), 0)
  | .fin s m e st, .fin t n f st' => (.fin (s != t) (m * n) (e + f) (st || st'), 0)
/-- The quotient, exact or cut off 130 bits down. -/
def Val.div (x y : Val) : Val × Fl :=
  match x, y with
  | .nan, _ => (.nan, 0)
  | _, .nan => (.nan, 0)
  | .inf _, .inf _ => (.nan, fNV)
  | .inf s, .fin t _ _ _ => (.inf (s != t), 0)
  | .fin s _ _ _, .inf t => (.fin (s != t) 0 0 false, 0)
  | .fin s m e _, .fin t n f _ =>
    if n = 0 then (if m = 0 then (.nan, fNV) else (.inf (s != t), fDZ))
    else
      let k := Nat.log2 n + 130
      (.fin (s != t) (m * 2 ^ k / n) (e - f - k) (m * 2 ^ k % n != 0), 0)

/-- The integer square root: one bit at a time from bit i - 1. -/
def isqrtF (n : Nat) : Nat → Nat → Nat
  | 0, r => r
  | i + 1, r => isqrtF n i (if (r + 2 ^ i) * (r + 2 ^ i) ≤ n then r + 2 ^ i else r)
def isqrt (n : Nat) : Nat := isqrtF n (Nat.log2 n / 2 + 1) 0
/-- m * 2^e with an even exponent. -/
def evenE (m : Nat) (e : Int) : Nat × Int := if e % 2 = 0 then (m, e) else (2 * m, e - 1)
/-- The square root (Table 8.6), cut off at least 80 bits down. -/
def Val.sqrt (x : Val) : Val × Fl :=
  match x with
  | .nan => (.nan, 0)
  | .inf neg => if neg then (.nan, fNV) else (.inf false, 0)
  | .fin neg m e _ =>
    if m = 0 then (.fin neg 0 0 false, 0) else if neg then (.nan, fNV) else
    let (m', e') := evenE m e
    let n := m' * 2 ^ 160
    let r := isqrt n
    (.fin false r (e' / 2 - 80) (r * r != n), 0)
/-- The reciprocal of the square root (Table 8.6). -/
def Val.rsqrt (x : Val) : Val × Fl :=
  match x with
  | .nan => (.nan, 0)
  | .inf neg => if neg then (.nan, fNV) else (.zero, 0)
  | .fin neg m e _ =>
    if m = 0 then (.inf neg, fDZ) else if neg then (.nan, fNV) else
    let (m', e') := evenE m e
    let k := 80 + Nat.log2 m'
    let n := 2 ^ (2 * k) / m'
    let r := isqrt n
    (.fin false r (-(e' / 2) - k) (r * r != n || 2 ^ (2 * k) % m' != 0), 0)

/-- ln 2 in units of 2^-q, too low by less than q units. -/
def ln2F (q : Nat) : Nat → Nat → Nat
  | 0, _ => 0
  | f + 1, k => 2 ^ q / (k * 2 ^ k) + ln2F q f (k + 1)
def ln2 (q : Nat) : Nat := ln2F q q 1
/-- The exponential series from the term i, too low by a few units. -/
def expF (q t : Nat) : Nat → Nat → Nat → Nat
  | 0, _, _ => 0
  | f + 1, i, term => if term = 0 then 0 else term + expF q t f (i + 1) (term * t / (2 ^ q * (i + 1)))
/-- The error bound of the series, in units. -/
def slack : Nat := 4096
/-- 2^(r / 2^k) in units of 2^-70, cut off, for 0 < r < 2^k: the first precision at which the bounds agree. -/
def exp2Frac (r k : Nat) : List Nat → Nat
  | [] => 2 ^ 70
  | q :: qs =>
    let f := r * 2 ^ q / 2 ^ k
    let lo := expF q (f * ln2 q / 2 ^ q) q 0 (2 ^ q)
    let hi := min (lo + slack) (2 ^ (q + 1) - 1)
    if lo / 2 ^ (q - 70) = hi / 2 ^ (q - 70) ∨ qs = [] then lo / 2 ^ (q - 70) else exp2Frac r k qs
/-- 2^x (Table 8.6): exact for integers, else irrational and cut off. -/
def Val.exp2 (x : Val) : Val × Fl :=
  match x with
  | .nan => (.nan, 0)
  | .inf neg => (if neg then .zero else .inf false, 0)
  | .fin neg m e _ =>
    if m = 0 then (.fin false 1 0 false, 0)
    else if 15 ≤ (Nat.log2 m : Int) + e then (.fin false 1 (if neg then -32768 else 32768) true, 0)
    else if 0 ≤ e then
      let n : Int := (m * 2 ^ e.toNat : Nat)
      (.fin false 1 (if neg then -n else n) false, 0)
    else
      let k := (-e).toNat
      let n := m / 2 ^ k
      let r := m % 2 ^ k
      if r = 0 then (.fin false 1 (if neg then -(n : Int) else n) false, 0)
      else
        let n' : Int := if neg then -(n : Int) - 1 else n
        let r' := if neg then 2 ^ k - r else r
        (.fin false (exp2Frac r' k [192, 320, 640, 1280]) (n' - 70) true, 0)
/-- The series of the inverse hyperbolic tangent. -/
def atanhF (q z2 : Nat) : Nat → Nat → Nat → Nat
  | 0, _, _ => 0
  | f + 1, i, p => if p = 0 then 0 else p / (2 * i + 1) + atanhF q z2 f (i + 1) (p * z2 / 2 ^ q)
/-- |n + log2 (m / 2^l)| in units of 2^-140, cut off. -/
def log2Mag (n : Int) (m l : Nat) : List Nat → Nat
  | [] => 0
  | q :: qs =>
    let z := (m - 2 ^ l) * 2 ^ q / (m + 2 ^ l)
    let ln := 2 * atanhF q (z * z / 2 ^ q) q 0 z
    let l2 := ln2 q
    let lo : Int := n * (2 ^ q : Nat) + (ln * 2 ^ q / (l2 + slack) : Nat)
    let hi : Int := n * (2 ^ q : Nat) + ((ln + slack) * 2 ^ q / l2 + 1 : Nat)
    let a := if n < 0 then (-hi).toNat else lo.toNat
    let b := if n < 0 then (-lo).toNat else hi.toNat
    if a / 2 ^ (q - 140) = b / 2 ^ (q - 140) ∨ qs = [] then a / 2 ^ (q - 140) else log2Mag n m l qs
/-- log2 x (Table 8.6): exact for powers of two, else irrational and cut off. -/
def Val.log2 (x : Val) : Val × Fl :=
  match x with
  | .nan => (.nan, 0)
  | .inf neg => if neg then (.nan, fNV) else (.inf false, 0)
  | .fin neg m e _ =>
    if m = 0 then (.inf true, fDZ) else if neg then (.nan, fNV) else
    let l := Nat.log2 m
    let n : Int := l + e
    if m = 2 ^ l then (.ofInt n, 0)
    else (.fin (n < 0) (log2Mag n m l [256, 512, 1024]) (-140) true, 0)

/-- The order of two values other than NaN: -0 equals +0. -/
def Val.le (x y : Val) : Bool :=
  match x, y with
  | .inf s, .inf t => s || !t
  | .inf s, _ => s
  | _, .inf t => !t
  | .fin s m e _, .fin t n f _ => let u := minE e f; alignInt s m e u ≤ alignInt t n f u
  | _, _ => false
def Val.eq (x y : Val) : Bool := x.le y && y.le x
def Val.lt (x y : Val) : Bool := x.le y && !y.le x
def Val.isNeg : Val → Bool
  | .fin s _ _ _ => s | .inf s => s | .nan => false
/-- Below, -0 counting below +0 (R207, R127). -/
def Val.below (x y : Val) : Bool := x.lt y || (x.eq y && x.isNeg && !y.isNeg)

/-! Accumulator lanes (R118, R119); modes as in Table 13.1: 1 INT40, 2 FX40, 3 FA40, 4 FA80. -/

def laneWide (mode : Nat) : Nat := if mode = 4 then 80 else 40
/-- The value of a lane or lane pair. -/
def readLane (mode p l : Nat) : Val × Fl :=
  match mode with
  | 1 => (.ofInt (nsext l 40), 0)
  | 2 => ((Val.ofInt (nsext l 40)).scale (-(p : Int)), 0)
  | 3 => fa40.read l
  | _ => fa80.read l
/-- round_rne(x, mode). -/
def roundLane (mode p : Nat) (x : Val) : Nat × Fl :=
  match mode with
  | 1 => roundInt 0 40 x
  | 2 => roundInt 0 40 (x.scale p)
  | 3 => fa40.round 0 false x
  | _ => fa80.round 0 false x
/-- acc_add (R119). -/
def accAdd (mode p l : Nat) (x : Val) : Nat × Fl :=
  if mode = 1 ∨ mode = 2 then
    let (n, f) := roundInt 0 40 (x.scale (if mode = 1 then 0 else p))
    let t := nsext l 40 + nsext n 40
    (itrunc t 40, f ||| flagIf (t < -(2 ^ 39 : Int) || (2 ^ 39 : Int) ≤ t) fOF)
  else
    let F := if mode = 3 then fa40 else fa80
    let (v, f0) := F.read l
    let (z, f1) := v.add 0 x
    let (c, f2) := F.round 0 false z
    (c, f0 ||| f1 ||| f2)

/-! Scales (R122 to R125). -/

/-- emax(F) (R124). -/
def emaxOf : Nat → Int
  | 12 => 8 | 13 => 15 | 10 => 4 | 11 => 2 | 9 => 2 | 5 => 6 | 4 => 4 | 3 => 2 | _ => 1
/-- The largest finite value of a format (R125). -/
def maxFinite (t : Nat) : Val :=
  if t ≤ 8 then .ofInt ((2 ^ (tagWidth t - 1) : Nat) - 1) else ((ffmt t).read (ffmt t).maxCode).1
/-- se8_scale (R124). -/
def se8Scale (amax : Val) (t : Nat) : Nat × Fl :=
  match amax with
  | .fin _ m e _ =>
    if m = 0 then (0, 0) else
    let x := (Nat.log2 m : Int) + e - emaxOf t + 127
    ((if x < 0 then 0 else if 254 < x then 254 else x.toNat), 0)
  | _ => (0xFF, fNV)
/-- fp32_scale (R125): its rounding sets no flag. -/
def fp32Scale (amax : Val) (t : Nat) : Nat × Fl :=
  match amax with
  | .nan => (0x7FC00000, fNV)
  | .inf false => (0x7FC00000, fNV)
  | _ => if amax.isZero then (0, 0) else ((fp32.round 4 false (amax.div (maxFinite t)).1).1, 0)

/-! Orders of sums (R126, R127). -/

/-- A value rounded to a format, as a value. -/
def FFmt.roundV (F : FFmt) (md : Nat) (sat : Bool) (x : Val) : Val × Fl :=
  let (c, f) := F.round md sat x
  ((F.read c).1, f)
/-- seq_sum from a running sum. -/
def seqFrom (F : FFmt) (md : Nat) : Val → List Val → Val × Fl
  | s, [] => (s, 0)
  | s, x :: xs =>
    let (z, f0) := s.add md x
    let (r, f1) := F.roundV md false z
    let (t, f2) := seqFrom F md r xs
    (t, f0 ||| f1 ||| f2)
/-- seq_sum(x_0, ..., F, m). -/
def seqSum (F : FFmt) (md : Nat) : List Val → Val × Fl
  | [] => (.zero, 0)
  | x :: xs =>
    let (r, f0) := F.roundV md false x
    let (t, f1) := seqFrom F md r xs
    (t, f0 ||| f1)

/-- A term of a reduction: an active value or none, with the flags so far. -/
abbrev Term := Option Val × Fl
/-- One level of the tree. -/
def pairUp (g : Val → Val → Val × Fl) : List Term → List Term
  | (x, f) :: (y, h) :: l =>
    (match x, y with
      | some a, some b => let (z, k) := g a b; (some z, f ||| h ||| k)
      | some a, none => (some a, f ||| h)
      | none, b => (b, f ||| h)) :: pairUp g l
  | l => l
/-- The pairwise tree of R127. -/
def treeOf (g : Val → Val → Val × Fl) : Nat → List Term → List Term
  | 0, l => l
  | n + 1, l => treeOf g n (pairUp g l)
/-- The value at the root; inactive gives +0. -/
def treeRoot (g : Val → Val → Val × Fl) (l : List Term) : Val × Fl :=
  match treeOf g (Nat.log2 l.length) l with
  | (x, f) :: _ => (x.getD .zero, f)
  | [] => (.zero, 0)
/-- The working format of a tag's sums: FP32 for BF16 and FP16. -/
def workFmt (t : Nat) : FFmt := if t = 14 ∨ t = 15 then fp32 else ffmt t
def workMode (t md : Nat) : Nat := if t = 14 ∨ t = 15 then 0 else md
/-- tree_sum, as a code of the tag's format: the one final rounding of FP16 and BF16 saturates under `.sat`; in the other
formats the value at the root is one of the format already and is only encoded. -/
def treeSum (t md : Nat) (sat : Bool) (l : List Term) : Nat × Fl :=
  let W := workFmt t
  let mw := workMode t md
  let (v, f) := treeRoot (fun a b => let (z, g) := a.add mw b; let (r, h) := W.roundV mw sat z; (r, g ||| h)) l
  let (c, h) := (ffmt t).round md (sat && (t == 14 || t == 15)) v
  (c, f ||| h)
/-- The pairs of the maximum, minimum and absolute maximum (R127). -/
def pairMax (a b : Val) : Val × Fl := if a.isNan || b.isNan then (.nan, 0) else (if a.below b then b else a, 0)
def pairMin (a b : Val) : Val × Fl := if a.isNan || b.isNan then (.nan, 0) else (if b.below a then b else a, 0)
def pairAmax (a b : Val) : Val × Fl := if a.isNan || b.isNan then (.nan, 0) else (if a.abs.lt b.abs then b else a, 0)

end Sys2Proof.Machine
end

