-- ==== Sys2Proof/Machine/Rings.lean ====
section
/-!
DEFINITION. The networks: the stops of a die, the rings outside the dies, and the ways that messages take on them
(20 R387 to R389).
-/
namespace Sys2Proof.Machine
open Sys2Proof

/-! The geometry. -/

/-- A place of a package that messages leave and reach: a core, a memory slice of a die, the base die with its ports. -/
inductive Node where
  | core (n : Nat) | slice (die x : Nat) | base
deriving DecidableEq, Repr, Inhabited
/-- The die of a node; the base die is none of the eight. -/
def Node.die : Node → Option Nat
  | .core n => some (n / 96)
  | .slice d _ => some d
  | .base => none
/-- Stop (x, 0) is slice x, stop (x, y) with y ≥ 1 is quad 8 (y - 1) + x (R387). -/
def Node.stop : Node → Nat × Nat
  | .core n => (n % 96 / 4 % 8, n % 96 / 4 / 8 + 1)
  | .slice _ x => (x, 0)
  | .base => (0, 0)
/-- The node of a physical bit: an aperture's core, a slice of bonded DRAM, or a port of the base die. -/
def nodeOf (pa : Nat) : Node :=
  match place pa with
  | .ap n _ => .core n
  | .dram d _ => .slice d (sliceOf pa)
  | _ => .base

/-- On a ring of `n` places the positive direction from `a` to `b` is the shorter, or as short. -/
def ringUp (n a b : Nat) : Bool := 2 * ((b + n - a) % n) ≤ n
def ringHops (n a b : Nat) : Nat := min ((b + n - a) % n) ((a + n - b) % n)
/-- The places that follow `a` on the way to `b`. -/
def ringPath (n : Nat) : Nat → Nat → Nat → List Nat
  | 0, _, _ => []
  | k + 1, a, b =>
    if a = b then [] else
    let c := if ringUp n a b then (a + 1) % n else (a + n - 1) % n
    c :: ringPath n k c b
/-- The stops that follow `a` on the way to `b`: the X ring to the column, then the Y ring (R387). -/
def torusPath (a b : Nat × Nat) : List (Nat × Nat) :=
  (ringPath 8 4 a.1 b.1).map (fun x => (x, a.2)) ++ (ringPath 4 2 a.2 b.2).map (fun y => (b.1, y))
/-- The one of the two stops of the die's station that is nearer by the route. -/
def stationStop (a : Nat × Nat) : Nat × Nat :=
  if (torusPath a (0, 0)).length ≤ (torusPath a (4, 0)).length then (0, 0) else (4, 0)

/-- A package that the domain holds: rack 0 to 95, position 0 to 63, not marked empty (R388). -/
def State.inDomain (s : State) (pkg : Nat) : Bool := pkg < 96 * 64 && !s.absent.contains pkg
/-- The stations of a ring in their clockwise order: the dies and the base die (8); the positions of a rack that hold a package;
the racks whose bridge at position 16 d stands (R388). -/
def State.stations (s : State) : Ring → List Nat
  | .package _ => List.range 9
  | .rack r => (List.range 64).filter fun i => s.inDomain (64 * r + i)
  | .domain d => (List.range 96).filter fun r => s.inDomain (64 * r + 16 * d)
/-- The shorter direction on a ring is the clockwise one, or both are equal; and its hops. -/
def State.clockwise (s : State) (r : Ring) (a b : Nat) : Bool :=
  let l := s.stations r
  ringUp l.length (l.idxOf a) (l.idxOf b)
def State.hops (s : State) (r : Ring) (a b : Nat) : Nat :=
  let l := s.stations r
  ringHops l.length (l.idxOf a) (l.idxOf b)
/-- The first station clockwise after `a`, `a` itself last, that `p` holds of. -/
def State.nextAfter (s : State) (r : Ring) (a : Nat) (p : Nat → Bool) : Option Nat :=
  let l := s.stations r
  ((l.filter fun i => a < i) ++ l.filter fun i => i ≤ a).find? p

/-! Messages. -/

/-- A message that a home answers. -/
def MsgKind.asks : MsgKind → Bool
  | .write | .addInt | .addFloat | .faa | .read | .memWrite | .forward => true
  | _ => false
/-- The squall bit is a write's, an add's or a fetch-and-add's (R400). -/
def MsgKind.squalls : MsgKind → Bool
  | .write | .addInt | .addFloat | .faa => true
  | _ => false
/-- A posted write or add (R396). -/
def MsgKind.posted : MsgKind → Bool
  | .write | .addInt | .addFloat => true
  | _ => false
/-- The node of the sender, and that of the home. -/
def Msg.source (m : Msg) : Node := if m.sender = .headworks then .base else .core m.score
def Msg.target (m : Msg) : Node :=
  match m.kind with
  | .forward => .base
  | .memWrite | .memAck => (m.parts.head?.map fun p => nodeOf p.at_).getD .base
  | _ => .core m.dcore
/-- Where the message goes, and where it comes from: package and node. -/
def Msg.goal (m : Msg) : Nat × Node := if m.kind.asks then (m.dpkg, m.target) else (m.spkg, m.source)
def Msg.origin (m : Msg) : Nat × Node := if m.kind.asks then (m.spkg, m.source) else (m.dpkg, m.target)
/-- The message has one place to go to, the stop that it leaves: no network lies between. -/
def Msg.local (m : Msg) : Bool :=
  m.mc.isNone && m.goal.1 == m.origin.1 && m.goal.2.die == m.origin.2.die && m.goal.2.stop == m.origin.2.stop
/-- Where a message begins its way. -/
def Msg.launch (m : Msg) : Leg := if m.local then .home else .start
/-- A message waits in a ring slot of a station, or a branch of its multicast does. -/
def Msg.turnedAt (m : Msg) (r : Ring) (i : Nat) : Bool :=
  match m.leg, m.mc with
  | .slot q _ _ _, some b => q == r && b.getLsbD i && m.refs.getLsbD i
  | .slot q _ dest n, none => q == r && dest == i && 0 < n
  | _, _ => false

/-- Where a message stands within a package: at a stop of a die, or on the base die. -/
inductive Spot where
  | stop (die : Nat) (at_ : Nat × Nat) | base
def Node.spot : Node → Spot
  | .base => .base
  | n => match n.die with | some d => .stop d n.stop | none => .base

/-- The direction on a ring: the shorter, which a pinned message keeps; another takes one whose next slot is free. Which slots are
free is the free value `f`: its lowest two bits are set where a direction has none (R389). -/
def pickDir (pin cw : Bool) (f : Nat) : Option Bool :=
  if pin then (if f.testBit (if cw then 0 else 1) then none else some cw)
  else if !f.testBit (if cw then 0 else 1) then some cw
  else if !f.testBit (if cw then 1 else 0) then some !cw
  else none
/-- The bridge of the source rack to another rack: DPKG mod 4 where pinned, else the nearest that has a free slot, the lower where
two are as near (R389). -/
def State.pickBridge (s : State) (m : Msg) (pkg f : Nat) : Option Nat :=
  let dest := m.goal.1
  if m.pin then some (dest % 4) else
  let l := (List.range 4).filter fun d => s.inDomain (pkg / 64 * 64 + 16 * d) && s.inDomain (dest / 64 * 64 + 16 * d) && !f.testBit (2 + d)
  l.foldl (fun b d => match b with
    | some c => if s.hops (.rack (pkg / 64)) (pkg % 64) (16 * d) < s.hops (.rack (pkg / 64)) (pkg % 64) (16 * c) then some d else b
    | none => some d) none
/-- A slot of a ring from one station to another, if one is free; a multicast takes a clockwise one (R394). -/
def State.slotTo (s : State) (m : Msg) (r : Ring) (a b f : Nat) : Option Leg :=
  (if m.mc.isSome && !(match r with | .package _ => true | _ => false) then (if f.testBit 0 then none else some true)
   else pickDir m.pin (s.clockwise r a b) f).map fun cw => .slot r cw b 0
/-- The way on from a spot of a package, and the domain ring chosen; nothing where no bridge has a free slot (R387 to R389, R394). -/
def State.onward (s : State) (m : Msg) (pkg : Nat) (p : Spot) (f : Nat) : Option (Leg × Option Nat) :=
  let (dest, node) := m.goal
  let here := dest == pkg && m.mc.isNone
  let ring (r : Ring) (a b : Nat) (via : Option Nat) : Option (Leg × Option Nat) := some (.output r a b, via)
  match p with
  | .stop d x =>
    let walk (y : Nat × Nat) (done : Option (Leg × Option Nat)) : Option (Leg × Option Nat) :=
      match torusPath x y with
      | [] => done
      | l => some (.torus pkg d (x :: l), m.via)
    if here && node.die == some d then walk node.stop (some (.home, m.via))
    else walk (stationStop x) (ring (.package pkg) d (if here then node.die.getD 8 else 8) m.via)
  | .base =>
    if here then
      match node.die with
      | some d => ring (.package pkg) 8 d m.via
      | none => some (.home, m.via)
    else if dest / 64 = pkg / 64 then
      match m.mc with
      | none => ring (.rack (pkg / 64)) (pkg % 64) (dest % 64) m.via
      | some b => (s.nextAfter (.rack (pkg / 64)) (pkg % 64) b.getLsbD).bind fun i => ring (.rack (pkg / 64)) (pkg % 64) i m.via
    else
      (m.via.or (s.pickBridge m pkg f)).bind fun d =>
        if pkg % 64 = 16 * d then ring (.domain d) (pkg / 64) (dest / 64) (some d)
        else ring (.rack (pkg / 64)) (pkg % 64) (16 * d) (some d)
/-- The package of a station, and where a message stands that the station delivers: a die's station brings it to the stop of the
two that is nearer its goal. -/
def Ring.pkgAt : Ring → Nat → Nat
  | .package p, _ => p
  | .rack r, i => 64 * r + i
  | .domain d, r => 64 * r + 16 * d
def Ring.spotAt (r : Ring) (i : Nat) (goal : Nat × Nat) : Spot :=
  match r with
  | .package _ => if i = 8 then .base else .stop i (stationStop goal)
  | _ => .base

/-! Buffers. -/

/-- Messages that stand in the buffer of a router for the next stop: a ring buffer has 64 entries (R387, R400). -/
def State.inRouter (s : State) (pkg die : Nat) (a b : Nat × Nat) : Nat :=
  (s.msgs.filter fun e => match e.2 with
    | some m => (match m.leg with | .torus p d (x :: y :: _) => p == pkg && d == die && x == a && y == b | _ => false)
    | none => false).length
/-- A message enters the ring buffer: two entries must be free, or one where it is on that ring already (R387). -/
def State.routerRoom (s : State) (pkg die : Nat) (a b : Nat × Nat) (onRing : Bool) : Bool :=
  s.inRouter pkg die a b + (if onRing then 1 else 2) ≤ 64
/-- Messages in the output buffer of a station for a ring: 64 entries (R400). -/
def State.inOutput (s : State) (r : Ring) (i : Nat) : Nat :=
  (s.msgs.filter fun e => match e.2 with | some m => (match m.leg with | .output q j _ => q == r && j == i | _ => false) | none => false).length
/-- Flits in the input buffer of a station for a direction (64), and in its overflow buffer (512), which only bridge stations and the
base-die station have (R393). -/
def State.inInput (s : State) (r : Ring) (cw : Bool) (i : Nat) : Nat :=
  (s.msgs.filter fun e => match e.2 with | some m => (match m.leg with | .input q c j _ => q == r && c == cw && j == i | _ => false) | none => false).length
def State.inOverflow (s : State) (r : Ring) (i : Nat) : Nat :=
  (s.msgs.filter fun e => match e.2 with | some m => (match m.leg with | .overflow q j _ => q == r && j == i | _ => false) | none => false).length
def hasOverflow : Ring → Nat → Bool
  | .package _, i => i == 8
  | _, _ => true
/-- A flit taken before number `k` waits in the overflow buffer of the station: it is delivered first (R393). -/
def State.overflowBefore (s : State) (r : Ring) (i k : Nat) : Bool :=
  s.msgs.any fun e => match e.2 with | some m => (match m.leg with | .overflow q j h => q == r && j == i && h < k | _ => false) | none => false

end Sys2Proof.Machine
end

