-- ==== Sys2Proof/Machine/Net.lean ====
section
/-!
DEFINITION. Lanes and messages: adding into accumulator lanes (05 R119, 07 R176 to R179, 13 R278), sending a message,
the live window (20 R396 to R400), and what a home does with a message (20 R398).
-/
namespace Sys2Proof.Machine
open Sys2Proof

def State.jobAt (s : State) (ck : Nat) : Job := (s.coreAt ck).job.getD { rcd := {}, serial := 0 }
/-- Changes the core of a key. -/
def State.updCore (s : State) (ck : Nat) (g : Core → Core) : State := s.setCoreAt ck (g (s.coreAt ck))
def State.updMe (s : State) (g : Core → Core) : State := s.setMe (g s.me)

/-! Accumulator lanes. -/

/-- The bits of a lane or lane pair at an aperture offset of a core. -/
def State.rdLane (s : State) (ck o w : Nat) : Nat := memBits s.mem (bitKey (pkgOf ck) (apAddr (numOf ck) o)) w
def State.wrLane (s : State) (ck o w v : Nat) : State :=
  { s with mem := memSetBits s.mem (bitKey (pkgOf ck) (apAddr (numOf ck) o)) w v }
/-- The poison of the lanes under `w` bits from an offset. -/
def State.lanePsn (s : State) (ck o w : Nat) : Bool :=
  let (l, k) := lanesOf o w
  (List.range k).any fun i => tget false (s.coreAt ck).lanePsn (l + i)
def State.setLanePsn (s : State) (ck o w : Nat) (b : Bool) : State :=
  let (l, k) := lanesOf o w
  s.updCore ck fun c => { c with lanePsn := (List.range k).foldl (fun t i => tset false t (l + i) b) c.lanePsn }

/-- The directory entry over an aperture offset of a core. -/
def State.apRole (s : State) (ck o : Nat) : DirEntry := s.roleAt (pkgOf ck) (apAddr (numOf ck) o)
/-- Lane bits from one lane to the next of a region: 40, or 80 in an FA80 region (07 R177). -/
def State.laneStep (s : State) (ck o : Nat) : Nat :=
  let e := s.apRole ck o
  if e.role = .acc ∧ e.mode = 4 then 80 else 40
/-- A lane of `w` bits admits an add in context `x`: ACC of the context, and one mode and point over its granules (13 R277, R278). -/
def State.laneAddOk (s : State) (ck : Nat) (x : BitVec 4) (o w : Nat) : Bool :=
  let a := s.apRole ck o
  let b := s.apRole ck (o + w - 1)
  inPart .acc o w && a.role == .acc && b.role == .acc && a.ctx == x && b.ctx == x && a.mode == b.mode && a.point == b.point

/-- The addend of an element: an integer is taken in lane units of an FX40 lane (07 R179); `fmt` is 0 for an integer of
`w` bits, else the tag of its format. -/
def addend (fmt w mode p v : Nat) : Val × Fl :=
  let (x, f) := if fmt = 0 then (Val.ofInt (nsext v w), 0) else readTag fmt v
  (if fmt ≤ 1 ∧ mode = 2 then x.scale (-(p : Int)) else x, f)
/-- acc_add of a value into the lane at an offset; a poisoned addend leaves the lane poisoned, as does a poisoned lane (11 R255). -/
def State.addLaneVal (s : State) (ck o : Nat) (x : Nat → Nat → Val × Fl) (psn : Bool) : State × Fl :=
  let e := s.apRole ck o
  let m := e.mode.toNat
  let w := laneWide m
  let (y, f0) := x m e.point.toNat
  let (l, f1) := accAdd m e.point.toNat (s.rdLane ck o w) y
  let s1 := s.wrLane ck o w l
  (if psn then s1.setLanePsn ck o w true else s1, f0 ||| f1)
def State.addLane (s : State) (ck o fmt w v : Nat) (psn : Bool) : State × Fl :=
  s.addLaneVal ck o (fun m p => addend fmt w m p v) psn
/-- Adds elements into the lanes from an offset, one lane stride apart. -/
def State.addLanes (s : State) (ck o step fmt w : Nat) : List Nat → State × Fl
  | [] => (s, 0)
  | v :: vs =>
    let (s1, f) := s.addLane ck o fmt w v false
    let (s2, g) := s1.addLanes ck (o + step) step fmt w vs
    (s2, f ||| g)
/-- Each of `n` lanes from an offset admits an add. -/
def State.lanesAddOk (s : State) (ck : Nat) (x : BitVec 4) (o step : Nat) (n : Nat) : Bool :=
  (List.range n).all fun i => s.laneAddOk ck x (o + step * i) step

/-! Windows. -/

def Core.winAt (c : Core) (w : Nat) : Window := tget {} c.fab.win w
def Core.setWin (c : Core) (w : Nat) (x : Window) : Core := { c with fab := { c.fab with win := tset {} c.fab.win w x } }
/-- A message can leave through the window (R400) (DEDUCED, log entry 17). -/
def Core.canSend (c : Core) (w : Nat) : Bool := (c.winAt w).out < (c.winAt w).lw
/-- The procedure of R400 for an answer. -/
def Window.answered (x : Window) (sq : Bool) : Window :=
  let y := { x with out := x.out - 1 }
  let z :=
    if sq then
      let y' := if y.lw ≤ y.h then { y with lw := max 1 (y.lw / 2), h := 0 } else y
      { y' with c := 0 }
    else if y.c + 1 = 64 then { y with c := 0, lw := min (y.lw + 1) y.allow }
    else { y with c := y.c + 1 }
  { z with h := z.h + 1 }

/-! Sending. -/

/-- The physical bits, in its target package, that a message writes or reads: first and end. An add counts lane strides from the
lane of its word (Table 20.2): 40 or, in an FA80 region, 80 bits each. -/
def Msg.span (m : Msg) : Nat × Nat :=
  let base := if m.kind = .memWrite then 0 else apAddr m.dcore 0
  match m.parts with
  | [] => (0, 0)
  | p :: ps =>
    if m.kind = .addInt ∨ m.kind = .addFloat then (base + p.at_, base + (p.at_ - 40 * m.skip) + 80 * (m.skip + m.parts.length))
    else (base + ps.foldl (fun a q => min a q.at_) p.at_, base + ps.foldl (fun a q => max a (q.at_ + q.w)) (p.at_ + p.w))

/-- A message leaves a core: it takes its place in its window, and its issuer is owed an answer where it writes or adds. -/
def State.post (s : State) (ck : Nat) (m : Msg) : State :=
  let id := s.ids
  let m1 : Msg := { m with leg := m.launch, seq := id }
  let s1 := { s with msgs := tset none s.msgs id (some m1), ids := id + 1 }
  s1.updCore ck fun c =>
    let c1 := if m.win ≤ 16 then c.setWin m.win { c.winAt m.win with out := (c.winAt m.win).out + 1 } else c
    if m.kind = .read then c1 else
    let (lo, hi) := m.span
    let at_ := match m.sender with | .copy i => i | _ => c1.stamp
    { c1 with owed := c1.owed ++ [{ id := id, src := m.src, win := m.win, pkg := m.dpkg, lo := lo, hi := hi, stamp := at_, sender := m.sender }],
              stamp := c1.stamp + 1 }

/-- The fields that every message of a job of core `ck` carries. The address that a refused one reports is that of its first granule
where it is posted through a window (20 R398), else that of the access. -/
def State.newMsg (s : State) (ck : Nat) (kind : MsgKind) (dpkg dcore : Nat) (parts : List Part) (sender : Sender) (src win : Nat) (va : W64) : Msg :=
  let j := s.jobAt ck
  { kind := kind, dpkg := dpkg, dcore := dcore, parts := parts, ctx := j.rcd.ctx, frame := j.rcd.frame,
    spkg := pkgOf ck, score := numOf ck, job := j.serial, sender := sender, src := src, win := win, va := if kind.posted ∧ win ≤ 16 then va - BitVec.ofNat 64 (va.toNat % 128) else va, seq := 0 }

/-- Some write in flight of a source covers a physical bit of the range (07 R178, 20 R399). -/
def Core.owes (c : Core) (src pkg lo hi : Nat) : Bool :=
  c.owed.any fun w => w.src == src && w.pkg == pkg && w.lo < hi && lo < w.hi
/-- The same through one window. -/
def Core.owesWin (c : Core) (src win pkg lo hi : Nat) : Bool :=
  c.owed.any fun w => w.src == src && w.win == win && w.pkg == pkg && w.lo < hi && lo < w.hi

/-! At the home. -/

/-- A valid receive side with GRANT covers the bits (R398, R404). -/
def recvGranted (t : Tbl RecvSide) (o n : Nat) : Bool :=
  t.any fun r => r.2.v && r.2.grant && 128 * r.2.rb ≤ o && o + n ≤ 128 * (r.2.rb + r.2.rextm1 + 1)

/-- The pieces of `n` bits from an aperture offset of a core. -/
def apPieces (ck o n : Nat) : Pieces := cuts (apAddr (numOf ck) o) n

/-- The job by which a home checks a message, and its receive sides: the core's, where it runs the message's context, else one that a
kill of the context under way has stopped there (R398, 15 R359). -/
def State.homeSide (s : State) (dk : Nat) (m : Msg) : Option (Job × Tbl RecvSide) :=
  let c := s.coreAt dk
  match c.job with
  | some j => if j.rcd.ctx = m.ctx then some (j, c.fab.recv) else c.gone.find? (·.1.rcd.ctx == m.ctx)
  | none => c.gone.find? (·.1.rcd.ctx == m.ctx)
/-- The core runs the message's context: only then does a receive side of it count (R404). -/
def State.homeRuns (s : State) (dk : Nat) (m : Msg) : Bool := (s.coreAt dk).job.any (·.rcd.ctx == m.ctx)
/-- The role check at the home for a posted write, granule by granule (R398, Table 13.2) (DEDUCED, log entry 26). -/
def State.homeWriteOk (s : State) (dk : Nat) (m : Msg) (p : Part) : Bool :=
  match s.homeSide dk m with
  | none => false
  | some (j, sides) => (cuts p.at_ p.w).all fun q =>
    let pa := apAddr (numOf dk) q.1
    let e := s.roleAt (pkgOf dk) pa
    match e.role with
    | .prv => e.ownedBy j && recvGranted sides q.1 q.2
    | .str => s.slotOk (pkgOf dk) pa true m.spkg m.score
    | _ => false
/-- The job a message speaks for. -/
def Msg.asJob (m : Msg) : Job := { rcd := { ctx := m.ctx, frame := m.frame }, serial := m.job }

/-- The granules that a message's bits lie in, by number in the aperture, each once (R404). -/
def granulesOf (parts : List (Nat × Nat)) : List Nat :=
  parts.foldl (fun l p => (cuts p.1 p.2).foldl (fun l q => if l.contains (q.1 / 128) then l else l ++ [q.1 / 128]) l) []
/-- The triggers after a change of a counter or an arming in cycle `now`: a slot whose counter meets its threshold at the start of
a cycle fires in it (R408). -/
def Core.reTrig (c : Core) (now : Nat) : Core :=
  { c with fab := { c.fab with trig := c.fab.trig.map fun e =>
      (e.1, { e.2 with due := if e.2.v && e.2.thr ≤ (tget {} c.fab.recv e.2.cnt : RecvSide).cnt then some (e.2.due.getD (now + 1)) else none }) } }
/-- The data granules of an add of `n` elements of `w` bits, side by side, into lanes from an offset: of each, the granules of the
aperture that its lanes lie in (R404, Table 20.2). -/
def addGranules (o step n w : Nat) : List (List Nat) :=
  (List.range ((n * w + 127) / 128)).map fun k =>
    granulesOf ((List.range (128 / w + 2)).filterMap fun j =>
      let i := 128 * k / w + j
      if i < n && i * w < 128 * (k + 1) then some (o + step * i, step) else none)
/-- A performed message counts each of its data granules in every receive side that the granule touches, saturating (R404)
(DEDUCED, log entry 27). -/
def Core.countIn (c : Core) (gs : List (List Nat)) (now : Nat) : Core :=
  Core.reTrig (now := now) { c with fab := { c.fab with recv := c.fab.recv.map fun e =>
      let x := e.2
      let n := (gs.filter fun l => l.any fun g => x.rb ≤ g && g ≤ x.rb + x.rextm1).length
      if x.v then (e.1, { x with cnt := min (x.cnt + 16 * n) 0xFFFFFFFF }) else e } }

/-- The parts of a message that lie in the granule from `g`: value and mask of its bits, and their poison. -/
def granOf (parts : List Part) (g : Nat) : Nat × Nat × Bool :=
  parts.foldl (fun r p =>
    let lo := max g p.at_
    let hi := min (g + 128) (p.at_ + p.w)
    if lo < hi then
      (r.1 + p.val / 2 ^ (lo - p.at_) % 2 ^ (hi - lo) * 2 ^ (lo - g), r.2.1 + (2 ^ (hi - lo) - 1) * 2 ^ (lo - g), r.2.2 || p.psn)
    else r) (0, 0, false)
/-- The parts written at the home: a granule that they cover is written whole (07 R186), another part by part (R155). -/
def State.writeParts (s : State) (dk : Nat) (parts : List Part) : State :=
  let pkg := pkgOf dk
  (granulesOf (parts.map fun p => (p.at_, p.w))).foldl (fun t g =>
    let r := granOf parts (128 * g)
    if r.2.1 = 2 ^ 128 - 1 then t.wrGran pkg (apAddr (numOf dk) (128 * g)) 128 r.1 r.2.2
    else parts.foldl (fun u p =>
      ((apPieces dk p.at_ p.w).zip (cuts p.at_ p.w)).foldl (fun v q =>
        if q.2.1 / 128 = g then v.wrGran pkg q.1.1 q.1.2 (p.val / 2 ^ (q.2.1 - p.at_) % 2 ^ q.1.2) p.psn else v) u) t) s
/-- A whole V register replaced through the register window, tag RAW (07 R163). -/
def Core.setWholeV (c : Core) (i : Nat) (v : V2048) (psn : Bool) : Core :=
  { c with v := { c.v with v := tset {} c.v.v i { bits := v, tag := 0, psn := psn } } }

/-- The part of the aperture that a message's first bit lies in. -/
def Msg.part (m : Msg) : Option ApPart := m.parts.head?.bind fun p => apPart p.at_

/-- What a home does with a message of a core: the state, and whether it refused. `parts2` are those of the other half of a
register write. A read meets the tests of Table 13.2 alone (R399). The flags of an add are discarded, also of one that a window brought
back to its own core (05 R109, 20 R409) (DESIGN CHOICE, log entry 100). Of a read: the bits, the bits with poisoned granules as zeros, and whether one was poisoned. -/
def State.perform (s : State) (m : Msg) (parts2 : List Part) : State × Bool × Option (Nat × Nat × Bool) :=
  let dk := coreKey m.dpkg m.dcore
  let count (t : State) (l : List (List Nat)) : State := if s.homeRuns dk m then t.updCore dk fun c => c.countIn l s.now else t
  if (s.homeSide dk m).isNone && m.kind != .read then (s, true, none) else
  match m.kind with
  | .write =>
    if m.part = some .regs then
      if !s.homeRuns dk m then (s, true, none) else
      let ps := m.parts ++ parts2
      let lo := ps.foldl (fun a p => min a p.at_) (regEnd)
      let v := ps.foldl (fun a p => a + p.val % 2 ^ p.w * 2 ^ (p.at_ - lo)) 0
      (s.updCore dk fun c => c.setWholeV ((lo - regBase) / 2048) (BitVec.ofNat 2048 v) (ps.any (·.psn)), false, none)
    else if m.parts.all (s.homeWriteOk dk m) then
      (count (s.writeParts dk m.parts) ((granulesOf (m.parts.map fun p => (p.at_, p.w))).map fun g => [g]), false, none)
    else (s, true, none)
  | .addInt | .addFloat =>
    match m.parts with
    | [] => (s, false, none)
    | p :: _ =>
      let lane := p.at_ - 40 * m.skip
      let step := s.laneStep dk lane
      let o := lane + step * m.skip
      let n := m.parts.length
      if s.lanesAddOk dk m.ctx o step n && (o - accBase) % step == 0 then
        let (s1, _) := s.addLanes dk o step m.fmt m.w (m.parts.map (·.val))
        (count s1 (addGranules o step n m.w), false, none)
      else (s, true, none)
  | .faa =>
    match m.parts with
    | [] => (s, true, none)
    | p :: _ =>
      let o := p.at_
      let ok := (s.homeSide dk m).any fun h => recvGranted h.2 o 40 && (apPieces dk o 40).all fun q => (s.roleAt (pkgOf dk) q.1).ownedBy h.1
      if ok then
        let old := s.rdLane dk o 40
        let s1 := s.wrLane dk o 40 (itrunc (nsext old 40 + nsext p.val 64) 40)
        (count s1 [granulesOf [(o, 40)]], false, some (old, old, s.lanePsn dk o 40))
      else (s, true, none)
  | .read =>
    match m.parts with
    | [] => (s, true, none)
    | _ =>
      let ps := m.parts.flatMap fun p => apPieces dk p.at_ p.w
      let ok := ps.all fun q =>
        let e := s.roleAt (pkgOf dk) q.1
        match e.role with
        | .imm => true
        | .str => s.slotOk (pkgOf dk) q.1 false m.spkg m.score
        | .prv => e.ownedBy m.asJob
        | .acc => false
      if ok then (s, false, some (s.rdPieces (pkgOf dk) ps, s.rdPiecesZf (pkgOf dk) ps, s.psnPieces (pkgOf dk) ps)) else (s, true, none)
  | _ => (s, true, none)

/-- A write at a memory slice or port: its role check at the home (13 R289), then its bits. -/
def State.performMem (s : State) (m : Msg) : State × Bool :=
  let ok := m.parts.all fun p => s.roleOk (coreKey m.spkg m.score) m.asJob m.dpkg p.at_ .wr
  if ok then (m.parts.foldl (fun t p =>
    if t.hostGranted m.dpkg p.at_ p.w then t.wrGran m.dpkg p.at_ p.w (p.val % 2 ^ p.w) p.psn else t.dropHost m.dpkg m.score m.ctx.toNat p.at_)
    (s.crcWrite m.dpkg (m.parts.map fun p => (p.at_, p.w))), false)
  else (s, true)

/-- The parts of a message that writes `n` bits from an aperture offset. -/
def wholePart (o n v : Nat) (psn : Bool) : List Part := [{ at_ := o, w := n, val := v, psn := psn }]
/-- The parts of a write to memory: one for each piece. -/
def memParts (psn : Bool) : Pieces → Nat → List Part
  | [], _ => []
  | (pa, n) :: ps, v => { at_ := pa, w := n, val := v % 2 ^ n, psn := psn } :: memParts psn ps (v / 2 ^ n)

/-- A write to memory slices or ports leaves the core (R396): no window. -/
def State.postMem (s : State) (ck : Nat) (ps : Pieces) (v : Nat) (psn : Bool) (sender : Sender) (src : Nat) (va : W64) : State :=
  s.post ck (s.newMsg ck .memWrite (pkgOf ck) 0 (memParts psn ps v) sender src 17 va)
/-- A message through a window leaves the core (DEDUCED, log entry 30). -/
def State.postWin (s : State) (ck : Nat) (kind : MsgKind) (win pkg n : Nat) (parts : List Part) (sender : Sender) (src : Nat) (va : W64) (pin : Bool) : State :=
  s.post ck { s.newMsg ck kind pkg n parts sender src win va with pin := pin }

end Sys2Proof.Machine
end

