-- ==== Sys2Proof/Machine/Access.lean ====
section
/-!
DEFINITION. The A stream's arithmetic, control, run-ahead, single accesses and full/empty words (07 R158 to R178, R186 to R192).
-/
namespace Sys2Proof.Machine
open Sys2Proof

/-! Arithmetic (R170, R192). -/

/-- An A word of two sources and a destination. -/
def aAlu (f : ArF) (op : W64 → W64 → W64) (s : State) : State :=
  aWord true (fun s => s.arForm f.pk f.ad [f.aa, f.ab] true fun t => .ok (op (t.aSrc f.aa) (t.aSrc f.ab), t)) s
/-- `aadd` (R170). -/
def execAadd (f : ArF) (s : State) : Out := .next (aAlu f (fun a b => a + b) s)
/-- `asub` (R170). -/
def execAsub (f : ArF) (s : State) : Out := .next (aAlu f (fun a b => a - b) s)
/-- `amul` (R170). -/
def execAmul (f : ArF) (s : State) : Out := .next (aAlu f (fun a b => a * b) s)
/-- `ashl` (R170). -/
def execAshl (f : ArF) (s : State) : Out := .next (aAlu f (fun a b => a <<< (b.toNat % 64)) s)
/-- `aand` (R170). -/
def execAand (f : ArF) (s : State) : Out := .next (aAlu f (fun a b => a &&& b) s)
/-- `aaddx` (R170). -/
def execAaddx (f : ArF) (s : State) : Out := .next (aAlu f (fun a b => a + b * BitVec.ofNat 64 (widthOf f.wc)) s)
/-- `aaddi` (R170). -/
def execAaddi (f : AiF) (s : State) : Out :=
  .next (aWord true (fun s => s.arForm f.pk f.ad [f.aa] true fun t => .ok (t.aSrc f.aa + f.imm.signExtend 64, t)) s)
/-- `alim` (R170). -/
def execAlim (f : AiF) (s : State) : Out :=
  .next (aWord true (fun s => s.arForm 0 f.ad [] true fun t =>
    .ok (if f.hi then f.imm ++ (t.me.areg f.ad.toNat).extractLsb' 0 32 else f.imm.signExtend 64, t)) s)
/-- `aswz` (R192). -/
def execAswz (f : ArF) (s : State) : Out :=
  .next (aWord true (fun s => s.arForm f.pk f.ad [f.aa] true fun t =>
    .ok (BitVec.ofNat 64 (swizzle (f.w.extractLsb' 0 3).toNat (t.aSrc f.aa).toNat), t)) s)

/-! Control (R171, R172). -/

/-- The target of an A branch. -/
def State.aTarget (s : State) (f : AiF) : W64 := s.target_ .a f.imm.toInt
/-- `abr` under `.al`, `.ne` and `.eq` (R171). -/
def execAbr (f : AiF) (s : State) : Out :=
  .next (aWord true (fun s =>
    let z := s.me.areg f.aa.toNat = 0
    let taken := if f.cond = 0 then true else if f.cond = 1 then !z else z
    .ok (if taken then s.jump .a (s.aTarget f) else s.advance .a)) s)
/-- `abdec` (R171). -/
def execAbdec (f : AiF) (s : State) : Out :=
  .next (aWord true (fun s =>
    let v := s.me.areg f.ad.toNat - 1
    let s1 := s.setMe (s.me.setAreg f.ad.toNat v)
    .ok (if v ≠ 0 then s1.jump .a (s.aTarget f) else s1.advance .a)) s)
/-- `ajr` (R171): on a run-ahead path it waits (R174). -/
def execAjr (f : ArF) (s : State) : Out :=
  .next (aWord false (fun s => do
    let qs := aSrcQ f.aa.toNat
    s.cSources qs
    let t := s.aSrc f.aa
    need (t.toNat % 64 == 0) (trAt .fetchAlign t.toNat)
    s.cRoom (aDstQ f.ad.toNat)
    .ok (((s.aPop f.pk qs).aDst f.ad (s.link .a)).jump .a t)) s)
/-- `abr.rdv` (R171, 06 R142). -/
def execAbrRdv (f : AiF) (s : State) : Out :=
  .next (aWord false (fun s => .ok (s.rendezvous .a (f.imm.extractLsb' 0 5))) s)
/-- `agen` (R172): it waits until PEND is 0. -/
def execAgen (f : AiF) (s : State) : Out :=
  .next (aWord false (fun s => .ok ((s.updMe fun c => { c with a := { c.a with radepth := f.gen.toNat } }).advance .a)) s)

/-- An `abr.q7` takes its entry of q7 and branches on bit 0 (R173). -/
def State.takeQ7 (s : State) (f : AiF) : Except Stop State := do
  s.cSources [7]
  let o := ((s.me.qHead 7 s.now).map fun e => e.val.getLsbD 0).getD false
  let s1 := s.setMe (s.me.qPop 7 s.now)
  .ok (if o then s1.jump .a (s.aTarget f) else s1.advance .a)
/-- `abr.q7` (R173). -/
def execAbrQ7 (f : AiF) (s : State) : Out := .next (aWord false (fun s => s.takeQ7 f) s)
/-- `abr.q7.likely` (R174): within RADEPTH it issues as a taken branch under a checkpoint. -/
def execAbrQ7Likely (f : AiF) (s : State) : Out :=
  .next (aWord true (fun s =>
    let c := s.me
    if c.a.ckpts.length < c.a.radepth then
      let g := c.a.gen + 1
      let k : Ckpt := { a := c.a.a, g := c.a.g, addr := c.a.ctl.pc, gen := g, xflags := 0 }
      .ok ((s.setMe { c with a := { c.a with gen := g, ckpts := c.a.ckpts ++ [k] } }).jump .a (s.aTarget f))
    else if c.onPath then .error (.wait (.queue 7))
    else s.takeQ7 f) s)

/-- Flags of an A word or load of generation `g`: on a run-ahead path they wait with the branch that opened the generation for the
path's confirmation (05 R109). -/
def Core.aFlagsAt (c : Core) (g : Nat) (f : Fl) : Core :=
  if c.a.ckpts.any (·.gen == g) then
    { c with a := { c.a with ckpts := c.a.ckpts.map fun k => if k.gen == g then { k with xflags := k.xflags ||| f } else k } }
  else c.orFlags .a f
/-- Flags of the word at issue. -/
def State.aFlags (s : State) (f : Fl) : State := s.setMe (s.me.aFlagsAt s.me.a.gen f)

/-- Applies a change to every queue that the A stream pushes. -/
def Core.mapAQueues (c : Core) (g : List QEntry → List QEntry) (h : List WEntry → List WEntry) : Core :=
  let q (t : Tbl Queue) (n : Nat) : Tbl Queue := let x := tget {} t n; tset {} t n { x with ents := g x.ents }
  let w (t : Tbl WQueue) (n : Nat) : Tbl WQueue := let x := tget {} t n; tset {} t n { x with ents := h x.ents }
  { c with q := q (q (q c.q 0) 1) 6, wq := w (w c.wq 0) 1 }

/-- LIKELY_RESOLUTION (R174): the outcome of the oldest unresolved likely branch. -/
def execLikelyResolution (s : State) : Out :=
  let c := s.me
  match c.a.ckpts, c.qHead 7 s.now with
  | k :: ks, some e =>
    if !c.running s.now then .next s else
    let c1 := c.qPop 7 s.now
    if e.val.getLsbD 0 then
      let vis (g : Nat) (held : Bool) : Bool := held && g != k.gen
      let c2 := c1.mapAQueues
        (fun l => l.map fun x => if x.held && x.gen == k.gen then { x with held := vis x.gen x.held, rdy := max x.rdy (s.now + 1) } else x)
        (fun l => l.map fun x => if x.held && x.gen == k.gen then { x with held := vis x.gen x.held, rdy := max x.rdy (s.now + 1) } else x)
      let c3 := { c2 with a := { c2.a with ckpts := ks } }
      .next (s.setMe (c3.orFlags .a k.xflags))
    else
      let dropQ := (c1.mapAQueues (fun l => l.filter fun x => !x.held) (fun l => l.filter fun x => !x.held))
      let live (l : Load) : Bool := !((k :: ks).any fun b => b.gen == l.gen)
      let c2 := { dropQ with a := { dropQ.a with
        a := k.a, g := k.g, ckpts := [], loads := dropQ.a.loads.filter live,
        ctl := { dropQ.a.ctl with pc := k.addr + 64, wait := none, walkFault := none } } }
      .next (s.setMe c2)
  | _, _ => .next s

/-! Single accesses. -/

/-- A footprint entry conflicts with an access of the own aperture (R184). -/
def Core.footHit (c : Core) (lo hi : Nat) (wr : Bool) : Bool :=
  c.feet.any fun e => e.lo < hi && lo < e.hi && (wr || e.wr)
/-- The offsets in the own aperture of the pieces of an access, each its first bit and length. -/
def ownOffs (ps : Pieces) : List (Nat × Nat) := ps.filterMap fun p => match place p.1 with | .ap _ o => some (o, p.2) | _ => none
/-- The same for an access by its pieces, which swizzling may have put apart (R167, 13 R302). -/
def Core.footHits (c : Core) (ps : Pieces) (wr : Bool) : Bool := (ownOffs ps).any fun q => c.footHit q.1 (q.1 + q.2) wr

/-- The index of row k as it stands, where a page maps its place. -/
def State.ixPeek (s : State) (x : Copy) (k : Nat) : Option Nat :=
  if x.fromQ then some x.idx.toNat else
  let iw : Nat := if x.ix64 then 64 else 32
  (s.peek s.cur (.copy x.id) (itrunc (x.idx.toNat + k * iw) 64)).map fun q => s.rdGran s.myPkg q.1 iw
/-- The virtual ranges of the rows that an index list picks from a table; without bound where an index is not to be had. -/
def State.rowRanges (s : State) (x : Copy) (base : W64) : List (Nat × Nat) :=
  (List.range x.n).map fun k => match s.ixPeek x k with
    | some i => (itrunc (base.toNat + i * x.m * x.w) 64, x.m * x.w)
    | none => (base.toNat, unbounded)
/-- The virtual ranges that a copy reads and writes. -/
def State.copyReads (s : State) (x : Copy) : List (Nat × Nat) :=
  let ixs := if x.fromQ then [] else [(x.idx.toNat, x.n * if x.ix64 then 64 else 32)]
  match x.kind with
  | .cp => [(x.src.toNat, x.n * x.w)]
  | .cpz => []
  | .cpt => [(x.src.toNat, (x.n - 1) * x.pitch.toNat + x.m * x.w)]
  | .cpg => s.rowRanges x x.src ++ ixs
  | .cps => (x.src.toNat, x.n * x.m * x.w) :: ixs
def State.copyWrites (s : State) (x : Copy) : List (Nat × Nat) :=
  match x.kind with
  | .cps => s.rowRanges x x.dst
  | k => [(x.dst.toNat, if x.add then 80 * (if k = .cpg then x.m else x.n * x.m) else x.n * x.m * x.w)]
/-- The physical bits that some virtual ranges of a copy may touch. -/
def State.copySpans (s : State) (x : Copy) (l : List (Nat × Nat)) : List (Nat × Nat) := (l.map (s.spans s.cur (.copy x.id))).flatten

/-- A running copy of the A stream meets an access of memory, with a write on either side: by the physical bits (R178, 13 R302). -/
def State.copyMeets (s : State) (ps : Pieces) (wr : Bool) : Bool :=
  s.me.a.copies.any fun k => spansMeet (s.copySpans k (s.copyWrites k ++ if wr then s.copyReads k else [])) (pieceSpans ps)

/-- A single access to memory waits for older writes of the stream in flight and for copies that meet it (R178). -/
def State.memClear (s : State) (ps : Pieces) (wr : Bool) : Except Stop Unit := do
  need (!(ps.any fun p => s.me.owes 1 s.myPkg p.1 (p.1 + p.2))) (.wait .free)
  need (!(s.copyMeets ps wr)) (.wait .free)

/-- The full/empty bit of every granule of an access to the own scratchpad is full; or they are set (R187, R188). -/
def State.allFull (s : State) (ck : Nat) (ps : Pieces) : Bool := (ownOffs ps).all fun q => s.isFull ck q.1
def State.emptyFe (s : State) (ck : Nat) (ps : Pieces) (b : Bool) : State := (ownOffs ps).foldl (fun t q => t.setFull ck q.1 b) s

/-- `.wait` and `.clr` are for the own scratchpad (R187). -/
def feScope (t : Target) (use : Bool) (ea : Nat) : Except Stop Unit :=
  match t with
  | .own _ ps => need (!use || ps.all fun q => offIn .scratch q) (trAt .ldstScope ea)
  | _ => need (!use) (trAt .ldstScope ea)

/-- The load of a word that still returns into a register. -/
def Core.regLoad (c : Core) (pc : W64) : Bool :=
  c.a.loads.any fun l => l.word == pc && match l.dst with | .areg _ => true | _ => false

/-- The entry that a load to a queue takes at its issue (R178). -/
def State.pushPending (s : State) (code : Nat) (tag : BitVec 5) (id : Nat) : State :=
  let c := s.me
  if code = 27 ∨ code = 28 then
    s.setMe (c.wqPush (code - 27) { val := { tag := tag }, gen := c.a.gen, held := c.onPath, load := some id })
  else
    match aDstQ code with
    | n :: _ => s.setMe (c.qPush n { val := 0, gen := c.a.gen, held := c.onPath, load := some id })
    | [] => s

/-- A load of `w` bits, the runs `rs` of a peer's aperture, leaves through a window as a read request (20 R399). -/
def State.readPeer (s : State) (win pkg n : Nat) (rs : Pieces) (w ea : Nat) (code : Nat) (sx zf : Bool) (tag : BitVec 5) : Except Stop State := do
  need (!(rs.any fun r => s.me.owesWin 1 win pkg (apAddr n r.1) (apAddr n r.1 + r.2))) (.wait .free)
  need (!(s.me.a.copies.any fun k => (s.copyWrites k).any fun r => r.1 < ea + w && ea < r.1 + r.2)) (.wait .free)
  need (s.me.canSend win) (.wait .fabric)
  let id := s.me.stamp
  let dst : LoadDst := if code = 27 ∨ code = 28 then .wq (code - 27) else match aDstQ code with | q :: _ => .q q | [] => .areg code
  let l : Load := { id := id, dst := dst, ea := BitVec.ofNat 64 ea, word := s.me.a.ctl.pc, w := w, sx := sx, zf := zf, tag := tag, gen := s.me.a.gen }
  let s1 := s.updMe fun c => { c with stamp := c.stamp + 1, a := { c.a with loads := c.a.loads ++ [l] } }
  let m := s1.newMsg s.cur .read pkg n (memParts false rs 0) (.stream .a) 1 win (BitVec.ofNat 64 ea)
  let s2 := s1.post s.cur { m with load := id }
  match dst with
  | .areg _ => .ok (s2.noteWait .a .free)
  | _ => .ok ((s2.pushPending code tag id).advance .a)

/-- `lda` (R176): its tests, then its waits, then the data, which a replica may give (R308) (DESIGN CHOICE, log entry 6)
(DEDUCED, log entry 29) (DEDUCED, log entry 31). -/
def ldaBody (f : AiF) (s : State) : Except Stop State := do
  let w := widthOf f.wc
  let ea := s.aEa f
  need (!s.me.regLoad s.me.a.ctl.pc) (.wait .free)
  let (t, sw) ← s.target s.cur (.stream .a) .r true ea w
  feScope t (f.wait || f.clr) ea
  elemPlace t sw ea w
  let r := s.viewed t.local
  need (r.rolePieces s.cur s.job s.myPkg t.local .rd) (trAt .roleFault ea)
  let dq := aDstQ f.ad.toNat
  need (dq.all fun n => s.me.qFree n s.now) (.wait (.queue (dq.headD 0)))
  let data (ps : Pieces) : Except Stop State := do
    let p := r.psnPieces s.myPkg ps
    need (!p || f.zf || !dq.isEmpty) (trAt .poison ea)
    let v := if f.zf then r.rdPiecesZf s.myPkg ps else r.rdPieces s.myPkg ps
    let s0 := s.drawn ps
    let s1 := if f.zf && p then s0.aFlags fZF else s0
    .ok ((s1.usePages .a ea w).aDst f.ad (extend (f.b27 == 1) w v) (p && !f.zf))
  match t with
  | .own _ ps =>
    need (!s.me.footHits ps false) (.wait .free)
    need (!f.wait || s.allFull s.cur ps) (.wait (.fe (BitVec.ofNat 64 ea)))
    let s1 ← data ps
    .ok ((if f.clr then s1.emptyFe s.cur ps false else s1).advance .a)
  | .mem ps =>
    s.memClear ps false
    let s1 ← data ps
    .ok (s1.advance .a)
  | .peer win pkg n _ rs => s.readPeer win pkg n rs w ea f.ad.toNat (f.b27 == 1) f.zf 0
def execLda (f : AiF) (s : State) : Out := .next (aWord (!f.clr) (ldaBody f) s)

/-- The format of a float addend of a width (R176, R179). -/
def floatTag (w : Nat) : Nat := if w = 16 then 15 else if w = 32 then 16 else 17
/-- LDST_SCOPE, MISALIGN and ROLE_FAULT of an add into `n` lanes from an address (R176, R177, 13 R278, 20 R397) (DEDUCED, log entry 16). -/
def State.addTests (s : State) (t : Target) (n ea : Nat) : Except Stop Unit := do
  match t with
  | .own o _ =>
    need (inPart .scratch o 1 || inPart .acc o 1) (trAt .ldstScope ea)
    need (inPart .acc o 1) (trAt .roleFault ea)
    let st := s.laneStep s.cur o
    need (inPart .acc o (st * n)) (trAt .ldstScope ea)
    need ((o - accBase) % st == 0) (trAt .misalign ea)
    need (s.lanesAddOk s.cur s.job.rcd.ctx o st n) (trAt .roleFault ea)
  | .mem _ => .error (trAt .roleFault ea)
  | .peer _ _ _ o _ =>
    need (inPart .scratch o 1 || inPart .acc o (40 * n)) (trAt .ldstScope ea)
    need (!(inPart .acc o 1) || (o - accBase) % 40 == 0) (trAt .misalign ea)

/-- Every lane of an add through a window lies in its extent: lane i, counted in strides of one, as the source sees them (20 R395, R397). -/
def State.lanesInWindow (s : State) (ea n : Nat) : Except Stop Unit :=
  if winVa ≤ ea ∧ ea < winVaEnd then
    let x := tget {} s.me.fab.win ((ea - winVa) / 2 ^ 30)
    need ((ea - winVa) % 2 ^ 30 + 40 * n ≤ 128 * (x.extm1 + 1)) (trAt .windowFault ea)
  else .ok ()

/-- The value of a source operand of a store: it waits for its entry, and a poisoned one traps. -/
def State.storeSrc (s : State) (code : BitVec 5) : Except Stop W64 := do
  s.cSources (aSrcQ code.toNat)
  .ok (s.aSrc code)

/-- `sta` (R176). -/
def staBody (f : AiF) (s : State) : Except Stop State := do
  let w := widthOf f.wc
  let ea := s.aEa f
  let va := BitVec.ofNat 64 ea
  let qs := aSrcQ f.ad.toNat
  if f.add then do
    let (t, _) ← s.target s.cur (.stream .a) .add true ea 40
    s.addTests t 1 ea
    let x ← s.storeSrc f.ad
    let v := x.toNat % 2 ^ w
    let fmt := if f.b27 = 1 then floatTag w else 0
    match t with
    | .own o _ =>
      let st := s.laneStep s.cur o
      need (!s.me.footHit o (o + st) true) (.wait .free)
      let (s1, fl) := ((s.aPop f.pk qs).usePages .a ea 40).addLane s.cur o fmt w v false
      .ok ((s1.aFlags fl).advance .a)
    | .mem _ => .error (trAt .roleFault ea)
    | .peer win pkg n o _ =>
      need (s.me.canSend win) (.wait .fabric)
      let m := s.newMsg s.cur (if fmt = 0 then .addInt else .addFloat) pkg n [{ at_ := o, w := w, val := v }] (.stream .a) 1 win va
      .ok (((s.aPop f.pk qs).post s.cur { m with w := w, fmt := fmt, pin := f.ord }).advance .a)
  else do
    let (t, sw) ← s.target s.cur (.stream .a) .w true ea w
    elemPlace t sw ea w
    need (s.rolePieces s.cur s.job s.myPkg t.local .wr) (trAt .roleFault ea)
    let x ← s.storeSrc f.ad
    let v := x.toNat % 2 ^ w
    let s1 := (s.aPop f.pk qs).usePages .a ea w
    match t with
    | .own _ ps =>
      need (!s.me.footHits ps true) (.wait .free)
      .ok ((s1.wrPieces s.myPkg ps v false).advance .a)
    | .mem ps =>
      s.memClear ps true
      .ok ((s1.postMem s.cur ps v false (.stream .a) 1 va).advance .a)
    | .peer win pkg n _ rs =>
      need (s.me.canSend win) (.wait .fabric)
      .ok ((s1.postWin s.cur .write win pkg n (memParts false rs v) (.stream .a) 1 va f.ord).advance .a)
def execSta (f : AiF) (s : State) : Out := .next (aWord false (staBody f) s)

/-- LDST_SCOPE and MISALIGN of an access of 2,048 bits at a multiple of 128 (R163, R177). -/
def widePlace (t : Target) (regs : Bool) (ea : Nat) : Except Stop Unit := do
  match t with
  | .own o ps =>
    need (ps.all (offIn .scratch) || ps.all (offIn .acc) || (regs && inPart .regs o 2048 && o % 2048 == 0)) (trAt .ldstScope ea)
    need (o % 128 == 0) (trAt .misalign ea)
  | .mem _ => need (ea % 128 == 0) (trAt .misalign ea)
  | .peer _ _ _ o rs =>
    need ((rs.all fun r => inPart .scratch r.1 r.2) || (rs.all fun r => inPart .acc r.1 r.2) ||
      (regs && inPart .regs o 2048 && o % 2048 == 0)) (trAt .ldstScope ea)
    need (o % 128 == 0) (trAt .misalign ea)

/-- `ldv` (R177). -/
def ldvBody (f : AiF) (s : State) : Except Stop State := do
  let ea := s.aEa f
  let q := f.ad.toNat - 27
  let (t, _) ← s.target s.cur (.stream .a) .r true ea 2048
  feScope t (f.wait || f.clr) ea
  widePlace t false ea
  let r := s.viewed t.local
  need (r.rolePieces s.cur s.job s.myPkg t.local .rd) (trAt .roleFault ea)
  need (s.me.wqFree q s.now) (.wait (.queue (8 + q)))
  let data (ps : Pieces) : State :=
    let p := r.psnPieces s.myPkg ps
    let v := if f.zf then r.rdPiecesZf s.myPkg ps else r.rdPieces s.myPkg ps
    let s0 := s.drawn ps
    let s1 := (if f.zf && p then s0.aFlags fZF else s0).usePages .a ea 2048
    s1.updMe fun c => c.wqPush q { val := { bits := BitVec.ofNat 2048 v, tag := f.tag, psn := p && !f.zf },
                                   gen := c.a.gen, held := c.onPath, rdy := s.now + 2 }
  match t with
  | .own _ ps =>
    need (!s.me.footHits ps false) (.wait .free)
    need (!f.wait || s.allFull s.cur ps) (.wait (.fe (BitVec.ofNat 64 ea)))
    .ok ((if f.clr then (data ps).emptyFe s.cur ps false else data ps).advance .a)
  | .mem ps =>
    s.memClear ps false
    .ok ((data ps).advance .a)
  | .peer win pkg n _ rs => s.readPeer win pkg n rs 2048 ea f.ad.toNat false f.zf f.tag
def execLdv (f : AiF) (s : State) : Out := .next (aWord (!f.clr) (ldvBody f) s)

/-- The elements of a vector value by its tag. -/
def elemsOf (v : VVal) : List Nat :=
  (List.range (tagLanes v.tag.toNat)).map fun i => v.bits.toNat / 2 ^ (tagWidth v.tag.toNat * i) % 2 ^ tagWidth v.tag.toNat
/-- The addend format of a tag: integers by their width, else the tag (DEDUCED, log entry 28). -/
def addFmt (t : Nat) : Nat := if t = 1 ∨ 9 ≤ t then t else 0

/-- A word of two messages sends both in one act, so that a SYNC_STALL leaves it without effect (00 R9, 20 R400): it waits for
room for both. A live window of one message holds the second back until the first is answered; then the first has left and
the word, which has issued, waits without limit. The two halves of a register write are answered together (R163), and only
leave together (DEDUCED, log entry 17). -/
def Core.canSend2 (c : Core) (win : Nat) (regs : Bool) : Bool :=
  let x := c.winAt win
  x.out + 2 ≤ x.lw || (!regs && x.lw ≤ 1 && x.out = 0)
/-- The two messages `m0` and `m1` of the word at the A counter leave; `done` ends the word. -/
def State.sendTwo (s : State) (win : Nat) (regs : Bool) (m0 m1 : Msg) (done : State → State) : Except Stop State := do
  need (s.me.canSend2 win regs) (.wait .fabric)
  let s1 := s.post s.cur m0
  if s1.me.canSend win then .ok ((done (s1.post s.cur m1)).advance .a)
  else .ok ((s1.updMe fun c => { c with a := { c.a with half := some (c.a.ctl.pc, m1) } }).noteWait .a .free)
/-- The second message of a word whose first has left, and with it the end of the word: its tests are behind it (00 R9). -/
def State.sendRest (s : State) (w : W64) (m : Msg) (done : State → State) : Except Stop State := do
  need (w == s.me.a.ctl.pc && s.me.canSend m.win) (.wait .free)
  .ok ((done ((s.post s.cur m).updMe fun c => { c with a := { c.a with half := none } })).advance .a)
/-- The first `n` bits of some runs, and the rest. -/
def splitRuns (n : Nat) : Pieces → Pieces × Pieces
  | [] => ([], [])
  | (a, l) :: r =>
    if n = 0 then ([], (a, l) :: r)
    else if l ≤ n then let (x, y) := splitRuns (n - l) r; ((a, l) :: x, y)
    else ([(a, n)], (a + n, l - n) :: r)
/-- A write of 2,048 bits through a window: its messages of 13 and 3 granules (R163, 20 R392, R396). -/
def State.sendWide (s : State) (win pkg n o : Nat) (rs : Pieces) (v : VVal) (va : W64) (pin : Bool) (done : State → State) : Except Stop State :=
  let regs := inPart .regs o 1
  let x := v.bits.toNat
  let (r0, r1) := splitRuns 1664 rs
  let msg (parts : List Part) (i : Nat) : Msg :=
    let m := s.newMsg s.cur .write pkg n parts (.stream .a) 1 win (va + BitVec.ofNat 64 (128 * i))
    { m with pin := pin || regs, pair := if regs then some s.ids else none }
  s.sendTwo win regs (msg (memParts v.psn r0 x) 0) (msg (memParts v.psn r1 (x / 2 ^ 1664)) 13) done
/-- An add of the elements of a vector value through a window: one message, or two where they fill more than 13 granules
(20 R392, Table 20.2). -/
def State.sendAdds (s : State) (win pkg n o tag : Nat) (es : List Nat) (va : W64) (pin : Bool) (done : State → State) : Except Stop State :=
  let w := tagWidth tag
  let k := 1664 / w
  let msg (l : List Nat) (skip : Nat) : Msg :=
    let m := s.newMsg s.cur (if addFmt tag = 0 then .addInt else .addFloat) pkg n (l.zipIdx.map fun e => { at_ := o + 40 * (skip + e.2), w := w, val := e.1 })
      (.stream .a) 1 win (va + BitVec.ofNat 64 (40 * skip))
    { m with w := w, fmt := addFmt tag, pin := pin, skip := skip }
  if es.length ≤ k then do
    need (s.me.canSend win) (.wait .fabric)
    .ok ((done (s.post s.cur (msg es 0))).advance .a)
  else s.sendTwo win false (msg (es.take k) 0) (msg (es.drop k) k) done

/-- ATOMIC_FAULT of a target ranks after translation and before every other execution cause (20 R411). -/
def atomicFirst (r : Except Stop (Target × Bool)) : Except Stop Unit :=
  match r with
  | .error (.walk va) => .error (.walk va)
  | .error (.trap t) => if t.cause = .atomicFault then .error (.trap t) else .ok ()
  | _ => .ok ()

/-- `stv` (R177). Of an entry that has not come only the causes that rest on the address are met before the wait for it (15 R332). -/
def stvBody (f : AiF) (s : State) : Except Stop State := do
  let ea := s.aEa f
  let va := BitVec.ofNat 64 ea
  let q := f.ad.toNat - 25
  let h := s.me.wqHead q s.now
  let v := (h.map (·.val)).getD {}
  let pop (t : State) : State := if f.pk == 1 then t else t.updMe fun c => c.wqPop q s.now
  match s.me.a.half with
  | some (w, m) => s.sendRest w m pop
  | none =>
  if f.add then do
    let es := elemsOf v
    atomicFirst (s.target s.cur (.stream .a) .add true ea 40)
    need (h.isNone || v.tag != 0) (tr .tagMismatch)
    need (!v.psn) (tr .poison)
    let tag := v.tag.toNat
    let lanes := if h.isNone then 1 else es.length
    let (t, _) ← s.target s.cur (.stream .a) .add true ea 40
    s.lanesInWindow ea lanes
    s.addTests t lanes ea
    need h.isSome (.wait (.queue (8 + q)))
    match t with
    | .own o _ =>
      let st := s.laneStep s.cur o
      need (!s.me.footHit o (o + st * es.length) true) (.wait .free)
      let (s1, fl) := ((pop s).usePages .a ea 40).addLanes s.cur o st (addFmt tag) (tagWidth tag) es
      .ok ((s1.aFlags fl).advance .a)
    | .mem _ => .error (trAt .roleFault ea)
    | .peer win pkg n o _ => s.sendAdds win pkg n o tag es va f.ord pop
  else do
    let (t, _) ← s.target s.cur (.stream .a) .w true ea 2048
    widePlace t true ea
    need (match t with | .own o ps => inPart .regs o 2048 || s.rolePieces s.cur s.job s.myPkg ps .wr
                       | x => s.rolePieces s.cur s.job s.myPkg x.local .wr) (trAt .roleFault ea)
    need h.isSome (.wait (.queue (8 + q)))
    let s1 := (pop s).usePages .a ea 2048
    match t with
    | .own o ps =>
      need (!s.me.footHits ps true) (.wait .free)
      if inPart .regs o 2048 then
        .ok ((s1.updMe fun c => c.setWholeV ((o - regBase) / 2048) v.bits v.psn).advance .a)
      else .ok ((s1.wrPieces s.myPkg ps v.bits.toNat v.psn).advance .a)
    | .mem ps =>
      s.memClear ps true
      .ok ((s1.postMem s.cur ps v.bits.toNat v.psn (.stream .a) 1 va).advance .a)
    | .peer win pkg n o rs => s.sendWide win pkg n o rs v va f.ord pop
def execStv (f : AiF) (s : State) : Out := .next (aWord false (stvBody f) s)

/-! Full/empty words and prefetch (R188, R189). -/

/-- The own scratchpad granules of a full/empty word, each where its page puts it (R167) (DEDUCED, log entry 32). -/
def State.feRange (s : State) (f : AiF) (p : Perm) : Except Stop Pieces := do
  let ea := s.aEa f
  let (t, _) ← s.target s.cur (.stream .a) p false ea (128 * f.n)
  match t with
  | .own o ps =>
    need (ps.all (pieceIn (numOf s.cur) .scratch)) (trAt .ldstScope ea)
    need (o % 128 == 0) (trAt .misalign ea)
    .ok ps
  | _ => .error (trAt .ldstScope ea)
/-- `fewait` (R188). -/
def execFewait (f : AiF) (s : State) : Out :=
  .next (aWord false (fun s => do
    let ps ← s.feRange f .r
    need (s.allFull s.cur ps) (.wait (.fe (BitVec.ofNat 64 (s.aEa f))))
    let s1 := s.usePages .a (s.aEa f) (128 * f.n)
    .ok ((if f.clr then s1.emptyFe s.cur ps false else s1).advance .a)) s)
/-- `feset` (R188). -/
def execFeset (f : AiF) (s : State) : Out :=
  .next (aWord false (fun s => do
    let ps ← s.feRange f .w
    .ok (((s.usePages .a (s.aEa f) (128 * f.n)).emptyFe s.cur ps true).advance .a)) s)
/-- `feclr` (R188). -/
def execFeclr (f : AiF) (s : State) : Out :=
  .next (aWord false (fun s => do
    let ps ← s.feRange f .w
    .ok (((s.usePages .a (s.aEa f) (128 * f.n)).emptyFe s.cur ps false).advance .a)) s)
/-- `pf` (R189): no visible effect. -/
def execPf (_f : AiF) (s : State) : Out := .next (aWord true (fun s => .ok (s.advance .a)) s)

/-! LOAD_RETURN (R178, 20 R399). -/

/-- Records the fault of a load or copy (R181, 20 R399): a second one before VALID is cleared is not recorded. -/
def Core.recordCf (c : Core) (addr : W64) (t : Trap) (ix : Nat) : Core :=
  if c.a.cfValid then c
  else { c with a := { c.a with cfaddr := addr, cfCause := BitVec.ofNat 8 t.cause.code, cfValid := true, cfIndex := BitVec.ofNat 32 ix } }

/-- Fills the queue entry that waits for a load. -/
def Core.fillEntry (c : Core) (l : Load) (v : Nat) (psn : Bool) (now : Nat) : Core :=
  match l.dst with
  | .q n =>
    let x := c.queue n
    let g (e : QEntry) : QEntry :=
      if e.load == some l.id then { e with val := extend l.sx l.w v, psn := psn, load := none, rdy := now + 2 } else e
    { c with q := tset {} c.q n { x with ents := x.ents.map g } }
  | .wq n =>
    let x := c.wqueue n
    let g (e : WEntry) : WEntry :=
      if e.load == some l.id then
        { e with val := { bits := BitVec.ofNat 2048 v, tag := l.tag, psn := psn }, load := none, rdy := now + 2 }
      else e
    { c with wq := tset {} c.wq n { x with ents := x.ents.map g } }
  | _ => c

/-- LOAD_RETURN of the load `ev.id`: the data fill the register or the entry, or the home's fault is taken, that of a load on a run-ahead
path once the path is confirmed (R174). A load into a register whose word the stream has left (a restart, a handler that moved on) is dropped. -/
def execLoadReturn (s : State) : Out :=
  let c := s.me
  match c.a.loads.find? (·.id == s.ev.id) with
  | none => .next s
  | some l =>
    let drop (t : State) : State := t.updMe fun c => { c with a := { c.a with loads := c.a.loads.filter (·.id != l.id) } }
    match l.ret with
    | none => .next s
    | some (v0, vz, psn) =>
      let zero := l.zf && psn
      let v := if zero then vz else v0
      let flag (t : State) : State := if zero then t.updMe fun c => c.aFlagsAt l.gen fZF else t
      match l.dst with
      | .areg code =>
        if c.a.ctl.stopped || c.dead then .next s
        else if c.a.ctl.pc ≠ l.word then .next (drop s)
        else match l.bad with
          | some t => if c.onPath then .next s else .next ((drop s).takeTrap .a t)
          | none =>
            if psn && !l.zf && c.onPath then .next s
            else if psn && !l.zf then .next ((drop s).takeTrap .a { cause := .poison, info := l.ea })
            else .next (flag (((drop s).updMe fun c => c.setAreg code (extend l.sx l.w v)).advance .a))
      | _ =>
        match l.bad with
        | some t =>
          if c.a.ckpts.any (·.gen == l.gen) then .next s else
          let s1 := (drop s).updMe fun c => (c.fillEntry l 0 true s.now).recordCf l.word t 0
          .next (s1.deferTrap s.cur t)
        | none => .next (flag ((drop s).updMe fun c => c.fillEntry l v (psn && !l.zf) s.now))

end Sys2Proof.Machine
end

