-- ==== Sys2Proof/Machine/Copy.lean ====
section
/-!
DEFINITION. The copy engine (07 R160, R179 to R185, 20 R396, R407): issuing a copy, moving its elements one act at a time,
its stop at a fault and its completion.
-/
namespace Sys2Proof.Machine
open Sys2Proof

/-- Elements of a copy: rows times columns. -/
def Copy.total (x : Copy) : Nat := x.n * x.m
/-- Element `e` (in the order of the form's loop) and its place in the destination, counted in elements. -/
def Copy.dstIx (x : Copy) (e : Nat) : Nat := if x.kind = .cpt then e % x.m * x.n + e / x.m else e
def Copy.ofDstIx (x : Copy) (l : Nat) : Nat := if x.kind = .cpt then l % x.n * x.m + l / x.n else l
def Copy.isDone (x : Copy) (e : Nat) : Bool := tget false x.done e
/-- Every element below `e` is done. -/
def Copy.below (x : Copy) (e : Nat) : Bool := (x.done.filter fun p => p.1 < e).length == e
def Copy.allDone (x : Copy) : Bool := x.done.length == x.total
/-- The index that CFINFO gives for element `e` (Table 7.4): the row for `cpg` and `cps`. -/
def Copy.faultIx (x : Copy) (e : Nat) : Nat := if x.kind = .cpg ∨ x.kind = .cps then e / x.m else e

def Core.copy? (c : Core) (id : Nat) : Option Copy := c.a.copies.find? (·.id == id)
def Core.setCopy (c : Core) (x : Copy) : Core :=
  { c with a := { c.a with copies := c.a.copies.map fun y => if y.id == x.id then x else y } }
/-- A copy leaves the engine and frees its footprint entries (R184). -/
def Core.dropCopy (c : Core) (id : Nat) : Core :=
  { c with a := { c.a with copies := c.a.copies.filter (·.id != id) }, feet := c.feet.filter fun f => !(f.copy && f.id == id) }
/-- What its signal releases: the words of its stream up to its own (R182, 13 R305); a send stands for no A word. -/
def Copy.seen (x : Copy) : Nat := if x.send then 0 else x.id
/-- The source of R402 that a copy sends for. -/
def Copy.srcNo (x : Copy) : Nat := if x.send then 4 else 1

/-! Issue. -/

/-- The offset that the class rules test in a part of a range: in an aperture the aperture offset, else the virtual address (R165). -/
def Run.off (r : Run) : Nat := if isAp r.pa then r.pa % 2 ^ 30 else r.va
/-- A triple class (04 Table 4.2). -/
def isTriple (w : Nat) : Bool := w = 3 || w = 6 || w = 12 || w = 24 || w = 48
/-- The elements of width `w` from a base lie as R165 and R167 want them, `k` of them: each page's own offset is tested, where it swizzles
a triple class element by element, and in a swizzled page none crosses a granule. Through a window the target offset counts (20 R397); a
place without a page is tested by its address. -/
def State.rowPlaced (s : State) (a k w : Nat) : Bool :=
  if winVa ≤ a ∧ a < winVaEnd then (128 * (s.me.winAt ((a - winVa) / 2 ^ 30)).tb + (a - winVa) % 2 ^ 30) % w == 0
  else ((s.peek s.cur (.stream .a) a).isSome || a % w == 0) &&
    (s.runs s.cur (.stream .a) a (k * w)).all fun r =>
      let d := r.va - a
      if r.swz == 0 || !isTriple w then r.off % w == d % w
      else (List.range (r.len / w + 2)).all fun i =>
        let b := (d / w + i) * w
        b < d || d + r.len ≤ b || (let o := r.bit (b - d); o % 128 + w ≤ 128 && (if isAp o then o % 2 ^ 30 else r.va + (b - d)) % w == 0)
/-- No base or pitch places an element against R165 or R167 (R180); rows by an index are tested as they are reached (R181).
Whether an add names a lane is a test of the element's own access (R176). -/
def State.copyPlaced (s : State) (x : Copy) : Bool :=
  let src := x.src.toNat
  x.total == 0 ||
  ((x.add || s.rowPlaced x.dst.toNat (if x.kind = .cps then 1 else x.total) x.w) &&
   (match x.kind with
    | .cpz => true
    -- every row of a triple class is tested where it lies; of the others the pitch says it of all
    | .cpt => (x.n ≤ 1 || isTriple x.w || x.pitch.toNat % x.w == 0) &&
        (List.range (if isTriple x.w then x.n else 1)).all fun i => s.rowPlaced (itrunc (src + i * x.pitch.toNat) 64) x.m x.w
    | .cpg => s.rowPlaced src 1 x.w
    | _ => s.rowPlaced src x.total x.w) &&
   ((x.kind != .cpg && x.kind != .cps) || x.fromQ || s.rowPlaced x.idx.toNat x.n (if x.ix64 then 64 else 32)))
/-- COPY_RANGE of R180. -/
def State.copyRange (s : State) (x : Copy) : Bool :=
  x.n < 2 ^ 32 && x.n * x.m * x.w ≤ 2 ^ 30 && x.m * x.w ≤ 2 ^ 20 && s.copyPlaced x

/-- A region of aperture offsets rounded out to 4,096 bits, or to rows of 8,192 bits through a swizzled page (R183, 13 R303). -/
def roundOut (lo hi : Nat) (sw : Bool) : Nat × Nat :=
  let u := if sw then 8192 else 4096
  (lo / u * u, (hi + u - 1) / u * u)
/-- The least region that holds two. -/
def hull : Option (Nat × Nat) → Nat × Nat → Option (Nat × Nat)
  | none, q => some q
  | some p, q => some (min p.1 q.1, max p.2 q.2)
/-- The part of the own aperture that a side of a copy lies in: every page of its range, each rounded out by its own mode (R183, 13 R302, R303). -/
def State.ownSide (s : State) (a n : Nat) : Option (Nat × Nat) :=
  (s.runs s.cur (.stream .a) a n).foldl (fun h r =>
    match place r.pa with
    | .ap c o => if c = numOf s.cur then hull h (roundOut o (o + r.len) (r.swz != 0)) else h
    | _ => h) none
/-- The own aperture's offset of a base, and whether its page is swizzled. -/
def State.ownBase (s : State) (a : Nat) : Option (Nat × Bool) :=
  (s.peek s.cur (.stream .a) a).bind fun q => match place q.1 with
    | .ap c o => if c = numOf s.cur then some (o, q.2 != 0) else none
    | _ => none
/-- From a base in the own aperture to the end of its part. -/
def State.ownToEnd (s : State) (a : Nat) : Option (Nat × Nat) :=
  (s.ownBase a).map fun q => roundOut q.1 (match apPart q.1 with | some p => p.stop | none => q.1 + 4096) q.2
/-- The lanes of an add in the own aperture. -/
def State.ownLanes (s : State) (a n : Nat) : Option (Nat × Nat) :=
  (s.ownBase a).map fun q => roundOut q.1 (q.1 + s.laneStep s.cur q.1 * n) q.2

/-- The footprint entries of a copy (R183): rows by an index have no bound at issue (DEDUCED, log entry 33). -/
def State.copyFeet (s : State) (x : Copy) : List Foot :=
  if x.total = 0 then [] else
  let foot (wr : Bool) (r : Option (Nat × Nat)) : List Foot :=
    match r with | some (lo, hi) => [{ age := x.id, lo := lo, hi := hi, wr := wr, copy := true, id := x.id }] | none => []
  let d := x.dst.toNat
  let r := x.src.toNat
  foot true (if x.kind = .cps then s.ownToEnd d else if x.add then s.ownLanes d (if x.kind = .cpg then x.m else x.total) else s.ownSide d (x.total * x.w)) ++
  foot false (match x.kind with
    | .cpz => none
    | .cpg => s.ownToEnd r
    | .cpt => s.ownSide r ((x.n - 1) * x.pitch.toNat + x.m * x.w)
    | _ => s.ownSide r (x.total * x.w)) ++
  foot false (if (x.kind = .cpg ∨ x.kind = .cps) ∧ !x.fromQ then s.ownSide x.idx.toNat (x.n * if x.ix64 then 64 else 32) else none)

/-- The head of the M queue waits for a checker entry, which it takes before a copy (R185, Table 7.11). -/
def Core.headWants (c : Core) : Bool :=
  match c.m.queue with
  | e :: _ => !e.foot && (match mHead e.instr with | some h => h.fpx != 0 | none => false)
  | [] => false

/-- Issuing a copy: its tests, a slot, its footprint entries, of which the M head has the first free one; a count of 0 completes at
once (R160, R179, R180, R185). -/
def State.issueCopy (s : State) (x0 : Copy) : Except Stop State := do
  let x := { x0 with id := s.me.stamp }
  need (s.copyRange x) (tr .copyRange)
  if x.total = 0 then do
    need (!x.sen || s.me.semMay x.sid.toNat 2 s.now) (.wait .turn)
    .ok (if x.sen then s.updMe fun c => c.signal x.sid.toNat 1 s.now x.seen else s)
  else do
    need (s.me.a.copies.length < 8) (.wait .free)
    let fs := s.copyFeet x
    need (fs.isEmpty || s.me.feet.length + fs.length + (if s.me.headWants then 1 else 0) ≤ 16) (.wait .free)
    .ok (s.updMe fun c => { c with feet := c.feet ++ fs, stamp := c.stamp + 1, a := { c.a with copies := c.a.copies ++ [x] } })

/-- The fields of a copy word that its forms share (Tables 7.7, 7.10). -/
def copyOf (f : ArF) (k : CopyKind) (s : State) : Copy :=
  { id := 0, kind := k, word := s.me.a.ctl.pc, dst := s.me.areg f.ad.toNat, src := s.me.areg f.aa.toNat, n := 0, w := widthOf f.wc,
    ix64 := f.ix == 1, fl := f.fl == 1, wait := f.wait, clr := f.clr, zf := f.zf, ord := f.ord, add := f.add,
    sen := f.sen == 1, sid := f.sid }

/-- `cp` (R179). -/
def execCp (f : ArF) (s : State) : Out :=
  .next (aWord false (fun s => do
    let t ← s.issueCopy { copyOf f .cp s with n := (s.me.areg f.ab.toNat).toNat }
    .ok (t.advance .a)) s)
/-- `cpz` (R179): the fill value may come from a queue. -/
def execCpz (f : ArF) (s : State) : Out :=
  .next (aWord false (fun s => do
    let qs := aSrcQ f.aa.toNat
    s.cSources qs
    let t ← s.issueCopy { copyOf f .cpz s with src := 0, imm := s.aSrc f.aa, n := (s.me.areg f.ab.toNat).toNat }
    .ok ((t.aPop f.pk qs).advance .a)) s)
/-- `cpt` (R179): rows of ac bits of pitch. -/
def execCpt (f : ArF) (s : State) : Out :=
  .next (aWord false (fun s => do
    let t ← s.issueCopy { copyOf f .cpt s with
      n := (s.me.areg f.ab.toNat).toNat, m := f.n13.toNat + 1, pitch := s.me.areg f.ac.toNat }
    .ok (t.advance .a)) s)
/-- `cpg` (R179): the index list, or one index from a queue. -/
def execCpg (f : ArF) (s : State) : Out :=
  .next (aWord false (fun s => do
    let qs := aSrcQ f.ab.toNat
    s.cSources qs
    let q := !qs.isEmpty
    let t ← s.issueCopy { copyOf f .cpg s with
      m := f.n13.toNat + 1, fromQ := q, idx := s.aSrc f.ab, n := if q then 1 else (s.me.areg f.ac.toNat).toNat }
    .ok ((t.aPop f.pk qs).advance .a)) s)
/-- `cps` (R179). -/
def execCps (f : ArF) (s : State) : Out :=
  .next (aWord false (fun s => do
    let t ← s.issueCopy { copyOf f .cps s with
      m := f.n13.toNat + 1, idx := s.me.areg f.ab.toNat, n := (s.me.areg f.ac.toNat).toNat }
    .ok (t.advance .a)) s)

/-! Moving elements. -/

/-- Why an element does not move now: a stop of the element, or data that a read request must bring first. -/
inductive CStop where
  | stop (e : Stop)
  | ask (key win pkg n : Nat) (rs : Pieces) (ea : Nat)
deriving DecidableEq, Repr, Inhabited
def cneed (b : Bool) (e : Stop) : Except CStop Unit := if b then .ok () else .error (.stop e)
def lift {α : Type} (r : Except Stop α) : Except CStop α := match r with | .ok a => .ok a | .error e => .error (.stop e)

/-- The keys of data that come back through a window: elements, and indices beyond them. -/
def ixKey (k : Nat) : Nat := 2 ^ 40 + k

/-- `w` bits that a copy reads under the tests of a single access (R179), of which a replica may show an ended period (13 R308):
the bits, those with poisoned granules as zeros, and whether one was. -/
def State.copyRead (s : State) (x : Copy) (key ea w : Nat) (fe : Bool) : Except CStop (Nat × Nat × Bool) := do
  let (t, sw) ← lift (s.target s.cur (.copy x.id) .r true ea w)
  lift (feScope t (fe && (x.wait || x.clr)) ea)
  lift (elemPlace t sw ea w)
  let r := s.viewed t.local
  cneed (r.rolePieces s.cur s.job s.myPkg t.local .rd) (trAt .roleFault ea)
  match t with
  | .own _ ps =>
    cneed (!(fe && x.wait) || s.allFull s.cur ps) (.wait (.fe (BitVec.ofNat 64 ea)))
    .ok (s.rdPieces s.myPkg ps, s.rdPiecesZf s.myPkg ps, s.psnPieces s.myPkg ps)
  | .mem ps =>
    cneed (!(ps.any fun p => s.me.owed.any fun q => q.src == 1 && q.stamp < x.id && q.pkg == s.myPkg && q.lo < p.1 + p.2 && p.1 < q.hi)) (.wait .free)
    .ok (r.rdPieces s.myPkg ps, r.rdPiecesZf s.myPkg ps, r.psnPieces s.myPkg ps)
  | .peer win pkg n _ rs =>
    match tget none x.bad key, tget none x.got key with
    | some t, _ => .error (.stop (.trap t))
    | none, some (v, p) => .ok (v, v, p)
    | none, none => .error (.ask key win pkg n rs ea)

/-- The index of row k (R179): a poisoned one stops the copy. -/
def State.copyIndex (s : State) (x : Copy) (k : Nat) : Except CStop Nat := do
  if x.fromQ then .ok x.idx.toNat else
  let iw : Nat := if x.ix64 then 64 else 32
  let ea := itrunc (x.idx.toNat + k * iw) 64
  let (v, _, p) ← s.copyRead x (ixKey k) ea iw false
  cneed (!p) (trAt .poison ea)
  .ok v

/-- The address that element `e` is read from. -/
def State.copySrc (s : State) (x : Copy) (e : Nat) : Except CStop Nat := do
  match x.kind with
  | .cp | .cpz => .ok (itrunc (x.src.toNat + e * x.w) 64)
  | .cpt => .ok (itrunc (x.src.toNat + e / x.m * x.pitch.toNat + e % x.m * x.w) 64)
  | .cpg =>
    let i ← s.copyIndex x (e / x.m)
    .ok (itrunc (x.src.toNat + (i * x.m + e % x.m) * x.w) 64)
  | .cps => .ok (itrunc (x.src.toNat + e * x.w) 64)
/-- The address that element `e` is written to; with `.add`, the lane it joins is counted by `copyLane`. -/
def State.copyDst (s : State) (x : Copy) (e : Nat) : Except CStop Nat := do
  match x.kind with
  | .cps =>
    let i ← s.copyIndex x (e / x.m)
    .ok (itrunc (x.dst.toNat + (i * x.m + e % x.m) * x.w) 64)
  | _ => .ok (itrunc (x.dst.toNat + x.dstIx e * x.w) 64)
/-- The lane, counted from the one ad names, that element `e` joins. -/
def Copy.lane (x : Copy) (e : Nat) : Nat := if x.kind = .cpg then e % x.m else e

/-- The value of element `e`: a fill, or the bits read, with poisoned granules as zeros under `.zf`. -/
def State.copyGet (s : State) (x : Copy) (e : Nat) : Except CStop (Nat × Bool × Bool) := do
  if x.kind = .cpz then .ok (x.imm.toNat % 2 ^ x.w, false, false) else
  let a ← s.copySrc x e
  let (v, vz, p) ← s.copyRead x e a x.w true
  .ok (if x.zf then vz else v, p && !x.zf, p && x.zf)

/-- Where element `e` goes, and its tests there (R179, R181). A register window takes a whole `cp` of 2,048 bits (R163)
(DEDUCED, log entry 35). -/
def State.copyPut (s : State) (x : Copy) (e : Nat) : Except CStop Target := do
  if x.add then
    let a := x.dst.toNat
    let (t, _) ← lift (s.target s.cur (.copy x.id) .add true a 40)
    match t with
    | .own o ps =>
      let o' := o + s.laneStep s.cur o * x.lane e
      lift (s.addTests (.own o' ps) 1 a)
      .ok (.own o' ps)
    | .mem _ => .error (.stop (trAt .roleFault a))
    | .peer w p n o _ =>
      let o' := o + 40 * x.lane e
      let t' : Target := .peer w p n o' [(o', 40)]
      lift (s.lanesInWindow a (x.lane e + 1))
      lift (s.addTests t' 1 a)
      .ok t'
  else
    let a ← s.copyDst x e
    let (t, sw) ← lift (s.target s.cur (.copy x.id) .w true a x.w)
    let whole (o : Nat) : Bool :=
      let b := o - x.dstIx e * x.w
      x.kind == .cp && x.total * x.w == 2048 && inPart .regs b 2048 && b % 2048 == 0
    match t with
    | .own o _ => if whole o then .ok t else do
        lift (elemPlace t sw a x.w)
        cneed (s.rolePieces s.cur s.job s.myPkg t.local .wr) (trAt .roleFault a)
        .ok t
    | .peer _ _ _ o _ => if whole o then .ok t else do
        lift (elemPlace t sw a x.w)
        .ok t
    | .mem ps => do
        lift (elemPlace t sw a x.w)
        cneed (s.rolePieces s.cur s.job s.myPkg ps .wr) (trAt .roleFault a)
        cneed (!(ps.any fun p => s.me.owed.any fun q => q.src == 1 && q.stamp < x.id && q.pkg == s.myPkg && q.lo < p.1 + p.2 && p.1 < q.hi)) (.wait .free)
        .ok t

/-- The elements of the message that takes element `e`, as destination places lo to hi - 1 (20 R392, R396): whole granules
are grouped by 13, or spans of three by 4, and the granules or spans at the ends that are written in part stand alone. -/
def msgRange (d t w b : Nat) : Nat × Nat :=
  let u := if w = 3 ∨ w = 6 ∨ w = 12 ∨ w = 24 ∨ w = 48 then 384 else 128
  let g := (if u = 384 then 4 else 13) * u
  let first := min (d + t) ((d + u - 1) / u * u)
  let last := max first ((d + t) / u * u)
  let a := d + b
  if a < first then (0, first - d)
  else if last ≤ a then (last - d, t)
  else
    let c := (a - first) / g
    (first + c * g - d, min (first + (c + 1) * g) last - d)
/-- The elements (destination places) that leave together with element `e` towards a peer at offset `o`; of the offset of the first only
its place in a granule or span counts. -/
def Copy.group (x : Copy) (e o : Nat) : Nat × Nat :=
  let l := x.dstIx e
  if x.add then
    let k := 1664 / x.w
    let row := if x.kind = .cpg then e / x.m * x.m else 0
    let len := if x.kind = .cpg then x.m else x.total
    let c := (l - row) / k
    (row + c * k, row + min ((c + 1) * k) len)
  else
    let row := if x.kind = .cps then e / x.m * x.m else 0
    let len := if x.kind = .cps then x.m else x.total
    let b := (l - row) * x.w
    let (lo, hi) := msgRange (o + 384 * 2 ^ 40 - b) (len * x.w) x.w b
    (row + lo / x.w, row + hi / x.w)

/-- The entry belongs to the head of the M queue, which waits for a semaphore that the copy signals: the copy passes it, as in the trace
of 12 Table 12.6 (DEDUCED, log entry 84). -/
def Core.headAwaits (c : Core) (g : Foot) (x : Copy) : Bool :=
  !g.copy && x.sen && match c.m.queue.head? with
  | some e => e.id == g.id && match mHead e.instr with
    | some h => h.wid == x.sid && c.semAt h.wid.toNat < h.wcnt.toNat
    | none => false
  | none => false

/-- The copy has no older conflict: its footprint entries (R184), its bits of memory against older copies (R178), and what it reads through
a window against the writes that older copies of its source send through it (20 R399). -/
def State.copyClear (s : State) (x : Copy) : Bool :=
  let c := s.me
  let mine := c.feet.filter fun f => f.copy && f.id == x.id
  (mine.all fun f => !(c.feet.any fun g => g.age < f.age && !(g.copy && g.id == x.id) && !(c.headAwaits g x) && g.lo < f.hi && f.lo < g.hi && (g.wr || f.wr))) &&
  let mem (z : Copy) (l : List (Nat × Nat)) : List (Nat × Nat) := (s.copySpans z l).filter fun p => !isAp p.1
  let far (z : Copy) (l : List (Nat × Nat)) : List Reach := ((l.map (s.reach s.cur (.copy z.id))).flatten).filter (·.win ≤ 16)
  (c.a.copies.all fun y => x.id ≤ y.id ||
    !((y.srcNo == x.srcNo && (far y (s.copyWrites y)).any fun p => (far x (s.copyReads x)).any fun q => p.win == q.win && p.meets q) ||
      spansMeet (mem y (s.copyWrites y)) (mem x (s.copyReads x ++ s.copyWrites x)) ||
      spansMeet (mem y (s.copyReads y)) (mem x (s.copyWrites x))))

/-- The addend format of an add by a copy (R179). -/
def Copy.fmt (x : Copy) : Nat := if x.fl then floatTag x.w else 0

/-- Marks element `e` done. -/
def Copy.mark (x : Copy) (e : Nat) : Copy := { x with done := tset false x.done e true, feSince := none }

/-- Element `e` as it moves: its bits with their marks, and its place. ATOMIC_FAULT of an add, and the walk that finds it, come first, then
the source, the destination, a poisoned addend (R181, R190, 20 R411). -/
def State.copyElem (s : State) (x : Copy) (e : Nat) : Except CStop ((Nat × Bool × Bool) × Target) :=
  let put := s.copyPut x e
  let rest : Except CStop ((Nat × Bool × Bool) × Target) := do
    let v ← s.copyGet x e
    let t ← put
    cneed (!(x.add && v.2.1)) (trAt .poison x.src.toNat)
    .ok (v, t)
  match put with
  | .error (.stop (.walk va)) => if x.add then .error (.stop (.walk va)) else rest
  | .error (.stop (.trap t)) => if t.cause = .atomicFault then .error (.stop (.trap t)) else rest
  | _ => rest
/-- What element `e` stops at, if it does. -/
def State.copyFault (s : State) (x : Copy) (e : Nat) : Option CStop := match s.copyElem x e with | .error z => some z | .ok _ => none
/-- A stop that may last: a fault, or a wait on a full/empty bit. The others are on their way to their end. -/
def CStop.lasting : CStop → Bool
  | .stop (.trap _) => true
  | .stop (.wait (.fe _)) => true
  | _ => false
/-- The copy replaces a register whole, so none of its elements is done before the last (R163). -/
def State.toRegs (s : State) (x : Copy) : Bool :=
  !x.add && match s.copyPut x 0 with
  | .ok (.own o _) => inPart .regs o 1
  | .ok (.peer _ _ _ o _) => inPart .regs o 1
  | _ => false
/-- A copy can stop at element `e`: every element below is done or, towards a register, meets nothing. -/
def State.reached (s : State) (x : Copy) (e : Nat) : Bool :=
  if s.toRegs x then (List.range e).all fun i => (s.copyFault x i).isNone else x.below e

/-- An element that is ready to leave: its value, its mark, whether `.zf` took bits, and the runs of its place in a peer's aperture. -/
structure CElem where
  e   : Nat
  val : Nat
  psn : Bool
  zf  : Bool
  rs  : Pieces
deriving DecidableEq, Repr, Inhabited
/-- The elements from destination place `l` on, up to `n` of them and up to one that is done, and what the next one stops at. -/
def State.gather (s : State) (x : Copy) : Nat → Nat → List CElem × Option CStop
  | 0, _ => ([], none)
  | n + 1, l =>
    let e := x.ofDstIx l
    if x.isDone e then ([], none) else
    match s.copyElem x e with
    | .ok (v, t) =>
      let (r, z) := s.gather x n (l + 1)
      ({ e := e, val := v.1, psn := v.2.1, zf := v.2.2, rs := match t with | .peer _ _ _ _ rs => rs | _ => [] } :: r, z)
    | .error z => ([], some z)

/-- Uses the pages of an element in the core TLB. -/
def State.usePage (s : State) (x : Copy) (a : Nat) : State := s.useTlb s.cur (.copy x.id) a
/-- The translations that element `e` uses, which the copy then keeps (15 R344). -/
def State.keepPages (s : State) (x : Copy) (e : Nat) : Copy :=
  let ok (r : Except CStop Nat) : List Nat := match r with | .ok a => [a] | .error _ => []
  let as := ok (s.copySrc x e) ++ ok (s.copyDst x e) ++ [itrunc (x.idx.toNat + e / x.m * if x.ix64 then 64 else 32) 64]
  as.foldl (fun y a => match (s.me.tlbFor (.copy x.id)).find? (·.covers s.job.rcd.ctx a) with
    | some t => if y.pages.contains t then y else { y with pages := y.pages ++ [t] }
    | none => y) x
/-- The pieces that element `e` is read from in the package. -/
def State.srcPieces (s : State) (x : Copy) (e : Nat) : Pieces :=
  if x.kind = .cpz then [] else
  match s.copySrc x e with
  | .ok a => (match s.target s.cur (.copy x.id) .r true a x.w with | .ok (t, _) => t.local | .error _ => [])
  | .error _ => []
/-- The pieces that the index of the row of element `e` is read from in the package. -/
def State.ixPieces (s : State) (x : Copy) (e : Nat) : Pieces :=
  if (x.kind = .cpg ∨ x.kind = .cps) ∧ !x.fromQ then
    let iw : Nat := if x.ix64 then 64 else 32
    match s.target s.cur (.copy x.id) .r true (itrunc (x.idx.toNat + e / x.m * iw) 64) iw with | .ok (t, _) => t.local | .error _ => []
  else []
/-- Element `e` is read, and the index that picks it: its free values are used, and `.clr` empties the full/empty bits in the same access
(R187). -/
def State.readDone (s : State) (x : Copy) (e : Nat) : State :=
  let ps := s.srcPieces x e
  let s1 := s.drawn (s.ixPieces x e ++ ps)
  if x.clr then s1.emptyFe s.cur (ps.filter fun p => onAp (numOf s.cur) p.1) false else s1

/-- Element `e` of a copy cannot move: it asks for its page walk or its data, or notes since when it waits for a full bit. -/
def State.copyWait (s : State) (x : Copy) (e : Nat) (z : CStop) : State :=
  match z with
  | .stop (.walk va) => s.askWalk s.cur (.copy x.id) va
  | .stop (.wait (.fe _)) =>
    if !s.reached x e then s else
    match x.feSince with
    | some (i, _) => if i = e then s else s.updMe fun c => c.setCopy { x with feSince := some (e, s.now) }
    | none => s.updMe fun c => c.setCopy { x with feSince := some (e, s.now) }
  | .ask key win pkg n rs ea =>
    if x.reads.contains key || !s.me.canSend win || (rs.any fun r => s.me.owesWin x.srcNo win pkg (apAddr n r.1) (apAddr n r.1 + r.2)) then s
    else
      let m := s.newMsg s.cur .read pkg n (memParts false rs 0) (.copy x.id) x.srcNo win (BitVec.ofNat 64 ea)
      (s.post s.cur { m with load := key }).updMe fun c => c.setCopy { x with reads := x.reads ++ [key] }
  | _ => s

/-- Element `e` moves into the own aperture or to memory. -/
def State.copyLocal (s : State) (x : Copy) (e : Nat) (v : Nat) (psn zf : Bool) (t : Target) : State :=
  let ea := match s.copySrc x e with | .ok a => a | .error _ => 0
  let s1 := if x.kind = .cpz then s else (s.usePage x ea).readDone x e
  let va := match s.copyDst x e with | .ok a => a | .error _ => 0
  let x1 := { x.mark e with zfSet := x.zfSet || zf }
  match t with
  | .own o ps =>
    if x.add then
      let (s2, fl) := s1.addLane s.cur o x.fmt x.w v false
      (s2.updMe fun c => c.setCopy x1).orFlags .a fl
    else ((s1.usePage x va).wrPieces s.myPkg ps v psn).updMe fun c => c.setCopy x1
  | .mem ps =>
    let (s2, bad) := (s1.usePage x va).crcExit s.myPkg (if ps.any fun p => leavesDevice p.1 then s.srcPieces x e else [])
    (s2.postMem s.cur ps v (psn || bad) (.copy x.id) x.srcNo (BitVec.ofNat 64 va)).updMe fun c =>
      c.setCopy { x1 with owed := x1.owed + 1 }
  | .peer .. => s1

/-- Values side by side. -/
def gathered (w : Nat) (l : List CElem) : Nat := l.zipIdx.foldl (fun a p => a + p.1.val * 2 ^ (p.2 * w)) 0
/-- They are read and done, and the copy keeps the translations that they used (15 R344). -/
def State.allRead (s : State) (x : Copy) (l : List CElem) : State := l.foldl (fun t p => t.readDone x p.e) s
def State.allMarked (s : State) (x : Copy) (l : List CElem) : Copy :=
  l.foldl (fun y p => { (s.keepPages y p.e).mark p.e with zfSet := y.zfSet || p.zf }) x

/-- Every element of a copy into the own register window: it lands as one write (R163). -/
def State.copyWhole (s : State) (x : Copy) (l : List CElem) (o : Nat) : State :=
  let s1 := (s.allRead x l).updMe fun c => c.setWholeV ((o - regBase) / 2048) (BitVec.ofNat 2048 (gathered x.w l)) (l.any (·.psn))
  s1.updMe fun c => c.setCopy (s.allMarked x l)

/-- A part joins the one before it in its granule where it goes on from it. -/
def joinPart (p : Part) : List Part → List Part
  | [] => [p]
  | q :: l =>
    if p.at_ + p.w = q.at_ ∧ p.at_ / 128 = q.at_ / 128 then
      { at_ := p.at_, w := p.w + q.w, val := p.val % 2 ^ p.w + 2 ^ p.w * q.val, psn := p.psn || q.psn } :: l
    else p :: q :: l
/-- The parts of a message with some elements: lanes of an add, else the bits of each granule, where the pages put them (07 R167, 20 R392). -/
def Copy.parts (x : Copy) (l : List CElem) : List Part :=
  if x.add then l.map fun c => { at_ := (c.rs.headD (0, 0)).1, w := x.w, val := c.val, psn := c.psn }
  else (l.flatMap fun c => memParts c.psn (c.rs.flatMap fun r => cuts r.1 r.2) c.val).foldr joinPart []
/-- A message may carry the parts: 13 granules, or 6 where one of them is written in part and masks follow (20 R392). -/
def msgHolds (ps : List Part) : Bool :=
  let gs := granulesOf (ps.map fun p => (p.at_, p.w))
  gs.length ≤ 6 || (gs.length ≤ 13 && gs.all fun g => (granOf ps (128 * g)).2.1 == 2 ^ 128 - 1)
/-- The longest beginning of some elements that one message may carry. -/
def Copy.fitting (x : Copy) (l : List CElem) : List CElem :=
  if x.add then l else (((List.range l.length).map fun i => l.take (l.length - i)).find? fun k => msgHolds (x.parts k)).getD (l.take 1)

/-- A message of a copy. -/
def State.copyMsg (s : State) (x : Copy) (win pkg n : Nat) (ps : List Part) (va : W64) : Msg :=
  let m := s.newMsg s.cur (if x.add then (if x.fl then .addFloat else .addInt) else .write) pkg n ps (.copy x.id) x.srcNo win va
  { m with pin := x.ord, mc := x.mc, w := x.w, fmt := x.fmt }
/-- A message with some elements leaves for a peer; an add's counts its lanes from the word's first (R186, 20 R392, Table 20.2). -/
def State.copySend (s : State) (x : Copy) (l : List CElem) (win pkg n : Nat) (va : W64) : State :=
  let s1 := (s.allRead x l).post s.cur { s.copyMsg x win pkg n (x.parts l) va with skip := if x.add then x.lane ((l.map (·.e)).headD 0) else 0 }
  s1.updMe fun c => c.setCopy { s.allMarked x l with owed := x.owed + 1 }
/-- A register of a peer: both messages leave, pinned, once all of its bits have been read (R163). -/
def State.copyRegs (s : State) (x : Copy) (l : List CElem) (win pkg n : Nat) : State :=
  let ps := x.parts l
  let msg (ps : List Part) (i : Nat) : Msg :=
    { s.copyMsg x win pkg n ps (x.dst + BitVec.ofNat 64 i) with pin := true, pair := some (2 ^ 40 + x.id) }
  let s1 := ((s.allRead x l).post s.cur (msg (ps.take 13) 0)).post s.cur (msg (ps.drop 13) 1664)
  s1.updMe fun c => c.setCopy { s.allMarked x l with owed := x.owed + 2 }
/-- The elements around `e` leave for a peer in one message, of those that can leave together with it: from behind the last that is done,
faults or waits on a full/empty bit, up to the next one; what still comes to the others is asked for first (R181, R187, 20 R396). -/
def State.moveGroup (s : State) (x : Copy) (e win pkg n o : Nat) : State :=
  let (lo, hi) := x.group e o
  let held (i : Nat) : Bool := x.isDone (x.ofDstIx i) || (s.copyFault x (x.ofDstIx i)).any CStop.lasting
  let a := (List.range (x.dstIx e - lo)).foldl (fun a i => if held (lo + i) then lo + i + 1 else a) lo
  let (l, z) := s.gather x (hi - a) a
  match z.filter fun y => !y.lasting with
  | some y => s.copyWait x (x.ofDstIx (a + l.length)) y
  | none =>
    let first := x.ofDstIx a
    let va := if x.add then x.dst.toNat + 40 * x.lane first else match s.copyDst x first with | .ok b => b | .error _ => x.dst.toNat
    if s.me.canSend win then s.copySend x (x.fitting l) win pkg n (BitVec.ofNat 64 va) else s

/-- The copy moves element `e`, or the message it leaves with; nothing where it cannot. -/
def State.moveElem (s0 : State) (x0 : Copy) (e : Nat) : State :=
  if x0.isDone e || x0.total ≤ e then s0 else
  if (x0.send || x0.ord) && !x0.below e then s0 else
  if x0.add && x0.kind == .cpg && x0.m ≤ e && !x0.isDone (e - x0.m) then s0 else
  let x := s0.keepPages x0 e
  let s := s0.updMe fun c => c.setCopy x
  match s.copyElem x e with
  | .error z => s.copyWait x e z
  | .ok (v, t) =>
    if s.toRegs x then
      let (l, z) := s.gather x x.total 0
      match z, t with
      | some y, _ => s.copyWait x (x.ofDstIx l.length) y
      | none, .peer win pkg n _ _ => if s.me.canSend2 win true then s.copyRegs x l win pkg n else s
      | none, .own o _ => s.copyWhole x l (o - x.dstIx e * x.w)
      | none, _ => s
    else match t with
    | .peer win pkg n o _ => s.moveGroup x e win pkg n o
    | _ => s.copyLocal x e v.1 v.2.1 v.2.2 t

/-- One act of the copy engine: it starts a copy that no older access hinders, and moves element `e` (R160, R184). -/
def copyAct (id e : Nat) (s : State) : State :=
  match s.me.copy? id with
  | none => s
  | some x =>
    if x.started then s.moveElem x e
    else if s.copyClear x then
      let y := { x with started := true }
      (s.updMe fun c => c.setCopy y).moveElem y e
    else s

/-- The refusal by its home that element `e` of a copy has met, of its own read or of its index (20 R399). -/
def Copy.refusal (x : Copy) (e : Nat) : Option Trap :=
  match tget none x.bad e with
  | some t => some t
  | none => if x.kind = .cpg ∨ x.kind = .cps then tget none x.bad (ixKey (e / x.m)) else none
/-- A copy stops at element `e` (R181); towards a register none of its elements is done, so INDEX is 0. The fault is recorded once, and the A stream, or the stream that stands in for it, takes
COPY_FAULT at its first word not yet issued, or the fault itself where a home refused a read (20 R399). -/
def State.stopCopy (s : State) (x : Copy) (e : Nat) (t : Trap) : State :=
  let c := s.me.dropCopy x.id
  if c.a.cfValid then s.setMe c
  else (s.setMe (c.recordCf x.word t (x.faultIx (if s.toRegs x then 0 else e)))).deferTrap s.cur
    (if x.refusal e = some t then t else { cause := .copyFault, info := x.word })

/-- COPY_STOP (R181): element `ev.el` of copy `ev.id` meets a fault and every element below is done, or, towards a register, meets
none. -/
def execCopyStop (s : State) : Out :=
  match s.me.copy? s.ev.id with
  | none => .next s
  | some x =>
    let e := s.ev.el
    if !x.started || x.isDone e || x.total ≤ e || !s.reached x e then .next s else
    match s.copyFault x e with
    | some (.stop (.trap t)) => .next (s.stopCopy x e t)
    | _ => .next s

/-- COPY_COMPLETE (R182): every element is performed; the semaphore is signalled and the flags are set. -/
def execCopyComplete (s : State) : Out :=
  match s.me.copy? s.ev.id with
  | none => .next s
  | some x =>
    if x.allDone && x.owed == 0 && (!x.sen || s.me.semMay x.sid.toNat 2 s.now) then
      let c := s.me.dropCopy x.id
      let c1 := if x.sen then c.signal x.sid.toNat 1 s.now x.seen else c
      .next (s.setMe (c1.orFlags .a (flagIf x.zfSet fZF)))
    else .next s

end Sys2Proof.Machine
end

