-- ==== Sys2Proof/Machine/Report.lean ====
section
/-!
DEFINITION. The firmware's reports: events of a context in its event ring (15 R361), beside the error log of Mem.
-/
namespace Sys2Proof.Machine
open Sys2Proof

/-- A 128-bit event record (15 R361). -/
def eventRec (ctx core cause event addr : Nat) : Nat :=
  ctx % 16 * 2 ^ 90 + core % 1024 * 2 ^ 80 + cause % 256 * 2 ^ 72 + event % 256 * 2 ^ 64 + addr % 2 ^ 64
/-- Reports an event of a context: the record goes to the next place of its ring in host memory (15 R361). A full ring
loses its oldest record, and a ring of size 0 takes none (DESIGN CHOICE, log entry 106). -/
def State.report (s : State) (xk core cause event addr : Nat) : State :=
  let x := s.ctxAt xk
  let pa := hostBase + 8 * x.ringAt + 128 * x.ringI
  if x.ringN = 0 then s
  else if !s.hostGranted (xk / 16) pa 128 then s.dropHost (xk / 16) core (xk % 16) pa
  else { s with mem := memSetBits s.mem (bitKey (xk / 16) pa) 128 (eventRec (xk % 16) core cause event addr) }.setCtxAt xk
    { x with ringI := (x.ringI + 1) % x.ringN }

end Sys2Proof.Machine
end

