-- ==== Sys2Proof/Machine/Fetch.lean ====
section
/-!
DEFINITION. What a turn of a stream does before a word executes: the turn itself, stalls, faults that are due,
fetching and decoding (04 R74 to R79, 06 R137, 15 R332, R334).
-/
namespace Sys2Proof.Machine
open Sys2Proof

/-- The next turn: the agenda's first, or the free schedule's. -/
def State.nextTurn (s : State) : Turn :=
  match s.agenda with
  | t :: _ => t
  | [] => Config.schedule s.fresh
/-- The state in which the turn acts: the turn is taken from the agenda (or a free value used), its cycles have passed. -/
def State.takeTurn (s : State) : State :=
  match s.agenda with
  | t :: a => { s with agenda := a, now := s.now + t.dt }
  | [] => { s with fresh := s.fresh + 1, now := s.now + (Config.schedule s.fresh).dt }

/-- The instruction is an event of the part: it has no word. -/
def isEvent (i : Instr) : Bool := (encode i).isNone

/-- What a stream's turn comes to. -/
inductive TurnOut where
  | idle
  | done (s : State)
  | run (i : Instr) (s : State)

/-- The stall event of a wait that has lasted QSTALL.LIMIT cycles (06 R137, 07 R187, 13 R293, 14, 18, 20). -/
def stallOf (c : Core) (st : Str) (now : Nat) : Option Instr :=
  match (c.ctl st).wait with
  | none => none
  | some w =>
    if c.limit = 0 ∨ now < w.since + c.limit.toNat then none else
    match w.kind with
    | .queue _ => some .queueStall
    | .fe _ => some .feStall
    | .sync => some .syncStall
    | .fabric => some .syncStall
    | .syncAt _ => some .syncStall
    | .rc _ => some .rcStall
    | .rdv => none
    | .turn => none
    | .free => none

/-- Some V result is due at or before the slot at hand (08 R194). -/
def Core.landingDue (c : Core) : Bool := c.v.fly.any (fun r => r.due ≤ c.v.slot)

/-- The free values by which replicas serve a fetch: its own, so that a turn finds one word however often it looks. -/
def State.fetchDraw (s : State) (pc : Nat) : Nat := ((s.now + 1) * 2 ^ 64 + pc) * 2 ^ 64 + s.fresh
/-- The word at a stream's counter (04 R75): translation, the role IMM, then poison; a replica may serve it (13 R308). -/
def State.fetchAt (s : State) (st : Str) (pc : Nat) : Except Stop Nat := do
  let (ps, _) ← s.pieces s.cur (.stream st) .x pc st.wordBits
  let v := s.viewedFrom (s.fetchDraw pc) ps
  need (ps.all fun p => (v.roleAt s.myPkg p.1).role == .imm) (trAt .roleFault pc)
  need (!v.psnPieces s.myPkg ps) (trAt .poison pc)
  .ok (v.rdPieces s.myPkg ps)

/-- The word of a stream that waits at its counter: it was fetched when the wait began (13 R292). -/
def Stream.kept (x : Stream) : Option Nat :=
  if x.wait.isSome then x.word.bind fun p => if p.1 = x.pc then some p.2 else none else none
/-- The word a stream meets: one that waits stays the word it was fetched as, whatever has become of its granule since (13 R292); the
M sequencer replays the bodies of its loops from its buffer (11 R251). -/
def State.wordAt (s : State) (st : Str) : Except Stop Nat :=
  let pc := (s.ctl st).pc
  match (s.ctl st).kept with
  | some w => .ok w
  | none =>
  if st = .m then
    match s.me.m.replay.find? (·.1 == pc) with
    | some (_, w) => .ok w.toNat
    | none => s.fetchAt .m pc.toNat
  else s.fetchAt st pc.toNat

/-- The fetch fault that a trap of the fetch is (04 R75, 15 R332). -/
def fetchFaultOf (t : Trap) : FetchFault :=
  match t.cause with
  | .pageFault => .page t.sub
  | .permFault => .perm
  | .roleFault => .role
  | _ => .poison

/-- The word last fetched by a stream, or none. -/
def State.setWord (s : State) (st : Str) (w : Option Nat) : State :=
  let x := s.ctl st
  s.setCtl st { x with word := w.map fun v => (x.pc, v) }
/-- The pages that a fetch touches, where the host port drops its reads. -/
def State.fetchPieces (s : State) (st : Str) : Pieces :=
  match s.pieces s.cur (.stream st) .x (s.ctl st).pc.toNat st.wordBits with
  | .ok (ps, _) => ps
  | .error _ => []
/-- A word is taken: where it is fetched now, its pages are used, and a read that the host port drops is logged (22 R428). -/
def State.useFetch (s : State) (st : Str) (w : Nat) : State :=
  let pc := (s.ctl st).pc.toNat
  if (s.ctl st).kept.isSome || (st = .m && (s.me.m.replay.any fun e => e.1 == (s.ctl st).pc)) then s else
  ((cuts pc st.wordBits).foldl (fun t p => t.useTlb s.cur (.stream st) p.1) (s.dropped (s.fetchPieces st))).setWord st (some w)

/-- What a stream's turn comes to where no stall is due: a V landing, or its word. -/
def turnWord (st : Str) (s : State) : TurnOut :=
  if st = .v ∧ s.me.landingDue then .run .resultLanding s
  else
    match s.wordAt st with
    | .error (.trap t) => 
      let u := if t.cause = .poison then s.dropped (s.fetchPieces st) else s
      .run .wordFetchFault { u.setWord st none with ev := { st := st, ff := fetchFaultOf t } }
    | .error e => .done ((s.setWord st none).finish st (.error e))
    | .ok w =>
      match decode st w with
      | .ok i => .run i (s.useFetch st w)
      | .error e => .run .reservedOpcode { s.useFetch st w with ev := { st := st, why := e } }
/-- A fault that is due is taken at the first word not yet issued, on a run-ahead path once it is confirmed (07 R174); a recast that still reserves has not issued and gives up what it has
(00 R9, 07 R181, 13 R286). -/
def Core.mayTrap (c : Core) (st : Str) : Bool := !(c.issued st || (st == .a && c.onPath)) || (st == .c && c.recast.any fun r => !r.todo.isEmpty)
def State.takeDue (s : State) (st : Str) (t : Trap) : State :=
  match if st = .c then s.me.recast else none with
  | some r => (s.release r).takeTrap st t
  | none => s.takeTrap st t
/-- A turn of a stream: nothing where it cannot issue; else what is due, unless its word has issued, a stall, a V landing, or its word
(00 R9, 07 R181). -/
def turnOf (st : Str) (s : State) : TurnOut :=
  let c := s.me
  if !c.canIssue st s.now then .idle
  else match if c.mayTrap st then (c.ctl st).due else none with
  | some t => .done (s.takeDue st t)
  | none =>
    match stallOf c st s.now with
    | some i => .run i { s with ev := { st := st, who := .stream st } }
    | none => turnWord st s

/-- A word placed at the counter of a stream of core 0, and that stream's turn first on the agenda. -/
def placeWord (s : State) (st : Str) (w : Nat) : State :=
  let c := s.coreAt 0
  let j := c.job.getD { rcd := {}, serial := 0 }
  let x := c.ctl st
  let pg := x.pc.toNat / 2 ^ 19 * 2 ^ 19
  let off := x.pc.toNat % 2 ^ 19
  let page (k : Nat) : TlbEntry :=
    { ctx := j.rcd.ctx, va := pg + k * 2 ^ 19, size := 19, pa := k * 2 ^ 19, swz := 0, r := true, w := false, x := true, add := false }
  let c1 := { c.setCtl st { x with started := true, ended := false, stopped := false, rdv := none, wait := none, due := none,
                                   walkFault := none, word := none, tlb := [page 0, page 1] } with
    job := some j, inh := false, stopAt := none, dead := false, abort := none, pend := 0 }
  let c2 := if st = .m then { c1 with m := { c1.m with replay := [] } } else c1
  let s1 := s.setCoreAt 0 c2
  let imm : DirEntry := { sys := false, role := .imm, ctx := j.rcd.ctx }
  let s2 := (s1.setRoleAt 0 off imm).setRoleAt 0 (off + 127) imm
  let s3 := (s2.setPsn 0 off false).setPsn 0 (off + 127) false
  { s3 with mem := memSetBits s3.mem (bitKey 0 off) 128 w, agenda := { dt := 0, act := .stream 0 st } :: s3.agenda }

end Sys2Proof.Machine
end

