-- ==== Sys2Proof/Machine/Sync.lean ====
section
/-!
DEFINITION. Flumes, marker fences, weirs and semaphores (07 R191, 14).
-/
namespace Sys2Proof.Machine
open Sys2Proof

/-! Flumes (R309 to R318). -/

/-- Where a flume's storage lies: the package and the physical bit address of an address that a flume word names. -/
structure FlAt where
  pkg : Nat
  pa  : Nat
  t   : Target
deriving DecidableEq, Repr, Inhabited

/-- LDST_SCOPE of an address of a flume (R309, R318): memory, or a scratchpad, local or through a window (DEDUCED, log entry 36). -/
def State.flumeScope (s : State) (va : Nat) (t : Target) : Except Stop FlAt :=
  match t with
  | .own o _ => do
    need (inPart .scratch o 1) (trAt .ldstScope va)
    .ok { pkg := s.myPkg, pa := apAddr (numOf s.cur) o, t := t }
  | .mem ps => .ok { pkg := s.myPkg, pa := (ps.headD (0, 0)).1, t := t }
  | .peer _ pkg n o _ => do
    need (inPart .scratch o 1) (trAt .ldstScope va)
    .ok { pkg := pkg, pa := apAddr n o, t := t }
/-- The addresses that a flume word names: all are translated before one is out of scope (R318), window space past window 15 too
(20 R395). -/
def State.flumeAts (s : State) (st : Str) (p : Perm) (vas : List Nat) : Except Stop (List FlAt) := do
  let ts ← vas.mapM fun va => if winVa + 2 ^ 34 ≤ va ∧ va < winVaEnd then .ok none else (s.target s.cur (.stream st) p true va 1).map some
  (vas.zip ts).mapM fun e => match e.2 with
    | some (t, _) => s.flumeScope e.1 t
    | none => .error (trAt .ldstScope e.1)
def State.flumeAt (s : State) (st : Str) (p : Perm) (va : Nat) : Except Stop FlAt := do
  let l ← s.flumeAts st p [va]
  .ok (l.headD default)

def State.flumeOf (s : State) (a : FlAt) : Flume := tget {} s.flumes (granKey a.pkg a.pa)
def State.setFlume (s : State) (a : FlAt) (f : Flume) : State := { s with flumes := tset {} s.flumes (granKey a.pkg a.pa) f }
/-- The flume of a base: one that is valid and lies in a granule of the job's context (R312), else refused. -/
def State.flumeThere (s : State) (a : FlAt) (base : W64) : Except Stop Flume := do
  let f := s.flumeOf a
  need (a.pa % 128 == 0 && f.valid && (s.roleAt a.pkg a.pa).ctx == s.job.rcd.ctx) (trAt .flumeFault base.toNat)
  .ok f
def State.flume (s : State) (st : Str) (p : Perm) (va : W64) : Except Stop (FlAt × Flume) := do
  let a ← s.flumeAt st p va.toNat
  let f ← s.flumeThere a va
  .ok (a, f)
/-- The party that a word speaks for. -/
def Flume.producer (f : Flume) (ck : Nat) (st : Str) : Bool := f.pv && f.ppkg == pkgOf ck && f.pcore == numOf ck && f.pstr == st.num
def Flume.consumer (f : Flume) (ck : Nat) (st : Str) : Bool := f.cv && f.cpkg == pkgOf ck && f.ccore == numOf ck && f.cstr == st.num
/-- A flume and the slot whose first bit an address names: both addresses are translated and in scope before a refusal (R316, R318). -/
def State.flumeSlot (s : State) (st : Str) (p : Perm) (base va : W64) : Except Stop (FlAt × Flume × FlAt × Nat) := do
  let l ← s.flumeAts st p [base.toNat, va.toNat]
  let a := l.headD default
  let b := l.getLastD default
  let f ← s.flumeThere a base
  need (b.pkg == a.pkg && (f.slotAt b.pa).isSome && (b.pa - f.base) % f.slotBits == 0) (trAt .flumeFault base.toNat)
  .ok (a, f, b, (b.pa - f.base) / f.slotBits)
/-- The virtual address of slot i. -/
def slotVa (base : W64) (f : Flume) (i : Nat) : W64 := base + BitVec.ofNat 64 (i * f.slotBits)
/-- HEAD mod S, TAIL mod S, and the slot that a wait-filled takes. -/
def Flume.headIx (f : Flume) : Nat := f.head.toNat % f.slots
def Flume.tailIx (f : Flume) : Nat := f.tail.toNat % f.slots
def Flume.nextIx (f : Flume) : Nat := (f.head.toNat + f.held) % f.slots

/-- Claim (R311, R312): the slot claimed. -/
def State.flClaim (s : State) (st : Str) (base : W64) : Except Stop (W64 × State) := do
  let (a, f) ← s.flume st .w base
  need (!f.pv || f.producer s.cur st) (trAt .flumeFault base.toNat)
  need (f.used < f.slots) (.wait .sync)
  let g := { f with pv := true, ppkg := pkgOf s.cur, pcore := numOf s.cur, pstr := st.num, tail := f.tail + 1, claimed := f.claimed + 1 }
  .ok (slotVa base f f.tailIx, s.setFlume a g)
/-- The slot that a fill names: claimed by the stream that fills it (R311, R312). -/
def State.flClaimed (s : State) (st : Str) (base slot : W64) : Except Stop (FlAt × Flume × FlAt × Nat) := do
  let (a, f, b, i) ← s.flumeSlot st .w base slot
  need (f.producer s.cur st && f.isClaimed i) (trAt .flumeFault base.toNat)
  .ok (a, f, b, i)
/-- The core's writes to physical bits of a package are performed, copies included, by whatever names they reach them (R314). -/
def State.bitsQuiet (s : State) (pkg lo len : Nat) : Bool :=
  let q : Reach := { win := 17, pkg := pkg, lo := lo, hi := lo + len }
  !(s.me.owed.any fun w => w.pkg == pkg && w.lo < lo + len && lo < w.hi) &&
  !(s.me.a.copies.any fun k => (s.copyWrites k).any fun r => (s.reach s.cur (.copy k.id) r).any q.meets)
def State.slotQuiet (s : State) (a : FlAt) (f : Flume) (i : Nat) : Bool := s.bitsQuiet a.pkg (f.base + i * f.slotBits) f.slotBits
/-- The slot is filled. -/
def Flume.fill (f : Flume) (i : Nat) : Flume := { f with filled := tset false f.filled i true, claimed := f.claimed - 1 }
def State.fillSlot (s : State) (a : FlAt) (f : Flume) (i : Nat) : State := s.setFlume a (f.fill i)
/-- Fill (R311, R314): it waits until the core's writes to the slot are performed. -/
def State.flFill (s : State) (st : Str) (base slot : W64) : Except Stop State := do
  let (a, f, _, i) ← s.flClaimed st base slot
  need (s.slotQuiet a f i) (.wait .sync)
  .ok (s.fillSlot a f i)
/-- Wait-filled (R311, R312): the slot now held. -/
def State.flWait (s : State) (st : Str) (base : W64) : Except Stop (W64 × State) := do
  let (a, f) ← s.flume st .r base
  need (!f.cv || f.consumer s.cur st) (trAt .flumeFault base.toNat)
  need (f.held < f.used && f.isFilled f.nextIx) (.wait .sync)
  let g := { f with cv := true, cpkg := pkgOf s.cur, ccore := numOf s.cur, cstr := st.num, held := f.held + 1 }
  .ok (slotVa base f f.nextIx, s.setFlume a g)
/-- Release (R311); it needs W (15 R348). -/
def State.flRel (s : State) (st : Str) (base slot : W64) : Except Stop State := do
  let (a, f, _, i) ← s.flumeSlot st .w base slot
  need (f.consumer s.cur st && 1 ≤ f.held && i == f.headIx) (trAt .flumeFault base.toNat)
  .ok (s.setFlume a { f with filled := tset false f.filled i false, held := f.held - 1, head := f.head + 1 })

/-- The control blocks of a home: 1,024 of a memory slice, 16 of a core (R309). -/
def State.flumeRoom (s : State) (a : FlAt) : Bool :=
  let used (p : Nat → Bool) : Nat := (s.flumes.filter fun e => e.1 / 2 ^ 55 == a.pkg && e.2.valid && p e.2.base).length
  match place a.pa with
  | .ap n _ => used (fun b => onAp n b) < 16
  | .dram d _ => used (fun b => match place b with | .dram e _ => e == d && sliceOf b == sliceOf a.pa | _ => false) < 1024
  | _ => false

/-- An address in each role granule of a virtual range: its base, each multiple of 32,768 in it, and through a window each address whose
target offset is one (20 R395, R412). -/
def State.granVas (s : State) (base n : Nat) : List Nat :=
  (List.range ((base % 32768 + n + 32767) / 32768)).flatMap fun i =>
    let b := (base / 32768 + i) * 32768
    let x := b + (32768 - 128 * (s.me.winAt ((b - winVa) / 2 ^ 30)).tb % 32768)
    max base b :: if winVa ≤ b ∧ b < winVaEnd ∧ base < x ∧ x < min (b + 32768) (base + n) then [x] else []
/-- `flinit` (R317): every page of the storage is translated before a check. -/
def State.flInit (s : State) (base bits count : W64) : Except Stop State := do
  let bad := trAt .flumeFault base.toNat
  let bitsOk := bits.toNat % 128 == 0 && 128 ≤ bits.toNat && bits.toNat ≤ 2 ^ 20
  let countOk := 1 ≤ count.toNat && count.toNat ≤ 65536
  let gs ← s.flumeAts .c .w (if bitsOk && countOk then s.granVas base.toNat (count.toNat * bits.toNat) else [base.toNat])
  let a := gs.headD default
  need (a.pa % 128 == 0 && base.toNat % 128 == 0) bad
  need bitsOk bad
  need countOk bad
  need (gs.all fun g =>
    let e := s.roleAt g.pkg g.pa
    e.role == .str && e.ctx == s.job.rcd.ctx) bad
  let f := s.flumeOf a
  need (!(f.valid && f.used != 0)) bad
  need (f.valid || s.flumeRoom a) bad
  .ok (s.setFlume a { base := a.pa, slotBits := bits.toNat, slotsM1 := count.toNat - 1, valid := true })

/-- `flinit` (R316, R317). -/
def execFlinit (f : CrF) (s : State) : Out :=
  .next (cWord f.g (fun s => s.crForm f true true false fun a b => do
    let t ← s.flInit a (s.cg f.rd.toNat) b
    .ok (0, t)) s)
/-- `flclaim` (R316). -/
def execFlclaim (f : CrF) (s : State) : Out :=
  .next (cWord f.g (fun s => s.crForm f true false true fun a _ => s.flClaim .c a) s)
/-- `flwaitf` (R316). -/
def execFlwaitf (f : CrF) (s : State) : Out :=
  .next (cWord f.g (fun s => s.crForm f true false true fun a _ => s.flWait .c a) s)
/-- `flwaitr` (R316): until no slot is in use; it binds no party. -/
def execFlwaitr (f : CrF) (s : State) : Out :=
  .next (cWord f.g (fun s => s.crForm f true false true fun a _ => do
    let (_, fl) ← s.flume .c .r a
    need (fl.used == 0) (.wait .sync)
    .ok (fl.tail.zeroExtend 64, s)) s)
/-- `flrel` (R316). -/
def execFlrel (f : CrF) (s : State) : Out :=
  .next (cWord f.g (fun s => s.crForm f true true false fun a b => do
    let t ← s.flRel .c a b
    .ok (0, t)) s)

/-- `flfill.put` (R316): 64 bits at the slot, under R313, before the fill. At a local home the write and the fill are one act, once every
other write to the slot is performed; through a window the write leaves first, and the word, which has then issued, waits for it
without limit or test, so that a trap leaves no effect (R9, R315) (`State.flPutDone`). -/
def State.flPut (s : State) (base slot x : W64) : Except Stop State := do
  let (a, f, b, i) ← s.flClaimed .c base slot
  let ps := cuts b.pa 64
  let quiet := s.slotQuiet a f i
  match b.t with
  | .peer win pkg n o _ => do
    need (quiet && s.me.canSend win) (.wait .sync)
    .ok (((s.postWin s.cur .write win pkg n (wholePart o 64 x.toNat false) (.stream .c) 0 slot false).updMe fun c =>
      { c with put := some { pkg := a.pkg, base := a.pa, slot := i, lo := f.base + i * f.slotBits, len := f.slotBits } }).noteWait .c .free)
  | _ => do
    need (s.rolePieces s.cur s.job s.myPkg ps .wr) (trAt .roleFault slot.toNat)
    need quiet (.wait .sync)
    .ok ((s.wrPieces s.myPkg ps x.toNat false).fillSlot a f i)

/-- The write of a `flfill.put` is performed: the slot is filled, unless a `flinit` has meanwhile taken its claim back (R317). -/
def State.flPutDone (s : State) (p : FlPut) : Except Stop State := do
  need (s.bitsQuiet p.pkg p.lo p.len) (.wait .free)
  let k := granKey p.pkg p.base
  let f := tget {} s.flumes k
  let t := s.updMe fun c => { c with put := none }
  .ok (if f.producer s.cur .c && f.isClaimed p.slot then { t with flumes := tset {} t.flumes k (f.fill p.slot) } else t)

/-- `flfill` (R316). -/
def execFlfill (f : CrF) (s : State) : Out :=
  .next (cWord f.g (fun s => do
    let qs := CrQ f true true
    let fin (t : State) : State := (t.cPop f.pk qs).advance .c
    match s.me.put with
    | some p =>
      let t ← s.flPutDone p
      .ok (fin t)
    | none =>
      s.cSources qs
      let base := s.cSrc f.qa f.ra
      let slot := s.cSrc f.qb f.rb
      let t ← (if f.fn.getLsbD 0 then s.flPut base slot (s.cg f.rd.toNat) else s.flFill .c base slot)
      .ok (if t.me.put.isSome then t else fin t)) s)

/-- `fltake` (R316): it reads at the head held slot, at its home or through a window, and waits for the data. -/
def execFltake (f : CrF) (s : State) : Out :=
  .next (cWord f.g (fun s => do
    let qs := CrQ f true true
    let qd := qName f.qd f.rd
    let base := s.cSrc f.qa f.ra
    let o := (s.cSrc f.qb f.rb).toNat
    let fin (t : State) (v : W64) : State := ((t.cPop f.pk qs).cDst f.qd f.rd v).advance .c
    match s.me.sent, s.me.reply with
    | some _, none => .error (.wait .sync)
    | some _, some (_, some t) => .ok ((s.updMe fun c => { c with sent := none, reply := none }).takeTrap .c t)
    | some _, some (v, none) => .ok (fin (s.updMe fun c => { c with sent := none, reply := none }) (BitVec.ofNat 64 v))
    | none, _ =>
      s.cSources qs
      let (a, fl) ← s.flume .c .r base
      need (fl.consumer s.cur .c) (trAt .flumeFault base.toNat)
      need (!(fl.held == 0 || o % 64 != 0 || fl.slotBits < o + 64)) (trAt .flumeFault base.toNat)
      let pa := fl.base + fl.headIx * fl.slotBits + o
      let va := (slotVa base fl fl.headIx).toNat + o
      match a.t with
      | .peer win pkg n off _ =>
        need (s.me.canSend win) (.wait .sync)
        s.cRoom qd
        let m := s.newMsg s.cur .read pkg n [{ at_ := off + (pa - fl.base), w := 64, val := 0 }] (.stream .c) 0 win (BitVec.ofNat 64 va)
        .ok (((s.post s.cur m).updMe fun c => { c with sent := some s.ids, reply := none }).noteWait .c .sync)
      | _ =>
        let ps := cuts pa 64
        need (s.rolePieces s.cur s.job s.myPkg ps .rd) (trAt .roleFault va)
        need (!s.psnPieces s.myPkg ps) (trAt .poison va)
        s.cRoom qd
        .ok (fin s (BitVec.ofNat 64 (s.rdPieces s.myPkg ps)))) s)

/-- `aflclaim` (07 R191). -/
def execAflclaim (f : ArF) (s : State) : Out :=
  .next (aWord false (fun s => s.arForm f.pk f.ad [f.aa] true fun t => t.flClaim .a (t.aSrc f.aa)) s)
/-- `aflwaitf` (07 R191). -/
def execAflwaitf (f : ArF) (s : State) : Out :=
  .next (aWord false (fun s => s.arForm f.pk f.ad [f.aa] true fun t => t.flWait .a (t.aSrc f.aa)) s)
/-- `aflfill` (07 R191): it waits for the stream's writes to the slot. -/
def execAflfill (f : ArF) (s : State) : Out :=
  .next (aWord false (fun s => s.arForm f.pk f.ad [f.aa, f.ab] false fun t => do
    let u ← t.flFill .a (t.aSrc f.aa) (t.aSrc f.ab)
    .ok (0, u)) s)
/-- `aflrel` (07 R191). -/
def execAflrel (f : ArF) (s : State) : Out :=
  .next (aWord false (fun s => s.arForm f.pk f.ad [f.aa, f.ab] false fun t => do
    let u ← t.flRel .a (t.aSrc f.aa) (t.aSrc f.ab)
    .ok (0, u)) s)

/-- The meaning of a flume word, for a word that waits at its home. -/
def flumeWord (i : Instr) (s : State) : Option State :=
  let out (o : Out) : Option State := match o with | .next t => some t | _ => none
  match i with
  | .flclaim f => out (execFlclaim f s)
  | .flfill f => out (execFlfill f s)
  | .flwaitf f => out (execFlwaitf f s)
  | .flwaitr f => out (execFlwaitr f s)
  | .flrel f => out (execFlrel f s)
  | .aflclaim f => out (execAflclaim f s)
  | .aflfill f => out (execAflfill f s)
  | .aflwaitf f => out (execAflwaitf f s)
  | .aflrel f => out (execAflrel f s)
  | _ => none
/-- FLUME_HOME_OPERATION (R311, R315): the home evaluates the operation of the stream `ev.st` that waits at a flume word. -/
def execFlumeHomeOperation (s : State) : Out :=
  let st := s.ev.st
  if !(s.me.canIssue st s.now) || (s.ctl st).wait.isNone then .next s else
  match s.wordAt st with
  | .ok w =>
    match decode st w with
    | .ok i => .next ((flumeWord i s).getD s)
    | .error _ => .next s
  | .error _ => .next s

/-! Marker fences (R319 to R321). -/

/-- A copy is performed, apart from its posted writes through windows (R320). -/
def Core.madeLocal (c : Core) (y : Copy) : Bool := y.allDone && !(c.owed.any fun w => w.sender == .copy y.id && w.win == 17)
/-- The part of a marker in one queue has reached its head (R320). -/
def Core.atHeadA (c : Core) (k : Marker) : Bool :=
  let x := c.a.ctl
  !k.a || !x.started || x.ended ||
  if k.done then
    !(c.a.loads.any fun l => l.id < k.stamp && !k.gens.contains l.gen) &&
    !(c.owed.any fun w => w.src == 1 && w.win == 17 && w.stamp < k.stamp) &&
    !(c.a.copies.any fun y => y.id < k.stamp && !y.send && !c.madeLocal y)
  else !(c.a.copies.any fun y => y.id < k.stamp && !y.send && !y.started)
def Core.atHeadV (c : Core) (k : Marker) : Bool :=
  let x := c.v.ctl
  !k.v || !x.started || x.ended || !k.done ||
  (!(c.v.fly.any fun r => r.stamp < k.stamp) && !(c.v.snap.any fun e => e.valid && e.res.stamp < k.stamp))
def Core.atHeadM (c : Core) (k : Marker) : Bool :=
  let x := c.m.ctl
  !k.m || !x.started || x.ended ||
  (!(c.m.queue.any fun e => e.id < k.stamp) && (!k.done || !(c.m.run.any fun r => r.ent.id < k.stamp)))
def Core.atHead (c : Core) (k : Marker) : Bool := c.atHeadA k && c.atHeadV k && c.atHeadM k

/-- `mfence` (R319, R320): a second one with an identifier whose markers are not at the head waits. -/
def execMfence (f : CsF) (s : State) : Out :=
  .next (cWord f.g (fun s => do
    let c := s.me
    let id := (f.sys.extractLsb' 0 3).toNat
    need (c.marks.all fun k => k.id != id || c.atHead k) (.wait .fabric)
    let k : Marker := { id := id, done := f.sys.getLsbD 3, a := f.sub.getLsbD 0, v := f.sub.getLsbD 1, m := f.sub.getLsbD 2,
                        stamp := c.stamp, gens := c.a.ckpts.map (·.gen) }
    .ok ((s.setMe { c with marks := c.marks.filter (·.id != id) ++ [k] }).advance .c)) s)
/-- The A words that a pass of `mjoin` orders before the C stream as performed (R321, R325). -/
def Marker.acquires (k : Marker) : Nat := if k.a && k.done then k.stamp else 0
/-- `mjoin` (R321). -/
def execMjoin (f : CsF) (s : State) : Out :=
  .next (cWord f.g (fun s => do
    let c := s.me
    let id := (f.sys.extractLsb' 0 3).toNat
    let (ks, l) := c.marks.partition (·.id == id)
    need (ks.all c.atHead) (.wait .sync)
    .ok ((s.setMe { c with marks := l, seen := ks.foldl (fun t k => seenMore t 0 k.acquires) c.seen }).advance .c)) s)

/-! Weirs (R322 to R327). -/

/-- The weir that level and id name, seen from a core: core, quad, die, package or domain. -/
def weirKey (ck lvl id : Nat) : Nat :=
  lvl * 2 ^ 40 + 64 * (match lvl with | 1 => ck | 2 => quadKey ck | 3 => dieKey ck | 4 => pkgOf ck | _ => 0) + id
def State.weirAt (s : State) (k : Nat) : Weir := tget {} s.weirs k
def State.setWeir (s : State) (k : Nat) (w : Weir) : State := { s with weirs := tset {} s.weirs k w }
/-- Release times (Table 14.6). -/
def weirTime : Nat → Nat
  | 1 => 2 | 2 => 12 | 3 => 60 | 4 => 250 | _ => 6000
/-- The weir of a word: one of quad level or above must be allotted to the job's context (R322). -/
def State.weirOf (s : State) (f : CsF) : Except Stop Nat := do
  need (f.wLvl == 1 || (tget 0 (s.ctxAt s.myCtx).weirs f.wLvl).getLsbD f.wId) (trAt .weirFault f.wId)
  .ok (weirKey s.cur f.wLvl f.wId)

/-- A refusal awaits report (20 R418): FABRIC_ERR with FXERR; the trap clears RPEND, MPEND and FXERR. -/
def Core.refusal (c : Core) : Bool := c.fab.rpend != 0 || c.fab.mpend
def State.fabricErr (s : State) : State :=
  (s.updMe fun c => { c with fab := { c.fab with rpend := 0, mpend := false, fxerr := 0 } }).takeTrap .c
    { cause := .fabricErr, info := s.me.fab.fxerr }

/-- Some write or add that left the core, or a copy that makes them, is not performed (20 R418). -/
def Copy.leaves (x : Copy) (ck : Nat) : Bool :=
  let d := x.dst.toNat
  x.send || x.add || !((selfVa ≤ d ∧ d < selfVa + 2 ^ 30) ∨ (absVa + numOf ck * 2 ^ 30 ≤ d ∧ d < absVa + (numOf ck + 1) * 2 ^ 30))
def Core.owing (c : Core) (ck : Nat) : Bool := !c.owed.isEmpty || c.a.copies.any fun x => x.leaves ck
/-- What an arrival under `.rel` waits for (R325): the C stream's own writes and adds, its sends started before the arrival (20 R418),
and of the A stream those that happen before it at core scope (DEDUCED, log entry 37). -/
def Core.owesRel (c : Core) (ck : Nat) : Bool :=
  let n := ((c.c.ctl.wait.filter (·.kind == .sync)).map (·.stamp)).getD c.stamp
  (c.owed.any fun w => w.src == 0 || (w.src == 1 && w.stamp < c.seenBy 0) || (w.src == 4 && w.stamp < n)) ||
  c.a.copies.any fun x => x.leaves ck && x.id < (if x.send then n else c.seenBy 0)

/-- An arrival (R324, R325): the generation it belongs to (DEDUCED, log entry 37). -/
def State.weirArrive (s : State) (k : Nat) (rel : Bool) (id : Nat) : Except Stop (W64 × State) := do
  let w := s.weirAt k
  need (w.n != 0) (trAt .weirFault id)
  need (!rel || !s.me.owesRel s.cur) (.wait .sync)
  let g := w.gen + 1
  let w1 := { w with arr := w.arr + 1 }
  .ok (g, s.setWeir k (if w1.arr = w.n.toNat then { w1 with gen := g, arr := 0, comps := w.comps ++ [(g, s.now)] } else w1))

/-- `weir.set` (R324). -/
def execWeirSet (f : CsF) (s : State) : Out :=
  .next (cWord f.g (fun s => do
    let k ← s.weirOf f
    let v := s.cg f.sub.toNat
    need (v.extractLsb' 24 40 == 0 && v.extractLsb' 0 24 != 0) (trAt .weirFault f.wId)
    .ok ((s.setWeir k { n := v.extractLsb' 0 24 }).advance .c)) s)
/-- `weir.arr` (R324): one that finds a refusal awaiting report traps and is not counted (20 R418). -/
def execWeirArr (f : CsF) (s : State) : Out :=
  .next (cWord f.g (fun s => do
    let k ← s.weirOf f
    let (g, t) ← s.weirArrive k (f.wRel == 1) f.wId
    if s.me.refusal then .ok s.fabricErr else
    .ok ((t.setCg f.sub.toNat g).advance .c)) s)
/-- `weir.wt` (R324, R327). -/
def execWeirWt (f : CsF) (s : State) : Out :=
  .next (cWord f.g (fun s => do
    let k ← s.weirOf f
    need ((s.cg f.sub.toNat).toNat ≤ (s.weirAt k).rel.toNat) (.wait .sync)
    .ok (s.advance .c)) s)
/-- `weir.sync` (R324): the arrival once, then the wait, with a limit of its own; SARR says that the arrival has been counted. -/
def execWeirSync (f : CsF) (s : State) : Out :=
  .next (cWord f.g (fun s => do
    let k ← s.weirOf f
    let pc := s.me.c.ctl.pc
    let pass (t : State) : State := (t.updMe fun c => { c with sarr := false, sgen := none }).advance .c
    if s.me.sarr && s.me.sarrAt == pc then
      let g := s.me.sgen.getD (s.cg f.sub.toNat)
      need (g.toNat ≤ (s.weirAt k).rel.toNat) (.wait .sync)
      .ok (pass s)
    else
      let (g, t) ← s.weirArrive k (f.wRel == 1) f.wId
      if s.me.refusal then .ok s.fabricErr else
      .ok (((t.setCg f.sub.toNat g).updMe fun c => { c with sarr := true, sarrAt := pc, sgen := some g }).freshWait .c .sync)) s)
/-- WEIR_RELEASE (R327): the waiters of the oldest completed generation of weir `ev.id` that are not released yet go, after the level's
time (DESIGN CHOICE, log entry 18). -/
def execWeirRelease (s : State) : Out :=
  let w := s.weirAt s.ev.id
  match w.comps with
  | (g, t) :: l => .next (if t + weirTime (s.ev.id / 2 ^ 40) ≤ s.now then s.setWeir s.ev.id { w with rel := g, comps := l } else s)
  | [] => .next s

/-! Semaphores (R328 to R330). -/

/-- The semaphore and count that a stream waits for at its word, while it waits. -/
def State.semWaitOf (s : State) (st : Str) : Option (Nat × Nat) :=
  if (s.ctl st).wait.isNone || !(s.me.canIssue st s.now) then none else
  match s.wordAt st with
  | .ok w =>
    match decode st w with
    | .ok (.semwait f) => some ((f.sub.extractLsb' 0 4).toNat, (f.sys.extractLsb' 0 16).toNat)
    | .ok (.vsemwait f) => some ((f.qx.extractLsb' 0 4).toNat, (f.qx.extractLsb' 4 3).toNat + 1)
    | _ => none
  | .error _ => none
/-- An earlier waiter in the order C, V, M of R330 can pass now on semaphore i. -/
def State.semEarlier (s : State) (l : List Str) (i : Nat) : Bool :=
  l.any fun st => match s.semWaitOf st with
    | some (j, n) => j == i && n ≤ s.me.semAt i
    | none => false

/-- `semsig` (R329). -/
def execSemsig (f : CsF) (s : State) : Out :=
  .next (cWord f.g (fun s => do
    let i := (f.sub.extractLsb' 0 4).toNat
    need (s.me.semMay i 2 s.now) (.wait .turn)
    .ok ((s.updMe fun c => c.signal i (f.sys.extractLsb' 0 16).toNat s.now (c.seenBy 0)).advance .c)) s)
/-- `semwait` (R329). -/
def execSemwait (f : CsF) (s : State) : Out :=
  .next (cWord f.g (fun s => do
    let i := (f.sub.extractLsb' 0 4).toNat
    let n := (f.sys.extractLsb' 0 16).toNat
    need (n ≤ s.me.semAt i && s.me.semMay i 3 s.now) (.wait .sync)
    .ok ((s.updMe fun c => c.takeSem i n 3 s.now).advance .c)) s)

end Sys2Proof.Machine
end

