-- ==== Sys2Proof/Machine/MQueue.lean ====
section
/-!
DEFINITION. The M stream: its sequencer and loops (11 R241, R251 to R253), its words, which enter the M queue, the rules by
which the head of the queue starts (11 R240 to R245), and cancellation (11 R274).
-/
namespace Sys2Proof.Machine
open Sys2Proof

/-! The sequencer. -/

/-- The address after the body of a level. -/
def MLoop.stop (l : MLoop) : W64 := l.addr + BitVec.ofNat 64 (128 * (l.len + 1))
/-- Where the sequencer goes on from an address, and the levels then active, the innermost first (R251). -/
def seqNext : List MLoop → W64 → List MLoop × W64
  | [], a => ([], a)
  | l :: ls, a =>
    if a = l.stop then
      if l.iter + 1 < l.trip then ({ l with iter := l.iter + 1 } :: ls, l.addr + 128) else seqNext ls a
    else (l :: ls, a)
/-- The M stream goes on at an address, through the ends of bodies; the replay buffer empties with the last level. -/
def Core.mGo (c : Core) (loops : List MLoop) (a : W64) : Core :=
  let (ls, pc) := seqNext loops.reverse a
  { c with m := { c.m with loops := ls.reverse, replay := if ls.isEmpty then [] else c.m.replay,
                           ctl := { c.m.ctl with pc := pc, wait := none } } }
/-- The M stream goes on after the word at its counter. -/
def State.mNext (s : State) : State := s.updMe fun c => c.mGo c.m.loops (c.m.ctl.pc + 128)
/-- The replay buffer keeps the words of bodies (R251). -/
def State.mKeep (s : State) (i : Instr) : State :=
  match encode i with
  | some (_, w) => s.updMe fun c =>
    if c.m.loops.isEmpty || c.m.replay.any (·.1 == c.m.ctl.pc) then c
    else { c with m := { c.m with replay := c.m.replay ++ [(c.m.ctl.pc, BitVec.ofNat 128 w)] } }
  | none => s
/-- LOOP_NEST is taken once every older instance has started (R254). -/
def State.loopNest (s : State) : Except Stop State :=
  if s.me.m.queue.isEmpty then .error (tr .loopNest) else .error (.wait .free)
/-- The counter of a level; an inactive one counts 0. -/
def iterOf (ls : List MLoop) (l : Nat) : Nat := (ls[l]?.map (·.iter)).getD 0
/-- The iteration admits a word (04 R99). -/
def admits (h : MHead) (ls : List MLoop) : Bool :=
  match ls[h.lvl.toNat]? with
  | some l => (h.fst == 0 || l.iter == 0) && (h.lst == 0 || l.iter + 1 == l.trip)
  | none => true
/-- An M word at issue: the iterations that R99 admits, or LOOP_NEST (R252). -/
def mWord (i : Instr) (h : MHead) (body : State → Except Stop State) (s : State) : State :=
  let ls := s.me.m.loops
  if (h.fst == 1 || h.lst == 1) && ls.length ≤ h.lvl.toNat then s.finish .m s.loopNest
  else
    let s1 := s.mKeep i
    if admits h ls then s1.finish .m (body s1) else s1.mNext

/-- A word enters the M queue with the loop levels of its instance (R241). -/
def State.mEnqueue (s : State) (i : Instr) : Except Stop State := do
  let c := s.me
  need (c.m.queue.length < 16) (.wait .free)
  let e : MEntry := { id := c.stamp, instr := i, addr := c.m.ctl.pc, loops := c.m.loops }
  .ok (s.setMe { c with stamp := c.stamp + 1, m := { c.m with queue := c.m.queue ++ [e] } })
/-- An M word that enters the queue (R241). -/
def mIssue (i : Instr) (h : MHead) (s : State) : State :=
  mWord i h (fun s => do
    let t ← s.mEnqueue i
    .ok t.mNext) s

/-- `mbase` (R256). -/
def execMbase (f : MF) (s : State) : Out := .next (mIssue (.mbase f) f.h s)
/-- `mrow` (R257). -/
def execMrow (f : MF) (s : State) : Out := .next (mIssue (.mrow f) f.h s)
/-- `mseed` (R260). -/
def execMseed (f : MF) (s : State) : Out := .next (mIssue (.mseed f) f.h s)
/-- `mtern.seed` (R261). -/
def execMternSeed (f : MF) (s : State) : Out := .next (mIssue (.mternSeed f) f.h s)
/-- `mtern.cim` (R261). -/
def execMternCim (f : MF) (s : State) : Out := .next (mIssue (.mternCim f) f.h s)
/-- `mtern.tile` (R261). -/
def execMternTile (f : MF) (s : State) : Out := .next (mIssue (.mternTile f) f.h s)
/-- `mcimld.mem` (R263). -/
def execMcimldMem (f : MF) (s : State) : Out := .next (mIssue (.mcimldMem f) f.h s)
/-- `mcimld.basis` (R263). -/
def execMcimldBasis (f : MF) (s : State) : Out := .next (mIssue (.mcimldBasis f) f.h s)
/-- `mfp` (R264). -/
def execMfp (f : MF) (s : State) : Out := .next (mIssue (.mfp f) f.h s)
/-- `maccz` (R266). -/
def execMaccz (f : MF) (s : State) : Out := .next (mIssue (.maccz f) f.h s)
/-- `maccrd` (R267). -/
def execMaccrd (f : MF) (s : State) : Out := .next (mIssue (.maccrd f) f.h s)
/-- `maccwr` (R268). -/
def execMaccwr (f : MF) (s : State) : Out := .next (mIssue (.maccwr f) f.h s)
/-- `mchk` (R270). -/
def execMchk (f : MkF) (s : State) : Out := .next (mIssue (.mchk f) f.h s)
/-- `mscan` (R269). -/
def execMscan (f : MkF) (s : State) : Out := .next (mIssue (.mscan f) f.h s)
/-- `mtest` (R271). -/
def execMtest (f : MF) (s : State) : Out := .next (mIssue (.mtest f) f.h s)
/-- `msem` (R272). -/
def execMsem (f : MF) (s : State) : Out := .next (mIssue (.msem f) f.h s)
/-- `mdrain` (R273). -/
def execMdrain (f : MF) (s : State) : Out := .next (mIssue (.mdrain f) f.h s)
/-- The queue holds an `mdrain.rdv`: fetch waits behind it (06 R142). -/
def MEng.rdvQueued (m : MEng) : Bool := m.queue.any fun e => match e.instr with | .mdrainRdv _ => true | _ => false
/-- `mdrain.rdv` (R273): the stream stays at the word until its command starts, and then at the rendezvous. -/
def execMdrainRdv (f : MF) (s : State) : Out :=
  .next (mWord (.mdrainRdv f) f.h (fun s => do
    need s.me.m.ctl.rdv.isNone (.wait .rdv)
    need (!s.me.m.rdvQueued) (.wait .free)
    let t ← s.mEnqueue (.mdrainRdv f)
    .ok (t.noteWait .m .free)) s)

/-- `mloop` (R251, R252) (DEDUCED, log entry 51). -/
def execMloop (f : MF) (s : State) : Out :=
  .next (mWord (.mloop f) f.h (fun s =>
    let c := s.me
    let l : MLoop := { addr := c.m.ctl.pc, lgen := f.h.lgen, trip := f.i 0 32, len := f.q 32 6 + 1, iter := 0 }
    let inner := match c.m.loops.getLast? with | some o => l.stop.toNat ≤ o.stop.toNat | none => true
    if 6 ≤ c.m.loops.length || !inner then s.loopNest
    else if l.trip = 0 then .ok (s.setMe (c.mGo c.m.loops l.stop))
    else .ok (s.setMe { c with m := { c.m with loops := c.m.loops ++ [l], ctl := { c.m.ctl with pc := l.addr + 128, wait := none } } })) s)

/-! What a command uses. -/

/-- The units of Table 11.1. -/
inductive MUnit where
  | seq | load | gen | tern | fp | port
deriving DecidableEq, Repr, Inhabited
/-- The planes that an `mtest` names. -/
def testPlanes (f : MF) : List MUnit := match f.q 32 2 with | 0 => [.tern] | 1 => [.fp] | _ => [.tern, .fp]
/-- The units that a command holds from its start to its completion (R240): `mcimld` from memory reads on the load path and writes
its macro on the ternary plane. -/
def unitsOf : Instr → List MUnit
  | .mbase _ | .msem _ | .mdrain _ | .mdrainRdv _ => [.seq]
  | .mrow _ => [.load]
  | .mcimldMem _ => [.load, .tern]
  | .mseed _ => [.load]
  | .mternSeed _ | .mternCim _ | .mternTile _ | .mcimldBasis _ => [.tern]
  | .mfp _ | .mscan _ => [.fp]
  | .maccz _ | .maccrd _ | .maccwr _ | .mchk _ => [.port]
  | .mtest f => testPlanes f
  | _ => []
/-- The units that a started command holds now: an `mseed` goes on from the load path to the generator (R240). -/
def MRun.units (r : MRun) : List MUnit :=
  match r.ent.instr with
  | .mseed _ => if r.reading then [.load] else [.gen]
  | i => unitsOf i

/-- Internal state that commands read and write in program order (R244). -/
inductive MItem where
  | d (n : Nat) | rows | basis (b : Nat) | mac (m : Nat)
deriving DecidableEq, Repr, Inhabited
def dN (r : BitVec 4) : MItem := .d r.toNat
/-- The basis buffer and the window of a command (R253). -/
def effBuf (i : Instr) (ls : List MLoop) : Nat × Nat :=
  let it (wl : Nat) : Nat := if wl = 0 then 0 else iterOf ls (wl - 1)
  match i with
  | .mseed f => ((f.q 32 1 + it (f.q 33 3)) % 2, 0)
  | .mternSeed f | .mternCim f | .mternTile f => ((f.q 34 1 + it (f.q 44 3)) % 2, (f.q 42 2 + it (f.q 44 3)) % 4)
  | .mcimldBasis f => (f.q 33 1, 0)
  | _ => (0, 0)
def itemsRead (i : Instr) (buf : Nat) : List MItem :=
  match i with
  | .mrow f => dN f.h.da :: (if f.q 32 1 = 1 then [dN f.db] else [])
  | .mseed f => [dN f.h.da]
  | .mternSeed f => [dN f.h.dd, .rows, .basis buf]
  | .mternCim f => [dN f.h.dd, .rows, .mac (f.q 35 4)]
  | .mternTile f => [dN f.h.dd, .rows, dN f.db]
  | .mcimldMem f => [dN f.h.da]
  | .mcimldBasis _ => [.basis buf]
  | .mfp f => [dN f.h.dd, dN f.db] ++ if f.q 37 1 = 1 then [.rows] else [dN f.h.da]
  | .maccz f => [dN f.h.dd]
  | .maccrd f | .maccwr f => [dN f.h.dd, dN f.h.da]
  | .mscan f => [dN f.h.dd, dN f.h.da]
  | _ => []
def itemsWritten (i : Instr) (buf : Nat) : List MItem :=
  match i with
  | .mbase f => [dN f.h.dd]
  | .mrow _ => [.rows]
  | .mseed _ => [.basis buf]
  | .mcimldMem f | .mcimldBasis f => [.mac (f.i 0 4)]
  | _ => []
def meet {α : Type} [DecidableEq α] (a b : List α) : Bool := a.any fun x => b.contains x

/-- The effective base of a descriptor (R247). -/
def Desc.eff (d : Desc) (ls : List MLoop) : Nat :=
  itrunc ((d.base.toNat : Int) + ((List.range 6).map fun l => (tget 0 d.stride l).toInt * (iterOf ls l : Int)).foldl (· + ·) 0) 64
def Core.desc (c : Core) (r : BitVec 4) : Desc := tget {} c.m.d r.toNat
/-- The descriptor field db of a command. -/
def dbOf : Instr → BitVec 4
  | .mrow f | .mternTile f | .mfp f => f.db
  | _ => 0
/-- What a command reads as it starts (R242, R247, R253). -/
def Core.mRun (c : Core) (e : MEntry) (h : MHead) : MRun :=
  let (buf, win) := effBuf e.instr e.loops
  { ent := e, dd := c.desc h.dd, da := c.desc h.da, db := c.desc (dbOf e.instr),
    ed := (c.desc h.dd).eff e.loops, ea := (c.desc h.da).eff e.loops, eb := (c.desc (dbOf e.instr)).eff e.loops, buf := buf, win := win }

/-! Starting (R242 to R245). -/

/-- The head takes its checker entry as soon as one is free (R242, 07 R184). -/
def Core.takeFoot (c : Core) (e : MEntry) (h : MHead) : Core :=
  if e.foot || h.fpx == 0 || 16 ≤ c.feet.length then c else
  let f : Foot := { age := c.stamp, lo := h.fpb.toNat * 4096, hi := (h.fpb.toNat + h.fpx.toNat) * 4096, wr := h.fw == 1, copy := false, id := e.id }
  { c with stamp := c.stamp + 1, feet := c.feet ++ [f], m := { c.m with queue := { e with foot := true } :: c.m.queue.drop 1 } }
/-- No older entry overlaps the command's with a write on either side (07 R184). -/
def Core.footFree (c : Core) (id : Nat) : Bool :=
  (c.feet.filter fun f => !f.copy && f.id == id).all fun f =>
    !(c.feet.any fun g => g.age < f.age && g.lo < f.hi && f.lo < g.hi && (g.wr || f.wr))
/-- A plane whose injected self-test is due (R271). -/
def MEng.testDue (m : MEng) : MUnit → Bool
  | .tern => m.interval != 0 && m.interval.toNat ≤ m.busyT
  | .fp => m.interval != 0 && m.interval.toNat ≤ m.busyF
  | _ => false
/-- Every condition of R242 and R244 but the semaphore holds for the head `e`. -/
def Core.mReady (c : Core) (e : MEntry) (h : MHead) : Bool :=
  let run := c.m.run
  let buf := (effBuf e.instr e.loops).1
  (h.fpx == 0 || e.foot) && c.footFree e.id &&
  !(run.any fun r => match r.ent.instr with | .mchk _ => true | _ => false) &&
  !(run.any fun r => meet (unitsOf e.instr) r.units) &&
  !((unitsOf e.instr).any c.m.testDue) &&
  !(run.any fun r => meet (itemsRead e.instr buf) (itemsWritten r.ent.instr r.buf) ||
      meet (itemsWritten e.instr buf) (itemsRead r.ent.instr r.buf ++ itemsWritten r.ent.instr r.buf)) &&
  (match e.instr with | .mdrain _ | .mdrainRdv _ => run.isEmpty | _ => true)

/-- Removes a command's checker entry. -/
def Core.dropFoot (c : Core) (id : Nat) : Core := { c with feet := c.feet.filter fun f => f.copy || f.id != id }
/-- A precise trap of the M stream at an instance (R254, 15 R333): it and every younger entry are discarded, and the loop
levels are again those of the instance. -/
def State.mTrap (s : State) (e : MEntry) (t : Trap) : State :=
  (s.updMe fun c =>
    let c1 := c.m.queue.foldl (fun x q => x.dropFoot q.id) c
    { c1 with m := { c1.m with queue := [], loops := e.loops, ctl := { c1.m.ctl with pc := e.addr, wait := none, rdv := none } } }).takeTrapAt .m t e.addr

/-! Cancellation (R274). -/

/-- The generation of an M word. -/
def MEntry.lgen (e : MEntry) : BitVec 4 := ((mHead e.instr).map (·.lgen)).getD 0
/-- The outermost active level of a generation: those outside it. -/
def cutLoops (g : Option (BitVec 4)) : List MLoop → List MLoop × Option MLoop
  | [] => ([], none)
  | l :: ls =>
    if g.isNone || g == some l.lgen then ([], some l)
    else let (a, b) := cutLoops g ls; (l :: a, b)
/-- A cancellation: unstarted entries of the generation leave the queue, and its outermost loop ends. The stream goes on after that
loop even where it waits at a mid-task rendezvous that an `mdrain.rdv` of the loop has reached (DEDUCED, log entry 88). -/
def Core.cancel (c : Core) (g : Option (BitVec 4)) : Core :=
  let hit (e : MEntry) : Bool := g.isNone || g == some e.lgen
  let out := c.m.queue.filter hit
  let c1 := out.foldl (fun x e => x.dropFoot e.id) { c with m := { c.m with queue := c.m.queue.filter fun e => !hit e } }
  let atRdv := out.any fun e => (match e.instr with | .mdrainRdv _ => true | _ => false) && e.addr == c.m.ctl.pc
  let (outer, cut) := cutLoops g c.m.loops
  let c2 := match cut with
    | some l => let x := c1.mGo outer l.stop; { x with m := { x.m with ctl := { x.m.ctl with rdv := none } } }
    | none => if atRdv then c1.mGo c1.m.loops (c1.m.ctl.pc + 128) else c1
  if c2.m.ctl.stopped ∧ c2.m.ctl.pc ≠ c.m.ctl.pc then { c2 with m := { c2.m with ctl := { c2.m.ctl with epc := c2.m.ctl.pc } } } else c2
/-- MCANCEL_ACT (R274): the second cycle after its issue is over; until then, and until it has acted, a core that waits for it does
nothing else once that cycle has passed. -/
def execMcancelAct (s : State) : Out :=
  match s.me.m.cancels with
  | (t, g) :: l => if s.now ≤ t then .next s else .next (s.updMe fun c => { c with m := { c.m with cancels := l } }.cancel g)
  | [] => .next s

end Sys2Proof.Machine
end

