-- ==== Sys2Proof/Machine/Vec.lean ====
section
/-!
DEFINITION. The V stream: issue, slots and landing (08 R193 to R200), operands, masks, tags and poison (08 R201 to R205),
elementwise arithmetic, compares and masks (08 R206 to R211), scalars, branches and semaphores (08 R223 to R225).
-/
namespace Sys2Proof.Machine
open Sys2Proof

/-! Elements. -/

/-- The first `n` elements of width w. -/
def elemsN (w : Nat) : Nat → Nat → List Nat
  | 0, _ => []
  | n + 1, x => x % 2 ^ w :: elemsN w n (x / 2 ^ w)
/-- Elements put side by side, the first in the low bits. -/
def packE (w : Nat) (l : List Nat) : Nat := l.foldr (fun x r => x % 2 ^ w + 2 ^ w * r) 0
/-- The bits of the active elements. -/
def maskE (w : Nat) (l : List Bool) : Nat := packE w (l.map fun b => if b then 2 ^ w - 1 else 0)
/-- The first `n` bits. -/
def bitsOf (n x : Nat) : List Bool := (List.range n).map fun i => x.testBit i
def ones2048 : V2048 := BitVec.allOnes 2048
/-- The triple class (04 Table 4.2) of a tag. -/
def tagTriple (t : Nat) : Bool := tagWidth t == 3 || tagWidth t == 6
/-- Bits 2,047:2,046, which hold no element of a triple class (05 R105). -/
def spareBits : V2048 := BitVec.ofNat 2048 (3 * 2 ^ 2046)
/-- A value whose bits that hold no element are 0 (05 R105, 09 R239). -/
def VVal.tidy (x : VVal) : VVal := { x with bits := if tagTriple x.tag.toNat then x.bits &&& ~~~spareBits else x.bits }

/-! Results. -/

/-- A result that a word makes. -/
structure VOut where
  dst   : VDst
  val   : VVal
  wmask : V2048 := ones2048
  full  : Bool := true
  fl    : Fl := 0
deriving DecidableEq, Repr, Inhabited

/-- A scalar or mask result. -/
def outBits (d : VDst) (x : Nat) : VOut := { dst := d, val := { bits := BitVec.ofNat 2048 x } }
/-- A whole vector result under a tag. -/
def outVec (d : VDst) (t : BitVec 5) (x : Nat) (fl : Fl := 0) : VOut :=
  let b := BitVec.ofNat 2048 x
  { dst := d, val := { bits := if tagTriple t.toNat then b &&& ~~~spareBits else b, tag := t }, fl := fl }
/-- A vector value passed on as bits, tag and mark; in a register the bits that hold no element are 0 (05 R105). -/
def outCopy (d : VDst) (x : VVal) : VOut :=
  match d with
  | .v _ => { dst := d, val := x.tidy }
  | _ => { dst := d, val := x }
/-- Elements of a vector result where some are not written (R202, 09 R229): codes of the elements in order. -/
def outPart (d : VDst) (t : BitVec 5) (acts : List Bool) (codes : List Nat) (fl : Fl) (psn full : Bool) : VOut :=
  let w := tagWidth t.toNat
  let m := BitVec.ofNat 2048 (maskE w acts)
  { dst := d, val := { bits := BitVec.ofNat 2048 (packE w codes) &&& m, tag := t, psn := psn },
    wmask := if tagTriple t.toNat then m ||| spareBits else m, full := full, fl := fl }

/-- Results enter the pipeline in issue order, to land `lat` slots on (R194). -/
def Core.vSend (c : Core) (lat : Nat) (l : List VOut) : Core :=
  { c with
    v := { c.v with fly := c.v.fly ++ l.map fun o =>
      { dst := o.dst, due := c.v.slot + lat, val := o.val, wmask := o.wmask, full := o.full, flags := o.fl.zeroExtend 9, stamp := c.stamp } },
    stamp := c.stamp + 1 }
/-- One result lands (R194, R198, R203): a queue push can be popped from the second cycle on; in a register the bits that hold no
element are 0, whatever `snapwr` made of the entry (05 R105). -/
def Core.land (c : Core) (now : Nat) (r : VRes) : Core :=
  let f := c.orFlags .v (r.flags.truncate 8)
  match r.dst with
  | .v n =>
    let o := tget {} f.v.v n
    let x : VVal := if r.full then r.val else
      { bits := (o.bits &&& ~~~r.wmask) ||| (r.val.bits &&& r.wmask), tag := r.val.tag, psn := o.psn || r.val.psn }
    { f with v := { f.v with v := tset {} f.v.v n x.tidy } }
  | .k n => { f with v := { f.v with k := tset 0 f.v.k n (r.val.bits.truncate 256) } }
  | .g n =>
    let m : W64 := r.wmask.truncate 64
    { f with v := { f.v with g := regSet f.v.g n ((regGet f.v.g n &&& ~~~m) ||| (r.val.bits.truncate 64 &&& m)) } }
  | .wq n => f.wqPush n { val := r.val, rdy := now + 2 }
  | .q5 => f.qPush 5 { val := r.val.bits.truncate 64, rdy := now + 2 }
/-- The least landing slot of the results in flight. -/
def VEng.nextDue (v : VEng) : Option Nat := v.fly.foldl (fun m r => some (min (m.getD r.due) r.due)) none
/-- Every result due in the least slot lands, in the order of issue. -/
def Core.landNext (c : Core) (now : Nat) : Core :=
  match c.v.nextDue with
  | none => c
  | some d =>
    let c1 := { c with v := { c.v with fly := c.v.fly.filter (fun r => r.due != d) } }
    (c.v.fly.filter (fun r => r.due == d)).foldl (fun t r => t.land now r) c1
/-- RESULT_LANDING (R194): the results due in the earliest slot up to the one at hand land. -/
def execResultLanding (s : State) : Out :=
  .next (if s.me.job.isSome && s.me.landingDue then s.updMe fun c => c.landNext s.now else s)

/-! Issue. -/

/-- The word has taken its slot (R194). -/
def State.vNext (s : State) : State := (s.updMe fun c => { c with v := { c.v with slot := c.v.slot + 1 } }).advance .v
/-- A taken branch: its target issues two slots on; results in flight whose slot is still to come are marked (R196, R197). -/
def State.vBranch (s : State) (t : W64) : State :=
  (s.updMe fun c => { c with v := { c.v with
    fly := c.v.fly.map (fun r => if c.v.slot < r.due then { r with mark := true } else r), slot := c.v.slot + 2 } }).jump .v t

/-- The guard register of a word. -/
def Guard.vNames (g : Guard) : List VDst := if g.gd = 0 then [] else [.g g.gd.toNat]
/-- A V word: it waits under the scoreboard while a register it names is due from a marked result (R197); a false guard
takes its slot (04 R82). -/
def vWord (g : Guard) (names : List VDst) (body : State → Except Stop State) (s : State) : State :=
  if s.me.v.fly.any (fun r => r.mark && (Guard.vNames g ++ names).contains r.dst) then s.noteWait .v .free
  else if guardOn g s.me.vg then s.finish .v (body s)
  else s.vNext

/-- An operand field with its queue flag. -/
abbrev VOp := BitVec 1 × BitVec 5
def vQueues (l : List VOp) : List Nat := (l.filter (fun o => o.1 == 1)).foldl (fun r o => if r.contains o.2.toNat then r else r ++ [o.2.toNat]) []
/-- A vector source (R205). -/
def State.vSrc (s : State) (o : VOp) : VVal :=
  if o.1 == 1 then ((s.me.wqHead o.2.toNat s.now).map (·.val)).getD {} else tget {} s.me.v.v o.2.toNat
/-- A scalar source. -/
def State.gSrc (s : State) (o : VOp) : W64 :=
  if o.1 == 1 then ((s.me.qHead o.2.toNat s.now).map (·.val)).getD 0 else s.me.vg o.2.toNat
def State.kAt (s : State) (n : Nat) : Nat := (tget 0 s.me.v.k n).toNat
/-- The destination that a vector or scalar field names. -/
def vDstOf (q : BitVec 1) (r : BitVec 5) : VDst := if q == 1 then .wq r.toNat else .v r.toNat
def gDstOf (q : BitVec 1) (r : BitVec 5) : VDst := if q == 1 then .q5 else .g r.toNat
/-- A queue destination has room for an entry (R198). -/
def State.vRoom (s : State) : VDst → Except Stop Unit
  | .wq n => need (s.me.wqFree n s.now) (.wait (.queue (8 + n)))
  | .q5 => need (s.me.qFree 5 s.now) (.wait (.queue 5))
  | _ => .ok ()

/-- What a word names and tests: vector sources, each with whether its tag is checked and against which tag; scalar
sources; masks; destinations; whether it carries poison on (R203). -/
structure VUse where
  vs : List (VOp × Option Nat) := []
  gs : List VOp := []
  ks : List Nat := []
  ds : List VDst := []
  carry : Bool := false
deriving Repr, Inhabited
/-- The destination is a register (R197 marks registers, not queues). -/
def VDst.isReg : VDst → Bool
  | .wq _ => false | .q5 => false | _ => true
def VUse.names (u : VUse) : List VDst :=
  (u.vs.filter (fun o => o.1.1 == 0)).map (fun o => .v o.1.2.toNat) ++
  (u.gs.filter (fun o => o.1 == 0)).map (fun o => .g o.2.toNat) ++ u.ks.map .k ++ u.ds.filter VDst.isReg

/-- A vector source that can be read: a register, or the entry at a queue's head. -/
def State.vKnown (s : State) (o : VOp) : Bool := o.1 == 0 || (s.me.wqHead o.2.toNat s.now).isSome
/-- TAG_MISMATCH, then POISON, of the sources that can be read (R201, R203). -/
def State.vSources (s : State) (u : VUse) : Except Stop Unit := do
  let vs := u.vs.filter fun o => s.vKnown o.1
  need (vs.all fun o => match o.2 with | some t => (s.vSrc o.1).tag.toNat == t | none => true) (tr .tagMismatch)
  need (u.carry || !(vs.any (fun o => (s.vSrc o.1).psn) || (vQueues u.gs).any fun n => ((s.me.qHead n s.now).map (·.psn)).getD false)) (tr .poison)

/-- A V word: scoreboard and guard; TAG_MISMATCH and POISON of the sources that can be read, which come before a wait for an
entry of a source queue (R204), and the wait; the tests of `op`, room in the destination queues; then its pops, its results
and the next word (DEDUCED, log entry 50). -/
def vForm (g : Guard) (pk : BitVec 1) (u : VUse) (lat : Nat) (op : State → Except Stop (List VOut × State)) (s : State) : State :=
  vWord g u.names (fun s => do
    let wq := vQueues (u.vs.map (·.1))
    let sq := vQueues u.gs
    s.vSources u
    tests (wq.map (fun n => ((s.me.wqHead n s.now).isSome, .wait (.queue (8 + n)))) ++
      sq.map (fun n => ((s.me.qHead n s.now).isSome, .wait (.queue n))))
    let (outs, s1) ← op s
    u.ds.forM s.vRoom
    let s2 := if pk == 1 then s1 else s1.updMe fun c => sq.foldl (fun t n => t.qPop n s.now) (wq.foldl (fun t n => t.wqPop n s.now) c)
    .ok (s2.updMe fun c => c.vSend lat outs).vNext) s

/-- Which elements a mask field makes active: all where k = 0 (R202). -/
def State.acts (s : State) (k : BitVec 3) (n : Nat) : List Bool :=
  if k = 0 then List.replicate n true else bitsOf n (s.kAt k.toNat)
/-- The mask that a word names. -/
def VF.kNames (f : VF) : List Nat := if f.k = 0 then [] else [f.k.toNat]
def VF.t (f : VF) : Nat := f.tag.toNat
def VF.w (f : VF) : Nat := tagWidth f.tag.toNat
def VF.n (f : VF) : Nat := tagLanes f.tag.toNat
/-- A check against the word's tag: none under RAW (R201). -/
def VF.chk (f : VF) : Option Nat := if f.tag = 0 then none else some f.tag.toNat
def VF.a (f : VF) : VOp := (f.qa, f.va)
def VF.b (f : VF) : VOp := (f.qb, f.vb)
def VF.c (f : VF) : VOp := (0, f.vc)

/-- Element i of a result from element i of up to three sources, on active elements. -/
def laneMap (op : Nat → Nat → Nat → Nat × Fl) : List Bool → List Nat → List Nat → List Nat → List (Nat × Fl)
  | b :: bs, x :: xs, y :: ys, z :: zs => (if b then op x y z else (0, 0)) :: laneMap op bs xs ys zs
  | _, _, _, _ => []
def orFl (l : List (Nat × Fl)) : Fl := l.foldl (fun f x => f ||| x.2) 0
/-- An elementwise word of one, two or three checked sources under a write mask (R202). -/
def vElem (f : VF) (srcs : List VOp) (lat : Nat) (op : Nat → Nat → Nat → Nat × Fl) (s : State) : State :=
  vForm f.g f.pk { vs := srcs.map (fun o => (o, VF.chk f)), ks := VF.kNames f, ds := [vDstOf f.qd f.vd] } lat (fun s =>
    let els (i : Nat) : List Nat := elemsN (VF.w f) (VF.n f) ((srcs[i]?.map fun o => (s.vSrc o).bits.toNat).getD 0)
    let acts := s.acts f.k (VF.n f)
    let r := laneMap op acts (els 0) (els 1) (els 2)
    .ok ([outPart (vDstOf f.qd f.vd) f.tag acts (r.map (·.1)) (orFl r) false (f.k == 0)], s)) s

/-! Arithmetic (R206 to R209). -/

/-- A function of float values of a tag, rounded once (R206, R208). -/
def fltOp (f : VF) (g : Val → Val → Val → Val × Fl) (x y z : Nat) : Nat × Fl :=
  let (a, fa) := readTag (VF.t f) x
  let (b, fb) := readTag (VF.t f) y
  let (c, fc) := readTag (VF.t f) z
  let (v, fv) := g a b c
  let (r, fr) := roundTag (VF.t f) f.rm.toNat (f.sat == 1) v
  (r, fa ||| fb ||| fc ||| fv ||| fr)
/-- A wrapping function of signed integers. -/
def intOp (f : VF) (g : Int → Int → Int) (x y _z : Nat) : Nat × Fl := (itrunc (g (nsext x (VF.w f)) (nsext y (VF.w f))) (VF.w f), 0)
def latFma (t : Nat) : Nat := if t = 17 then 6 else 4
def latUn (t : Nat) : Nat := if t = 17 then 14 else 8

/-- `vadd` (R206). -/
def execVadd (f : VF) (s : State) : Out :=
  .next (if tagFloat (VF.t f) then vElem f [VF.a f, VF.b f] (latFma (VF.t f)) (fltOp f fun a b _ => a.add f.rm.toNat b) s
    else vElem f [VF.a f, VF.b f] 2 (intOp f fun a b => a + b) s)
/-- `vsub` (R206). -/
def execVsub (f : VF) (s : State) : Out :=
  .next (if tagFloat (VF.t f) then vElem f [VF.a f, VF.b f] (latFma (VF.t f)) (fltOp f fun a b _ => a.add f.rm.toNat b.neg) s
    else vElem f [VF.a f, VF.b f] 2 (intOp f fun a b => a - b) s)
/-- `vmul` (R206). -/
def execVmul (f : VF) (s : State) : Out :=
  .next (if tagFloat (VF.t f) then vElem f [VF.a f, VF.b f] (latFma (VF.t f)) (fltOp f fun a b _ => a.mul b) s
    else vElem f [VF.a f, VF.b f] 4 (intOp f fun a b => a * b) s)
/-- A fused form: the product, perhaps negated, plus an addend, perhaps negated. -/
def fusedOp (f : VF) (np nc : Bool) : Nat → Nat → Nat → Nat × Fl :=
  fltOp f fun a b c =>
    let (p, f0) := a.mul b
    let (z, f1) := (if np then p.neg else p).add f.rm.toNat (if nc then c.neg else c)
    (z, f0 ||| f1)
/-- `vfma` (R206). -/
def execVfma (f : VF) (s : State) : Out := .next (vElem f [VF.a f, VF.b f, VF.c f] (latFma (VF.t f)) (fusedOp f false false) s)
/-- `vfms` (R206). -/
def execVfms (f : VF) (s : State) : Out := .next (vElem f [VF.a f, VF.b f, VF.c f] (latFma (VF.t f)) (fusedOp f false true) s)
/-- `vfnma` (R206). -/
def execVfnma (f : VF) (s : State) : Out := .next (vElem f [VF.a f, VF.b f, VF.c f] (latFma (VF.t f)) (fusedOp f true false) s)

/-- The lesser or greater of two elements (R207). -/
def pickOp (f : VF) (max : Bool) (x y _z : Nat) : Nat × Fl :=
  if tagFloat (VF.t f) then
    let (a, fa) := readTag (VF.t f) x
    let (b, fb) := readTag (VF.t f) y
    if a.isNan || b.isNan then (nanTag (VF.t f), fa ||| fb)
    else (if max then (if a.below b then y else x) else (if b.below a then y else x), 0)
  else
    let a := nsext x (VF.w f)
    let b := nsext y (VF.w f)
    (if max then (if a < b then y else x) else (if b < a then y else x), 0)
/-- `vmin` (R207). -/
def execVmin (f : VF) (s : State) : Out := .next (vElem f [VF.a f, VF.b f] 2 (pickOp f false) s)
/-- `vmax` (R207). -/
def execVmax (f : VF) (s : State) : Out := .next (vElem f [VF.a f, VF.b f] 2 (pickOp f true) s)
/-- A change of the sign of an element (R207). -/
def signOp (f : VF) (g : Nat → Nat → Nat) (h : Int → Int) (x _y _z : Nat) : Nat × Fl :=
  if tagFloat (VF.t f) then
    let (a, fa) := readTag (VF.t f) x
    if a.isNan then (nanTag (VF.t f), fa) else (g x (2 ^ (VF.w f - 1)), 0)
  else (itrunc (h (nsext x (VF.w f))) (VF.w f), 0)
/-- `vabs` (R207). -/
def execVabs (f : VF) (s : State) : Out :=
  .next (vElem f [VF.a f] 2 (signOp f (fun x h => x % h) (fun x => (x.natAbs : Int))) s)
/-- `vneg` (R207). -/
def execVneg (f : VF) (s : State) : Out :=
  .next (vElem f [VF.a f] 2 (signOp f (fun x h => if x < h then x + h else x - h) (fun x => -x)) s)

/-- `vrcp` (R208). -/
def execVrcp (f : VF) (s : State) : Out :=
  .next (vElem f [VF.a f] (latUn (VF.t f)) (fltOp f fun a _ _ => (Val.ofInt 1).div a) s)
/-- `vrsqrt` (R208). -/
def execVrsqrt (f : VF) (s : State) : Out := .next (vElem f [VF.a f] (latUn (VF.t f)) (fltOp f fun a _ _ => a.rsqrt) s)
/-- `vsqrt` (R208). -/
def execVsqrt (f : VF) (s : State) : Out :=
  .next (vElem f [VF.a f] (if f.tag = 17 then 20 else 12) (fltOp f fun a _ _ => a.sqrt) s)
/-- `vexp2` (R208). -/
def execVexp2 (f : VF) (s : State) : Out := .next (vElem f [VF.a f] (latUn (VF.t f)) (fltOp f fun a _ _ => a.exp2) s)
/-- `vlog2` (R208). -/
def execVlog2 (f : VF) (s : State) : Out := .next (vElem f [VF.a f] (latUn (VF.t f)) (fltOp f fun a _ _ => a.log2) s)

/-- A bitwise word: whole registers under RAW, else by element under a mask (R209). -/
def vBits (f : VF) (srcs : List VOp) (op : V2048 → V2048 → V2048) (s : State) : State :=
  let d := vDstOf f.qd f.vd
  vForm f.g f.pk { vs := srcs.map (fun o => (o, VF.chk f)), ks := VF.kNames f, ds := [d] } 2 (fun s =>
    let x (i : Nat) : V2048 := (srcs[i]?.map fun o => (s.vSrc o).bits).getD 0
    let r := op (x 0) (x 1)
    .ok ([if f.tag = 0 then outVec d 0 r.toNat
          else let acts := s.acts f.k (VF.n f)
               outPart d f.tag acts (elemsN (VF.w f) (VF.n f) r.toNat) 0 false (f.k == 0)], s)) s
/-- `vand` (R209). -/
def execVand (f : VF) (s : State) : Out := .next (vBits f [VF.a f, VF.b f] (fun a b => a &&& b) s)
/-- `vor` (R209). -/
def execVor (f : VF) (s : State) : Out := .next (vBits f [VF.a f, VF.b f] (fun a b => a ||| b) s)
/-- `vxor` (R209). -/
def execVxor (f : VF) (s : State) : Out := .next (vBits f [VF.a f, VF.b f] (fun a b => a ^^^ b) s)
/-- `vnot` (R209). -/
def execVnot (f : VF) (s : State) : Out := .next (vBits f [VF.a f] (fun a _ => ~~~a) s)
/-- `vsll` (R209). -/
def execVsll (f : VF) (s : State) : Out :=
  .next (vElem f [VF.a f, VF.b f] 2 (fun x y _ => (x * 2 ^ (y % VF.w f) % 2 ^ VF.w f, 0)) s)
/-- `vsrl` (R209). -/
def execVsrl (f : VF) (s : State) : Out := .next (vElem f [VF.a f, VF.b f] 2 (fun x y _ => (x / 2 ^ (y % VF.w f), 0)) s)
/-- `vsra` (R209). -/
def execVsra (f : VF) (s : State) : Out :=
  .next (vElem f [VF.a f, VF.b f] 2 (fun x y _ => (itrunc (nsext x (VF.w f) / ((2 ^ (y % VF.w f) : Nat) : Int)) (VF.w f), 0)) s)
/-- An integer clamped to w bits, with OF (R209). -/
def clampW (w : Nat) (e : Int) : Nat × Fl :=
  let hi : Int := (2 ^ (w - 1) : Nat) - 1
  let lo : Int := -((2 ^ (w - 1) : Nat) : Int)
  if e < lo then (itrunc lo w, fOF) else if hi < e then (itrunc hi w, fOF) else (itrunc e w, 0)
/-- `vaddsat` (R209). -/
def execVaddsat (f : VF) (s : State) : Out :=
  .next (vElem f [VF.a f, VF.b f] 2 (fun x y _ => clampW (VF.w f) (nsext x (VF.w f) + nsext y (VF.w f))) s)
/-- `vsubsat` (R209). -/
def execVsubsat (f : VF) (s : State) : Out :=
  .next (vElem f [VF.a f, VF.b f] 2 (fun x y _ => clampW (VF.w f) (nsext x (VF.w f) - nsext y (VF.w f))) s)
/-- `vmulhi` (R209). -/
def execVmulhi (f : VF) (s : State) : Out :=
  .next (vElem f [VF.a f, VF.b f] 4 (fun x y _ =>
    let w := VF.w f
    (if f.x 0 then x * y / 2 ^ w else itrunc (nsext x w * nsext y w / ((2 ^ w : Nat) : Int)) w, 0)) s)

/-! Compares and masks (R210, R211). -/

/-- The relation of a compare: 0 equal, 1 less, 2 less or equal. -/
def cmpOp (f : VF) (rel : Nat) (x y _z : Nat) : Nat × Fl :=
  let b (e l : Bool) : Nat := if (if rel = 0 then e else if rel = 1 then l && !e else l) then 1 else 0
  if tagFloat (VF.t f) then
    let (a, fa) := readTag (VF.t f) x
    let (c, fc) := readTag (VF.t f) y
    if a.isNan || c.isNan then (0, if rel = 0 then fa ||| fc else fNV) else (b (a.eq c) (a.le c), 0)
  else if f.x 0 then (b (x == y) (x ≤ y), 0)
  else (b (x == y) (nsext x (VF.w f) ≤ nsext y (VF.w f)), 0)
/-- A compare writes the whole mask k[vd] (R210). -/
def vCmp (f : VF) (rel : Nat) (s : State) : State :=
  vForm f.g f.pk { vs := [(VF.a f, VF.chk f), (VF.b f, VF.chk f)], ks := VF.kNames f, ds := [.k f.vd.toNat] } 2 (fun s =>
    let els (o : VOp) : List Nat := elemsN (VF.w f) (VF.n f) (s.vSrc o).bits.toNat
    let r := laneMap (cmpOp f rel) (s.acts f.k (VF.n f)) (els (VF.a f)) (els (VF.b f)) (els (VF.b f))
    .ok ([{ outBits (.k f.vd.toNat) (packE 1 (r.map (·.1))) with fl := orFl r }], s)) s
/-- `vcmpeq` (R210). -/
def execVcmpeq (f : VF) (s : State) : Out := .next (vCmp f 0 s)
/-- `vcmplt` (R210). -/
def execVcmplt (f : VF) (s : State) : Out := .next (vCmp f 1 s)
/-- `vcmple` (R210). -/
def execVcmple (f : VF) (s : State) : Out := .next (vCmp f 2 s)

/-- A mask form: k[vd] from one or two masks (R211). -/
def kOp (f : VF) (two : Bool) (op : BitVec 256 → BitVec 256 → BitVec 256) (s : State) : State :=
  vForm f.g f.pk { ks := f.va.toNat :: (if two then [f.vb.toNat] else []), ds := [.k f.vd.toNat] } 1 (fun s =>
    .ok ([outBits (.k f.vd.toNat) (op (tget 0 s.me.v.k f.va.toNat) (tget 0 s.me.v.k f.vb.toNat)).toNat], s)) s
/-- `kand` (R211). -/
def execKand (f : VF) (s : State) : Out := .next (kOp f true (fun a b => a &&& b) s)
/-- `kor` (R211). -/
def execKor (f : VF) (s : State) : Out := .next (kOp f true (fun a b => a ||| b) s)
/-- `kxor` (R211). -/
def execKxor (f : VF) (s : State) : Out := .next (kOp f true (fun a b => a ^^^ b) s)
/-- `knot` (R211). -/
def execKnot (f : VF) (s : State) : Out := .next (kOp f false (fun a _ => ~~~a) s)
/-- A scalar from a mask (R211). -/
def kToG (f : VF) (op : List Bool → Nat) (s : State) : State :=
  let d := gDstOf f.qd f.vd
  vForm f.g f.pk { ks := [f.va.toNat], ds := [d] } 1 (fun s => .ok ([outBits d (op (bitsOf 256 (s.kAt f.va.toNat)))], s)) s
/-- `kpop` (R211). -/
def execKpop (f : VF) (s : State) : Out := .next (kToG f (fun l => l.count true) s)
/-- `kfirst` (R211). -/
def execKfirst (f : VF) (s : State) : Out := .next (kToG f (fun l => l.findIdx id) s)

/-! Scalars (R223). -/

/-- `gadd` (R223). -/
def execGadd (f : VF) (s : State) : Out :=
  let d := gDstOf f.qd f.vd
  .next (vForm f.g f.pk { gs := [VF.a f, VF.b f], ds := [d] } 1 (fun s => .ok ([outBits d (s.gSrc (VF.a f) + s.gSrc (VF.b f)).toNat], s)) s)
/-- `gmov` (R223). -/
def execGmov (f : VF) (s : State) : Out :=
  let d := gDstOf f.qd f.vd
  .next (vForm f.g f.pk { gs := [VF.a f], ds := [d] } 1 (fun s => .ok ([outBits d (s.gSrc (VF.a f)).toNat], s)) s)
/-- `gaddi` (R223). -/
def execGaddi (f : ViF) (s : State) : Out :=
  .next (vForm f.g 0 { gs := [(0, f.va)], ds := [.g f.vd.toNat] } 1 (fun s =>
    .ok ([outBits (.g f.vd.toNat) (s.me.vg f.va.toNat + f.q.signExtend 64).toNat], s)) s)
/-- A 15-bit piece of a scalar replaced (R223). -/
def putPiece (x : W64) (h : Nat) (q : BitVec 15) : W64 :=
  (x &&& ~~~((0x7FFF : W64) <<< (15 * h))) ||| (q.zeroExtend 64 <<< (15 * h))
/-- `glim` (R223). -/
def execGlim (f : ViF) (s : State) : Out :=
  .next (vForm f.g 0 { gs := [(0, f.va)], ds := [.g f.vd.toNat] } 1 (fun s =>
    .ok ([outBits (.g f.vd.toNat) (putPiece (s.me.vg f.va.toNat) f.vb.toNat f.q).toNat], s)) s)

/-! Branches (R200, R224). -/

def State.vTarget (s : State) (f : ViF) : W64 := s.target_ .v f.q.toInt
/-- `gbr` under `.al`, `.ne` and `.eq` (R224). -/
def execGbr (f : ViF) (s : State) : Out :=
  .next (vWord f.g (if f.vd = 0 then [] else [.g f.va.toNat]) (fun s =>
    let z := s.me.vg f.va.toNat = 0
    let taken := if f.vd = 0 then true else if f.vd = 1 then !z else z
    .ok (if taken then s.vBranch (s.vTarget f) else s.vNext)) s)
/-- `gbdec` (R224): its own result is in flight when the branch marks. -/
def execGbdec (f : ViF) (s : State) : Out :=
  .next (vWord f.g [.g f.vd.toNat] (fun s =>
    let v := s.me.vg f.vd.toNat - 1
    let s1 := s.updMe fun c => c.vSend 1 [outBits (.g f.vd.toNat) v.toNat]
    .ok (if v ≠ 0 then s1.vBranch (s.vTarget f) else s1.vNext)) s)
/-- `gbr.rdv` (R200, R224, 06 R142): no result is in flight when it reaches its rendezvous. -/
def execGbrRdv (f : ViF) (s : State) : Out :=
  .next (vWord f.g [] (fun s => do
    need s.me.v.fly.isEmpty (.wait .free)
    .ok (s.rendezvous .v (f.q.extractLsb' 0 5))) s)

/-! Semaphores (R225). -/

def VF.sid (f : VF) : Nat := (f.qx.extractLsb' 0 4).toNat
def VF.cnt (f : VF) : Nat := (f.qx.extractLsb' 4 3).toNat + 1
/-- `vsemsig` (R225): the stream's stores are performed at their issue. -/
def execVsemsig (f : VF) (s : State) : Out :=
  .next (vWord f.g [] (fun s => do
    need (s.me.semMay (VF.sid f) 2 s.now) (.wait .turn)
    .ok (s.updMe fun c => c.signal (VF.sid f) (VF.cnt f) s.now (c.seenBy 2)).vNext) s)
/-- `vsemwait` (R225): frozen until the semaphore holds cnt; an earlier waiter of R330 comes first. -/
def execVsemwait (f : VF) (s : State) : Out :=
  .next (vWord f.g [] (fun s => do
    need (VF.cnt f ≤ s.me.semAt (VF.sid f) && !s.semEarlier [.c] (VF.sid f) && s.me.semMay (VF.sid f) 4 s.now) (.wait .sync)
    .ok (s.updMe fun c => c.takeSem (VF.sid f) (VF.cnt f) 4 s.now).vNext) s)

end Sys2Proof.Machine
end

