-- ==== Sys2Proof/Machine/VMove.lean ====
section
/-!
DEFINITION. The V stream's data movement, dense lists, reductions and scans, and its loads and stores (08 R212 to R222).
-/
namespace Sys2Proof.Machine
open Sys2Proof

/-! Movement (R212 to R215). -/

/-- `vmov` (R212): bits and mark, and the tag: under RAW the source's own. -/
def execVmov (f : VF) (s : State) : Out :=
  let d := vDstOf f.qd f.vd
  .next (vForm f.g f.pk { vs := [(VF.a f, VF.chk f)], ks := VF.kNames f, ds := [d], carry := true } 2 (fun s =>
    let x := s.vSrc (VF.a f)
    .ok ([if f.tag = 0 then outCopy d x
          else outPart d f.tag (s.acts f.k (VF.n f)) (elemsN (VF.w f) (VF.n f) x.bits.toNat) 0 x.psn (f.k == 0)], s)) s)
/-- `vbcast` (R212). -/
def execVbcast (f : VF) (s : State) : Out :=
  let d := vDstOf f.qd f.vd
  .next (vForm f.g f.pk { gs := [VF.a f], ks := VF.kNames f, ds := [d] } 2 (fun s =>
    .ok ([outPart d f.tag (s.acts f.k (VF.n f)) (List.replicate (VF.n f) ((s.gSrc (VF.a f)).toNat % 2 ^ VF.w f)) 0 false (f.k == 0)], s)) s)

/-- A word that makes a whole vector under its tag from the elements of its sources. -/
def vWhole (f : VF) (vs : List (VOp × Option Nat)) (gs : List VOp) (lat : Nat)
    (op : State → List Nat → List Nat → Except Stop (List Nat)) (s : State) : State :=
  let d := vDstOf f.qd f.vd
  vForm f.g f.pk { vs := vs, gs := gs, ks := VF.kNames f, ds := [d] } lat (fun s => do
    let els (o : VOp) : List Nat := elemsN (VF.w f) (VF.n f) (s.vSrc o).bits.toNat
    let l ← op s (els (VF.a f)) (els (VF.b f))
    .ok ([outVec d f.tag (packE (VF.w f) l)], s)) s
/-- The same under a write mask. -/
def vMasked (f : VF) (vs : List (VOp × Option Nat)) (gs : List VOp) (lat : Nat)
    (op : State → List Nat → List Nat → Except Stop (List Nat)) (s : State) : State :=
  let d := vDstOf f.qd f.vd
  vForm f.g f.pk { vs := vs, gs := gs, ks := VF.kNames f, ds := [d] } lat (fun s => do
    let els (o : VOp) : List Nat := elemsN (VF.w f) (VF.n f) (s.vSrc o).bits.toNat
    let l ← op s (els (VF.a f)) (els (VF.b f))
    .ok ([outPart d f.tag (s.acts f.k (VF.n f)) l 0 false (f.k == 0)], s)) s

/-- `vsel` (R213): the mask selects; it is no write mask. -/
def execVsel (f : VF) (s : State) : Out :=
  .next (vWhole f [(VF.a f, VF.chk f), (VF.b f, VF.chk f)] [] 2 (fun s a b =>
    .ok ((laneMap (fun x y z => (if z = 1 then x else y, 0)) (List.replicate (VF.n f) true) a b
      ((bitsOf (VF.n f) (s.kAt f.k.toNat)).map fun t => if t then 1 else 0)).map (·.1))) s)
/-- The indices that a vector of INT16 or INT32 holds; another tag traps (R214, R221). -/
def State.indices (s : State) (o : VOp) : Except Stop (List Nat) := do
  let x := s.vSrc o
  need (x.tag == 6 || x.tag == 7) (tr .tagMismatch)
  .ok (elemsN (tagWidth x.tag.toNat) (tagLanes x.tag.toNat) x.bits.toNat)
/-- The first `n` of the indices, `none` past the end. -/
def firstN (n : Nat) (l : List Nat) : List (Option Nat) := (List.range n).map fun i => l[i]?
/-- An index vector is tagged INT16 or INT32: a test of TAG_MISMATCH, before POISON (R204). -/
def State.ixTag (s : State) (o : VOp) : Option Nat := if (s.vSrc o).tag = 6 then some 6 else some 7
/-- `vperm` (R214). -/
def execVperm (f : VF) (s : State) : Out :=
  .next (vMasked f [(VF.a f, VF.chk f), (VF.b f, s.ixTag (VF.b f))] [] 4 (fun s a _ => do
    let ix ← s.indices (VF.b f)
    .ok ((firstN (VF.n f) ix).map fun x => ((x.bind fun i => a[i]?).getD 0))) s)
/-- `vrot` (R214). -/
def execVrot (f : VF) (s : State) : Out :=
  .next (vMasked f [(VF.a f, VF.chk f)] [VF.b f] 4 (fun s a _ =>
    let n := (s.gSrc (VF.b f)).toNat % VF.n f
    .ok (a.drop n ++ a.take n)) s)
/-- `vslide` (R214). -/
def execVslide (f : VF) (s : State) : Out :=
  .next (vMasked f [(VF.a f, VF.chk f), (VF.b f, VF.chk f)] [VF.c f] 4 (fun s a b =>
    let n := min (s.gSrc (VF.c f)).toNat (2 * VF.n f)
    .ok (((a ++ b).drop n ++ List.replicate (2 * VF.n f) 0).take (VF.n f))) s)
/-- Two lists by turns. -/
def interleave : List Nat → List Nat → List Nat
  | x :: xs, y :: ys => x :: y :: interleave xs ys
  | _, _ => []
/-- Every second element. -/
def evens : List Nat → List Nat
  | x :: _ :: l => x :: evens l
  | [x] => [x]
  | [] => []
/-- `vzip` (R215). -/
def execVzip (f : VF) (s : State) : Out :=
  .next (vWhole f [(VF.a f, VF.chk f), (VF.b f, VF.chk f)] [] 4 (fun _ a b =>
    let h := if f.x 0 then VF.n f / 2 else 0
    .ok (interleave ((a.drop h).take (VF.n f / 2)) ((b.drop h).take (VF.n f / 2)))) s)
/-- `vunzip` (R215). -/
def execVunzip (f : VF) (s : State) : Out :=
  .next (vWhole f [(VF.a f, VF.chk f), (VF.b f, VF.chk f)] [] 4 (fun _ a b =>
    let o := if f.x 0 then 1 else 0
    .ok (evens (a.drop o) ++ evens (b.drop o))) s)

/-! Dense lists (R216, R217). -/

/-- `vpart` (R216). -/
def execVpart (f : VF) (s : State) : Out :=
  let c4 := f.x 0
  let gs : List VDst := if c4 then (List.range 3).map fun j => .g (f.va.toNat + j) else [.g f.va.toNat]
  .next (vForm f.g f.pk { gs := [VF.c f], ks := f.k.toNat :: (if c4 then [f.vb.toNat] else []), ds := .v f.vd.toNat :: gs } 6 (fun s =>
    let n := min (s.gSrc (VF.c f)).toNat 128
    let bit (k i : Nat) : Nat := if (s.kAt k).testBit i then 1 else 0
    let o (i : Nat) : Nat := bit f.k.toNat i + if c4 then 2 * bit f.vb.toNat i else 0
    let group (j : Nat) : List Nat := (List.range n).filter fun i => o i == j
    let below (j : Nat) : Nat := ((List.range n).filter fun i => o i < j).length
    .ok (outVec (.v f.vd.toNat) 6 (packE 16 (group 0 ++ group 1 ++ group 2 ++ group 3)) ::
      (if c4 then (List.range 3).map fun j => outBits (.g (f.va.toNat + j)) (below (j + 1))
       else [outBits (.g f.va.toNat) (below 1)]), s)) s)
/-- `vcompact` (R217). -/
def execVcompact (f : VF) (s : State) : Out :=
  .next (vForm f.g f.pk { vs := [(VF.a f, VF.chk f)], ks := VF.kNames f, ds := [.v f.vd.toNat, .g f.vb.toNat] } 6 (fun s =>
    let l := ((elemsN (VF.w f) (VF.n f) (s.vSrc (VF.a f)).bits.toNat).zip (s.acts f.k (VF.n f))).filter (·.2)
    .ok ([outVec (.v f.vd.toNat) f.tag (packE (VF.w f) (l.map (·.1))), outBits (.g f.vb.toNat) l.length], s)) s)

/-! Reductions (R218, R219). -/

/-- A reduction: its result in element 0, the others 0; under `.g` in a scalar (R218). -/
def vRed (f : VF) (lat : Nat) (op : List (Nat × Bool) → Nat × Fl) (s : State) : State :=
  let d := if f.x 0 then gDstOf f.qd f.vd else vDstOf f.qd f.vd
  vForm f.g f.pk { vs := [(VF.a f, VF.chk f)], ks := VF.kNames f, ds := [d] } lat (fun s =>
    let (x, fl) := op ((elemsN (VF.w f) (VF.n f) (s.vSrc (VF.a f)).bits.toNat).zip (s.acts f.k (VF.n f)))
    .ok ([if f.x 0 then { outBits d x with fl := fl } else outVec d f.tag x fl], s)) s
/-- The terms of a tree: an element that does not contribute is none (05 R127). -/
def termsOf (f : VF) (l : List (Nat × Bool)) : List Term :=
  l.map fun p => if p.2 then (let (v, g) := readTag (VF.t f) p.1; (some v, g)) else (none, 0)
/-- The exact sum of the contributing integers. -/
def intSum (f : VF) (l : List (Nat × Bool)) : Int := l.foldl (fun a p => if p.2 then a + nsext p.1 (VF.w f) else a) 0
/-- `vredsum` (R218). -/
def execVredsum (f : VF) (s : State) : Out :=
  .next (vRed f (if f.tag = 17 then 12 else 10) (fun l =>
    if tagFloat (VF.t f) then treeSum (VF.t f) f.rm.toNat (f.sat == 1) (termsOf f l)
    else if f.sat = 1 then clampW (VF.w f) (intSum f l) else (itrunc (intSum f l) (VF.w f), 0)) s)
/-- The code of a tree's root, which is a value of the tag's format. -/
def rootCode (f : VF) (r : Val × Fl) : Nat × Fl := ((roundTag (VF.t f) 0 false r.1).1, r.2)
/-- `vredmax` (R218). -/
def execVredmax (f : VF) (s : State) : Out := .next (vRed f 8 (fun l => rootCode f (treeRoot pairMax (termsOf f l))) s)
/-- `vredmin` (R218). -/
def execVredmin (f : VF) (s : State) : Out := .next (vRed f 8 (fun l => rootCode f (treeRoot pairMin (termsOf f l))) s)
/-- `vredamax` (R218). -/
def execVredamax (f : VF) (s : State) : Out :=
  .next (vRed f 8 (fun l => let (v, g) := treeRoot pairAmax (termsOf f l); rootCode f (v.abs, g)) s)

/-- The prefix sums of floats in their working format (R219). -/
def scanF (f : VF) (W : FFmt) (mw : Nat) : Val → List (Nat × Bool) → List (Nat × Fl)
  | _, [] => []
  | p, (x, b) :: l =>
    let (q, fq) : Val × Fl :=
      if b then
        let (v, f0) := readTag (VF.t f) x
        let (z, f1) := p.add mw v
        let (r, f2) := W.roundV mw (f.sat == 1) z
        (r, f0 ||| f1 ||| f2)
      else (p, 0)
    let (c, fc) := roundTag (VF.t f) f.rm.toNat (f.sat == 1) q
    (c, fq ||| fc) :: scanF f W mw q l
/-- The prefix sums of integers. -/
def scanI (w : Nat) : Int → List (Nat × Bool) → List (Nat × Fl)
  | _, [] => []
  | p, (x, b) :: l => let q := if b then p + nsext x w else p; (itrunc q w, 0) :: scanI w q l
/-- `vscan` (R219). -/
def execVscan (f : VF) (s : State) : Out :=
  let d := vDstOf f.qd f.vd
  .next (vForm f.g f.pk { vs := [(VF.a f, VF.chk f)], ks := VF.kNames f, ds := [d] } (if f.tag = 17 then 16 else 12) (fun s =>
    let l := (elemsN (VF.w f) (VF.n f) (s.vSrc (VF.a f)).bits.toNat).zip (s.acts f.k (VF.n f))
    let r := if tagFloat (VF.t f) then scanF f (workFmt (VF.t f)) (workMode (VF.t f) f.rm.toNat) .zero l else scanI (VF.w f) 0 l
    .ok ([outVec d f.tag (packE (VF.w f) (r.map (·.1))) (orFl r)], s)) s)

/-! Loads and stores (R220 to R222). -/

/-- The rank of a memory cause (R204). -/
def memRank : Stop → Nat
  | .trap t => if t.cause = .roleFault then 3 else if t.cause = .misalign then 2 else if t.cause = .ldstScope then 1 else 0
  | _ => 0
/-- The first stop of highest rank among several accesses. -/
def firstRank : List Stop → Option Stop
  | [] => none
  | e :: l => match firstRank l with
    | some g => if memRank g < memRank e then some g else some e
    | none => some e
/-- The stops among several results. -/
def stopsOf {α : Type} (l : List (Except Stop α)) : List Stop := l.filterMap fun r => match r with | .error e => some e | .ok _ => none
/-- Every access passes, or the word stops with the cause of highest rank. -/
def allPass {α : Type} (l : List (Except Stop α)) : Except Stop (List α) :=
  match firstRank (stopsOf l) with
  | some e => .error e
  | none => .ok (l.filterMap fun r => match r with | .ok a => some a | .error _ => none)

/-- An access of one element by `vldt`, aligned by 07 R165. -/
def State.elemAccess (s : State) (p : Perm) (a : Acc) (ea w : Nat) : Except Stop Pieces := do
  let (t, sw) ← s.target s.cur (.stream .v) p false ea w
  match t with
  | .own o ps =>
    need (ps.all (pieceIn (numOf s.cur) .scratch)) (trAt .ldstScope ea)
    need (classOk w o && !(sw && o % 128 + w > 128)) (trAt .misalign ea)
    need (s.rolePieces s.cur s.job s.myPkg ps a) (trAt .roleFault ea)
    .ok ps
  | _ => .error (trAt .ldstScope ea)
/-- An access of one granule of a vector (R221). -/
def State.granAccess (s : State) (p : Perm) (a : Acc) (ea : Nat) : Except Stop Pieces := do
  let (_, ps) ← s.scratch (.stream .v) p a ea 128 128
  .ok ps

/-- The address of `vld` and `vst` (R221). -/
def State.vEa (s : State) (f : VF) : Nat := itrunc ((s.me.vg f.va.toNat).toNat + f.dg * 128) 64
/-- The 16 granules of a vector at an address. -/
def vecGrans (ea : Nat) : List Nat := (List.range 16).map fun i => (ea + 128 * i) % 2 ^ 64

/-- `vld` (R221): its data are read at its issue (DESIGN CHOICE, log entry 7). Where both its granules are empty and its destination queue
is full, `.wait` waits for the granules first (DESIGN CHOICE, log entry 96). -/
def execVld (f : VF) (s : State) : Out :=
  let d := vDstOf f.qd f.vd
  .next (vForm f.g f.pk { gs := [VF.a f], ds := [d] } 8 (fun s => do
    let ea := s.vEa f
    let pss ← allPass ((vecGrans ea).map (s.granAccess .r .rd))
    let ps := pss.foldl (· ++ ·) []
    let full := ps.all fun p => match place p.1 with | .ap n o => s.isFull (coreKey s.myPkg n) o | _ => true
    need (!f.x 0 || full) (.wait (.fe (BitVec.ofNat 64 ea)))
    let v := outVec d f.tag (s.rdPieces s.myPkg ps)
    let s1 := s.usePages .v ea 2048
    let s2 := if f.x 1 then ps.foldl (fun t p => match place p.1 with | .ap n o => t.setFull (coreKey s.myPkg n) o false | _ => t) s1 else s1
    .ok ([{ v with val := { v.val with psn := s.psnPieces s.myPkg ps } }], s2)) s)

/-- `vst` (R221): under a mask only the active elements are stored, and only their granules tested. A masked store writes element by
element and clears no poison bit, though its elements cover a granule (DESIGN CHOICE, log entry 96). -/
def execVst (f : VF) (s : State) : Out :=
  .next (vForm f.g f.pk { vs := [((0, f.vd), VF.chk f)], gs := [VF.a f], ks := VF.kNames f, carry := true } 0 (fun s => do
    let ea := s.vEa f
    let x := s.vSrc (0, f.vd)
    let acts := s.acts f.k (VF.n f)
    let w := VF.w f
    let elems := (List.range (VF.n f)).filter fun i => f.k == 0 || acts.getD i false
    let touched (g : Nat) : Bool := f.k == 0 || elems.any fun i => w * i < 128 * (g + 1) && 128 * g < w * (i + 1)
    let gs := (List.range 16).filter touched
    let pss ← allPass (gs.map fun g => s.granAccess .w .wr ((ea + 128 * g) % 2 ^ 64))
    let paOf (b : Nat) : Nat := (((gs.zip pss).find? fun e => e.1 == b / 128).bind fun e => e.2.head?.map fun q => q.1 + b % 128).getD 0
    let s1 := s.usePages .v ea 2048
    if f.k = 0 then .ok ([], s1.wrPieces s.myPkg (pss.foldl (· ++ ·) []) x.bits.toNat x.psn)
    else .ok ([], elems.foldl (fun t i =>
      t.wrPieces s.myPkg ((cuts (w * i) w).map fun c => (paOf c.1, c.2)) (x.bits.toNat / 2 ^ (w * i) % 2 ^ w) x.psn) s1)) s)

/-- `vldt` (R221): a gather by an index vector. -/
def execVldt (f : VF) (s : State) : Out :=
  let d := vDstOf f.qd f.vd
  let ixo : VOp := (0, f.vb)
  .next (vForm f.g f.pk { vs := [(ixo, s.ixTag ixo)], gs := [VF.a f], ks := VF.kNames f, ds := [d] } 12 (fun s => do
    let ix ← s.indices ixo
    let acts := s.acts f.k (VF.n f)
    let w := VF.w f
    let base := (s.me.vg f.va.toNat).toNat
    let ea (x : Nat) : Nat := (base + x * w) % 2 ^ 64
    let reads := ((firstN (VF.n f) ix).zip acts).map fun p => if p.2 then p.1.map ea else none
    let ps ← allPass (reads.map fun r => match r with | some a => s.elemAccess .r .rd a w | none => .ok [])
    let codes := ps.map fun p => s.rdPieces s.myPkg p
    let psn := ps.any fun p => s.psnPieces s.myPkg p
    let s1 := reads.foldl (fun t r => match r with | some a => t.usePages .v a w | none => t) s
    .ok ([outPart d f.tag acts codes 0 psn (f.k == 0)], s1)) s)

end Sys2Proof.Machine
end

