-- ==== Sys2Proof/Machine/MTests.lean ====
section
/-!
DEFINITION. The causes found at the start of an M command, in the order of 11 R254, and the operands it names (11 R254 to R268).
-/
namespace Sys2Proof.Machine
open Sys2Proof

/-! Operands in the own aperture: runs of bits, by offset and length. -/

abbrev Rows := List (Nat × Nat)
/-- `n` rows of `w` bits, one pitch apart. -/
def rowsAt (o pitch n w : Nat) : Rows := (List.range n).map fun i => (o + i * pitch, w)
/-- A test of every row; a failure names the address of the first that fails. -/
def rowTest (c : Cause) (rs : Rows) (ok : Nat → Nat → Bool) : Bool × Stop :=
  match rs.find? fun r => !ok r.1 r.2 with
  | some r => (false, trAt c (selfVa + r.1))
  | none => (true, tr c)
/-- A test without an address. -/
def mTest (c : Cause) (b : Bool) : Bool × Stop := (b, tr c)
def inData (o n : Nat) : Bool := inPart .scratch o n || inPart .acc o n
/-- Lanes and data lie in the part of the aperture that the form requires. -/
def scopeLanes (rs : Rows) : Bool × Stop := rowTest .ldstScope rs (fun o n => n == 0 || inPart .acc o n)
def scopeData (rs : Rows) : Bool × Stop := rowTest .ldstScope rs (fun o n => n == 0 || inData o n)
def alignRows (a : Nat) (rs : Rows) : Bool × Stop := rowTest .misalign rs (fun o _ => o % a == 0)
def alignLanes (lw : Nat) (rs : Rows) : Bool × Stop := rowTest .misalign rs (fun o _ => (o - accBase) % lw == 0)
/-- The role check of Table 13.2 for the granules of some bits: slots of a flume are as open to the M stream as to any other
stream of the job (14 R313; DEDUCED, log entry 15). -/
def State.rolesOk (s : State) (o n : Nat) (a : Acc) : Bool := s.rolePieces s.cur s.job s.myPkg (apPieces s.cur o n) a
def State.roleRows (s : State) (rs : Rows) (a : Acc) : Bool × Stop := rowTest .roleFault rs (fun o n => s.rolesOk o n a)
/-- Destination lanes: ACC of the context under `.add`, else an overwrite of Table 13.2. -/
def State.roleLanes (s : State) (add : Bool) (rs : Rows) (lw : Nat → Nat) : Bool × Stop :=
  if add then rowTest .roleFault rs (fun o n => (List.range (n / lw o)).all fun i => s.laneAddOk s.cur s.job.rcd.ctx (o + lw o * i) (lw o))
  else s.roleRows rs .wr
/-- The bits from the first row to the end of the last (R265). -/
def span (rs : Rows) : Nat × Nat :=
  match rs.filter (fun r => r.2 != 0) with
  | [] => (0, 0)
  | r :: l => (l.foldl (fun a q => min a q.1) r.1, l.foldl (fun a q => max a (q.1 + q.2)) (r.1 + r.2))
/-- OPERAND_OVERLAP (R265) (DEDUCED, log entry 52). -/
def overlapTest (d : Rows) (ops : List Rows) : Bool × Stop :=
  let (a, b) := span d
  (!(ops.any fun r => let (x, y) := span r; x < b && a < y), tr .operandOverlap)

/-- Accumulator modes of om and lm (Table 11.9). -/
def omMode : Nat → Nat
  | 0 => 3 | 1 => 4 | _ => 1
def lmMode (lm : Nat) : Nat := lm + 1
/-- The lane stride of a destination: the region's under `.add`, else the mode's. -/
def State.laneW (s : State) (add : Bool) (mode : Nat) (o : Nat) : Nat := if add then s.laneStep s.cur o else laneWide mode
/-- Rows of lanes: the length in bits follows from the lane stride at each row. -/
def State.laneRows (s : State) (add : Bool) (mode o pitch n k : Nat) : Rows :=
  (List.range n).map fun i => (o + i * pitch, k * s.laneW add mode (o + i * pitch))

/-- The tests of destination lanes, in their places of R254: scope, alignment, role. -/
structure LaneDst where
  rows : Rows
  add  : Bool
  mode : Nat
def LaneDst.scope (d : LaneDst) : Bool × Stop := scopeLanes d.rows
def LaneDst.align (s : State) (d : LaneDst) : Bool × Stop :=
  rowTest .misalign d.rows (fun o _ => (o - accBase) % s.laneW d.add d.mode o == 0)
def LaneDst.role (s : State) (d : LaneDst) : Bool × Stop := s.roleLanes d.add d.rows (s.laneW d.add d.mode)

/-! The block sizes of Table 11.13. -/
def fpBlock (t : Nat) : Nat × Nat :=
  match t with
  | 17 => (8, 16) | 16 => (16, 32) | 14 => (32, 64) | 15 => (32, 64) | _ => (32, 128)

/-! The forms. -/

def MF.e0 (f : MF) : Nat := f.i 0 6
def MF.nr (f : MF) : Nat := f.i 6 6 + 1
def MF.n18 (f : MF) : Nat := f.i 0 18
def MF.fpK (f : MF) : Nat := f.i 0 16 + 1
def MF.fpE0 (f : MF) : Nat := f.i 16 6
def Desc.nrows (d : Desc) : Nat := d.rows.toNat + 1
/-- The destination of `mtern`. -/
def State.ternDst (s : State) (f : MF) (r : MRun) : LaneDst :=
  let add := f.q 39 1 == 0
  let mode := omMode (f.q 40 2)
  { rows := s.laneRows add mode r.ed r.dd.pitch.toNat (MF.nr f) 128, add := add, mode := mode }
def tileRows (r : MRun) : Rows := rowsAt r.eb r.db.pitch.toNat 64 256
/-- The destination and the operands of `mfp`. -/
def State.fpDst (s : State) (f : MF) (r : MRun) : LaneDst :=
  let add := f.q 38 1 == 0
  let mode := omMode (f.q 39 2)
  let (mt, nt) := fpBlock (f.q 32 5)
  { rows := s.laneRows add mode r.ed r.dd.pitch.toNat mt nt, add := add, mode := mode }
def fpA (f : MF) (r : MRun) : Rows :=
  if f.q 37 1 = 1 then [] else rowsAt r.ea r.da.pitch.toNat (fpBlock (f.q 32 5)).1 (MF.fpK f * tagWidth (f.q 32 5))
def fpB (f : MF) (r : MRun) : Rows := rowsAt r.eb r.db.pitch.toNat (MF.fpK f) ((fpBlock (f.q 32 5)).2 * tagWidth (f.q 32 5))
/-- The destination and the elements of `maccwr`. -/
def State.wrDst (s : State) (f : MF) (r : MRun) : LaneDst :=
  let add := f.q 32 1 == 0
  let mode := lmMode (f.q 33 3)
  { rows := if MF.n18 f = 0 then [] else s.laneRows add mode r.ed 0 1 (MF.n18 f), add := add, mode := mode }
def wrElems (f : MF) (r : MRun) : Rows := if MF.n18 f = 0 then [] else [(r.ea, MF.n18 f * tagWidth r.da.tag.toNat)]
/-- The lanes and the elements of `maccrd`. -/
def rdLanes (f : MF) (r : MRun) : Rows := if MF.n18 f = 0 then [] else [(r.ea, MF.n18 f * laneWide (lmMode (f.q 32 3)))]
def rdElems (f : MF) (r : MRun) : Rows := if MF.n18 f = 0 then [] else [(r.ed, MF.n18 f * tagWidth r.dd.tag.toNat)]
/-- The constant of `mscan` (R269). -/
structure Scan where
  st    : Nat
  sub   : Bool
  kp    : Nat
  count : Nat
  first : Nat
def scanOf (f : MkF) : Scan :=
  let c := f.const.toNat
  { st := nbits c 52 12, sub := nbits c 51 1 == 1, kp := nbits c 48 3 + 1, count := nbits c 32 16 + 1, first := nbits c 0 32 }
def scanTarget (r : MRun) : Rows := rowsAt r.ea r.da.pitch.toNat 64 4096
def recordBits (kp : Nat) : Nat := 64 + 16 * 128 * kp
def scanRecord (f : MkF) (r : MRun) : Rows := [(r.ed, recordBits (scanOf f).kp)]

/-- Rows that lie in virtual memory, through the M stream's TLB (`mseed`, `mcimld`): translation, then scope; of the own aperture they
take the scratchpad and the accumulators (07 R162, R163). -/
def State.virtRows (s : State) (rs : Rows) : Except Stop (List (Nat × Pieces)) :=
  allPass (rs.map fun r => do
    let (t, _) ← s.target s.cur (.stream .m) .r false (r.1 % 2 ^ 64) r.2
    need (match t with | .own _ ps => ps.all (offIn .scratch) || ps.all (offIn .acc) | _ => true) (trAt .ldstScope r.1)
    .ok (r.1, t.local))
def State.virtImm (s : State) (l : List (Nat × Pieces)) : Bool × Stop :=
  match l.find? fun e => !(e.2.all fun q => (s.roleAt s.myPkg q.1).role == .imm) with
  | some e => (false, trAt .roleFault e.1)
  | none => (true, tr .roleFault)
def seedHeader (w : Nat) : Nat × Nat × Nat × Nat := (nbits w 56 8, nbits w 35 5, nbits w 32 3 + 1, nbits w 0 32)
/-- What a command reads through the TLB of the stream, taken as it starts (DEDUCED, log entry 87): the pieces of each row. -/
def MSrc := List (Nat × Pieces)
def MSrc.pieces (l : MSrc) : Pieces := l.foldl (fun a e => a ++ e.2) []
/-- The rows of the tile that an `mcimld.mem` reads. -/
def macRows (r : MRun) : Rows := rowsAt r.ea r.da.pitch.toNat 64 256
/-- The rows that a command reads in virtual memory; the header of a record says how long it is. -/
def State.mSrc (s : State) (r : MRun) : Except Stop MSrc :=
  match r.ent.instr with
  | .mseed _ => do
    let h ← s.virtRows [(r.ea, 64)]
    s.virtRows [(r.ea, recordBits (seedHeader ((s.viewed (MSrc.pieces h)).rdPieces s.myPkg (MSrc.pieces h))).2.2.1)]
  | .mcimldMem _ => s.virtRows (macRows r)
  | _ => .ok []
/-- The command with what it reads there. -/
def State.mSeen (s : State) (r : MRun) (l : MSrc) : MRun :=
  let v := s.viewed l.pieces
  { r with seen := v.rdPieces s.myPkg l.pieces, seenPsn := v.psnPieces s.myPkg l.pieces,
           reading := match r.ent.instr with | .mseed _ => true | _ => false }

/-- The lanes and elements of the own aperture that a command writes. -/
def State.mWrites (s : State) (r : MRun) : Rows :=
  match r.ent.instr with
  | .mternSeed f | .mternCim f | .mternTile f => (s.ternDst f r).rows
  | .mfp f => (s.fpDst f r).rows
  | .maccz f => if MF.n18 f = 0 then [] else [(r.ed, 40 * MF.n18 f)]
  | .maccrd f => rdElems f r
  | .maccwr f => (s.wrDst f r).rows
  | .mscan f => scanRecord f r ++ if (scanOf f).sub then scanTarget r else []
  | _ => []

def Core.row (c : Core) (i : Nat) : Row := tget {} c.m.rows i
def Core.basis (c : Core) (i : Nat) : Basis := tget {} c.m.bases i
def Core.mac (c : Core) (i : Nat) : Macro := tget {} c.m.macros i
/-- Some entry of the row buffer has another tag. -/
def Core.rowsTagged (c : Core) (e0 n t : Nat) : Bool := (List.range n).all fun i => (c.row (e0 + i)).tag.toNat == t

/-- The causes of a command at its start, in the order of R254. -/
def State.mTests (s : State) (r : MRun) : Except Stop Unit := do
  let c := s.me
  let tfull := mTest .planeFenced (c.m.tfence != 0xF)
  let ffull := mTest .planeFenced (c.m.ffence != 0xF)
  match r.ent.instr with
  | .mrow f =>
    let rows := rowsAt r.ea r.da.pitch.toNat r.da.nrows 2048
    let sc := if f.q 32 1 = 1 then rowsAt r.eb 32 r.da.nrows 32 else []
    tests [scopeData (rows ++ sc), mTest .mRange (MF.e0 f + r.da.nrows ≤ 64), alignRows 128 rows, alignRows 32 sc,
      s.roleRows (rows ++ sc) .rd, mTest .tagMismatch (sc.isEmpty || r.db.tag == 16)]
  | .mseed _ =>
    let l ← s.mSrc r
    let h ← s.virtRows [(r.ea, 64)]
    let (rsv, cf, _, _) := seedHeader (s.mSeen r l).seen
    tests [mTest .mRange ((s.viewed (MSrc.pieces h)).psnPieces s.myPkg (MSrc.pieces h) || (rsv == 0 && (cf == 14 || cf == 15))), (r.ea % 128 == 0, trAt .misalign r.ea),
      (s.viewed l.pieces).virtImm l]
  | .mternSeed f =>
    let d := s.ternDst f r
    tests [d.scope, mTest .mRange (MF.e0 f + MF.nr f ≤ 64 && (c.basis r.buf).kp != 0), LaneDst.align s d, LaneDst.role s d,
      mTest .tagMismatch (c.rowsTagged (MF.e0 f) (MF.nr f) 5), tfull]
  | .mternCim f =>
    let d := s.ternDst f r
    tests [d.scope, mTest .mRange (MF.e0 f + MF.nr f ≤ 64 && (c.mac (f.q 35 4)).valid), LaneDst.align s d, LaneDst.role s d,
      mTest .tagMismatch (c.rowsTagged (MF.e0 f) (MF.nr f) 5), tfull]
  | .mternTile f =>
    let d := s.ternDst f r
    tests [scopeData (tileRows r), d.scope, mTest .mRange (MF.e0 f + MF.nr f ≤ 64), LaneDst.align s d, alignRows 2 (tileRows r),
      LaneDst.role s d, s.roleRows (tileRows r) .rd,
      mTest .tagMismatch (c.rowsTagged (MF.e0 f) (MF.nr f) 5 && r.db.tag == 1), overlapTest d.rows [tileRows r], tfull]
  | .mcimldMem _ =>
    let l ← s.mSrc r
    tests [rowTest .misalign (macRows r) (fun o _ => o % 2 == 0), (s.viewed l.pieces).virtImm l, mTest .tagMismatch (r.da.tag == 1), tfull]
  | .mcimldBasis f => tests [mTest .mRange (f.q 34 3 < (c.basis r.buf).kp), tfull]
  | .mfp f =>
    let t := f.q 32 5
    let d := s.fpDst f r
    let rb := f.q 37 1 == 1
    let mt := (fpBlock t).1
    tests [scopeData (fpA f r ++ fpB f r), d.scope, mTest .mRange (!rb || (MF.fpE0 f + mt ≤ 64 && MF.fpK f ≤ tagLanes t)),
      LaneDst.align s d, alignRows (tagWidth t) (fpA f r ++ fpB f r), LaneDst.role s d, s.roleRows (fpA f r ++ fpB f r) .rd,
      mTest .tagMismatch (r.db.tag.toNat == t && (if rb then c.rowsTagged (MF.fpE0 f) mt t else r.da.tag.toNat == t)),
      overlapTest d.rows [fpA f r, fpB f r], ffull]
  | .maccz f =>
    let d : LaneDst := { rows := if MF.n18 f = 0 then [] else [(r.ed, 40 * MF.n18 f)], add := false, mode := 1 }
    tests [d.scope, LaneDst.align s d, LaneDst.role s d]
  | .maccrd f =>
    let w := tagWidth r.dd.tag.toNat
    tests [scopeLanes (rdLanes f r), scopeData (rdElems f r), alignLanes (laneWide (lmMode (f.q 32 3))) (rdLanes f r),
      alignRows (max w 1) (rdElems f r), s.roleRows (rdLanes f r) .rd, s.roleRows (rdElems f r) .wr,
      mTest .tagMismatch (2 ≤ r.dd.tag.toNat && w != 0)]
  | .maccwr f =>
    let w := tagWidth r.da.tag.toNat
    let d := s.wrDst f r
    tests [d.scope, scopeData (wrElems f r), LaneDst.align s d, alignRows (max w 1) (wrElems f r), LaneDst.role s d,
      s.roleRows (wrElems f r) .rd, mTest .tagMismatch (w != 0), overlapTest d.rows [wrElems f r]]
  | .mscan f =>
    tests [scopeData (scanRecord f r ++ scanTarget r), alignRows 128 (scanRecord f r), alignRows 32 (scanTarget r),
      s.roleRows (scanRecord f r ++ scanTarget r) .wr, s.roleRows (scanTarget r) .rd,
      mTest .tagMismatch (r.da.tag == 16 && (r.dd.tag == 14 || r.dd.tag == 15)), overlapTest (scanRecord f r) [scanTarget r], ffull]
  | _ => .ok ()

end Sys2Proof.Machine
end

