-- ==== Sys2Proof/Machine/Roles.lean ====
section
/-!
DEFINITION. Changing roles, waiting for them, and phased private regions (13 R283 to R301).
-/
namespace Sys2Proof.Machine
open Sys2Proof

/-- The role codes of 04 Table 4.3. -/
def roleOf (n : Nat) : Role := match n with | 1 => .imm | 2 => .str | 3 => .acc | _ => .prv

/-! Recast (R283 to R292). -/

/-- rd of a recast to ACC: lane mode and point (R284). -/
def accArg (x : W64) : Option (BitVec 3 × BitVec 6) :=
  let m := x.toNat % 8
  let p := nbits x.toNat 3 6
  if x.toNat < 512 ∧ 1 ≤ m ∧ m ≤ 4 ∧ (if m = 2 then p ≤ 39 else p = 0) then some (BitVec.ofNat 3 m, BitVec.ofNat 6 p) else none
/-- The role granules of a region, by their first physical bit: each translated, and swizzling stays within one (R285 test 2, 07 R167). -/
def State.regionPas (s : State) (p : Perm) (base ext : Nat) : Except Stop (List Nat) :=
  (List.range (ext / 32768)).mapM fun i => do
    let (pa, _) ← s.xlate s.cur (.stream .c) ((base + 32768 * i) % 2 ^ 64) p
    .ok (pa / 32768 * 32768)
/-- A granule lies in the accumulator part of an aperture. -/
def inAccPart (pa : Nat) : Bool :=
  match place pa with | .ap _ o => accBase ≤ o && o + 32768 ≤ accEnd | _ => false
/-- "Recast out of the role" of Table 13.2. -/
def recastOut (e : DirEntry) (j : Job) : Bool := if e.role = .prv then e.ownedBy j else e.ctx == j.rcd.ctx
/-- The tests of R285 in their order; the granules, and the mode and point of a recast to ACC. -/
def State.recastTests (s : State) (fn : BitVec 10) (base ext rd : W64) : Except Stop (List Nat × BitVec 3 × BitVec 6) := do
  let b := base.toNat
  let n := ext.toNat
  let dst := roleOf (fn.extractLsb' 0 3).toNat
  let acc := if dst = .acc then accArg rd else some (0, 0)
  need (b % 32768 == 0 && n % 32768 == 0 && n ≤ 2 ^ 40 && acc.isSome) (trAt .roleRange b)
  let pas ← s.regionPas .w b n
  need (dst != .acc || pas.all inAccPart) (trAt .roleRange b)
  let es := pas.map fun pa => s.roleAt s.myPkg pa
  need ((fn.getLsbD 9 || es.all fun e => e.role == roleOf (fn.extractLsb' 3 3).toNat) && es.all fun e => recastOut e s.job) (trAt .roleFault b)
  need (es.all fun e => !e.ph) (tr .phaseFault)
  let (m, p) := acc.getD (0, 0)
  .ok (pas, m, p)
/-- A number goes into a rising list, once. -/
def insertUp (x : Nat) : List Nat → List Nat
  | [] => [x]
  | y :: l => if x < y then x :: y :: l else if x = y then y :: l else y :: insertUp x l
def risingOf (l : List Nat) : List Nat := l.foldr insertUp []
/-- Reserves granules in their order up to the first that another recast holds: the machine, and those left (R286). -/
def State.reserve (s : State) (pkg : Nat) : List Nat → State × List Nat
  | [] => (s, [])
  | pa :: l =>
    let e := s.roleAt pkg pa
    if e.held then (s, pa :: l) else (s.setRoleAt pkg pa { e with held := true }).reserve pkg l
/-- A recast goes on reserving: with every granule reserved it pops its operands and waits for RECAST_COMPLETE (R286). -/
def State.goOn (s : State) (pk : BitVec 1) (qs : List Nat) (r : RecastRun) : State :=
  let (s1, l) := s.reserve s.myPkg r.todo
  let s2 := if l.isEmpty then s1.cPop pk qs else s1
  (s2.updMe fun c => { c with recast := some { r with todo := l } }).noteWait .c .free

/-- The copies of the other cores. -/
def State.otherCopies (s : State) : List (Nat × Nat) :=
  s.cores.flatMap fun e => if e.1 = s.cur then [] else e.2.a.copies.map fun x => (e.1, x.id)
/-- `recast` (R285 to R287): its tests; then it reserves its granules in ascending order, and at one that another recast holds it
waits, and makes its tests again as soon as that one is free; a test that then fails releases what it holds. A job that stops
while it waits releases it too, and the word issues again on resumption (DEDUCED, log entry 54). -/
def execRecast (f : CrF) (s : State) : Out :=
  .next (cWord f.g (fun s => do
    let qs := CrQ f true true
    match s.me.recast with
    | none =>
      s.cSources qs
      let base := s.cSrc f.qa f.ra
      let ext := s.cSrc f.qb f.rb
      let (pas, m, p) ← s.recastTests f.fn base ext (s.cg f.rd.toNat)
      let c := s.me
      let gs := risingOf pas
      .ok (s.goOn f.pk qs
        { va := base.toNat, grans := gs, todo := gs, role := roleOf (f.fn.extractLsb' 0 3).toNat, mode := m, point := p, stamp := c.stamp,
          copies := (c.a.copies.filter (·.started)).map (·.id), cmds := c.m.run.map fun r => r.ent.id,
          others := s.otherCopies, ids := s.ids, scope := (f.fn.extractLsb' 6 3).toNat })
    | some r =>
      match r.todo with
      | [] => .error (.wait .free)
      | pa :: _ =>
        if !s.me.running s.now && !s.me.inh then .ok (s.release r)
        else if (s.roleAt s.myPkg pa).held then .error (.wait .free)
        else match s.recastTests f.fn (s.cSrc f.qa f.ra) (s.cSrc f.qb f.rb) (s.cg f.rd.toNat) with
          | .ok _ => .ok (s.goOn f.pk qs r)
          | .error (.trap t) => .ok ((s.release r).takeTrap .c t)
          | .error e => .error e) s)

/-- The role granules of a recast as spans of physical bits. -/
def RecastRun.spans (r : RecastRun) : List (Nat × Nat) := r.grans.map fun pa => (pa, pa + 32768)
/-- A copy of a core may write physical bits of a package, by whatever names. -/
def State.copyReaches (s : State) (ck : Nat) (x : Copy) (pkg : Nat) (l : List (Nat × Nat)) : Bool :=
  let t := { s with cur := ck }
  (t.copyWrites x).any fun w => (t.reach ck (.copy x.id) w).any fun q => q.pkg == pkg && spansMeet [(q.lo, q.hi)] l
/-- A write or add in flight to physical bits of a package. -/
def Msg.reaches (m : Msg) (pkg : Nat) (l : List (Nat × Nat)) : Bool :=
  m.kind.asks && m.kind != .read && m.kind != .forward && m.dpkg == pkg && spansMeet [m.span] l
/-- Some announced write or add is still to be performed (R287): one in flight, one of a copy or a command started before, by the
bits that it writes or its declared footprint. Of other cores, those in flight and those of copies issued when the recast issues are
taken to happen before it (DEDUCED, log entry 54). -/
def State.announced (s : State) (r : RecastRun) : Bool :=
  let c := s.me
  let meets (l : List (Nat × Nat)) : Bool := spansMeet l r.spans
  let feet (copy : Bool) (id : Nat) : List (Nat × Nat) :=
    (c.feet.filter fun f => f.copy == copy && f.id == id && f.wr).map fun f => (apAddr (numOf s.cur) f.lo, apAddr (numOf s.cur) f.hi)
  (c.owed.any fun w => (match w.sender with | .copy i => r.copies.contains i | _ => w.stamp < r.stamp) && w.pkg == s.myPkg &&
    meets [(w.lo, w.hi)]) ||
  (c.a.copies.any fun x => r.copies.contains x.id && (meets (feet true x.id) || s.copyReaches s.cur x s.myPkg r.spans)) ||
  (s.msgs.any fun e => e.1 < r.ids && e.2.any fun m => coreKey m.spkg m.score != s.cur && m.reaches s.myPkg r.spans) ||
  (r.others.any fun e => ((s.coreAt e.1).copy? e.2).any fun x => s.copyReaches e.1 x s.myPkg r.spans) ||
  (c.m.run.any fun x => r.cmds.contains x.ent.id && meets (feet false x.ent.id ++ (s.mWrites x).map fun q => (apAddr (numOf s.cur) q.1, apAddr (numOf s.cur) (q.1 + q.2))))
/-- The entry of a granule after its flip (R288, R291). -/
def RecastRun.flip (r : RecastRun) (j : Job) (e : DirEntry) : DirEntry :=
  let e0 := { e with held := false }
  match r.role with
  | .acc => { e0 with role := .acc, mode := r.mode, point := r.point }
  | .prv => if e.role = .prv then e0 else { e0 with role := .prv, mode := 0, point := 0, frame := j.rcd.frame, ctx := j.rcd.ctx, sys := false }
  | x => { e0 with role := x, mode := 0, point := 0 }
/-- What a granule holds now. -/
def State.periodOf (s : State) (pkg pa : Nat) : Period :=
  { entry := { s.roleAt pkg pa with held := false }, bits := memBits s.mem (bitKey pkg pa) 32768
    psn := (List.range 256).foldl (fun m i => if tget false s.psn (granKey pkg (pa + 128 * i)) then m + 2 ^ i else m) 0 }
/-- The effective scope of a recast (R288). -/
def RecastRun.effScope (r : RecastRun) (ck : Nat) : Nat := r.grans.foldl (fun m pa => max m (leastScope ck pa)) r.scope
/-- The invalidations of a recast drop every replica of the granule in its effective scope; where it ends an IMM period, replicas
filled in that period stand outside the scope (R288, R308) (DEDUCED, log entry 56). -/
def State.keepPeriod (s : State) (r : RecastRun) (pa : Nat) : State :=
  let k := roleKey s.myPkg pa
  let sc := r.effScope s.cur
  let now := if replicated pa && (s.roleAt s.myPkg pa).role == .imm then [s.periodOf s.myPkg pa] else []
  let l := if 4 ≤ sc then [] else (now ++ tget [] s.replicas k).map fun p => { p with cuts := (sc, s.cur) :: p.cuts }
  { s with replicas := tset [] s.replicas k l }
def State.keepPeriods (s : State) (r : RecastRun) : State := r.grans.foldl (fun t pa => t.keepPeriod r pa) s
/-- RECAST_COMPLETE (R288): once every announced write is performed the granules flip and HELD clears, all in one act: between the
first flip and the last the model has no moment at which another agent looks (DESIGN CHOICE, log entry 101). -/
def execRecastComplete (s : State) : Out :=
  match s.me.recast with
  | none => .next s
  | some r =>
    if !r.todo.isEmpty || s.announced r then .next s
    else .next ((((s.keepPeriods r).mapRoles s.myPkg (r.flip s.job) r.grans).updMe fun c => { c with recast := none }).advance .c)

/-- `rcwait` (R293). -/
def execRcwait (f : CrF) (s : State) : Out :=
  .next (cWord f.g (fun s => do
    let qs := CrQ f true true
    s.cSources qs
    let b := (s.cSrc f.qa f.ra).toNat
    let n := (s.cSrc f.qb f.rb).toNat
    need (b % 32768 == 0 && n % 32768 == 0 && n ≤ 2 ^ 40) (trAt .roleRange b)
    let pas ← s.regionPas .r b n
    need (pas.all fun pa => let e := s.roleAt s.myPkg pa; e.role == roleOf (f.fn.extractLsb' 0 3).toNat && !e.held) (.wait (.rc (BitVec.ofNat 64 b)))
    .ok ((s.cPop f.pk qs).advance .c)) s)

/-! Phases (R294 to R300). -/

/-- The bits of a phase header (Table 13.6). -/
def hdrField (h lo n : Nat) : Nat := nbits h lo n
/-- Role granules of the own scratchpad, all PRV of the job, as offsets. -/
def State.ownRegion (s : State) (pas : List Nat) : Option (List Nat) :=
  pas.mapM fun pa => match place pa with
    | .ap n o => if n = numOf s.cur ∧ o + 32768 ≤ scratchBits ∧ (s.roleAt s.myPkg pa).ownedBy s.job then some o else none
    | _ => none
/-- The entries of a header fit the streams that the task started. -/
def Core.entriesOk (c : Core) (es : List Nat) : Bool :=
  (strs.zip es).all fun e => ((c.ctl e.1).started == (e.2 != 0)) && e.2 % e.1.wordBits == 0
/-- `phmark` (R295) (DEDUCED, log entry 55). -/
def execPhmark (f : CrF) (s : State) : Out :=
  .next (cWord f.g (fun s => do
    let qs := CrQ f true true
    s.cSources qs
    let va := s.cSrc f.qa f.ra
    let ext := (s.cSrc f.qb f.rb).toNat
    let hva := s.cg f.rd.toNat
    let (hps, _) ← s.pieces s.cur (.stream .c) .r hva.toNat 512
    let n := min ((ext + 32767) / 32768) 257
    let reg ← s.regionPas .w va.toNat (32768 * n)
    let v := s.viewed hps
    let h := v.rdPieces s.myPkg hps
    let sva := hdrField h 256 64
    let shd ← s.regionPas .w sva (32768 * n)
    let es := [hdrField h 0 64, hdrField h 64 64, hdrField h 128 64, hdrField h 192 64]
    let c := s.me
    let ok := c.phase.isNone && hva.toNat % 128 == 0 && (hps.all fun p => (v.roleAt s.myPkg p.1).role == .imm) && hdrField h 484 28 == 0 &&
      hdrField h 480 4 ≤ 12 && c.entriesOk es && va.toNat % 32768 == 0 && sva % 32768 == 0 && ext % 32768 == 0 && 32768 ≤ ext && ext ≤ 8388608
    need ok (tr .phaseFault)
    match s.ownRegion reg, s.ownRegion shd with
    | some o, some q => do
      need (!(o.any fun g => q.contains g)) (tr .phaseFault)
      need (!v.psnPieces s.myPkg hps) (trAt .poison hva.toNat)
      let ph : Phase := { hdr := hva, va := va, entry := es.map (BitVec.ofNat 64), region := o, shadow := q,
                          swz := (List.range o.length).map fun i => ((s.peek s.cur (.stream .c) ((va.toNat + 32768 * i) % 2 ^ 64)).map (·.2)).getD 0,
                          insrc := BitVec.ofNat 64 (hdrField h 320 64), indst := BitVec.ofNat 64 (hdrField h 384 64),
                          incnt := hdrField h 448 32, inwc := hdrField h 480 4, sems := c.sem }
      let s1 := ((s.drawn hps).cPop f.pk qs).mapRoles s.myPkg (fun e => { e with ph := true }) reg
      .ok ((s1.updMe fun c => { c with phase := some ph, aborts := 0, last := 0, erun := 0 }).advance .c)
    | _, _ => .error (tr .phaseFault)) s)

/-- The current copy becomes the committed copy (R297): what the shadow slots hold goes to the region. -/
def State.commitPhase (s : State) (ck : Nat) : State :=
  match (s.coreAt ck).phase with
  | none => s
  | some p =>
    let pa (o : Nat) : Nat := apAddr (numOf ck) o
    let s1 := p.dirty.foldl (fun (t : State) e =>
      let v := memBits t.mem (bitKey (pkgOf ck) (pa (p.shadowOff e.1))) 128
      let b := tget false t.psn (granKey (pkgOf ck) (pa (p.shadowOff e.1)))
      { t with mem := memSetBits t.mem (bitKey (pkgOf ck) (pa (p.regionOff e.1))) 128 v,
               psn := tset false t.psn (granKey (pkgOf ck) (pa (p.regionOff e.1))) b }) s
    s1.updCore ck fun c => { c with phase := some { p with dirty := [] }, erun := 0 }
/-- The phase ends with a commit (R297 `.end`, R300). -/
def State.endPhase (s : State) (ck : Nat) : State :=
  match (s.coreAt ck).phase with
  | none => s
  | some p =>
    let pas := p.region.map (apAddr (numOf ck))
    ((s.commitPhase ck).mapRoles (pkgOf ck) (fun e => { e with ph := false }) pas).updCore ck fun c => { c with phase := none }
/-- A started copy or command whose write footprint overlaps the region (R297). -/
def Core.writesPhase (c : Core) (p : Phase) : Bool :=
  c.feet.any fun f => f.wr && spansMeet [(f.lo, f.hi)] (p.region.map fun o => (o, o + 32768)) &&
    if f.copy then c.a.copies.any fun x => x.id == f.id && x.started else c.m.run.any fun r => r.ent.id == f.id
/-- `phcommit` (R297). -/
def execPhcommit (f : CsF) (s : State) : Out :=
  .next (cWord f.g (fun s =>
    match s.me.phase with
    | none => .error (tr .phaseFault)
    | some p => do
      need (!s.me.writesPhase p) (.wait .free)
      .ok ((if f.sub.getLsbD 0 then s.endPhase s.cur else s.commitPhase s.cur).advance .c)) s)

/-- `phabort` (R298): the job begins to stop; the stages of the abort follow at the turns of the stream that led to it. -/
def execPhabort (f : CsF) (s : State) : Out :=
  .next (cWord f.g (fun s =>
    let c := s.me
    if c.phase.isNone then .error (tr .phaseFault)
    else .ok (s.setMe { c with abort := some { err := false, st := .c, trap := none, g5 := s.cg f.sub.toNat }, stopAt := some (c.stopAt.getD s.now) })) s)

/-- Steps 1 and 2 of R298 are over: every word in issue and every started copy and command has completed. -/
def Core.quiet (c : Core) : Bool :=
  c.sent.isNone && c.put.isNone && c.recast.isNone && c.tlbInv.isNone && c.a.half.isNone && !(c.a.copies.any (·.started)) && c.m.run.isEmpty &&
  !(c.a.loads.any fun l => match l.dst with | .areg _ => true | _ => false)
/-- The registered input copy as a `cp` of the A stream (R298 step 4). -/
def Phase.inputCopy (p : Phase) : Copy :=
  { id := 0, kind := .cp, word := p.entry.getD 1 0, dst := p.indst, src := p.insrc, n := p.incnt, w := widthOf p.inwc, input := true }
/-- Step 3 of R298: the committed copy is the current one again, and the abort counts. -/
def Core.restore (c : Core) (p : Phase) (ab : Abort) : Core :=
  { c with
    phase := some { p with dirty := [] },
    aborts := if c.aborts = 0xFFFF then c.aborts else c.aborts + 1, last := if ab.err then 2 else 1, erun := if ab.err then c.erun + 1 else c.erun }
/-- The queues of the core and what else Table 13.7 empties: copies of the A stream that have not started go with its words, sends
stay (DEDUCED, log entry 89). -/
def Core.clearAll (c : Core) (p : Phase) : Core :=
  let out := c.a.copies.filter fun x => !x.send
  let c1 := out.foldl (fun x k => x.dropCopy k.id) (c.m.queue.foldl (fun x q => x.dropFoot q.id) c)
  { c1 with
    sem := p.sems, q := [], wq := [], sarr := false, sgen := none, reply := none,
    v := { c1.v with fly := [], snap := [] },
    m := { c1.m with queue := [], loops := [], replay := [], cancels := [] },
    a := { c1.a with ckpts := [], loads := [] } }
/-- Every started stream is open again (Table 13.7). -/
def Core.reopen (c : Core) : Core := strs.foldl (fun x st => let y := x.ctl st; x.setCtl st { y with ended := false }) c
/-- Step 5 of R298: every started stream restarts at its entry. -/
def Core.restart (c : Core) (p : Phase) (ab : Abort) : Core :=
  let go (x : Core) (e : Str × W64) : Core :=
    let y := x.ctl e.1
    if y.started then x.setCtl e.1 { y with pc := e.2, ended := false, stopped := false, wait := none, rdv := none } else x
  let c1 := ((strs.zip p.entry).foldl go c).setCg 5 ab.g5
  { c1 with abort := none, inh := false, pre := c.pre && c.pend != 0, stopAt := if c.pend = 0 then none else some (c.stopAt.getD 0) }
/-- The virtual bit address of granule `k` of the region (R299): the one that the page's mode brings there. -/
def Phase.granVa (p : Phase) (k : Nat) : Nat :=
  let a := p.va.toNat + 32768 * (k / 256)
  a + 128 * (((List.range 256).find? fun v => swizzle (p.swz.getD (k / 256) 0) (a + 128 * v) % 32768 == 128 * (k % 256)).getD (k % 256))
/-- One turn of an abort (R298, R299): with a poisoned committed granule it ends at step 3, and the stream that led to it traps. -/
def State.abortStep (s : State) (ab : Abort) : State :=
  let c := s.me
  match c.phase with
  | none => s.setMe { c with abort := none }
  | some p =>
    if ab.stage = 0 then
      if !c.quiet then s else
      let s1 := s.setMe (c.restore p ab)
      match p.dirty.find? fun e => tget false s.psn (granKey s.myPkg (apAddr (numOf s.cur) (p.regionOff e.1))) with
      | some e =>
        let s2 := s1.updMe fun c => { c with abort := none }
        s2.trapAt ab.st { cause := .poison, info := BitVec.ofNat 64 (p.granVa e.1) } (s2.me.trapPc ab.st)
      | none =>
        let s2 := s1.updMe fun c => { (c.clearAll p).reopen with abort := some { ab with stage := 1 } }
        if p.incnt = 0 then s2 else
        match s2.issueCopy p.inputCopy with
        | .ok s3 => s3
        | .error (.trap t) => s2.updMe fun c => if c.a.ctl.started then c.setCtl .a { c.a.ctl with due := some t } else c.setCtl .c { c.c.ctl with due := some t }
        | .error _ => s
    else if !(c.a.copies.any (·.input)) then s.setMe (c.restart p ab) else s

end Sys2Proof.Machine
end

