-- ==== Sys2Proof/Machine/Traps.lean ====
section
/-!
DEFINITION. Stalls, the rendezvous, words that are no instruction, entering a handler and returning from one
(04 R75 to R79, 06 R137, R142, 13 R293, 15 R334 to R337).
-/
namespace Sys2Proof.Machine
open Sys2Proof

/-! Stalls. -/

/-- A stream's wait has lasted QSTALL.LIMIT cycles. A word on a run-ahead path stops without reporting (07 R174)
(DESIGN CHOICE, log entry 5). -/
def Core.stalled (c : Core) (st : Str) (now : Nat) : Option WaitKind :=
  if c.canIssue st now && !(st == .a && c.onPath) && c.limit != 0 then
    (c.ctl st).wait.bind fun w => if w.since + c.limit.toNat ≤ now then some w.kind else none
  else none
/-- The stall trap of a stream; a C word that waits for a reply no longer does (20 R415). -/
def State.stallTrap (s : State) (st : Str) (t : Trap) : State :=
  (if st = .c then s.updMe fun c => { c with sent := none, reply := none } else s).takeTrap st t

/-- QUEUE_STALL (06 R137): EINFO is the number of the queue. -/
def execQueueStall (s : State) : Out :=
  match s.me.stalled s.ev.st s.now with
  | some (.queue n) => .next (s.stallTrap s.ev.st { cause := .queueStall, info := BitVec.ofNat 64 n })
  | _ => .next s
/-- SYNC_STALL (08 R225, 14 R315, 18 R368, 20 R400, R415 to R418). -/
def execSyncStall (s : State) : Out :=
  match s.me.stalled s.ev.st s.now with
  | some .sync => .next (s.stallTrap s.ev.st { cause := .syncStall })
  | some .fabric => .next (s.stallTrap s.ev.st { cause := .syncStall })
  | some (.syncAt ea) => .next (s.stallTrap s.ev.st { cause := .syncStall, info := ea })
  | _ => .next s
/-- RC_STALL (13 R293): EINFO is the base. -/
def execRcStall (s : State) : Out :=
  match s.me.stalled s.ev.st s.now with
  | some (.rc b) => .next (s.stallTrap s.ev.st { cause := .rcStall, info := b })
  | _ => .next s
/-- FE_STALL (07 R187): a load or `fewait` traps; a copy stops with it as its cause, at the element that waits (DEDUCED, log entry 58). -/
def execFeStall (s : State) : Out :=
  match s.ev.who with
  | .stream st =>
    match s.me.stalled st s.now with
    | some (.fe ea) => .next (s.stallTrap st { cause := .feStall, info := ea })
    | _ => .next s
  | .copy id =>
    match s.me.copy? id with
    | none => .next s
    | some x =>
      let e := s.ev.el
      match x.feSince, s.copyFault x e with
      | some (i, t), some (.stop (.wait (.fe ea))) =>
        if x.started && i == e && !x.isDone e && e < x.total && s.reached x e && s.me.limit != 0 && t + s.me.limit.toNat ≤ s.now then
          .next (s.stopCopy x e { cause := .feStall, info := ea })
        else .next s
      | _, _ => .next s

/-! Words that are no instruction. -/

/-- A word that cannot be taken waits: on a run-ahead path for the outcome, in the M stream until every word queued before it has started (04 R79, 11 R254). -/
def Core.holdsFault (c : Core) : Str → Bool
  | .a => c.onPath
  | .m => !c.m.queue.isEmpty
  | _ => false
/-- RESERVED_OPCODE (04 R77 to R79): ILLEGAL_OP at a word that no form takes; on a run-ahead path the A stream stops at it
(DEDUCED, log entry 25). -/
def execReservedOpcode (s : State) : Out :=
  let st := s.ev.st
  if !s.me.canIssue st s.now then .next s else
  match s.wordAt st with
  | .error _ => .next s
  | .ok w =>
    match decode st w with
    | .ok _ => .next s
    | .error _ => .next (if s.me.holdsFault st then s.noteWait st .free else s.takeTrap st { cause := .illegalOp })
/-- WORD_FETCH_FAULT (04 R75). -/
def execWordFetchFault (s : State) : Out :=
  let st := s.ev.st
  if !s.me.canIssue st s.now then .next s else
  match s.wordAt st with
  | .error (.trap t) => .next (if s.me.holdsFault st then s.noteWait st .free else s.takeTrap st t)
  | _ => .next s

/-! The rendezvous (06 R142). -/

/-- The streams that have not ended. -/
def Core.openStrs (c : Core) : List Str := strs.filter fun st => (c.ctl st).started && !(c.ctl st).ended
/-- A stream goes on after its rendezvous word. -/
def State.passRdv (s : State) (st : Str) : State :=
  let s1 := s.setCtl st { s.ctl st with rdv := none, wait := none }
  if st = .m then s1.mNext else if st = .v then s1.vNext else s1.advance st
/-- RENDEZVOUS_RESUME (R142): every unended stream waits at a mid-task rendezvous. -/
def execRendezvousResume (s : State) : Out :=
  let c := s.me
  let l := c.openStrs
  let ids := l.filterMap fun st => (c.ctl st).rdv
  let last := l.foldl (fun t st => max t (c.ctl st).rdvAt) 0
  if !c.running s.now || c.abort.isSome || l.isEmpty || ids.length != l.length then .next s
  else if ids.all (· == ids.headD 0) then
    if l.length = 1 ∨ last + 2 ≤ s.now then .next (l.foldl State.passRdv s) else .next s
  else .next (l.foldl (fun t st => t.takeTrap st { cause := .rdvMismatch, info := ((c.ctl st).rdv.getD 0).zeroExtend 64 }) s)

/-! Handlers (15 R334 to R337). -/

/-- A word in issue is still to complete: a C word that waits for its reply, its recast or its removal; a load into a
register (R334). -/
def Core.inIssue (c : Core) : Bool :=
  c.sent.isSome || c.put.isSome || c.recast.isSome || c.tlbInv.isSome || (c.a.half.isSome && !c.pend.getLsbD 1) ||
  c.a.loads.any fun l => l.word == c.a.ctl.pc && match l.dst with | .areg _ => true | _ => false
/-- V results due up to the slot at hand have landed before a stop (08 R199). -/
def Core.landDue (c : Core) (now : Nat) : Core :=
  (List.range 41).foldl (fun x _ => if x.landingDue then x.landNext now else x) c
/-- The job has stopped as a whole (R334) (DEDUCED, log entry 49). -/
def Core.stopJob (c : Core) (now : Nat) : Core := (c.landDue now).haltAll
/-- ENTERING A HANDLER, or, where the vector is 0, the kill of the context (R335, R336): it is asked for here, once the job has stopped, for
the stream whose trap would be handled first (DESIGN CHOICE, log entry 102). -/
def State.enter (s : State) (st : Str) (save : Bool) : State :=
  let c := s.me
  if (c.ctl st).tvec = 0 then
    (s.setMe { c with dead := true }).askKill s.myCtx ((c.ctl st).ecause.toNat % 256)
  else s.setMe (c.enterHandler st save)
/-- HANDLER_ENTRY (R335): 12 cycles after the last stream has stopped. -/
def execHandlerEntry (s : State) : Out :=
  let c := s.me
  match c.stopAt, lowestPend c.pend with
  | some t, some st =>
    if c.job.isNone || c.dead || c.inh || c.saving || c.abort.isSome || c.inIssue || s.now < t + 12 then .next s
    else .next ((s.setMe (c.stopJob s.now)).enter st true)
  | _, _ => .next s

/-- A free slot of the context's save pool (R352). -/
def Ctx.freeSlot (x : Ctx) : Option Nat := (List.range x.saveSlots).find? fun i => !tget false x.saveUsed i
/-- A pre-emption of the stopped or running job of the acting core begins, or is refused for want of a save slot (R352). -/
def State.beginSave (s : State) : State × Bool :=
  let xk := s.myCtx
  let x := s.ctxAt xk
  match x.freeSlot with
  | none => (s.report xk (numOf s.cur) 0 5 0, false)
  | some i =>
    let s1 := s.setCtxAt xk { x with saveUsed := tset false x.saveUsed i true }
    (s1.updMe fun c => { c with saving := true, saveSlot := i, stopAt := some (c.stopAt.getD s.now), pre := false }, true)
/-- `eret` (R337). -/
def execEret (f : CsF) (s : State) : Out :=
  .next (cWord f.g (fun s =>
    let c := s.me
    if !c.inh then .error (tr .sysState) else
    let s1 := s.setMe c.restore30
    match lowestPend c.pend with
    | some st => .ok (s1.enter st false)
    | none =>
      if c.pre then
        let s2 := s1.updMe fun c => { c with inh := false, pre := false }
        let (s3, ok) := s2.beginSave
        .ok (if ok then s3 else s3.updMe Core.resumeAll)
      else .ok (s1.updMe Core.resumeAll)) s)

/-- LINK_LAYER_RETRY (20 R391): a flit is replayed in its order; nothing that a job or the host sees changes. -/
def execLinkLayerRetry (s : State) : Out := .next s

end Sys2Proof.Machine
end

