-- ==== Sys2Proof/Machine/System.lean ====
section
/-!
DEFINITION. The system registers and the words that read and write them, the V snapshot buffer, and the removal of
translations (15 R338 to R344, 18 R380, 20 R419, 22 R432).
-/
namespace Sys2Proof.Machine
open Sys2Proof

/-! Values of registers. -/

/-- A field put at its place. -/
def fld (x lo : Nat) : Nat := x * 2 ^ lo
def bitN (b : Bool) : Nat := if b then 1 else 0

/-- QOCC (06 Table 6.2b). -/
def Core.qocc (c : Core) (now : Nat) : Nat :=
  (List.range 8).foldl (fun a n => a + fld (c.qUsed n now) (4 * n)) 0 + (List.range 4).foldl (fun a n => a + fld (c.wqUsed n now) (32 + 3 * n)) 0
/-- TSTAT (15 Table 15.4). -/
def Core.tstat (c : Core) : Nat :=
  c.pend.toNat + fld (bitN c.inh) 4 + fld c.cur 8 + fld (bitN c.pre) 10 + fld (bitN c.sarr) 11
/-- ASTAT (07 Table 7.2). -/
def Core.astat (c : Core) : Nat :=
  c.a.gen % 16 + fld c.a.ckpts.length 4 + fld c.a.radepth 6 + fld c.a.copies.length 8 + fld (c.feet.filter (·.copy)).length 12
/-- CFINFO (07 Table 7.4). -/
def Core.cfinfo (c : Core) : Nat := c.a.cfIndex.toNat + fld (bitN c.a.cfValid) 32 + fld c.a.cfCause.toNat 48
/-- VSTAT (08 Table 8.1). -/
def Core.vstat (c : Core) : Nat :=
  (List.range 32).foldl (fun a n => a + fld (bitN (tget {} c.v.v n).psn) n) 0 + fld (c.v.fly.length + (c.v.snap.filter (·.valid)).length) 32
/-- MSTAT (11 Table 11.4). -/
def Core.mstat (c : Core) : Nat :=
  fld c.m.loops.length 3 + fld c.m.run.length 6 + fld c.m.queue.length 11 + fld c.m.ffence.toNat 40 + fld c.m.tfence.toNat 44
/-- MCIMV, MCIMKEYi (11 Tables 11.6, 11.7). -/
def Core.mcimv (c : Core) : Nat := (List.range 16).foldl (fun a n => a + fld (bitN (tget {} c.m.macros n).valid) n) 0
def Core.mcimkey (c : Core) (i : Nat) : Nat :=
  (List.range 4).foldl (fun a j => a + fld (tget {} c.m.macros (4 * i + j)).key.toNat (16 * j)) 0
/-- PHSTAT (13 Table 13.8). -/
def Core.phstat (c : Core) : Nat :=
  bitN c.phase.isSome + fld c.erun.toNat 4 + fld c.last.toNat 16 + fld c.aborts.toNat 32

/-- WTGTn, WEXTn, WRCVn, TRIGn (20 Tables 20.11 to 20.14). -/
def Window.tgt (w : Window) : Nat := fld w.tb 16 + fld w.core 39 + fld w.pkg 49 + fld (bitN w.faa) 62 + fld (bitN w.v) 63
def Window.ext (w : Window) : Nat := w.extm1 + fld w.out 17 + fld (w.allow - 1) 32 + fld (w.lw - 1) 42
def RecvSide.reg (r : RecvSide) : Nat := fld r.rextm1 22 + fld r.rb 39 + fld (bitN r.grant) 62 + fld (bitN r.v) 63
def Trigger.reg (t : Trigger) : Nat := t.thr + fld t.desc 42 + fld t.cnt 59 + fld (bitN t.v) 63
/-- FXSTAT, FXPALLOW (20 Table 20.15). -/
def Fabric.stat (f : Fabric) : Nat := f.rpend.toNat + fld (bitN f.mpend) 17
def Fabric.pallow (f : Fabric) : Nat :=
  let w := tget {} f.win 16
  (w.allow - 1) + fld w.out 10 + fld (w.lw - 1) 21 + fld (bitN w.faa) 31
/-- A fabric register by its number (20 Table 20.10). -/
def Core.fabReg (c : Core) (n : Nat) : Nat :=
  let k := n % 16
  match n / 16 with
  | 0x10 => (c.winAt k).tgt
  | 0x11 => (c.winAt k).ext
  | 0x12 => (tget {} c.fab.recv k).reg
  | 0x13 => (tget {} c.fab.recv k).cnt
  | 0x14 => (tget {} c.fab.trig k).reg
  | _ => if k = 0 then c.fab.stat else if k = 1 then c.fab.fxerr.toNat else c.fab.pallow

/-- The worklist registers of a context as writes under way leave them (18 R380). -/
def Ctx.wr (x : Ctx) (n : Nat) (v : W64) : Ctx :=
  if n = 0x200 then { x with fb := v.truncate 32 }
  else if 0x204 ≤ n ∧ n ≤ 0x207 then { x with strag := tset 0 x.strag (n - 0x204) v }
  else if 0x208 ≤ n ∧ n ≤ 0x20B then { x with done := tset 0 x.done (n - 0x208) v }
  else if n = 0x20C then { x with invTimeout := v.truncate 32 }
  else x
/-- Writes whose cycle has come take effect at the headworks. -/
def Ctx.settle (x : Ctx) (now : Nat) : Ctx :=
  { (x.writes.filter fun w => w.1 ≤ now).foldl (fun y w => y.wr w.2.1 w.2.2) x with writes := x.writes.filter fun w => now < w.1 }
/-- Every write under way taken as made: what a later read of the same core returns. -/
def Ctx.all (x : Ctx) : Ctx := x.writes.foldl (fun y w => y.wr w.2.1 w.2.2) x

/-- The records of a context that a die holds, in basins and overflow list. -/
def DieCtx.recs (d : DieCtx) : List QRec := (d.basins.map (·.2)).flatten ++ d.ovf
def State.dctxAt (s : State) (die : Nat) (x : BitVec 4) : DieCtx := tget {} s.dctxs (die * 16 + x.toNat)
def State.setDctx (s : State) (die : Nat) (x : BitVec 4) (d : DieCtx) : State := { s with dctxs := tset {} s.dctxs (die * 16 + x.toNat) d }
/-- The dies of a package. -/
def diesOf (pkg : Nat) : List Nat := (List.range 8).map (pkg * 8 + ·)
/-- The jobs of a context that run in a package, with their core keys. -/
def State.jobsOf (s : State) (pkg : Nat) (x : BitVec 4) : List (Nat × Job) :=
  s.cores.filterMap fun e => match e.2.job with
    | some j => if pkgOf e.1 = pkg ∧ j.rcd.ctx = x then some (e.1, j) else none
    | none => none
/-- Records of a context queued in a package, in flight to it, or saved there. -/
def State.queuedOf (s : State) (pkg : Nat) (x : BitVec 4) : List QRec := ((diesOf pkg).map fun d => (s.dctxAt d x).recs).flatten
def sat (n w : Nat) : Nat := min n (2 ^ w - 1)
/-- A worklist register of the acting job's context (18 Tables 18.7 to 18.9) (DEDUCED, log entry 19). -/
def State.wlReg (s : State) (n : Nat) : Nat :=
  let x := (s.ctxAt s.myCtx).all
  let d := s.dctxAt (dieKey s.cur) s.job.rcd.ctx
  if n = 0x200 then x.fb.toNat + fld x.b 34 + fld (bitN x.dom) 39
  else if n = 0x201 then (d.g.getD 0).toNat + fld (bitN (!(s.queuedOf s.myPkg s.job.rcd.ctx).isEmpty || !(s.jobsOf s.myPkg s.job.rcd.ctx).isEmpty)) 63
  else if n = 0x202 then x.tickets
  else if n = 0x203 then x.quantum
  else if n ≤ 0x207 then (tget 0 x.strag (n - 0x204)).toNat
  else if n ≤ 0x20B then (tget 0 x.done (n - 0x208)).toNat
  else if n = 0x20C then x.invTimeout.toNat
  else if n = 0x20D then x.thresh + fld x.balMode 32
  else sat ((s.jobsOf s.myPkg s.job.rcd.ctx).filter fun e => dieKey e.1 == dieKey s.cur).length 16 + fld (sat d.recs.length 16) 16 +
    fld x.stragN.toNat 32 + fld x.inv.toNat 48

/-- The stream of a register of a bank of four. -/
def strOf (n : Nat) : Str := if n % 4 = 0 then .c else if n % 4 = 1 then .a else if n % 4 = 2 then .v else .m
/-- The value of a system register (15 Table 15.5) (DEDUCED, log entry 22). -/
def State.sysReg (s : State) (n : Nat) : Nat :=
  let c := s.me
  let x := c.ctl (strOf n)
  if n < 4 then x.xflags.toNat
  else if n = 0x008 then c.limit.toNat
  else if n = 0x009 then c.qocc s.now
  else if n = 0x010 then c.tstat
  else if n = 0x011 then c.sav30.toNat
  else if n = 0x012 then c.sav31.toNat
  else if n < 0x018 then x.tvec.toNat
  else if n < 0x01C then x.epc.toNat
  else if n < 0x020 then x.ecause.toNat
  else if n < 0x024 then x.einfo.toNat
  else if n = 0x024 then numOf s.cur + fld s.myPkg 10
  else if n = 0x025 then s.job.rcd.ctx.toNat
  else if n = 0x026 then (s.ctxAt s.myCtx).savex
  else if n = 0x028 then c.astat
  else if n = 0x029 then c.a.cfaddr.toNat
  else if n = 0x02A then c.cfinfo
  else if n = 0x030 then c.vstat
  else if n = 0x038 then c.mstat
  else if n = 0x039 then c.m.interval.toNat
  else if n = 0x03A then c.mcimv
  else if n ≤ 0x03E then c.mcimkey (n - 0x03B)
  else if n ≤ 0x045 then iterOf c.m.loops (n - 0x040)
  else if n = 0x048 then c.phstat
  else if n ≤ 0x05F then c.semAt (n - 0x050)
  else if n = 0x060 then c.semOvf.toNat
  else if n < 0x200 then c.fabReg n
  else if n < 0x300 then s.wlReg n
  else
    let p := s.pkgAt s.myPkg
    if n = 0x300 then p.pwrLim.toNat else if n = 0x301 then p.pwrAvg.toNat else if n = 0x302 then p.pwrThr.toNat else p.pwrCnt.toNat

/-- `sysrd` (R341): rd receives the register. -/
def execSysrd (f : CrF) (s : State) : Out :=
  .next (cWord f.g (fun s => s.crForm f false false true fun _ _ => .ok (BitVec.ofNat 64 (s.sysReg f.fn.toNat), s)) s)

/-! Writes. -/

/-- A `syswr` of a register without a row of its own, under the access codes of its fields (00 R5): W1C bits clear where 1 is
written, RW fields take the value, everything else ignores it. -/
def Core.sysWrite (c : Core) (n : Nat) (x : W64) : Core :=
  let st := strOf n
  let y := c.ctl st
  if n < 4 then c.setCtl st { y with xflags := y.xflags &&& ~~~(x.truncate 8) }
  else if n = 0x008 then { c with limit := x.truncate 32 }
  else if n = 0x010 then { c with pend := c.pend &&& ~~~(x.truncate 4) }
  else if n = 0x011 then { c with sav30 := x }
  else if n = 0x012 then { c with sav31 := x }
  else if 0x014 ≤ n ∧ n < 0x018 then c.setCtl st { y with tvec := x }
  else if n = 0x02A then { c with a := { c.a with cfValid := c.a.cfValid && !x.getLsbD 32 } }
  else if n = 0x039 then { c with m := { c.m with interval := x.truncate 32 } }
  else if n = 0x060 then { c with semOvf := c.semOvf &&& ~~~(x.truncate 16) }
  else c
/-- A `syswr` word: its source, then its effect in the issue cycle (R341). -/
def sysWord (f : CrF) (g : W64 → State → Except Stop State) (s : State) : State :=
  cWord f.g (fun s => s.crForm f true false false fun a _ => do
    let t ← g a s
    .ok (0, t)) s
/-- `syswr` (R341). -/
def execSyswr (f : CrF) (s : State) : Out :=
  .next (sysWord f (fun x s => .ok (s.updMe fun c => c.sysWrite f.fn.toNat x)) s)
/-- SEM_WRITE (14 R330): the count is replaced. -/
def execSemWrite (f : CrF) (s : State) : Out :=
  .next (sysWord f (fun x s => do
    let i := f.fn.toNat - 0x050
    need (s.me.semMay i 1 s.now) (.wait .turn)
    .ok (s.updMe fun c => { c.semMark i 1 s.now with sem := tset 0 c.sem i (x.truncate 16) })) s)
/-- EPC_WRITE (R338). -/
def execEpcWrite (f : CrF) (s : State) : Out :=
  .next (sysWord f (fun x s => do
    let st := strOf f.fn.toNat
    need (x.toNat % st.wordBits == 0) (tr .sysState)
    let y := s.ctl st
    .ok (if y.stopped then s.setCtl st { y with epc := x } else s)) s)
/-- A new allowance; one below the live window lowers it (20 R400). -/
def Window.setAllow (w : Window) (m1 : Nat) : Window := { w with allow := m1 + 1, lw := min w.lw (m1 + 1) }
/-- ALLOW_WRITE (20 R400, Tables 20.12, 20.15). -/
def execAllowWrite (f : CrF) (s : State) : Out :=
  .next (sysWord f (fun x s =>
    let n := f.fn.toNat
    .ok (s.updMe fun c =>
      if n = 0x152 then c.setWin 16 { (c.winAt 16).setAllow (x.extractLsb' 0 10).toNat with faa := x.getLsbD 31 }
      else c.setWin (n % 16) ((c.winAt (n % 16)).setAllow (x.extractLsb' 32 10).toNat))) s)
/-- WORKLIST_REGISTER_WRITE (18 R380): the write is on its way for 150 cycles; read-only fields ignore it. -/
def execWorklistRegisterWrite (f : CrF) (s : State) : Out :=
  .next (sysWord f (fun x s =>
    let c := s.ctxAt s.myCtx
    .ok (s.setCtxAt s.myCtx { c with writes := c.writes ++ [(s.now + 150, f.fn.toNat, x)] })) s)

/-! The snapshot buffer (R342, R343). -/

def VDst.kind : VDst → Nat
  | .v _ => 0 | .k _ => 1 | .g _ => 2 | .wq _ => 3 | .q5 => 4
def VDst.num : VDst → Nat
  | .v n | .k n | .g n | .wq n => n
  | .q5 => 5
/-- The destination that KIND and NUM name; a number that the kind does not admit names none. -/
def vdstOf (kind num : Nat) : Option VDst :=
  match kind with
  | 0 => some (.v num)
  | 1 => if num < 8 then some (.k num) else none
  | 2 => if num < 16 then some (.g num) else none
  | 3 => if num = 2 ∨ num = 3 then some (.wq num) else none
  | 4 => if num = 5 then some .q5 else none
  | _ => none
/-- The meta word of an entry (Table 15.6). -/
def Snap.meta (e : Snap) : Nat :=
  e.res.dst.num + fld e.res.dst.kind 5 + fld e.res.val.tag.toNat 8 + fld (bitN e.res.val.psn) 13 + fld (bitN e.res.mark) 14 +
  fld (bitN e.valid) 15 + fld e.d 16 + fld e.res.flags.toNat 21
/-- An entry that holds nothing. -/
def Snap.empty : Snap :=
  { res := { dst := .v 0, due := 0, val := {}, wmask := BitVec.allOnes 2048, full := true, flags := 0 }, d := 0, valid := false }
/-- A meta word is legal (R343). -/
def metaOk (x : Nat) : Bool :=
  x < 2 ^ 30 && (vdstOf (nbits x 5 3) (nbits x 0 5)).isSome && 1 ≤ nbits x 16 5 && nbits x 16 5 ≤ 20 && nbits x 8 5 ≤ 17
/-- An entry with another meta word. -/
def Snap.setMeta (e : Snap) (x : Nat) : Snap :=
  { res := { e.res with dst := (vdstOf (nbits x 5 3) (nbits x 0 5)).getD (.v 0), mark := x.testBit 14, flags := BitVec.ofNat 9 (x / 2 ^ 21),
                        val := { e.res.val with tag := BitVec.ofNat 5 (x / 2 ^ 8), psn := x.testBit 13 } },
    d := nbits x 16 5, valid := x.testBit 15 }
/-- A word of an entry of 2,176 bits (DEDUCED, log entry 69). -/
def Snap.word (e : Snap) (w : Nat) : Nat :=
  if w < 32 then nbits e.res.val.bits.toNat (64 * w) 64 else if w = 32 then e.meta else 0
/-- A write of a word; word 33 ignores it. -/
def Snap.setWord (e : Snap) (w : Nat) (x : W64) : Snap :=
  if w < 32 then
    let b := e.res.val.bits
    let m : V2048 := (BitVec.allOnes 64).zeroExtend 2048 <<< (64 * w)
    { e with res := { e.res with val := { e.res.val with bits := (b &&& ~~~m) ||| (x.zeroExtend 2048 <<< (64 * w)) } } }
  else if w = 32 then e.setMeta x.toNat
  else e
/-- The header words (R343): words 2 to 33 read 0 (DESIGN CHOICE, log entry 103). -/
def VEng.snapHead (v : VEng) (w : Nat) : Nat := if w = 0 then 1 else if w = 1 then (v.snap.filter (·.valid)).length else 0
/-- The index x of R342: word and entry, if legal. -/
def snapIx (x : W64) : Option (Nat × Nat) :=
  let w := nbits x.toNat 0 6
  let e := nbits x.toNat 6 6
  if x.toNat < 4096 ∧ w ≤ 33 ∧ (e < 48 ∨ e = 63) then some (w, e) else none
/-- The buffer with an entry changed; entries beyond the last are empty. -/
def setSnap (l : List Snap) (e : Nat) (g : Snap → Snap) : List Snap :=
  let p := l ++ List.replicate (e + 1 - l.length) Snap.empty
  p.set e (g (p.getD e Snap.empty))
/-- `snaprd` (R342). -/
def execSnaprd (f : CrF) (s : State) : Out :=
  .next (cWord f.g (fun s => do
    s.cClean (CrQ f true false)
    need (s.me.inh && s.me.v.ctl.started) (tr .sysState)
    s.crForm f true false true fun a _ => match snapIx a with
    | none => .error (tr .sysState)
    | some (w, e) => .ok (BitVec.ofNat 64 (if e = 63 then s.me.v.snapHead w else (s.me.v.snap.getD e Snap.empty).word w), s)) s)
/-- `snapwr` (R342). -/
def execSnapwr (f : CrF) (s : State) : Out :=
  .next (cWord f.g (fun s => do
    s.cClean (CrQ f true true)
    need (s.me.inh && s.me.v.ctl.started) (tr .sysState)
    s.crForm f true true false fun a b => match snapIx a with
    | none => .error (tr .sysState)
    | some (w, e) =>
      if e = 63 then .ok (0, s) else do
      need (w != 32 || metaOk b.toNat) (tr .sysState)
      .ok (0, s.updMe fun c => { c with v := { c.v with snap := setSnap c.v.snap e fun y => y.setWord w b } })) s)

/-! Removal of translations (R344). -/

/-- How long a removal takes. -/
def tlbTime (scope : Nat) : Nat := if scope = 1 then 20 else if scope = 3 then 150 else 600
/-- `tlbinv` (R344): the word stays until TLBINV_COMPLETE. -/
def execTlbinv (f : CrF) (s : State) : Out :=
  .next (cWord f.g (fun s => do
    need s.me.tlbInv.isNone (.wait .free)
    let all := f.fn.getLsbD 3
    let qs := if all then [] else CrQ f true true
    s.cSources qs
    let scope := (f.fn.extractLsb' 0 3).toNat
    let r := if all then none else some ((s.cSrc f.qa f.ra).toNat, (s.cSrc f.qb f.rb).toNat)
    .ok (((s.cPop f.pk qs).updMe fun c => { c with tlbInv := some { till := s.now + tlbTime scope, range := r, scope := scope } }).noteWait .c .free)) s)

/-- A page of a context that the removal takes. -/
def TlbInv.takes (r : TlbInv) (x y : BitVec 4) (va size : Nat) : Bool :=
  x == y && match r.range with
    | none => true
    | some (b, n) => va < b + n && b < va + 2 ^ size
/-- The core lies in the scope of a removal by core `ck`. -/
def inScope (scope ck k : Nat) : Bool :=
  if scope = 1 then k == ck else if scope = 3 then dieKey k == dieKey ck else pkgOf k == pkgOf ck
/-- A core without the translations removed. -/
def Core.dropTlb (c : Core) (p : TlbEntry → Bool) : Core :=
  let l (t : List TlbEntry) : List TlbEntry := t.filter fun e => !p e
  let c1 := strs.foldl (fun x st => x.setCtl st { x.ctl st with tlb := l (x.ctl st).tlb }) c
  { c1 with tlb := l c1.tlb }
/-- Removes translations of a context in a scope; walks in flight do not enter their result (R344). -/
def State.removeTlb (s : State) (r : TlbInv) (ck : Nat) (x : BitVec 4) : State :=
  let p (e : TlbEntry) : Bool := r.takes x e.ctx e.va e.size
  let dieIn (d : Nat) : Bool := if r.scope = 4 then d / 8 == pkgOf ck else d == dieKey ck
  let s1 := s.cores.foldl (fun t e => if inScope r.scope ck e.1 then t.setCoreAt e.1 ((t.coreAt e.1).dropTlb p) else t) s
  let walk (w : Walk) : Walk := { w with stale := w.stale || (w.ctx == x && w.who.any fun q => inScope r.scope ck q.1) }
  { s1 with
    walks := s1.walks.map fun e => (e.1, e.2.map walk),
    wcache := if r.scope = 1 then s1.wcache else s1.wcache.foldl (fun t e =>
      if dieIn e.1 then tset [] t e.1 (e.2.filter fun w => !r.takes x w.ctx (w.pre * 2 ^ levelBits w.level) (levelBits w.level)) else t) s1.wcache }
/-- TLBINV_COMPLETE (R344): the removal is complete and the C stream goes on. -/
def execTlbinvComplete (s : State) : Out :=
  match s.me.tlbInv with
  | none => .next s
  | some r =>
    if s.now < r.till then .next s
    else .next (((s.removeTlb r s.cur s.job.rcd.ctx).updMe fun c => { c with tlbInv := none }).advance .c)

end Sys2Proof.Machine
end

