-- ==== Sys2Proof/Machine/Walk.lean ====
section
/-!
DEFINITION. The end of a page walk (15 R344, R349, R350).
-/
namespace Sys2Proof.Machine
open Sys2Proof

/-- A client gets the end of its walk: a translation for its core and stream TLB, or the fault that its access will meet. -/
def Core.walkDone (c : Core) (x : BitVec 4) (va : Nat) (cl : Waiter) (r : WalkEnd) : Core :=
  match r, cl with
  | .page e, .stream st =>
    let c1 := { c with tlb := tlbPut c.tlb e 1024 }
    c1.setCtl st { c1.ctl st with tlb := tlbPut (c1.ctl st).tlb e 64 }
  | .page e, .copy _ => { c with tlb := tlbPut c.tlb e 1024 }
  | .fault sub, .stream st =>
    if (c.job.map (·.rcd.ctx)) = some x then c.setCtl st { c.ctl st with walkFault := some (BitVec.ofNat 64 va, sub) } else c
  | .fault sub, .copy id =>
    let g (y : Copy) : Copy := if y.id == id then { y with walkFault := some (BitVec.ofNat 64 va, sub) } else y
    { c with a := { c.a with copies := c.a.copies.map g, sends := c.a.sends.map g } }

/-- The walker of a die caches entries, the newest first, 512 of them. -/
def State.cacheWalk (s : State) (die : Nat) (l : List WalkCache) : State :=
  let o := (tget [] s.wcache die).filter fun c => !(l.any fun d => d.ctx == c.ctx && d.level == c.level && d.pre == c.pre)
  { s with wcache := tset [] s.wcache die ((l ++ o).take 512) }
/-- WALK_COMPLETE of walk `ev.id` (R349): among the 32 that its die runs; a walk that a removal overtook enters nothing (R344). -/
def execWalkComplete (s : State) : Out :=
  match tget none s.walks s.ev.id with
  | none => .next s
  | some w =>
    let ahead := (s.walks.filter fun e => e.1 < s.ev.id && (e.2.map (·.die)) == some w.die).length
    if 32 ≤ ahead then .next s else
    let s1 := { s with walks := tset none s.walks s.ev.id none }
    if w.stale then .next s1 else
    let (l, r) := s.walk w.die w.ctx w.va
    let s2 := s1.cacheWalk w.die l
    .next (w.who.foldl (fun t q => t.updCore q.1 fun c => c.walkDone w.ctx w.va q.2 r) s2)

end Sys2Proof.Machine
end

