-- ==== Sys2Proof/Machine/Fabric.lean ====
section
/-!
DEFINITION. The fabric words, sends and triggers, and the messages on their way, at their homes and on their way back
(20 R389 to R418).
-/
namespace Sys2Proof.Machine
open Sys2Proof

/-! Windows and receive sides (R412, R413). -/

/-- A trap whose EINFO is a window or slot number. -/
def trNo (c : Cause) (n : Nat) : Stop := .trap { cause := c, info := BitVec.ofNat 64 n }
/-- The window number of a fabric word. -/
def fxW (f : CrF) : Nat := (f.fn.extractLsb' 0 4).toNat

/-- `fxwin` (R412). The causes MISALIGN and LDST_SCOPE concern a target offset, for which no virtual bit address stands:
their EINFO is free. -/
def fxwinBody (f : CrF) (info : Nat) (t b : W64) (s : State) : Except Stop State := do
  let w := fxW f
  let pkg := (t.extractLsb' 10 13).toNat
  let n := (t.extractLsb' 0 10).toNat
  let tb := (b.extractLsb' 0 30).toNat
  let ext := (b.extractLsb' 30 18).toNat
  need (t.extractLsb' 23 41 == 0 && b.extractLsb' 48 16 == 0) (trNo .windowFault w)
  need (ext == 0 || (s.inDomain pkg && n < 768)) (trNo .windowFault w)
  need (ext == 0 || tb % 128 == 0) (trNo .misalign info)
  need (ext == 0 || ((apPart tb).any fun p => inPart p tb (128 * ext))) (trNo .ldstScope info)
  -- a word of two messages of which one has left keeps its window (00 R9)
  need ((s.me.winAt w).out == 0 && s.me.a.half.all fun h => h.2.win != w) (.wait .fabric)
  .ok (s.updMe fun c =>
    let x := c.winAt w
    c.setWin w (if ext = 0 then { x with v := false } else
      { x with v := true, faa := f.fn.getLsbD 4, pkg := pkg, core := n, tb := tb / 128, extm1 := ext - 1, lw := x.allow, h := x.allow, c := 0 }))
/-- `fxwin` (R412) (DESIGN CHOICE, log entry 70). -/
def execFxwin (f : CrF) (s : State) : Out :=
  let t := cWord f.g (fun s => s.crForm f true true false fun a b => do
    let t ← fxwinBody f (Config.freeNat s.fresh) a b s
    .ok (0, t)) s
  .next { t with fresh := t.fresh + 1 }

/-- `fxallow` (R413): its tests, the offset of the region. -/
def State.allowAt (s : State) (w a e : Nat) (grant : Bool) : Except Stop Nat := do
  need (e % 128 == 0 && e ≤ 2 ^ 24) (trNo .windowFault w)
  let win := winVa ≤ a ∧ a < winVaEnd
  let (pa, _) ← (if win then .ok (0, false) else s.xlate s.cur (.stream .c) a .w)
  need (a % 128 == 0) (trAt .misalign a)
  match if win then Place.none else place pa with
  | .ap n o => do
    need (n == numOf s.cur && (inPart .scratch o e || inPart .acc o e)) (trAt .ldstScope a)
    let own := (cuts pa e).all fun p => (s.roleAt s.myPkg p.1).ownedBy s.job
    need (!grant || own) (trAt .roleFault a)
    let clash := s.me.fab.recv.any fun r => r.1 != w && r.2.v && o / 128 ≤ r.2.rb + r.2.rextm1 && r.2.rb < (o + e) / 128
    need (!clash) (trNo .windowFault w)
    .ok o
  | _ => .error (trAt .ldstScope a)
def Core.setRecv (c : Core) (w : Nat) (r : RecvSide) (now : Nat) : Core := Core.reTrig (now := now) { c with fab := { c.fab with recv := tset {} c.fab.recv w r } }
def Core.recvAt (c : Core) (w : Nat) : RecvSide := tget {} c.fab.recv w
/-- `fxallow` (R413). -/
def execFxallow (f : CrF) (s : State) : Out :=
  .next (cWord f.g (fun s => s.crForm f true true false fun a e =>
    let w := fxW f
    let grant := f.fn.getLsbD 4
    if s.me.trigNow s.now then .error (.wait .free)
    else if e = 0 then .ok (0, s.updMe fun c => c.setRecv w { c.recvAt w with v := false } s.now)
    else do
      let o ← s.allowAt w a.toNat e.toNat grant
      let s1 := s.usePages .c a.toNat 1
      .ok (0, s1.updMe fun c => c.setRecv w
        { v := true, grant := grant, rb := o / 128, rextm1 := e.toNat / 128 - 1, cnt := if f.fn.getLsbD 5 then (c.recvAt w).cnt else 0 } s.now)) s)

/-! Sends (R406, R407, R414). -/

/-- The 256 bits of a send descriptor: translation, LDST_SCOPE, MISALIGN, ROLE_FAULT, poison (R406, R414) (DEDUCED, log entry 59). -/
def State.sendDesc (s : State) (va : Nat) : Except Stop (Nat × Nat) := do
  let (o, ps) ← s.scratch (.stream .c) .r .rd va 256 128
  need (ps.all fun p => let e := s.roleAt s.myPkg p.1; e.role == .imm || e.role == .prv) (trAt .roleFault va)
  need (!s.psnPieces s.myPkg ps) (trAt .poison va)
  .ok (o, s.rdPieces s.myPkg ps)
/-- The width code of a send, and its width. -/
def sendWc (d : Nat) : Nat := nbits d 163 4
def sendW (d : Nat) : Nat := if d.testBit 161 then widthOf (sendWc d) else 128
/-- An address in the space of windows 0 to 15, in window 16 of a core. -/
def inWindows (a : Nat) : Bool := winVa ≤ a && a < winVa + 16 * 2 ^ 30
def inWin16 (ck a : Nat) : Bool := absVa ≤ a && a < absVa + 768 * 2 ^ 30 && (a - absVa) / 2 ^ 30 != numOf ck
/-- What R406 refuses. -/
def State.sendBad (s : State) (d : Nat) : Bool :=
  let add := d.testBit 161
  let fl := d.testBit 162
  let wc := sendWc d
  let w := sendW d
  let len := nbits d 128 25
  let dst := nbits d 64 64
  nbits d 153 7 != 0 || nbits d 172 20 != 0 || nbits d 228 28 != 0 || 2 ^ 24 < len ||
  (add && !(3 ≤ wc && wc ≤ 11)) || w == 0 || len % w != 0 ||
  (fl && !(add && (w == 16 || w == 32 || w == 64))) || !(inWindows dst || inWin16 s.cur dst)
/-- The copy that a send is (R407). -/
def sendCopy (word : W64) (d : Nat) (mc : Option W64) : Copy :=
  let w := sendW d
  { id := 0, kind := .cp, word := word, dst := BitVec.ofNat 64 (nbits d 64 64), src := BitVec.ofNat 64 (nbits d 0 64), n := nbits d 128 25 / w, w := w,
    ord := d.testBit 160, add := d.testBit 161, fl := d.testBit 162, sen := d.testBit 167, sid := BitVec.ofNat 4 (nbits d 168 4), send := true, mc := mc }
/-- The tests of R397 for the destination: of the first and of the last element. -/
def State.sendDst (s : State) (cl : Waiter) (x : Copy) : Except Stop Unit := do
  if x.total = 0 then .ok () else
  let a := x.dst.toNat
  let b := a + (x.total - 1) * (if x.add then 40 else 128)
  let p : Perm := if x.add then .add else .w
  let n := if x.add then 40 else 128
  let (t, _) ← s.target s.cur cl p true a n
  let (u, _) ← s.target s.cur cl p true b n
  if x.add then do
    s.addTests t 1 a
    s.addTests u 1 b
  else do
    elemPlace t false a 128
    elemPlace u false b 128

/-- A send that cannot run stops (R407). -/
def State.stopSend (s : State) (word : W64) (t : Trap) : State :=
  let c := s.me
  if c.a.cfValid then s else (s.setMe (c.recordCf word t 0)).deferTrap s.cur { cause := .copyFault, info := word }
/-- Starts a send, or stops it where R180 refuses it. -/
def State.startSend (s : State) (x : Copy) : Except Stop State :=
  match s.issueCopy x with
  | .error (.trap t) => .ok (s.stopSend x.word t)
  | r => r
/-- `fxsend.blk` and `fxsend.mc`. -/
def fxsendBody (va : W64) (mc : Option W64) (s : State) : Except Stop State := do
  let (_, d) ← s.sendDesc va.toNat
  need (!s.sendBad d) (trAt .windowFault va.toNat)
  let x := sendCopy va d mc
  -- a destination that its window refuses is reported by the descriptor's address (Table 20.17)
  (match s.sendDst (.stream .c) x with
   | .error (.trap t) => .error (.trap (if t.cause = .windowFault then { t with info := va } else t))
   | r => r)
  need (mc.all fun m => m != 0 && inWindows x.dst.toNat) (trAt .windowFault va.toNat)
  need s.me.a.sends.isEmpty (.wait .free)
  (s.usePages .c va.toNat 256).startSend x
/-- `fxsend.blk` (R414). -/
def execFxsendBlk (f : CrF) (s : State) : Out :=
  .next (cWord f.g (fun s => s.crForm f true false false fun a _ => do
    let t ← fxsendBody a none s
    .ok (0, t)) s)
/-- `fxsend.mc` (R414). -/
def execFxsendMc (f : CrF) (s : State) : Out :=
  .next (cWord f.g (fun s => s.crForm f true false false fun a _ => do
    let t ← fxsendBody a (some (s.cg f.rd.toNat)) s
    .ok (0, t)) s)

/-- `fxsend.faa` (R415): the tests of R397 and R410; then its message, and the wait for the reply, with a limit of its own. -/
def faaBody (x sa : W64) (s : State) : Except Stop State := do
  let ea := x.toNat
  if inWindows ea ∨ inWin16 s.cur ea then do
    let (t, _) ← s.target s.cur (.stream .c) .add true ea 40
    match t with
    | .peer win pkg n o _ => do
      need (s.me.winAt win).faa (trAt .atomicFault ea)
      need (inPart .acc o 40 && (o - accBase) % 40 == 0) (trAt .atomicFault ea)
      need (s.me.canSend win) (.wait (.syncAt x))
      let m := s.newMsg s.cur .faa pkg n [{ at_ := o, w := 40, val := sa.toNat }] (.stream .c) 0 win x
      .ok (((s.post s.cur m).updMe fun c => { c with sent := some s.ids, reply := none }).freshWait .c (.syncAt x))
    | _ => .error (trAt .windowFault ea)
  else do
    let _ ← s.target s.cur (.stream .c) .add true ea 40
    .error (trAt .windowFault ea)
/-- `fxsend.faa` (R415). -/
def execFxsendFaa (f : CrF) (s : State) : Out :=
  .next (cWord f.g (fun s => do
    let qs := CrQ f true true
    s.cSources qs
    match s.me.sent, s.me.reply with
    | some _, none => .error (.wait (.syncAt (s.cSrc f.qa f.ra)))
    | some _, some (v, bad) =>
      let s1 := s.updMe fun c => { c with sent := none, reply := none }
      match bad with
      | some t => .ok (s1.takeTrap .c t)
      | none => .ok (((s1.cPop f.pk qs).cDst f.qd f.rd (BitVec.ofNat 64 v)).advance .c)
    | none, _ => do
      let t ← faaBody (s.cSrc f.qa f.ra) (s.cSrc f.qb f.rb) s
      s.cRoom (qName f.qd f.rd)
      .ok t) s)

/-- `fxarm` (R416). -/
def execFxarm (f : CrF) (s : State) : Out :=
  .next (cWord f.g (fun s => s.crForm f true false false fun a _ => do
    let t := fxW f
    let (o, d) ← s.sendDesc a.toNat
    need (!s.sendBad d) (trAt .windowFault a.toNat)
    need (!((tget {} s.me.fab.trig t : Trigger)).v) (trAt .windowFault a.toNat)
    let g : Trigger := { v := true, cnt := nbits d 224 4, desc := o / 128, thr := nbits d 192 32 }
    .ok (0, (s.usePages .c a.toNat 256).updMe fun c => Core.reTrig (now := s.now) { c with fab := { c.fab with trig := tset {} c.fab.trig t g } })) s)
/-- `fxdisarm` (R416): V clears; the other fields of the slot stand. -/
def execFxdisarm (f : CsF) (s : State) : Out :=
  .next (cWord f.g (fun s =>
    let off (t : Tbl Trigger) (k : Nat) : Tbl Trigger := tset {} t k { tget {} t k with v := false, due := none }
    if s.me.trigNow s.now then .error (.wait .free) else
    .ok ((s.updMe fun c => { c with fab := { c.fab with
      trig := if f.sys.getLsbD 0 then (List.range 16).foldl off c.fab.trig else off c.fab.trig f.sub.toNat } }).advance .c)) s)

/-- `fxcnt.rd` (R417). -/
def execFxcntRd (f : CrF) (s : State) : Out :=
  .next (cWord f.g (fun s => s.crForm f false false true fun _ _ => .ok (BitVec.ofNat 64 (s.me.recvAt (fxW f)).cnt, s)) s)
/-- `fxcnt.sub` (R417). -/
def execFxcntSub (f : CrF) (s : State) : Out :=
  .next (cWord f.g (fun s => s.crForm f true false true fun a _ => do
    let w := fxW f
    let r := s.me.recvAt w
    need (!(s.me.trigNow s.now)) (.wait .free)
    need (a.toNat ≤ r.cnt) (trNo .windowFault w)
    .ok (BitVec.ofNat 64 (r.cnt - a.toNat), s.updMe fun c => c.setRecv w { r with cnt := r.cnt - a.toNat } s.now)) s)
/-- `fxcnt.wt` (R417). -/
def execFxcntWt (f : CrF) (s : State) : Out :=
  .next (cWord f.g (fun s => s.crForm f true false true fun a _ => do
    let r := s.me.recvAt (fxW f)
    need (a.toNat ≤ r.cnt) (.wait .fabric)
    .ok (BitVec.ofNat 64 r.cnt, s)) s)
/-- `fxfence` (R418): every posted write, add and send of the job is answered; then it completes, or reports a refusal. -/
def execFxfence (f : CsF) (s : State) : Out :=
  .next (cWord f.g (fun s => do
    need (!(s.me.owing s.cur) && s.me.a.sends.isEmpty) (.wait .fabric)
    if s.me.refusal then .ok s.fabricErr else .ok (s.advance .c)) s)

/-! Triggers (R408). -/

/-- A slot that fires in this cycle. -/
def Core.trigDue (c : Core) (t now : Nat) : Bool :=
  let x := tget {} c.fab.trig t
  x.v && match x.due with | some d => d ≤ now | none => false
/-- The core starts the first waiting send, if it can. -/
def State.pumpSend (s : State) : State :=
  match s.me.a.sends with
  | [] => s
  | x :: r =>
    let s1 := s.updMe fun c => { c with a := { c.a with sends := r } }
    match s1.startSend x with
    | .ok t => t
    | .error _ => s
/-- A send waits among those of other triggers, in slot order. -/
def insertSend (x : Copy) : List Copy → List Copy
  | [] => [x]
  | y :: l => if x.trig < y.trig then x :: y :: l else y :: insertSend x l
/-- TRIGGER_FIRE of slot `ev.id` (R408): it is unarmed, reads its descriptor as it stands, and its send waits in slot order for
a copy slot; a failed test stops the send. -/
def execTriggerFire (s : State) : Out :=
  let c := s.me
  let t := s.ev.id
  if c.job.isNone || c.dead || c.saving || !(t < 16) || !(c.trigDue t s.now) || ((List.range t).any fun u => c.trigDue u s.now) then .next s else
  let x := tget {} c.fab.trig t
  let word : W64 := BitVec.ofNat 64 (selfVa + 128 * x.desc)
  let s1 := s.updMe fun c => { c with fab := { c.fab with trig := tset {} c.fab.trig t { x with v := false, due := none } } }
  let ps := cuts (apAddr (numOf s.cur) (128 * x.desc)) 256
  let d := s.rdPieces s.myPkg ps
  let y := { sendCopy word d none with id := c.stamp, trig := t }
  if s.psnPieces s.myPkg ps then .next (s1.stopSend word { cause := .poison, info := word })
  else if s.sendBad d then .next (s1.stopSend word { cause := .windowFault, info := word })
  else match s1.sendDst (.copy y.id) y with
  | .error (.trap f) => .next (s1.stopSend word f)
  | _ => .next ((s1.updMe fun c => { c with stamp := c.stamp + 1, a := { c.a with sends := insertSend y c.a.sends } }).pumpSend)

/-! Messages on their way (R389, R393, R394). -/

/-- Two messages are pinned by one source and window (R402). -/
def Msg.pinnedWith (m o : Msg) : Bool :=
  m.pin && o.pin && m.spkg == o.spkg && m.score == o.score && m.job == o.job && m.src == o.src && m.win == o.win
def State.msgAt (s : State) (id : Nat) : Option Msg := tget none s.msgs id
def State.setMsg (s : State) (id : Nat) (m : Option Msg) : State := { s with msgs := tset none s.msgs id m }
/-- An earlier pinned message of the same source and window that `p` holds of. -/
def State.earlierPin (s : State) (m : Msg) (p : Msg → Bool) : Bool :=
  s.msgs.any fun e => match e.2 with
    | some o => o.kind.asks && m.pinnedWith o && o.seq < m.seq && p o
    | none => false
/-- The next place of a slot that reaches a station which has turned it away `n` times (R393). -/
def State.nextLeg (s : State) (m : Msg) (r : Ring) (cw : Bool) (i n : Nat) : Leg :=
  if s.earlierPin m fun o => o.turnedAt r i then .slot r cw i (n + 1)
  else if s.inInput r cw i < 64 then .input r cw i s.ids
  else if 0 < n && hasOverflow r i && s.inOverflow r i < 512 then .overflow r i s.ids
  else .slot r cw i (n + 1)
/-- The message at its next place; a router or station whose output buffer holds more than 48 of its 64 entries sets the squall bit
(R400). -/
def State.putLeg (s : State) (m : Msg) (l : Leg) : State :=
  let full := match l with
    | .torus p d (a :: b :: _) => 48 < s.inRouter p d a b
    | .output r i _ => 48 < s.inOutput r i
    | _ => false
  { s.setMsg s.ev.id (some { m with leg := l, sq := m.sq || (full && m.kind.squalls) }) with ids := s.ids + 1 }
/-- The message goes on from a spot of a package, where the router's or the station's buffer has room. -/
def State.goFrom (s : State) (m : Msg) (pkg : Nat) (p : Spot) : State :=
  match s.onward m pkg p (Config.freeNat s.fresh) with
  | some (l, via) =>
    (match l with
     | .torus q d (a :: b :: _) => if s.routerRoom q d a b false then s.putLeg { m with via := via } l else s
     | .output r i _ => if s.inOutput r i < 64 then s.putLeg { m with via := via } l else s
     | _ => s.putLeg { m with via := via } l)
  | none => s
/-- A multicast slot goes on clockwise to the next station whose bit is set; with none it retires (R394). -/
def State.mcOn (s : State) (m : Msg) (r : Ring) (i n : Nat) (b : W64) : Leg :=
  if b = 0 then .home else .slot r true ((s.nextAfter r i b.getLsbD).getD i) n
/-- Message `ev.id` makes its next move (R387 to R394). -/
def State.moveMsg (s : State) (m : Msg) : State :=
  match m.leg with
  | .home => s
  | .start => s.goFrom m m.origin.1 m.origin.2.spot
  | .torus p d (a :: b :: c :: l) =>
    if s.routerRoom p d b c ((a.2 == b.2) == (b.2 == c.2)) then s.putLeg m (.torus p d (b :: c :: l)) else s
  | .torus p d [_, b] => s.goFrom m p (.stop d b)
  | .torus _ _ _ => s
  | .output r i dest =>
    match s.slotTo m r i dest (Config.freeNat s.fresh) with
    | some l => s.putLeg m l
    | none => s
  | .input r _ i k => if s.overflowBefore r i k then s else s.goFrom m (r.pkgAt i) (r.spotAt i m.goal.2.stop)
  | .overflow r i k => if s.overflowBefore r i k then s else s.goFrom m (r.pkgAt i) (r.spotAt i m.goal.2.stop)
  | .slot r cw i n =>
    match m.mc, r with
    | some b, .rack k =>
      let bit : W64 := BitVec.ofNat 64 (2 ^ i)
      if k != m.dpkg / 64 || !b.getLsbD i then s.putLeg m (s.nextLeg m r cw i n) else
      let child : Msg := { m with mc := none, refs := 0, dpkg := 64 * k + i, parent := some s.ev.id }
      match s.nextLeg child r cw i (if m.refs.getLsbD i then 1 else 0) with
      | .slot _ _ _ _ => s.putLeg { m with refs := m.refs ||| bit } (s.mcOn m r i (n + 1) b)
      | l =>
        let s1 := s.putLeg { m with mc := some (b &&& ~~~bit), left := m.left + 1 } (s.mcOn m r i n (b &&& ~~~bit))
        { s1.setMsg s1.ids (some { child with leg := l }) with ids := s1.ids + 1 }
    | _, _ => s.putLeg m (s.nextLeg m r cw i n)
/-- SLOT_ARRIVAL (R387 to R389, R393, R394): message `ev.id` makes the next move of its way. A station has one output
buffer for a ring (DESIGN CHOICE, log entry 38); the networks have no clock, and which slots are free is a free value (DESIGN
CHOICE, log entry 90). -/
def execSlotArrival (s : State) : Out :=
  match s.msgAt s.ev.id with
  | none => .next s
  | some m => .next { s.moveMsg m with fresh := s.fresh + 1 }

/-! At the home (R398 to R404, R410). -/

/-- A message answered: its kind, what it carries and whether it was refused. -/
def Msg.answer (m : Msg) (k : MsgKind) (ref : Bool) (parts : List Part) (why : Option Cause) : Msg :=
  let q : Msg := { m with kind := k, ref := ref, parts := if k = .memAck then m.parts else parts, why := why, mc := none, parent := none,
                          pair := none, held := false, via := none }
  { q with leg := q.launch }
/-- Why a home refuses a fetch-and-add (R410, R415) (DEDUCED, log entry 60). -/
def State.faaWhy (s : State) (m : Msg) : Cause :=
  let dk := coreKey m.dpkg m.dcore
  let ctxOk := (s.coreAt dk).job.isSome && (s.jobAt dk).rcd.ctx == m.ctx
  let o := (m.parts.headD { at_ := 0, w := 0, val := 0 }).at_
  if ctxOk && (apPieces dk o 40).all fun q => (s.roleAt m.dpkg q.1).ownedBy (s.jobAt dk) then .atomicFault else .roleFault
/-- A branch of a multicast has been answered; with the last one the multicast is (R414) (DEDUCED, log entry 39). -/
def State.branchDone (s : State) (pid : Nat) (ref sq : Bool) : State :=
  match s.msgAt pid with
  | none => s
  | some p =>
    let q : Msg := { p with left := p.left - 1, ref := p.ref || ref, sq := p.sq || sq }
    s.setMsg pid (some (if q.left = 0 ∧ q.mc = some 0 then q.answer .reply q.ref [] none else q))
/-- The answer of message `id` leaves its home. -/
def State.answered (s : State) (id : Nat) (m : Msg) (k : MsgKind) (ref : Bool) (parts : List Part) (why : Option Cause) : State :=
  match m.parent with
  | some pid => (s.setMsg id none).branchDone pid ref m.sq
  | none => s.setMsg id (some (m.answer k ref parts why))
/-- The two readings of the data that a read or a fetch-and-add brings back. -/
def dataParts (w : Nat) (d : Option (Nat × Nat × Bool)) : List Part :=
  match d with
  | some (v, vz, p) => [{ at_ := 0, w := w, val := v, psn := p }, { at_ := 0, w := w, val := vz, psn := p }]
  | none => []
/-- The other half of a write to a register window, once it has arrived. -/
def State.otherHalf (s : State) (id : Nat) (m : Msg) : Option (Nat × Msg) :=
  (s.msgs.findSome? fun e => match e.2 with
    | some o => if e.1 ≠ id ∧ o.kind = .write ∧ o.held ∧ o.pair = m.pair ∧ o.spkg = m.spkg ∧ o.score = m.score ∧ o.job = m.job ∧ o.dpkg = m.dpkg ∧ o.dcore = m.dcore
                then some (e.1, o) else none
    | none => none)
/-- A message of a core performed or refused at its home. -/
def State.atHome (s : State) (id : Nat) (m : Msg) : State :=
  match m.kind with
  | .memWrite =>
    let (t, ref) := s.performMem m
    t.answered id m .memAck ref [] none
  | .read =>
    let (t, ref, d) := s.perform m []
    t.answered id m .readData ref (dataParts (m.parts.foldl (fun a p => a + p.w) 0) d) (if ref then some .roleFault else none)
  | .faa =>
    let why := s.faaWhy m
    let (t, ref, d) := s.perform m []
    t.answered id m .reply ref (dataParts 40 d) (if ref then some why else none)
  | .write =>
    if m.pair.isSome then
      match s.otherHalf id m with
      | none => s.setMsg id (some { m with held := true })
      | some (oid, o) =>
        let (t, ref, _) := s.perform m o.parts
        (t.answered id m .reply ref [] none).answered oid o .reply ref [] none
    else
      let (t, ref, _) := s.perform m []
      t.answered id m .reply ref [] none
  | _ =>
    let (t, ref, _) := s.perform m []
    t.answered id m .reply ref [] none
/-- The home can take the message now: it has been delivered, and pinned messages come in their order (R402). -/
def State.atDoor (s : State) (m : Msg) : Bool :=
  m.kind.asks && m.mc.isNone && m.leg == .home && !m.held && !(s.earlierPin m fun o => !(o.pair.isSome && o.pair == m.pair && o.held))

/-! Answers (R396, R399, R400). -/

/-- The sender's job is still on its core (R420). -/
def State.sentBy (s : State) (m : Msg) : Bool :=
  match (s.coreAt (coreKey m.spkg m.score)).job with
  | some j => j.serial == m.job
  | none => false
/-- A refusal noted for report (R396, R398). -/
def Core.noteRefusal (c : Core) (win : Nat) (va : W64) : Core :=
  let f := c.fab
  let e := if f.rpend = 0 ∧ !f.mpend then va else f.fxerr
  { c with fab := if win ≤ 16 then { f with rpend := f.rpend ||| BitVec.ofNat 17 (2 ^ win), fxerr := e } else { f with mpend := true, fxerr := e } }
/-- The window of an answered message. -/
def Core.closeWin (c : Core) (m : Msg) : Core := if m.win ≤ 16 then c.setWin m.win ((c.winAt m.win).answered m.sq) else c
/-- A copy's message is answered. -/
def Core.copyPaid (c : Core) (id : Nat) : Core :=
  match c.copy? id with
  | some x => c.setCopy { x with owed := x.owed - 1 }
  | none => c
/-- The data of a reply to the C stream: the value, or its trap. -/
def Msg.toC (m : Msg) : Nat × Option Trap :=
  match m.why, m.parts with
  | some k, _ => (0, some { cause := k, info := m.va })
  | none, p :: _ =>
    (if m.kind = .reply then itrunc (nsext p.val 40) 64 else p.val, if p.psn then some { cause := .poison, info := m.va } else none)
  | none, [] => (0, none)
/-- An answer at its source: what every kind does. -/
def Core.paid (c : Core) (id : Nat) (m : Msg) : Core :=
  let c1 := { c.closeWin m with owed := c.owed.filter (·.id != id) }
  let c2 := match m.sender with | .copy k => if m.kind = .readData then c1 else c1.copyPaid k | _ => c1
  if c2.sent = some id then { c2 with reply := some m.toC } else c2
/-- REPLY (R398, R400): OUT falls, the live window moves, a refusal is noted; a fetch-and-add's goes to its word alone (R410). -/
def execReply (s : State) : Out :=
  match s.msgAt s.ev.id with
  | none => .next s
  | some m =>
    if m.kind ≠ .reply ∨ m.leg ≠ .home then .next s else
    let s1 := s.setMsg s.ev.id none
    if !s.sentBy m then .next s1 else
    .next (s1.updCore (coreKey m.spkg m.score) fun c =>
      let c1 := c.paid s.ev.id m
      if m.ref && m.why.isNone then c1.noteRefusal m.win m.va else c1)
/-- MEMORY_ACKNOWLEDGEMENT (R396). -/
def execMemoryAcknowledgement (s : State) : Out :=
  match s.msgAt s.ev.id with
  | none => .next s
  | some m =>
    if m.kind ≠ .memAck ∨ m.leg ≠ .home then .next s else
    let s1 := s.setMsg s.ev.id none
    if !s.sentBy m then .next s1 else
    .next (s1.updCore (coreKey m.spkg m.score) fun c =>
      let c1 := c.paid s.ev.id m
      if m.ref then c1.noteRefusal 17 m.va else c1)
/-- A home's fault of a copy's read (R399): the copy stops at the element once every one below is done (07 R181). -/
def Core.copyBad (c : Core) (id key : Nat) (t : Trap) : Core :=
  match c.copy? id with
  | some x => c.setCopy { x with bad := tset none x.bad key (some t) }
  | none => c
/-- READ_DATA (R399): the data of a read reach the load or the copy that asked, or the word of the C stream. -/
def execReadData (s : State) : Out :=
  match s.msgAt s.ev.id with
  | none => .next s
  | some m =>
    if m.kind ≠ .readData ∨ m.leg ≠ .home then .next s else
    let s1 := s.setMsg s.ev.id none
    if !s.sentBy m then .next s1 else
    let ck := coreKey m.spkg m.score
    let s2 := s1.updCore ck fun c => c.paid s.ev.id m
    let t : Option Trap := m.why.map fun k => { cause := k, info := m.va }
    let v := (m.parts.map (·.val)).headD 0
    let vz := ((m.parts.drop 1).map (·.val)).headD 0
    let p := (m.parts.map (·.psn)).headD false
    match m.sender with
    | .copy id =>
      match t with
      | some t => .next (s2.updCore ck fun c => c.copyBad id m.load t)
      | none => .next (s2.updCore ck fun c =>
          match c.copy? id with
          | some x => c.setCopy { x with got := tset none x.got m.load (some (if x.zf && m.load < 2 ^ 40 then vz else v, p)) }
          | none => c)
    | .stream .a => .next (s2.updCore ck fun c => { c with a := { c.a with
        loads := c.a.loads.map fun l => if l.id == m.load then { l with ret := some (v, vz, p), bad := t } else l } })
    | _ => .next s2

end Sys2Proof.Machine
end

