-- ==== Sys2Proof/Machine/Worklist.lean ====
section
/-!
DEFINITION. The worklist: records, basins, the floor, pushing and joining, dispatch, balancing and termination
(18 R364 to R386), and the message at its home (20 R398), which a forwarded record also is.
-/
namespace Sys2Proof.Machine
open Sys2Proof

/-! Records (R364, R365). -/

/-- FLAGS bits (DEDUCED, log entry 64). -/
def flInh : BitVec 12 := 1
def flStrag : BitVec 12 := 2
def flJz : BitVec 12 := 4
def flDone : BitVec 12 := 8
def Rec.inh (r : Rec) : Bool := r.flags.getLsbD 0
/-- The 256 bits of a record (Table 18.1). -/
def Rec.toNat (r : Rec) : Nat :=
  r.code.toNat + fld r.frame.toNat 64 + fld r.pri.toNat 128 + fld r.join.toNat 160 + fld r.ctx.toNat 180 + fld r.flags.toNat 184
def recOf (v : Nat) : Rec :=
  { code := BitVec.ofNat 64 v, frame := BitVec.ofNat 64 (v / 2 ^ 64), pri := BitVec.ofNat 32 (v / 2 ^ 128),
    join := BitVec.ofNat 20 (v / 2 ^ 160), ctx := BitVec.ofNat 4 (v / 2 ^ 180), flags := BitVec.ofNat 12 (v / 2 ^ 184) }
/-- A reserved bit of a record is set. -/
def recRsv (v : Nat) : Bool := nbits v 196 60 != 0 || nbits v 188 4 != 0
/-- The record that four register words name: none where CODE is 0 or a reserved bit is set (R380). -/
def regRec (t : Tbl W64) : Option Rec :=
  let v := (List.range 4).foldl (fun a i => a + fld (tget 0 t i).toNat (64 * i)) 0
  if (tget 0 t 0) = 0 ∨ recRsv v then none else some (recOf v)

/-! Basins (R366, R370). -/

def Ctx.band (x : Ctx) (p : Nat) : Nat := p / 2 ^ x.b
def DieCtx.gate (d : DieCtx) : Nat := (d.g.getD 0).toNat
/-- The basin of a band. -/
def DieCtx.basin (d : DieCtx) (i : Nat) : List QRec := tget [] d.basins (i % 64)
def DieCtx.setBasin (d : DieCtx) (i : Nat) (l : List QRec) : DieCtx := { d with basins := tset [] d.basins (i % 64) l }
/-- A record takes its place (R366); a saved job goes to the head of its basin (R379, R382) (DEDUCED, log entry 20). -/
def Ctx.place (x : Ctx) (d : DieCtx) (q : QRec) : DieCtx :=
  let p := q.rcd.pri.toNat
  let g := x.band d.gate
  let i := x.band p
  if p < d.gate then d.setBasin g (q :: d.basin g)
  else if 63 < i - g then { d with ovf := if q.area.isSome then q :: d.ovf else d.ovf ++ [q] }
  else d.setBasin i (if q.area.isSome then q :: d.basin i else d.basin i ++ [q])
/-- Overflow records whose band has come near enough move to their basins in push order (R366). -/
def Ctx.refill (x : Ctx) (d : DieCtx) : DieCtx := d.ovf.foldl (fun t q => x.place t q) { d with ovf := [] }
/-- The number of the first nonempty basin in band order. -/
def Ctx.firstBasin (x : Ctx) (d : DieCtx) : Option Nat :=
  ((List.range 64).map (x.band d.gate + ·)).find? fun i => !(d.basin i).isEmpty
/-- The head record of the first nonempty basin in band order. -/
def Ctx.headRec (x : Ctx) (d : DieCtx) : Option QRec := (x.firstBasin d).bind fun i => (d.basin i).head?
def Ctx.popRec (x : Ctx) (d : DieCtx) : DieCtx :=
  match x.firstBasin d with
  | some i => d.setBasin i ((d.basin i).drop 1)
  | none => d
/-- The gate (R370). -/
def DieCtx.admits (d : DieCtx) (q : QRec) : Bool := q.area.isSome || q.rcd.inh || q.rcd.pri.toNat ≤ d.gate + d.fb.toNat
/-- Records of a die that are beyond the 64 on-chip places of their basins, or in its overflow list (R368). -/
def DieCtx.spilled (d : DieCtx) : Nat := d.basins.foldl (fun a e => a + (e.2.length - 64)) 0 + d.ovf.length

/-! Cores (R367, R381). -/

/-- A core of a package is free. -/
def Core.isFree (c : Core) : Bool := c.job.isNone && c.grant.isNone
/-- The free cores of a die that a context may use, lowest first. -/
def State.freeCores (s : State) (x : Ctx) (die : Nat) : List Nat :=
  ((List.range 96).map fun i => die % 8 * 96 + i).filter fun n => x.mask.getLsbD n && (s.coreAt (coreKey (die / 8) n)).isFree
/-- The die of a `wlpush` record (R367): most free cores, then nearest the issuing die, then the lower number. -/
def State.pickDie (s : State) (x : Ctx) (pkg src : Nat) : Nat :=
  (diesOf pkg).foldl (fun b d =>
    let fb := (s.freeCores x b).length
    let fd := (s.freeCores x d).length
    if fb < fd ∨ (fd = fb ∧ ringHops 9 (d % 8) (src % 8) < ringHops 9 (b % 8) (src % 8)) then d else b) (pkg * 8)

/-! The floor (R369). -/

/-- The priorities that count in the floor of a context in a package: queued and saved records, granted ones, running jobs,
and records forwarded and not yet accepted. -/
def State.priorities (s : State) (pkg : Nat) (x : BitVec 4) : List Nat :=
  (s.queuedOf pkg x).map (·.rcd.pri.toNat) ++ (s.jobsOf pkg x).map (·.2.rcd.pri.toNat) ++
  (s.cores.filterMap fun e => e.2.grant.bind fun q => if pkgOf e.1 = pkg ∧ q.rcd.ctx = x then some q.rcd.pri.toNat else none) ++
  (s.msgs.filterMap fun e => e.2.bind fun m => if m.kind = .forward ∧ m.spkg = pkg ∧ m.ctx = x then m.rcd.map (·.pri.toNat) else none)
def minOf (l : List Nat) : Option Nat := l.foldl (fun m p => some (min (m.getD p) p)) none
def State.localMin (s : State) (pkg : Nat) (x : BitVec 4) : Option Nat := minOf (s.priorities pkg x)
/-- The packages that hold a context of a number. -/
def State.pkgsOf (s : State) (x : BitVec 4) : List Nat := s.ctxs.filterMap fun e => if e.1 % 16 = x.toNat ∧ (s.ctxAt e.1).live then some (e.1 / 16) else none
/-- The packages that share the floor of a context: its own, or in domain mode those of the domain that hold the context in that mode
(R371). -/
def State.floorPkgs (s : State) (pkg : Nat) (x : BitVec 4) : List Nat :=
  if (s.ctxAt (ctxKey pkg x)).dom then (s.pkgsOf x).filter fun p => (s.ctxAt (ctxKey p x)).dom else [pkg]
/-- The true floor that a context's reductions give: of its package, or of the domain. -/
def State.trueMin (s : State) (pkg : Nat) (x : BitVec 4) : Option Nat := minOf ((s.floorPkgs pkg x).filterMap fun p => s.localMin p x)
/-- A push of the context is out: its credit has not come back (R385). -/
def State.pushOut (s : State) (pkg : Nat) (x : BitVec 4) : Bool := s.pushes.any fun p => p.2.die / 8 == pkg && p.2.rcd.ctx == x

/-! Pushing (R375, R367, R368). -/

/-- The descriptor of a push: priority, join slot, USR. -/
def pushDesc (s : State) (f : CrF) : Except Stop (BitVec 32 × BitVec 20 × BitVec 4) :=
  if f.rd = 0 then .ok (s.job.rcd.pri, 0, 0)
  else do
    let d := s.cg f.rd.toNat
    need (d.extractLsb' 52 8 == 0) (trNo .wlFault 4)
    .ok (d.extractLsb' 0 32, d.extractLsb' 32 20, d.extractLsb' 60 4)
/-- A record goes to the headworks. -/
def State.pushRec (s : State) (r : Rec) (spawn : Bool) (core : Option Nat) : State :=
  { s with pushes := s.pushes ++ [(s.ids, { rcd := r, die := dieKey s.cur, spawn := spawn, core := core })], ids := s.ids + 1 }
def pushWord (f : CrF) (spawn : Bool) (s : State) : State :=
  cWord f.g (fun s => s.crForm f true true false fun code frame => do
    let (pri, js, usr) ← pushDesc s f
    need (s.me.credits != 0) (.wait .sync)
    let flags : BitVec 12 := (usr.zeroExtend 12 <<< 8) ||| (if f.fn.getLsbD 0 then flInh else 0)
    let r : Rec := { code := code, frame := frame, pri := pri, join := js, ctx := s.job.rcd.ctx, flags := flags }
    .ok (0, (s.updMe fun c => { c with credits := c.credits - 1 }).pushRec r spawn (some s.cur))) s
/-- `wlpush` (R375). -/
def execWlpush (f : CrF) (s : State) : Out := .next (pushWord f false s)
/-- `wlspawn` (R375). -/
def execWlspawn (f : CrF) (s : State) : Out := .next (pushWord f true s)

/-! Joining (R376): the headworks takes the operations of a core after its earlier pushes. -/

def joinKey (pkg slot : Nat) : Nat := pkg * 2 ^ 20 + slot
/-- The lowest slot from 1 that no key of the rising list takes. -/
def lowestFree : List Nat → Nat → Nat
  | [], n => n
  | k :: l, n => if k = n then lowestFree l (n + 1) else lowestFree l n
/-- The lowest free slot of a package, if there is one. -/
def State.freeJoin (s : State) (pkg : Nat) : Option Nat :=
  let used := (s.joins.filter fun e => e.1 / 2 ^ 20 == pkg && e.2.armed).map fun e => e.1 % 2 ^ 20
  let n := lowestFree (used.filter (0 < ·)) 1
  if n < 2 ^ 20 then some n else none
/-- A join waits for a credit, and for the acceptance of the core's earlier pushes (R367, R368) (DEDUCED, log entry 63). -/
def State.joinTurn (s : State) : Except Stop Unit := do
  need (s.me.credits != 0) (.wait .sync)
  need (!(s.pushes.any fun p => p.2.core == some s.cur)) (.wait .free)
def State.joinAt (s : State) (v : W64) : Except Stop (Nat × JoinSlot) := do
  let k := joinKey s.myPkg (v.extractLsb' 0 20).toNat
  let j : JoinSlot := tget {} s.joins k
  need (j.armed && j.ctx == s.job.rcd.ctx) (trNo .wlFault 1)
  .ok (k, j)
/-- `wljoin.dec` (R376). -/
def execWljoinDec (f : CrF) (s : State) : Out :=
  .next (cWord f.g (fun s => s.crForm f true false true fun a _ => do
    s.joinTurn
    let (k, j) ← s.joinAt a
    let n := j.count - 1
    if n = 0 then
      let r := { j.rcd with flags := j.rcd.flags ||| flJz }
      .ok (0, ({ s with joins := tset {} s.joins k {} }).pushRec r false none)
    else .ok (n.zeroExtend 64, { s with joins := tset {} s.joins k { j with count := n } })) s)
/-- The record that `wljoin.arm` reads in the own aperture or in memory (R376): MISALIGN, ROLE_FAULT, POISON; older writes of the core
on their way to those bits land first (06 R136); a replica may serve it (13 R308). -/
def State.armRec (s : State) (ea : Nat) (t : Target) : Except Stop Nat := do
  let ps := t.local
  let v := s.viewed ps
  need (match t with | .own o _ => inPart .scratch o 256 || inPart .acc o 256 | _ => true) (trAt .ldstScope ea)
  need (ea % 128 == 0) (trAt .misalign ea)
  need (v.rolePieces s.cur s.job s.myPkg ps .rd) (trAt .roleFault ea)
  need (!(s.me.owed.any fun w => w.pkg == s.myPkg && spansMeet [(w.lo, w.hi)] (pieceSpans ps))) (.wait .free)
  need (!v.psnPieces s.myPkg ps) (trAt .poison ea)
  .ok (v.rdPieces s.myPkg ps)
/-- `wljoin.arm` with its record read: the tests of WL_FAULT, and the slot. -/
def State.armSlot (s : State) (b : W64) (v : Nat) : Except Stop (W64 × State) := do
  need (b != 0 && b.extractLsb' 32 32 == 0) (trNo .wlFault 5)
  need (!recRsv v) (trNo .wlFault 4)
  match s.freeJoin s.myPkg with
  | none => .error (trNo .wlFault 3)
  | some n =>
    let r := { recOf v with ctx := s.job.rcd.ctx, join := 0 }
    let j : JoinSlot := { armed := true, ctx := s.job.rcd.ctx, count := b.extractLsb' 0 32, rcd := r }
    .ok (BitVec.ofNat 64 n, { s with joins := tset {} s.joins (joinKey s.myPkg n) j })
/-- `wljoin.arm` (R376). A record in another core's aperture is read by a request through its window, as every read there (20 R399)
(DEDUCED, log entry 93). -/
def execWljoinArm (f : CrF) (s : State) : Out :=
  .next (cWord f.g (fun s => do
    let qs := CrQ f true true
    let ea := (s.cSrc f.qa f.ra).toNat
    let fin (v : Nat) (t : State) : Except Stop State := do
      let (n, u) ← t.armSlot (s.cSrc f.qb f.rb) v
      .ok (((u.cPop f.pk qs).cDst f.qd f.rd n).advance .c)
    match s.me.sent, s.me.reply with
    | some _, none => .error (.wait .free)
    | some _, some (v, bad) =>
      let s1 := s.updMe fun c => { c with sent := none, reply := none }
      match bad with
      | some t => .ok (s1.takeTrap .c t)
      | none => (match fin v s1 with | .error (.trap t) => .ok (s1.takeTrap .c t) | r => r)
    | none, _ =>
      s.cSources qs
      s.joinTurn
      let (t, _) ← s.target s.cur (.stream .c) .r true ea 256
      match t with
      | .peer win pkg n o _ => do
        need (inPart .scratch o 256 || inPart .acc o 256) (trAt .ldstScope ea)
        need (ea % 128 == 0) (trAt .misalign ea)
        need (s.me.canSend win && !s.me.owesWin 0 win pkg (apAddr n o) (apAddr n o + 256)) (.wait .free)
        s.cRoom (qName f.qd f.rd)
        let m := s.newMsg s.cur .read pkg n [{ at_ := o, w := 256, val := 0 }] (.stream .c) 0 win (BitVec.ofNat 64 ea)
        .ok (((s.post s.cur m).updMe fun c => { c with sent := some s.ids, reply := none }).noteWait .c .free)
      | _ => do
        let v ← s.armRec ea t
        let u ← fin v ((s.drawn t.local).usePages .c ea 1)
        s.cRoom (qName f.qd f.rd)
        .ok u) s)
/-- `wljoin.add` (R376). -/
def execWljoinAdd (f : CrF) (s : State) : Out :=
  .next (cWord f.g (fun s => s.crForm f true true true fun a b => do
    s.joinTurn
    let (k, j) ← s.joinAt a
    let n := j.count.toNat + (b.extractLsb' 0 32).toNat
    need (n < 2 ^ 32) (trNo .wlFault 2)
    .ok (BitVec.ofNat 64 n, { s with joins := tset {} s.joins k { j with count := BitVec.ofNat 32 n } })) s)

/-! Reading the floor (R378), yielding (R379). -/

def State.myDie (s : State) : DieCtx := s.dctxAt (dieKey s.cur) s.job.rcd.ctx
/-- `wlfloor.gate`. -/
def execWlfloorGate (f : CrF) (s : State) : Out :=
  .next (cWord f.g (fun s => s.crForm f false false true fun _ _ => .ok (BitVec.ofNat 64 s.myDie.gate, s)) s)
/-- `wlfloor.fresh`: the true floor at a moment after the word issued. -/
def execWlfloorFresh (f : CrF) (s : State) : Out :=
  .next (cWord f.g (fun s => s.crForm f false false true fun _ _ =>
    .ok (BitVec.ofNat 64 ((s.trueMin s.myPkg s.job.rcd.ctx).getD 0), s)) s)
/-- `wlfloor.fb` (DEDUCED, log entry 66). -/
def execWlfloorFb (f : CrF) (s : State) : Out :=
  .next (cWord f.g (fun s => s.crForm f false false true fun _ _ => .ok (s.myDie.fb.zeroExtend 64, s)) s)

/-- The contexts of a package that run. -/
def State.runningCtxs (s : State) (pkg : Nat) : List (BitVec 4) :=
  ((List.range 16).map (BitVec.ofNat 4)).filter fun x => let c := s.ctxAt (ctxKey pkg x); c.live && c.running
/-- A record of a context that R370 admits heads one of its basins on some die (R382). -/
def State.waitsHead (s : State) (pkg : Nat) (x : BitVec 4) : Bool :=
  (diesOf pkg).any fun d => let e := s.dctxAt d x; e.basins.any fun b => b.2.head?.any e.admits
/-- A saved job of a context waits, wherever in its basin (R379). -/
def State.waitsSaved (s : State) (pkg : Nat) (x : BitVec 4) : Bool := (s.queuedOf pkg x).any fun q => q.area.isSome
def State.anyFree (s : State) (pkg : Nat) (p : Nat → Bool) : Bool := (List.range 768).any fun n => p n && (s.coreAt (coreKey pkg n)).isFree
/-- `wlyield` (R379): where it is granted the job is pre-empted behind the word; inside a handler the request waits (15 R352)
(DEDUCED, log entry 67). -/
def execWlyield (f : CsF) (s : State) : Out :=
  .next (cWord f.g (fun s =>
    if s.me.phase.isSome then .error (trNo .wlFault 6) else
    let s1 := s.advance .c
    if s.anyFree s.myPkg (fun _ => true) || !((s.runningCtxs s.myPkg).any fun x => s.waitsHead s.myPkg x || s.waitsSaved s.myPkg x) then .ok s1
    else if s.me.inh || s.me.pend != 0 then .ok (s1.updMe fun c => { c with pre := true })
    else .ok s1.beginSave.1) s)

/-! Acceptance (R367 to R373). -/

/-- Gives every die of a package a gate floor. -/
def State.setGates (s : State) (pkg : Nat) (x : BitVec 4) (g : DieCtx → DieCtx) : State :=
  (diesOf pkg).foldl (fun t d => t.setDctx d x (g (t.dctxAt d x))) s
def State.placeOn (s : State) (die : Nat) (x : BitVec 4) (q : QRec) : State :=
  s.setDctx die x ((s.ctxAt (ctxKey (die / 8) x)).place (s.dctxAt die x) q)
/-- Puts records at the head of the floor basin of a die (R372). -/
def State.placeFloor (s : State) (die : Nat) (x : BitVec 4) (l : List QRec) : State :=
  let c := s.ctxAt (ctxKey (die / 8) x)
  let d := s.dctxAt die x
  let g := c.band d.gate
  s.setDctx die x (d.setBasin g (l ++ d.basin g))
/-- The lowered floor on its way to a die. -/
def DieCtx.lower (d : DieCtx) (p : BitVec 32) : DieCtx := { d with low := some (if (d.low.getD p).toNat < p.toNat then d.low.getD p else p) }
/-- A lowered floor reaches a die: G := min(G, PRI). -/
def DieCtx.deliver (d : DieCtx) : DieCtx :=
  match d.low with
  | none => d
  | some p => { d with low := none, g := some (if (d.g.getD p).toNat < p.toNat then d.g.getD p else p) }
/-- The floor that an acceptance finds: none while no record of the context is queued, running or saved (R369). A headworks that holds
none yet has the one that the others of its domain hold. -/
def State.floorNow (s : State) (pkg : Nat) (x : BitVec 4) : Option (BitVec 32) :=
  if (s.trueMin pkg x).isNone then none else
  (s.ctxAt (ctxKey pkg x)).fh.or ((minOf ((s.floorPkgs pkg x).filterMap fun p => (s.ctxAt (ctxKey p x)).fh.map (·.toNat))).map (BitVec.ofNat 32))
/-- F_h at every headworks that shares a context's floor, and what their dies get of it (R369, R371, R372). -/
def State.setFloor (s : State) (pkg : Nat) (x : BitVec 4) (p : BitVec 32) (g : DieCtx → DieCtx) : State :=
  (s.floorPkgs pkg x).foldl (fun t q => (t.setCtxAt (ctxKey q x) { t.ctxAt (ctxKey q x) with fh := some p }).setGates q x g) s
/-- The first floor of a context, which every die gets at once (R369). -/
def State.firstFloor (s : State) (pkg : Nat) (x : BitVec 4) (p : BitVec 32) : State := s.setFloor pkg x p fun d => { d with g := some p, low := none }
/-- A headworks takes the floor of its domain where it holds none. -/
def State.joinFloor (s : State) (pkg : Nat) (x : BitVec 4) (f : BitVec 32) : State :=
  if (s.ctxAt (ctxKey pkg x)).fh.isSome then s else
  (s.setCtxAt (ctxKey pkg x) { s.ctxAt (ctxKey pkg x) with fh := some f }).setGates pkg x fun d => { d with g := some f, low := none }
/-- The headworks of a package accepts a record: it is placed, as a straggler where it lies below the floor. -/
def State.accept (s0 : State) (pkg die : Nat) (spawn : Bool) (r : Rec) : State :=
  let x := r.ctx
  let k := ctxKey pkg x
  let s := s0.setCtxAt k ((s0.ctxAt k).settle s0.now)
  let c := s.ctxAt k
  let at_ := if spawn then die else s.pickDie c pkg die
  match s.floorNow pkg x with
  | none => (s.firstFloor pkg x r.pri).placeOn at_ x { rcd := r }
  | some f =>
    let s := s.joinFloor pkg x f
    let c := s.ctxAt k
    if r.inh then s.placeOn at_ x { rcd := { r with pri := f } }
    else if r.pri.toNat < f.toNat then
      let r1 : Rec := { r with flags := r.flags ||| flStrag }
      let copy := (regRec c.strag).map fun y : Rec => { y with pri := r.pri, ctx := x, flags := y.flags ||| flStrag }
      let s1 := s.placeFloor at_ x ((copy.toList ++ [r1]).map fun y => { rcd := y })
      (s1.setCtxAt k { c with stragN := if c.stragN = 0xFFFF then c.stragN else c.stragN + 1 }).setFloor pkg x r.pri fun d => d.lower r.pri
    else s.placeOn at_ x { rcd := r }
/-- The context takes records. -/
def Ctx.takes (c : Ctx) : Bool := c.live && !c.killed && c.killing.isNone
/-- Records of a context in the spill rings and overflow lists of the private area (R368). -/
def State.spilled (s : State) (pkg : Nat) (x : BitVec 4) : Nat := ((diesOf pkg).map fun d => (s.dctxAt d x).spilled).foldl (· + ·) 0
/-- An acceptance that leads from `s` to `t` is held where it would take the private area past 2^24 records (R368). -/
def State.fits (s t : State) (pkg : Nat) (x : BitVec 4) : Bool := t.spilled pkg x ≤ 2 ^ 24 || t.spilled pkg x ≤ s.spilled pkg x
/-- PUSH_ACCEPT of push `ev.id` (R367): the earlier pushes of its core first, and only where the private area has room. -/
def execPushAccept (s : State) : Out :=
  match s.pushes.find? (·.1 == s.ev.id) with
  | none => .next s
  | some (id, p) =>
    let pkg := p.die / 8
    if p.core.isSome && s.pushes.any fun o => o.1 < id && o.2.core == p.core then .next s
    else
      let s1 := { s with pushes := s.pushes.filter (·.1 != id) }
      let s2 := match p.core with
        | some ck => s1.updCore ck fun c => { c with credits := c.credits + 1 }
        | none => s1
      let c := s.ctxAt (ctxKey pkg p.rcd.ctx)
      let t := if c.takes && c.running then s2.accept pkg p.die p.spawn p.rcd else s2
      .next (if s.fits t pkg p.rcd.ctx then t else s)

/-! Reductions (R369, R371). -/

/-- The floor and the freeboard reach a die; its overflow list moves up. -/
def Ctx.toDie (c : Ctx) (d : DieCtx) : DieCtx := c.refill { d with g := c.fh, low := none, fb := c.fb }
/-- A reduction of one context. In domain mode F_h is the domain's, which this leaves (DEDUCED, log entry 65). -/
def State.reduceCtx (s0 : State) (pkg : Nat) (x : BitVec 4) : State :=
  let k := ctxKey pkg x
  let s := s0.setCtxAt k ((s0.ctxAt k).settle s0.now)
  let c := s.ctxAt k
  let c1 := { c with fh := if c.dom then c.fh else (s.localMin pkg x).map (BitVec.ofNat 32) }
  (s.setCtxAt k c1).setGates pkg x c1.toDie
/-- FLOOR_REDUCTION of a package (R369). -/
def execFloorReduction (s : State) : Out :=
  .next ((s.runningCtxs s.myPkg).foldl (fun t x => t.reduceCtx s.myPkg x) s)
/-- DOMAIN_FLOOR_REDUCTION of context `ev.ctx` (R371): every headworks of a context in domain mode holds the domain's minimum. -/
def execDomainFloorReduction (s : State) : Out :=
  let x := s.ev.ctx
  let ps := (s.pkgsOf x).filter fun p => (s.ctxAt (ctxKey p x)).dom
  let m := (minOf (ps.filterMap fun p => s.localMin p x)).map (BitVec.ofNat 32)
  .next (ps.foldl (fun t p =>
    let k := ctxKey p x
    let c := (t.ctxAt k).settle t.now
    let c1 := { c with fh := m }
    (t.setCtxAt k c1).setGates p x c1.toDie) s)

/-! Dispatch (R370, R381), neighbours and forwarding (R383). -/

/-- The die that would start a record of a context: a free core that the mask allows and an admitted head; least PRI, then the
lower number. -/
def State.bestDie (s : State) (pkg : Nat) (x : BitVec 4) : Option (Nat × QRec) :=
  let c := s.ctxAt (ctxKey pkg x)
  (diesOf pkg).foldl (fun b d =>
    let e := s.dctxAt d x
    match c.headRec e with
    | some q =>
      if e.admits q && !(s.freeCores c d).isEmpty then
        match b with
        | some (_, q0) => if q.rcd.pri.toNat < q0.rcd.pri.toNat then some (d, q) else b
        | none => some (d, q)
      else b
    | none => b) none
/-- Lowered floors on their way reach the dies of a package. -/
def State.deliverAll (s : State) (pkg : Nat) : State := (s.runningCtxs pkg).foldl (fun t x => t.setGates pkg x DieCtx.deliver) s
/-- Eligibility at a dispatch: a context that becomes eligible takes at least the least pass of those already so (R381). -/
def State.markEligible (s : State) (pkg : Nat) : State :=
  let ok (x : BitVec 4) : Bool := (s.bestDie pkg x).isSome
  let xs := s.runningCtxs pkg
  let v := minOf ((xs.filter fun x => ok x && (s.ctxAt (ctxKey pkg x)).eligible).map fun x => (s.ctxAt (ctxKey pkg x)).pass.toNat)
  xs.foldl (fun t x =>
    let k := ctxKey pkg x
    let c := t.ctxAt k
    if ok x then
      t.setCtxAt k { c with eligible := true, pass := if c.eligible then c.pass else BitVec.ofNat 64 (max c.pass.toNat (v.getD c.pass.toNat)) }
    else t.setCtxAt k { c with eligible := false }) s
/-- The eligible context of least pass, the lower number first. -/
def State.winner (s : State) (pkg : Nat) : Option (BitVec 4) :=
  ((s.runningCtxs pkg).filter fun x => (s.ctxAt (ctxKey pkg x)).eligible).foldl (fun b x =>
    match b with
    | some y => if (s.ctxAt (ctxKey pkg x)).pass.toNat < (s.ctxAt (ctxKey pkg y)).pass.toNat then some x else b
    | none => some x) none
/-- TASK_DISPATCH of a package (R381). `ev.up` says whether lowered floors on their way have reached the dies. -/
def execTaskDispatch (s : State) : Out :=
  let pkg := s.myPkg
  let s1 := (if s.ev.up then s.deliverAll pkg else s).markEligible pkg
  match s1.winner pkg with
  | none => .next s1
  | some x =>
    let k := ctxKey pkg x
    let c := s1.ctxAt k
    match s1.bestDie pkg x with
    | none => .next s1
    | some (d, q) =>
      match s1.freeCores c d with
      | [] => .next s1
      | n :: _ =>
        let s2 := (s1.setDctx d x (c.popRec (s1.dctxAt d x))).setCtxAt k { c with pass := c.pass + BitVec.ofNat 64 (2 ^ 20 / c.tickets) }
        .next (s2.updCore (coreKey pkg n) fun y => { y with grant := some q })
/-- NEIGHBOUR_REQUEST (R383): the die of `s.cur`, with a free core and nothing of context `ev.ctx` that it would start, takes the
head record of a neighbour: of die d + 1 where `ev.up`, else of die d + 7. "No record of a context that R370 would start" is read of
the context asked for, whatever other contexts have (DEDUCED, log entry 91). -/
def execNeighbourRequest (s : State) : Out :=
  let d := dieKey s.cur
  let pkg := s.myPkg
  let x := s.ev.ctx
  let c := s.ctxAt (ctxKey pkg x)
  let e := s.dctxAt d x
  let n := pkg * 8 + (d % 8 + if s.ev.up then 1 else 7) % 8
  let o := s.dctxAt n x
  let starts := (c.headRec e).any e.admits
  if !(c.live && c.running) || (s.freeCores c d).isEmpty || starts then .next s else
  match c.headRec o with
  | none => .next s
  | some q => if e.admits q then .next ((s.setDctx n x (c.popRec o)).placeOn d x q) else .next s

/-- The rack-ring neighbours of a package: the next packages of its rack on either side. -/
def State.rackNext (s : State) (pkg : Nat) (up : Bool) : Option Nat :=
  (((List.range 63).map fun i => pkg / 64 * 64 + (pkg % 64 + if up then i + 1 else 63 - i) % 64)).find? s.inDomain
def State.freeOf (s : State) (pkg : Nat) (x : BitVec 4) : Nat :=
  ((diesOf pkg).map fun d => (s.freeCores (s.ctxAt (ctxKey pkg x)) d).length).foldl (· + ·) 0
/-- RECORD_FORWARD of context `ev.ctx` (R383): a head record goes to the neighbour with most free cores, `ev.up` choosing
between equal ones; of several dies with an admitted one the lowest forwards its own (DESIGN CHOICE, log entry 108). -/
def execRecordForward (s : State) : Out :=
  let pkg := s.myPkg
  let x := s.ev.ctx
  let c := s.ctxAt (ctxKey pkg x)
  let held := ((diesOf pkg).map fun d => let e := s.dctxAt d x; (e.recs.filter fun q => e.admits q && q.area.isNone).length).foldl (· + ·) 0
  let from_ := (diesOf pkg).find? fun d => (c.headRec (s.dctxAt d x)).any fun q => q.area.isNone && (s.dctxAt d x).admits q
  match s.rackNext pkg true, s.rackNext pkg false, from_ with
  | some a, some b, some d =>
    if !(c.live && c.running) || c.balMode != 1 || held ≤ c.thresh then .next s else
    let dst := if s.freeOf a x < s.freeOf b x ∨ (s.freeOf a x = s.freeOf b x ∧ !s.ev.up) then b else a
    match c.headRec (s.dctxAt d x) with
    | none => .next s
    | some q =>
      let m : Msg := { kind := .forward, dpkg := dst, dcore := 0, parts := [], ctx := x, frame := 0, spkg := pkg, score := 0, job := 0,
                       sender := .headworks, src := 5, win := 17, va := 0, seq := s.ids, leg := .start, rcd := some q.rcd }
      let s1 := s.setDctx d x (c.popRec (s.dctxAt d x))
      .next { s1.setMsg s1.ids (some m) with ids := s1.ids + 1 }
  | _, _, _ => .next s
/-- A forwarded record accepted by the headworks of its target (R383): it keeps the priority it was accepted with. It is no push: below
F_h it lowers the floor, and where there is none it sets it, but it is marked as no straggler, copied and counted as none (DEDUCED,
log entry 92). It is placed as a `wlpush` record whose issuing die is die 0 (DESIGN CHOICE, log entry 109). -/
def State.acceptForward (s : State) (pkg : Nat) (r : Rec) : State :=
  let k := ctxKey pkg r.ctx
  let c := s.ctxAt k
  if !c.takes then s else
  let s1 := s.setCtxAt k { c with running := true }
  let s2 := match s.floorNow pkg r.ctx with
    | none => s1.firstFloor pkg r.ctx r.pri
    | some f =>
      let s2 := s1.joinFloor pkg r.ctx f
      if r.pri.toNat < f.toNat then s2.setFloor pkg r.ctx r.pri fun d => d.lower r.pri else s2
  s2.placeOn (s2.pickDie c pkg (pkg * 8)) r.ctx { rcd := r }

/-- HOME_MESSAGE (20 R398): message `ev.id` reaches its home. -/
def execHomeMessage (s : State) : Out :=
  match s.msgAt s.ev.id with
  | none => .next s
  | some m =>
    if !s.atDoor m then .next s else
    match m.kind, m.rcd with
    | .forward, some r =>
      let t := (s.setMsg s.ev.id none).acceptForward m.dpkg r
      .next (if s.fits t m.dpkg r.ctx then t else s)
    | _, _ => .next (s.atHome s.ev.id m)

/-! Inversion and termination (R374, R385). -/

/-- Since when a stream waits at a word that it cannot issue for what R374 lists: a queue, a full/empty bit, a semaphore, weir, flume,
`mjoin` or credit, `rcwait`, a rendezvous; the M stream also for its full queue, or behind a head that waits for a semaphore. -/
def Core.blockedAt (c : Core) (st : Str) : Option Nat :=
  (c.ctl st).wait.bind fun w =>
    if w.kind = .free && st = .m && (c.m.queue.length == 16 || (c.m.queue.head?.bind fun e => mHead e.instr).any fun h => c.semAt h.wid.toNat < h.wcnt.toNat)
    then some w.since else w.blocked
/-- The first cycle from which every unended stream has been blocked. -/
def Core.blockedFrom (c : Core) : Option Nat :=
  let l := c.openStrs
  if l.isEmpty || !(l.all fun st => (c.blockedAt st).isSome) then none
  else some ((l.filterMap c.blockedAt).foldl max 0)
/-- INVERSION (R374) of the job of a core. -/
def execInversion (s : State) : Out :=
  let c := s.me
  match c.job, c.blockedFrom with
  | some j, some t =>
    let k := ctxKey s.myPkg j.rcd.ctx
    let x := (s.ctxAt k).settle s.now
    if c.running s.now && x.invTimeout != 0 && x.fh == some j.rcd.pri && t + x.invTimeout.toNat ≤ s.now && j.blocked != some t then
      let s1 := s.setCtxAt k { x with inv := if x.inv = 0xFFFF then x.inv else x.inv + 1 }
      .next ((s1.updMe fun c => { c with job := some { j with blocked := some t } }).report k (numOf s.cur) 0 7 j.rcd.pri.toNat)
    else .next s
  | _, _ => .next s

/-- Nothing of a context is left in a package (R385). -/
def State.idleCtx (s : State) (pkg : Nat) (x : BitVec 4) : Bool :=
  (s.queuedOf pkg x).isEmpty && (s.priorities pkg x).isEmpty && !s.pushOut pkg x
/-- TERMINATION of context `ev.ctx` of a package (R385). -/
def execTermination (s : State) : Out :=
  let pkg := s.myPkg
  let x := s.ev.ctx
  let k := ctxKey pkg x
  let c := (s.ctxAt k).settle s.now
  if !(c.takes && c.running) || !((s.floorPkgs pkg x).all fun p => s.idleCtx p x) then .next s else
  match regRec c.done with
  | some r =>
    let s1 := s.setCtxAt k { c with done := [], fh := none }
    .next (s1.accept pkg (pkg * 8) false { r with ctx := x, flags := r.flags ||| flDone })
  | none =>
    let s1 := (s.setCtxAt k { c with running := false, fh := none }).setGates pkg x fun d => { d with g := none, low := none }
    .next (s1.report k 0 0 6 0)

end Sys2Proof.Machine
end

