-- ==== Sys2Proof/Machine/Tasks.lean ====
section
/-!
DEFINITION. Starting and retiring a task (06 R138 to R143, 13 R279), and the request of a pre-emption (15 R352, 18 R382).
-/
namespace Sys2Proof.Machine
open Sys2Proof

/-! Reading for the system, and zeroing. -/

/-- The physical address of a virtual bit that the core's task logic reads in a context (06 R139): through the page tables, with
read permission, or in the absolute apertures. The own aperture holds no IMM granule of a task to come. -/
def State.sysPa (s : State) (ck : Nat) (x : BitVec 4) (va : Nat) : Option Nat :=
  if absVa ≤ va ∧ va < absVa + 768 * 2 ^ 30 then
    let pa := apBase + (va - absVa)
    if onAp (numOf ck) pa then none else some pa
  else if winVa ≤ va ∧ va < absVa then none
  else
    match (s.walk (dieKey ck) x va).2 with
    | .page e => if e.r then some (e.pa + swizzle e.swz (va - e.va)) else none
    | .fault _ => none
/-- The pieces of `n` bits at a virtual address that the task logic reads; none where a page of them cannot be read. -/
def State.sysPieces (s : State) (ck : Nat) (x : BitVec 4) (va n : Nat) : Option Pieces :=
  (cuts va n).mapM fun p => (s.sysPa ck x p.1).map fun pa => (pa, p.2)
/-- The bits of such pieces: none where some granule is poisoned or is not IMM. -/
def State.sysImm (s : State) (ck : Nat) (ps : Pieces) : Option Nat :=
  if (ps.all fun p => (s.roleAt (pkgOf ck) p.1).role == .imm) && !s.psnPieces (pkgOf ck) ps then some (s.rdPieces (pkgOf ck) ps) else none

/-- A physical range of whole blocks becomes zero, unpoisoned, its CRC that of the zeros. -/
def State.zeroRange (s : State) (pkg pa n : Nat) : State :=
  { s with
    mem := tclear s.mem (bitKey pkg pa / 8) (bitKey pkg (pa + n) / 8)
    psn := tclear s.psn (granKey pkg pa) (granKey pkg (pa + n))
    crcs := tclear s.crcs (crcKey pkg pa) (crcKey pkg (pa + n)) }
/-- The zeroing of a core's scratchpad and accumulator at a change of context (13 R279). -/
def State.zeroCore (s : State) (ck : Nat) : State :=
  let n := numOf ck
  ((s.zeroRange (pkgOf ck) (apAddr n 0) scratchBits).zeroRange (pkgOf ck) (apAddr n accBase) (accEnd - accBase)).updCore ck fun c =>
    { c with lanePsn := [], m := { c.m with macros := [] } }

/-! The header (R138, R139). -/

/-- The entries and the accumulator extent of a header that R139 accepts (DEDUCED, log entry 71). A replica may serve it (13 R308). -/
def State.header (s : State) (ck : Nat) (x : BitVec 4) (code : W64) : Option (List Nat × Nat) := do
  let ps ← s.sysPieces ck x code.toNat 384
  let h ← (s.viewed ps).sysImm ck ps
  let es := [nbits h 0 64, nbits h 64 64, nbits h 128 64, nbits h 192 64]
  let accx := nbits h 256 18
  let ok := code.toNat % 128 == 0 && nbits h 274 110 == 0 && accx ≤ laneCount && es.any (· != 0) &&
    (strs.zip es).all fun e => e.2 % e.1.wordBits == 0
  if ok then some (es, accx) else none
/-- The read of a header takes the free values that chose its replicas. -/
def State.headerDrawn (s : State) (ck : Nat) (x : BitVec 4) (code : W64) : State :=
  match s.sysPieces ck x code.toNat 384 with
  | some ps => s.drawn ps
  | none => s

/-! The state at task start (R140, R279). -/

/-- What a core keeps from task to task: its macros, its fences and test clocks, its TLBs, its memory's marks and its credits. -/
def Core.blank (c : Core) : Core :=
  let keep (x : Stream) : Stream := { tlb := x.tlb }
  { prev := c.prev, credits := c.credits, gone := c.gone, full := c.full, lanePsn := c.lanePsn, roleDef := c.roleDef, roles := c.roles,
    tlb := c.tlb, stamp := c.stamp, limit := c.limit,
    c := { ctl := keep c.c.ctl }, a := { ctl := keep c.a.ctl }, v := { ctl := keep c.v.ctl },
    m := { ctl := keep c.m.ctl, tfence := c.m.tfence, ffence := c.m.ffence, busyT := c.m.busyT, busyF := c.m.busyF, macros := c.m.macros } }
/-- The image of a context. -/
def State.imageOf (s : State) (xk : Nat) : Option Image :=
  (s.pkgAt (xk / 16)).images.find? (·.handle == (s.ctxAt xk).image)
/-- The ACC sections of a context's image. -/
def State.accSecs (s : State) (xk : Nat) : List ImgSec :=
  match s.imageOf xk with
  | some i => i.secs.filter fun x => x.role == .acc
  | none => []
/-- The role granules of the accumulator that a section of lanes covers, as granule numbers of the aperture. -/
def ImgSec.granules (x : ImgSec) : List Nat :=
  if x.len = 0 then [] else
  let lo := (accBase + x.va) / 32768
  (List.range ((accBase + x.va + x.len - 1) / 32768 + 1 - lo)).map (lo + ·)
/-- The directory entries of an own aperture at task start (R279). -/
def startRoles (d : DirEntry) (l : List ImgSec) : Tbl DirEntry :=
  l.foldl (fun t x => x.granules.foldl (fun t g => tset d t g { d with role := .acc, mode := x.mode, point := x.point }) t) []
/-- The lanes of an ACC section are zeroed. -/
def State.zeroLanes (s : State) (ck : Nat) (x : ImgSec) : State :=
  { s with mem := memSetBits s.mem (bitKey (pkgOf ck) (apAddr (numOf ck) (accBase + x.va))) x.len 0 }.updCore ck fun c =>
    { c with lanePsn := tclear c.lanePsn (x.va / 40) ((x.va + x.len) / 40) }
/-- A stream at task start. -/
def Stream.begin (x : Stream) (entry : Nat) (vec : W64) : Stream :=
  { tlb := x.tlb, started := entry != 0, pc := BitVec.ofNat 64 entry, tvec := vec }
/-- What the loaded firmware puts into a field of reset code F; PWRLIM is 2,000 W as shipped (00 Table 0.1, 22 Table 22.7). -/
def Pkg.field (p : Pkg) (n : Nat) : Nat := if p.firmware = [] ∧ n = 0x300 then 2000 else Config.firmwareField p.firmware n
/-- Table 6.6; `itv` is the interval of the injected self-tests that the firmware has loaded. -/
def Core.beginTask (c : Core) (r : Rec) (x : Ctx) (es : List Nat) (j : Job) (l : List ImgSec) (itv : Nat) : Core :=
  let d := c.blank
  let e (i : Nat) : Nat := es.getD i 0
  let def_ : DirEntry := { frame := r.frame, ctx := r.ctx, sys := false, role := .prv }
  let g4 : W64 := r.join.zeroExtend 64 + (r.ctx.zeroExtend 64 <<< 20) + (r.flags.zeroExtend 64 <<< 24)
  { d with
    job := some j, prev := some r.ctx, full := [], limit := x.qlimit, roleDef := def_, roles := startRoles def_ l,
    c := { ctl := d.c.ctl.begin (e 0) x.dvec,
           g := tset 0 (tset 0 (tset 0 (tset 0 [] 1 r.frame) 2 r.code) 3 (r.pri.zeroExtend 64)) 4 g4 },
    a := { ctl := d.a.ctl.begin (e 1) x.dvec, a := tset 0 [] 0 r.frame },
    v := { ctl := d.v.ctl.begin (e 2) x.dvec, g := tset 0 [] 1 r.frame },
    m := { d.m with ctl := d.m.ctl.begin (e 3) x.dvec, interval := BitVec.ofNat 32 itv } }
/-- The zeroing that a change of context brings (R279); the first task after package reset takes none (22 R424). -/
def State.changeCtx (s : State) (ck : Nat) (x : BitVec 4) : State :=
  match (s.coreAt ck).prev with
  | some p => if p = x then s else s.zeroCore ck
  | none => s
/-- Core weirs take their values at task start (14 R322). -/
def State.resetWeirs (s : State) (ck : Nat) : State := (List.range 4).foldl (fun t i => t.setWeir (weirKey ck 1 i) {}) s
/-- TASK_START (R139, R140, 13 R279): the core of a granted record. A bad header starts nothing and is reported. -/
def execTaskStart (s : State) : Out :=
  let ck := s.cur
  match s.me.grant with
  | none => .next s
  | some q =>
    let r := q.rcd
    let xk := ctxKey s.myPkg r.ctx
    if q.area.isSome || s.me.job.isSome then .next s else
    let s0 := s.headerDrawn ck r.ctx r.code
    match s.header ck r.ctx r.code with
    | none => .next ((s0.updMe fun c => { c with grant := none }).report xk (numOf ck) 0 1 r.code.toNat)
    | some (es, accx) =>
      let l := s.accSecs xk
      let s1 := l.foldl (fun t x => t.zeroLanes ck x) ((s0.changeCtx ck r.ctx).resetWeirs ck)
      let j : Job := { rcd := r, serial := s.ids, accx := accx, since := s.now }
      .next { s1.updMe fun c => c.beginTask r (s.ctxAt xk) es j l ((s.pkgAt s.myPkg).field 0x039) with ids := s.ids + 1 }

/-! Retirement (R143). -/

/-- Everything that R143 names is over, and no trigger slot is to fire by this cycle (20 R408). -/
def Core.finished (c : Core) (now : Nat) : Bool :=
  c.job.isSome && !c.dead && !c.trigNow now && c.openStrs.isEmpty && c.pend == 0 && !c.inh && !c.saving && c.abort.isNone && c.recast.isNone &&
  c.m.queue.isEmpty && c.m.run.isEmpty && c.a.copies.isEmpty && c.a.sends.isEmpty && c.feet.isEmpty && c.a.loads.isEmpty
/-- TASK_RETIRE (R143, 13 R300, 20 R420). A fault that no stream is left to take kills the context (07 R181, 20 R407)
(DEDUCED, log entry 62). -/
def execTaskRetire (s : State) : Out :=
  let c := s.me
  if !c.finished s.now then .next s else
  match c.a.ctl.due with
  | some t => .next ((s.setMe { c with dead := true }).askKill s.myCtx t.cause.code)
  | none => .next ((s.endPhase s.cur).updMe Core.blank)

/-! Pre-emption requests (15 R352, 18 R382). -/

/-- A context waits for a core. -/
def State.waitsCore (s : State) (pkg : Nat) (x : BitVec 4) : Bool :=
  let c := s.ctxAt (ctxKey pkg x)
  c.live && c.running && s.waitsHead pkg x && !(s.anyFree pkg fun n => c.mask.getLsbD n)
/-- The jobs that may be pre-empted for a context: on cores that it may use, not already leaving. -/
def State.rivals (s : State) (pkg : Nat) (x : BitVec 4) : List (Nat × Job) :=
  let c := s.ctxAt (ctxKey pkg x)
  s.cores.filterMap fun e => match e.2.job with
    | some j => if pkgOf e.1 = pkg && c.mask.getLsbD (numOf e.1) && !e.2.dead && !e.2.saving && !e.2.pre && e.2.abort.isNone then some (e.1, j) else none
    | none => none
/-- The context of greatest pass among the holders. -/
def State.topPass (s : State) (pkg : Nat) (l : List (Nat × Job)) : Option (BitVec 4) :=
  l.foldl (fun b e =>
    match b with
    | some y => if (s.ctxAt (ctxKey pkg y)).pass.toNat < (s.ctxAt (ctxKey pkg e.2.rcd.ctx)).pass.toNat then some e.2.rcd.ctx else b
    | none => some e.2.rcd.ctx) none
/-- The job that has run longest. -/
def longestOf (l : List (Nat × Job)) : Option (Nat × Job) :=
  l.foldl (fun b e => match b with | some f => if e.2.since < f.2.since then some e else b | none => some e) none
/-- A request reaches the job of a core: it waits for an `eret` where a handler runs or is due (R352). -/
def State.requestSave (s : State) (ck : Nat) : State :=
  let c := s.coreAt ck
  if c.inh || c.pend != 0 then s.setCoreAt ck { c with pre := true }
  else { ({ s with cur := ck }).beginSave.1 with cur := s.cur }
/-- PREEMPT_REQUEST (R352, 18 R382) for the waiting context `ev.ctx` of a package (DESIGN CHOICE, log entry 73); a
trigger slot that was to fire before does so first (20 R408). -/
def execPreemptRequest (s : State) : Out :=
  let pkg := s.myPkg
  let x := s.ev.ctx
  let l := s.rivals pkg x
  match s.topPass pkg l with
  | none => .next s
  | some y =>
    match longestOf (l.filter fun e => e.2.rcd.ctx == y) with
    | none => .next s
    | some (ck, j) =>
      let q := (s.ctxAt (ctxKey pkg y)).quantum
      if s.waitsCore pkg x && q != 0 && j.since + q ≤ s.now && !(s.coreAt ck).trigLate s.now then .next (s.requestSave ck) else .next s

end Sys2Proof.Machine
end

