-- ==== Sys2Proof/Machine/Save.lean ====
section
/-!
DEFINITION. The save area (15 R354, 20 R421), saving a pre-empted job and resuming it (15 R353 to R357), and the words
`ctxsave` and `ctxload` (15 R345).
The spec fixes where each part of the area lies; inside the parts whose bits it does not lay out (loop levels, entries of queues,
footprint table, markers, phase state, role entries) the layout is the model's (log entry 40). What the area has no place for is
kept beside it (`State.sides`).
-/
namespace Sys2Proof.Machine
open Sys2Proof

/-! Fields of an area: offset, width, value. -/

abbrev Words := List (Nat × Nat × Nat)
/-- Registers lo to lo + n - 1 of a table in consecutive 64-bit places. -/
def regWords (t : Tbl W64) (base lo n : Nat) : Words := (List.range n).map fun i => (base + 64 * i, 64, (tget 0 t (lo + i)).toNat)
/-- How an area is read: offset and width. -/
abbrev Reader := Nat → Nat → Nat
def Reader.w64 (rd : Reader) (o : Nat) : W64 := BitVec.ofNat 64 (rd o 64)
/-- Registers from consecutive places, put over a table. -/
def Reader.regs (rd : Reader) (t : Tbl W64) (base lo n : Nat) : Tbl W64 :=
  (List.range n).foldl (fun t i => tset 0 t (lo + i) (rd.w64 (base + 64 * i))) t
/-- Bases of the parts of Table 15.10. -/
def saC : Nat := 1024
def saA : Nat := 5120
def saV : Nat := 9216
def saSnap : Nat := 78848
def saM : Nat := 183424
def saQ : Nat := 203904
def saCore : Nat := 246912
def saLanes : Nat := 332928
/-- Where the scratchpad part begins after `n` lanes, and the size of an area. -/
def saScratch (lanes : Nat) : Nat := saLanes + (40 * lanes + 127) / 128 * 128
def saSize (lanes spg : Nat) : Nat := saScratch lanes + (32768 + 512) * spg
/-- A saved counter. -/
def Stream.savedPc (x : Stream) : Nat := (if x.stopped then x.epc else x.pc).toNat

/-! C, A and V. -/

/-- g30 and g31 of the stopped job: what the handler's entry saved. -/
def Core.jobG (c : Core) : Tbl W64 := if c.inh then tset 0 (tset 0 c.c.g 30 c.sav30) 31 c.sav31 else c.c.g
def Core.wordsC (c : Core) : Words :=
  let each (o : Nat) (g : Stream → W64) : Words := strs.map fun st => (saC + o + 64 * st.num, 64, (g (c.ctl st)).toNat)
  [(saC, 64, c.c.ctl.savedPc)] ++ regWords c.jobG (saC + 64) 1 31 ++
  [(saC + 2048, 64, c.c.ctl.xflags.toNat), (saC + 2112, 64, c.tstat), (saC + 2176, 64, c.sav30.toNat), (saC + 2240, 64, c.sav31.toNat)] ++
  each 2304 Stream.tvec ++ each 2560 Stream.epc ++ each 2816 Stream.ecause ++ each 3072 Stream.einfo ++ [(saC + 3328, 64, c.limit.toNat)]
def Core.wordsA (c : Core) : Words :=
  let k : Ckpt := c.a.ckpts.headD { a := [], g := [], addr := 0, gen := 0, xflags := 0 }
  [(saA, 64, c.a.ctl.savedPc)] ++ regWords c.a.a (saA + 64) 0 16 ++ regWords c.a.g (saA + 1088) 1 7 ++
  [(saA + 1536, 64, c.a.ctl.xflags.toNat), (saA + 1600, 64, c.astat), (saA + 1664, 64, c.a.cfaddr.toNat), (saA + 1728, 64, c.cfinfo)] ++
  regWords k.a (saA + 2048) 0 16 ++ regWords k.g (saA + 3072) 1 7 ++ [(saA + 3520, 64, k.addr.toNat)]
def Core.wordsV (c : Core) : Words :=
  ((List.range 32).map fun n => (saV + 2048 * n, 2048, (tget {} c.v.v n : VVal).bits.toNat)) ++
  ((List.range 8).map fun n => (saV + 65536 + 256 * n, 256, (tget 0 c.v.k n).toNat)) ++ regWords c.v.g (saV + 67584) 1 15 ++
  [(saV + 68544, 64, c.v.ctl.savedPc), (saV + 68608, 64, c.v.ctl.xflags.toNat)] ++
  ((List.range 32).map fun n => let x : VVal := tget {} c.v.v n; (saV + 68672 + 8 * n, 8, x.tag.toNat + fld (bitN x.psn) 5))
/-- The snapshot buffer (R343): two header words and 48 entries of 34 words. -/
def Core.wordsSnap (c : Core) : Words :=
  [(saSnap, 64, c.v.snapHead 0), (saSnap + 64, 64, c.v.snapHead 1)] ++
  ((List.range 48).map fun e => (List.range 34).map fun w => (saSnap + 128 + 2176 * e + 64 * w, 64, (c.v.snap.getD e Snap.empty).word w)).flatten

/-- A stream as an area has it: `x` gives the TLB of the core and what the area has no place for. -/
def Reader.stream (rd : Reader) (x : Stream) (st : Str) (pc xf : Nat) : Stream :=
  let on := (rd 24 4).testBit st.num
  let fin := (rd 28 4).testBit st.num
  { x with started := on, ended := fin, stopped := on && !fin, pc := rd.w64 pc, rdv := none, wait := none, walkFault := none,
           xflags := BitVec.ofNat 8 (rd xf 64), tvec := rd.w64 (saC + 2304 + 64 * st.num), epc := rd.w64 (saC + 2560 + 64 * st.num),
           ecause := rd.w64 (saC + 2816 + 64 * st.num), einfo := rd.w64 (saC + 3072 + 64 * st.num) }
def Reader.loadC (rd : Reader) (c : Core) : Core :=
  let ts := rd (saC + 2112) 64
  { c with
    c := { c.c with ctl := rd.stream c.c.ctl .c saC (saC + 2048), g := rd.regs c.c.g (saC + 64) 1 31 },
    pend := BitVec.ofNat 4 ts, sarr := ts.testBit 11, sarrAt := rd.w64 (saC + 2560), sav30 := rd.w64 (saC + 2176), sav31 := rd.w64 (saC + 2240),
    limit := BitVec.ofNat 32 (rd (saC + 3328) 64) }
/-- The generation that a number modulo 16 names: the last up to `g` (07 R174). -/
def genUpTo (g x : Nat) : Nat := let d := (g + 16 - x % 16) % 16; if d ≤ g then g - d else x
def Reader.loadA (rd : Reader) (c : Core) : Core :=
  let as_ := rd (saA + 1600) 64
  let cf := rd (saA + 1728) 64
  let n := nbits as_ 4 2
  let gen := genUpTo c.a.gen (nbits as_ 0 4)
  let ckpt (i : Nat) : Ckpt :=
    let k := c.a.ckpts.getD i { a := [], g := [], addr := 0, gen := gen - (n - 1 - i), xflags := 0 }
    if i = 0 ∨ c.a.ckpts.length ≤ i then
      { k with a := rd.regs [] (saA + 2048) 0 16, g := rd.regs [] (saA + 3072) 1 7, addr := rd.w64 (saA + 3520) }
    else k
  { c with a := { c.a with
      ctl := rd.stream c.a.ctl .a saA (saA + 1536), a := rd.regs [] (saA + 64) 0 16, g := rd.regs [] (saA + 1088) 1 7,
      gen := gen, radepth := nbits as_ 6 2, ckpts := (List.range n).map ckpt, cfaddr := rd.w64 (saA + 1664), cfIndex := BitVec.ofNat 32 cf,
      cfValid := cf.testBit 32, cfCause := BitVec.ofNat 8 (cf / 2 ^ 48) } }
/-- Entry e of the snapshot part; a mask that the area has no place for comes from beside it, else the entry is whole. -/
def Reader.snap (rd : Reader) (old : List Snap) (e : Nat) : Snap :=
  (List.range 33).foldl (fun y w => y.setWord w (rd.w64 (saSnap + 128 + 2176 * e + 64 * w))) (old.getD e Snap.empty)
/-- The registers of V; the bits of one that hold no element are 0, whatever the area holds (05 R105). -/
def Reader.loadV (rd : Reader) (c : Core) : Core :=
  let reg (n : Nat) : VVal :=
    let b := rd (saV + 68672 + 8 * n) 8
    { bits := BitVec.ofNat 2048 (rd (saV + 2048 * n) 2048), tag := BitVec.ofNat 5 b, psn := b.testBit 5 : VVal }.tidy
  { c with v := { c.v with
      ctl := rd.stream c.v.ctl .v (saV + 68544) (saV + 68608), v := (List.range 32).foldl (fun t n => tset {} t n (reg n)) [],
      k := (List.range 8).foldl (fun t n => tset 0 t n (BitVec.ofNat 256 (rd (saV + 65536 + 256 * n) 256))) [],
      g := rd.regs [] (saV + 67584) 1 15, fly := [], snap := (List.range 48).map (rd.snap c.v.snap) } }

/-! M. -/

/-- A descriptor (Table 11.3). -/
def Desc.toNat (d : Desc) : Nat :=
  d.base.toNat + (List.range 6).foldl (fun a i => a + fld (tget 0 d.stride i).toNat (64 + 32 * i)) 0 + fld d.pitch.toNat 256 +
  fld d.rows.toNat 288 + fld d.tag.toNat 304
def descOf (v : Nat) : Desc :=
  { base := BitVec.ofNat 64 v, stride := (List.range 6).foldl (fun t i => tset 0 t i (BitVec.ofNat 32 (v / 2 ^ (64 + 32 * i)))) [],
    pitch := BitVec.ofNat 32 (v / 2 ^ 256), rows := BitVec.ofNat 16 (v / 2 ^ 288), tag := BitVec.ofNat 5 (v / 2 ^ 304) }
/-- A loop level in 256 bits: the address of its word, trips, body length, counter, generation. -/
def MLoop.toNat (l : MLoop) : Nat := l.addr.toNat + fld l.trip 64 + fld l.len 96 + fld l.iter 128 + fld l.lgen.toNat 160
def loopOf (v : Nat) : MLoop :=
  { addr := BitVec.ofNat 64 v, trip := nbits v 64 32, len := nbits v 96 32, iter := nbits v 128 32, lgen := BitVec.ofNat 4 (v / 2 ^ 160) }
def Core.wordsM (c : Core) : Words :=
  ((List.range 16).map fun n => (saM + 320 * n, 320, (tget {} c.m.d n : Desc).toNat)) ++
  ((c.m.loops.zipIdx).map fun p => (saM + 5120 + 256 * p.2, 256, p.1.toNat)) ++
  ((c.m.replay.zipIdx).map fun p => (saM + 6656 + 128 * p.2, 128, p.1.2.toNat)) ++
  ((c.m.queue.zipIdx).map fun p => (saM + 14848 + 320 * p.2, 320,
    (match encode p.1.instr with | some (_, w) => w | none => 0) +
      (List.range 6).foldl (fun a l => a + fld (iterOf p.1.loops l) (128 + 32 * l)) 0)) ++
  [(saM + 19968, 64, c.m.ctl.xflags.toNat), (saM + 20032, 64, c.mstat), (saM + 20096, 64, c.m.ctl.savedPc)]
/-- Entry e of the M queue: its word and indices from the area, its address and levels from beside it. -/
def Reader.mEntry (rd : Reader) (old : List MEntry) (e : Nat) : Option MEntry :=
  let v := rd (saM + 14848 + 320 * e) 320
  match decode .m (v % 2 ^ 128) with
  | .error _ => none
  | .ok i =>
    let o := old.getD e { id := e, instr := i, addr := 0, loops := List.replicate 6 (loopOf 0) }
    some { o with instr := i, loops := (o.loops.zipIdx).map fun p => { p.1 with iter := nbits v (128 + 32 * p.2) 32 } }
def Reader.loadM (rd : Reader) (c : Core) : Core :=
  let ms := rd (saM + 20032) 64
  { c with m := { c.m with
      ctl := rd.stream c.m.ctl .m (saM + 20096) (saM + 19968),
      d := (List.range 16).foldl (fun t n => tset {} t n (descOf (rd (saM + 320 * n) 320))) [],
      loops := (List.range (nbits ms 3 3)).map fun l => loopOf (rd (saM + 5120 + 256 * l) 256),
      replay := (c.m.replay.zipIdx).map fun p => (p.1.1, BitVec.ofNat 128 (rd (saM + 6656 + 128 * p.2) 128)),
      queue := (List.range (nbits ms 11 5)).filterMap (rd.mEntry c.m.queue), run := [], cancels := [] } }

/-! Queues, and the core part. -/

def Core.wordsQ (c : Core) : Words :=
  [(saQ, 128, (List.range 8).foldl (fun a n => a + fld (c.queue n).ents.length (4 * n)) 0 +
    (List.range 4).foldl (fun a n => a + fld (c.wqueue n).ents.length (32 + 3 * n)) 0)] ++
  ((List.range 8).map fun n => ((c.queue n).ents.zipIdx).map fun p =>
    (saQ + 128 + 1024 * n + 128 * p.2, 128, p.1.val.toNat + fld (bitN p.1.psn) 64 + fld (p.1.gen % 16) 65 + fld (bitN p.1.held) 69)).flatten ++
  ((List.range 4).map fun n => ((c.wqueue n).ents.zipIdx).map fun p =>
    (saQ + 8320 + 8448 * n + 2112 * p.2, 2112,
      p.1.val.bits.toNat + fld p.1.val.tag.toNat 2048 + fld (bitN p.1.val.psn) 2053 + fld (p.1.gen % 16) 2054 + fld (bitN p.1.held) 2058)).flatten
def Reader.loadQ (rd : Reader) (c : Core) : Core :=
  let o := rd saQ 128
  let q (n i : Nat) : QEntry :=
    let v := rd (saQ + 128 + 1024 * n + 128 * i) 128
    { val := BitVec.ofNat 64 v, psn := v.testBit 64, gen := genUpTo c.a.gen (nbits v 65 4), held := v.testBit 69,
      seen := ((c.queue n).ents[i]?.map (·.seen)).getD c.stamp }
  let wq (n i : Nat) : WEntry :=
    let v := rd (saQ + 8320 + 8448 * n + 2112 * i) 2112
    { val := { bits := BitVec.ofNat 2048 v, tag := BitVec.ofNat 5 (v / 2 ^ 2048), psn := v.testBit 2053 }, gen := genUpTo c.a.gen (nbits v 2054 4), held := v.testBit 2058,
      seen := ((c.wqueue n).ents[i]?.map (·.seen)).getD c.stamp }
  { c with
    q := (List.range 8).foldl (fun t n => tset {} t n { ents := (List.range (nbits o (4 * n) 4)).map (q n) }) [],
    wq := (List.range 4).foldl (fun t n => tset {} t n { ents := (List.range (nbits o (32 + 3 * n) 3)).map (wq n) }) [] }

def Foot.toNat (f : Foot) : Nat := f.lo + fld f.hi 32 + fld (bitN f.wr) 64 + fld (bitN f.copy) 65 + fld f.age 72
def Marker.toNat (k : Marker) : Nat :=
  1 + fld (bitN k.done) 1 + fld (bitN k.a) 2 + fld (bitN k.v) 3 + fld (bitN k.m) 4 + fld k.stamp 16
/-- A role entry of the own aperture: role, mode, point, PH, HELD. -/
def DirEntry.short (e : DirEntry) : Nat :=
  (match e.role with | .imm => 1 | .str => 2 | .acc => 3 | .prv => 4) + fld e.mode.toNat 3 + fld e.point.toNat 6 + fld (bitN e.ph) 12 + fld (bitN e.held) 13
def shortRole (d : DirEntry) (v : Nat) : DirEntry :=
  { d with role := roleOf (v % 8), mode := BitVec.ofNat 3 (v / 8), point := BitVec.ofNat 6 (v / 64), ph := v.testBit 12, held := v.testBit 13 }
/-- The aperture granule of role entry i: scratchpad first, then accumulator. -/
def roleIx (i : Nat) : Nat := if i < 512 then i else accBase / 32768 + (i - 512)
/-- Fabric state (20 Table 20.16). -/
def Core.wordsFab (c : Core) : Words :=
  let b := saCore + 80832
  ((List.range 16).map fun n => let w := c.winAt n; (b + 80 * n, 80, w.tgt / 2 ^ 16 + fld w.extm1 48 + fld (w.allow - 1) 65)) ++
  ((List.range 16).map fun n => let r := c.recvAt n; (b + 1280 + 80 * n, 80, r.reg / 2 ^ 22 + fld r.cnt 42)) ++
  ((List.range 16).map fun n => (b + 2560 + 64 * n, 64, (tget {} c.fab.trig n : Trigger).reg)) ++
  [(b + 3584, 64, c.fab.stat), (b + 3648, 64, c.fab.fxerr.toNat), (b + 3712, 64, c.fab.pallow)]
def Reader.loadFab (rd : Reader) (c : Core) : Core :=
  let b := saCore + 80832
  let win (n : Nat) : Window :=
    let v := rd (b + 80 * n) 80
    let al := nbits v 65 10 + 1
    { tb := nbits v 0 23, core := nbits v 23 10, pkg := nbits v 33 13, faa := v.testBit 46, v := v.testBit 47, extm1 := nbits v 48 17,
      allow := al, lw := al, h := al }
  let own : Window :=
    let v := rd (b + 3712) 64
    let al := nbits v 0 10 + 1
    { faa := v.testBit 31, allow := al, lw := al, h := al }
  let recv (n : Nat) : RecvSide :=
    let v := rd (b + 1280 + 80 * n) 80
    { rextm1 := nbits v 0 17, rb := nbits v 17 23, grant := v.testBit 40, v := v.testBit 41, cnt := nbits v 42 32 }
  let trig (n : Nat) : Trigger :=
    let v := rd (b + 2560 + 64 * n) 64
    { thr := nbits v 0 32, desc := nbits v 42 17, cnt := nbits v 59 4, v := v.testBit 63 }
  { c with fab := {
      win := tset {} ((List.range 16).foldl (fun t n => tset {} t n (win n)) []) 16 own,
      recv := (List.range 16).foldl (fun t n => tset {} t n (recv n)) [], trig := (List.range 16).foldl (fun t n => tset {} t n (trig n)) [],
      rpend := BitVec.ofNat 17 (rd (b + 3584) 64), mpend := (rd (b + 3584) 64).testBit 17, fxerr := rd.w64 (b + 3648) } }
/-- The core part: semaphores, core weirs, footprint table, markers, phase, roles, fabric. -/
def State.wordsCore (s : State) (ck : Nat) : Words :=
  let c := s.coreAt ck
  let ph : Words := match c.phase with
    | none => []
    | some p =>
      [(saCore + 3392, 64, p.hdr.toNat), (saCore + 3456, 64, p.region.headD 0 + fld p.extent 32), (saCore + 3520, 64, p.shadow.headD 0)] ++
      ((List.range 16).map fun i => (saCore + 3648 + 16 * i, 16, (tget 0 p.sems i).toNat)) ++
      (p.dirty.map fun e => (saCore + 3904 + e.1, 1, 1))
  ((List.range 16).map fun i => (saCore + 16 * i, 16, c.semAt i)) ++ [(saCore + 256, 64, c.semOvf.toNat)] ++
  ((List.range 4).map fun i => let w := s.weirAt (weirKey ck 1 i); (saCore + 320 + 128 * i, 128, w.n.toNat + fld w.arr 24 + fld w.gen.toNat 64)) ++
  ((c.feet.zipIdx).map fun p => (saCore + 832 + 128 * p.2, 128, p.1.toNat)) ++
  (c.marks.map fun k => (saCore + 2880 + 64 * k.id, 64, k.toNat)) ++ ph ++ [(saCore + 3584, 64, c.phstat)] ++
  ((List.range 712).map fun i => (saCore + 69440 + 16 * i, 16, (tget c.roleDef c.roles (roleIx i)).short)) ++ c.wordsFab
/-- The granules of a phased region or shadow: those kept beside the area where they begin and count as it says, else `n` in a row. -/
def areaGrans (old : List Nat) (at_ n : Nat) : List Nat :=
  if old.headD 0 = at_ ∧ old.length = n then old else (List.range n).map fun i => at_ + 32768 * i
/-- The phase of an area (13 R300); the header's words that the area has no place for come from beside it. -/
def Reader.loadPhase (rd : Reader) (c : Core) : Core :=
  let st := rd (saCore + 3584) 64
  let rg := rd (saCore + 3456) 64
  let old : Phase := c.phase.getD
    { hdr := 0, va := BitVec.ofNat 64 (selfVa + rg % 2 ^ 32), entry := [c.c.ctl.pc, c.a.ctl.pc, c.v.ctl.pc, c.m.ctl.pc], region := [], shadow := [],
      insrc := 0, indst := 0, incnt := 0, inwc := 0, sems := [] }
  let ext := nbits rg 32 32
  let p : Phase := { old with
    hdr := rd.w64 (saCore + 3392), region := areaGrans old.region (rg % 2 ^ 32) (ext / 32768),
    shadow := areaGrans old.shadow (rd (saCore + 3520) 64) (ext / 32768),
    sems := (List.range 16).foldl (fun t i => tset 0 t i (BitVec.ofNat 16 (rd (saCore + 3648 + 16 * i) 16))) [],
    dirty := (List.range (min ext 8388608 / 128)).foldl (fun t i => tset false t i (rd (saCore + 3904 + i) 1 == 1)) [] }
  { c with phase := if st.testBit 0 then some p else none, erun := BitVec.ofNat 2 (st / 16), last := BitVec.ofNat 2 (st / 2 ^ 16),
           aborts := BitVec.ofNat 16 (st / 2 ^ 32) }
/-- Footprint entries and markers: those of the area, completed from beside it. -/
def Reader.foot (rd : Reader) (f : Foot) (i : Nat) : Foot :=
  let v := rd (saCore + 832 + 128 * i) 128
  { f with lo := nbits v 0 32, hi := nbits v 32 32, wr := v.testBit 64, copy := v.testBit 65 }
def Reader.marker (rd : Reader) (old : List Marker) (id : Nat) : Option Marker :=
  let v := rd (saCore + 2880 + 64 * id) 64
  if v.testBit 0 then
    let g := ((old.find? (·.id == id)).map (·.gens)).getD []
    some { id := id, done := v.testBit 1, a := v.testBit 2, v := v.testBit 3, m := v.testBit 4, stamp := nbits v 16 48, gens := g }
  else none
def Reader.loadCore (rd : Reader) (c : Core) : Core :=
  { c with
    sem := (List.range 16).foldl (fun t i => tset 0 t i (BitVec.ofNat 16 (rd (saCore + 16 * i) 16))) [],
    semOvf := BitVec.ofNat 16 (rd (saCore + 256) 64), feet := (c.feet.zipIdx).map fun p => rd.foot p.1 p.2,
    marks := (List.range 8).filterMap (rd.marker c.marks),
    roles := (List.range 712).foldl (fun t i => tset c.roleDef t (roleIx i) (shortRole c.roleDef (rd (saCore + 69440 + 16 * i) 16))) [] }
/-- The registers of a job from an area, over a core that gives what the area has no place for. -/
def Reader.loadAll (rd : Reader) (c : Core) : Core :=
  rd.loadFab (rd.loadPhase (rd.loadCore (rd.loadQ (rd.loadM (rd.loadV (rd.loadA (rd.loadC c)))))))
/-- The core weirs of an area. -/
def State.loadWeirs (s : State) (ck : Nat) (rd : Reader) : State :=
  (List.range 4).foldl (fun t i =>
    let v := rd (saCore + 320 + 128 * i) 128
    t.setWeir (weirKey ck 1 i) { n := BitVec.ofNat 24 v, arr := nbits v 24 40, gen := BitVec.ofNat 64 (v / 2 ^ 64), rel := BitVec.ofNat 64 (v / 2 ^ 64) }) s

/-! The header and the memories. -/

/-- What the header records beside the streams. -/
def State.wordsHead (s : State) (ck reason lanes spg : Nat) : Words :=
  let c := s.coreAt ck
  let mask (p : Stream → Bool) : Nat := strs.foldl (fun a st => a + bitN (p (c.ctl st)) * 2 ^ st.num) 0
  let r := (c.job.getD { rcd := {}, serial := 0 }).rcd
  [(0, 1024, 1 + fld reason 16 + fld (mask Stream.started) 24 + fld (mask fun x => x.started && x.ended) 28 + fld (numOf ck) 32 +
    fld r.ctx.toNat 42 + fld r.toNat 64 + fld (saSize lanes spg) 320 + fld lanes 384 + fld spg 402)]
/-- The lanes and scratchpad granules saved, as they stand in the SRAM, then the full/empty and poison bits of each granule. -/
def State.wordsMem (s : State) (ck lanes spg : Nat) : Words :=
  let n := numOf ck
  let raw (o w : Nat) : Nat := memBits s.mem (bitKey (pkgOf ck) (apAddr n o)) w
  let marks (p : Nat → Bool) (g : Nat) : Nat := (List.range 256).foldl (fun a i => a + bitN (p (256 * g + i)) * 2 ^ i) 0
  let full (i : Nat) : Bool := tget false (s.coreAt ck).full i
  let psn (i : Nat) : Bool := tget false s.psn (granKey (pkgOf ck) (apAddr n (128 * i)))
  ((List.range lanes).map fun i => (saLanes + 40 * i, 40, raw (accBase + 40 * i) 40)) ++
  ((List.range (256 * spg)).map fun i => (saScratch lanes + 128 * i, 128, raw (128 * i) 128)) ++
  ((List.range spg).map fun g => (saScratch lanes + 32768 * spg + 512 * g, 512, marks full g + fld (marks psn g) 256))
/-- A whole area. -/
def State.areaWords (s : State) (ck reason lanes spg : Nat) : Words :=
  let c := s.coreAt ck
  s.wordsHead ck reason lanes spg ++ c.wordsC ++ c.wordsA ++ c.wordsV ++ c.wordsSnap ++ c.wordsM ++ c.wordsQ ++ s.wordsCore ck ++
  s.wordsMem ck lanes spg
/-- The saved lanes and scratchpad granules go back into a core. -/
def State.loadMem (s : State) (ck lanes spg : Nat) (rd : Reader) : State :=
  let n := numOf ck
  let pkg := pkgOf ck
  let put (t : State) (o w v : Nat) : State := { t with mem := memSetBits t.mem (bitKey pkg (apAddr n o)) w v }
  let st (i : Nat) : Nat := saScratch lanes + 32768 * spg + 512 * (i / 256) + i % 256
  let s1 := (List.range lanes).foldl (fun t i => put t (accBase + 40 * i) 40 (rd (saLanes + 40 * i) 40)) s
  let s2 := (List.range (256 * spg)).foldl (fun (t : State) i =>
    let u := put t (128 * i) 128 (rd (saScratch lanes + 128 * i) 128)
    { u with psn := tset false u.psn (granKey pkg (apAddr n (128 * i))) (rd (st i + 256) 1 == 1) }) s1
  s2.updCore ck fun c => { c with full := (List.range (256 * spg)).foldl (fun t i => tset false t i (rd (st i) 1 == 1)) c.full }

/-- Everything that a save waits for has ended (R353): no started copy or command, no single load, no write to memory on its way,
no cancellation that has issued and not acted (11 R274). -/
def Core.drained (c : Core) : Bool :=
  c.a.loads.isEmpty && c.m.cancels.isEmpty && !(c.a.copies.any (·.started)) && c.m.run.isEmpty && !(c.owed.any (·.win == 17))
/-- One past the last granule of an active region and its shadow. -/
def Core.phaseEnd (c : Core) : Nat :=
  match c.phase with
  | some p => (p.region ++ p.shadow).foldl (fun n g => max n (g / 32768 + 1)) 0
  | none => 0
/-- A stride that holds any area of the pool. -/
def slotBits : Nat := (saSize laneCount 512 + 32767) / 32768 * 32768
/-- The address of slot i of a pool, and the slot at an address. -/
def poolAt : List (Nat × Nat) → Nat → Nat
  | [], _ => 0
  | (pa, n) :: l, i => if i < n then pa + slotBits * i else poolAt l (i - n)
def poolIx : List (Nat × Nat) → Nat → Nat
  | [], _ => 0
  | (b, n) :: l, pa => if b ≤ pa ∧ pa < b + slotBits * n then (pa - b) / slotBits else n + poolIx l pa
def Ctx.slotPa (x : Ctx) (i : Nat) : Nat := poolAt x.pool i
def Ctx.slotIx (x : Ctx) (pa : Nat) : Nat := poolIx x.pool pa
/-- Writes the fields of an area; what would leave to host memory outside every granted window is dropped (22 R428). -/
def State.wrArea (s : State) (pkg : Nat) (pa : Nat → Nat) (l : Words) : State :=
  l.foldl (fun t w =>
    let ps := (cuts w.1 w.2.1).map fun p => (pa p.1, p.2)
    if ps.all fun p => t.hostGranted pkg p.1 p.2 then t.wrPieces pkg ps w.2.2 false
    else t.dropHost pkg (numOf t.cur) t.job.rcd.ctx.toNat (pa w.1)) s

/-! Saving (R353). -/

/-- SAVE_AREA_WRITE (R353): the stopped job is written to its slot; its record goes to the head of its basin, and the core is free. -/
def execSaveAreaWrite (s : State) : Out :=
  let c0 := s.me
  match c0.job with
  | none => .next s
  | some j =>
    if !c0.saving || c0.dead || c0.abort.isSome || c0.inIssue || !c0.drained then .next s else
    let s0 := s.setMe (c0.stopJob s.now)
    let c := s0.me
    let x := s.ctxAt s.myCtx
    let lanes := j.accx
    let spg := max x.savex c.phaseEnd
    let pa := x.slotPa c.saveSlot
    let s1 := (s0.zeroRange s.myPkg pa slotBits).wrArea s.myPkg (pa + ·) (s0.areaWords s.cur 1 lanes spg)
    let s2 := { s1 with sides := tset none s1.sides (granKey s.myPkg pa) (some c) }
    .next ((s2.updMe Core.blank).placeOn (dieKey s.cur) j.rcd.ctx { rcd := j.rcd, area := some pa })

/-! Resuming (R356). -/

/-- What the area lacks and no rule keeps: the row buffer and the basis buffers hold anything after a resumption (log entry 41). -/
def Core.freeBuffers (c : Core) (n : Nat) : Core :=
  let f (i : Nat) : Nat := Config.freeNat (n + i)
  let row (i : Nat) : Row :=
    { bits := BitVec.ofNat 2048 (f (4 * i)), tag := BitVec.ofNat 5 (f (4 * i + 1)), scale := BitVec.ofNat 32 (f (4 * i + 2)), psn := f (4 * i + 3) % 2 == 1 }
  let basis (i : Nat) : Basis :=
    let o := 256 + 4100 * i
    { kp := f o % 33, seed := BitVec.ofNat 32 (f (o + 1)), cfmt := BitVec.ofNat 5 (14 + f (o + 2) % 2), psn := f (o + 3) % 2 == 1,
      coef := (List.range (128 * (f o % 33))).map fun k => BitVec.ofNat 16 (f (o + 4 + k)) }
  { c with m := { c.m with rows := (List.range 64).foldl (fun t i => tset {} t i (row i)) [], bases := tset {} (tset {} [] 0 (basis 0)) 1 (basis 1) } }
def freeBufferCount : Nat := 256 + 2 * 4100
/-- The area's own checks at a restore: version, reason, context and record (DEDUCED, log entry 74). -/
def areaFits (rd : Reader) (r : Rec) : Bool :=
  rd 0 16 == 1 && rd 42 4 == r.ctx.toNat && rd 64 256 == r.toNat && rd 384 18 ≤ laneCount && rd 402 10 ≤ 512
/-- A slot of the pool is free again, with what was kept beside it. -/
def State.freeArea (s : State) (xk pa : Nat) : State :=
  let x := s.ctxAt xk
  { s with sides := tset none s.sides (granKey (xk / 16) pa) none }.setCtxAt xk
    { x with saveUsed := tset false x.saveUsed (x.slotIx pa) false }
/-- What a core keeps of its own when a job is restored on it. -/
def Core.restoreOn (c o : Core) (r : Rec) (j : Job) : Core :=
  let tlbOf (x y : Stream) : Stream := { x with tlb := y.tlb }
  { o with
    job := some j, grant := none, prev := some r.ctx, credits := c.credits, gone := c.gone, tlb := c.tlb, full := [], lanePsn := (o.lanePsn.filter fun e => e.1 < j.accx) ++ (c.lanePsn.filter fun e => j.accx ≤ e.1),
    saving := false, stopAt := none, dead := false, abort := none, recast := none, tlbInv := none, owed := [], sent := none, reply := none, put := none,
    roleDef := { frame := r.frame, ctx := r.ctx, sys := false, role := .prv }, roles := [], inh := false, pre := false,
    c := { o.c with ctl := tlbOf o.c.ctl c.c.ctl }, a := { o.a with ctl := tlbOf o.a.ctl c.a.ctl, loads := [], half := none },
    v := { o.v with ctl := tlbOf o.v.ctl c.v.ctl }, m := { o.m with
      ctl := tlbOf o.m.ctl c.m.ctl, tfence := c.m.tfence, ffence := c.m.ffence, busyT := c.m.busyT, busyF := c.m.busyF, macros := c.m.macros } }
/-- A stopped job restarts at its saved counters; one with a trap still unhandled goes to its handler first. -/
def Core.restartJob (c : Core) (now : Nat) : Core :=
  let go (x : Stream) : Stream := if x.stopped then { x with epc := x.pc } else x
  if c.pend = 0 then { c with c := { c.c with ctl := go c.c.ctl }, a := { c.a with ctl := go c.a.ctl },
                              v := { c.v with ctl := go c.v.ctl }, m := { c.m with ctl := go c.m.ctl } }.resumeAll
  else { c with stopAt := some now }
/-- RESUME (R356): the core of a granted saved record. An area that fails its checks, or meets poison, kills the context (R358). -/
def execResume (s : State) : Out :=
  let ck := s.cur
  let pkg := s.myPkg
  match s.me.grant with
  | none => .next s
  | some q =>
    match q.area with
    | none => .next s
    | some pa =>
      if s.me.job.isSome then .next s else
      let r := q.rcd
      let xk := ctxKey pkg r.ctx
      let rd : Reader := fun o n => memBits s.mem (bitKey pkg (pa + o)) n
      let lanes := rd 384 18
      let spg := rd 402 10
      let bad : Option Cause :=
        if !areaFits rd r then some .sysState
        else if (List.range ((saSize lanes spg + 127) / 128)).any fun i => tget false s.psn (granKey pkg (pa + 128 * i)) then some .poison
        else none
      match bad with
      | some k => .next ((s.updMe fun c => { c with grant := none }).askKill xk k.code)
      | none =>
        let j : Job := { rcd := r, serial := s.ids, accx := lanes, since := s.now }
        let o := (tget none s.sides (granKey pkg pa)).getD {}
        let s1 := (s.changeCtx ck r.ctx).resetWeirs ck
        let c1 := ((rd.loadAll (s1.me.restoreOn o r j)).freeBuffers s.fresh).reTrig s.now
        let s2 := ((s1.setMe c1).loadMem ck lanes spg rd).loadWeirs ck rd
        .next { (s2.updMe fun c => c.restartJob s.now).freeArea xk pa with ids := s.ids + 1, fresh := s.fresh + freeBufferCount }

/-! `ctxsave` and `ctxload` (R345). -/

/-- The place of an area that a word names: its base is aligned and lies outside the own aperture and the windows. -/
def areaBase (ck a : Nat) : Except Stop Unit := do
  need (a % 32768 == 0) (trAt .misalign a)
  need (!(selfVa ≤ a && a < selfVa + 2 ^ 30) && !(winVa ≤ a && a < winVaEnd) &&
    !(absVa + numOf ck * 2 ^ 30 ≤ a && a < absVa + (numOf ck + 1) * 2 ^ 30)) (trAt .ldstScope a)
/-- The role granules of an area, translated in order (R332), each meeting its role. -/
def State.areaPas (s : State) (a n : Nat) (p : Perm) (k : Acc) : Except Stop (List Nat) := do
  let pas ← (List.range ((n + 32767) / 32768)).mapM fun i => do
    let (pa, _) ← s.xlate s.cur (.stream .c) ((a + 32768 * i) % 2 ^ 64) p
    .ok pa
  need (!(pas.any (onAp (numOf s.cur)))) (trAt .ldstScope a)
  need (pas.all fun pa => if k = .wr then (s.roleAt s.myPkg pa).ownedBy s.job else s.roleOk s.cur s.job s.myPkg pa k) (trAt .roleFault a)
  .ok pas
/-- The physical address of an offset of an area at a virtual base. -/
def State.areaAt (s : State) (a : Nat) (p : Perm) (o : Nat) : Nat :=
  match s.xlate s.cur (.stream .c) ((a + o) % 2 ^ 64) p with
  | .ok (pa, _) => pa
  | .error _ => 0
/-- The effect of `ctxsave` on the area at `a`: the size written, and the state. -/
def State.saveArea (s : State) (f : CrF) (a : W64) : Except Stop (W64 × State) := do
  let c := s.me
  need c.inh (tr .sysState)
  areaBase s.cur a.toNat
  let lanes := if f.fn.getLsbD 1 then s.job.accx else 0
  let spg := if f.fn.getLsbD 0 then (s.ctxAt s.myCtx).savex else 0
  let n := saSize lanes spg
  let pas ← s.areaPas a.toNat n .w .wr
  need c.drained (.wait .free)
  let at_ := s.areaAt a.toNat .w
  let l := s.areaWords s.cur 2 lanes spg
  let zero : Words := (List.range (n / 128)).map fun i => (128 * i, 128, 0)
  let s1 := (s.wrArea s.myPkg at_ zero).wrArea s.myPkg at_ l
  .ok (BitVec.ofNat 64 n, { s1 with sides := tset none s1.sides (granKey s.myPkg (pas.headD 0)) (some c) })
/-- `ctxsave` (R345). Its source is popped at issue, before the area is written (DEDUCED, log entry 83). -/
def execCtxsave (f : CrF) (s : State) : Out :=
  .next (cWord f.g (fun s => do
    let qs := CrQ f true false
    s.cClean qs
    need s.me.inh (tr .sysState)
    s.cSources qs
    let (n, t) ← (s.cPop f.pk qs).saveArea f (s.cSrc f.qa f.ra)
    s.cRoom (qName f.qd f.rd)
    .ok ((t.cDst f.qd f.rd n).advance .c)) s)
/-- The C stream's own place in its handler, which a load of an area leaves. -/
def Core.keepHandler (c o : Core) : Core :=
  { c with inh := true, cur := o.cur, pre := o.pre, stopAt := o.stopAt, sav30 := tget 0 c.c.g 30, sav31 := tget 0 c.c.g 31,
           c := { g := tset 0 (tset 0 c.c.g 30 (tget 0 o.c.g 30)) 31 (tget 0 o.c.g 31),
                  ctl := { c.c.ctl with pc := o.c.ctl.pc } } }
/-- The effect of `ctxload` from the area at `a`, which a replica may serve (13 R308); a poisoned area kills the context (R358). It waits for
what a save waits for (DESIGN CHOICE, log entry 104). The lanes loaded keep the core's poison marks, for which the area has no bits
(DESIGN CHOICE, log entry 105). -/
def State.loadArea (s : State) (a : W64) : Except Stop State := do
  let c := s.me
  need c.inh (tr .sysState)
  areaBase s.cur a.toNat
  let _ ← s.areaPas a.toNat 1024 .r .rd
  need c.drained (.wait .free)
  let at_ := s.areaAt a.toNat .r
  let at1 (o n : Nat) : Pieces := (cuts o n).map fun p => (at_ p.1, p.2)
  let reader (v : State) : Reader := fun o n => v.rdPieces s.myPkg (at1 o n)
  let kill (n : Nat) : State := (((s.drawn (at1 0 n)).updMe fun c => { c with dead := true }).askKill s.myCtx Cause.poison.code)
  let v0 := s.viewed (at1 0 1024)
  let rd := reader v0
  if v0.psnPieces s.myPkg (at1 0 1024) then .ok (kill 1024) else do
  let head : Rec := recOf (rd 64 256)
  need (rd 0 16 == 1 && rd 42 4 == s.job.rcd.ctx.toNat && head.frame == s.job.rcd.frame && head.code == s.job.rcd.code &&
    rd 384 18 ≤ laneCount && rd 402 10 ≤ 512) (tr .sysState)
  let lanes := rd 384 18
  let spg := rd 402 10
  let n := saSize lanes spg
  let pas ← s.areaPas a.toNat n .r .rd
  let v := s.viewed (at1 0 n)
  let rd := reader v
  if v.psnPieces s.myPkg (at1 0 n) then .ok (kill n) else do
  let old := (tget none s.sides (granKey s.myPkg (pas.headD 0))).getD c
  let b : Core := { c with
    phase := old.phase, marks := old.marks, feet := old.feet, full := c.full, stamp := max c.stamp old.stamp,
    q := old.q, wq := old.wq, seen := old.seen, semSeen := old.semSeen,
    a := { old.a with ctl := c.a.ctl }, v := { c.v with snap := old.v.snap }, m := { c.m with queue := old.m.queue, replay := old.m.replay } }
  let s1 := (s.drawn (at1 0 n)).setMe (((rd.loadAll b).keepHandler c).reTrig s.now)
  .ok ((s1.loadMem s.cur lanes spg rd).loadWeirs s.cur rd)
/-- `ctxload` (R345). Its source is popped at issue, before the queues are loaded. -/
def execCtxload (f : CrF) (s : State) : Out :=
  .next (cWord f.g (fun s => do
    let qs := CrQ f true false
    s.cClean qs
    need s.me.inh (tr .sysState)
    s.cSources qs
    let t ← (s.cPop f.pk qs).loadArea (s.cSrc f.qa f.ra)
    .ok (t.advance .c)) s)

end Sys2Proof.Machine
end

