-- ==== Sys2Proof/Machine/Kill.lean ====
section
/-!
DEFINITION. Killing a context (15 R358 to R360, 18 R386).
-/
namespace Sys2Proof.Machine
open Sys2Proof

/-- The job of a core, or a record granted to it, belongs to a context. -/
def Core.holds (c : Core) (x : BitVec 4) : Bool := (c.job.any fun j => j.rcd.ctx == x) || (c.grant.any fun q => q.rcd.ctx == x)
/-- The job of a core of the context stops for good: nothing of it goes on, and a recast under way holds nothing; the home of writes in
flight still knows it and its receive sides (R359 step 3). -/
def State.stopKilled (s : State) (ck : Nat) : State :=
  let c := s.coreAt ck
  let s1 := match c.recast with
    | some r => s.mapRoles (pkgOf ck) (fun e => { e with held := false }) r.mine
    | none => s
  s1.updCore ck fun c => { c.blank with gone := (c.job.toList.map fun j => (j, c.fab.recv)) ++ c.gone }
/-- The cores of a package. -/
def State.coresOf (s : State) (pkg : Nat) : List Nat := (s.cores.map (·.1)).filter fun k => pkgOf k == pkg
/-- A record of a push abandoned gives its core's credit back. -/
def State.dropPush (s : State) (p : Push) : State :=
  match p.core with
  | some k => s.updCore k fun c => { c with credits := c.credits + 1 }
  | none => s
/-- What a kill abandons at the headworks: queued records, saved jobs, pushes under way, join slots (18 R386). -/
def State.dropRecords (s : State) (pkg : Nat) (x : BitVec 4) : State :=
  let mine (p : Nat × Push) : Bool := p.2.die / 8 == pkg && p.2.rcd.ctx == x
  let s1 := (s.pushes.filter mine).foldl (fun t p => t.dropPush p.2) { s with pushes := s.pushes.filter fun p => !mine p }
  let s2 := (diesOf pkg).foldl (fun t d => t.setDctx d x { t.dctxAt d x with basins := [], ovf := [], g := none, low := none }) s1
  let k := ctxKey pkg x
  let c := s2.ctxAt k
  let pool := (List.range c.saveSlots).map fun i => granKey pkg (c.slotPa i)
  { s2 with
    joins := s2.joins.filter fun e => !(e.1 / 2 ^ 20 == pkg && e.2.ctx == x)
    sides := s2.sides.filter fun e => !pool.contains e.1 }.setCtxAt k { c with saveUsed := [], eligible := false, fh := none, writes := [] }
/-- The flume control blocks of the context become invalid. -/
def State.dropFlumes (s : State) (pkg : Nat) (x : BitVec 4) : State :=
  { s with flumes := s.flumes.map fun e => (e.1, if e.1 / 2 ^ 55 == pkg && (s.roleAt pkg e.2.base).ctx == x then { e.2 with valid := false } else e.2) }
/-- A granule that a kill still has to flip (R359). -/
def DirEntry.toFlip (e : DirEntry) (x : BitVec 4) : Bool := e.ctx == x && !e.sys && e.role != .imm
/-- The granule after its flip. -/
def DirEntry.quarantine (e : DirEntry) : DirEntry := { ctx := e.ctx, sys := true, qr := true, role := .prv }
/-- The role granules of a package, by physical bit address, that a condition holds of: those listed in the directory, and those of
the cores' apertures. -/
def State.granulesOf (s : State) (pkg : Nat) (p : DirEntry → Bool) : List Nat :=
  (s.dir.filterMap fun e => if e.1 / 2 ^ 47 = pkg ∧ p e.2 then some (e.1 % 2 ^ 47 * 32768) else none) ++
  ((s.coresOf pkg).map fun k => ((List.range 712).map fun i => apAddr (numOf k) (32768 * roleIx i)).filter fun pa => p (s.roleAt pkg pa)).flatten
/-- A granule of an image that is not the context's: its entry names a context of the launch record until one is created (13 R279). -/
def State.foreign (s : State) (pkg : Nat) (x : BitVec 4) (pa : Nat) : Bool :=
  (s.pkgAt pkg).images.any fun i => i.handle != (s.ctxAt (ctxKey pkg x)).image && i.pages.any fun p => p.2 ≤ pa && pa < p.2 + 2 ^ 19
/-- The granules of a context that a condition holds of. -/
def State.ownGrans (s : State) (pkg : Nat) (x : BitVec 4) (p : DirEntry → Bool) : List Nat :=
  (s.granulesOf pkg fun e => e.ctx == x && p e).filter fun pa => !s.foreign pkg x pa
def State.unflipped (s : State) (pkg : Nat) (x : BitVec 4) : List Nat := s.ownGrans pkg x fun e => e.toFlip x
/-- The system's own recasts take the recast path (R359, 22 R428): they wait for a recast that holds a granule, and for every announced
write to one (13 R286, R287). -/
def State.sysFree (s : State) (pkg : Nat) (pas : List Nat) : Bool :=
  pas.all (fun pa => !(s.roleAt pkg pa).held) &&
  (s.coresOf pkg).all fun k =>
    let c := s.coreAt k
    let r : RecastRun :=
      { va := 0, grans := pas, role := .prv, mode := 0, point := 0, stamp := c.stamp, copies := (c.a.copies.filter (·.started)).map (·.id)
        cmds := c.m.run.map fun r => r.ent.id, ids := s.ids }
    !({ s with cur := k }).announced r
/-- They flip at the effective scope of the homes: no replica of an earlier period is left (13 R288). -/
def State.sysFlip (s : State) (pkg : Nat) (g : DirEntry → DirEntry) (pas : List Nat) : State :=
  { s with replicas := pas.foldl (fun t pa => tset [] t (roleKey pkg pa) []) s.replicas }.mapRoles pkg g pas
/-- One granule flips; a granule of another context, or one that has flipped, stays. -/
def State.flipKilled (s : State) (pkg pa : Nat) (x : BitVec 4) : State :=
  if (s.roleAt pkg pa).toFlip x && !s.foreign pkg x pa then s.sysFlip pkg DirEntry.quarantine [pa] else s
/-- A kill begins (R359 steps 1 to 3) (DEDUCED, log entry 81). -/
def State.startKill (s : State) (pkg : Nat) (x : BitVec 4) (cause : Nat) : State :=
  let s1 := ((s.coresOf pkg).filter fun k => (s.coreAt k).holds x).foldl State.stopKilled s
  let s2 := (s1.dropRecords pkg x).dropFlumes pkg x
  let k := ctxKey pkg x
  s2.setCtxAt k { s2.ctxAt k with killReq := none, killing := some cause, running := false }
/-- CONTEXT_KILL (R359) of context `ev.ctx` of a package: a kill that was asked for begins; in one under way the granule at
physical bit address `ev.id` flips. -/
def execContextKill (s : State) : Out :=
  let pkg := s.myPkg
  let x := s.ev.ctx
  let c := s.ctxAt (ctxKey pkg x)
  match c.killing, c.killReq with
  | some _, _ => .next (s.flipKilled pkg s.ev.id x)
  | none, some k => .next (s.startKill pkg x k)
  | none, none => .next s
/-- The kill is complete: it is reported (R359, R361), and the context counts as terminated (18 R386). Its event, as DONE, names no core
and no address; GAUGE_FAIL and PLANE_FENCE give no cause and no address (DESIGN CHOICE, log entry 107). -/
def State.endKill (s0 : State) (pkg : Nat) (x : BitVec 4) (cause : Nat) : State :=
  let k := ctxKey pkg x
  let s := (s0.coresOf pkg).foldl (fun t ck => t.updCore ck fun c => { c with gone := c.gone.filter (·.1.rcd.ctx != x) }) s0
  (s.setCtxAt k { s.ctxAt k with killing := none, killed := true }).report k 0 cause 2 0
/-- KILLED (R359) of context `ev.ctx` of a package: every granule has flipped. -/
def execKilled (s : State) : Out :=
  let pkg := s.myPkg
  let x := s.ev.ctx
  match (s.ctxAt (ctxKey pkg x)).killing with
  | some k => if (s.unflipped pkg x).isEmpty then .next (s.endKill pkg x k) else .next s
  | none => .next s

/-- A kill from its beginning to its report, as reset-context needs it. -/
def State.killNow (s : State) (pkg : Nat) (x : BitVec 4) : State :=
  let c := s.ctxAt (ctxKey pkg x)
  let s1 := if c.killing.isSome then s else s.startKill pkg x (c.killReq.getD 0)
  let s2 := (s1.unflipped pkg x).foldl (fun t pa => t.flipKilled pkg pa x) s1
  s2.endKill pkg x (c.killing.getD (c.killReq.getD 0))

end Sys2Proof.Machine
end

