-- ==== Sys2Proof/Machine/Image.lean ====
section
/-!
DEFINITION. The object file of an image as load-image reads it (03 R54 to R71): its fields, and the checks of R58, R62 to R65 and
13 R279. What assembles and links it runs on no core (02, 03; DEDUCED, log entry 85).
-/
namespace Sys2Proof.Machine
open Sys2Proof

/-- A file as one number, byte n at bits 8n + 7 to 8n, with its length in bytes. -/
structure FileBits where
  v : Nat
  n : Nat
deriving DecidableEq, Repr, Inhabited
def fileOf (l : List Byte) : FileBits := { v := l.foldr (fun b a => b.toNat + 256 * a) 0, n := l.length }
/-- The unsigned little-endian field of `w` bytes at byte offset o (R54). -/
def FileBits.u (f : FileBits) (o w : Nat) : Nat := nbits f.v (8 * o) (8 * w)

/-- The offset of each table (R54): header, sections, symbols, relocations, tasks, tiles, gauges, flumes, launch, strings; then the
end of the strings. -/
structure FileMap where
  sect : Nat
  sym  : Nat
  rel  : Nat
  task : Nat
  tile : Nat
  gauge : Nat
  flume : Nat
  launch : Nat
  str  : Nat
  stop : Nat
deriving DecidableEq, Repr, Inhabited
def up8 (n : Nat) : Nat := (n + 7) / 8 * 8
def FileBits.nsect (f : FileBits) : Nat := f.u 8 4
def FileBits.nsym (f : FileBits) : Nat := f.u 12 4
def FileBits.nrel (f : FileBits) : Nat := f.u 16 4
def FileBits.ntask (f : FileBits) : Nat := f.u 20 4
def FileBits.ntile (f : FileBits) : Nat := f.u 24 4
def FileBits.ngauge (f : FileBits) : Nat := f.u 28 4
def FileBits.nflume (f : FileBits) : Nat := f.u 32 4
def FileBits.nlaunch (f : FileBits) : Nat := f.u 36 4
def FileBits.map (f : FileBits) : FileMap :=
  let sect := 64
  let sym := up8 (sect + 48 * f.nsect)
  let rel := up8 (sym + 40 * f.nsym)
  let task := up8 (rel + 32 * f.nrel)
  let tile := up8 (task + 8 * f.ntask)
  let gauge := up8 (tile + 16 * f.ntile)
  let flume := up8 (gauge + 16 * f.ngauge)
  let launch := up8 (flume + 16 * f.nflume)
  let str := up8 (launch + 24 * f.nlaunch)
  { sect, sym, rel, task, tile, gauge, flume, launch, str, stop := str + f.u 40 8 }

/-- A section entry (Table 3.2). -/
structure SecEnt where
  name : Nat
  kind : Nat
  str  : Nat
  role : Nat
  mode : Nat
  point : Nat
  size : Nat
  off  : Nat
  addr : Nat
deriving DecidableEq, Repr, Inhabited
def FileBits.sec (f : FileBits) (i : Nat) : SecEnt :=
  let o := f.map.sect + 48 * i
  { name := f.u o 4, kind := f.u (o + 4) 1, str := f.u (o + 5) 1, role := f.u (o + 6) 1, mode := f.u (o + 7) 1, point := f.u (o + 8) 1,
    size := f.u (o + 16) 8, off := f.u (o + 24) 8, addr := f.u (o + 32) 8 }
def FileBits.secs (f : FileBits) : List SecEnt := (List.range f.nsect).map f.sec
/-- The bits of a section (R56). -/
def FileBits.data (f : FileBits) (x : SecEnt) : Nat := nbits f.v (8 * x.off) x.size
/-- A symbol entry (Table 3.3): name, section index, address. -/
structure SymEnt where
  name : Nat
  sect : Nat
  value : Nat
  type : Nat
deriving DecidableEq, Repr, Inhabited
def FileBits.sym (f : FileBits) (i : Nat) : SymEnt :=
  let o := f.map.sym + 40 * i
  { name := f.u o 4, sect := f.u (o + 4) 4, value := f.u (o + 8) 8, type := f.u (o + 25) 1 }
/-- Where a symbol stands: its section and its offset in it. -/
def FileBits.spot (f : FileBits) (i : Nat) : Option (SecEnt × Nat) :=
  let y := f.sym i
  if i < f.nsym ∧ y.sect < f.nsect then
    let x := f.sec y.sect
    if x.addr ≤ y.value ∧ y.value ≤ x.addr + x.size then some (x, y.value - x.addr) else none
  else none
/-- `n` bits of a section's data at an offset: none where they leave it. -/
def FileBits.bitsAt (f : FileBits) (x : SecEnt) (o n : Nat) : Option Nat := if o + n ≤ x.size then some (nbits (f.data x) o n) else none

/-! The checks. -/

/-- R58: reserved fields, version, kind, indices and names. An image is of kind 2 (log entry 43). Codes that Tables 3.2 and 3.3 do not
define, tables or strings past the end of the file, and section data past it, are rejected too, except the data of an ACC section, which
is never read (DESIGN CHOICE, log entry 43). -/
def FileBits.secOk (f : FileBits) (i : Nat) : Bool :=
  let o := f.map.sect + 48 * i
  let x := f.sec i
  x.name < f.u 40 8 && x.kind ≤ 1 && x.str ≤ 4 && 1 ≤ x.role && x.role ≤ 4 && x.mode ≤ 4 && x.point ≤ 39 && f.u (o + 9) 1 ≤ 1 && f.u (o + 10) 2 == 0 &&
  f.u (o + 40) 8 == 0 && (x.size == 0 || x.role == 3 || x.off + (x.size + 7) / 8 ≤ f.n)
def FileBits.symOk (f : FileBits) (i : Nat) : Bool :=
  let o := f.map.sym + 40 * i
  let y := f.sym i
  y.name < f.u 40 8 && (y.sect < f.nsect || y.sect == 0xFFFFFFFF) && f.u (o + 24) 1 ≤ 2 && y.type ≤ 6 && f.u (o + 28) 8 == 0 && f.u (o + 36) 4 == 0
def FileBits.headOk (f : FileBits) : Bool :=
  64 ≤ f.n && f.u 0 4 == 0x004F4854 && f.u 4 2 == 1 && f.u 6 2 == 2 && f.nrel == 0 && f.nlaunch ≤ 1 && f.u 48 8 == 0 && f.u 56 8 == 0 && f.map.stop ≤ f.n &&
  (List.range f.nsect).all f.secOk && (List.range f.nsym).all f.symOk
/-- R62: a task entry and its header. -/
def FileBits.entryOk (f : FileBits) (e : Str × Nat) : Bool :=
  e.2 == 0 || f.secs.any fun x => x.kind == 0 && x.str == e.1.num + 1 && x.addr ≤ e.2 && e.2 < x.addr + x.size && (e.2 - x.addr) % e.1.wordBits == 0
def FileBits.taskOk (f : FileBits) (i : Nat) : Bool :=
  let o := f.map.task + 8 * i
  f.u (o + 4) 4 == 0 &&
  match f.spot (f.u o 4) with
  | none => false
  | some (x, p) =>
    match f.bitsAt x p 384 with
    | none => false
    | some h =>
      let es := (List.range 4).map fun k => nbits h (64 * k) 64
      (strs.zip es).all f.entryOk && es.any (· != 0) && nbits h 256 18 ≤ laneCount
/-- Where a symbol stands: the index of its section, and its address. -/
def FileBits.where_ (f : FileBits) (i : Nat) : Nat × Nat := ((f.sym i).sect, (f.sym i).value)
/-- The header of no other tile of the table stands within `n` bits from that of tile entry `i`, which would cut its coefficients short. -/
def FileBits.tileWhole (f : FileBits) (i n : Nat) : Bool :=
  let at_ (j : Nat) : Nat × Nat := f.where_ (f.u (f.map.tile + 16 * j) 4)
  (List.range f.ntile).all fun j => (at_ j).1 != (at_ i).1 || (at_ j).2 ≤ (at_ i).2 || (at_ i).2 + n ≤ (at_ j).2
/-- R63: a seeded tile (the header of 11 R258), with all its coefficients. -/
def FileBits.tileOk (f : FileBits) (i : Nat) : Bool :=
  let o := f.map.tile + 16 * i
  let kp := f.u (o + 8) 1
  f.u (o + 12) 4 == 0 &&
  match f.spot (f.u o 4) with
  | none => false
  | some (x, p) =>
    x.role == 1 && p % 128 == 0 && 1 ≤ kp && kp ≤ 8 && p + 64 + kp * 2048 ≤ x.size && f.tileWhole i (64 + kp * 2048) &&
    match f.bitsAt x p 64 with
    | none => false
    | some h => nbits h 0 32 == f.u (o + 4) 4 && nbits h 32 3 + 1 == kp && nbits h 35 5 == f.u (o + 9) 1 && (nbits h 35 5 == 14 || nbits h 35 5 == 15) &&
                nbits h 40 16 == f.u (o + 10) 2
/-- R64: a gauge tile lies in IMM; one tile, whatever symbol names its place, has one constant. -/
def FileBits.gaugeOk (f : FileBits) (i : Nat) : Bool :=
  let o := f.map.gauge + 16 * i
  f.u (o + 4) 4 == 0 &&
  (match f.spot (f.u o 4) with | some (x, _) => x.role == 1 | none => false) &&
  (List.range i).all fun j => let q := f.map.gauge + 16 * j; f.where_ (f.u q 4) != f.where_ (f.u o 4) || f.u (q + 8) 8 == f.u (o + 8) 8
/-- R65: a flume's storage lies in STR and is zero. -/
def FileBits.flumeOk (f : FileBits) (i : Nat) : Bool :=
  let o := f.map.flume + 16 * i
  let slots := f.u (o + 4) 4
  let w := f.u (o + 8) 4
  f.u (o + 12) 4 == 0 && 1 ≤ slots && slots ≤ 65536 && w % 128 == 0 && w != 0 &&
  match f.spot (f.u o 4) with
  | some (x, p) => x.role == 2 && f.bitsAt x p (slots * w) == some 0
  | none => false
/-- The launch record of an image (R70). One that R70 does not allow (a root of another type, a context above 15, arguments still
relative to a symbol) makes load-image reject the file, though 22 Tables 22.2 and 22.3 do not list R70 (DESIGN CHOICE, log entry 43). -/
def FileBits.launchOk (f : FileBits) : Bool :=
  let o := f.map.launch
  f.nlaunch == 0 || (f.u o 4 < f.nsym && (f.sym (f.u o 4)).type == 3 && f.u (o + 4) 1 ≤ 15 && f.u (o + 5) 3 == 0 && f.u (o + 16) 4 == 0xFFFFFFFF && f.u (o + 20) 4 == 0)
/-- The role granules of the accumulator that an ACC section covers, with its mode and point. -/
def SecEnt.img (x : SecEnt) : ImgSec :=
  { role := roleOf x.role, va := x.addr, len := x.size, mode := BitVec.ofNat 3 (if x.role = 3 then x.mode else 0), point := BitVec.ofNat 6 (if x.role = 3 then x.point else 0) }
def accClash (l : List ImgSec) : Bool :=
  l.any fun x => l.any fun y => (x.mode != y.mode || x.point != y.point) && x.granules.any fun g => y.granules.contains g
def FileBits.accOk (f : FileBits) : Bool := !accClash ((f.secs.filter (·.role == 3)).map SecEnt.img)
/-- An object that load-image accepts. -/
def FileBits.ok (f : FileBits) : Bool :=
  f.headOk && (List.range f.ntask).all f.taskOk && (List.range f.ntile).all f.tileOk && (List.range f.ngauge).all f.gaugeOk &&
  (List.range f.nflume).all f.flumeOk && f.launchOk && f.accOk

/-- The task table's addresses, and the launch record's root, context and arguments. -/
def FileBits.tasks (f : FileBits) : List Nat := (List.range f.ntask).map fun i => (f.sym (f.u (f.map.task + 8 * i) 4)).value
def FileBits.launch (f : FileBits) : Option (W64 × BitVec 4 × W64) :=
  let o := f.map.launch
  if f.nlaunch = 0 then none
  else some (BitVec.ofNat 64 (f.sym (f.u o 4)).value, BitVec.ofNat 4 (f.u (o + 4) 1), BitVec.ofNat 64 (f.u (o + 8) 8))

end Sys2Proof.Machine
end

