-- ==== Sys2Proof/Machine/Lms.lean ====
section
/-!
DEFINITION. SHA-256, and the signatures of firmware and task images (22 R424, R427): LMS as RFC 8554 defines it, with the parameter sets
LMS_SHA256_M32_H15 and LMOTS_SHA256_N32_W4. The spec names that RFC and gives no text of it; the type codes, the byte layouts and the
two algorithms below are taken from it (PRESUMED, log entry 95).
-/
namespace Sys2Proof.Machine
open Sys2Proof

/-! SHA-256 (FIPS 180-4). -/

abbrev W32 := BitVec 32
def shaInit : List W32 :=
  [0x6a09e667, 0xbb67ae85, 0x3c6ef372, 0xa54ff53a, 0x510e527f, 0x9b05688c, 0x1f83d9ab, 0x5be0cd19]
def shaKeys : List W32 :=
  [0x428a2f98, 0x71374491, 0xb5c0fbcf, 0xe9b5dba5, 0x3956c25b, 0x59f111f1, 0x923f82a4, 0xab1c5ed5] ++
  [0xd807aa98, 0x12835b01, 0x243185be, 0x550c7dc3, 0x72be5d74, 0x80deb1fe, 0x9bdc06a7, 0xc19bf174] ++
  [0xe49b69c1, 0xefbe4786, 0x0fc19dc6, 0x240ca1cc, 0x2de92c6f, 0x4a7484aa, 0x5cb0a9dc, 0x76f988da] ++
  [0x983e5152, 0xa831c66d, 0xb00327c8, 0xbf597fc7, 0xc6e00bf3, 0xd5a79147, 0x06ca6351, 0x14292967] ++
  [0x27b70a85, 0x2e1b2138, 0x4d2c6dfc, 0x53380d13, 0x650a7354, 0x766a0abb, 0x81c2c92e, 0x92722c85] ++
  [0xa2bfe8a1, 0xa81a664b, 0xc24b8b70, 0xc76c51a3, 0xd192e819, 0xd6990624, 0xf40e3585, 0x106aa070] ++
  [0x19a4c116, 0x1e376c08, 0x2748774c, 0x34b0bcb5, 0x391c0cb3, 0x4ed8aa4a, 0x5b9cca4f, 0x682e6ff3] ++
  [0x748f82ee, 0x78a5636f, 0x84c87814, 0x8cc70208, 0x90befffa, 0xa4506ceb, 0xbef9a3f7, 0xc67178f2]
/-- One round: the eight working words after the word `w` under the key `k`. -/
def shaRound (r : List W32) (k w : W32) : List W32 :=
  match r with
  | [a, b, c, d, e, f, g, h] =>
    let t1 := h + (e.rotateRight 6 ^^^ e.rotateRight 11 ^^^ e.rotateRight 25) + ((e &&& f) ^^^ (~~~e &&& g)) + k + w
    let t2 := (a.rotateRight 2 ^^^ a.rotateRight 13 ^^^ a.rotateRight 22) + ((a &&& b) ^^^ (a &&& c) ^^^ (b &&& c))
    [t1 + t2, a, b, c, d + t1, e, f, g]
  | _ => r
/-- The word of the schedule that follows sixteen. -/
def shaNext (w : List W32) : W32 :=
  let x := w.getD 1 0
  let y := w.getD 14 0
  w.getD 0 0 + (x.rotateRight 7 ^^^ x.rotateRight 18 ^^^ (x >>> 3)) + w.getD 9 0 + (y.rotateRight 17 ^^^ y.rotateRight 19 ^^^ (y >>> 10))
/-- The rounds of the keys left, over a window of sixteen words. -/
def shaRounds : List W32 → List W32 → List W32 → List W32
  | [], _, r => r
  | k :: ks, w, r => shaRounds ks (w.tail ++ [shaNext w]) (shaRound r k (w.headD 0))
/-- Big-endian numbers: of bytes, and `n` bytes of a number. -/
def beNat (l : List Byte) : Nat := l.foldl (fun a b => 256 * a + b.toNat) 0
def beBytes (n v : Nat) : List Byte := (List.range n).map fun i => BitVec.ofNat 8 (v / 2 ^ (8 * (n - 1 - i)))
def shaWords : Nat → List Byte → List W32
  | 0, _ => []
  | n + 1, l => BitVec.ofNat 32 (beNat (l.take 4)) :: shaWords n (l.drop 4)
/-- The blocks of a padded message, `n` of them. -/
def shaBlocks : Nat → List Byte → List W32 → List W32
  | 0, _, h => h
  | n + 1, l, h => shaBlocks n (l.drop 64) (List.zipWith (· + ·) h (shaRounds shaKeys (shaWords 16 l) h))
def sha256 (m : List Byte) : List Byte :=
  let z := (119 - m.length % 64) % 64
  let p := m ++ [0x80] ++ List.replicate z 0 ++ beBytes 8 (8 * m.length)
  ((shaBlocks (p.length / 64) p shaInit).map fun w => beBytes 4 w.toNat).flatten

/-! LM-OTS and LMS (RFC 8554, algorithms 4b and 6a). -/

/-- `n` bytes from byte `o`. -/
def slice (l : List Byte) (o n : Nat) : List Byte := (l.drop o).take n
/-- The i-th 4-bit digit of a byte string. -/
def coef4 (l : List Byte) (i : Nat) : Nat := ((l.getD (i / 2) 0).toNat / 16 ^ (1 - i % 2)) % 16
/-- The checksum of the 64 digits of a hash, two bytes. -/
def otsSum (q : List Byte) : List Byte := beBytes 2 (16 * (List.range 64).foldl (fun a i => a + (15 - coef4 q i)) 0)
/-- A chain from step `j` on, `n` steps. -/
def otsChain (pre : List Byte) : Nat → Nat → List Byte → List Byte
  | 0, _, x => x
  | n + 1, j, x => otsChain pre n (j + 1) (sha256 (pre ++ beBytes 1 j ++ x))
/-- The LM-OTS public key that a one-time signature over a file gives: `iq` is the key's identifier with the leaf number. -/
def otsKey (iq file sig : List Byte) : List Byte :=
  let q := sha256 (iq ++ beBytes 2 0x8181 ++ slice sig 4 32 ++ file)
  let d := q ++ otsSum q
  let z := ((List.range 67).map fun i => otsChain (iq ++ beBytes 2 i) (15 - coef4 d i) (coef4 d i) (slice sig (36 + 32 * i) 32)).flatten
  sha256 (iq ++ beBytes 2 0x8080 ++ z)
/-- The root above node `n` of value `x`, along the path's siblings. -/
def lmsClimb (id : List Byte) : List (List Byte) → Nat → List Byte → List Byte
  | [], _, x => x
  | y :: l, n, x => lmsClimb id l (n / 2) (sha256 (id ++ beBytes 4 (n / 2) ++ beBytes 2 0x8383 ++ if n % 2 = 1 then y ++ x else x ++ y))
/-- Bytes of a public key and of a signature. -/
def lmsKeyBytes : Nat := 56
def lmsSigBytes : Nat := 2668
/-- An LMS signature over a file verifies under a public key. -/
def lmsOk (key file sig : List Byte) : Bool :=
  let id := slice key 8 16
  let q := beNat (slice sig 0 4)
  let iq := id ++ slice sig 0 4
  let leaf := sha256 (id ++ beBytes 4 (32768 + q) ++ beBytes 2 0x8282 ++ otsKey iq file (slice sig 4 2180))
  key.length == lmsKeyBytes && sig.length == lmsSigBytes && beNat (slice key 0 4) == 7 && beNat (slice key 4 4) == 3 &&
  beNat (slice sig 4 4) == 3 && beNat (slice sig 2184 4) == 7 && q < 32768 &&
  lmsClimb id ((List.range 15).map fun i => slice sig (2188 + 32 * i) 32) (32768 + q) leaf == slice key 24 32
/-- The check of R427: a file's signature is the signer's public key followed by its LMS signature over every byte of the file, and the
key counts only where its SHA-256 hash is the one held (DESIGN CHOICE on where the key stands, log entry 95). -/
def signedBy (hash file sig : List Byte) : Bool :=
  sha256 (sig.take lmsKeyBytes) == hash && lmsOk (sig.take lmsKeyBytes) file (sig.drop lmsKeyBytes)

end Sys2Proof.Machine
end

