-- ==== Sys2Proof/Machine/Host.lean ====
section
/-!
DEFINITION. The firmware's commands, the launch mailbox, the host's accesses, reset, adaptive ECC and the power governor
(15 R362, R363, 22 R424 to R432).
-/
namespace Sys2Proof.Machine
open Sys2Proof

/-! DRAM that the firmware hands out. -/

/-- The bank of a physical DRAM bit of a package (22 R430): slices as in 20 R387, banks of a slice in address order (log entry 44). -/
def bankOf (pa : Nat) : Nat := pa / 2 ^ 38 * 512 + sliceOf pa * 64 + pa % 2 ^ 38 / 2 ^ 18 / 12288
/-- The bit lies in the top 1/16 of its bank. -/
def inTop (pa : Nat) : Bool := 11520 ≤ pa % 2 ^ 38 / 2 ^ 18 % 12288
def State.bankAt (s : State) (pkg n : Nat) : Bank := tget {} s.banks (pkg * 4096 + n)
def State.setBank (s : State) (pkg n : Nat) (b : Bank) : State := { s with banks := tset {} s.banks (pkg * 4096 + n) b }
/-- The granule is unusable, or about to be. -/
def State.retired (s : State) (pkg pa : Nat) : Bool := inTop pa && (s.bankAt pkg (bankOf pa)).strong || inTop pa && (s.bankAt pkg (bankOf pa)).busy
/-- What the firmware has handed out in a package: first bit and extent. -/
def State.inUse (s : State) (pkg : Nat) : List (Nat × Nat) :=
  ((s.pkgAt pkg).images.map fun i => i.pages.map fun p => (p.2, 2 ^ 19)).flatten ++
  ((s.ctxs.filter fun e => e.1 / 16 == pkg).map fun e => e.2.tables.map (fun t => (t, 32768)) ++ e.2.pool.map fun p => (p.1, slotBits * p.2)).flatten
/-- A range that can be handed out: it lies in one die's DRAM, meets nothing in use and nothing unusable; what the firmware keeps for
itself stays clear of every bank's top. -/
def State.usable (s : State) (pkg : Nat) (used : List (Nat × Nat)) (sys : Bool) (a n : Nat) : Bool :=
  a % 2 ^ 38 + n ≤ dramBits && !(used.any fun u => u.1 < a + n && a < u.1 + u.2) &&
  (List.range ((n + 32767) / 32768)).all fun i => let pa := a + 32768 * i; if sys then !inTop pa else !s.retired pkg pa
/-- The first free range of a package, by die and address (DESIGN CHOICE, log entry 75). -/
def State.room (s : State) (pkg : Nat) (used : List (Nat × Nat)) (sys : Bool) (n : Nat) : Option Nat :=
  let up (a : Nat) : Nat := (a + 2 ^ 19 - 1) / 2 ^ 19 * 2 ^ 19
  let starts (d : Nat) : List Nat :=
    ((List.range 64).map fun b => dramBase d + b * 12288 * 2 ^ 18) ++ ((used.filter fun u => u.1 / 2 ^ 38 == d).map fun u => up (u.1 + u.2))
  (((List.range 8).map starts).flatten).find? fun a => s.usable pkg used sys a n
/-- A physical page for each virtual one. -/
def State.pagesFor (s : State) (pkg : Nat) : List (Nat × Nat) → List Nat → Option (List (Nat × Nat))
  | _, [] => some []
  | used, va :: l => do
    let pa ← s.room pkg used false (2 ^ 19)
    let r ← s.pagesFor pkg ((pa, 2 ^ 19) :: used) l
    some ((va, pa) :: r)

/-! Commands (R425, R426). -/

/-- The command mailbox as the host reads it (Table 22.1). -/
def Pkg.commandBox (p : Pkg) : Nat :=
  p.args.a0.toNat + fld p.args.a1.toNat 64 + fld p.args.a2.toNat 128 + fld p.args.a3.toNat 192 + fld p.args.a4.toNat 256 +
  fld p.args.a5.toNat 320 + fld p.op.toNat 432 + fld (bitN p.busy) 441 + fld p.status.toNat 448
/-- The launch mailbox (15 Table 15.13). -/
def Pkg.launchBox (p : Pkg) : Nat :=
  fld p.lbox.args.toNat 128 + fld p.lbox.root.toNat 192 + fld p.lbox.pri.toNat 352 + fld p.lbox.image.toNat 384 + fld p.lbox.ctx.toNat 416 +
  fld (bitN p.lbusy) 441 + fld p.lcode.toNat 448
/-- A host's write of a mailbox: its RW fields, and DOOR, which counts only while BUSY is 0 (15 R362, 22 R425). -/
def Pkg.setCommandBox (p : Pkg) (v : Nat) : Pkg :=
  let w (i : Nat) : W64 := BitVec.ofNat 64 (v / 2 ^ (64 * i))
  let q := { p with args := { a0 := w 0, a1 := w 1, a2 := w 2, a3 := w 3, a4 := w 4, a5 := w 5 }, op := BitVec.ofNat 8 (v / 2 ^ 432) }
  if v.testBit 440 && !p.busy then { q with busy := true, doors := p.doors ++ [.command] } else q
def Pkg.setLaunchBox (p : Pkg) (v : Nat) : Pkg :=
  let q := { p with lbox := { args := BitVec.ofNat 64 (v / 2 ^ 128), root := BitVec.ofNat 64 (v / 2 ^ 192), pri := BitVec.ofNat 32 (v / 2 ^ 352),
                              image := BitVec.ofNat 32 (v / 2 ^ 384), ctx := BitVec.ofNat 4 (v / 2 ^ 416) } }
  if v.testBit 440 && !p.lbusy then { q with lbusy := true, doors := p.doors ++ [.launch] } else q
/-- Byte offsets of the launch mailbox in BAR 0, and the bytes of a mailbox. -/
def launchAt : Nat := 0x1000
def boxBytes : Nat := 64
/-- `n` bytes of BAR 0 that lie in one mailbox: whether it is the command mailbox, and the byte in it. -/
def boxOf (off n : Nat) : Option (Bool × Nat) :=
  if n = 0 then none
  else if off + n ≤ boxBytes then some (true, off)
  else if launchAt ≤ off ∧ off + n ≤ launchAt + boxBytes then some (false, off - launchAt)
  else none
/-- The mailbox, read and written in part: bytes not written keep what they read, DOOR reads 0. -/
def Pkg.box (p : Pkg) (cmd : Bool) : Nat := if cmd then p.commandBox else p.launchBox
def Pkg.setBox (p : Pkg) (cmd : Bool) (v : Nat) : Pkg := if cmd then p.setCommandBox v else p.setLaunchBox v
def Pkg.barWrite (p : Pkg) (off n v : Nat) : Pkg :=
  match boxOf off n with
  | some (cmd, o) =>
    let b := p.box cmd
    p.setBox cmd (b % 2 ^ (8 * o) + v % 2 ^ (8 * n) * 2 ^ (8 * o) + b / 2 ^ (8 * (o + n)) * 2 ^ (8 * (o + n)))
  | none => p

/-- The command whose DOOR is next to be served: its OP and its arguments. Where no DOOR waits and the firmware is up, the event brings
the host's write of OP, ARG and DOOR with it, and the firmware serves it at once (DEDUCED, log entry 82). -/
def State.cmdAt (s : State) (op : Nat) (a : Args) : Option (Nat × Args) :=
  let p := s.pkgAt s.myPkg
  match p.doors with
  | .command :: _ => some (p.op.toNat, p.args)
  | .launch :: _ => none
  | [] => if p.busy then none else some (op, a)
/-- A command that the firmware runs, with its arguments in `ev`: it writes STATUS and the results and clears BUSY. Where `run` answers
nothing the firmware waits: a recast under way holds what it needs (22 R428). -/
def State.serve (s : State) (op : Nat) (a : Args) (run : State → Option (State × Nat × Args)) : Out :=
  let p := s.pkgAt s.myPkg
  match run (({ s with ev := { s.ev with args := a } }).setPkgAt s.myPkg { p with doors := p.doors.tail }) with
  | none => .next s
  | some (t, st, r) =>
    .next (t.setPkgAt t.myPkg { t.pkgAt t.myPkg with status := BitVec.ofNat 8 st, op := BitVec.ofNat 8 op, args := r, busy := false })
/-- The event of a command of code `op`. -/
def State.command (s : State) (op : Nat) (run : State → Option (State × Nat × Args)) : Out :=
  match s.cmdAt op s.ev.args with
  | some (o, a) => if o = op then s.serve op a run else .next s
  | none => .next s
/-- A range of bus byte addresses lies in a window that the host granted (R428). -/
def State.inWindow (s : State) (pkg a n : Nat) : Bool := (s.pkgAt pkg).granted.any fun w => w.1 ≤ a && a + n ≤ w.1 + w.2
/-- Bytes of host memory. -/
def State.hostBytes (s : State) (pkg a n : Nat) : List Byte := (List.range n).map fun i => memByte s.mem (bitKey pkg hostBase / 8 + a + i)

/-! load-image. -/

/-- The 64 KiB pages of an image. -/
def FileBits.pageVas (f : FileBits) : List Nat :=
  ((f.secs.filter fun x => x.role != 3 && x.size != 0).map fun x =>
    (List.range ((x.addr + x.size - 1) / 2 ^ 19 + 1 - x.addr / 2 ^ 19)).map fun i => (x.addr / 2 ^ 19 + i) * 2 ^ 19).flatten.foldl
    (fun l a => if l.contains a then l else l ++ [a]) []
/-- The physical address of a virtual one in an image's pages. -/
def pagePa (pages : List (Nat × Nat)) (va : Nat) : Nat := ((pages.find? fun p => p.1 == va / 2 ^ 19 * 2 ^ 19).map (·.2)).getD 0 + va % 2 ^ 19
/-- The bits of a section go to its pages. -/
def State.putSec (s : State) (pkg : Nat) (pages : List (Nat × Nat)) (va n v : Nat) : State :=
  pages.foldl (fun t p =>
    let lo := max va p.1
    let hi := min (va + n) (p.1 + 2 ^ 19)
    if lo < hi then { t with mem := memSetBits t.mem (bitKey pkg (p.2 + (lo - p.1))) (hi - lo) (v / 2 ^ (lo - va)) } else t) s
/-- The physical role granules of a section. -/
def ImgSec.pas (x : ImgSec) (pages : List (Nat × Nat)) : List Nat :=
  if x.role = .acc then [] else (List.range ((x.len + 32767) / 32768)).map fun i => pagePa pages (x.va + 32768 * i)
/-- The entry of a granule of an image at load (13 R279). -/
def loadEntry (x : ImgSec) (l : Option (W64 × BitVec 4 × W64)) : DirEntry :=
  match l with
  | some (_, c, a) => { role := x.role, sys := false, ctx := c, frame := if x.role = .prv then a else 0 }
  | none => { role := x.role, sys := x.role == .prv }
/-- An accepted object is placed in bonded DRAM and takes its roles (DEDUCED, log entry 76). -/
def State.placeImage (s : State) (pkg : Nat) (f : FileBits) (pages : List (Nat × Nat)) : State × Nat :=
  let p := s.pkgAt pkg
  let secs := f.secs.map SecEnt.img
  let im : Image := { handle := p.handles, secs := secs, pages := pages, tasks := f.tasks, launch := f.launch }
  let s1 := pages.foldl (fun t q => t.zeroRange pkg q.2 (2 ^ 19)) (s.setPkgAt pkg { p with images := p.images ++ [im], handles := p.handles + 1 })
  let s2 := (f.secs.filter (·.role != 3)).foldl (fun t x => t.putSec pkg pages x.addr x.size (f.data x)) s1
  (secs.foldl (fun t x => t.sysFlip pkg (fun _ => loadEntry x f.launch) (x.pas pages)) s2, p.handles)
/-- LOAD_IMAGE (R426): the signature under the key that the loaded firmware accepts for task images, the checks of the object, and its
placement. -/
def execLoadImage (s : State) : Out :=
  s.command 1 fun s =>
    let a := s.ev.args
    let pkg := s.myPkg
    if !(s.inWindow pkg a.a0.toNat a.a1.toNat && s.inWindow pkg a.a2.toNat a.a3.toNat) then some (s, 6, a) else
    let file := s.hostBytes pkg a.a0.toNat a.a1.toNat
    if !signedBy (Config.taskKeyHash (s.pkgAt pkg).firmware) file (s.hostBytes pkg a.a2.toNat a.a3.toNat) then
      some (s.logError pkg (errRec 6 0 0 0 0 0), 1, a) else
    let f := fileOf file
    if !f.ok then some (s, 2, a) else
    match s.pagesFor pkg (s.inUse pkg) f.pageVas with
    | none => some (s, 3, a)
    | some pages =>
      let (t, h) := s.placeImage pkg f pages
      some (t, 0, { a with a0 := BitVec.ofNat 64 h })

/-! create-context. -/

def State.putWord (s : State) (pkg pa v : Nat) : State :=
  let t := s.crcWrite pkg [(pa, 64)]
  { t with mem := memSetBits t.mem (bitKey pkg pa) 64 v }
/-- A new page table of a context: one role granule, zero. -/
def State.newTable (s : State) (k : Nat) : Option (Nat × State) := do
  let pa ← s.room (k / 16) (s.inUse (k / 16)) true 32768
  let c := s.ctxAt k
  some (pa, (s.zeroRange (k / 16) pa 32768).setCtxAt k { c with tables := c.tables ++ [pa] })
/-- A leaf that maps a page with every permission (log entry 45). -/
def leafPte (pa : Nat) : Nat := pa + 0x1E3
/-- Maps a 64 KiB page from a table of a level on; missing tables are built (15 R346, R347). -/
def State.mapPage (s : State) (k : Nat) : Nat → Nat → Nat → Nat → Nat → Option State
  | 0, _, _, _, _ => none
  | n + 1, level, table, va, pa =>
    let ea := table + 64 * (va / 2 ^ levelBits level % 512)
    if level = 4 then some (s.putWord (k / 16) ea (leafPte pa)) else
    let e := s.pteAt (k / 16) ea
    if pteV e then s.mapPage k n (level + 1) (ptePa e) va pa
    else
      match s.newTable k with
      | none => none
      | some (t, s1) => (s1.putWord (k / 16) ea (t + 1)).mapPage k n (level + 1) t va pa
def State.mapPages (s : State) (k : Nat) (root : Nat) (pages : List (Nat × Nat)) : Option State :=
  pages.foldl (fun o p => o.bind fun t => t.mapPage k 5 0 root p.1 p.2) (some s)
/-- Slots of a save pool, one by one. -/
def State.newPool (s : State) (k : Nat) : Nat → Option State
  | 0 => some s
  | n + 1 => do
    let pa ← s.room (k / 16) (s.inUse (k / 16)) true slotBits
    let c := s.ctxAt k
    (s.setCtxAt k { c with pool := c.pool ++ [(pa, 1)], saveSlots := c.saveSlots + 1 }).newPool k n

/-- The allotment block (R426). -/
structure Allot where
  v : Nat
deriving DecidableEq, Repr, Inhabited
def Allot.mask (b : Allot) : BitVec 768 := BitVec.ofNat 768 b.v
/-- The 16 weirs of a level: quad, die, package, domain. -/
def Allot.weirs (b : Allot) (lvl : Nat) : Nat := nbits b.v (768 + 16 * (lvl - 2)) 16
def Allot.savex (b : Allot) : Nat := nbits b.v 832 10
def Allot.mode (b : Allot) : Nat := nbits b.v 842 2
def Allot.thresh (b : Allot) : Nat := nbits b.v 844 32
def Allot.timeout (b : Allot) : Nat := nbits b.v 876 32
def Allot.dvec (b : Allot) : Nat := nbits b.v 908 64
def Allot.qlimit (b : Allot) : Nat := nbits b.v 972 32
def Allot.slots (b : Allot) : Nat := nbits b.v 1004 16
/-- The places of a level that a core mask reaches. -/
def maskLocs (pkg lvl : Nat) (m : BitVec 768) : List Nat :=
  let hit (n w : Nat) : Bool := (List.range w).any fun i => m.getLsbD (n * w + i)
  match lvl with
  | 2 => ((List.range 192).filter fun q => hit q 4).map (pkg * 192 + ·)
  | 3 => ((List.range 8).filter fun d => hit d 96).map (pkg * 8 + ·)
  | 4 => [pkg]
  | _ => [0]
/-- Another context holds a weir that a block asks for. -/
def State.weirsTaken (s : State) (k : Nat) (b : Allot) : Bool :=
  s.ctxs.any fun e => e.2.live && e.1 % 16 != k % 16 && [2, 3, 4, 5].any fun l =>
    Nat.land (tget 0 e.2.weirs l).toNat (b.weirs l) != 0 && (maskLocs (e.1 / 16) l e.2.mask).any fun p => (maskLocs (k / 16) l b.mask).contains p
/-- The block's arguments are legal for an image (R426). -/
def Allot.ok (b : Allot) (i : Image) : Bool :=
  nbits b.v 1020 4 == 0 && b.savex ≤ 512 && b.mode ≤ 1 && b.slots != 0 &&
  (b.dvec == 0 || (b.dvec % 48 == 0 && i.secs.any fun x => x.role == .imm && x.va ≤ b.dvec && b.dvec < (x.va + x.len + 32767) / 32768 * 32768))
/-- Sets or clears the weirs of a block to N, arrivals and GEN 0. -/
def State.clearWeirs (s : State) (k : Nat) (w : Nat → Nat) (m : BitVec 768) : State :=
  [2, 3, 4, 5].foldl (fun t l => (maskLocs (k / 16) l m).foldl (fun t p => (List.range 16).foldl (fun (t : State) i =>
    if (w l).testBit i then t.setWeir (l * 2 ^ 40 + 64 * (if l = 5 then 0 else p) + i) {} else t) t) t) s
/-- The context that a command creates, before its tables and pool. -/
def newCtx (a : Args) (b : Allot) : Ctx :=
  { live := true, image := (a.a0.extractLsb' 32 32).toNat, ringAt := a.a1.toNat, ringN := a.a2.toNat,
    dom := a.a3.getLsbD 39, b := (a.a3.extractLsb' 34 5).toNat, fb := a.a3.extractLsb' 0 32, tickets := (a.a4.extractLsb' 0 21).toNat,
    quantum := (a.a4.extractLsb' 32 32).toNat, invTimeout := BitVec.ofNat 32 b.timeout, balMode := b.mode, thresh := b.thresh,
    mask := b.mask, weirs := [2, 3, 4, 5].foldl (fun t l => tset 0 t l (BitVec.ofNat 32 (b.weirs l))) [],
    savex := b.savex, dvec := BitVec.ofNat 64 b.dvec, qlimit := BitVec.ofNat 32 b.qlimit }
/-- The arguments in the mailbox are legal (R426, 18 Table 18.7). -/
def createOk (a : Args) : Bool :=
  a.a0.extractLsb' 4 28 == 0 && a.a3.extractLsb' 40 24 == 0 && a.a3.extractLsb' 32 2 == 0 && (a.a3.extractLsb' 34 5).toNat ≤ 26 &&
  a.a4.extractLsb' 21 11 == 0 && 1 ≤ (a.a4.extractLsb' 0 21).toNat && (a.a4.extractLsb' 0 21).toNat ≤ 2 ^ 20
/-- The state that create-context builds for an image: tables, save pool, weirs, gates, and the context in the roles of the image's
granules; none where there is no room. -/
def State.newContext (s : State) (k : Nat) (a : Args) (b : Allot) (im : Image) : Option State := do
  let (root, s1) ← (s.setCtxAt k (newCtx a b)).newTable k
  let s2 := s1.setCtxAt k { s1.ctxAt k with root := root }
  let s3 ← s2.mapPages k root im.pages
  let t ← s3.newPool k b.slots
  let t1 := (t.clearWeirs k b.weirs b.mask).setGates (k / 16) (BitVec.ofNat 4 k) fun d => { d with fb := a.a3.extractLsb' 0 32 }
  some (im.secs.foldl (fun t y => t.sysFlip (k / 16) (fun e => { e with ctx := BitVec.ofNat 4 k }) (y.pas im.pages)) t1)
/-- The granules of an image's sections. -/
def Image.grans (i : Image) : List Nat := (i.secs.map fun x => x.pas i.pages).flatten
/-- CREATE_CONTEXT (R426). An image whose granules a reset-context has freed is no argument (DESIGN CHOICE, log entry 76). -/
def execCreateContext (s : State) : Out :=
  s.command 2 fun s =>
    let a := s.ev.args
    let pkg := s.myPkg
    let k := ctxKey pkg (a.a0.extractLsb' 0 4)
    if !createOk a then some (s, 4, a) else
    if (s.ctxAt k).live then some (s, 5, a) else
    match (s.pkgAt pkg).images.find? fun i => i.handle == (a.a0.extractLsb' 32 32).toNat && !i.pages.isEmpty with
    | none => some (s, 4, a)
    | some im =>
      if !(s.inWindow pkg a.a1.toNat (16 * a.a2.toNat) && s.inWindow pkg a.a5.toNat 128) then some (s, 6, a) else
      let b : Allot := { v := memBits s.mem (bitKey pkg (hostBase + 8 * a.a5.toNat)) 1024 }
      if !b.ok im then some (s, 4, a) else
      if s.weirsTaken k b then some (s, 3, a) else
      if !s.sysFree pkg im.grans then none else
      match s.newContext k a b im with
      | none => some (s, 3, a)
      | some t => some (t, 0, a)

/-! query. -/

/-- The query that ARG0 selects: its result in ARG0 to ARG3. -/
def query (sel : Nat) (g : State → Nat → Option Nat) (s : State) : Out :=
  match s.cmdAt 3 { s.ev.args with a0 := BitVec.ofNat 64 sel } with
  | some (3, a) =>
    if a.a0.toNat ≠ sel then .next s else
    s.serve 3 a fun s =>
      match g s a.a1.toNat with
      | none => some (s, 4, a)
      | some v => some (s, 0, { a with a0 := BitVec.ofNat 64 v, a1 := BitVec.ofNat 64 (v / 2 ^ 64), a2 := BitVec.ofNat 64 (v / 2 ^ 128), a3 := BitVec.ofNat 64 (v / 2 ^ 192) })
  | _ => .next s
/-- The bytes of a list as one number, the first lowest. -/
def bytesNat (l : List Byte) : Nat := l.foldr (fun b a => b.toNat + 256 * a) 0
/-- QUERY_IDENTITY: the SHA-256 hash of the identity key's public part (R424); its first byte is the lowest (DESIGN CHOICE, log entry 77). -/
def execQueryIdentity (s : State) : Out := query 0 (fun s _ => some (bytesNat (sha256 (Config.publicPart (s.pkgAt s.myPkg).key)))) s
/-- A role directory entry (13 Table 13.1). -/
def DirEntry.toNat (e : DirEntry) : Nat :=
  fld e.point.toNat 44 + fld e.mode.toNat 50 + fld (match e.role with | .imm => 1 | .str => 2 | .acc => 3 | .prv => 4) 53 +
  fld (bitN e.held) 56 + fld (bitN e.ph) 57 + fld (bitN e.qr) 58 + fld (bitN e.sys) 59 + fld e.ctx.toNat 60 + fld e.frame.toNat 64
/-- QUERY_ROLE_ENTRY. -/
def execQueryRoleEntry (s : State) : Out :=
  query 1 (fun s pa => if place pa = .none then none else some (s.roleAt s.myPkg pa).toNat) s
/-- A flume control block (14 Table 14.1). -/
def Flume.toNat (f : Flume) : Nat :=
  f.head.toNat + fld f.tail.toNat 32 + fld (bitN f.valid) 64 + fld f.held 122 + fld f.claimed 139 + fld f.cstr 156 + fld f.ccore 158 + fld f.cpkg 168 +
  fld (bitN f.cv) 181 + fld f.pstr 182 + fld f.pcore 184 + fld f.ppkg 194 + fld (bitN f.pv) 207 + fld f.slotsM1 208 + fld f.slotBits 224 + fld f.base 256
/-- QUERY_FLUME_BLOCK: the four result arguments hold bits 255:0 of the block; BASE is the address asked for (log entry 46). -/
def execQueryFlumeBlock (s : State) : Out :=
  query 2 (fun s pa => if place pa = .none then none else some (tget {} s.flumes (granKey s.myPkg pa) : Flume).toNat) s
/-- QUERY_GRANULE: 128 bits, quarantined or not. -/
def execQueryGranule (s : State) : Out :=
  query 3 (fun s pa => if place pa = .none then none else some (s.rdGran s.myPkg (pa / 128 * 128) 128)) s
def Bank.toNat (b : Bank) : Nat := b.ue.toNat + fld b.cnt.toNat 16 + fld b.thr.toNat 32 + fld (bitN b.strong) 48
/-- QUERY_DRAM_BANK (Table 22.4). -/
def execQueryDramBank (s : State) : Out := query 4 (fun s n => if n < 4096 then some (s.bankAt s.myPkg n).toNat else none) s

/-! reset-context, read-errors, and an OP that is not listed. -/

/-- A granule returned to the firmware, zero (15 R360). -/
def State.freeGran (s : State) (pkg pa : Nat) : State :=
  let s1 := (s.zeroRange pkg pa 32768).sysFlip pkg (fun _ => {}) [pa]
  match place pa with
  | .ap n o => if o < accBase then s1 else s1.updCore (coreKey pkg n) fun c =>
      { c with lanePsn := tclear c.lanePsn ((o - accBase + 39) / 40) ((o + 32768 - accBase) / 40) }
  | _ => s1
/-- The granules that a reset-context frees (15 R360): every one of the pages of its image, where no other context has that image, and
what else its entries name. -/
def State.toFree (s : State) (pkg : Nat) (x : BitVec 4) : List Nat :=
  let h := (s.ctxAt (ctxKey pkg x)).image
  let others := s.ctxs.any fun e => e.1 / 16 == pkg && e.1 % 16 != x.toNat && e.2.live && e.2.image == h
  let pages := (((s.pkgAt pkg).images.filter fun i => i.handle == h && !others).map fun i =>
    (i.pages.map fun p => (List.range 16).map fun k => p.2 + 32768 * k).flatten).flatten
  pages ++ (s.ownGrans pkg x fun e => !e.sys || e.qr).filter fun pa => !pages.contains pa
/-- RESET_CONTEXT (R426): the kill, then everything of the context goes back to the firmware; its image's granules are among
them, while the handle still names the image (Table 22.3's note on a later launch) (DEDUCED, log entry 76). -/
def execResetContext (s : State) : Out :=
  s.command 4 fun s =>
    let a := s.ev.args
    let pkg := s.myPkg
    let x := a.a0.extractLsb' 0 4
    let k := ctxKey pkg x
    let c := s.ctxAt k
    if a.a0.extractLsb' 4 60 != 0 then some (s, 4, a) else
    if !c.live then some (s, 5, a) else
    let s1 := if c.running || c.killing.isSome || c.killReq.isSome then s.killNow pkg x else s
    let l := s1.toFree pkg x
    if !s1.sysFree pkg l then none else
    let s2 := l.foldl (fun t pa => t.freeGran pkg pa) s1
    let s3 := (s2.dropRecords pkg x).dropFlumes pkg x
    let s4 := s3.clearWeirs k (fun l => (tget 0 c.weirs l).toNat) c.mask
    let s5 := s4.removeTlb { till := 0, range := none, scope := 4 } (coreKey pkg 0) x
    let s6 := (diesOf pkg).foldl (fun t d => t.setDctx d x {}) (s5.setCtxAt k {})
    let p := s6.pkgAt pkg
    let others := s6.ctxs.any fun e => e.1 / 16 == pkg && e.2.live && e.2.image == c.image
    some (s6.setPkgAt pkg { p with images := p.images.map fun i => if i.handle == c.image && !others then { i with pages := [] } else i }, 0, a)
/-- READ_ERRORS (R426, R431). The records are the firmware's own: their CRC enters and leaves with them. -/
def execReadErrors (s : State) : Out :=
  s.command 5 fun s =>
    let a := s.ev.args
    let pkg := s.myPkg
    let p := s.pkgAt pkg
    let n := min a.a1.toNat p.log.length
    if !s.inWindow pkg a.a0.toNat (16 * n) then some (s, 6, a) else
    let s1 := ((p.log.take n).zipIdx).foldl (fun (t : State) e =>
      { t with mem := memSetBits t.mem (bitKey pkg (hostBase + 8 * a.a0.toNat + 128 * e.2)) 128 e.1.toNat }) s
    some (s1.setPkgAt pkg { s1.pkgAt pkg with log := p.log.drop n }, 0, { a with a0 := BitVec.ofNat 64 n })
/-- An OP that Table 22.2 lists, and for query a selection that it lists. -/
def opListed (op : Nat) (a : Args) : Bool := op == 1 || op == 2 || op == 4 || op == 5 || (op == 3 && a.a0.toNat ≤ 4)
/-- BAD_OP (R426): the OP of a DOOR, or without one the code `ev.id`, is none that Table 22.2 lists, or a query that selects nothing. -/
def execBadOp (s : State) : Out :=
  match s.cmdAt s.ev.id s.ev.args with
  | some (op, a) => if opListed op a || 256 ≤ op then .next s else s.serve op a fun s => some (s, 4, a)
  | none => .next s

/-! Launch (15 R362, R363). -/

/-- The CODE of a launch, and on acceptance its root and argument base. R70 says that an image without a launch record cannot be
launched, and R363 refuses one only with ROOT = 0: the model launches it where ROOT names an entry of its task table
(DESIGN CHOICE, log entry 97). -/
def State.launchCode (s : State) (pkg : Nat) (b : LaunchBox) : Nat × Option (Image × W64 × W64) :=
  match (s.pkgAt pkg).images.find? (·.handle == b.image.toNat) with
  | none => (1, none)
  | some im =>
    let c := s.ctxAt (ctxKey pkg b.ctx)
    if !(c.live && c.image == im.handle) then (2, none)
    else if c.running || c.killing.isSome || c.killReq.isSome || !(s.queuedOf pkg b.ctx).isEmpty || !(s.jobsOf pkg b.ctx).isEmpty then (3, none)
    else if b.root = 0 then
      match im.launch with
      | some (root, _, args) => (0, some (im, root, args))
      | none => (4, none)
    else if im.tasks.contains b.root.toNat then (0, some (im, b.root, b.args)) else (4, none)
/-- What an accepted launch does (R363): the PRV sections' owner, and the root record. -/
def State.launch (s : State) (b : LaunchBox) (im : Image) (root args : W64) : State :=
  let pkg := s.myPkg
  let k := ctxKey pkg b.ctx
  let own (e : DirEntry) : DirEntry := if e.qr then e else { e with role := .prv, mode := 0, point := 0, sys := false, ctx := b.ctx, frame := args }
  let s2 := (im.secs.filter (·.role == .prv)).foldl (fun t y => t.sysFlip pkg own (y.pas im.pages)) s
  let s3 := s2.setCtxAt k { s2.ctxAt k with running := true, killed := false }
  let rec_ : Rec := { code := root, frame := args, pri := b.pri, ctx := b.ctx }
  { s3 with pushes := s3.pushes ++ [(s3.ids, { rcd := rec_, die := pkg * 8, spawn := false, core := none })], ids := s3.ids + 1 }
/-- The launch whose DOOR is next to be served, or that the event brings (log entry 82): none before the firmware is up (R424). -/
def State.launchAt (s : State) : Option LaunchBox :=
  let p := s.pkgAt s.myPkg
  if !p.up then none else
  match p.doors with
  | .launch :: _ => some p.lbox
  | .command :: _ => none
  | [] => if p.busy || p.lbusy then none else some s.ev.box
/-- LAUNCH (R363). -/
def execLaunch (s : State) : Out :=
  let pkg := s.myPkg
  let p := s.pkgAt pkg
  match s.launchAt with
  | none => .next s
  | some b =>
    let (code, r) := s.launchCode pkg b
    let s1 := s.setPkgAt pkg { p with lcode := BitVec.ofNat 8 code, lbox := b, lbusy := false, doors := p.doors.tail }
    match r with
    | none => .next s1
    | some (im, root, args) =>
      if !s.sysFree pkg (((im.secs.filter (·.role == .prv)).map fun y => y.pas im.pages).flatten) then .next s
      else .next (s1.launch b im root args)

/-! The host's accesses (R429). -/

/-- The host reaches these parts of a package (DEDUCED, log entry 79). -/
def hostReach (pa n : Nat) : Bool :=
  let ok (q : Place) : Bool := match q with | .dram _ _ => true | .cxl => true | .host => true | _ => false
  n != 0 && (List.range ((n + 32767) / 32768 + 1)).all fun i => ok (place (min (pa + 32768 * i) (pa + n - 1)))
/-- A host access of memory leaves a quarantined granule alone: only the query command reads it (15 R360). -/
def State.hostFree (s : State) (pkg pa n : Nat) : Bool :=
  (List.range ((pa + n - 1) / 32768 + 1 - pa / 32768)).all fun i => !(s.roleAt pkg (pa / 32768 * 32768 + 32768 * i)).qr
/-- HOST_WRITE: with a3 = 1 the bytes `ev.data` enter BAR 0 at byte offset a0 (15 R362, R425); else they enter at physical bit address a0:
whole blocks receive their CRC, partial ones are checked first. -/
def execHostWrite (s : State) : Out :=
  let pkg := s.myPkg
  let pa := s.ev.args.a0.toNat
  let n := 8 * s.ev.data.length
  if s.ev.args.a3 = 1 then .next (s.setPkgAt pkg ((s.pkgAt pkg).barWrite pa s.ev.data.length (bytesNat s.ev.data)))
  else if pa % 8 != 0 || !hostReach pa n || !s.hostFree pkg pa n then .next s
  else .next (s.wrPieces pkg (cuts pa n) (bytesNat s.ev.data) false)
/-- Bytes that the host reads come into its memory at bus byte address a2. -/
def State.toHost (s : State) (pkg a2 n v : Nat) : State := { s with mem := memSetBits s.mem (bitKey pkg (hostBase + 8 * a2)) n v }
/-- HOST_READ: with a3 = 1, a1 bytes of a mailbox from BAR 0 offset a0; else a1 bytes at physical bit address a0 leave for host memory at
bus byte address a2; a block whose CRC does not match goes out poisoned and is logged. -/
def execHostRead (s : State) : Out :=
  let pkg := s.myPkg
  let a := s.ev.args
  let pa := a.a0.toNat
  let n := 8 * a.a1.toNat
  let h := hostBase + 8 * a.a2.toNat
  if !hostReach h n then .next s
  else if a.a3 = 1 then
    (match boxOf pa a.a1.toNat with
     | some (cmd, o) => .next (s.toHost pkg a.a2.toNat n ((s.pkgAt pkg).box cmd / 2 ^ (8 * o)))
     | none => .next s)
  else if pa % 8 != 0 || !hostReach pa n || !s.hostFree pkg pa n then .next s else
  let ps := cuts pa n
  let (s1, _) := s.crcExit pkg ((crcBlocks ps).map fun b => (b, 2048))
  .next (ps.foldl (fun (t : State) p =>
    let bad := s.isPsn pkg p.1 p.2 || (!leavesDevice p.1 && (s.crcBad pkg p.1).isSome)
    let q := h + (p.1 - pa)
    { t with
      mem := memSetBits t.mem (bitKey pkg q) p.2 (s.rdGran pkg p.1 p.2)
      psn := (cuts q p.2).foldl (fun u c => if bad then tset false u (granKey pkg c.1) true else if c.2 = 128 then tset false u (granKey pkg c.1) false else u) t.psn }) s1)

/-! Reset (R424). -/

/-- What a package reset leaves of a package: nothing on chip; its DRAM and the host's memory keep their bytes (log entry 47). -/
def State.wipe (s : State) (pkg : Nat) : State :=
  let off (k d : Nat) : Bool := k / d != pkg
  let s1 := s.zeroRange pkg apBase (768 * 2 ^ 30)
  { s1 with
    cores := s1.cores.filter fun e => off e.1 768
    dir := s1.dir.filter fun e => off e.1 (2 ^ 47)
    replicas := s1.replicas.filter fun e => off e.1 (2 ^ 47)
    flumes := s1.flumes.filter fun e => off e.1 (2 ^ 55)
    weirs := s1.weirs.filter fun e =>
      let l := e.1 / 2 ^ 40
      let p := e.1 % 2 ^ 40 / 64
      off p (match l with | 1 => 768 | 2 => 192 | 3 => 8 | 4 => 1 | _ => 0) || l == 5
    ctxs := s1.ctxs.filter fun e => off e.1 16
    dctxs := s1.dctxs.filter fun e => off e.1 128
    joins := s1.joins.filter fun e => off e.1 (2 ^ 20)
    banks := s1.banks.filter fun e => off e.1 4096
    sides := s1.sides.filter fun e => off e.1 (2 ^ 55)
    pushes := s1.pushes.filter fun e => off e.2.die 8
    msgs := s1.msgs.filter fun e => match e.2 with | some m => m.dpkg != pkg && m.spkg != pkg | none => false
    walks := s1.walks.filter fun e => match e.2 with | some w => off w.die 8 | none => false
    wcache := s1.wcache.filter fun e => off e.1 8 }
/-- A signed part of the configuration flash: the file, and its signature behind it. -/
def flashSplit (l : List Byte) : List Byte × List Byte :=
  let n := l.length - (lmsKeyBytes + lmsSigBytes)
  (l.take n, l.drop n)
/-- A signed part of the flash verifies under the vendor's key, whose hash the ROM holds (R427). -/
def vendorOk (l : List Byte) : Bool := l.isEmpty || signedBy Config.vendorKeyHash (flashSplit l).1 (flashSplit l).2
/-- The overlays behind the image, each with its length in the eight bytes before it, the highest first. -/
def overlays : Nat → List Byte → List (List Byte)
  | 0, _ => []
  | k + 1, l => if l.isEmpty then [] else
    let n := beNat (l.take 8)
    (l.drop 8).take n :: overlays k ((l.drop 8).drop n)
/-- The firmware that the flash gives, and how many overlays failed: the flash holds the image of `n` bytes, then its overlays, each with
a signature of its own; no bytes at all stand for the flash as shipped (DESIGN CHOICE, log entry 77). An overlay whose check fails is
left out; none where the image's fails (R427). -/
def loadFirmware (l : List Byte) (n : Nat) : Option (List Byte × Nat) :=
  let im := l.take n
  let (good, bad) := (overlays l.length (l.drop n)).partition vendorOk
  if vendorOk im then some ((flashSplit im).1 ++ (good.map fun o => (flashSplit o).1).flatten, bad.length) else none
/-- The firmware trains the ring ports and marks the positions of the package's rack that hold no package (R424, 20 R388): which they are
is free. -/
def State.trainRings (s : State) (pkg : Nat) : State :=
  let rack := pkg / 64
  let empty := ((List.range 64).map (64 * rack + ·)).filter fun k => k != pkg && Config.emptyPosition k
  { s with absent := (s.absent.filter fun k => k / 64 != rack) ++ empty }
/-- The fields that the firmware image loads (R424 step 4, Tables 22.4 and 22.7); the host grants the window of a0 and a1. -/
def State.bringUp (s : State) (pkg : Nat) (p : Pkg) (a : Args) : State :=
  let b : Bank := { thr := BitVec.ofNat 16 (p.field 0x400) }
  ((List.range 4096).foldl (fun t i => t.setBank pkg i b)
    (s.setPkgAt pkg { p with busy := false, up := true, pwrLim := BitVec.ofNat 16 (p.field 0x300), granted := [(a.a0.toNat, a.a1.toNat)] })).trainRings pkg
/-- The identity key (R424 step 2): 4,096 cells in their power-up state, which is free, corrected with the helper data of the flash. -/
def State.newKey (s : State) (pkg : Nat) : BitVec 256 := Config.identityKey (Config.freeNat s.fresh % 2 ^ 4096) (Config.helperData pkg)
/-- PACKAGE_RESET (R424): `ev.data` is what the configuration flash holds (DESIGN CHOICE, log entry 77); each overlay that fails is logged
(R431). -/
def execPackageReset (s : State) : Out :=
  let pkg := s.myPkg
  let p : Pkg := { key := s.newKey pkg }
  let s1 := { s.wipe pkg with fresh := s.fresh + 1 }
  match loadFirmware s.ev.data s.ev.args.a2.toNat with
  | some (fw, bad) => .next ((List.range bad).foldl (fun t _ => t.logError pkg (errRec 6 0 0 0 0 0)) (s1.bringUp pkg { p with firmware := fw } s.ev.args))
  | none => .next (s1.setPkgAt pkg { p with status := 1 })

/-! Adaptive ECC (R430) and the governor (R432). -/

/-- More corrected errors of a bank: their count, and whether it has exceeded THR. -/
def Bank.count (b : Bank) (n : Nat) : Bank :=
  let c := BitVec.ofNat 16 (sat (b.cnt.toNat + n) 16)
  { b with cnt := c, due := b.due || (b.thr.toNat < c.toNat && !b.strong) }
/-- Bits of a block change under an error that the code lets through: the stored CRC is that of the data before (22 R429). -/
def State.flipBits (s : State) (pkg pa mask : Nat) : State :=
  let old := (s.crcBad pkg pa).getD (BitVec.ofNat 32 (s.crcNow pkg pa))
  let t := { s with mem := memSetBits s.mem (bitKey pkg (pa / 128 * 128)) 128 (Nat.xor (memBits s.mem (bitKey pkg (pa / 128 * 128)) 128) (mask % 2 ^ 64 * 2 ^ (pa % 128))) }
  { t with crcs := tset none t.crcs (crcKey pkg pa) (if t.crcNow pkg pa = old.toNat then none else some old) }
/-- ECC_INTERVAL of bank `ev.id`: with `ev.up` the interval ends and the count restarts, while a count that has exceeded THR stays due;
else the errors of nature in it: `ev.el` more corrected ones, and where a0 is 1 an uncorrectable read at physical bit address a1, which is
delivered as poison; where a0 is 2, bits of the block at a1 that change unseen, those of a2 from a1 on (DEDUCED, log entry 78). -/
def execEccInterval (s : State) : Out :=
  let pkg := s.myPkg
  let n := s.ev.id
  let b := s.bankAt pkg n
  let a := s.ev.args
  if 4096 ≤ n then .next s
  else if s.ev.up then .next (s.setBank pkg n { b with cnt := 0 })
  else
    let b1 := b.count s.ev.el
    let pa := a.a1.toNat
    let mine : Bool := match place pa with | .dram _ _ => bankOf pa == n | _ => false
    if a.a0 = 1 ∧ mine then
      .next (((s.setBank pkg n { b1 with ue := BitVec.ofNat 16 (sat (b.ue.toNat + 1) 16) }).setPsn pkg pa true).logError pkg (errRec 2 (n / 512) 0 0 n pa))
    else if a.a0 = 2 ∧ mine then .next ((s.setBank pkg n b1).flipBits pkg pa a.a2.toNat)
    else .next (s.setBank pkg n b1)

/-- A page of an image moves: its bits with their poison, CRC and roles, its flumes, the leaves that map it. -/
def State.movePage (s : State) (pkg va old new : Nat) : State :=
  let s1 := s.zeroRange pkg new (2 ^ 19)
  let s2 := { s1 with mem := memSetBits s1.mem (bitKey pkg new) (2 ^ 19) (memBits s.mem (bitKey pkg old) (2 ^ 19)) }
  let s3 := (List.range 4096).foldl (fun (t : State) i => { t with psn := tset false t.psn (granKey pkg (new + 128 * i)) (tget false s.psn (granKey pkg (old + 128 * i))) }) s2
  let s4 := (List.range 256).foldl (fun (t : State) i => { t with crcs := tset none t.crcs (crcKey pkg new + i) (tget none s.crcs (crcKey pkg old + i)) }) s3
  let s5 := (List.range 16).foldl (fun t i => (t.sysFlip pkg (fun _ => s.roleAt pkg (old + 32768 * i)) [new + 32768 * i]).sysFlip pkg (fun _ => {}) [old + 32768 * i]) s4
  let fl (f : Flume) : Flume := if old ≤ f.base ∧ f.base < old + 2 ^ 19 then { f with base := new + (f.base - old) } else f
  let inOld (e : Nat × Flume) : Bool := e.1 / 2 ^ 55 == pkg && old ≤ e.2.base && e.2.base < old + 2 ^ 19
  let s6 := (s5.flumes.filter inOld).foldl (fun (t : State) e =>
    { t with flumes := tset {} (tdel t.flumes e.1) (granKey pkg (fl e.2).base) (fl e.2) }) s5
  let p := s6.pkgAt pkg
  let mine (i : Image) : Bool := i.pages.contains (va, old)
  let s7 := s6.setPkgAt pkg { p with images := p.images.map fun i => { i with pages := i.pages.map fun q => if q = (va, old) then (va, new) else q } }
  let hs := (p.images.filter mine).map (·.handle)
  (s7.ctxs.filter fun e => e.1 / 16 == pkg && e.2.live && hs.contains e.2.image).foldl (fun t e =>
    let t1 := (t.mapPage e.1 5 0 e.2.root va new).getD t
    t1.removeTlb { till := 0, range := some (va, 2 ^ 19), scope := 4 } (coreKey pkg 0) (BitVec.ofNat 4 e.1)) s7
/-- A running copy of a core may read or write physical bits of a package. -/
def State.copyTouches (s : State) (ck : Nat) (x : Copy) (pkg : Nat) (l : List (Nat × Nat)) : Bool :=
  let t := { s with cur := ck }
  x.started && (t.copyReads x ++ t.copyWrites x).any fun w => (t.reach ck (.copy x.id) w).any fun q => q.pkg == pkg && spansMeet [(q.lo, q.hi)] l
/-- Nothing on its way names a physical page: no write to memory, no recast, no announced write, no running copy that reads or writes it
(its translations serve it to its end, 15 R344), no command. -/
def State.pageIdle (s : State) (pkg pa : Nat) : Bool :=
  !(s.cores.any fun e => e.2.a.copies.any fun x => s.copyTouches e.1 x pkg [(pa, pa + 2 ^ 19)]) &&
  !(s.msgs.any fun e => match e.2 with | some m => m.kind == .memWrite && m.dpkg == pkg && m.parts.any (fun p => pa ≤ p.at_ && p.at_ < pa + 2 ^ 19) | none => false) &&
  !(s.cores.any fun e => pkgOf e.1 == pkg && e.2.recast.any fun r => r.grans.any fun g => pa ≤ g && g < pa + 2 ^ 19) &&
  s.sysFree pkg ((List.range 16).map fun i => pa + 32768 * i)
/-- The pages mapped in a bank's top 1/16. -/
def State.topPages (s : State) (pkg n : Nat) : List (Nat × Nat) :=
  (((s.pkgAt pkg).images.map (·.pages)).flatten).filter fun p =>
    (List.range 16).any fun i => let pa := p.2 + 32768 * i; inTop pa && bankOf pa == n
/-- BANK_REENCODE of bank `ev.id` (R430 steps 1 and 2): its count has exceeded THR; the pages in its top move and the
scrubber begins. Where a page finds no room the bank stays due, and the firmware tries again (DESIGN CHOICE, log entry 78). -/
def execBankReencode (s : State) : Out :=
  let pkg := s.myPkg
  let n := s.ev.id
  let b := s.bankAt pkg n
  let l := s.topPages pkg n
  if 4096 ≤ n || b.strong || b.busy || !b.due || !(l.all fun p => s.pageIdle pkg p.2) then .next s else
  let s1 := s.setBank pkg n { b with busy := true, due := false }
  match l.foldl (fun o p => o.bind fun (t : State) => (t.room pkg (t.inUse pkg) false (2 ^ 19)).map fun new => t.movePage pkg p.1 p.2 new) (some s1) with
  | some t => .next t
  | none => .next s
/-- REENCODE_COMPLETE of bank `ev.id` (R430 step 3). -/
def execReencodeComplete (s : State) : Out :=
  let pkg := s.myPkg
  let n := s.ev.id
  let b := s.bankAt pkg n
  if 4096 ≤ n || !b.busy then .next s
  else .next ((s.setBank pkg n { b with busy := false, strong := true }).logError pkg (errRec 1 (n / 512) 0 0 n 0))

/-- The highest level from n down whose estimate fits the limit; 1 where none does. -/
def fitLevel (est : Nat → Nat) (lim : Nat) : Nat → Nat
  | 0 => 1
  | n + 1 => if est (n + 1) ≤ lim then n + 1 else fitLevel est lim n
/-- What every engine of a package has issued so far: per core V slots, loads, copies and
commands, and the busy cycles of the planes; then messages. -/
def State.issueCounts (s : State) (pkg : Nat) : List Nat :=
  ((s.cores.filter fun e => pkgOf e.1 == pkg).map fun e => [e.2.v.slot, e.2.stamp, e.2.m.busyT, e.2.m.busyF]).flatten ++ [s.ids]
/-- POWER_ESTIMATE (R432): the estimates of the levels are free values of the issue counts since the last (DESIGN CHOICE, log entry 80). -/
def execPowerEstimate (s : State) : Out :=
  let pkg := s.myPkg
  let p := s.pkgAt pkg
  let now := s.issueCounts pkg
  let est (n : Nat) : Nat := Config.powerEstimate s.fresh ((now.zipIdx).map fun e => e.1 - p.pwrSeen.getD e.2 0) n
  let p1 := { p with
    pwrAvg := BitVec.ofNat 16 (est 0), pwrThr := BitVec.ofNat 5 (fitLevel est p.pwrLim.toNat 16), pwrSeen := now,
    pwrCnt := if p.pwrThr.toNat < 16 then p.pwrCnt + 3000 else p.pwrCnt }
  .next { s.setPkgAt pkg p1 with fresh := s.fresh + 1 }

end Sys2Proof.Machine
end

