-- ==== Sys2Proof/Machine/MCmd.lean ====
section
/-!
DEFINITION. What the M commands compute, their start and their completion, and the self-tests of the planes
(11 R243, R255 to R273).
-/
namespace Sys2Proof.Machine
open Sys2Proof

/-! The generator (R259). -/

/-- One step of x^32 + x^22 + x^2 + x + 1: the next state and the bit that comes out. -/
def lfsr (s : Nat) : Nat × Nat :=
  let b := (nbits s 31 1 + nbits s 21 1 + nbits s 1 1 + nbits s 0 1) % 2
  ((s * 2 + b) % 2 ^ 32, b)
def lfsrN : Nat → Nat → Nat
  | 0, s => s
  | n + 1, s => lfsrN n (lfsr s).1
/-- The trits that follow a state. -/
def tritsFrom : Nat → Nat → List Int
  | 0, _ => []
  | n + 1, s =>
    let (s1, u) := lfsr s
    let (s2, v) := lfsr s1
    (if u = 0 ∧ v = 1 then 1 else if u = 1 ∧ v = 0 then -1 else 0) :: tritsFrom n s2
/-- A list cut into rows of 128. -/
def rows128 : Nat → List Int → List (List Int)
  | 0, _ => []
  | n + 1, l => l.take 128 :: rows128 n (l.drop 128)
/-- Basis k of a seed: 64 rows of 128 trits. -/
def expand (seed k : Nat) : List (List Int) :=
  if seed = 0 then List.replicate 64 (List.replicate 128 0) else
  let s0 := Nat.xor seed (k * 0x9E3779B9 % 2 ^ 32)
  rows128 64 (tritsFrom 8192 (lfsrN 32 (if s0 = 0 then 1 else s0)))

/-! Data of the own aperture. -/

/-- An element and whether a granule of it is poisoned. -/
def State.apElem (s : State) (o w : Nat) : Nat × Bool :=
  let ps := apPieces s.cur o w
  (s.rdPieces s.myPkg ps, s.psnPieces s.myPkg ps)
/-- `n` elements side by side. -/
def State.apElems (s : State) (o w n : Nat) : List (Nat × Bool) := (List.range n).map fun i => s.apElem (o + i * w) w
/-- Writes elements side by side, each with its mark; one that a role of the moment refuses changes nothing (13 R289).
Elements that together cover a granule clear no poison bit of it (DESIGN CHOICE, log entry 96). -/
def State.putElems (s : State) (o w : Nat) : List (Nat × Bool) → State
  | [] => s
  | (v, p) :: l => (if s.rolesOk o w .wr then s.wrPieces s.myPkg (apPieces s.cur o w) v p else s).putElems (o + w) w l
/-- A lane overwritten by a code, with its mark, where the role of the moment admits it (R255, 13 R289). -/
def State.setLane (s : State) (o w l : Nat) (psn : Bool) : State :=
  if s.rolesOk o w .wr then (s.wrLane s.cur o w l).setLanePsn s.cur o w psn else s
/-- An add into a lane, where the role of the moment admits it (13 R289): the lane's new code, the flags, and the addend's mark. -/
def State.joinLane (s : State) (o w : Nat) (x : Nat × Fl) (psn : Bool) : State × Fl :=
  if s.laneAddOk s.cur s.job.rcd.ctx o w then
    let t := s.wrLane s.cur o w x.1
    (if psn then t.setLanePsn s.cur o w true else t, x.2)
  else (s, 0)
/-- A whole lane overwritten by a value (R255, R261). -/
def State.putLane (s : State) (o mode p : Nat) (x : Val) (psn : Bool) : State × Fl :=
  let (c, f) := roundLane mode p x
  (s.setLane o (laneWide mode) c psn, f)
/-- A value, exact or from an operand, joins a lane (05 R119). -/
def State.addTo (s : State) (o : Nat) (x : Nat → Nat → Val × Fl) (psn : Bool) : State × Fl :=
  let e := s.apRole s.cur o
  let (y, f0) := x e.mode.toNat e.point.toNat
  let w := laneWide e.mode.toNat
  let (l, f1) := accAdd e.mode.toNat e.point.toNat (s.rdLane s.cur o w) y
  s.joinLane o w (l, f0 ||| f1) psn
/-- Adds into lanes, or overwrites them, one stride apart. -/
def State.toLanes (s : State) (d : LaneDst) (o : Nat) : List (Val × Bool) → State × Fl
  | [] => (s, 0)
  | (x, b) :: l =>
    let (s1, f) := if d.add then s.addTo o (fun _ _ => (x, 0)) b else s.putLane o d.mode 0 x b
    let (s2, g) := s1.toLanes d (o + s.laneW d.add d.mode o) l
    (s2, f ||| g)

/-! The ternary plane (R261). -/

/-- Column sums of a matrix of trits under a row of values. -/
def colSums (m : List (List Int)) (x : List Int) : List Int :=
  (m.zip x).foldl (fun a r => (a.zip r.1).map fun p => p.1 + p.2 * r.2) (List.replicate 128 0)
/-- A trit code; 0b11 reads as 0 (05 R107). -/
def tritOf (c : Nat) : Int := if c % 4 = 1 then 1 else if c % 4 = 2 then -1 else 0
/-- The bytes of a window of a row. -/
def windowOf (r : Row) (w : Nat) : List Int := (elemsN 8 64 (r.bits.toNat / 2 ^ (512 * w))).map fun b => nsext b 8
/-- The products of one row with a basis buffer: sums in FP32, with flags (05 R126). -/
def seedProducts (b : Basis) (ms : List (List (List Int))) (x : List Int) : List (Val × Fl) :=
  let sums := ms.map fun m => colSums m x
  (List.range 128).map fun n =>
    let terms := (sums.zip (List.range b.kp)).map fun p =>
      let (c, f) := readTag b.cfmt.toNat ((b.coef.getD (128 * p.2 + n) 0).toNat)
      let (z, g) := c.mul (Val.ofInt (p.1.getD n 0))
      (z, f ||| g)
    let (y, fy) := seqSum fp32 0 (terms.map (·.1))
    (y, terms.foldl (fun a t => a ||| t.2) fy)
/-- The rows of a command into its lanes: `prod` gives the products of a row, with flags and poison of each column. -/
def State.ternRows (s : State) (d : LaneDst) (f : MF) (r : MRun) (prod : List Int → List (Val × Fl × Bool)) : Nat → State × Fl
  | 0 => (s, 0)
  | n + 1 =>
    let (s1, f1) := s.ternRows d f r prod n
    let row := s1.me.row (MF.e0 f + n)
    let (rs, f2) := fp32.read row.scale.toNat
    let ys := (prod (windowOf row r.win)).map fun y => let (z, g) := y.1.mul rs; (z, g ||| y.2.1, y.2.2 || row.psn)
    let (s2, f3) := s1.toLanes d (r.ed + n * r.dd.pitch.toNat) (ys.map fun y => (y.1, y.2.2))
    (s2, ys.foldl (fun a y => a ||| y.2.1) (f1 ||| f2 ||| f3))
def State.mternWith (s : State) (f : MF) (r : MRun) (prod : List Int → List (Val × Fl × Bool)) : State × Fl :=
  s.ternRows (s.ternDst f r) f r prod (MF.nr f)
/-- The products with a tile of trits, the poison of each column known. -/
def tileProducts (m : List (List Int)) (psn : List Bool) (x : List Int) : List (Val × Fl × Bool) :=
  (colSums m x).zip psn |>.map fun p => (Val.ofInt p.1, 0, p.2)
/-- The effect of `mtern.seed`. -/
def State.doTernSeed (s : State) (f : MF) (r : MRun) : State × Fl :=
  let b := s.me.basis r.buf
  let ms := (List.range b.kp).map fun k => expand b.seed.toNat k
  s.mternWith f r fun x => (seedProducts b ms x).map fun y => (y.1, y.2, b.psn)
/-- The effect of `mtern.cim`. -/
def State.doTernCim (s : State) (f : MF) (r : MRun) : State × Fl :=
  let m := s.me.mac (f.q 35 4)
  let t := rows128 64 ((elemsN 2 8192 m.bits.toNat).map tritOf)
  s.mternWith f r (tileProducts t (List.replicate 128 m.psn))
/-- The effect of `mtern.tile`. -/
def State.doTernTile (s : State) (f : MF) (r : MRun) : State × Fl :=
  let rows := (tileRows r).map fun q => s.apElems q.1 2 128
  let psn := rows.foldl (fun a l => (a.zip l).map fun p => p.1 || p.2.2) (List.replicate 128 false)
  let ti := rows.any fun l => l.any fun e => e.1 == 3
  let (t, fl) := s.mternWith f r (tileProducts (rows.map fun l => l.map fun e => tritOf e.1) psn)
  (t, fl ||| flagIf ti fTI)

/-! The FP plane (R264). -/

/-- The operand A: an element of a row in memory, or of the row buffer times its scale. -/
def State.fpRowA (s : State) (f : MF) (r : MRun) (i : Nat) : List (Val × Fl × Bool) :=
  let t := f.q 32 5
  let k := MF.fpK f
  if f.q 37 1 = 1 then
    let row := s.me.row (MF.fpE0 f + i)
    let (rs, fs) := fp32.read row.scale.toNat
    (elemsN (tagWidth t) k row.bits.toNat).map fun c =>
      let (x, g) := readTag t c
      let (z, h) := x.mul rs
      (z, fs ||| g ||| h, row.psn)
  else
    (s.apElems (r.ea + i * r.da.pitch.toNat) (tagWidth t) k).map fun e => let (x, g) := readTag t e.1; (x, g, e.2)
/-- The sum of one lane: each step is an add into it in its mode. -/
def fpSteps (mode p : Nat) : Nat → List ((Val × Fl × Bool) × (Val × Fl × Bool)) → Nat × Fl
  | l, [] => (l, 0)
  | l, (a, b) :: rest =>
    let (z, f0) := a.1.mul b.1
    let (l1, f1) := accAdd mode p l z
    let (l2, f2) := fpSteps mode p l1 rest
    (l2, a.2.1 ||| b.2.1 ||| f0 ||| f1 ||| f2)
/-- One step of a sum in a format from +0; INT40 saturates (R106). -/
def ovwSteps (mode : Nat) : Nat → List ((Val × Fl × Bool) × (Val × Fl × Bool)) → Nat × Fl
  | l, [] => (l, 0)
  | l, (a, b) :: rest =>
    let (z, f0) := a.1.mul b.1
    let (x, fx) := readLane mode 0 l
    let (y, fy) := x.add 0 z
    let (l1, f1) := roundLane mode 0 y
    let (l2, f2) := ovwSteps mode l1 rest
    (l2, a.2.1 ||| b.2.1 ||| f0 ||| fx ||| fy ||| f1 ||| f2)
/-- The effect of `mfp`. -/
def State.doFp (s : State) (f : MF) (r : MRun) : State × Fl :=
  let t := f.q 32 5
  let (mt, nt) := fpBlock t
  let d := s.fpDst f r
  let as := (List.range mt).map fun i => s.fpRowA f r i
  let bs := (fpB f r).map fun q => (s.apElems q.1 (tagWidth t) nt).map fun e => let (x, g) := readTag t e.1; (x, g, e.2)
  (List.range mt).foldl (fun acc i =>
    let o := r.ed + i * r.dd.pitch.toNat
    let lw := s.laneW d.add d.mode o
    let a := as.getD i []
    (List.range nt).foldl (fun (acc : State × Fl) n =>
      let (st, fl) := acc
      let terms := a.zip (bs.map fun b => b.getD n (.zero, 0, false))
      let psn := terms.any fun p => p.1.2.2 || p.2.2.2
      let at_ := o + lw * n
      if d.add then
        let e := st.apRole st.cur at_
        let (s1, g) := st.joinLane at_ lw (fpSteps e.mode.toNat e.point.toNat (st.rdLane st.cur at_ lw) terms) psn
        (s1, fl ||| g)
      else
        let (l, g) := ovwSteps d.mode 0 terms
        (st.setLane at_ lw l psn, fl ||| g)) acc) (s, 0)

/-! The accumulator forms (R266 to R268). -/

def State.doAccz (s : State) (f : MF) (r : MRun) : State :=
  (List.range (MF.n18 f)).foldl (fun t i => t.setLane (r.ed + 40 * i) 40 0 false) s
def State.doAccrd (s : State) (f : MF) (r : MRun) : State × Fl :=
  let mode := lmMode (f.q 32 3)
  let lw := laneWide mode
  let t := r.dd.tag.toNat
  let l := (List.range (MF.n18 f)).map fun i =>
    let o := r.ea + lw * i
    let (x, f0) := readLane mode (f.q 35 6) (s.rdLane s.cur o lw)
    let (c, f1) := roundTag t (f.q 41 3) (f.q 44 1 == 1) x
    (c, s.lanePsn s.cur o lw, f0 ||| f1)
  (s.putElems r.ed (tagWidth t) (l.map fun e => (e.1, e.2.1)), l.foldl (fun a e => a ||| e.2.2) 0)
def State.doAccwr (s : State) (f : MF) (r : MRun) : State × Fl :=
  let t := r.da.tag.toNat
  let d := s.wrDst f r
  let es := if MF.n18 f = 0 then [] else s.apElems r.ea (tagWidth t) (MF.n18 f)
  let p := f.q 36 6
  let st := s.laneW d.add d.mode r.ed
  (es.zip (List.range (MF.n18 f))).foldl (fun (acc : State × Fl) e =>
    let o := r.ed + st * e.2
    let (s1, fl) :=
      if d.add then acc.1.addTo o (fun m q => addend (addFmt t) (tagWidth t) m q e.1.1) e.1.2
      else
        let (x, g) := readTag t e.1.1
        let (s2, h) := acc.1.putLane o d.mode p x e.1.2
        (s2, g ||| h)
    (s1, acc.2 ||| fl)) (s, 0)

/-! Seed search (R269). -/

/-- One basis of a candidate: its coefficients and the remainder, with flags. W is 64 rows of 128 FP32 codes. -/
def scanBasis (fmt : Nat) (b : List (List Int)) (W : List (List Nat)) : List Nat × List (List Nat) × Fl :=
  let cols := (List.range 128).map fun n =>
    let bs := b.map fun r => r.getD n 0
    let ws := W.map fun r => fp32.read (r.getD n 0)
    let z := (bs.filter (· != 0)).length
    let terms := (ws.zip bs).map fun p => let (v, g) := p.1.1.mul (Val.ofInt p.2); (v, g ||| p.1.2)
    let (d, fd) := seqSum fp64 0 (terms.map (·.1))
    let fl := terms.foldl (fun a t => a ||| t.2) fd
    if z = 0 then (0, fl) else
    let (q, fq) := d.div (Val.ofInt z)
    let (c, fc) := roundTag fmt 0 false q
    (c, fl ||| fq ||| fc)
  let W' := (W.zip b).map fun p => (List.range 128).map fun n =>
    let (w, f0) := fp32.read (p.1.getD n 0)
    let (c, f1) := readTag fmt ((cols.getD n (0, 0)).1)
    let (y, f2) := c.mul (Val.ofInt (p.2.getD n 0))
    let (z, f3) := w.add 0 y.neg
    let (x, f4) := fp32.round 0 false z
    (x, f0 ||| f1 ||| f2 ||| f3 ||| f4)
  (cols.map (·.1), W'.map fun r => r.map (·.1),
   W'.foldl (fun a r => a ||| orFl r) (orFl cols))
/-- All bases of a candidate, from basis k on. -/
def scanCand (fmt seed : Nat) : Nat → Nat → List (List Nat) → List Nat × List (List Nat) × Fl
  | 0, _, W => ([], W, 0)
  | n + 1, k, W =>
    let (c, W1, f) := scanBasis fmt (expand seed k) W
    let (cs, W2, g) := scanCand fmt seed n (k + 1) W1
    (c ++ cs, W2, f ||| g)
/-- The error of a remainder. -/
def scanError (W : List (List Nat)) : Val × Fl :=
  let xs := (W.foldl (fun l r => l ++ r) []).map fun c => let v := (fp32.read c).1; (v.mul v).1
  seqSum fp64 0 xs
/-- A candidate's error is less: NaN ranks after every number, ties keep the earlier (R269). -/
def errLess (a b : Val) : Bool := if a.isNan then false else if b.isNan then true else a.lt b
/-- The effect of `mscan`. -/
def State.doScan (s : State) (f : MkF) (r : MRun) : State × Fl :=
  let k := scanOf f
  let fmt := r.dd.tag.toNat
  let tgt := (scanTarget r).map fun q => s.apElems q.1 32 128
  let W := tgt.map fun l => l.map (·.1)
  let psn := tgt.any fun l => l.any (·.2)
  let best := (List.range k.count).foldl (fun (b : Option (Nat × Val × List Nat × List (List Nat) × Fl)) i =>
    let seed := (k.first + i * (2 * k.st + 1)) % 2 ^ 32
    let (cs, W1, fl) := scanCand fmt seed k.kp 0 W
    let (e, fe) := scanError W1
    match b with
    | none => some (seed, e, cs, W1, fl ||| fe)
    | some (_, e0, _, _, _) => if errLess e e0 then some (seed, e, cs, W1, fl ||| fe) else b) none
  match best with
  | none => (s, 0)
  | some (seed, _, cs, W1, fl) =>
    let hdr := seed + (k.kp - 1) * 2 ^ 32 + fmt * 2 ^ 35
    let s1 := s.putElems r.ed 64 [(hdr, psn)]
    let s2 := s1.putElems (r.ed + 64) 16 (cs.map fun c => (c, psn))
    let s3 := if k.sub then (((scanTarget r).zip W1).foldl (fun t q => t.putElems q.1.1 32 (q.2.map fun c => (c, psn))) s2) else s2
    (s3, fl)

/-! Rows, seeded tiles, macros (R257, R260, R263). -/

def State.doRow (s : State) (f : MF) (r : MRun) : State :=
  (List.range r.da.nrows).foldl (fun t i =>
    let (v, p) := s.apElem (r.ea + i * r.da.pitch.toNat) 2048
    let (sc, ps) := if f.q 32 1 = 1 then s.apElem (r.eb + 32 * i) 32 else (0x3F800000, false)
    let row : Row := { bits := BitVec.ofNat 2048 v, tag := r.da.tag, scale := BitVec.ofNat 32 sc, psn := p || ps }
    t.updMe fun c => { c with m := { c.m with rows := tset {} c.m.rows (MF.e0 f + i) row } }) s
/-- The effect of `mseed` (R260), from the record that it has read. -/
def State.doSeed (s : State) (r : MRun) : State :=
  let (_, cf, kp, seed) := seedHeader r.seen
  let b : Basis := { kp := kp, seed := BitVec.ofNat 32 seed, cfmt := BitVec.ofNat 5 cf, psn := r.seenPsn,
                     coef := (elemsN 16 (128 * kp) (r.seen / 2 ^ 64)).map fun c => BitVec.ofNat 16 c }
  s.updMe fun c => { c with m := { c.m with bases := tset {} c.m.bases r.buf b } }
def Core.setMac (c : Core) (m : Nat) (x : Macro) : Core := { c with m := { c.m with macros := tset {} c.m.macros m x } }
/-- The effect of `mcimld.mem`: a code 0b11 is loaded as 0. -/
def State.doCimMem (s : State) (f : MF) (r : MRun) : State × Fl :=
  let codes := elemsN 2 8192 r.seen
  (s.updMe fun c => c.setMac (f.i 0 4)
    { bits := BitVec.ofNat 16384 (packE 2 (codes.map fun c => if c = 3 then 0 else c)), valid := true, key := BitVec.ofNat 16 (f.i 4 16), psn := r.seenPsn },
   flagIf (codes.any (· == 3)) fTI)
/-- The effect of `mcimld.basis`. -/
def State.doCimBasis (s : State) (f : MF) (r : MRun) : State :=
  let b := s.me.basis r.buf
  let codes := ((expand b.seed.toNat (f.q 34 3)).foldl (· ++ ·) []).map fun t => if t = 1 then 1 else if t = -1 then 2 else 0
  s.updMe fun c => c.setMac (f.i 0 4) { bits := BitVec.ofNat 16384 (packE 2 codes), valid := true, key := BitVec.ofNat 16 (f.i 4 16), psn := b.psn }
/-- The effect of `mbase` (R256). -/
def Desc.put (d : Desc) (f : MF) : Desc :=
  match f.q 32 4 with
  | 0 => { d with base := f.mimm.zeroExtend 64 }
  | 1 => { d with base := f.mimm ++ d.base.extractLsb' 0 32 }
  | 2 => { d with tag := BitVec.ofNat 5 (f.q 36 5), rows := f.mimm.extractLsb' 0 16 }
  | 3 => { d with pitch := f.mimm }
  | n => { d with stride := tset 0 d.stride (n - 4) f.mimm }

/-! Gauge tiles and self-tests (R270, R271). -/

/-- The causes of `mchk` at its completion. -/
def State.mchkTest (s : State) (f : MkF) : Option Trap :=
  let c := f.const.toNat
  let n := nbits c 50 14 + 1
  let lane := nbits c 32 18
  if laneCount < lane + n then some { cause := .ldstScope, info := BitVec.ofNat 64 (selfVa + laneOff lane) }
  else if (List.range n).any fun i => s.lanePsn s.cur (laneOff (lane + i)) 40 then some { cause := .poison }
  else
    let x := crc32c ((List.range n).foldl (fun l i => l ++ elemsN 8 5 (s.rdLane s.cur (laneOff (lane + i)) 40)) [])
    if x = nbits c 0 32 then none else some { cause := .gaugeFail, info := BitVec.ofNat 64 x }

/-- MSTAT bits 47:40 (DEDUCED, log entry 53). -/
def MEng.fences (m : MEng) : Nat := m.tfence.toNat * 16 + m.ffence.toNat
/-- A quarter of a plane is fenced. -/
def MEng.fenceOff (m : MEng) (pl : MUnit) (q : Nat) : MEng :=
  if pl = .tern then { m with tfence := m.tfence ||| BitVec.ofNat 4 (2 ^ q) } else { m with ffence := m.ffence ||| BitVec.ofNat 4 (2 ^ q) }
/-- The busy time of a plane starts anew. -/
def MEng.restart (m : MEng) (pl : MUnit) : MEng := if pl = .tern then { m with busyT := 0 } else { m with busyF := 0 }
/-- Tests one quarter of a plane: a failure, which nothing but the free value decides, fences it and is reported (R271). -/
def State.testQuarter (s : State) (pl : MUnit) (q : Nat) : State :=
  let s1 := { s with fresh := s.fresh + 1 }
  if Config.selfTestFails s.fresh then
    let s2 := s1.updMe fun c => { c with m := c.m.fenceOff pl q }
    let d := s2.me.m.fences
    (s2.logError s2.myPkg (errRec 5 (numOf s2.cur / 96) (numOf s2.cur) s2.job.rcd.ctx.toNat d 0)).report s2.myCtx (numOf s2.cur) 0 4 0
  else s1
/-- Tests the quarters of a mask, all of them for 0. -/
def State.testPlane (s : State) (pl : MUnit) (qm : Nat) : State :=
  ((List.range 4).filter fun q => qm == 0 || qm.testBit q).foldl (fun t q => t.testQuarter pl q) s
/-- INJECTED_SELF_TEST (R271): before the next command of a plane after INTERVAL busy cycles. -/
def execInjectedSelfTest (s : State) : Out :=
  let pl : MUnit := match s.ev.pl with | .ternary => .tern | .fp => .fp
  let c := s.me
  if c.job.isSome && !c.dead && c.m.testDue pl && !(c.m.run.any fun r => r.units.contains pl) then
    .next ((s.testPlane pl 0).updMe fun c => { c with m := c.m.restart pl })
  else .next s

/-- The busy time of a plane for a command (Table 11.2), with fenced quarters (R271). -/
def fencedTime (t : Nat) (fence : BitVec 4) : Nat :=
  let k := 4 - (BitVec.toNat fence % 2 + fence.toNat / 2 % 2 + fence.toNat / 4 % 2 + fence.toNat / 8)
  if k = 0 then t else (4 * t + k - 1) / k
/-- The busy cycles that a command adds to its plane (R271, Table 11.2); those of an `mtest` do not count towards INTERVAL (DESIGN CHOICE,
log entry 110). -/
def MEng.busy (m : MEng) (r : MRun) : MEng :=
  let tern (t : Nat) : MEng := { m with busyT := m.busyT + fencedTime t m.tfence }
  let fp (t : Nat) : MEng := { m with busyF := m.busyF + fencedTime t m.ffence }
  match r.ent.instr with
  | .mternSeed f => tern (MF.nr f * (tget {} m.bases r.buf).kp + 12)
  | .mternCim f | .mternTile f => tern (MF.nr f + 12)
  | .mcimldMem _ | .mcimldBasis _ => tern 16
  | .mfp f => fp (MF.fpK f + 16)
  | .mscan f => fp ((scanOf f).count * (64 + 128 * (scanOf f).kp))
  | _ => m

/-! Start and completion. -/

/-- A command signals its semaphore by its upper half (R243). -/
def Core.mSignal (c : Core) (h : MHead) (now : Nat) : Core := if h.scnt = 0 then c else c.signal h.sid.toNat h.scnt.toNat now (c.seenBy 3)
/-- Its signal can still be made in the cycle (14 R330). -/
def Core.mMaySignal (c : Core) (h : MHead) (now : Nat) : Bool := h.scnt == 0 || c.semMay h.sid.toNat 2 now
/-- The semaphore of the head holds its count, nothing of an earlier stage of the cycle is still to come to it, and a signal made at
the start can be made (R242, 14 R330). -/
def State.mSemOk (s : State) (i : Instr) (h : MHead) : Bool :=
  (h.wcnt == 0 || (h.wcnt.toNat ≤ s.me.semAt h.wid.toNat && !s.semEarlier [.c, .v] h.wid.toNat && s.me.semMay h.wid.toNat 5 s.now)) &&
  (match i with | .msem _ | .mdrain _ | .mdrainRdv _ => s.me.mMaySignal h s.now | _ => true)
/-- A command runs on, with what it has read. -/
def State.mRunOn (s : State) (r : MRun) : State :=
  match s.mSrc r with
  | .ok l => (s.drawn l.pieces).updMe fun c => { c with m := { c.m with run := c.m.run ++ [s.mSeen r l] } }
  | .error _ => s.updMe fun c => { c with m := { c.m with run := c.m.run ++ [r] } }
/-- The start of a command: it takes its count, leaves the queue and, where it runs on, is held as started. -/
def State.mStart (s : State) (r : MRun) (h : MHead) : State :=
  let s1 := s.updMe fun c => { (if h.wcnt = 0 then c else c.takeSem h.wid.toNat h.wcnt.toNat 5 s.now) with m := { c.m with queue := c.m.queue.drop 1 } }
  match r.ent.instr with
  | .msem _ | .mdrain _ => s1.updMe fun c => c.mSignal h s.now
  | .mdrainRdv f =>
    let s2 := s1.updMe fun c => c.mSignal h s.now
    let id : BitVec 5 := BitVec.ofNat 5 (f.q 33 5)
    let x := s2.ctl .m
    if id = 0 then s2.setCtl .m { x with ended := true, wait := none, rdv := none }
    else s2.setCtl .m { x with rdv := some id, rdvAt := s2.now, wait := some (.after x.wait none .rdv s2.now s2.me.stamp) }
  | .mbase f =>
    s1.updMe fun c => { c with m := { c.m with d := tset {} c.m.d f.h.dd.toNat ((c.desc f.h.dd).put f), run := c.m.run ++ [r] } }
  | _ => s1.mRunOn r

/-- COMMAND_START (R242, R254) (DESIGN CHOICE, log entry 8). -/
def execCommandStart (s : State) : Out :=
  let c := s.me
  if !(c.canIssue .m s.now) then .next s else
  match c.m.queue with
  | [] => .next s
  | e0 :: _ =>
    match mHead e0.instr with
    | none => .next s
    | some h =>
      let s1 := s.setMe (c.takeFoot e0 h)
      match s1.me.m.queue with
      | [] => .next s1
      | e :: _ =>
        if !(s1.me.mReady e h && s1.mSemOk e.instr h) then .next s1
        else
          let r := s1.me.mRun e h
          match s1.mTests r with
          | .ok _ => .next (s1.mStart r h)
          | .error (.walk va) => .next (s1.askWalk s1.cur (.stream .m) va)
          | .error (.trap t) => .next (s1.mTrap e t)
          | .error (.wait _) => .next s1

/-- What a command does by its completion, and its flags. -/
def State.mEffect (s : State) (r : MRun) : State × Fl :=
  match r.ent.instr with
  | .mrow f => (s.doRow f r, 0)
  | .mseed _ => (s.doSeed r, 0)
  | .mternSeed f => s.doTernSeed f r
  | .mternCim f => s.doTernCim f r
  | .mternTile f => s.doTernTile f r
  | .mcimldMem f => s.doCimMem f r
  | .mcimldBasis f => (s.doCimBasis f r, 0)
  | .mfp f => s.doFp f r
  | .maccz f => (s.doAccz f r, 0)
  | .maccrd f => s.doAccrd f r
  | .maccwr f => s.doAccwr f r
  | .mscan f => s.doScan f r
  | .mtest f => ((testPlanes f).foldl (fun t p => t.testPlane p (f.q 34 4)) s, 0)
  | _ => (s, 0)
/-- A command leaves the engine. -/
def Core.mLeave (c : Core) (r : MRun) : Core :=
  { c.dropFoot r.ent.id with m := { c.m.busy r with run := c.m.run.filter fun x => x.ent.id != r.ent.id } }
/-- No older command runs on a unit of the command. -/
def MEng.oldest (m : MEng) (r : MRun) : Bool :=
  !(m.run.any fun x => x.ent.id < r.ent.id && meet x.units r.units)
/-- An `mseed` has read its record: it goes on to the generator, which an older one may still hold (R240) (DEDUCED, log entry 87). -/
def MEng.toGen (m : MEng) (r : MRun) : MEng :=
  if m.run.any fun x => x.units.contains .gen then m
  else { m with run := m.run.map fun x => if x.ent.id = r.ent.id then { x with reading := false } else x }
/-- COMMAND_COMPLETE (R243): the command of the event performs its effect; `mchk` may trap (R270). Of an `mseed` the first such event
ends the read of the record, the second the expansion. -/
def execCommandComplete (s : State) : Out :=
  let c := s.me
  match c.m.run.find? fun r => r.ent.id == s.ev.id with
  | none => .next s
  | some r =>
    if c.dead || c.job.isNone || !(c.m.oldest r) || c.cancelDue s.now then .next s else
    if r.reading then .next (s.updMe fun c => { c with m := c.m.toGen r }) else
    match mHead r.ent.instr with
    | none => .next s
    | some h =>
      if !c.mMaySignal h s.now then .next s else
      let bad := match r.ent.instr with | .mchk f => s.mchkTest f | _ => none
      match bad with
      | some t =>
        let s1 := (s.updMe fun c => c.mLeave r).mTrap r.ent t
        if t.cause = .gaugeFail then
          .next ((s1.logError s1.myPkg (errRec 4 (numOf s.cur / 96) (numOf s.cur) s.job.rcd.ctx.toNat t.info.toNat 0)).report s.myCtx (numOf s.cur) 0 3 0)
        else .next s1
      | none =>
        let (s1, fl) := s.mEffect r
        .next ((s1.orFlags .m fl).updMe fun c => (c.mLeave r).mSignal h s.now)

end Sys2Proof.Machine
end

