-- ==== Sys2Proof/Machine/VConv.lean ====
section
/-!
DEFINITION. The V stream's conversion, quantisation, packing and tag words (09 R226 to R239).
-/
namespace Sys2Proof.Machine
open Sys2Proof

/-- The pairs of source and destination elements of part p (R228). -/
def window (src dst p : Nat) : List (Nat × Nat) :=
  let n := min (tagLanes src) (tagLanes dst)
  let s0 := if tagLanes src > tagLanes dst then p * n else 0
  let d0 := if tagLanes src > tagLanes dst then 0 else p * n
  ((List.range n).map fun e => (s0 + e, d0 + e)).filter fun x => x.2 < tagLanes dst
/-- A source element; past the end it reads as 0 (R228). -/
def elemAt (t : Nat) (x : V2048) (i : Nat) : Nat :=
  if i < tagLanes t then x.toNat / 2 ^ (tagWidth t * i) % 2 ^ tagWidth t else 0
/-- Byte k mod 8 of a scalar. -/
def byteOf (g : W64) (k : Nat) : Nat := g.toNat / 2 ^ (8 * (k % 8)) % 256
/-- A value under an SE8 scale: `up` multiplies by 2^(c - 127), else by 2^(127 - c); 0xFF is NaN (05 R123, 09 R233). -/
def scaled (c : Nat) (up : Bool) (x : Val) : Val × Fl :=
  if c = 255 then (.nan, fSC ||| fNV) else (x.scale (if up then (c : Int) - 127 else 127 - (c : Int)), 0)
/-- A value under the scale of its block (R233): the blocked side is the one with more elements. -/
def blockScaled (src dst : Nat) (g : W64) (i j : Nat) (x : Val) : Val × Fl :=
  if tagLanes src > tagLanes dst then scaled (byteOf g (i / 32)) true x else scaled (byteOf g (j / 32)) false x

def latConv (src dst : Nat) : Nat := if src = 17 ∨ dst = 17 then 6 else 4
/-- Codes and flags for elements of the destination, in the order of its elements: those named in `l` are written. -/
def placeCodes (n : Nat) (l : List (Nat × Nat)) : List Bool × List Nat :=
  let d0 := (l.head?.map (·.1)).getD 0
  let len := l.length
  (List.replicate d0 false ++ List.replicate len true ++ List.replicate (n - d0 - len) false,
   List.replicate d0 0 ++ l.map (·.2) ++ List.replicate (n - d0 - len) 0)

/-- A conversion word: `op` gives an element of the destination from one of the source (R229, R231). -/
def vConvert (f : VF) (lat : Nat) (scalar : Bool) (op : State → Nat → Nat → Nat → Nat × Fl) (s : State) : State :=
  let d := vDstOf f.qd f.vd
  vForm f.g f.pk { vs := [(VF.a f, some f.srcTag)], gs := if scalar then [VF.b f] else [], ks := VF.kNames f, ds := [d] } lat (fun s =>
    let x := (s.vSrc (VF.a f)).bits
    let acts := s.acts f.k (VF.n f)
    let ps := window f.srcTag (VF.t f) f.p
    let r := ps.map fun p => if acts.getD p.2 false then op s p.1 p.2 (elemAt f.srcTag x p.1) else (0, 0)
    let (win, codes) := placeCodes (VF.n f) ((ps.map (·.2)).zip (r.map (·.1)))
    let full := f.k == 0 && tagLanes f.srcTag ≥ VF.n f
    .ok ([outPart d f.tag ((win.zip acts).map fun b => b.1 && b.2) codes (orFl r) false full], s)) s

/-- `vcvt` (R232, R233). -/
def execVcvt (f : VF) (s : State) : Out :=
  .next (vConvert f (latConv f.srcTag (VF.t f)) (f.x 5) (fun s i j c =>
    let (x, f0) := readTag f.srcTag c
    let (y, f1) := if f.x 5 then blockScaled f.srcTag (VF.t f) (s.gSrc (VF.b f)) i j x else (x, 0)
    let (r, f2) := roundTag (VF.t f) f.rm.toNat (f.sat == 1) y
    (r, f0 ||| f1 ||| f2)) s)
/-- `vdeq` (R236). -/
def execVdeq (f : VF) (s : State) : Out :=
  .next (vConvert f (latConv f.srcTag (VF.t f)) true (fun s i j c =>
    let g := s.gSrc (VF.b f)
    let (x, f0) := readTag f.srcTag c
    let (y, f1) : Val × Fl :=
      if f.x 5 then blockScaled f.srcTag (VF.t f) g i j x
      else match (fp32.read (g.toNat / 2 ^ 32)).1 with
        | .nan => (.nan, fNV)
        | t => x.mul t
    let (r, f2) := roundTag (VF.t f) f.rm.toNat (f.sat == 1) y
    (r, f0 ||| f1 ||| f2)) s)
/-- `vpack` (R238). -/
def execVpack (f : VF) (s : State) : Out := .next (vConvert f 2 false (fun _ _ _ c => (c % 2 ^ VF.w f, 0)) s)
/-- `vunpack` (R238). -/
def execVunpack (f : VF) (s : State) : Out :=
  .next (vConvert f 2 false (fun _ _ _ c => (if f.x 6 then itrunc (nsext c (tagWidth f.srcTag)) (VF.w f) else c, 0)) s)

/-- `vscl` (R237) (DEDUCED, log entry 48). -/
def execVscl (f : VF) (s : State) : Out :=
  let d := vDstOf f.qd f.vd
  .next (vForm f.g f.pk { vs := [(VF.a f, VF.chk f)], gs := [VF.b f], ks := VF.kNames f, ds := [d] } (latConv (VF.t f) (VF.t f)) (fun s =>
    let g := s.gSrc (VF.b f)
    let x := (s.vSrc (VF.a f)).bits
    let acts := s.acts f.k (VF.n f)
    let r := (List.range (VF.n f)).map fun i =>
      if !(acts.getD i false) then (0, 0) else
      let (v, f0) := readTag (VF.t f) (elemAt (VF.t f) x i)
      let (y, f1) := if f.x 5 then scaled (byteOf g (i / 32)) true v else (v.scale g.toInt, 0)
      let (c, f2) := roundTag (VF.t f) f.rm.toNat (f.sat == 1) y
      (c, f0 ||| f1 ||| f2)
    .ok ([outPart d f.tag acts (r.map (·.1)) (orFl r) false (f.k == 0)], s)) s)

/-! Quantisation (R234, R235). -/

/-- The largest magnitude of some values: NaN if one is NaN. -/
def amaxOf (l : List Val) : Val := l.foldl (fun a x => (pairAmax a.abs x.abs).1) .zero
/-- One element under a group's scale: zero, bad, or the value times the scale. -/
def quantElem (f : VF) (amax : Val) (bad : Bool) (t : Val → Val × Fl) (c : Nat) : Nat × Fl :=
  if amax.isZero then (0, 0)
  else if bad then (nanTag (VF.t f), fNV)
  else
    let (x, f0) := readTag f.srcTag c
    let (y, f1) := t x
    let (r, f2) := roundTag (VF.t f) f.rm.toNat (f.sat == 1) y
    (r, f0 ||| f1 ||| f2)
/-- A value times t := 1 / s (R234), with the flags of both: the reciprocal of a zero sets DZ (05 Table 5.2, R113). -/
def timesRecip (s v : Val) : Val × Fl := let (y, f) := v.div s; (y, f ||| flagIf s.isZero fDZ)
/-- The blocks that the destination elements of a window meet. -/
def blocksOf (ps : List (Nat × Nat)) : List Nat := ps.foldl (fun l p => if l.contains (p.2 / 32) then l else l ++ [p.2 / 32]) []
/-- `vquant` (R234, R235): the window of vd, and the scales in g[vb]. -/
def execVquant (f : VF) (s : State) : Out :=
  let d : VDst := .v f.vd.toNat
  let gd : VDst := .g f.vb.toNat
  .next (vForm f.g f.pk { vs := [(VF.a f, some f.srcTag)], gs := [VF.b f], ds := [d] } 10 (fun s =>
    let x := (s.vSrc (VF.a f)).bits
    let g := s.gSrc (VF.b f)
    let ps := window f.srcTag (VF.t f) f.p
    let valOf (i : Nat) : Val := (readTag f.srcTag (elemAt f.srcTag x i)).1
    let (win, sc) : List (Nat × Fl) × VOut :=
      if f.x 5 then
        let grp := (blocksOf ps).map fun b => (b, se8Scale (amaxOf ((ps.filter fun p => p.2 / 32 == b).map fun p => valOf p.1)) (VF.t f),
          amaxOf ((ps.filter fun p => p.2 / 32 == b).map fun p => valOf p.1))
        let r := ps.map fun p => match grp.find? fun e => e.1 == p.2 / 32 with
          | some (_, (c, fc), am) =>
            let (q, fq) := quantElem f am (c == 255) (fun v => (v.scale (127 - (c : Int)), 0)) (elemAt f.srcTag x p.1)
            (q, fc ||| fq)
          | none => (0, 0)
        let byte (b v : Nat) : Nat := v * 2 ^ (8 * (b % 8))
        (r, { dst := gd, val := { bits := BitVec.ofNat 2048 ((grp.map fun e => byte e.1 e.2.1.1).foldl (· + ·) 0) },
              wmask := BitVec.ofNat 2048 ((grp.map fun e => byte e.1 255).foldl (· + ·) 0) })
      else
        let am := if f.x 6 then (fp32.read g.toNat).1 else amaxOf (ps.map fun p => valOf p.1)
        let (sc, fc) := fp32Scale am (VF.t f)
        let sv := (fp32.read sc).1
        let r := ps.map fun p => quantElem f am sv.isNan (timesRecip sv) (elemAt f.srcTag x p.1)
        (r.map fun e => (e.1, e.2 ||| fc), outBits gd (sc * 2 ^ 32 + (fp32.round 0 false am).1))
    let (acts, codes) := placeCodes (VF.n f) ((ps.map (·.2)).zip (win.map (·.1)))
    .ok ([outPart d f.tag acts codes (orFl win) false false, sc], s)) s)

/-! Tags (R239). -/

/-- `vtag` (R239): under a tag of the triple class bits 2,047:2,046 become 0, whatever the destination. -/
def execVtag (f : VF) (s : State) : Out :=
  let d := vDstOf f.qd f.vd
  .next (vForm f.g f.pk { vs := [(VF.a f, none)], ds := [d], carry := true } 2 (fun s =>
    let x := s.vSrc (VF.a f)
    .ok ([outCopy d { x with tag := f.tag }.tidy], s)) s)
/-- `vtagrd` (R239). -/
def execVtagrd (f : VF) (s : State) : Out :=
  let d := gDstOf f.qd f.vd
  .next (vForm f.g f.pk { vs := [(VF.a f, none)], ds := [d], carry := true } 2 (fun s =>
    let x := s.vSrc (VF.a f)
    .ok ([outBits d (x.tag.toNat + if x.psn then 256 else 0)], s)) s)

end Sys2Proof.Machine
end

