-- ==== Sys2Proof/Machine/Dispatch.lean ====
section
/-!
DEFINITION. One arm per row of the opcode table, each one call of the row's meaning.
-/
namespace Sys2Proof.Machine
open Sys2Proof

/-- What an instruction does: one arm per constructor. -/
def exec (i : Instr) (s : State) : Host.Outcome State Fault Refusal :=
  match i with
  | .add f => Sys2Proof.Machine.execAdd f s
  | .sub f => Sys2Proof.Machine.execSub f s
  | .mul f => Sys2Proof.Machine.execMul f s
  | .mulh f => Sys2Proof.Machine.execMulh f s
  | .mulhn f => Sys2Proof.Machine.execMulhn f s
  | .div f => Sys2Proof.Machine.execDiv f s
  | .divn f => Sys2Proof.Machine.execDivn f s
  | .rem f => Sys2Proof.Machine.execRem f s
  | .remn f => Sys2Proof.Machine.execRemn f s
  | .and f => Sys2Proof.Machine.execAnd f s
  | .or f => Sys2Proof.Machine.execOr f s
  | .xor f => Sys2Proof.Machine.execXor f s
  | .andn f => Sys2Proof.Machine.execAndn f s
  | .sll f => Sys2Proof.Machine.execSll f s
  | .srl f => Sys2Proof.Machine.execSrl f s
  | .sra f => Sys2Proof.Machine.execSra f s
  | .min f => Sys2Proof.Machine.execMin f s
  | .max f => Sys2Proof.Machine.execMax f s
  | .minn f => Sys2Proof.Machine.execMinn f s
  | .maxn f => Sys2Proof.Machine.execMaxn f s
  | .cmpeq f => Sys2Proof.Machine.execCmpeq f s
  | .cmplt f => Sys2Proof.Machine.execCmplt f s
  | .cmpltn f => Sys2Proof.Machine.execCmpltn f s
  | .cmple f => Sys2Proof.Machine.execCmple f s
  | .cmplen f => Sys2Proof.Machine.execCmplen f s
  | .addi f => Sys2Proof.Machine.execAddi f s
  | .andi f => Sys2Proof.Machine.execAndi f s
  | .ori f => Sys2Proof.Machine.execOri f s
  | .xori f => Sys2Proof.Machine.execXori f s
  | .slli f => Sys2Proof.Machine.execSlli f s
  | .srli f => Sys2Proof.Machine.execSrli f s
  | .srai f => Sys2Proof.Machine.execSrai f s
  | .cmpeqi f => Sys2Proof.Machine.execCmpeqi f s
  | .cmplti f => Sys2Proof.Machine.execCmplti f s
  | .lim f => Sys2Proof.Machine.execLim f s
  | .limh f => Sys2Proof.Machine.execLimh f s
  | .clz f => Sys2Proof.Machine.execClz f s
  | .ctz f => Sys2Proof.Machine.execCtz f s
  | .popc f => Sys2Proof.Machine.execPopc f s
  | .bext f => Sys2Proof.Machine.execBext f s
  | .bins f => Sys2Proof.Machine.execBins f s
  | .bset f => Sys2Proof.Machine.execBset f s
  | .bclr f => Sys2Proof.Machine.execBclr f s
  | .addx f => Sys2Proof.Machine.execAddx f s
  | .xidx f => Sys2Proof.Machine.execXidx f s
  | .alnup f => Sys2Proof.Machine.execAlnup f s
  | .br f => Sys2Proof.Machine.execBr f s
  | .brl f => Sys2Proof.Machine.execBrl f s
  | .bdec f => Sys2Proof.Machine.execBdec f s
  | .jr f => Sys2Proof.Machine.execJr f s
  | .jrl f => Sys2Proof.Machine.execJrl f s
  | .ld f => Sys2Proof.Machine.execLd f s
  | .st f => Sys2Proof.Machine.execSt f s
  | .rdv f => Sys2Proof.Machine.execRdv f s
  | .mcancel f => Sys2Proof.Machine.execMcancel f s
  | .wlpush f => Sys2Proof.Machine.execWlpush f s
  | .wlspawn f => Sys2Proof.Machine.execWlspawn f s
  | .wljoinDec f => Sys2Proof.Machine.execWljoinDec f s
  | .wljoinArm f => Sys2Proof.Machine.execWljoinArm f s
  | .wljoinAdd f => Sys2Proof.Machine.execWljoinAdd f s
  | .wlfloorGate f => Sys2Proof.Machine.execWlfloorGate f s
  | .wlfloorFresh f => Sys2Proof.Machine.execWlfloorFresh f s
  | .wlfloorFb f => Sys2Proof.Machine.execWlfloorFb f s
  | .wlyield f => Sys2Proof.Machine.execWlyield f s
  | .flinit f => Sys2Proof.Machine.execFlinit f s
  | .flclaim f => Sys2Proof.Machine.execFlclaim f s
  | .flfill f => Sys2Proof.Machine.execFlfill f s
  | .flwaitf f => Sys2Proof.Machine.execFlwaitf f s
  | .flwaitr f => Sys2Proof.Machine.execFlwaitr f s
  | .fltake f => Sys2Proof.Machine.execFltake f s
  | .flrel f => Sys2Proof.Machine.execFlrel f s
  | .mfence f => Sys2Proof.Machine.execMfence f s
  | .mjoin f => Sys2Proof.Machine.execMjoin f s
  | .weirSet f => Sys2Proof.Machine.execWeirSet f s
  | .weirArr f => Sys2Proof.Machine.execWeirArr f s
  | .weirWt f => Sys2Proof.Machine.execWeirWt f s
  | .weirSync f => Sys2Proof.Machine.execWeirSync f s
  | .recast f => Sys2Proof.Machine.execRecast f s
  | .rcwait f => Sys2Proof.Machine.execRcwait f s
  | .phmark f => Sys2Proof.Machine.execPhmark f s
  | .phcommit f => Sys2Proof.Machine.execPhcommit f s
  | .phabort f => Sys2Proof.Machine.execPhabort f s
  | .semsig f => Sys2Proof.Machine.execSemsig f s
  | .semwait f => Sys2Proof.Machine.execSemwait f s
  | .fxwin f => Sys2Proof.Machine.execFxwin f s
  | .fxallow f => Sys2Proof.Machine.execFxallow f s
  | .fxsendBlk f => Sys2Proof.Machine.execFxsendBlk f s
  | .fxsendMc f => Sys2Proof.Machine.execFxsendMc f s
  | .fxsendFaa f => Sys2Proof.Machine.execFxsendFaa f s
  | .fxarm f => Sys2Proof.Machine.execFxarm f s
  | .fxdisarm f => Sys2Proof.Machine.execFxdisarm f s
  | .fxcntRd f => Sys2Proof.Machine.execFxcntRd f s
  | .fxcntSub f => Sys2Proof.Machine.execFxcntSub f s
  | .fxcntWt f => Sys2Proof.Machine.execFxcntWt f s
  | .fxfence f => Sys2Proof.Machine.execFxfence f s
  | .nop f => Sys2Proof.Machine.execNop f s
  | .trap f => Sys2Proof.Machine.execTrap f s
  | .eret f => Sys2Proof.Machine.execEret f s
  | .sysrd f => Sys2Proof.Machine.execSysrd f s
  | .syswr f => Sys2Proof.Machine.execSyswr f s
  | .semWrite f => Sys2Proof.Machine.execSemWrite f s
  | .epcWrite f => Sys2Proof.Machine.execEpcWrite f s
  | .allowWrite f => Sys2Proof.Machine.execAllowWrite f s
  | .worklistRegisterWrite f => Sys2Proof.Machine.execWorklistRegisterWrite f s
  | .tlbinv f => Sys2Proof.Machine.execTlbinv f s
  | .tlbinvComplete => Sys2Proof.Machine.execTlbinvComplete s
  | .snaprd f => Sys2Proof.Machine.execSnaprd f s
  | .snapwr f => Sys2Proof.Machine.execSnapwr f s
  | .ctxsave f => Sys2Proof.Machine.execCtxsave f s
  | .ctxload f => Sys2Proof.Machine.execCtxload f s
  | .aadd f => Sys2Proof.Machine.execAadd f s
  | .aaddi f => Sys2Proof.Machine.execAaddi f s
  | .asub f => Sys2Proof.Machine.execAsub f s
  | .amul f => Sys2Proof.Machine.execAmul f s
  | .ashl f => Sys2Proof.Machine.execAshl f s
  | .aand f => Sys2Proof.Machine.execAand f s
  | .alim f => Sys2Proof.Machine.execAlim f s
  | .aaddx f => Sys2Proof.Machine.execAaddx f s
  | .abr f => Sys2Proof.Machine.execAbr f s
  | .abrQ7 f => Sys2Proof.Machine.execAbrQ7 f s
  | .abrQ7Likely f => Sys2Proof.Machine.execAbrQ7Likely f s
  | .abrRdv f => Sys2Proof.Machine.execAbrRdv f s
  | .abdec f => Sys2Proof.Machine.execAbdec f s
  | .ajr f => Sys2Proof.Machine.execAjr f s
  | .agen f => Sys2Proof.Machine.execAgen f s
  | .lda f => Sys2Proof.Machine.execLda f s
  | .sta f => Sys2Proof.Machine.execSta f s
  | .ldv f => Sys2Proof.Machine.execLdv f s
  | .stv f => Sys2Proof.Machine.execStv f s
  | .cp f => Sys2Proof.Machine.execCp f s
  | .cpg f => Sys2Proof.Machine.execCpg f s
  | .cps f => Sys2Proof.Machine.execCps f s
  | .cpt f => Sys2Proof.Machine.execCpt f s
  | .cpz f => Sys2Proof.Machine.execCpz f s
  | .aswz f => Sys2Proof.Machine.execAswz f s
  | .fewait f => Sys2Proof.Machine.execFewait f s
  | .feset f => Sys2Proof.Machine.execFeset f s
  | .feclr f => Sys2Proof.Machine.execFeclr f s
  | .pf f => Sys2Proof.Machine.execPf f s
  | .aflclaim f => Sys2Proof.Machine.execAflclaim f s
  | .aflfill f => Sys2Proof.Machine.execAflfill f s
  | .aflwaitf f => Sys2Proof.Machine.execAflwaitf f s
  | .aflrel f => Sys2Proof.Machine.execAflrel f s
  | .vadd f => Sys2Proof.Machine.execVadd f s
  | .vsub f => Sys2Proof.Machine.execVsub f s
  | .vmul f => Sys2Proof.Machine.execVmul f s
  | .vfma f => Sys2Proof.Machine.execVfma f s
  | .vfms f => Sys2Proof.Machine.execVfms f s
  | .vfnma f => Sys2Proof.Machine.execVfnma f s
  | .vmin f => Sys2Proof.Machine.execVmin f s
  | .vmax f => Sys2Proof.Machine.execVmax f s
  | .vabs f => Sys2Proof.Machine.execVabs f s
  | .vneg f => Sys2Proof.Machine.execVneg f s
  | .vrcp f => Sys2Proof.Machine.execVrcp f s
  | .vrsqrt f => Sys2Proof.Machine.execVrsqrt f s
  | .vsqrt f => Sys2Proof.Machine.execVsqrt f s
  | .vexp2 f => Sys2Proof.Machine.execVexp2 f s
  | .vlog2 f => Sys2Proof.Machine.execVlog2 f s
  | .vand f => Sys2Proof.Machine.execVand f s
  | .vor f => Sys2Proof.Machine.execVor f s
  | .vxor f => Sys2Proof.Machine.execVxor f s
  | .vnot f => Sys2Proof.Machine.execVnot f s
  | .vsll f => Sys2Proof.Machine.execVsll f s
  | .vsrl f => Sys2Proof.Machine.execVsrl f s
  | .vsra f => Sys2Proof.Machine.execVsra f s
  | .vaddsat f => Sys2Proof.Machine.execVaddsat f s
  | .vsubsat f => Sys2Proof.Machine.execVsubsat f s
  | .vmulhi f => Sys2Proof.Machine.execVmulhi f s
  | .vcmpeq f => Sys2Proof.Machine.execVcmpeq f s
  | .vcmplt f => Sys2Proof.Machine.execVcmplt f s
  | .vcmple f => Sys2Proof.Machine.execVcmple f s
  | .kand f => Sys2Proof.Machine.execKand f s
  | .kor f => Sys2Proof.Machine.execKor f s
  | .kxor f => Sys2Proof.Machine.execKxor f s
  | .knot f => Sys2Proof.Machine.execKnot f s
  | .kpop f => Sys2Proof.Machine.execKpop f s
  | .kfirst f => Sys2Proof.Machine.execKfirst f s
  | .vmov f => Sys2Proof.Machine.execVmov f s
  | .vbcast f => Sys2Proof.Machine.execVbcast f s
  | .vsel f => Sys2Proof.Machine.execVsel f s
  | .vperm f => Sys2Proof.Machine.execVperm f s
  | .vrot f => Sys2Proof.Machine.execVrot f s
  | .vslide f => Sys2Proof.Machine.execVslide f s
  | .vzip f => Sys2Proof.Machine.execVzip f s
  | .vunzip f => Sys2Proof.Machine.execVunzip f s
  | .vpart f => Sys2Proof.Machine.execVpart f s
  | .vcompact f => Sys2Proof.Machine.execVcompact f s
  | .vredsum f => Sys2Proof.Machine.execVredsum f s
  | .vredmax f => Sys2Proof.Machine.execVredmax f s
  | .vredmin f => Sys2Proof.Machine.execVredmin f s
  | .vredamax f => Sys2Proof.Machine.execVredamax f s
  | .vscan f => Sys2Proof.Machine.execVscan f s
  | .vld f => Sys2Proof.Machine.execVld f s
  | .vst f => Sys2Proof.Machine.execVst f s
  | .vldt f => Sys2Proof.Machine.execVldt f s
  | .vcvt f => Sys2Proof.Machine.execVcvt f s
  | .vquant f => Sys2Proof.Machine.execVquant f s
  | .vdeq f => Sys2Proof.Machine.execVdeq f s
  | .vscl f => Sys2Proof.Machine.execVscl f s
  | .vpack f => Sys2Proof.Machine.execVpack f s
  | .vunpack f => Sys2Proof.Machine.execVunpack f s
  | .vtag f => Sys2Proof.Machine.execVtag f s
  | .vtagrd f => Sys2Proof.Machine.execVtagrd f s
  | .gadd f => Sys2Proof.Machine.execGadd f s
  | .gaddi f => Sys2Proof.Machine.execGaddi f s
  | .glim f => Sys2Proof.Machine.execGlim f s
  | .gmov f => Sys2Proof.Machine.execGmov f s
  | .gbr f => Sys2Proof.Machine.execGbr f s
  | .gbrRdv f => Sys2Proof.Machine.execGbrRdv f s
  | .gbdec f => Sys2Proof.Machine.execGbdec f s
  | .vsemsig f => Sys2Proof.Machine.execVsemsig f s
  | .vsemwait f => Sys2Proof.Machine.execVsemwait f s
  | .resultLanding => Sys2Proof.Machine.execResultLanding s
  | .mbase f => Sys2Proof.Machine.execMbase f s
  | .mrow f => Sys2Proof.Machine.execMrow f s
  | .mseed f => Sys2Proof.Machine.execMseed f s
  | .mternSeed f => Sys2Proof.Machine.execMternSeed f s
  | .mternCim f => Sys2Proof.Machine.execMternCim f s
  | .mternTile f => Sys2Proof.Machine.execMternTile f s
  | .mcimldMem f => Sys2Proof.Machine.execMcimldMem f s
  | .mcimldBasis f => Sys2Proof.Machine.execMcimldBasis f s
  | .mfp f => Sys2Proof.Machine.execMfp f s
  | .maccz f => Sys2Proof.Machine.execMaccz f s
  | .maccrd f => Sys2Proof.Machine.execMaccrd f s
  | .maccwr f => Sys2Proof.Machine.execMaccwr f s
  | .mchk f => Sys2Proof.Machine.execMchk f s
  | .mscan f => Sys2Proof.Machine.execMscan f s
  | .mtest f => Sys2Proof.Machine.execMtest f s
  | .mloop f => Sys2Proof.Machine.execMloop f s
  | .msem f => Sys2Proof.Machine.execMsem f s
  | .mdrain f => Sys2Proof.Machine.execMdrain f s
  | .mdrainRdv f => Sys2Proof.Machine.execMdrainRdv f s
  | .commandStart => Sys2Proof.Machine.execCommandStart s
  | .commandComplete => Sys2Proof.Machine.execCommandComplete s
  | .mcancelAct => Sys2Proof.Machine.execMcancelAct s
  | .injectedSelfTest => Sys2Proof.Machine.execInjectedSelfTest s
  | .rendezvousResume => Sys2Proof.Machine.execRendezvousResume s
  | .queueStall => Sys2Proof.Machine.execQueueStall s
  | .feStall => Sys2Proof.Machine.execFeStall s
  | .syncStall => Sys2Proof.Machine.execSyncStall s
  | .rcStall => Sys2Proof.Machine.execRcStall s
  | .handlerEntry => Sys2Proof.Machine.execHandlerEntry s
  | .likelyResolution => Sys2Proof.Machine.execLikelyResolution s
  | .loadReturn => Sys2Proof.Machine.execLoadReturn s
  | .copyComplete => Sys2Proof.Machine.execCopyComplete s
  | .copyStop => Sys2Proof.Machine.execCopyStop s
  | .walkComplete => Sys2Proof.Machine.execWalkComplete s
  | .recastComplete => Sys2Proof.Machine.execRecastComplete s
  | .flumeHomeOperation => Sys2Proof.Machine.execFlumeHomeOperation s
  | .weirRelease => Sys2Proof.Machine.execWeirRelease s
  | .taskDispatch => Sys2Proof.Machine.execTaskDispatch s
  | .taskStart => Sys2Proof.Machine.execTaskStart s
  | .taskRetire => Sys2Proof.Machine.execTaskRetire s
  | .pushAccept => Sys2Proof.Machine.execPushAccept s
  | .floorReduction => Sys2Proof.Machine.execFloorReduction s
  | .domainFloorReduction => Sys2Proof.Machine.execDomainFloorReduction s
  | .neighbourRequest => Sys2Proof.Machine.execNeighbourRequest s
  | .recordForward => Sys2Proof.Machine.execRecordForward s
  | .inversion => Sys2Proof.Machine.execInversion s
  | .termination => Sys2Proof.Machine.execTermination s
  | .preemptRequest => Sys2Proof.Machine.execPreemptRequest s
  | .saveAreaWrite => Sys2Proof.Machine.execSaveAreaWrite s
  | .resume => Sys2Proof.Machine.execResume s
  | .contextKill => Sys2Proof.Machine.execContextKill s
  | .killed => Sys2Proof.Machine.execKilled s
  | .homeMessage => Sys2Proof.Machine.execHomeMessage s
  | .readData => Sys2Proof.Machine.execReadData s
  | .reply => Sys2Proof.Machine.execReply s
  | .memoryAcknowledgement => Sys2Proof.Machine.execMemoryAcknowledgement s
  | .slotArrival => Sys2Proof.Machine.execSlotArrival s
  | .triggerFire => Sys2Proof.Machine.execTriggerFire s
  | .launch => Sys2Proof.Machine.execLaunch s
  | .loadImage => Sys2Proof.Machine.execLoadImage s
  | .createContext => Sys2Proof.Machine.execCreateContext s
  | .queryIdentity => Sys2Proof.Machine.execQueryIdentity s
  | .queryRoleEntry => Sys2Proof.Machine.execQueryRoleEntry s
  | .queryFlumeBlock => Sys2Proof.Machine.execQueryFlumeBlock s
  | .queryGranule => Sys2Proof.Machine.execQueryGranule s
  | .queryDramBank => Sys2Proof.Machine.execQueryDramBank s
  | .resetContext => Sys2Proof.Machine.execResetContext s
  | .readErrors => Sys2Proof.Machine.execReadErrors s
  | .packageReset => Sys2Proof.Machine.execPackageReset s
  | .hostWrite => Sys2Proof.Machine.execHostWrite s
  | .hostRead => Sys2Proof.Machine.execHostRead s
  | .powerEstimate => Sys2Proof.Machine.execPowerEstimate s
  | .eccInterval => Sys2Proof.Machine.execEccInterval s
  | .bankReencode => Sys2Proof.Machine.execBankReencode s
  | .reencodeComplete => Sys2Proof.Machine.execReencodeComplete s
  | .reservedOpcode => Sys2Proof.Machine.execReservedOpcode s
  | .wordFetchFault => Sys2Proof.Machine.execWordFetchFault s
  | .linkLayerRetry => Sys2Proof.Machine.execLinkLayerRetry s
  | .badOp => Sys2Proof.Machine.execBadOp s

end Sys2Proof.Machine
end

