-- ==== Sys2Proof/Machine/Turn.lean ====
section
/-!
DEFINITION. The turns of the agents: a stream's turn, also while its job aborts a phase, and the copy engine's turn
(06 R137, 07 R160, 08 R195, 13 R298, 20 R408).
-/
namespace Sys2Proof.Machine
open Sys2Proof

/-- What a turn of a stream comes to. While an abort is in progress only a word that has issued goes on; the turns of the stream
that led to it carry the abort out (13 R298) (DESIGN CHOICE, log entry 21). -/
def State.turn (s : State) (st : Str) : TurnOut :=
  match s.me.abort with
  | none => turnOf st s
  | some ab =>
    if s.me.canIssue st s.now && s.me.issued st then turnOf st s
    else if st = ab.st then .done (s.abortStep ab)
    else .idle

/-- What the word at the counter of a stream waits for, as the machine stands: none where it issues. A V word reads what lands
in its slot (08 R194). -/
def State.polled (s : State) (st : Str) : Option Waiting :=
  let l := if st = .v ∧ s.me.landingDue then (match exec .resultLanding s with | .next t => t | _ => s) else s
  match l.wordAt st with
  | .ok w =>
    match decode st w with
    | .ok i =>
      match exec i (l.useFetch st w) with
      | .next t => if (t.ctl st).pc == (s.ctl st).pc then (t.ctl st).wait else none
      | _ => none
    | .error _ => none
  | .error _ => none

/-- A V stream that waits for a queue, a full/empty bit or a semaphore is frozen (08 R195). -/
def Waiting.freezes (w : Waiting) : Bool :=
  match w.kind with | .queue _ => true | .fe _ => true | .sync => true | .turn => true | _ => false
/-- A landing due, unless the word at the counter freezes the stream: then no slot passes and nothing lands (08 R194, R195).
Results of a slot that has passed (the one after a taken branch) land whatever the word. A V stream that cannot issue lands nothing. -/
def landOrFreeze (s : State) : Host.Outcome State Fault Refusal :=
  if !s.me.canIssue .v s.now then .next s
  else if s.me.v.fly.any (fun r => r.due < s.me.v.slot) then exec .resultLanding s
  else match s.polled .v with
  | some w =>
    if w.freezes then
      let u := match s.wordAt .v with | .ok x => s.useFetch .v x | .error _ => s
      .next (u.setCtl .v { u.ctl .v with wait := some w })
    else exec .resultLanding s
  | none => exec .resultLanding s

/-- The instruction is a stall event. -/
def isStall : Instr → Bool
  | .queueStall => true | .feStall => true | .syncStall => true | .rcStall => true
  | _ => false
/-- The last cycle in which the word of a stream that waits since `t` could still issue under the limit (06 R137). -/
def Core.lastCycle (c : Core) (w : Waiting) : Nat := w.since + c.limit.toNat - 1
/-- The wait that runs out: the word still waits as of the last cycle in which it could issue. Of queues, that cycle's entries and room
count; of other waits, what the machine holds now (DEDUCED, log entry 9). -/
def State.overdue (s : State) (st : Str) : Option Waiting :=
  match (s.ctl st).wait with
  | none => none
  | some w =>
    match { s with now := min s.now (s.me.lastCycle w) }.polled st with
    | some x => if x.since + s.me.limit.toNat ≤ s.now then some x else none
    | none => none
/-- A stall event of a stream: its wait has run out (06 R137). -/
def State.stallNow (s : State) (st : Str) : Option (Instr × State) :=
  (s.overdue st).bind fun w =>
    let t := s.setCtl st { s.ctl st with wait := some w }
    (stallOf t.me st s.now).map fun i => (i, { t with ev := { st := st, who := .stream st } })

/-- What a turn comes to, done. -/
def runTurn (s : State) : TurnOut → Host.Outcome State Fault Refusal
  | .idle => .next s
  | .done t => .next t
  | .run i t => if i = .resultLanding then landOrFreeze t else exec i t
/-- A turn of a stream of the core `s.cur`: a wait whose limit has come traps, unless its word could have issued in time. -/
def streamTurn (st : Str) (s : State) : Host.Outcome State Fault Refusal :=
  match s.turn st with
  | .run i t =>
    if isStall i then
      match s.stallNow st with
      | some (j, u) => exec j u
      | none => runTurn s (turnWord st s)
    else runTurn s (.run i t)
  | o => runTurn s o
/-- An event: a landing and a stall of a stream act as in that stream's turn. -/
def eventTurn (i : Instr) (s : State) : Host.Outcome State Fault Refusal :=
  if i = .resultLanding then landOrFreeze s
  else match isStall i, s.ev.who with
  | true, .stream st =>
    (match if s.me.canIssue st s.now then s.stallNow st else none with
     | some (j, t) => if j = i then exec i t else .next s
     | none => .next s)
  | _, _ => exec i s

/-- A turn of the copy engine: a send that waits starts if it can, and element `e` of copy `id` moves. -/
def copyTurn (id e : Nat) (s : State) : State := copyAct id e s.pumpSend

end Sys2Proof.Machine
end

