-- ==== Sys2Proof/Machine/Step.lean ====
section
/-!
DEFINITION. One step: the next turn of the agenda, or the one the free schedule supplies; the cycles that pass before
it; and its act. A stream's turn takes what is due to it, then fetches, decodes and executes the word at its counter.
-/
namespace Sys2Proof.Machine
open Sys2Proof

/-- One step of the part. -/
def step (s : State) : Host.Outcome State Fault Refusal :=
  let t := s.nextTurn
  let s1 := s.takeTurn
  match t.act with
  | .stream ck st => streamTurn st { s1 with cur := ck }
  | .event i ck ev =>
    let s2 := { s1 with cur := ck, ev := ev }
    if isEvent i then eventTurn i s2 else .next s1
  | .copyMove ck id e => .next (copyTurn id e { s1 with cur := ck })

/-- The state with an instruction where `step` fetches its next one: the stream of the word's size starts on core 0 of
package 0, its counter's page is mapped onto bonded DRAM in an IMM granule, the word stands there, and its turn is next. -/
def State.withFetchWord (s : State) (nbits w : Nat) : State := placeWord s (tableStream nbits w) w

end Sys2Proof.Machine
end

