-- ==== Sys2Proof/Safety.lean ====
section
/-!
DEFINITION. What a safe run is, and the frames in whose terms the statements say what an act leaves alone.
-/
namespace Sys2Proof
open Sys2Proof.Machine

/-- Memory is in canonical form. -/
def Safe (s : State) : Prop := Memory.wf s.mem = true

/-- A step neither faults nor is refused. -/
def Goes (s : State) : Prop := ∃ t, Machine.step s = .next t

/-- Every byte of memory reads as before. -/
def SameMem (s t : State) : Prop := ∀ k, memByte t.mem k = memByte s.mem k
/-- Every part of the machine but its cores is as before: memory, poison, directory, flumes, weirs, contexts, packages, messages. -/
def SameRest (s t : State) : Prop := { t with cores := s.cores } = s
/-- Every core but the acting one is as before. -/
def OtherCores (s t : State) : Prop := ∀ k, k ≠ s.cur → t.coreAt k = s.coreAt k
/-- A stream is as before but for its counter, its wait and its flags. -/
def SameCtl (x y : Stream) : Prop := { y with pc := x.pc, wait := x.wait, xflags := x.xflags } = x
/-- The acting core is as before but for its C engine and its queues q0 to q7, with what their pops acquire. -/
def SameButC (c d : Core) : Prop := { d with c := c.c, q := c.q, seen := c.seen } = c
/-- Queues that a list does not name are as before. -/
def OtherQueues (l : List Nat) (c d : Core) : Prop := ∀ n, n ∉ l → d.queue n = c.queue n

/-- The frame of a C word that reads and writes registers and queues: nothing else changes but the counter, the wait and XFLAGS
of the C stream. `dst` names the registers that may change. -/
def FrameC (qs : List Nat) (dst : List Nat) (s t : State) : Prop :=
  SameRest s t ∧ OtherCores s t ∧ SameButC s.me t.me ∧ SameCtl s.me.c.ctl t.me.c.ctl ∧ OtherQueues qs s.me t.me ∧
  ∀ r, r ∉ dst → t.cg r = s.cg r
/-- The registers that a destination field of a C word writes: none where it names a queue. -/
def dstRegs (q : BitVec 1) (r : BitVec 5) : List Nat := if q == 1 then [] else [r.toNat]

/-- The CR words that read the fields ra (`ua`) and rb (`ub`) as sources and write rd (`ud`) as a destination (06 R145, 04 Table 4.4). -/
def crWords (ua ub ud : Bool) : List (CrF → Instr) :=
  match ua, ub, ud with
  | true, true, true =>
    [.add, .sub, .mul, .mulh, .mulhn, .div, .divn, .rem, .remn, .and, .or, .xor, .andn, .sll, .srl, .sra, .min, .max, .minn, .maxn] ++
    [.cmpeq, .cmplt, .cmpltn, .cmple, .cmplen, .addx, .wljoinArm, .wljoinAdd, .fltake, .fxsendFaa]
  | true, false, true =>
    [.clz, .ctz, .popc, .xidx, .alnup, .jrl, .wljoinDec, .flclaim, .flwaitf, .flwaitr, .fxcntSub, .fxcntWt, .snaprd, .ctxsave]
  | true, true, false => [.wlpush, .wlspawn, .flinit, .flfill, .flrel, .recast, .rcwait, .phmark, .fxallow, .snapwr, .tlbinv]
  | true, false, false =>
    [.jr, .fxsendBlk, .fxsendMc, .fxarm, .ctxload, .syswr, .semWrite, .epcWrite, .allowWrite, .worklistRegisterWrite]
  | false, false, true => [.wlfloorGate, .wlfloorFresh, .wlfloorFb, .fxcntRd, .sysrd]
  | _, _, _ => []

/-! The floor (01 R25, 18 R369, R371). -/

/-- A priority that counts in the floor of a context in a package: of a record in a basin or overflow list, saved jobs among them, of
one granted to a core, or of a running job. -/
def HoldsPri (s : State) (pkg : Nat) (x : BitVec 4) (p : Nat) : Prop :=
  (∃ d ∈ diesOf pkg, ∃ q ∈ (s.dctxAt d x).recs, q.rcd.pri.toNat = p) ∨
  ∃ k, pkgOf k = pkg ∧
    ((∃ j, (s.coreAt k).job = some j ∧ j.rcd.ctx = x ∧ j.rcd.pri.toNat = p) ∨
      ∃ q, (s.coreAt k).grant = some q ∧ q.rcd.ctx = x ∧ q.rcd.pri.toNat = p)
/-- The floors of a context in their order: the packages that share its floor (in domain mode, all that hold the context live) hold one F_h,
which is not above any priority that counts, and no die gates with more than F_h, once a lowered floor on its way has reached it. What
counts belongs to a context that runs. -/
def FloorInv (s : State) : Prop :=
  (∀ d x, ∀ q ∈ (s.dctxAt d x).recs, q.rcd.ctx = x) ∧
  ∀ pkg x, let c := s.ctxAt (ctxKey pkg x)
    (∀ p, HoldsPri s pkg x p → c.live = true ∧ c.running = true ∧ c.killing = none ∧ c.fh.isSome = true ∧
      ∀ q ∈ s.floorPkgs pkg x, ∀ f, (s.ctxAt (ctxKey q x)).fh = some f → f.toNat ≤ p) ∧
    (c.live = true → ∀ q ∈ s.floorPkgs pkg x, ∀ f g, c.fh = some f → (s.ctxAt (ctxKey q x)).fh = some g → g = f) ∧
    ∀ f, c.fh = some f → ∀ d ∈ diesOf pkg, (s.dctxAt d x).deliver.gate ≤ f.toNat

/-! V words (08). -/

/-- A V word is ready: no register it names is due from a marked result, its guard holds, its source queues hold entries, its tags
match, nothing it reads is poisoned unless it carries poison on, and its destination queues have room (08 R197, R204). -/
def VReady (g : Guard) (u : VUse) (s : State) : Prop :=
  s.me.v.fly.any (fun r => r.mark && (Guard.vNames g ++ u.names).contains r.dst) = false ∧ guardOn g s.me.vg = true ∧
  (∀ n ∈ vQueues (u.vs.map (·.1)), (s.me.wqHead n s.now).isSome = true) ∧ (∀ n ∈ vQueues u.gs, (s.me.qHead n s.now).isSome = true) ∧
  (∀ o ∈ u.vs, ∀ t, o.2 = some t → (s.vSrc o.1).tag.toNat = t) ∧
  (u.carry = true ∨ ((∀ o ∈ u.vs, (s.vSrc o.1).psn = false) ∧
    ∀ n ∈ vQueues u.gs, ∀ e, s.me.qHead n s.now = some e → e.psn = false)) ∧
  ∀ d ∈ u.ds, (∀ n, d = .wq n → s.me.wqFree n s.now = true) ∧ (d = .q5 → s.me.qFree 5 s.now = true)
/-- A V word issued from `s1`: its pops unless it peeks, its results on their way to land `lat` slots on, and the next word. -/
def vDone (s : State) (pk : BitVec 1) (u : VUse) (lat : Nat) (outs : List VOut) (s1 : State) : State :=
  let pops (c : Core) : Core :=
    (vQueues u.gs).foldl (fun t n => t.qPop n s.now) ((vQueues (u.vs.map (·.1))).foldl (fun t n => t.wqPop n s.now) c)
  let s2 := if pk = 1 then s1 else s1.setMe (pops s1.me)
  (s2.setMe (s2.me.vSend lat outs)).vNext
/-- What an elementwise word names. -/
def vElemUse (f : VF) (srcs : List VOp) : VUse :=
  { vs := srcs.map (fun o => (o, VF.chk f)), ks := VF.kNames f, ds := [vDstOf f.qd f.vd] }
/-- The elements of a vector source under the word's tag. -/
def vEls (f : VF) (s : State) (o : VOp) : List Nat := elemsN (VF.w f) (VF.n f) (s.vSrc o).bits.toNat
/-- The result of an elementwise word: `op` on the active elements of its sources, the others of the destination kept. -/
def vLaneOut (f : VF) (s : State) (srcs : List VOp) (op : Nat → Nat → Nat → Nat × Fl) : List VOut :=
  let els (i : Nat) : List Nat := elemsN (VF.w f) (VF.n f) ((srcs[i]?.map fun o => (s.vSrc o).bits.toNat).getD 0)
  let acts := s.acts f.k (VF.n f)
  let r := laneMap op acts (els 0) (els 1) (els 2)
  [outPart (vDstOf f.qd f.vd) f.tag acts (r.map (·.1)) (orFl r) false (f.k == 0)]

/-! Numbers (05). -/

/-- The floating formats of Table 5.3 and of the accumulator. -/
def floatFmts : List FFmt := (List.range' 9 9).map ffmt ++ [fa40, fa80]
/-- The magnitude of a code without its sign, in units of the smallest subnormal (05 R111); the codes past the largest finite value
count on as if the exponent had no upper bound (05 R115). -/
def fmtMag (F : FFmt) (k : Nat) : Nat := if k < 2 ^ F.m then k else (2 ^ F.m + k % 2 ^ F.m) * 2 ^ (k / 2 ^ F.m - 1)
/-- A mode takes a magnitude `x`, from `y` on and below its neighbour `z`, up to `z` (00 R8); `odd`: the code of `y` is odd. -/
def roundsFrom (md : Nat) (neg odd : Bool) (y x z : Nat) : Bool :=
  match md with
  | 0 => y + z < 2 * x || (y + z == 2 * x && odd)
  | 1 => y + z ≤ 2 * x
  | 2 => false
  | 3 => neg && y < x
  | _ => !neg && y < x

/-! Stores (06 R153, 07 R176, 13 R296). -/

/-- The runs of bits that a write of pieces changes: the pieces, or in a phase's region their places in the shadow area, a granule's
first write filling the whole of its place. -/
def storeSpans (s : State) (pkg : Nat) (ps : Pieces) : Pieces :=
  ps.flatMap fun q =>
    match place q.1 with
    | .ap n o =>
      (match (s.coreAt (coreKey pkg n)).phase with
      | some p =>
        match p.slot o with
        | some k => [(apAddr n (p.shadowOff k), 128), (apAddr n (p.shadowOff k + o % 128), q.2)]
        | none => [q]
      | none => [q])
    | _ => [q]
/-- Every bit of memory outside the runs of a package reads as before. -/
def SameBitsBut (l : Pieces) (pkg : Nat) (s t : State) : Prop :=
  ∀ b, (∀ q ∈ l, b < bitKey pkg q.1 ∨ bitKey pkg q.1 + q.2 ≤ b) → memBits t.mem b 1 = memBits s.mem b 1
/-- Outside the cores a store changes memory, poison bits and, where it meets a block whose CRC does not match, the stored CRC and the log. -/
def SameButHome (s t : State) : Prop :=
  { t with cores := s.cores, mem := s.mem, psn := s.psn, crcs := s.crcs, pkgs := s.pkgs } = s
/-- What a store of a stream leaves of its core: all but full/empty bits, lane marks, the phase map, the translations, the queues it
names, and of its own stream the counter, the wait, the flags and, for V, the slot and the pipeline. -/
def FrameStore (st : Str) (qs wqs : List Nat) (c d : Core) : Prop :=
  { d with full := c.full, lanePsn := c.lanePsn, phase := c.phase, tlb := c.tlb, q := c.q, wq := c.wq, seen := c.seen, stamp := c.stamp,
           c := if st = .c then c.c else d.c, a := if st = .a then c.a else d.a, v := if st = .v then c.v else d.v } = c ∧
  { d.c with ctl := c.c.ctl } = c.c ∧ { d.a with ctl := c.a.ctl } = c.a ∧ { d.v with ctl := c.v.ctl, slot := c.v.slot, fly := c.v.fly } = c.v ∧
  { d.ctl st with pc := (c.ctl st).pc, wait := (c.ctl st).wait, xflags := (c.ctl st).xflags, tlb := (c.ctl st).tlb } = c.ctl st ∧
  (∀ n, n ∉ qs → d.queue n = c.queue n) ∧ ∀ n, n ∉ wqs → d.wqueue n = c.wqueue n

/-- Of a stream only its counter, its wait and the registers that a trap writes may differ. -/
def SameCtlTrap (x y : Stream) : Prop :=
  { y with pc := x.pc, wait := x.wait, rdv := x.rdv, due := x.due, walkFault := x.walkFault, epc := x.epc, einfo := x.einfo,
           ecause := x.ecause } = x
/-- The same where a rendezvous may begin or end the stream. -/
def SameCtlRdv (x y : Stream) : Prop := SameCtlTrap x { y with ended := x.ended, rdvAt := x.rdvAt }
/-- What a word of the A stream leaves of its core that sends messages, or waits or traps instead: all but what it is owed, its windows,
the translations, the queues it names, and of its stream the control registers and the half of a word that has left. -/
def FrameSend (qs wqs : List Nat) (c d : Core) : Prop :=
  { d with owed := c.owed, stamp := c.stamp, fab := c.fab, tlb := c.tlb, q := c.q, wq := c.wq, seen := c.seen, a := c.a, pend := c.pend,
           stopAt := c.stopAt, abort := c.abort } = c ∧
  { d.fab with win := c.fab.win } = c.fab ∧ { d.a with ctl := c.a.ctl, half := c.a.half } = c.a ∧
  SameCtlTrap c.a.ctl { d.a.ctl with tlb := c.a.ctl.tlb } ∧
  (∀ n, n ∉ qs → d.queue n = c.queue n) ∧ ∀ n, n ∉ wqs → d.wqueue n = c.wqueue n
/-- The frame of a register word of the A stream. -/
def FrameA (qs : List Nat) (dst : List Nat) (s t : State) : Prop :=
  SameRest s t ∧ OtherCores s t ∧ OtherQueues qs s.me t.me ∧ SameCtlTrap s.me.a.ctl t.me.a.ctl ∧
  { t.me with a := s.me.a, q := s.me.q, seen := s.me.seen, pend := s.me.pend, stopAt := s.me.stopAt, abort := s.me.abort } = s.me ∧
  { t.me.a with a := s.me.a.a, g := s.me.a.g, ctl := s.me.a.ctl } = s.me.a ∧ ∀ r, r ∉ dst → t.me.areg r = s.me.areg r
/-- The frame of a register word of the V stream: no register changes at its issue. -/
def FrameV (s t : State) : Prop :=
  SameRest s t ∧ OtherCores s t ∧ SameCtlTrap s.me.v.ctl t.me.v.ctl ∧
  { t.me with v := s.me.v, q := s.me.q, wq := s.me.wq, seen := s.me.seen, stamp := s.me.stamp, pend := s.me.pend, stopAt := s.me.stopAt,
              abort := s.me.abort } = s.me ∧
  { t.me.v with ctl := s.me.v.ctl, slot := s.me.v.slot, fly := s.me.v.fly } = s.me.v

end Sys2Proof
end

