-- ==== Sys2Proof/Certificates/Slice0/Obligations.lean ====
section
/-!
DEFINITION. The statements for the provers. Each docstring names the rules of spec/ that the statement formalises; a statement
that rests on a choice of the model says so.
-/
open Sys2Proof Sys2Proof.Machine

/-! The C stream (06). -/

/-- 06 R145, R146, R151: a CR word whose guard holds and whose queues are ready writes the function of its sources, pops and
pushes its queues once, leaves its flags as they are, and goes on. -/
def Obligations.CRegisterForms : Prop :=
  ∀ (f : CrF) (s : State), guardOn f.g s.cg = true →
    s.cReady (CrQ f true true) (qName f.qd f.rd) = .ok () →
    let a := s.cSrc f.qa f.ra
    let b := s.cSrc f.qb f.rb
    let goesTo (x : W64) : Out :=
      .next (((((s.orFlags .c 0).cPop f.pk (CrQ f true true)).cDst f.qd f.rd x).advance .c))
    exec (.add f) s = goesTo (a + b) ∧
    exec (.sub f) s = goesTo (a - b) ∧
    exec (.mul f) s = goesTo (a * b) ∧
    exec (.mulh f) s = goesTo (BitVec.ofInt 64 (a.toInt * b.toInt / 2 ^ 64)) ∧
    exec (.mulhn f) s = goesTo (BitVec.ofNat 64 (a.toNat * b.toNat / 2 ^ 64)) ∧
    exec (.and f) s = goesTo (a &&& b) ∧
    exec (.or f) s = goesTo (a ||| b) ∧
    exec (.xor f) s = goesTo (a ^^^ b) ∧
    exec (.andn f) s = goesTo (a &&& ~~~b) ∧
    exec (.sll f) s = goesTo (BitVec.ofNat 64 (a.toNat * 2 ^ (b.toNat % 64))) ∧
    exec (.srl f) s = goesTo (BitVec.ofNat 64 (a.toNat / 2 ^ (b.toNat % 64))) ∧
    exec (.sra f) s = goesTo (BitVec.ofInt 64 (a.toInt / 2 ^ (b.toNat % 64))) ∧
    exec (.min f) s = goesTo (if a.toInt ≤ b.toInt then a else b) ∧
    exec (.max f) s = goesTo (if a.toInt ≤ b.toInt then b else a) ∧
    exec (.minn f) s = goesTo (if a.toNat ≤ b.toNat then a else b) ∧
    exec (.maxn f) s = goesTo (if a.toNat ≤ b.toNat then b else a) ∧
    exec (.cmpeq f) s = goesTo (if a = b then 1 else 0) ∧
    exec (.cmplt f) s = goesTo (if a.toInt < b.toInt then 1 else 0) ∧
    exec (.cmpltn f) s = goesTo (if a.toNat < b.toNat then 1 else 0) ∧
    exec (.cmple f) s = goesTo (if a.toInt ≤ b.toInt then 1 else 0) ∧
    exec (.cmplen f) s = goesTo (if a.toNat ≤ b.toNat then 1 else 0) ∧
    exec (.addx f) s = goesTo (BitVec.ofInt 64 ((a.toNat : Int) + b.toInt * (widthOf f.wc : Int)))

/-- 06 R147: division never traps: a zero divisor gives all ones (remainder: the dividend) and sets DZ; −2^63 / −1 gives the
dividend and sets OF (remainder: 0, no flag); else the quotient rounds toward zero and the remainder has the dividend's sign. -/
def Obligations.CDivision : Prop :=
  (∀ (f : CrF) (s : State), guardOn f.g s.cg = true →
    s.cReady (CrQ f true true) (qName f.qd f.rd) = .ok () →
    let a := s.cSrc f.qa f.ra
    let b := s.cSrc f.qb f.rb
    let goesTo (x : W64) (fl : Fl) : Out :=
      .next (((((s.orFlags .c fl).cPop f.pk (CrQ f true true)).cDst f.qd f.rd x).advance .c))
    (b = 0 → exec (.div f) s = goesTo (BitVec.allOnes 64) fDZ ∧ exec (.divn f) s = goesTo (BitVec.allOnes 64) fDZ ∧
      exec (.rem f) s = goesTo a fDZ ∧ exec (.remn f) s = goesTo a fDZ) ∧
    (b ≠ 0 → exec (.divn f) s = goesTo (BitVec.ofNat 64 (a.toNat / b.toNat)) 0 ∧
      exec (.remn f) s = goesTo (BitVec.ofNat 64 (a.toNat % b.toNat)) 0) ∧
    (a.toInt = -(2 ^ 63) ∧ b.toInt = -1 → exec (.div f) s = goesTo a fOF ∧ exec (.rem f) s = goesTo 0 0) ∧
    (b ≠ 0 → ¬(a.toInt = -(2 ^ 63) ∧ b.toInt = -1) →
      exec (.div f) s = goesTo (BitVec.ofInt 64 (a.toInt.tdiv b.toInt)) 0 ∧
      exec (.rem f) s = goesTo (BitVec.ofInt 64 (a.toInt.tmod b.toInt)) 0)) ∧
  (∀ (f : CrF) (i : CiF) (b : CbF) (k : CsF) (s t : State),
    (∀ op ∈ [Instr.add, .sub, .mul, .mulh, .mulhn, .and, .or, .xor, .andn, .sll, .srl, .sra, .min, .max, .minn, .maxn, .cmpeq, .cmplt,
        .cmpltn, .cmple, .cmplen, .clz, .ctz, .popc, .addx, .xidx, .alnup, .jr, .jrl], exec (op f) s = .next t →
      (t.ctl .c).xflags = (s.ctl .c).xflags) ∧
    (∀ op ∈ [Instr.addi, .andi, .ori, .xori, .slli, .srli, .srai, .cmpeqi, .cmplti, .lim, .limh, .bext, .bins, .bset, .bclr, .ld, .st],
      exec (op i) s = .next t → (t.ctl .c).xflags = (s.ctl .c).xflags) ∧
    (∀ op ∈ [Instr.br, .brl, .bdec], exec (op b) s = .next t → (t.ctl .c).xflags = (s.ctl .c).xflags) ∧
    (exec (.rdv k) s = .next t → (t.ctl .c).xflags = (s.ctl .c).xflags))

/-- 06 R148, R150: a CI word whose guard holds writes rd from ra and its immediate, and goes on. -/
def Obligations.CImmediateForms : Prop :=
  ∀ (f : CiF) (s : State), guardOn f.g s.cg = true →
    let a := s.cg f.ra.toNat
    let d := s.cg f.rd.toNat
    let i : W64 := f.imm.signExtend 64
    let n := (f.imm.extractLsb' 0 6).toNat
    let len := (f.imm.extractLsb' 6 6).toNat + 1
    let h := (f.imm.extractLsb' 16 2).toNat
    let goesTo (x : W64) : Out := .next ((s.setCg f.rd.toNat x).advance .c)
    exec (.addi f) s = goesTo (a + i) ∧
    exec (.andi f) s = goesTo (a &&& i) ∧
    exec (.ori f) s = goesTo (a ||| i) ∧
    exec (.xori f) s = goesTo (a ^^^ i) ∧
    exec (.slli f) s = goesTo (a <<< n) ∧
    exec (.srli f) s = goesTo (a >>> n) ∧
    exec (.srai f) s = goesTo (a.sshiftRight n) ∧
    exec (.cmpeqi f) s = goesTo (if a.toInt = f.imm.toInt then 1 else 0) ∧
    exec (.cmplti f) s = goesTo (if a.toInt < f.imm.toInt then 1 else 0) ∧
    exec (.lim f) s = goesTo (BitVec.ofInt 64 f.imm.toInt) ∧
    exec (.limh f) s = goesTo (BitVec.ofNat 64
      (a.toNat - a.toNat / 2 ^ (16 * h) % 2 ^ 16 * 2 ^ (16 * h) + (f.imm.extractLsb' 0 16).toNat * 2 ^ (16 * h))) ∧
    exec (.bset f) s = goesTo (a ||| (1 : W64) <<< n) ∧
    exec (.bclr f) s = goesTo (a &&& ~~~((1 : W64) <<< n)) ∧
    exec (.bext f) s = goesTo (BitVec.ofNat 64 (a.toNat / 2 ^ n % 2 ^ len)) ∧
    (n + len ≤ 64 → exec (.bins f) s = goesTo (BitVec.ofNat 64
      (d.toNat - d.toNat / 2 ^ n % 2 ^ len * 2 ^ n + a.toNat % 2 ^ len * 2 ^ n)))

/-- 06 R149, R151: the counts, the index of an element and the rounding up of an address: what each result is, by its meaning. -/
def Obligations.CCounts : Prop :=
  ∀ (f : CrF) (s : State), guardOn f.g s.cg = true →
    s.cReady (CrQ f true false) (qName f.qd f.rd) = .ok () →
    let a := s.cSrc f.qa f.ra
    let goesTo (x : W64) : Out := .next (((s.cPop f.pk (CrQ f true false)).cDst f.qd f.rd x).advance .c)
    (∃ n, n ≤ 64 ∧ (∀ i, i < n → a.getLsbD (63 - i) = false) ∧ (n < 64 → a.getLsbD (63 - n) = true) ∧
      exec (.clz f) s = goesTo (BitVec.ofNat 64 n)) ∧
    (∃ n, n ≤ 64 ∧ (∀ i, i < n → a.getLsbD i = false) ∧ (n < 64 → a.getLsbD n = true) ∧
      exec (.ctz f) s = goesTo (BitVec.ofNat 64 n)) ∧
    exec (.popc f) s = goesTo (BitVec.ofNat 64 ((List.range 64).countP fun i => a.getLsbD i)) ∧
    exec (.xidx f) s = goesTo (BitVec.ofNat 64 (a.toNat / widthOf f.wc)) ∧
    (∃ x, exec (.alnup f) s = goesTo (BitVec.ofNat 64 x) ∧
      (0 < widthOf f.wc → x % alnupM f.wc f.bd = 0 ∧ a.toNat ≤ x ∧ x < a.toNat + alnupM f.wc f.bd)) ∧
    ∀ op ∈ [Instr.clz, .ctz, .popc], (op f).WellFormed → f.qb = 0 ∧ f.rb = 0 ∧ f.fn = 0

/-- 06 R144: branches count in words from the branch; `brl` links, `bdec` counts down and branches while the result is not 0. A jump
goes to its register or queue entry, `jrl` linking; a target that is no multiple of 48 traps FETCH_ALIGN with the target as EINFO, the
destination unwritten and the queue unpopped. `br` names no register, `bdec` not g0, `jr` neither rd nor rb, `jrl` no rb. -/
def Obligations.CBranchesAndJumps : Prop :=
  (∀ (f : CbF) (s : State), guardOn f.g s.cg = true →
    let pc := (s.ctl .c).pc
    let tgt := pc + BitVec.ofInt 64 (f.off.toInt * 48)
    let v := s.cg f.ra.toNat - 1
    exec (.br f) s = .next (s.jump .c tgt) ∧
    exec (.brl f) s = .next ((s.setCg f.ra.toNat (pc + 48)).jump .c tgt) ∧
    exec (.bdec f) s = .next ((s.setCg f.ra.toNat v).jump .c (if v = 0 then pc + 48 else tgt))) ∧
  (∀ (f : CrF) (s : State), guardOn f.g s.cg = true →
    let qs := CrQ f true false
    let t := s.cSrc f.qa f.ra
    let bad : Out := .next (s.takeTrap .c { cause := .fetchAlign, info := t })
    (s.cReady qs [] = .ok () → exec (.jr f) s = if t.toNat % 48 = 0 then .next ((s.cPop f.pk qs).jump .c t) else bad) ∧
    (s.cReady qs (qName f.qd f.rd) = .ok () →
      exec (.jrl f) s =
        if t.toNat % 48 = 0 then .next (((s.cPop f.pk qs).cDst f.qd f.rd ((s.ctl .c).pc + 48)).jump .c t) else bad)) ∧
  (∀ (f : CbF) (r : CrF), ((Instr.br f).WellFormed → f.ra = 0) ∧ ((Instr.bdec f).WellFormed → f.ra ≠ 0) ∧
    ((Instr.jr r).WellFormed → r.rd = 0 ∧ r.qd = 0 ∧ r.rb = 0 ∧ r.qb = 0 ∧ r.fn = 0) ∧
    ((Instr.jrl r).WellFormed → r.rb = 0 ∧ r.qb = 0 ∧ r.fn = 0))

/-- 06 R153, 13 R275: `ld` and `st` of the own scratchpad at base plus displacement in elements, once its tests pass: `ld` writes rd with
the bits, sign-extended where s is set; `st` writes the low bits of rd. A poisoned granule makes `ld` trap POISON. The tests, in their
order: translation, LDST_SCOPE past the scratchpad part, MISALIGN of an offset that is no multiple of the width, ROLE_FAULT; the first
that fails stops the word. Table 13.2 for an access of the own streams: IMM is read and never written, ACC is neither read nor written,
PRV is read and written by its owner alone, a lane of ACC is added to in its context, and no other role takes an add.
Where the spec leaves a choice, these are the model's: log entry 15. -/
def Obligations.CLoadStore : Prop :=
  (∀ (f : CiF) (s : State) (o : Nat) (ps : Pieces), guardOn f.g s.cg = true →
    let w := widthOf f.wc
    let ea := ((s.cg f.ra.toNat).toNat + f.d * (w : Int)) % 2 ^ 64
    let v := s.rdPieces s.myPkg ps
    (s.scratch (.stream .c) .r .rd ea.toNat w w = .ok (o, ps) →
      exec (.ld f) s =
        if s.psnPieces s.myPkg ps then .next (s.takeTrap .c { cause := .poison, info := BitVec.ofNat 64 ea.toNat })
        else .next (((s.usePages .c ea.toNat w).setCg f.rd.toNat
          (if f.sx = 1 then BitVec.ofInt 64 (nsext v w) else BitVec.ofNat 64 v)).advance .c)) ∧
    (s.scratch (.stream .c) .w .wr ea.toNat w w = .ok (o, ps) →
      exec (.st f) s =
        .next (((s.usePages .c ea.toNat w).wrPieces s.myPkg ps ((s.cg f.rd.toNat).toNat % 2 ^ w) false).advance .c)) ∧
    ∀ e, (s.scratch (.stream .c) .r .rd ea.toNat w w = .error e → exec (.ld f) s = .next (s.finish .c (.error e))) ∧
      (s.scratch (.stream .c) .w .wr ea.toNat w w = .error e → exec (.st f) s = .next (s.finish .c (.error e)))) ∧
  (∀ (s : State) (cl : Waiter) (p : Perm) (a : Acc) (o n align : Nat), p ≠ .x → 0 < n → o + n ≤ 2 ^ 30 → numOf s.cur < 768 →
    let ea := selfVa + o
    let ps := cuts (apAddr (numOf s.cur) o) n
    s.scratch cl p a ea n align =
      if scratchBits < o + n then .error (trAt .ldstScope ea)
      else if o % align ≠ 0 then .error (trAt .misalign ea)
      else if ps.all (fun q => s.roleOk s.cur s.job s.myPkg q.1 a) then .ok (o, ps) else .error (trAt .roleFault ea)) ∧
  (∀ (s : State) (cl : Waiter) (p : Perm) (a : Acc) (ea n align : Nat), winVa ≤ ea → ea < winVaEnd →
    s.scratch cl p a ea n align = .error (trAt .ldstScope ea)) ∧
  ∀ (s : State) (ck : Nat) (j : Job) (pkg pa : Nat),
    let e := s.roleAt pkg pa
    let ok (a : Acc) : Bool := s.roleOk ck j pkg pa a
    (e.role = .imm → ok .rd = true ∧ ok .wr = false ∧ ok .add = false) ∧
    (e.role = .acc → ok .rd = false ∧ ok .wr = false ∧ ok .add = (e.ctx == j.rcd.ctx)) ∧
    (e.role = .prv → ok .add = false ∧ (ok .rd = true ↔ e.sys = false ∧ e.ctx = j.rcd.ctx ∧ e.frame = j.rcd.frame) ∧ ok .wr = ok .rd) ∧
    (e.role = .str → ok .add = false ∧
      (ok .rd = true ↔ ∃ q ∈ s.flumes, q.1 / 2 ^ 55 = pkg ∧ q.2.cv = true ∧ q.2.cpkg = pkgOf ck ∧ q.2.ccore = numOf ck ∧
        ∃ i, q.2.slotAt pa = some i ∧ q.2.isHeld i = true) ∧
      (ok .wr = true ↔ ∃ q ∈ s.flumes, q.1 / 2 ^ 55 = pkg ∧ q.2.pv = true ∧ q.2.ppkg = pkgOf ck ∧ q.2.pcore = numOf ck ∧
        ∃ i, q.2.slotAt pa = some i ∧ q.2.isClaimed i = true))

/-- 04 R81, R82, 06 R129, R137, 07 R190, 00 R9: a guard that does not hold makes a C word do nothing but take its place. A CR word
with a poisoned entry at the head of a source queue traps POISON; with no such entry and an empty source queue, ra's or rb's, it waits at its
place for that queue and changes no register, after the causes that 15 R332 ranks first (SYS_STATE of the snapshot and save-area words); with
its sources there and a full destination queue it waits for room, where no cause of its own stops it first.
Where the spec leaves a choice, these are the model's: log entry 9. -/
def Obligations.CGuardsAndWaits : Prop :=
  (∀ (r : CrF) (i : CiF) (b : CbF) (k : CsF) (s : State),
    (guardOn r.g s.cg = false → ∀ op ∈ [Instr.add, .sub, .mul, .mulh, .mulhn, .div, .divn, .rem, .remn, .and, .or, .xor, .andn, .sll,
        .srl, .sra, .min, .max, .minn, .maxn, .cmpeq, .cmplt, .cmpltn, .cmple, .cmplen, .clz, .ctz, .popc, .addx, .xidx, .alnup, .jr,
        .jrl, .wlpush, .wlspawn, .wljoinDec, .wljoinArm, .wljoinAdd, .wlfloorGate, .wlfloorFresh, .wlfloorFb, .flinit, .flclaim,
        .flfill, .flwaitf, .flwaitr, .fltake, .flrel, .recast, .rcwait, .phmark, .fxallow, .fxsendBlk, .fxsendMc, .fxsendFaa, .fxarm,
        .fxcntRd, .fxcntSub, .fxcntWt, .sysrd, .syswr, .semWrite, .epcWrite, .allowWrite, .worklistRegisterWrite, .tlbinv, .snaprd,
        .snapwr, .ctxsave, .ctxload], exec (op r) s = .next (s.advance .c)) ∧
    (guardOn i.g s.cg = false → ∀ op ∈ [Instr.addi, .andi, .ori, .xori, .slli, .srli, .srai, .cmpeqi, .cmplti, .lim, .limh, .bext, .bins,
        .bset, .bclr, .ld, .st], exec (op i) s = .next (s.advance .c)) ∧
    (guardOn b.g s.cg = false → ∀ op ∈ [Instr.br, .brl, .bdec], exec (op b) s = .next (s.advance .c)) ∧
    (guardOn k.g s.cg = false → ∀ op ∈ [Instr.rdv, .mcancel, .wlyield, .mfence, .mjoin, .weirSet, .weirArr, .weirWt, .weirSync,
        .phcommit, .phabort, .semsig, .semwait, .fxdisarm, .fxfence, .nop, .trap, .eret], exec (op k) s = .next (s.advance .c))) ∧
  (∀ (f : CrF) (s : State) (ua ub ud : Bool), guardOn f.g s.cg = true → s.me.recast = none → s.me.tlbInv = none → s.me.put = none →
      s.me.sent = none →
    ∀ op ∈ crWords ua ub ud, (op f = .tlbinv f → f.fn.getLsbD 3 = false) →
    let qs := CrQ f ua ub
    ((∃ m ∈ qs, ∃ e, s.me.qHead m s.now = some e ∧ e.psn = true) → exec (op f) s = .next (s.takeTrap .c { cause := .poison })) ∧
    ((∀ m ∈ qs, ∀ e, s.me.qHead m s.now = some e → e.psn = false) →
      (op f ∈ [Instr.snaprd f, .snapwr f] → s.me.inh = true ∧ s.me.v.ctl.started = true) →
      (op f ∈ [Instr.ctxsave f, .ctxload f] → s.me.inh = true) →
      ∀ l n r, qs = l ++ n :: r → (∀ m ∈ l, s.me.qHead m s.now ≠ none) → s.me.qHead n s.now = none →
        exec (op f) s = .next (s.noteWait .c (.queue n)))) ∧
  ∀ (f : CrF) (s : State) (d : Nat), guardOn f.g s.cg = true → d ∈ qName f.qd f.rd → s.me.qFree d s.now = false →
    let waits (op : CrF → Instr) : Prop := exec (op f) s = .next (s.noteWait .c (.queue d))
    (s.cSources (CrQ f true true) = .ok () → ∀ op ∈ [Instr.add, .sub, .mul, .mulh, .mulhn, .div, .divn, .rem, .remn, .and, .or, .xor, .andn,
      .sll, .srl, .sra, .min, .max, .minn, .maxn, .cmpeq, .cmplt, .cmpltn, .cmple, .cmplen, .addx], waits op) ∧
    (s.cSources (CrQ f true false) = .ok () → (∀ op ∈ [Instr.clz, .ctz, .popc, .xidx, .alnup], waits op) ∧
      ((s.cSrc f.qa f.ra).toNat % 48 = 0 → waits .jrl) ∧
      ((s.cSrc f.qa f.ra).toNat ≤ (s.me.recvAt (fxW f)).cnt → waits .fxcntWt)) ∧
    ∀ op ∈ [Instr.wlfloorGate, .wlfloorFresh, .wlfloorFb, .fxcntRd], waits op

/-- 06 R141, R142, 15 R340, 11 R274, 14 R329: what the CS words of the C stream do: `nop` goes on; `trap` traps TRAP with its
immediate; `rdv` 0 ends the stream and another identifier makes it wait at the word; `mcancel` asks for a cancellation at the
end of the second cycle on; `semsig` adds to a semaphore, which saturates at 65,535 and sets OVF; `semwait` takes its count where the
semaphore holds it. In one cycle a signal acts before the waits of that cycle, and one that comes after a wait has passed acts in the next.
Where the spec leaves a choice, these are the model's: log entries 9 and 86. -/
def Obligations.CSystemWords : Prop :=
  ∀ (f : CsF) (s : State), guardOn f.g s.cg = true →
    let x := s.ctl .c
    let i := (f.sub.extractLsb' 0 4).toNat
    let n := (f.sys.extractLsb' 0 16).toNat
    let g : Option (BitVec 4) := if f.sys.getLsbD 4 then none else some (f.sys.extractLsb' 0 4)
    exec (.nop f) s = .next (s.advance .c) ∧
    exec (.trap f) s = .next (s.takeTrap .c { cause := .trap, info := (f.sys.extractLsb' 0 16).zeroExtend 64 }) ∧
    (f.sub = 0 → exec (.rdv f) s = .next (s.setCtl .c { x with ended := true, wait := none, rdv := none })) ∧
    (f.sub ≠ 0 → x.rdv = none →
      exec (.rdv f) s = .next ((s.setCtl .c { x with rdv := some f.sub, rdvAt := s.now }).noteWait .c .rdv)) ∧
    exec (.mcancel f) s =
      .next ((s.setMe { s.me with m := { s.me.m with cancels := s.me.m.cancels ++ [(s.now + 2, g)] } }).advance .c) ∧
    (s.me.semStage i s.now ≤ 2 → exec (.semsig f) s = .next ((s.setMe (s.me.signal i n s.now (s.me.seenBy 0))).advance .c)) ∧
    (2 < s.me.semStage i s.now → exec (.semsig f) s = .next (s.noteWait .c .turn)) ∧
    (n ≤ s.me.semAt i → s.me.semStage i s.now ≤ 3 → exec (.semwait f) s =
      .next ((s.setMe { s.me.semMark i 3 s.now with
        sem := tset 0 s.me.sem i (BitVec.ofNat 16 (s.me.semAt i - n)), seen := seenMore s.me.seen 0 (tget 0 s.me.semSeen i) }).advance .c)) ∧
    (s.me.semAt i < n ∨ 3 < s.me.semStage i s.now → exec (.semwait f) s = .next (s.noteWait .c .sync)) ∧
    ∀ (c : Core) (j k now hb : Nat), k < 65536 →
      (c.signal j k now hb).semAt j = min (c.semAt j + k) 65535 ∧
      (c.signal j k now hb).semOvf = (if 65536 ≤ c.semAt j + k then c.semOvf ||| BitVec.ofNat 16 (2 ^ j) else c.semOvf) ∧
      ∀ i, i ≠ j → (c.signal j k now hb).semAt i = c.semAt i

/-- The frame of the C words that work on registers and queues: with the guard and the queues ready, only the destination register
(or queue), the popped queues, the counter, the wait and, for divisions, XFLAGS of the C stream may change. Memory, every other
core, engine, register, accumulator, system and exception register are as before. -/
def Obligations.CRegisterFrame : Prop :=
  ∀ (f : CrF) (s t : State), guardOn f.g s.cg = true →
    (∀ op ∈ [Instr.add, .sub, .mul, .mulh, .mulhn, .div, .divn, .rem, .remn, .and, .or, .xor, .andn, .sll, .srl, .sra, .min, .max,
        .minn, .maxn, .cmpeq, .cmplt, .cmpltn, .cmple, .cmplen, .addx],
      s.cReady (CrQ f true true) (qName f.qd f.rd) = .ok () → exec (op f) s = .next t →
      FrameC (CrQ f true true ++ qName f.qd f.rd) (dstRegs f.qd f.rd) s t ∧
      (op ∉ [Instr.div, .divn, .rem, .remn] → t.me.c.ctl.xflags = s.me.c.ctl.xflags)) ∧
    (∀ op ∈ [Instr.clz, .ctz, .popc, .xidx, .alnup],
      s.cReady (CrQ f true false) (qName f.qd f.rd) = .ok () → exec (op f) s = .next t →
      FrameC (CrQ f true false ++ qName f.qd f.rd) (dstRegs f.qd f.rd) s t ∧ t.me.c.ctl.xflags = s.me.c.ctl.xflags)

/-- The frame of the CI and CB words: they write their one register and the counter, and nothing else; a write of g0 is discarded,
so that g0 still reads 0 (06 R130). -/
def Obligations.CImmediateFrame : Prop :=
  (∀ (f : CiF) (s t : State), ∀ op ∈ [Instr.addi, .andi, .ori, .xori, .slli, .srli, .srai, .cmpeqi, .cmplti, .lim, .limh, .bext,
      .bins, .bset, .bclr], exec (op f) s = .next t →
    FrameC [] [f.rd.toNat] s t ∧ t.me.c.ctl.xflags = s.me.c.ctl.xflags ∧ t.cg 0 = 0) ∧
  (∀ (f : CbF) (s t : State), ∀ op ∈ [Instr.br, .brl, .bdec], exec (op f) s = .next t →
    FrameC [] (if op f = .br f then [] else [f.ra.toNat]) s t ∧ t.me.c.ctl.xflags = s.me.c.ctl.xflags ∧ t.cg 0 = 0)

/-! The A stream (07). -/

/-- 07 R170, R192: an A word whose queues are ready writes the function of its sources under its destination code, pops its queues
once and goes on, on a run-ahead path too. -/
def Obligations.ARegisterForms : Prop :=
  (∀ (f : ArF) (s : State),
    let x := aSrcQ f.aa.toNat
    let y := aSrcQ f.ab.toNat
    let qs := if x = y then x else x ++ y
    let a := s.aSrc f.aa
    let b := s.aSrc f.ab
    let goesTo (v : W64) : Out := .next (((s.aPop f.pk qs).aDst f.ad v).advance .a)
    s.aReady qs (aDstQ f.ad.toNat) = .ok () →
    exec (.aadd f) s = goesTo (a + b) ∧
    exec (.asub f) s = goesTo (a - b) ∧
    exec (.amul f) s = goesTo (a * b) ∧
    exec (.ashl f) s = goesTo (BitVec.ofNat 64 (a.toNat * 2 ^ (b.toNat % 64))) ∧
    exec (.aand f) s = goesTo (a &&& b) ∧
    exec (.aaddx f) s = goesTo (BitVec.ofInt 64 ((a.toNat : Int) + b.toInt * (widthOf f.wc : Int)))) ∧
  (∀ (f : ArF) (s : State), s.aReady (aSrcQ f.aa.toNat) (aDstQ f.ad.toNat) = .ok () →
    exec (.aswz f) s = .next (((s.aPop f.pk (aSrcQ f.aa.toNat)).aDst f.ad
      (BitVec.ofNat 64 (swizzle (f.w.extractLsb' 0 3).toNat (s.aSrc f.aa).toNat))).advance .a)) ∧
  (∀ (f : AiF) (s : State),
    (s.aReady (aSrcQ f.aa.toNat) (aDstQ f.ad.toNat) = .ok () →
      exec (.aaddi f) s =
        .next (((s.aPop f.pk (aSrcQ f.aa.toNat)).aDst f.ad (s.aSrc f.aa + f.imm.signExtend 64)).advance .a)) ∧
    (s.aReady [] (aDstQ f.ad.toNat) = .ok () →
      exec (.alim f) s = .next ((s.aPop 0 []).aDst f.ad (if f.hi then
        BitVec.ofNat 64 (f.imm.toNat * 2 ^ 32 + (s.me.areg f.ad.toNat).toNat % 2 ^ 32) else f.imm.signExtend 64) |>.advance .a)))

/-- 07 R171, R172, 06 R142: the A stream's control words: `abr` branches on its register, `abdec` counts down, `ajr` jumps and
links (a target that is no multiple of 64 traps), `agen` sets RADEPTH, `abr.rdv` ends the stream or waits at its rendezvous;
of these `ajr`, `agen` and `abr.rdv` wait while a branch is unresolved. -/
def Obligations.AControl : Prop :=
  ∀ (f : AiF) (r : ArF) (s : State),
    let pc := (s.ctl .a).pc
    let tgt := pc + BitVec.ofInt 64 (f.imm.toInt * 64)
    let z := s.me.areg f.aa.toNat
    let v := s.me.areg f.ad.toNat - 1
    let s1 := s.setMe (s.me.setAreg f.ad.toNat v)
    let t := s.aSrc r.aa
    let x := s.ctl .a
    (f.cond = 0 → exec (.abr f) s = .next (s.jump .a tgt)) ∧
    (f.cond = 1 → exec (.abr f) s = .next (if z = 0 then s.advance .a else s.jump .a tgt)) ∧
    (f.cond = 2 → exec (.abr f) s = .next (if z = 0 then s.jump .a tgt else s.advance .a)) ∧
    exec (.abdec f) s = .next (if v = 0 then s1.advance .a else s1.jump .a tgt) ∧
    (s.me.a.ckpts = [] →
      (s.aReady (aSrcQ r.aa.toNat) (aDstQ r.ad.toNat) = .ok () →
        exec (.ajr r) s = if t.toNat % 64 = 0 then .next (((s.aPop r.pk (aSrcQ r.aa.toNat)).aDst r.ad (pc + 64)).jump .a t)
          else .next (s.takeTrap .a { cause := .fetchAlign, info := t })) ∧
      exec (.agen f) s = .next ((s.setMe { s.me with a := { s.me.a with radepth := f.gen.toNat } }).advance .a) ∧
      (f.imm.extractLsb' 0 5 = 0 → exec (.abrRdv f) s = .next (s.setCtl .a { x with ended := true, wait := none, rdv := none })) ∧
      (f.imm.extractLsb' 0 5 ≠ 0 → x.rdv = none → exec (.abrRdv f) s =
        .next ((s.setCtl .a { x with rdv := some (f.imm.extractLsb' 0 5), rdvAt := s.now }).noteWait .a .rdv))) ∧
    (s.me.a.ckpts ≠ [] → exec (.ajr r) s = .next (s.noteWait .a .free) ∧ exec (.agen f) s = .next (s.noteWait .a .free) ∧
      exec (.abrRdv f) s = .next (s.noteWait .a .free)) ∧
    ((Instr.agen f).WellFormed → f.gen.toNat ≤ 3 ∧ f.ad = 0 ∧ f.aa = 0 ∧ f.imm = 0)

/-- 07 R173, R174: `abr.q7` takes the oldest entry of q7 and branches on its bit 0; with `.likely` the A stream goes on at the target
at once, under a checkpoint of its registers, as long as fewer than RADEPTH branches are unresolved; beyond that it waits for q7. A
resolution takes the oldest entry of q7 for the oldest unresolved branch. Bit 0 set confirms its path: its flags are set and its queue
entries are no longer held. Else the registers are those of its checkpoint, the stream stands behind the branch, every later branch is
dropped, and no held entry or load of an unresolved path is left.
Where the spec leaves a choice, these are the model's: log entry 9. -/
def Obligations.ARunAhead : Prop :=
  (∀ (f : AiF) (s : State),
    let c := s.me
    let tgt := (s.ctl .a).pc + BitVec.ofInt 64 (f.imm.toInt * 64)
    let g := c.a.gen + 1
    let k : Ckpt := { a := c.a.a, g := c.a.g, addr := c.a.ctl.pc, gen := g, xflags := 0 }
    (∀ e, c.a.ckpts = [] → c.qHead 7 s.now = some e → e.psn = false →
      let s1 := s.setMe (c.qPop 7 s.now)
      let t : Out := .next (if e.val.getLsbD 0 then s1.jump .a tgt else s1.advance .a)
      exec (.abrQ7 f) s = t ∧ (c.a.radepth = 0 → exec (.abrQ7Likely f) s = t)) ∧
    (c.a.ckpts.length < c.a.radepth →
      exec (.abrQ7Likely f) s =
        .next ((s.setMe { c with a := { c.a with gen := g, ckpts := c.a.ckpts ++ [k] } }).jump .a tgt)) ∧
    (c.a.ckpts ≠ [] → c.a.radepth ≤ c.a.ckpts.length → exec (.abrQ7Likely f) s = .next (s.noteWait .a (.queue 7)))) ∧
  (∀ (s : State) (k : Ckpt) (ks : List Ckpt) (e : QEntry),
    s.me.a.ckpts = k :: ks → s.me.qHead 7 s.now = some e → s.me.running s.now = true →
    ∃ t, exec .likelyResolution s = .next t ∧ SameRest s t ∧ OtherCores s t ∧
      (e.val.getLsbD 0 = true → t.me.a.ckpts = ks ∧ t.me.a.a = s.me.a.a ∧ t.me.a.g = s.me.a.g ∧
        t.me.a.ctl = { s.me.a.ctl with xflags := s.me.a.ctl.xflags ||| k.xflags } ∧
        ∀ n ∈ [0, 1, 6], ∀ x ∈ (t.me.queue n).ents, x.held = true → x.gen ≠ k.gen) ∧
      (e.val.getLsbD 0 = false → t.me.a.ckpts = [] ∧ t.me.a.a = k.a ∧ t.me.a.g = k.g ∧ (t.ctl .a).pc = k.addr + 64 ∧
        (t.ctl .a).wait = none ∧ (∀ n ∈ [0, 1, 6], ∀ x ∈ (t.me.queue n).ents, x.held = false) ∧
        (∀ n ∈ [0, 1], ∀ x ∈ (t.me.wqueue n).ents, x.held = false) ∧
        ∀ l ∈ t.me.a.loads, l.gen ≠ k.gen ∧ ∀ b ∈ ks, l.gen ≠ b.gen))

/-- 07 R162, R163, R165, R176, R178, R187, R190: `lda` whose tests and waits are over reads its element at its address and gives its
destination the sign- or zero-extended bits: from the own aperture (`.clr` then empties the granules) or from memory; a poisoned one is
read as zeros under `.zf`, with ZF, else goes on to a queue or traps POISON. A replica that serves the read shows the granule as it was
(R308). Through a window it sends a read request. Its tests, in their order: translation and window (20 R397), LDST_SCOPE, MISALIGN,
ROLE_FAULT; the first that fails stops the word, or on a run-ahead path holds it. What an address names, for every access: the own
aperture; a peer through an open window within its extent, else LDST_SCOPE or WINDOW_FAULT; else what its page maps, where a page that does
not permit the access traps PERM_FAULT, a walk that failed PAGE_FAULT, and a page without entry is walked.
Where the spec leaves a choice, these are the model's: log entries 6, 29, 31 and 56. -/
def Obligations.ALoads : Prop :=
  (∀ (f : AiF) (s : State) (t : Target) (sw : Bool),
    let w := widthOf f.wc
    let ea := s.aEa f
    let dq := aDstQ f.ad.toNat
    (s.me.a.ckpts = [] ∨ f.clr = false) → s.me.regLoad s.me.a.ctl.pc = false →
    s.target s.cur (.stream .a) .r true ea w = .ok (t, sw) → feScope t (f.wait || f.clr) ea = .ok () →
    let r := s.viewed t.local
    elemPlace t sw ea w = .ok () → r.rolePieces s.cur s.job s.myPkg t.local .rd = true →
    (∀ n ∈ dq, s.me.qFree n s.now = true) →
    let p := r.psnPieces s.myPkg t.local
    let v := if f.zf then r.rdPiecesZf s.myPkg t.local else r.rdPieces s.myPkg t.local
    let s0 := s.drawn t.local
    let x : W64 := if f.b27 = 1 then BitVec.ofInt 64 (nsext v w) else BitVec.ofNat 64 v
    let s1 := if f.zf && p then s0.aFlags fZF else s0
    let got := (s1.usePages .a ea w).aDst f.ad x (p && !f.zf)
    let trapped : Out := .next (s.takeTrap .a { cause := .poison, info := BitVec.ofNat 64 ea })
    (∀ o ps, t = .own o ps → s.me.footHits ps false = false → (f.wait = true → s.allFull s.cur ps = true) →
      (p = true → f.zf = true ∨ dq ≠ [] → exec (.lda f) s = .next ((if f.clr then got.emptyFe s.cur ps false else got).advance .a)) ∧
      (p = false → exec (.lda f) s = .next ((if f.clr then got.emptyFe s.cur ps false else got).advance .a)) ∧
      (p = true → f.zf = false → dq = [] → s.me.a.ckpts = [] → exec (.lda f) s = trapped)) ∧
    (∀ ps, t = .mem ps → s.memClear ps false = .ok () →
      (p = true → f.zf = true ∨ dq ≠ [] → exec (.lda f) s = .next (got.advance .a)) ∧
      (p = false → exec (.lda f) s = .next (got.advance .a)) ∧
      (p = true → f.zf = false → dq = [] → s.me.a.ckpts = [] → exec (.lda f) s = trapped)) ∧
    (∀ win pkg n o rs u, t = .peer win pkg n o rs →
      s.readPeer win pkg n rs w ea f.ad.toNat (f.b27 == 1) f.zf 0 = .ok u → exec (.lda f) s = .next u)) ∧
  (∀ (f : AiF) (s : State), s.me.regLoad s.me.a.ctl.pc = false →
    let w := widthOf f.wc
    let ea := s.aEa f
    let dest := s.target s.cur (.stream .a) .r true ea w
    let stops (e : Stop) : Prop := (s.me.a.ckpts = [] → exec (.lda f) s = .next (s.finish .a (.error e))) ∧
      (s.me.a.ckpts ≠ [] → (∃ t, e = .trap t) → exec (.lda f) s = .next (s.noteWait .a .free))
    (∀ e, dest = .error e → stops e) ∧
    ∀ t sw, dest = .ok (t, sw) →
      (∀ e, feScope t (f.wait || f.clr) ea = .error e → stops e) ∧
      (feScope t (f.wait || f.clr) ea = .ok () →
        (∀ e, elemPlace t sw ea w = .error e → stops e) ∧
        (elemPlace t sw ea w = .ok () → (s.viewed t.local).rolePieces s.cur s.job s.myPkg t.local .rd = false → stops (trAt .roleFault ea)))) ∧
  (∀ (s : State) (st : Str), (∀ t, s.finish st (.error (.trap t)) = s.takeTrap st t) ∧
    (∀ k, s.finish st (.error (.wait k)) = s.noteWait st k) ∧
    ∀ va, s.finish st (.error (.walk va)) = (s.askWalk s.cur (.stream st) va).noteWait st .free) ∧
  (∀ (s : State) (cl : Waiter) (p : Perm) (wins : Bool) (ea n : Nat), p ≠ .x → 0 < n → numOf s.cur < 768 →
    let dest := s.target s.cur cl p wins ea n
    let x := s.job.rcd.ctx
    (∀ o, ea = selfVa + o → o + n ≤ 2 ^ 30 → dest = .ok (.own o (cuts (apAddr (numOf s.cur) o) n), false)) ∧
    (∀ k o, ea = winVa + 2 ^ 30 * k + o → o < 2 ^ 30 → ea < winVaEnd →
      let y := tget {} s.me.fab.win k
      dest = if wins = false ∨ 16 ≤ k then .error (trAt .ldstScope ea)
           else if y.v = false ∨ 128 * (y.extm1 + 1) < o + n then .error (trAt .windowFault ea)
           else .ok (.peer k y.pkg y.core (128 * y.tb + o) [(128 * y.tb + o, n)], false)) ∧
    (¬(winVa ≤ ea ∧ ea < winVaEnd) → ¬(selfVa ≤ ea ∧ ea < selfVa + 2 ^ 30) → ¬(absVa ≤ ea ∧ ea < absVa + 768 * 2 ^ 30) → s.me.job ≠ none →
      (∀ e, (s.me.tlbFor cl).find? (·.covers x ea) = some e →
        (e.allows p = false → dest = .error (.trap { cause := .permFault, info := BitVec.ofNat 64 ea, sub := p.sub })) ∧
        (∀ d o, e.allows p = true → ea % 128 + n ≤ 128 → place (e.pa + swizzle e.swz (ea - e.va)) = .dram d o →
          dest = .ok (.mem [(e.pa + swizzle e.swz (ea - e.va), n)], e.swz != 0))) ∧
      ((s.me.tlbFor cl).find? (·.covers x ea) = none →
        (s.me.walkFaultOf cl = none → dest = .error (.walk ea)) ∧
        ∀ va sub, s.me.walkFaultOf cl = some (va, sub) → va.toNat / 2 ^ 19 = ea / 2 ^ 19 →
          dest = .error (.trap { cause := .pageFault, info := BitVec.ofNat 64 ea, sub := sub })))) ∧
  ∀ (t : Target) (sw use : Bool) (ea w : Nat),
    let fits (a : Nat) : Bool := a % w == 0 && (if w ∈ [3, 6, 12, 24, 48] then a % 384 + w ≤ 384 else a % 128 + w ≤ 128)
    let place (scope : Bool) (a : Nat) (cross : Bool) : Except Stop Unit :=
      if scope = false then .error (trAt .ldstScope ea) else if fits a = false ∨ cross = true then .error (trAt .misalign ea) else .ok ()
    (∀ o ps, t = .own o ps →
      elemPlace t sw ea w = place (ps.all (offIn .scratch) || ps.all (offIn .acc)) o (sw && 128 < o % 128 + w) ∧
      feScope t use ea = if use = true ∧ ps.all (offIn .scratch) = false then .error (trAt .ldstScope ea) else .ok ()) ∧
    (∀ ps, t = .mem ps → elemPlace t sw ea w = place true ea (sw && 128 < ea % 128 + w) ∧
      feScope t use ea = if use then .error (trAt .ldstScope ea) else .ok ()) ∧
    (∀ win pkg n o rs, t = .peer win pkg n o rs →
      elemPlace t sw ea w =
        place ((rs.all fun r => inPart .scratch r.1 r.2) || rs.all fun r => inPart .acc r.1 r.2) o (sw && 128 < o % 128 + w) ∧
      feScope t use ea = if use then .error (trAt .ldstScope ea) else .ok ())

/-- 07 R177, R178: `ldv` pushes 2,048 bits at its address, with its tag and the poison of its granules, on wq0 or wq1. The first of its
tests that fails stops it: translation and window, LDST_SCOPE, MISALIGN (no multiple of 128), ROLE_FAULT.
Where the spec leaves a choice, these are the model's: log entries 6, 29, 31 and 56. -/
def Obligations.AVectorLoads : Prop :=
  (∀ (f : AiF) (s : State) (t : Target) (sw : Bool),
    let ea := s.aEa f
    let q := f.ad.toNat - 27
    (s.me.a.ckpts = [] ∨ f.clr = false) →
    s.target s.cur (.stream .a) .r true ea 2048 = .ok (t, sw) → feScope t (f.wait || f.clr) ea = .ok () →
    let r := s.viewed t.local
    widePlace t false ea = .ok () → r.rolePieces s.cur s.job s.myPkg t.local .rd = true → s.me.wqFree q s.now = true →
    let p := r.psnPieces s.myPkg t.local
    let v := if f.zf then r.rdPiecesZf s.myPkg t.local else r.rdPieces s.myPkg t.local
    let s0 := s.drawn t.local
    let s1 := (if f.zf && p then s0.aFlags fZF else s0).usePages .a ea 2048
    let got := s1.setMe (s1.me.wqPush q { val := { bits := BitVec.ofNat 2048 v, tag := f.tag, psn := p && !f.zf },
                                          gen := s1.me.a.gen, held := s1.me.onPath, rdy := s.now + 2 })
    (∀ o ps, t = .own o ps → s.me.footHits ps false = false → (f.wait = true → s.allFull s.cur ps = true) →
      exec (.ldv f) s = .next ((if f.clr then got.emptyFe s.cur ps false else got).advance .a)) ∧
    (∀ ps, t = .mem ps → s.memClear ps false = .ok () → exec (.ldv f) s = .next (got.advance .a)) ∧
    (∀ win pkg n o rs u, t = .peer win pkg n o rs →
      s.readPeer win pkg n rs 2048 ea f.ad.toNat false f.zf f.tag = .ok u → exec (.ldv f) s = .next u)) ∧
  (∀ (f : AiF) (s : State), s.me.a.ckpts = [] →
    let ea := s.aEa f
    let dest := s.target s.cur (.stream .a) .r true ea 2048
    let stops (e : Stop) : Prop := exec (.ldv f) s = .next (s.finish .a (.error e))
    (∀ e, dest = .error e → stops e) ∧
    ∀ t sw, dest = .ok (t, sw) →
      (∀ e, feScope t (f.wait || f.clr) ea = .error e → stops e) ∧
      (feScope t (f.wait || f.clr) ea = .ok () →
        (∀ e, widePlace t false ea = .error e → stops e) ∧
        (widePlace t false ea = .ok () → (s.viewed t.local).rolePieces s.cur s.job s.myPkg t.local .rd = false → stops (trAt .roleFault ea)))) ∧
  ∀ (t : Target) (regs : Bool) (ea : Nat),
    let place (scope : Bool) (a : Nat) : Except Stop Unit :=
      if scope = false then .error (trAt .ldstScope ea) else if a % 128 ≠ 0 then .error (trAt .misalign ea) else .ok ()
    (∀ o ps, t = .own o ps → widePlace t regs ea =
      place (ps.all (offIn .scratch) || ps.all (offIn .acc) || (regs && inPart .regs o 2048 && o % 2048 == 0)) o) ∧
    (∀ ps, t = .mem ps → widePlace t regs ea = place true ea) ∧
    ∀ win pkg n o rs, t = .peer win pkg n o rs → widePlace t regs ea =
      place ((rs.all fun r => inPart .scratch r.1 r.2) || (rs.all fun r => inPart .acc r.1 r.2) ||
        (regs && inPart .regs o 2048 && o % 2048 == 0)) o

/-- 07 R176, R178, 20 R396: `sta` whose tests and waits are over pops its queue source and writes the low bits of its source: into
the own aperture at once, to memory by a write that leaves the core, or through a window by a message; with `.add` it adds them to a
lane, by a message where the lane is another core's. The first of its tests that fails stops it: translation and window, LDST_SCOPE,
MISALIGN, ROLE_FAULT; an add in the own aperture names a lane of the accumulator in a granule that admits it (13 R278), in the scratchpad
and in memory it takes ROLE_FAULT.
Where the spec leaves a choice, these are the model's: log entry 16. -/
def Obligations.AStores : Prop :=
  (∀ (f : AiF) (s : State) (t : Target) (sw : Bool),
    let w := widthOf f.wc
    let ea := s.aEa f
    let va := BitVec.ofNat 64 ea
    let qs := aSrcQ f.ad.toNat
    let v := (s.aSrc f.ad).toNat % 2 ^ w
    let fmt := if f.b27 = 1 then floatTag w else 0
    s.me.a.ckpts = [] → s.aReady qs [] = .ok () →
    (f.add = false → s.target s.cur (.stream .a) .w true ea w = .ok (t, sw) → elemPlace t sw ea w = .ok () →
      s.rolePieces s.cur s.job s.myPkg t.local .wr = true →
      let s1 := (s.aPop f.pk qs).usePages .a ea w
      (∀ o ps, t = .own o ps → s.me.footHits ps true = false →
        exec (.sta f) s = .next ((s1.wrPieces s.myPkg ps v false).advance .a)) ∧
      (∀ ps, t = .mem ps → s.memClear ps true = .ok () →
        exec (.sta f) s = .next ((s1.postMem s.cur ps v false (.stream .a) 1 va).advance .a)) ∧
      (∀ win pkg n o rs, t = .peer win pkg n o rs → s.me.canSend win = true →
        exec (.sta f) s = .next ((s1.postWin s.cur .write win pkg n (memParts false rs v) (.stream .a) 1 va f.ord).advance .a))) ∧
    (f.add = true → s.target s.cur (.stream .a) .add true ea 40 = .ok (t, sw) → s.addTests t 1 ea = .ok () →
      (∀ o ps, t = .own o ps → s.me.footHit o (o + s.laneStep s.cur o) true = false →
        let r := ((s.aPop f.pk qs).usePages .a ea 40).addLane s.cur o fmt w v false
        exec (.sta f) s = .next ((r.1.aFlags r.2).advance .a)) ∧
      (∀ win pkg n o rs, t = .peer win pkg n o rs → s.me.canSend win = true →
        let m := s.newMsg s.cur (if fmt = 0 then .addInt else .addFloat) pkg n [{ at_ := o, w := w, val := v }] (.stream .a) 1 win va
        exec (.sta f) s = .next (((s.aPop f.pk qs).post s.cur { m with w := w, fmt := fmt, pin := f.ord }).advance .a)))) ∧
  (∀ (f : AiF) (s : State), s.me.a.ckpts = [] →
    let w := widthOf f.wc
    let ea := s.aEa f
    let dest := s.target s.cur (.stream .a) .w true ea w
    let ta := s.target s.cur (.stream .a) .add true ea 40
    let stops (e : Stop) : Prop := exec (.sta f) s = .next (s.finish .a (.error e))
    (f.add = false → (∀ e, dest = .error e → stops e) ∧
      ∀ t sw, dest = .ok (t, sw) → (∀ e, elemPlace t sw ea w = .error e → stops e) ∧
        (elemPlace t sw ea w = .ok () → s.rolePieces s.cur s.job s.myPkg t.local .wr = false → stops (trAt .roleFault ea))) ∧
    (f.add = true → (∀ e, ta = .error e → stops e) ∧
      ∀ t sw, ta = .ok (t, sw) → ∀ e, s.addTests t 1 ea = .error e → stops e)) ∧
  ∀ (s : State) (n ea : Nat),
    (∀ o ps, let st := s.laneStep s.cur o
      s.addTests (.own o ps) n ea =
        if inPart .scratch o 1 = false ∧ inPart .acc o 1 = false then .error (trAt .ldstScope ea)
        else if inPart .acc o 1 = false then .error (trAt .roleFault ea)
        else if inPart .acc o (st * n) = false then .error (trAt .ldstScope ea)
        else if (o - accBase) % st ≠ 0 then .error (trAt .misalign ea)
        else if s.lanesAddOk s.cur s.job.rcd.ctx o st n then .ok () else .error (trAt .roleFault ea)) ∧
    (∀ ps, s.addTests (.mem ps) n ea = .error (trAt .roleFault ea)) ∧
    ∀ win pkg k o rs, s.addTests (.peer win pkg k o rs) n ea =
      if inPart .scratch o 1 = false ∧ inPart .acc o (40 * n) = false then .error (trAt .ldstScope ea)
      else if inPart .acc o 1 = true ∧ (o - accBase) % 40 ≠ 0 then .error (trAt .misalign ea) else .ok ()

/-- 07 R177, R163: `stv` whose tests are over pops wq2 or wq3 and writes the 2,048 bits with their poison: into the own scratchpad or
accumulator, into a V register through the own register window (tag RAW), or to memory; with `.add` it adds the elements of an
unpoisoned vector with a tag into lanes, element i into lane i, through a window in two messages, which leave
together as far as the window has room; the second of a window of one message leaves when the first is answered. The first of its tests that
fails stops it: with `.add` ATOMIC_FAULT, TAG_MISMATCH of a vector without tag, POISON, translation and window of every lane, LDST_SCOPE,
MISALIGN, ROLE_FAULT; last it waits for its entry (15 R332), of which till then it knows no element but the first.
Where the spec leaves a choice, these are the model's: log entries 16, 17 and 28. -/
def Obligations.AVectorStores : Prop :=
  (∀ (f : AiF) (s : State) (t : Target) (sw : Bool) (e : WEntry),
    let ea := s.aEa f
    let q := f.ad.toNat - 25
    let pop (u : State) : State := if f.pk = 1 then u else u.setMe (u.me.wqPop q s.now)
    let s1 := (pop s).usePages .a ea 2048
    let es := elemsOf e.val
    let tag := e.val.tag.toNat
    s.me.a.ckpts = [] → s.me.a.half = none → s.me.wqHead q s.now = some e →
    (f.add = false → s.target s.cur (.stream .a) .w true ea 2048 = .ok (t, sw) → widePlace t true ea = .ok () →
      (∀ o ps, t = .own o ps → s.me.footHits ps true = false →
        (inPart .regs o 2048 = true →
          exec (.stv f) s = .next ((s1.setMe (s1.me.setWholeV ((o - regBase) / 2048) e.val.bits e.val.psn)).advance .a)) ∧
        (inPart .regs o 2048 = false → s.rolePieces s.cur s.job s.myPkg ps .wr = true →
          exec (.stv f) s = .next ((s1.wrPieces s.myPkg ps e.val.bits.toNat e.val.psn).advance .a))) ∧
      (∀ ps, t = .mem ps → s.rolePieces s.cur s.job s.myPkg ps .wr = true → s.memClear ps true = .ok () →
        exec (.stv f) s =
          .next ((s1.postMem s.cur ps e.val.bits.toNat e.val.psn (.stream .a) 1 (BitVec.ofNat 64 ea)).advance .a)) ∧
      (∀ win pkg n o rs u, t = .peer win pkg n o rs → s.sendWide win pkg n o rs e.val (BitVec.ofNat 64 ea) f.ord pop = .ok u →
        exec (.stv f) s = .next u)) ∧
    (f.add = true → e.val.tag ≠ 0 → e.val.psn = false → s.target s.cur (.stream .a) .add true ea 40 = .ok (t, sw) →
      s.lanesInWindow ea es.length = .ok () → s.addTests t es.length ea = .ok () →
      (∀ o ps, t = .own o ps → s.me.footHit o (o + s.laneStep s.cur o * es.length) true = false →
        let r := ((pop s).usePages .a ea 40).addLanes s.cur o (s.laneStep s.cur o) (addFmt tag) (tagWidth tag) es
        exec (.stv f) s = .next ((r.1.aFlags r.2).advance .a)) ∧
      (∀ win pkg n o rs, t = .peer win pkg n o rs →
        let k := 1664 / tagWidth tag
        let msg (l : List Nat) (skip : Nat) : Msg :=
          let m := s.newMsg s.cur (if addFmt tag = 0 then .addInt else .addFloat) pkg n
            (l.zipIdx.map fun x => { at_ := o + 40 * (skip + x.2), w := tagWidth tag, val := x.1 }) (.stream .a) 1 win
            (BitVec.ofNat 64 (ea + 40 * skip))
          { m with w := tagWidth tag, fmt := addFmt tag, pin := f.ord, skip := skip }
        let s2 := s.post s.cur (msg (es.take k) 0)
        (k < es.length → s.me.canSend2 win false = true →
          (s2.me.canSend win = true → exec (.stv f) s = .next ((pop (s2.post s.cur (msg (es.drop k) k))).advance .a)) ∧
          (s2.me.canSend win = false → exec (.stv f) s = .next
            ((s2.setMe { s2.me with a := { s2.me.a with half := some (s.me.a.ctl.pc, msg (es.drop k) k) } }).noteWait .a .free)))))) ∧
  (∀ (f : AiF) (s : State) (m : Msg), s.me.a.ckpts = [] → s.me.a.half = some (s.me.a.ctl.pc, m) → s.me.canSend m.win = true →
    let s1 := s.post s.cur m
    let s2 := s1.setMe { s1.me with a := { s1.me.a with half := none } }
    exec (.stv f) s = .next ((if f.pk = 1 then s2 else s2.setMe (s2.me.wqPop (f.ad.toNat - 25) s.now)).advance .a)) ∧
  (∀ (f : AiF) (s : State), s.me.a.ckpts = [] → s.me.a.half = none →
    let ea := s.aEa f
    let q := f.ad.toNat - 25
    let x := s.me.wqHead q s.now
    let dest := s.target s.cur (.stream .a) .w true ea 2048
    let ta := s.target s.cur (.stream .a) .add true ea 40
    let stops (e : Stop) : Prop := exec (.stv f) s = .next (s.finish .a (.error e))
    (f.add = false → (∀ e, dest = .error e → stops e) ∧
      ∀ t sw, dest = .ok (t, sw) → (∀ e, widePlace t true ea = .error e → stops e) ∧
        (widePlace t true ea = .ok () →
          let open_ := (match t with | .own o _ => inPart .regs o 2048 | _ => false) || s.rolePieces s.cur s.job s.myPkg t.local .wr
          (open_ = false → stops (trAt .roleFault ea)) ∧ (open_ = true → x = none → stops (.wait (.queue (8 + q)))))) ∧
    (f.add = true →
      (∀ e, ta = .error (.trap e) → e.cause = .atomicFault → stops (.trap e)) ∧
      (atomicFirst ta = .ok () →
        (∀ y, x = some y → (y.val.tag = 0 → stops (tr .tagMismatch)) ∧ (y.val.tag ≠ 0 → y.val.psn = true → stops (tr .poison))) ∧
        ((∀ y, x = some y → y.val.tag ≠ 0 ∧ y.val.psn = false) →
          let n := match x with | none => 1 | some y => (elemsOf y.val).length
          (∀ e, ta = .error e → stops e) ∧
          ∀ t sw, ta = .ok (t, sw) →
            (∀ e, s.lanesInWindow ea n = .error e → stops e) ∧
            (s.lanesInWindow ea n = .ok () → (∀ e, s.addTests t n ea = .error e → stops e) ∧
              (s.addTests t n ea = .ok () → x = none → stops (.wait (.queue (8 + q))))))))) ∧
  ∀ (s : State) (k o n : Nat), o < 2 ^ 30 → k < 16 →
    s.lanesInWindow (winVa + 2 ^ 30 * k + o) n =
      if 128 * ((tget {} s.me.fab.win k).extm1 + 1) < o + 40 * n then .error (trAt .windowFault (winVa + 2 ^ 30 * k + o)) else .ok ()

/-- 07 R188, R189: the full/empty words act on whole granules of the own scratchpad, each where its page puts it: `fewait` waits until
all are full and with `.clr` empties them, `feset` fills and `feclr` empties them; a range that does not pass its tests stops the word, an
offset that is no multiple of 128 with MISALIGN; `pf` has no visible effect.
Where the spec leaves a choice, these are the model's: log entry 32. -/
def Obligations.AFullEmpty : Prop :=
  ∀ (f : AiF) (s : State),
    let ea := s.aEa f
    let n := 128 * f.n
    exec (.pf f) s = .next (s.advance .a) ∧
    (∀ ps, s.me.a.ckpts = [] → s.feRange f .r = .ok ps →
      (s.allFull s.cur ps = true → exec (.fewait f) s =
        .next ((if f.clr then (s.usePages .a ea n).emptyFe s.cur ps false else s.usePages .a ea n).advance .a)) ∧
      (s.allFull s.cur ps = false → exec (.fewait f) s = .next (s.noteWait .a (.fe (BitVec.ofNat 64 ea))))) ∧
    (∀ ps, s.me.a.ckpts = [] → s.feRange f .w = .ok ps →
      exec (.feset f) s = .next (((s.usePages .a ea n).emptyFe s.cur ps true).advance .a) ∧
      exec (.feclr f) s = .next (((s.usePages .a ea n).emptyFe s.cur ps false).advance .a)) ∧
    (∀ e, s.me.a.ckpts = [] →
      (s.feRange f .r = .error e → exec (.fewait f) s = .next (s.finish .a (.error e))) ∧
      (s.feRange f .w = .error e →
        exec (.feset f) s = .next (s.finish .a (.error e)) ∧ exec (.feclr f) s = .next (s.finish .a (.error e)))) ∧
    ∀ (p : Perm) (o : Nat), p ≠ .x → numOf s.cur < 768 → ea = selfVa + o → o + n ≤ scratchBits → 0 < n →
      let ps := cuts (apAddr (numOf s.cur) o) n
      s.feRange f p = if o % 128 = 0 then .ok ps else .error (trAt .misalign ea)

/-- 07 R160, R179, R180, R183 to R185: a copy word that passes COPY_RANGE takes a slot of the copy engine and its footprint entries
with the next number of issue, and the stream goes on, but leaves the first free entry to the head of the M queue; a count of 0
completes at once and signals the semaphore it names.
Where the spec leaves a choice, these are the model's: log entries 24, 33 and 86. -/
def Obligations.ACopyIssue : Prop :=
  ∀ (f : ArF) (s : State) (k : Copy) (i : Instr),
    let n (r : BitVec 5) : Nat := (s.me.areg r.toNat).toNat
    let base (kind : CopyKind) : Copy :=
      { id := 0, kind := kind, word := s.me.a.ctl.pc, dst := s.me.areg f.ad.toNat, src := s.me.areg f.aa.toNat, n := 0, w := widthOf f.wc,
        ix64 := f.ix == 1, fl := f.fl == 1, wait := f.wait, clr := f.clr, zf := f.zf, ord := f.ord, add := f.add,
        sen := f.sen == 1, sid := f.sid }
    let qa := aSrcQ f.aa.toNat
    let qb := aSrcQ f.ab.toNat
    let row := f.n13.toNat + 1
    let pop : List Nat := if i = .cpz f then qa else if i = .cpg f then qb else []
    s.me.a.ckpts = [] →
    (i = .cp f ∧ k = { base .cp with n := n f.ab } ∨
     i = .cpz f ∧ k = { base .cpz with src := 0, imm := s.aSrc f.aa, n := n f.ab } ∧ s.aReady qa [] = .ok () ∨
     i = .cpt f ∧ k = { base .cpt with n := n f.ab, m := row, pitch := s.me.areg f.ac.toNat } ∨
     i = .cpg f ∧ k = { base .cpg with m := row, fromQ := !qb.isEmpty, idx := s.aSrc f.ab, n := if qb = [] then n f.ac else 1 } ∧
       s.aReady qb [] = .ok () ∨
     i = .cps f ∧ k = { base .cps with m := row, idx := s.me.areg f.ab.toNat, n := n f.ac }) →
    let x : Copy := { k with id := s.me.stamp }
    let fin (u : State) : Out := .next ((if i = .cpz f ∨ i = .cpg f then u.aPop f.pk pop else u).advance .a)
    (s.copyRange x = false → exec i s = .next (s.takeTrap .a { cause := .copyRange })) ∧
    (s.copyRange x = true → x.total = 0 →
      k.sen = false ∨ s.me.semStage k.sid.toNat s.now ≤ 2 →
      exec i s = fin (if k.sen then s.setMe (s.me.signal k.sid.toNat 1 s.now s.me.stamp) else s)) ∧
    (s.copyRange x = true → x.total ≠ 0 → s.me.a.copies.length < 8 →
      let fs := s.copyFeet x
      fs = [] ∨ s.me.feet.length + fs.length + (if s.me.headWants then 1 else 0) ≤ 16 →
      exec i s = fin (s.setMe { s.me with feet := s.me.feet ++ fs, stamp := s.me.stamp + 1,
                                          a := { s.me.a with copies := s.me.a.copies ++ [x] } }))

/-- 07 R181, R182, R184: a copy completes when every element is done and answered: it and its footprint entries leave, its semaphore
is signalled and ZF is set where it read zeros; a copy whose next element faults leaves with the fault recorded in CFADDR and
CFINFO, once, and COPY_FAULT, or the fault with which a home refused its read (20 R399), is due to the first stream that can take it. A copy that replaces a register has no element done before the
last: its first element that faults stops it, with INDEX 0.
Where the spec leaves a choice, these are the model's: log entries 33, 35, 58, 72 and 86. -/
def Obligations.ACopyEnds : Prop :=
  ∀ (s : State) (x : Copy), s.me.copy? s.ev.id = some x →
    let c := s.me.dropCopy x.id
    let ends (ix : Nat) (t : Trap) : Out := .next (if c.a.cfValid then s.setMe c else
      (s.setMe { c with a := { c.a with cfaddr := x.word, cfCause := BitVec.ofNat 8 t.cause.code, cfValid := true,
                                        cfIndex := BitVec.ofNat 32 ix } }).deferTrap s.cur
        (if x.refusal s.ev.el = some t then t else { cause := .copyFault, info := x.word }))
    (x.allDone = true → x.owed = 0 → (x.sen = false ∨ s.me.semStage x.sid.toNat s.now ≤ 2) →
      exec .copyComplete s =
        .next (s.setMe ((if x.sen then c.signal x.sid.toNat 1 s.now x.seen else c).orFlags .a (if x.zfSet then fZF else 0)))) ∧
    (∀ t, x.started = true → x.isDone s.ev.el = false → s.ev.el < x.total → s.copyFault x s.ev.el = some (.stop (.trap t)) →
      (s.toRegs x = false → x.below s.ev.el = true → exec .copyStop s = ends (x.faultIx s.ev.el) t) ∧
      (s.toRegs x = true → (∀ i, i < s.ev.el → s.copyFault x i = none) → exec .copyStop s = ends (x.faultIx 0) t))

/-- 07 R178, 20 R399: the data of a load that has come back fill its register, and the stream goes on, or its queue entry; a home's
fault into a register traps the A stream at the word. ZF of a `.zf` load stays with the path on which the load was issued (05 R109).
Where the spec leaves a choice, these are the model's: log entry 6. -/
def Obligations.ALoadReturn : Prop :=
  ∀ (s : State) (l : Load) (v vz : Nat) (p : Bool),
    s.me.a.loads.find? (·.id == s.ev.id) = some l → l.ret = some (v, vz, p) →
    let c := { s.me with a := { s.me.a with loads := s.me.a.loads.filter (·.id != l.id) } }
    let y := if l.zf && p then vz else v
    let flagged (u : State) : State := if l.zf && p then u.setMe (u.me.aFlagsAt l.gen fZF) else u
    (∀ r, l.dst = .areg r → s.me.a.ctl.stopped = false → s.me.dead = false → s.me.a.ctl.pc = l.word → s.me.a.ckpts = [] →
      (l.bad = none → (p = true → l.zf = true) →
        exec .loadReturn s =
          .next (flagged ((s.setMe (c.setAreg r (extend l.sx l.w y))).advance .a))) ∧
      (∀ t, l.bad = some t → exec .loadReturn s = .next ((s.setMe c).takeTrap .a t))) ∧
    (∀ n, l.dst = .q n ∨ l.dst = .wq n → l.bad = none →
      exec .loadReturn s =
        .next (flagged (s.setMe (c.fillEntry l y (p && !l.zf) s.now))))

/-! The V stream (08, 09). -/

/-- 08 R206, R207, R209: the elementwise words on integer elements: a ready word sends its result to land after its latency and goes
on. Every active element is the function of the sources' elements at its place, wrapped to the element width; the saturating forms
clamp and set OF; a shift counts modulo the width. -/
def Obligations.VIntegers : Prop :=
  ∀ (f : VF) (s : State), tagFloat (VF.t f) = false →
    let w := VF.w f
    let one := [VF.a f]
    let two := [VF.a f, VF.b f]
    let x (v : Nat) : Int := nsext v w
    let goesTo (srcs : List VOp) (lat : Nat) (op : Nat → Nat → Nat → Nat × Fl) : Out :=
      .next (vDone s f.pk (vElemUse f srcs) lat (vLaneOut f s srcs op) s)
    (VReady f.g (vElemUse f two) s →
      exec (.vadd f) s = goesTo two 2 (fun a b _ => (itrunc (x a + x b) w, 0)) ∧
      exec (.vsub f) s = goesTo two 2 (fun a b _ => (itrunc (x a - x b) w, 0)) ∧
      exec (.vmul f) s = goesTo two 4 (fun a b _ => (itrunc (x a * x b) w, 0)) ∧
      exec (.vmin f) s = goesTo two 2 (fun a b _ => (if x b < x a then b else a, 0)) ∧
      exec (.vmax f) s = goesTo two 2 (fun a b _ => (if x a < x b then b else a, 0)) ∧
      exec (.vsll f) s = goesTo two 2 (fun a b _ => (a * 2 ^ (b % w) % 2 ^ w, 0)) ∧
      exec (.vsrl f) s = goesTo two 2 (fun a b _ => (a / 2 ^ (b % w), 0)) ∧
      exec (.vsra f) s = goesTo two 2 (fun a b _ => (itrunc (x a / ((2 ^ (b % w) : Nat) : Int)) w, 0)) ∧
      exec (.vaddsat f) s = goesTo two 2 (fun a b _ => clampW w (x a + x b)) ∧
      exec (.vsubsat f) s = goesTo two 2 (fun a b _ => clampW w (x a - x b)) ∧
      exec (.vmulhi f) s = goesTo two 4 (fun a b _ =>
        (if f.x 0 then a * b / 2 ^ w else itrunc (x a * x b / ((2 ^ w : Nat) : Int)) w, 0))) ∧
    (VReady f.g (vElemUse f one) s →
      exec (.vabs f) s = goesTo one 2 (fun a _ _ => (itrunc ((x a).natAbs : Int) w, 0)) ∧
      exec (.vneg f) s = goesTo one 2 (fun a _ _ => (itrunc (-(x a)) w, 0)))

/-- 08 R206 to R208: the elementwise words on floating elements: the exact function of the sources' values, rounded once to the tag's
format under the word's rounding mode and saturation, with the flags of the reading, the function and the rounding; the fused forms
round the product and sum once. And what reading, rounding and the exact operations are (05 R111 to R118): a representable value rounds to
its own code without a flag; another magnitude between the neighbours `fmtMag F k` and `fmtMag F (k + 1)` goes to the one that the mode
takes, with NX, and UF where the rounded magnitude is tiny; past the largest finite value the result is that of R115; NaN and infinities are
R112's and R115's; the invalid cases of R113 give NaN and NV; a zero has the sign of R114. -/
def Obligations.VFloats : Prop :=
  (∀ F ∈ floatFmts, ∀ (md : Nat) (sat : Bool), md ≤ 4 →
    let sgn (neg : Bool) : Nat := if neg then F.sign else 0
    let ovf (neg : Bool) : Nat × Fl :=
      if sat = true ∨ F.kind = 0 ∨ md = 2 ∨ (md = 3 ∧ neg = false) ∨ (md = 4 ∧ neg = true) then (sgn neg + F.maxCode, fOF ||| fNX)
      else if F.kind = 1 then (F.nanCode, fOF ||| fNX ||| fNV) else (sgn neg + F.infCode, fOF ||| fNX)
    F.round md sat .nan = (F.nanCode, if F.kind = 0 then fNV else 0) ∧
    (∀ neg, F.round md sat (.inf neg) = if sat = true ∨ F.kind = 0 then (sgn neg + F.maxCode, fOF)
      else if F.kind = 1 then (F.nanCode, fNV) else (sgn neg + F.infCode, 0)) ∧
    (∀ neg k, k ≤ F.maxCode → ∃ m e, F.read (sgn neg + k) = (.fin neg m e false, 0) ∧
      m * 2 ^ (e - (1 - F.bias - F.m)).toNat = fmtMag F k ∧ 1 - F.bias - F.m ≤ e ∧
      F.round md sat (.fin neg m e false) = (sgn neg + k, 0)) ∧
    (∀ neg m e k, m ≠ 0 → k ≤ F.maxCode →
      let lo : Int := 1 - F.bias - F.m
      let c := 2 ^ (lo - e).toNat
      let x := m * 2 ^ (e - lo).toNat
      let y (k : Nat) : Nat := fmtMag F k * c
      (y k ≤ x → x < y (k + 1) →
        let k1 := if roundsFrom md neg (k % 2 == 1) (y k) x (y (k + 1)) then k + 1 else k
        let half := (2 ^ (F.m + 1) - 1) * c
        let tiny := k1 < 2 ^ F.m ∨ (k1 = 2 ^ F.m ∧ x < y k1 ∧ ¬(half ≤ 2 * x ∧ roundsFrom md neg true half (2 * x) (2 * y k1) = true))
        F.round md sat (.fin neg m e false) = if k1 ≤ F.maxCode then
          (sgn neg + k1, if x = y k then 0 else if tiny then fNX ||| fUF else fNX) else ovf neg) ∧
      (y (F.maxCode + 1) ≤ x → F.round md sat (.fin neg m e false) = ovf neg)) ∧
    (F.kind = 2 → ∀ neg f, f < 2 ^ F.m →
      F.read (sgn neg + F.infCode + f) = if f = 0 then (.inf neg, 0) else (.nan, if f < 2 ^ (F.m - 1) then fNV else 0)) ∧
    (F.kind = 1 → ∀ neg, F.read (sgn neg + F.sign - 1) = (.nan, 0))) ∧
  (∀ (md : Nat) (s t : Bool) (m n : Nat) (e g : Int) (v : Val),
    let x : Val := .fin s m e false
    let y : Val := .fin t n g false
    let u := if e ≤ g then e else g
    let z : Int := (if s then -1 else 1) * (m * 2 ^ (e - u).toNat : Nat) + (if t then -1 else 1) * (n * 2 ^ (g - u).toNat : Nat)
    x.add md y = (if z ≠ 0 then .fin (z < 0) z.natAbs u false else .fin (if m = 0 ∧ s = t then s else md == 3) 0 0 false, 0) ∧
    x.mul y = (.fin (s != t) (m * n) (e + g) false, 0) ∧
    (n ≠ 0 → ∃ q k st, x.div y = (.fin (s != t) q (e - g - (k : Nat)) st, 0) ∧ 2 ^ 130 ≤ 2 ^ k ∧ q * n ≤ m * 2 ^ k ∧ m * 2 ^ k < (q + 1) * n ∧
      (st = true ↔ q * n ≠ m * 2 ^ k)) ∧
    (n = 0 → x.div y = if m = 0 then (.nan, fNV) else (.inf (s != t), fDZ)) ∧
    (Val.inf s).add md (.inf t) = (if s = t then (.inf s, 0) else (.nan, fNV)) ∧ (Val.inf s).add md y = (.inf s, 0) ∧ x.add md (.inf t) = (.inf t, 0) ∧
    (Val.inf s).mul y = (if n = 0 then (.nan, fNV) else (.inf (s != t), 0)) ∧ x.mul (.inf t) = (if m = 0 then (.nan, fNV) else (.inf (s != t), 0)) ∧
    (Val.inf s).mul (.inf t) = (.inf (s != t), 0) ∧ (Val.inf s).div (.inf t) = (.nan, fNV) ∧ (Val.inf s).div y = (.inf (s != t), 0) ∧
    x.div (.inf t) = (.fin (s != t) 0 0 false, 0) ∧
    (v = .nan ∨ (v = .inf true ∨ ∃ m e, m ≠ 0 ∧ v = .fin true m e false) → v.sqrt = (.nan, if v = .nan then 0 else fNV)) ∧
    Val.add md .nan v = (.nan, 0) ∧ v.add md .nan = (.nan, 0) ∧ Val.mul .nan v = (.nan, 0) ∧ v.mul .nan = (.nan, 0) ∧
    Val.div .nan v = (.nan, 0) ∧ v.div .nan = (.nan, 0)) ∧
  ∀ (f : VF) (s : State), tagFloat (VF.t f) = true →
    let t := VF.t f
    let rm := f.rm.toNat
    let one := [VF.a f]
    let two := [VF.a f, VF.b f]
    let three := [VF.a f, VF.b f, VF.c f]
    let lat := if t = 17 then 6 else 4
    let lat1 := if t = 17 then 14 else 8
    let goesTo (srcs : List VOp) (lat : Nat) (op : Nat → Nat → Nat → Nat × Fl) : Out :=
      .next (vDone s f.pk (vElemUse f srcs) lat (vLaneOut f s srcs op) s)
    let fma (np nc : Bool) (a b c : Val) : Val × Fl :=
      let p := a.mul b
      let z := (if np then p.1.neg else p.1).add rm (if nc then c.neg else c)
      (z.1, p.2 ||| z.2)
    (VReady f.g (vElemUse f two) s →
      exec (.vadd f) s = goesTo two lat (fltOp f fun a b _ => a.add rm b) ∧
      exec (.vsub f) s = goesTo two lat (fltOp f fun a b _ => a.add rm b.neg) ∧
      exec (.vmul f) s = goesTo two lat (fltOp f fun a b _ => a.mul b) ∧
      exec (.vmin f) s = goesTo two 2 (pickOp f false) ∧
      exec (.vmax f) s = goesTo two 2 (pickOp f true)) ∧
    (VReady f.g (vElemUse f three) s →
      exec (.vfma f) s = goesTo three lat (fltOp f (fma false false)) ∧
      exec (.vfms f) s = goesTo three lat (fltOp f (fma false true)) ∧
      exec (.vfnma f) s = goesTo three lat (fltOp f (fma true false))) ∧
    (VReady f.g (vElemUse f one) s →
      exec (.vabs f) s = goesTo one 2 (signOp f (fun x h => x % h) fun x => (x.natAbs : Int)) ∧
      exec (.vneg f) s = goesTo one 2 (signOp f (fun x h => if x < h then x + h else x - h) fun x => -x) ∧
      exec (.vrcp f) s = goesTo one lat1 (fltOp f fun a _ _ => (Val.ofInt 1).div a) ∧
      exec (.vrsqrt f) s = goesTo one lat1 (fltOp f fun a _ _ => a.rsqrt) ∧
      exec (.vsqrt f) s = goesTo one (if t = 17 then 20 else 12) (fltOp f fun a _ _ => a.sqrt) ∧
      exec (.vexp2 f) s = goesTo one lat1 (fltOp f fun a _ _ => a.exp2) ∧
      exec (.vlog2 f) s = goesTo one lat1 (fltOp f fun a _ _ => a.log2))

/-- 08 R209 to R211: the bitwise words act on all 2,048 bits under tag RAW and by element else; compares write the whole mask, an
inactive element giving 0; the mask words act on 256 bits; `kpop` counts and `kfirst` finds the first one, 256 where there is none. -/
def Obligations.VBitsAndMasks : Prop :=
  ∀ (f : VF) (s : State),
    let d := vDstOf f.qd f.vd
    let acts := s.acts f.k (VF.n f)
    let bits (srcs : List VOp) (r : V2048) : Out := .next (vDone s f.pk (vElemUse f srcs) 2
      [if f.tag = 0 then outVec d 0 r.toNat else outPart d f.tag acts (elemsN (VF.w f) (VF.n f) r.toNat) 0 false (f.k == 0)] s)
    let A := (s.vSrc (VF.a f)).bits
    let B := (s.vSrc (VF.b f)).bits
    let cmp (rel : Nat) : List (Nat × Fl) := laneMap (cmpOp f rel) acts (vEls f s (VF.a f)) (vEls f s (VF.b f)) (vEls f s (VF.b f))
    let uc : VUse := { vs := [(VF.a f, VF.chk f), (VF.b f, VF.chk f)], ks := VF.kNames f, ds := [.k f.vd.toNat] }
    let compared (rel : Nat) : Out :=
      .next (vDone s f.pk uc 2 [{ outBits (.k f.vd.toNat) (packE 1 ((cmp rel).map (·.1))) with fl := orFl (cmp rel) }] s)
    let KA : BitVec 256 := tget 0 s.me.v.k f.va.toNat
    let KB : BitVec 256 := tget 0 s.me.v.k f.vb.toNat
    let k2 : VUse := { ks := [f.va.toNat, f.vb.toNat], ds := [.k f.vd.toNat] }
    let k1 : VUse := { ks := [f.va.toNat], ds := [.k f.vd.toNat] }
    let kg : VUse := { ks := [f.va.toNat], ds := [gDstOf f.qd f.vd] }
    let mask (u : VUse) (x : BitVec 256) : Out := .next (vDone s f.pk u 1 [outBits (.k f.vd.toNat) x.toNat] s)
    (VReady f.g (vElemUse f [VF.a f, VF.b f]) s →
      exec (.vand f) s = bits [VF.a f, VF.b f] (A &&& B) ∧ exec (.vor f) s = bits [VF.a f, VF.b f] (A ||| B) ∧
      exec (.vxor f) s = bits [VF.a f, VF.b f] (A ^^^ B)) ∧
    (VReady f.g (vElemUse f [VF.a f]) s → exec (.vnot f) s = bits [VF.a f] (~~~A)) ∧
    (VReady f.g uc s → exec (.vcmpeq f) s = compared 0 ∧ exec (.vcmplt f) s = compared 1 ∧ exec (.vcmple f) s = compared 2) ∧
    (VReady f.g k2 s → exec (.kand f) s = mask k2 (KA &&& KB) ∧ exec (.kor f) s = mask k2 (KA ||| KB) ∧
      exec (.kxor f) s = mask k2 (KA ^^^ KB)) ∧
    (VReady f.g k1 s → exec (.knot f) s = mask k1 (~~~KA)) ∧
    (VReady f.g kg s →
      exec (.kpop f) s =
        .next (vDone s f.pk kg 1 [outBits (gDstOf f.qd f.vd) ((List.range 256).countP fun i => KA.getLsbD i)] s) ∧
      (∀ n, n < 256 → KA.getLsbD n = true → (∀ i, i < n → KA.getLsbD i = false) →
        exec (.kfirst f) s = .next (vDone s f.pk kg 1 [outBits (gDstOf f.qd f.vd) n] s)) ∧
      (KA = 0 → exec (.kfirst f) s = .next (vDone s f.pk kg 1 [outBits (gDstOf f.qd f.vd) 256] s)))

/-- 08 R212 to R215: data movement: `vmov` moves bits, tag and mark (under RAW the source's own tag; in a register of a triple
class the two bits past its elements are 0, 05 R105), `vbcast` a scalar to every
element, `vsel` chooses by a mask, `vperm` by indices, `vrot` and `vslide` by a count, `vzip` interleaves halves and `vunzip`
separates even from odd elements. -/
def Obligations.VMovement : Prop :=
  ∀ (f : VF) (s : State),
    let d := vDstOf f.qd f.vd
    let n := VF.n f
    let acts := s.acts f.k n
    let c := VF.chk f
    let X := s.vSrc (VF.a f)
    let A := vEls f s (VF.a f)
    let B := vEls f s (VF.b f)
    let use (vs : List (VOp × Option Nat)) (gs : List VOp) (carry : Bool) : VUse :=
      { vs := vs, gs := gs, ks := VF.kNames f, ds := [d], carry := carry }
    let part (l : List Nat) : VOut := outPart d f.tag acts l 0 false (f.k == 0)
    let whole (l : List Nat) : VOut := outVec d f.tag (packE (VF.w f) l)
    let goesTo (u : VUse) (lat : Nat) (o : VOut) : Out := .next (vDone s f.pk u lat [o] s)
    let um := use [(VF.a f, c)] [] true
    let ub := use [] [VF.a f] false
    let us := use [(VF.a f, c), (VF.b f, c)] [] false
    let up := use [(VF.a f, c), (VF.b f, s.ixTag (VF.b f))] [] false
    let ur := use [(VF.a f, c)] [VF.b f] false
    let ul := use [(VF.a f, c), (VF.b f, c)] [VF.c f] false
    let h := if f.x 0 then n / 2 else 0
    let o := if f.x 0 then 1 else 0
    (∀ (r : Nat) (q : Nat) (x : VVal), (outCopy (.wq q) x).val = x ∧ (outCopy (.v r) x).val.tag = x.tag ∧ (outCopy (.v r) x).val.psn = x.psn ∧
      (outCopy (.v r) x).val.bits = if tagWidth x.tag.toNat = 3 ∨ tagWidth x.tag.toNat = 6 then BitVec.ofNat 2048 (x.bits.toNat % 2 ^ 2046) else x.bits) ∧
    (VReady f.g um s → exec (.vmov f) s = goesTo um 2 (if f.tag = 0 then outCopy d X
      else outPart d f.tag acts A 0 X.psn (f.k == 0))) ∧
    (VReady f.g ub s → exec (.vbcast f) s = goesTo ub 2 (part (List.replicate n ((s.gSrc (VF.a f)).toNat % 2 ^ VF.w f)))) ∧
    (VReady f.g us s →
      exec (.vsel f) s = goesTo us 2 (whole ((List.range n).map fun i => if (s.kAt f.k.toNat).testBit i then A.getD i 0 else B.getD i 0)) ∧
      exec (.vzip f) s = goesTo us 4 (whole (interleave ((A.drop h).take (n / 2)) ((B.drop h).take (n / 2)))) ∧
      exec (.vunzip f) s = goesTo us 4 (whole (evens (A.drop o) ++ evens (B.drop o)))) ∧
    (∀ ix, VReady f.g up s → s.indices (VF.b f) = .ok ix →
      exec (.vperm f) s = goesTo up 4 (part ((List.range n).map fun i => ((ix[i]?).bind fun j => A[j]?).getD 0))) ∧
    (VReady f.g ur s →
      exec (.vrot f) s = goesTo ur 4 (part (A.drop ((s.gSrc (VF.b f)).toNat % n) ++ A.take ((s.gSrc (VF.b f)).toNat % n)))) ∧
    (VReady f.g ul s →
      exec (.vslide f) s = goesTo ul 4 (part ((List.range n).map fun i => (A ++ B).getD ((s.gSrc (VF.c f)).toNat + i) 0)))

/-- 08 R216 to R219: dense lists, reductions and scans: `vcompact` packs the active elements and counts them; `vpart` sorts lane
numbers by mask groups and gives the counts below; the reductions put a tree or an exact sum in element 0 or, under `.g`, in a
scalar; `vscan` gives running sums. The tree of 05 R127, level by level: the pair of two active terms is their sum in the working format
(FP32 for FP16 and BF16), each rounding saturating under `.sat`; of one active term that term; of none, none. One active term alone is the
result unchanged, but for FP16 and BF16, whose root is rounded once. -/
def Obligations.VListsAndReductions : Prop :=
  (∀ (t md : Nat) (sat : Bool) (n : Nat) (l : List Term), l.length = 2 ^ n → 14 ≤ t → t ≤ 17 → md ≤ 4 →
    let narrow := t = 14 ∨ t = 15
    let W := if narrow then fp32 else ffmt t
    let mw := if narrow then 0 else md
    let sum (a b : Val) : Val × Fl := let z := a.add mw b; let r := W.round mw sat z.1; ((W.read r.1).1, z.2 ||| r.2)
    let pair (a b : Term) : Term :=
      match a.1, b.1 with
      | some x, some y => let z := sum x y; (some z.1, a.2 ||| b.2 ||| z.2)
      | some x, none => (some x, a.2 ||| b.2)
      | none, y => (y, a.2 ||| b.2)
    let up : List Term := (List.range (2 ^ (n - 1))).map fun i => pair (l.getD (2 * i) (none, 0)) (l.getD (2 * i + 1) (none, 0))
    (n ≠ 0 → treeSum t md sat l = treeSum t md sat up) ∧
    (∀ x, n = 0 → l = [x] → let r := (ffmt t).round md (sat && narrow) (x.1.getD .zero)
      treeSum t md sat l = (r.1, x.2 ||| r.2)) ∧
    (∀ i c, ¬narrow → c < 2 * (ffmt t).sign → ((ffmt t).read c).1 ≠ .nan → i < 2 ^ n →
      treeSum t md sat ((List.range (2 ^ n)).map fun j => if j = i then (some ((ffmt t).read c).1, 0) else (none, 0)) = (c, 0)) ∧
    (∀ (a b : Val), ¬a.isNan → ¬b.isNan →
      (pairMax a b).1 = (if a.below b then b else a) ∧ (pairMin a b).1 = (if b.below a then b else a) ∧
      (pairAmax a b).1 = (if a.abs.lt b.abs then b else a)) ∧
    ∀ (a : Val), pairMax .nan a = (.nan, 0) ∧ pairMax a .nan = (.nan, 0) ∧ pairMin .nan a = (.nan, 0) ∧ pairMin a .nan = (.nan, 0) ∧
      pairAmax .nan a = (.nan, 0) ∧ pairAmax a .nan = (.nan, 0)) ∧
  ∀ (f : VF) (s : State),
    let acts := s.acts f.k (VF.n f)
    let l := (vEls f s (VF.a f)).zip acts
    let uc : VUse := { vs := [(VF.a f, VF.chk f)], ks := VF.kNames f, ds := [.v f.vd.toNat, .g f.vb.toNat] }
    let dr := if f.x 0 then gDstOf f.qd f.vd else vDstOf f.qd f.vd
    let ur : VUse := { vs := [(VF.a f, VF.chk f)], ks := VF.kNames f, ds := [dr] }
    let us : VUse := { vs := [(VF.a f, VF.chk f)], ks := VF.kNames f, ds := [vDstOf f.qd f.vd] }
    let red (lat : Nat) (r : Nat × Fl) : Out :=
      .next (vDone s f.pk ur lat [if f.x 0 then { outBits dr r.1 with fl := r.2 } else outVec dr f.tag r.1 r.2] s)
    let fsum := treeSum (VF.t f) f.rm.toNat (f.sat == 1) (termsOf f l)
    let isum := intSum f l
    let n := min (s.gSrc (VF.c f)).toNat 128
    let bit (k i : Nat) : Nat := if (s.kAt k).testBit i then 1 else 0
    let grp (i : Nat) : Nat := bit f.k.toNat i + if f.x 0 then 2 * bit f.vb.toNat i else 0
    let sorted := (List.range 4).flatMap fun j => (List.range n).filter fun i => grp i == j
    let below (j : Nat) : Nat := ((List.range n).filter fun i => grp i < j).length
    let k := if f.x 0 then 3 else 1
    let up : VUse := { gs := [VF.c f], ks := f.k.toNat :: (if f.x 0 then [f.vb.toNat] else []),
                       ds := .v f.vd.toNat :: (List.range k).map fun j => .g (f.va.toNat + j) }
    (VReady f.g uc s → exec (.vcompact f) s = .next (vDone s f.pk uc 6
      [outVec (.v f.vd.toNat) f.tag (packE (VF.w f) ((l.filter (·.2)).map (·.1))), outBits (.g f.vb.toNat) (l.filter (·.2)).length] s)) ∧
    (VReady f.g up s → exec (.vpart f) s = .next (vDone s f.pk up 6
      (outVec (.v f.vd.toNat) 6 (packE 16 sorted) :: (List.range k).map fun j => outBits (.g (f.va.toNat + j)) (below (j + 1))) s)) ∧
    (VReady f.g ur s →
      exec (.vredsum f) s = red (if VF.t f = 17 then 12 else 10) (if tagFloat (VF.t f) then fsum
        else if f.sat = 1 then clampW (VF.w f) isum else (itrunc isum (VF.w f), 0)) ∧
      exec (.vredmax f) s = red 8 (rootCode f (treeRoot pairMax (termsOf f l))) ∧
      exec (.vredmin f) s = red 8 (rootCode f (treeRoot pairMin (termsOf f l))) ∧
      exec (.vredamax f) s =
        red 8 (rootCode f ((treeRoot pairAmax (termsOf f l)).1.abs, (treeRoot pairAmax (termsOf f l)).2))) ∧
    (VReady f.g us s →
      let r := if tagFloat (VF.t f) then scanF f (workFmt (VF.t f)) (workMode (VF.t f) f.rm.toNat) .zero l else scanI (VF.w f) 0 l
      exec (.vscan f) s = .next (vDone s f.pk us (if VF.t f = 17 then 16 else 12)
        [outVec (vDstOf f.qd f.vd) f.tag (packE (VF.w f) (r.map (·.1))) (orFl r)] s))

/-- 08 R220 to R222: the V stream's loads and stores of the own scratchpad, once every granule or element they touch passes its tests:
`vld` and `vldt` bring the bits with their poison, `vst` writes all bits, or under a mask its active elements.
Where the spec leaves a choice, these are the model's: log entries 7 and 50. -/
def Obligations.VMemory : Prop :=
  ∀ (f : VF) (s : State),
    let d := vDstOf f.qd f.vd
    let ea := s.vEa f
    let w := VF.w f
    let acts := s.acts f.k (VF.n f)
    let ul : VUse := { gs := [VF.a f], ds := [d] }
    let us : VUse := { vs := [((0, f.vd), VF.chk f)], gs := [VF.a f], ks := VF.kNames f, carry := true }
    let ixo : VOp := (0, f.vb)
    let ut : VUse := { vs := [(ixo, s.ixTag ixo)], gs := [VF.a f], ks := VF.kNames f, ds := [d] }
    (∀ pss, VReady f.g ul s → allPass ((vecGrans ea).map (s.granAccess .r .rd)) = .ok pss →
      let ps := pss.foldl (· ++ ·) []
      let full := ps.all fun p => match place p.1 with | .ap n o => s.isFull (coreKey s.myPkg n) o | _ => true
      let v := outVec d f.tag (s.rdPieces s.myPkg ps)
      let s1 := s.usePages .v ea 2048
      (f.x 0 = true → full = true) →
      exec (.vld f) s = .next (vDone s f.pk ul 8 [{ v with val := { v.val with psn := s.psnPieces s.myPkg ps } }]
        (if f.x 1 then ps.foldl (fun t p => match place p.1 with | .ap n o => t.setFull (coreKey s.myPkg n) o false | _ => t) s1
         else s1))) ∧
    (∀ pss, VReady f.g us s → f.k = 0 → allPass ((List.range 16).map fun g => s.granAccess .w .wr ((ea + 128 * g) % 2 ^ 64)) = .ok pss →
      let x := s.vSrc (0, f.vd)
      exec (.vst f) s = .next (vDone s f.pk us 0 []
        ((s.usePages .v ea 2048).wrPieces s.myPkg (pss.foldl (· ++ ·) []) x.bits.toNat x.psn))) ∧
    (∀ pss, VReady f.g us s → f.k ≠ 0 →
      let x := s.vSrc (0, f.vd)
      let elems := (List.range (VF.n f)).filter fun i => acts.getD i false
      let gs := (List.range 16).filter fun g => elems.any fun i => w * i < 128 * (g + 1) && 128 * g < w * (i + 1)
      let paOf (b : Nat) : Nat := (((gs.zip pss).find? fun e => e.1 == b / 128).bind fun e => e.2.head?.map fun q => q.1 + b % 128).getD 0
      allPass (gs.map fun g => s.granAccess .w .wr ((ea + 128 * g) % 2 ^ 64)) = .ok pss →
      exec (.vst f) s = .next (vDone s f.pk us 0 [] (elems.foldl (fun t i =>
        t.wrPieces s.myPkg ((cuts (w * i) w).map fun c => (paOf c.1, c.2)) (x.bits.toNat / 2 ^ (w * i) % 2 ^ w) x.psn)
        (s.usePages .v ea 2048)))) ∧
    (∀ ix ps, VReady f.g ut s → s.indices ixo = .ok ix →
      let at_ (j : Nat) : Nat := ((s.me.vg f.va.toNat).toNat + j * w) % 2 ^ 64
      let reads := ((firstN (VF.n f) ix).zip acts).map fun p => if p.2 then p.1.map at_ else none
      allPass (reads.map fun r => match r with | some a => s.elemAccess .r .rd a w | none => .ok []) = .ok ps →
      exec (.vldt f) s = .next (vDone s f.pk ut 12
        [outPart d f.tag acts (ps.map (s.rdPieces s.myPkg)) 0 (ps.any (s.psnPieces s.myPkg)) (f.k == 0)]
        (reads.foldl (fun t r => match r with | some a => t.usePages .v a w | none => t) s)))

/-- 09 R228 to R239: conversions: `vpack` and `vunpack` change the width of codes, `vcvt`, `vdeq` and `vscl` round each value once
under its scale, `vtag` changes a tag and keeps the bits and the mark, but for bits 2,047:2,046, which become 0 under a tag of the
triple class, `vtagrd` reads the tag and the mark. To an integer format or TRIT
a value goes by rne and is clamped (05 R106, R107); an integer reads as itself, a TRIT as 0, 1 or -1, its illegal code as 0 with TI; a scale of
SE8 multiplies by a power of two, and its NaN gives NaN with SC and NV (05 R123).
Where the spec leaves a choice, these are the model's: log entry 48. -/
def Obligations.VConversions : Prop :=
  (∀ (t md : Nat) (sat neg : Bool) (m : Nat) (e : Int) (w : Nat) (dest : Val → Nat × Fl),
    (1 ≤ t ∧ t ≤ 8 ∧ w = tagWidth t ∧ dest = roundTag t md sat) ∨ (t = 0 ∧ w = 40 ∧ dest = roundInt 0 40) →
    let lim : Int := ((2 ^ (w - 1) : Nat) : Int)
    let lo : Int := if t = 1 then -1 else -lim
    let hi : Int := if t = 1 then 1 else lim - 1
    let code (v : Int) : Nat := if t = 1 then (if v = 0 then 0 else if v = 1 then 1 else 2) else (v % (2 ^ w : Nat)).toNat
    let c := 2 ^ (-e).toNat
    let k := m * 2 ^ e.toNat / c
    let k1 := if roundsFrom 0 neg (k % 2 == 1) (k * c) (m * 2 ^ e.toNat) ((k + 1) * c) then k + 1 else k
    let v : Int := if neg then -(k1 : Int) else k1
    dest .nan = (0, fNV) ∧ dest (.inf neg) = (code (if neg then lo else hi), fNV) ∧
    dest (.fin neg m e false) =
      if v < lo then (code lo, fOF ||| fNX) else if hi < v then (code hi, fOF ||| fNX)
      else (code v, if k * c = m * 2 ^ e.toNat then 0 else fNX)) ∧
  (∀ (t : Nat) (x : Int), 2 ≤ t → t ≤ 8 →
    let lim : Int := ((2 ^ (tagWidth t - 1) : Nat) : Int)
    (-lim ≤ x → x < lim → readTag t (x % (2 ^ tagWidth t : Nat)).toNat = (.fin (x < 0) x.natAbs 0 false, 0)) ∧
    readTag 1 0 = (.fin false 0 0 false, 0) ∧ readTag 1 1 = (.fin false 1 0 false, 0) ∧ readTag 1 2 = (.fin true 1 0 false, 0) ∧
    readTag 1 3 = (.fin false 0 0 false, fTI)) ∧
  (∀ (c : Nat) (neg : Bool) (m : Nat) (e : Int), c < 256 →
    (c ≠ 255 → scaled c true (.fin neg m e false) = (.fin neg m (e + (c - 127)) false, 0) ∧
      scaled c false (.fin neg m e false) = (.fin neg m (e + (127 - c)) false, 0)) ∧
    ∀ up v, scaled 255 up v = (.nan, fSC ||| fNV)) ∧
  ∀ (f : VF) (s : State),
    let d := vDstOf f.qd f.vd
    let n := VF.n f
    let w := VF.w f
    let st := f.srcTag
    let X := s.vSrc (VF.a f)
    let g := s.gSrc (VF.b f)
    let acts := s.acts f.k n
    let ps := window st (VF.t f) f.p
    let lat := if st = 17 ∨ VF.t f = 17 then 6 else 4
    let rnd (v : Val × Fl) : Nat × Fl := let r := roundTag (VF.t f) f.rm.toNat (f.sat == 1) v.1; (r.1, v.2 ||| r.2)
    let use (gs : List VOp) : VUse := { vs := [(VF.a f, some st)], gs := gs, ks := VF.kNames f, ds := [d] }
    let conv (u : VUse) (lat : Nat) (op : Nat → Nat → Nat → Nat × Fl) : Out :=
      let r := ps.map fun p => if acts.getD p.2 false then op p.1 p.2 (elemAt st X.bits p.1) else (0, 0)
      let q := placeCodes n ((ps.map (·.2)).zip (r.map (·.1)))
      .next (vDone s f.pk u lat [outPart d f.tag ((q.1.zip acts).map fun b => b.1 && b.2) q.2 (orFl r) false
        (f.k == 0 && tagLanes st ≥ n)] s)
    let us : VUse := { vs := [(VF.a f, VF.chk f)], gs := [VF.b f], ks := VF.kNames f, ds := [d] }
    let ut : VUse := { vs := [(VF.a f, none)], ds := [d], carry := true }
    let ur : VUse := { vs := [(VF.a f, none)], ds := [gDstOf f.qd f.vd], carry := true }
    (VReady f.g (use []) s →
      exec (.vpack f) s = conv (use []) 2 (fun _ _ c => (c % 2 ^ w, 0)) ∧
      exec (.vunpack f) s = conv (use []) 2 (fun _ _ c => (if f.x 6 then itrunc (nsext c (tagWidth st)) w else c, 0)) ∧
      (f.x 5 = false → exec (.vcvt f) s = conv (use []) lat (fun _ _ c => rnd (readTag st c)))) ∧
    (VReady f.g (use [VF.b f]) s →
      (f.x 5 = true → exec (.vcvt f) s = conv (use [VF.b f]) lat (fun i j c =>
        let x := readTag st c
        let y := blockScaled st (VF.t f) g i j x.1
        rnd (y.1, x.2 ||| y.2))) ∧
      (f.x 5 = true → exec (.vdeq f) s = conv (use [VF.b f]) lat (fun i j c =>
        let x := readTag st c
        let y := blockScaled st (VF.t f) g i j x.1
        rnd (y.1, x.2 ||| y.2))) ∧
      (f.x 5 = false → exec (.vdeq f) s = conv (use [VF.b f]) lat (fun _ _ c =>
        let x := readTag st c
        let y := match (fp32.read (g.toNat / 2 ^ 32)).1 with | .nan => (Val.nan, fNV) | v => x.1.mul v
        rnd (y.1, x.2 ||| y.2)))) ∧
    (VReady f.g us s → exec (.vscl f) s = .next (vDone s f.pk us (if VF.t f = 17 then 6 else 4)
      (let r := (List.range n).map fun i => if !(acts.getD i false) then (0, 0) else
        let x := readTag (VF.t f) (elemAt (VF.t f) X.bits i)
        let y := if f.x 5 then scaled (byteOf g (i / 32)) true x.1 else (x.1.scale g.toInt, 0)
        rnd (y.1, x.2 ||| y.2)
       [outPart d f.tag acts (r.map (·.1)) (orFl r) false (f.k == 0)]) s)) ∧
    (VReady f.g ut s → exec (.vtag f) s = .next (vDone s f.pk ut 2
      [{ dst := d, val := { X with tag := f.tag, bits := if tagTriple f.tag.toNat then X.bits &&& ~~~spareBits else X.bits } }] s)) ∧
    (VReady f.g ur s →
      exec (.vtagrd f) s = .next (vDone s f.pk ur 2 [outBits (gDstOf f.qd f.vd) (X.tag.toNat + if X.psn then 256 else 0)] s))

/-- 09 R234, R235: `vquant`: a ready word writes its window of elements under the FP32 scale that the largest magnitude (or the given
one) asks for, and the scale and the magnitude in g[vb]; or, under `.blk`, each block of 32 elements under its own SE8 scale, and the
scales of the blocks it met in their bytes of g[vb]. What the scales are: 05 R124 and R125; the reciprocal of a zero scale sets DZ (05 R113). -/
def Obligations.VQuantises : Prop :=
  (∀ (t : Nat) (v : Val),
    let em : List (Nat × Int) := [(12, 8), (13, 15), (10, 4), (11, 2), (9, 2), (5, 6), (4, 4), (3, 2), (2, 1)]
    let top : List (Nat × Nat × Int) := [(12, 448, 0), (13, 57344, 0), (10, 28, 0), (11, 15, -1), (9, 6, 0), (5, 127, 0), (4, 31, 0), (3, 7, 0), (2, 3, 0)]
    (v = .nan ∨ v = .inf false → se8Scale v t = (0xFF, fNV) ∧ fp32Scale v t = (0x7FC00000, fNV)) ∧
    (∀ s e, se8Scale (.fin s 0 e false) t = (0, 0) ∧ fp32Scale (.fin s 0 e false) t = (0, 0)) ∧
    (∀ m (e l : Int) x, (t, x) ∈ em → m ≠ 0 → (∃ k : Nat, l = k + e ∧ 2 ^ k ≤ m ∧ m < 2 ^ (k + 1)) →
      se8Scale (.fin false m e false) t = ((max 0 (min (l - x + 127) 254)).toNat, 0)) ∧
    (∀ s m e x, (t, x) ∈ top → m ≠ 0 →
      fp32Scale (.fin s m e false) t = ((fp32.round 4 false ((Val.fin s m e false).div (.fin false x.1 x.2 false)).1).1, 0)) ∧
    fp32Scale (.inf true) t = (fp32.infCode + fp32.sign, 0)) ∧
  ∀ (f : VF) (s : State),
    let u : VUse := { vs := [(VF.a f, some f.srcTag)], gs := [VF.b f], ds := [.v f.vd.toNat] }
    let X := (s.vSrc (VF.a f)).bits
    let ps := window f.srcTag (VF.t f) f.p
    let v (i : Nat) : Val := (readTag f.srcTag (elemAt f.srcTag X i)).1
    let am := if f.x 6 then (fp32.read (s.gSrc (VF.b f)).toNat).1 else amaxOf (ps.map fun p => v p.1)
    let sc := fp32Scale am (VF.t f)
    let sv := (fp32.read sc.1).1
    let recip (x : Val) : Val × Fl := let y := x.div sv; (y.1, if sv.isZero then y.2 ||| fDZ else y.2)
    let r := ps.map fun p => quantElem f am sv.isNan recip (elemAt f.srcTag X p.1)
    let q := placeCodes (VF.n f) ((ps.map (·.2)).zip (r.map (·.1)))
    let amOf (b : Nat) : Val := amaxOf ((ps.filter fun p => p.2 / 32 == b).map fun p => v p.1)
    let se (b : Nat) : Nat × Fl := se8Scale (amOf b) (VF.t f)
    let rb := ps.map fun p =>
      let e := quantElem f (amOf (p.2 / 32)) ((se (p.2 / 32)).1 == 255) (fun x => (x.scale (127 - ((se (p.2 / 32)).1 : Int)), 0))
        (elemAt f.srcTag X p.1)
      (e.1, (se (p.2 / 32)).2 ||| e.2)
    let qb := placeCodes (VF.n f) ((ps.map (·.2)).zip (rb.map (·.1)))
    let bytes (y : Nat → Nat) : V2048 := BitVec.ofNat 2048 (((blocksOf ps).map fun b => y b * 2 ^ (8 * (b % 8))).foldl (· + ·) 0)
    VReady f.g u s →
    (f.x 5 = false → exec (.vquant f) s = .next (vDone s f.pk u 10
      [outPart (.v f.vd.toNat) f.tag q.1 q.2 (orFl (r.map fun e => (e.1, e.2 ||| sc.2))) false false,
       outBits (.g f.vb.toNat) (sc.1 * 2 ^ 32 + (fp32.round 0 false am).1)] s)) ∧
    (f.x 5 = true → exec (.vquant f) s = .next (vDone s f.pk u 10
      [outPart (.v f.vd.toNat) f.tag qb.1 qb.2 (orFl rb) false false,
       { dst := .g f.vb.toNat, val := { bits := bytes fun b => (se b).1 }, wmask := bytes fun _ => 255 }] s))

/-- 08 R200, R223 to R225: the V stream's scalars, branches and semaphores: a taken branch goes to its target two slots on and marks the
results in flight whose slot is still to come, at its end the queue results and the earlier slots as they were; `gbr.rdv` waits until no
result is in flight; `vsemsig` adds to its semaphore, `vsemwait` takes its count where the semaphore holds it, after C's waits of the cycle.
That `vsemsig` and `gbr.rdv` wait for no earlier `vst` is the model's choice: a `vst` is performed at its issue (log entry 7). How a wait
counts its cycles is log entry 9, in which order one cycle's changes of a semaphore come log entry 86. -/
def Obligations.VScalarsAndBranches : Prop :=
  ∀ (f : VF) (i : ViF) (s : State),
    let ua : VUse := { gs := [VF.a f, VF.b f], ds := [gDstOf f.qd f.vd] }
    let um : VUse := { gs := [VF.a f], ds := [gDstOf f.qd f.vd] }
    let ui : VUse := { gs := [(0, i.va)], ds := [.g i.vd.toNat] }
    let free (g : Guard) (names : List VDst) : Prop :=
      s.me.v.fly.any (fun r => r.mark && (Guard.vNames g ++ names).contains r.dst) = false ∧ guardOn g s.me.vg = true
    let pc := (s.ctl .v).pc
    let tgt := pc + BitVec.ofInt 64 (i.q.toInt * 64)
    let z := s.me.vg i.va.toNat
    let v := s.me.vg i.vd.toNat - 1
    let s1 := s.setMe (s.me.vSend 1 [outBits (.g i.vd.toNat) v.toNat])
    let branch (u : State) : State :=
      let y := u.me.v
      let z := { u.ctl .v with pc := tgt, wait := none }
      let l := y.fly.map fun r => if y.slot < r.due then { r with mark := true } else r
      u.setMe { u.me with v := { y with ctl := z, slot := y.slot + 2, fly := l } }
    let x := s.ctl .v
    let id := i.q.extractLsb' 0 5
    (VReady f.g ua s → exec (.gadd f) s =
      .next (vDone s f.pk ua 1 [outBits (gDstOf f.qd f.vd) (s.gSrc (VF.a f) + s.gSrc (VF.b f)).toNat] s)) ∧
    (VReady f.g um s → exec (.gmov f) s = .next (vDone s f.pk um 1 [outBits (gDstOf f.qd f.vd) (s.gSrc (VF.a f)).toNat] s)) ∧
    (VReady i.g ui s →
      exec (.gaddi i) s = .next (vDone s 0 ui 1 [outBits (.g i.vd.toNat) (z + i.q.signExtend 64).toNat] s) ∧
      exec (.glim i) s = .next (vDone s 0 ui 1 [outBits (.g i.vd.toNat) (putPiece z i.vb.toNat i.q).toNat] s)) ∧
    (free i.g (if i.vd = 0 then [] else [.g i.va.toNat]) →
      (i.vd = 0 → exec (.gbr i) s = .next (branch s)) ∧
      (i.vd = 1 → exec (.gbr i) s = .next (if z = 0 then s.vNext else branch s)) ∧
      (i.vd = 2 → exec (.gbr i) s = .next (if z = 0 then branch s else s.vNext))) ∧
    (free i.g [.g i.vd.toNat] → exec (.gbdec i) s = .next (if v = 0 then s1.vNext else branch s1)) ∧
    (free i.g [] →
      (s.me.v.fly ≠ [] → exec (.gbrRdv i) s = .next (s.noteWait .v .free)) ∧
      (s.me.v.fly = [] → id = 0 → exec (.gbrRdv i) s = .next (s.setCtl .v { x with ended := true, wait := none, rdv := none })) ∧
      (s.me.v.fly = [] → id ≠ 0 → x.rdv = none →
        exec (.gbrRdv i) s = .next ((s.setCtl .v { x with rdv := some id, rdvAt := s.now }).noteWait .v .rdv))) ∧
    (free f.g [] →
      let k := (f.qx.extractLsb' 0 4).toNat
      let n := (f.qx.extractLsb' 4 3).toNat + 1
      (s.me.semStage k s.now ≤ 2 → exec (.vsemsig f) s = .next (s.setMe (s.me.signal k n s.now (s.me.seenBy 2))).vNext) ∧
      (2 < s.me.semStage k s.now → exec (.vsemsig f) s = .next (s.noteWait .v .turn)) ∧
      (n ≤ s.me.semAt k → s.semEarlier [.c] k = false → s.me.semStage k s.now ≤ 4 →
        exec (.vsemwait f) s =
          .next (s.setMe { s.me.semMark k 4 s.now with
            sem := tset 0 s.me.sem k (BitVec.ofNat 16 (s.me.semAt k - n)), seen := seenMore s.me.seen 2 (tget 0 s.me.semSeen k) }).vNext) ∧
      (s.me.semAt k < n ∨ s.semEarlier [.c] k = true ∨ 4 < s.me.semStage k s.now → exec (.vsemwait f) s = .next (s.noteWait .v .sync)))

/-- 08 R194, R198, R203: the results due in the least slot, once it has come, land in the order of their issue: a vector register takes the
bits, tag and mark of the last one for it (or, masked, the written bits, the tag and an added mark), with bits 2,047:2,046 zero under a tag of
the triple class (05 R105), a mask or scalar register its value, a queue an entry for each that can be popped from the second cycle on; their flags are set, and they are no longer in flight.
Where the spec leaves a choice, these are the model's: log entries 5 and 50. -/
def Obligations.VResultLands : Prop :=
  (∀ (s : State) (d : Nat), s.me.job.isSome = true → (∃ r ∈ s.me.v.fly, r.due = d) → (∀ r ∈ s.me.v.fly, d ≤ r.due) → d ≤ s.me.v.slot →
    let l := s.me.v.fly.filter fun r => r.due == d
    let at_ (x : VDst) : List VRes := l.filter fun r => r.dst == x
    ∃ t, exec .resultLanding s = .next t ∧ SameRest s t ∧ OtherCores s t ∧ t.me.v.fly = s.me.v.fly.filter (fun r => r.due != d) ∧
      (t.ctl .v).xflags = l.foldl (fun x r => x ||| r.flags.truncate 8) (s.ctl .v).xflags ∧ (t.ctl .v).pc = (s.ctl .v).pc ∧
      (∀ n, tget {} t.me.v.v n = (at_ (.v n)).foldl (fun o r =>
        let x : VVal := if r.full then r.val else
          { bits := (o.bits &&& ~~~r.wmask) ||| (r.val.bits &&& r.wmask), tag := r.val.tag, psn := o.psn || r.val.psn }
        { x with bits := if tagTriple x.tag.toNat then x.bits &&& ~~~spareBits else x.bits }) (tget {} s.me.v.v n)) ∧
      (∀ n, tget 0 t.me.v.k n = (at_ (.k n)).foldl (fun _ r => r.val.bits.truncate 256) (tget 0 s.me.v.k n)) ∧
      (∀ n, n ≠ 0 → t.me.vg n = (at_ (.g n)).foldl (fun o r =>
        (o &&& ~~~(r.wmask.truncate 64)) ||| (r.val.bits.truncate 64 &&& r.wmask.truncate 64)) (s.me.vg n)) ∧
      (∀ n, (t.me.wqueue n).ents = (s.me.wqueue n).ents ++ (at_ (.wq n)).map fun r =>
        { val := r.val, rdy := s.now + 2, seen := s.me.seenBy (wqFrom n) }) ∧
      ((t.me.queue 5).ents = (s.me.queue 5).ents ++ (at_ .q5).map fun r =>
        { val := r.val.bits.truncate 64, rdy := s.now + 2, seen := s.me.seenBy 2 }) ∧
      t.me.c = s.me.c ∧ t.me.a = s.me.a ∧ t.me.m = s.me.m) ∧
  ∀ (s : State), s.me.job = none ∨ (∀ r ∈ s.me.v.fly, s.me.v.slot < r.due) → exec .resultLanding s = .next s

/-! The M stream (11). -/

/-- 11 R241, R251, 04 R99: an M word whose iteration it admits enters the M queue with the loop levels of its instance while the queue
holds fewer than 16, and the sequencer goes on; a word that the iteration does not admit is passed over; a full queue makes it wait.
Where the spec leaves a choice, these are the model's: log entry 51. -/
def Obligations.MWordsEnterTheQueue : Prop :=
  ∀ (f : MF) (k : MkF) (i : Instr) (h : MHead) (s : State),
    (i ∈ [Instr.mbase f, .mrow f, .mseed f, .mternSeed f, .mternCim f, .mternTile f, .mcimldMem f, .mcimldBasis f, .mfp f, .maccz f,
        .maccrd f, .maccwr f, .mtest f, .msem f, .mdrain f] ∧ h = f.h ∨ i ∈ [Instr.mchk k, .mscan k] ∧ h = k.h) →
    s.me.cancelDue s.now = false →
    ((h.fst = 1 ∨ h.lst = 1) → h.lvl.toNat < s.me.m.loops.length) →
    let s1 := s.mKeep i
    let c := s1.me
    let e : MEntry := { id := c.stamp, instr := i, addr := c.m.ctl.pc, loops := c.m.loops }
    (admits h s.me.m.loops = true → c.m.queue.length < 16 →
      exec i s = .next (s1.setMe { c with stamp := c.stamp + 1, m := { c.m with queue := c.m.queue ++ [e] } }).mNext) ∧
    (admits h s.me.m.loops = true → 16 ≤ c.m.queue.length → exec i s = .next (s1.noteWait .m .free)) ∧
    (admits h s.me.m.loops = false → exec i s = .next s1.mNext)

/-- 11 R251, R252, R273: `mloop` opens a level with its trip count and body length behind itself, and skips its body where the trip
count is 0; a level beyond six, or one that ends beyond the enclosing one, traps LOOP_NEST once the queue is empty. `mdrain.rdv` enters
the queue and holds the stream at its word.
Where the spec leaves a choice, these are the model's: log entry 51. -/
def Obligations.MLoopsAndRendezvous : Prop :=
  ∀ (f : MF) (s : State), s.me.cancelDue s.now = false → f.h.fst = 0 → f.h.lst = 0 →
    let s1 := s.mKeep (.mloop f)
    let c := s1.me
    let l : MLoop := { addr := c.m.ctl.pc, lgen := f.h.lgen, trip := f.i 0 32, len := f.q 32 6 + 1, iter := 0 }
    let fits := c.m.loops.length < 6 ∧ ∀ o, c.m.loops.getLast? = some o → l.stop.toNat ≤ o.stop.toNat
    let s2 := s.mKeep (.mdrainRdv f)
    let d := s2.me
    let e : MEntry := { id := d.stamp, instr := .mdrainRdv f, addr := d.m.ctl.pc, loops := d.m.loops }
    (fits → f.i 0 32 ≠ 0 → exec (.mloop f) s =
      .next (s1.setMe { c with m := { c.m with loops := c.m.loops ++ [l], ctl := { c.m.ctl with pc := l.addr + 128, wait := none } } })) ∧
    (fits → f.i 0 32 = 0 → exec (.mloop f) s = .next (s1.setMe (c.mGo c.m.loops l.stop))) ∧
    (¬fits → c.m.queue = [] → exec (.mloop f) s = .next (s1.takeTrap .m { cause := .loopNest })) ∧
    (¬fits → c.m.queue ≠ [] → exec (.mloop f) s = .next (s1.noteWait .m .free)) ∧
    (d.m.ctl.rdv = none → d.m.rdvQueued = false → d.m.queue.length < 16 →
      exec (.mdrainRdv f) s =
        .next ((s2.setMe { d with stamp := d.stamp + 1, m := { d.m with queue := d.m.queue ++ [e] } }).noteWait .m .free))

/-- 11 R242 to R244, R254, R256, R273: the head of the queue starts when it has its checker entry, no hazard and no unit stands in its
way, its semaphore holds its count and its tests pass: the count is taken and it leaves the queue. `mbase` writes its descriptor field
at once; `msem` and `mdrain` signal and are over; `mdrain.rdv` brings the stream to its rendezvous or its end; every other command runs,
`mseed` and `mcimld.mem` with what they have read through the stream's TLB. A test that fails traps at the command's instance, and it
and every younger entry are discarded.
Where the spec leaves a choice, these are the model's: log entries 8, 52, 53, 86 and 87. -/
def Obligations.MCommandStarts : Prop :=
  ∀ (s : State) (e : MEntry) (q : List MEntry) (h : MHead),
    s.me.canIssue .m s.now = true → s.me.m.queue = e :: q → mHead e.instr = some h →
    (h.fpx = 0 ∨ e.foot = true) → s.me.mReady e h = true →
    (h.wcnt ≠ 0 → h.wcnt.toNat ≤ s.me.semAt h.wid.toNat ∧ s.semEarlier [.c, .v] h.wid.toNat = false ∧ s.me.semStage h.wid.toNat s.now ≤ 5) →
    ((∃ f, e.instr = .msem f ∨ e.instr = .mdrain f ∨ e.instr = .mdrainRdv f) → h.scnt = 0 ∨ s.me.semStage h.sid.toNat s.now ≤ 2) →
    let s0 := s.setMe s.me
    let r := s.me.mRun e h
    (∀ t, s0.mTests r = .error (.trap t) → exec .commandStart s = .next (s0.mTrap e t)) ∧
    (s0.mTests r = .ok () →
      let c0 := if h.wcnt = 0 then s.me else
        { s.me.semMark h.wid.toNat 5 s.now with
          sem := tset 0 s.me.sem h.wid.toNat (BitVec.ofNat 16 (s.me.semAt h.wid.toNat - h.wcnt.toNat)),
          seen := seenMore s.me.seen 3 (tget 0 s.me.semSeen h.wid.toNat) }
      let c := { c0 with m := { c0.m with queue := q } }
      let s1 := s0.setMe c
      let x := c.m.ctl
      let id (f : MF) : BitVec 5 := BitVec.ofNat 5 (f.q 33 5)
      let y := (s1.setMe (c.mSignal h s.now)).ctl .m
      let bl := (y.wait.bind (·.blocked)).getD s.now
      let goes (u : State) (r : MRun) : Out := .next (u.setMe { u.me with m := { u.me.m with run := u.me.m.run ++ [r] } })
      (∀ f, e.instr = .msem f ∨ e.instr = .mdrain f → exec .commandStart s = .next (s1.setMe (c.mSignal h s.now))) ∧
      (∀ f, e.instr = .mdrainRdv f → exec .commandStart s = .next ((s1.setMe (c.mSignal h s.now)).setCtl .m
        (if id f = 0 then { y with ended := true, wait := none, rdv := none }
         else { y with rdv := some (id f), rdvAt := s.now, wait := some { since := s.now, kind := .rdv, stamp := s.me.stamp, blocked := some bl } })) ∧
        y = x) ∧
      (∀ f, e.instr = .mbase f → exec .commandStart s = .next (s1.setMe { c with m := { c.m with
        d := tset {} c.m.d f.h.dd.toNat ((c.desc f.h.dd).put f), run := c.m.run ++ [r] } })) ∧
      ((∀ f, e.instr ≠ .msem f ∧ e.instr ≠ .mdrain f ∧ e.instr ≠ .mdrainRdv f ∧ e.instr ≠ .mbase f ∧ e.instr ≠ .mseed f ∧
          e.instr ≠ .mcimldMem f) → exec .commandStart s = goes s1 r) ∧
      (∀ f l, e.instr = .mseed f ∨ e.instr = .mcimldMem f → s1.mSrc r = .ok l →
        let v := s1.viewed l.pieces
        exec .commandStart s = goes (s1.drawn l.pieces) { r with
          seen := v.rdPieces s.myPkg l.pieces, seenPsn := v.psnPieces s.myPkg l.pieces, reading := e.instr == .mseed f }) ∧
      (∀ f, e.instr = .mcimldMem f → s1.mSrc r = s1.virtRows ((List.range 64).map fun j => (r.ea + j * r.da.pitch.toNat, 256))) ∧
      (∀ f (l : MSrc), e.instr = .mseed f → s1.virtRows [(r.ea, 64)] = .ok l →
        s1.mSrc r = s1.virtRows [(r.ea, 64 + 16 * 128 * ((s1.viewed l.pieces).rdPieces s.myPkg l.pieces / 2 ^ 32 % 8 + 1))]))

/-- 11 R243, R255 to R272: a command that completes performs its effect, sets its flags in the M stream, leaves the engine with its
checker entry and signals its semaphore; of an `mseed` the record is read first, and then the expansion completes. What each command does:
the lanes and elements that it writes, by the values of its rows, its tile or its record, the sums in their order, and the marks of what it
reads. A lane or element that no role of the moment admits is left as it is (13 R289).
Where the spec leaves a choice, these are the model's: log entries 8, 12, 86 and 87. -/
def Obligations.MCommandCompletes : Prop :=
  (∀ (s : State) (r : MRun) (h : MHead),
    s.me.m.run.find? (fun x => x.ent.id == s.ev.id) = some r → s.me.dead = false → s.me.job.isSome = true → s.me.m.oldest r = true →
    s.me.cancelDue s.now = false → mHead r.ent.instr = some h →
    let run := if s.me.m.run.any (fun x => x.units.contains .gen) then s.me.m.run
      else s.me.m.run.map fun x => if x.ent.id = r.ent.id then { x with reading := false } else x
    (r.reading = true → exec .commandComplete s = .next (s.setMe { s.me with m := { s.me.m with run := run } })) ∧
    (r.reading = false → h.scnt = 0 ∨ s.me.semStage h.sid.toNat s.now ≤ 2 → (∀ k, r.ent.instr = .mchk k → s.mchkTest k = none) →
      exec .commandComplete s =
        .next (let t := (s.mEffect r).1.orFlags .m (s.mEffect r).2; t.setMe ((t.me.mLeave r).mSignal h s.now)))) ∧
  (∀ (s : State) (d : LaneDst) (o w mode p : Nat) (x : Val) (g : Nat → Nat → Val × Fl) (b : Bool) (l : List (Val × Bool)),
    let e := s.apRole s.cur o
    let w' := laneWide e.mode.toNat
    let y := g e.mode.toNat e.point.toNat
    let z := accAdd e.mode.toNat e.point.toNat (s.rdLane s.cur o w') y.1
    let t := s.wrLane s.cur o w' z.1
    let k := roundLane mode p x
    let q := if d.add then s.addTo o (fun _ _ => (x, 0)) b else s.putLane o d.mode 0 x b
    s.setLane o w k.1 b = (if s.rolesOk o w .wr then (s.wrLane s.cur o w k.1).setLanePsn s.cur o w b else s) ∧
    s.putLane o mode p x b = (s.setLane o (if mode = 4 then 80 else 40) k.1 b, k.2) ∧
    s.addTo o g b = (if s.laneAddOk s.cur s.job.rcd.ctx o w' then (if b then t.setLanePsn s.cur o w' true else t, y.2 ||| z.2) else (s, 0)) ∧
    s.toLanes d o [] = (s, 0) ∧
    s.toLanes d o ((x, b) :: l) = ((q.1.toLanes d (o + s.laneW d.add d.mode o) l).1, q.2 ||| (q.1.toLanes d (o + s.laneW d.add d.mode o) l).2)) ∧
  (∀ (s : State) (o w v : Nat) (b : Bool) (l : List (Nat × Bool)), s.putElems o w [] = s ∧
    s.putElems o w ((v, b) :: l) =
      (if s.rolesOk o w .wr then s.wrPieces s.myPkg (apPieces s.cur o w) v b else s).putElems (o + w) w l) ∧
  (∀ (p l : Nat) (x : Val), p ≤ 39 →
    let n := nsext l 40
    let k (q : Int) : Nat × Fl := roundInt 0 40 (x.scale q)
    let add (q : Int) : Nat × Fl :=
      let t := n + nsext (k q).1 40
      ((t % 2 ^ 40).toNat, if t < -(2 ^ 39) ∨ 2 ^ 39 ≤ t then (k q).2 ||| fOF else (k q).2)
    let fadd (F : FFmt) : Nat × Fl :=
      let v := F.read l
      let z := v.1.add 0 x
      ((F.round 0 false z.1).1, v.2 ||| z.2 ||| (F.round 0 false z.1).2)
    readLane 1 p l = (.fin (n < 0) n.natAbs 0 false, 0) ∧ readLane 2 p l = (.fin (n < 0) n.natAbs (-p) false, 0) ∧
    readLane 3 p l = fa40.read l ∧ readLane 4 p l = fa80.read l ∧
    roundLane 1 p x = roundInt 0 40 x ∧ roundLane 2 p x = k p ∧ roundLane 3 p x = fa40.round 0 false x ∧ roundLane 4 p x = fa80.round 0 false x ∧
    accAdd 1 p l x = add 0 ∧ accAdd 2 p l x = add p ∧ accAdd 3 p l x = fadd fa40 ∧ accAdd 4 p l x = fadd fa80) ∧
  (∀ (seed k : Nat),
    let bit (x : Nat) : Nat := (x / 2 ^ 31 + x / 2 ^ 21 + x / 2 + x) % 2
    let step (x : Nat) : Nat := (x * 2 + bit x) % 2 ^ 32
    let s0 := Nat.xor seed (k * 0x9E3779B9 % 2 ^ 32)
    let s1 := if s0 = 0 then 1 else s0
    let out (m : Nat) : Nat := bit ((List.range m).foldl (fun x _ => step x) s1)
    seed < 2 ^ 32 → ∀ t, t < 8192 → ((expand seed k).getD (t / 128) []).getD (t % 128) 0 =
      if seed = 0 then 0 else if out (32 + 2 * t) = 0 ∧ out (33 + 2 * t) = 1 then 1 else if out (32 + 2 * t) = 1 ∧ out (33 + 2 * t) = 0 then -1 else 0) ∧
  (∀ (s : State) (f : MF) (r : MRun),
    let d := s.ternDst f r
    let x (i j : Nat) : Int := nsext ((s.me.row (f.i 0 6 + i)).bits.toNat / 2 ^ (512 * r.win + 8 * j) % 256) 8
    let dot (T : Nat → Nat → Int) (i n : Nat) : Int := ((List.range 64).map fun j => T j n * x i j).sum
    let rows (prod : Nat → Nat → Val × Fl × Bool) : State × Fl := (List.range (f.i 6 6 + 1)).foldl (fun acc i =>
      let row := s.me.row (f.i 0 6 + i)
      let rs := fp32.read row.scale.toNat
      let ys := (List.range 128).map fun n => let y := prod i n; ((y.1.mul rs.1).1, y.2.2 || row.psn, (y.1.mul rs.1).2 ||| y.2.1)
      let q := acc.1.toLanes d (r.ed + i * r.dd.pitch.toNat) (ys.map fun y => (y.1, y.2.1))
      (q.1, acc.2 ||| rs.2 ||| q.2 ||| ys.foldl (fun a y => a ||| y.2.2) 0)) (s, 0)
    let b := s.me.basis r.buf
    let m := s.me.mac (f.q 35 4)
    let trit (c : Nat) : Int := if c = 1 then 1 else if c = 2 then -1 else 0
    let tile (j n : Nat) : Nat × Bool := s.apElem (r.eb + j * r.db.pitch.toNat + n * 2) 2
    let jn := (List.range 64).flatMap fun j => (List.range 128).map fun n => (j, n)
    d.add = (f.q 39 1 == 0) ∧ d.mode = (if f.q 40 2 = 0 then 3 else if f.q 40 2 = 1 then 4 else 1) ∧
    (r.ent.instr = .mternSeed f → s.mEffect r = rows fun i n =>
      let terms := (List.range b.kp).map fun k =>
        let c := readTag b.cfmt.toNat (b.coef.getD (128 * k + n) 0).toNat
        let z := c.1.mul (.ofInt (dot (fun j n => ((expand b.seed.toNat k).getD j []).getD n 0) i n))
        (z.1, c.2 ||| z.2)
      let y := seqSum fp32 0 (terms.map (·.1))
      (y.1, terms.foldl (fun a t => a ||| t.2) y.2, b.psn)) ∧
    (r.ent.instr = .mternCim f → s.mEffect r = rows fun i n =>
      (.ofInt (dot (fun j n => trit (m.bits.toNat / 2 ^ (2 * (128 * j + n)) % 4)) i n), 0, m.psn)) ∧
    (r.ent.instr = .mternTile f → s.mEffect r =
      let q := rows fun i n => (.ofInt (dot (fun j n => trit (tile j n).1) i n), 0, (List.range 64).any fun j => (tile j n).2)
      (q.1, if jn.any fun e => (tile e.1 e.2).1 == 3 then q.2 ||| fTI else q.2))) ∧
  (∀ (s : State) (f : MF) (r : MRun), r.ent.instr = .mfp f →
    let t := f.q 32 5
    let d := s.fpDst f r
    let mt := (fpBlock t).1
    let nt := (fpBlock t).2
    let A (i k : Nat) : Val × Fl × Bool :=
      if f.q 37 1 = 1 then
        let row := s.me.row (f.i 16 6 + i)
        let rs := fp32.read row.scale.toNat
        let x := readTag t (row.bits.toNat / 2 ^ (tagWidth t * k) % 2 ^ tagWidth t)
        ((x.1.mul rs.1).1, rs.2 ||| x.2 ||| (x.1.mul rs.1).2, row.psn)
      else
        let e := s.apElem (r.ea + i * r.da.pitch.toNat + k * tagWidth t) (tagWidth t)
        ((readTag t e.1).1, (readTag t e.1).2, e.2)
    let B (k n : Nat) : Val × Fl × Bool :=
      let e := s.apElem (r.eb + k * r.db.pitch.toNat + n * tagWidth t) (tagWidth t)
      ((readTag t e.1).1, (readTag t e.1).2, e.2)
    let K := List.range (f.i 0 16 + 1)
    let psn (i n : Nat) : Bool := K.any fun k => (A i k).2.2 || (B k n).2.2
    let sum (i n : Nat) (step : Nat → Val → Nat × Fl) (l : Nat) : Nat × Fl := K.foldl (fun v k =>
      let z := (A i k).1.mul (B k n).1
      let y := step v.1 z.1
      (y.1, v.2 ||| (A i k).2.1 ||| (B k n).2.1 ||| z.2 ||| y.2)) (l, 0)
    fpBlock 17 = (8, 16) ∧ fpBlock 16 = (16, 32) ∧ fpBlock 14 = (32, 64) ∧ fpBlock 15 = (32, 64) ∧ (9 ≤ t → t ≤ 13 → fpBlock t = (32, 128)) ∧
    d.add = (f.q 38 1 == 0) ∧ d.mode = (if f.q 39 2 = 0 then 3 else if f.q 39 2 = 1 then 4 else 1) ∧
    (f.q 37 1 = 0 ∨ f.i 0 16 + 1 ≤ tagLanes t → s.mEffect r = (List.range mt).foldl (fun acc i => (List.range nt).foldl (fun acc n =>
      let o := r.ed + i * r.dd.pitch.toNat + s.laneW d.add d.mode (r.ed + i * r.dd.pitch.toNat) * n
      let e := acc.1.apRole s.cur o
      let v := sum i n (accAdd e.mode.toNat e.point.toNat) (acc.1.rdLane s.cur o (s.laneW d.add d.mode (r.ed + i * r.dd.pitch.toNat)))
      let u := sum i n (fun l z =>
        let x := readLane d.mode 0 l
        let y := x.1.add 0 z
        let c := roundLane d.mode 0 y.1
        (c.1, x.2 ||| y.2 ||| c.2)) 0
      let w := s.laneW d.add d.mode (r.ed + i * r.dd.pitch.toNat)
      if d.add then
        (if acc.1.laneAddOk s.cur s.job.rcd.ctx o w then
          let t := acc.1.wrLane s.cur o w v.1
          (if psn i n then t.setLanePsn s.cur o w true else t, acc.2 ||| v.2) else acc)
      else (acc.1.setLane o w u.1 (psn i n), acc.2 ||| u.2)) acc) (s, 0))) ∧
  (∀ (s : State) (f : MF) (r : MRun),
    let n := f.i 0 18
    let lm := f.q 32 3 + 1
    let lw := if lm = 4 then 80 else 40
    let t := r.dd.tag.toNat
    let val (i : Nat) : Nat × Fl :=
      let x := readLane lm (f.q 35 6) (s.rdLane s.cur (r.ea + lw * i) lw)
      let c := roundTag t (f.q 41 3) (f.q 44 1 == 1) x.1
      (c.1, x.2 ||| c.2)
    let ta := r.da.tag.toNat
    let d := s.wrDst f r
    let lane (acc : State × Fl) (i : Nat) : State × Fl :=
      let e := s.apElem (r.ea + i * tagWidth ta) (tagWidth ta)
      let o := r.ed + s.laneW d.add d.mode r.ed * i
      let x := readTag ta e.1
      let q := if d.add then acc.1.addTo o (fun m p => addend (if ta = 1 ∨ 9 ≤ ta then ta else 0) (tagWidth ta) m p e.1) e.2
        else let y := acc.1.putLane o d.mode (f.q 36 6) x.1 e.2; (y.1, x.2 ||| y.2)
      (q.1, acc.2 ||| q.2)
    (r.ent.instr = .maccz f → s.mEffect r = ((List.range n).foldl (fun t i => t.setLane (r.ed + 40 * i) 40 0 false) s, 0)) ∧
    (r.ent.instr = .maccrd f → s.mEffect r = (s.putElems r.ed (tagWidth t) ((List.range n).map fun i =>
      ((val i).1, s.lanePsn s.cur (r.ea + lw * i) lw)), (List.range n).foldl (fun a i => a ||| (val i).2) 0)) ∧
    (r.ent.instr = .maccwr f → d.add = (f.q 32 1 == 0) ∧ d.mode = f.q 33 3 + 1 ∧ s.mEffect r = (List.range n).foldl lane (s, 0))) ∧
  (∀ (s : State) (f : MkF) (r : MRun), r.ent.instr = .mscan f →
    let c := f.const.toNat
    let kp := c / 2 ^ 48 % 8 + 1
    let fmt := r.dd.tag.toNat
    let sig (i : Nat) : Nat := (c % 2 ^ 32 + i * (2 * (c / 2 ^ 52 % 2 ^ 12) + 1)) % 2 ^ 32
    let B (i k j n : Nat) : Int := ((expand (sig i) k).getD j []).getD n 0
    let tgt (j n : Nat) : Nat × Bool := s.apElem (r.ea + j * r.da.pitch.toNat + n * 32) 32
    let coef (i k : Nat) (W : Nat → Nat → Nat) (n : Nat) : Nat :=
      let z := (List.range 64).countP fun j => B i k j n ≠ 0
      let d := (seqSum fp64 0 ((List.range 64).map fun j => ((fp32.read (W j n)).1.mul (.ofInt (B i k j n))).1)).1
      if z = 0 then 0 else (roundTag fmt 0 false (d.div (.ofInt z)).1).1
    let rest (i k : Nat) (W : Nat → Nat → Nat) (j n : Nat) : Nat :=
      (fp32.round 0 false ((fp32.read (W j n)).1.add 0 ((readTag fmt (coef i k W n)).1.mul (.ofInt (B i k j n))).1.neg).1).1
    let cand (i : Nat) : List Nat × (Nat → Nat → Nat) := (List.range kp).foldl (fun a k =>
      (a.1 ++ (List.range 128).map (coef i k a.2), rest i k a.2)) ([], fun j n => (tgt j n).1)
    let jn := (List.range 64).flatMap fun j => (List.range 128).map fun n => (j, n)
    let err (i : Nat) : Val := (seqSum fp64 0 (jn.map fun e => let v := (fp32.read ((cand i).2 e.1 e.2)).1; (v.mul v).1)).1
    let less (x y : Val) : Bool := !x.isNan && (y.isNan || x.lt y)
    let psn := jn.any fun e => (tgt e.1 e.2).2
    ∃ i fl, i ≤ c / 2 ^ 32 % 2 ^ 16 ∧ (∀ j, j ≤ c / 2 ^ 32 % 2 ^ 16 → (j < i → less (err i) (err j) = true) ∧ less (err j) (err i) = false) ∧
      s.mEffect r = (
        let s1 := (s.putElems r.ed 64 [(sig i + (kp - 1) * 2 ^ 32 + fmt * 2 ^ 35, psn)]).putElems (r.ed + 64) 16 ((cand i).1.map fun x => (x, psn))
        if c / 2 ^ 51 % 2 = 1 then (List.range 64).foldl (fun t j =>
          t.putElems (r.ea + j * r.da.pitch.toNat) 32 ((List.range 128).map fun n => ((cand i).2 j n, psn))) s1 else s1, fl)) ∧
  (∀ (s : State) (f : MF) (r : MRun),
    let u := (s.mEffect r).1
    let w := r.seen
    let kp := w / 2 ^ 32 % 8 + 1
    let b := s.me.basis r.buf
    let codes := (List.range 8192).map fun i => w / 2 ^ (2 * i) % 4
    (r.ent.instr = .mrow f →
      (s.mEffect r).2 = 0 ∧ u.mem = s.mem ∧ (∀ n, (∀ i, i ≤ r.da.rows.toNat → n ≠ f.i 0 6 + i) → u.me.row n = s.me.row n) ∧
      ∀ i, i ≤ r.da.rows.toNat →
        let e := s.apElem (r.ea + i * r.da.pitch.toNat) 2048
        let z := s.apElem (r.eb + 32 * i) 32
        let sc := f.q 32 1 = 1
        u.me.row (f.i 0 6 + i) = { bits := BitVec.ofNat 2048 e.1, tag := r.da.tag, scale := if sc then BitVec.ofNat 32 z.1 else 0x3F800000,
                                   psn := e.2 || (sc && z.2) }) ∧
    (r.ent.instr = .mseed f →
      (s.mEffect r).2 = 0 ∧ u.mem = s.mem ∧ (∀ n, n ≠ r.buf → u.me.basis n = s.me.basis n) ∧
      (u.me.basis r.buf).kp = kp ∧ (u.me.basis r.buf).seed = BitVec.ofNat 32 w ∧ (u.me.basis r.buf).cfmt = BitVec.ofNat 5 (w / 2 ^ 35) ∧
      (u.me.basis r.buf).psn = r.seenPsn ∧
      ∀ k n, k < kp → n < 128 → (u.me.basis r.buf).coef.getD (128 * k + n) 0 = BitVec.ofNat 16 (w / 2 ^ (64 + 16 * (128 * k + n)))) ∧
    (r.ent.instr = .mcimldMem f →
      (s.mEffect r).2 = (if 3 ∈ codes then fTI else 0) ∧ u.mem = s.mem ∧ (∀ n, n ≠ f.i 0 4 → u.me.mac n = s.me.mac n) ∧
      (u.me.mac (f.i 0 4)).valid = true ∧ (u.me.mac (f.i 0 4)).key = BitVec.ofNat 16 (f.i 4 16) ∧ (u.me.mac (f.i 0 4)).psn = r.seenPsn ∧
      ∀ i, i < 8192 → (u.me.mac (f.i 0 4)).bits.toNat / 2 ^ (2 * i) % 4 = if codes.getD i 0 = 3 then 0 else codes.getD i 0) ∧
    (r.ent.instr = .mcimldBasis f →
      (s.mEffect r).2 = 0 ∧ u.mem = s.mem ∧ (∀ n, n ≠ f.i 0 4 → u.me.mac n = s.me.mac n) ∧
      (u.me.mac (f.i 0 4)).valid = true ∧ (u.me.mac (f.i 0 4)).key = BitVec.ofNat 16 (f.i 4 16) ∧ (u.me.mac (f.i 0 4)).psn = b.psn ∧
      ∀ j n, j < 64 → n < 128 → (u.me.mac (f.i 0 4)).bits.toNat / 2 ^ (2 * (128 * j + n)) % 4 =
        (let t : Int := ((expand b.seed.toNat (f.q 34 3)).getD j []).getD n 0; if t = 1 then 1 else if t = -1 then 2 else 0)) ∧
    (r.ent.instr = .mtest f →
      let planes : List MUnit := if f.q 32 2 = 0 then [.tern] else if f.q 32 2 = 1 then [.fp] else [.tern, .fp]
      let qs := planes.flatMap fun p => ((List.range 4).filter fun q => f.q 34 4 == 0 || (f.q 34 4).testBit q).map fun q => (p, q)
      s.mEffect r = (qs.foldl (fun t e => t.testQuarter e.1 e.2) s, 0))) ∧
  (∀ (s : State) (p : MUnit) (q : Nat), p = .tern ∨ p = .fp → q < 4 →
    let t := s.testQuarter p q
    let bad := Config.selfTestFails s.fresh
    t.fresh = s.fresh + 1 ∧ t.mem = s.mem ∧ t.me.m.run = s.me.m.run ∧ t.me.m.queue = s.me.m.queue ∧
    (∀ k, k < 4 → t.me.m.tfence.getLsbD k = (s.me.m.tfence.getLsbD k || (bad && p == .tern && k == q)) ∧
      t.me.m.ffence.getLsbD k = (s.me.m.ffence.getLsbD k || (bad && p == .fp && k == q))) ∧
    ((s.pkgAt s.myPkg).log.length < 4096 → (t.pkgAt s.myPkg).log = (s.pkgAt s.myPkg).log ++ if bad then
      [errRec 5 (numOf s.cur / 96) (numOf s.cur) s.job.rcd.ctx.toNat (t.me.m.tfence.toNat * 16 + t.me.m.ffence.toNat) 0] else [])) ∧
  ∀ (s : State) (k : MkF) (r : MRun), r.ent.instr = .mchk k →
    let c := k.const.toNat
    let n := c / 2 ^ 50 % 2 ^ 14 + 1
    let lane := c / 2 ^ 32 % 2 ^ 18
    let at_ (i : Nat) : Nat := 2 ^ 27 + 40 * (lane + i)
    let bit (x : Nat) : Nat := if x % 2 = 1 then Nat.xor (x / 2) 0x82F63B78 else x / 2
    let crc (l : List Nat) : Nat := Nat.xor (l.foldl (fun x b => (List.range 8).foldl (fun x _ => bit x) (Nat.xor x b)) 0xFFFFFFFF) 0xFFFFFFFF
    let x := crc ((List.range n).flatMap fun i => (List.range 5).map fun j => s.rdLane s.cur (at_ i) 40 / 2 ^ (8 * j) % 256)
    s.mEffect r = (s, 0) ∧
    s.mchkTest k = if 163840 < lane + n then some { cause := .ldstScope, info := BitVec.ofNat 64 (selfVa + at_ 0) }
      else if ∃ i, i < n ∧ s.lanePsn s.cur (at_ i) 40 = true then some { cause := .poison }
      else if x = c % 2 ^ 32 then none else some { cause := .gaugeFail, info := BitVec.ofNat 64 x }

/-- 11 R270, R271, R274, 15 R333: what else happens in the engine. A gauge tile whose CRC does not match traps GAUGE_FAIL at the M
word with the CRC found and is logged; the commands behind it are discarded. A cancellation acts at the end of its cycle: once that has
passed it takes every unstarted entry of its generation (of all, under `.all`) from the queue. An injected self-test of a plane whose busy cycles have reached the interval, and
on which nothing runs, tests all four quarters, fences those that fail (which fail is a free value of the model), and starts the count
anew.
Where the spec leaves a choice, these are the model's: log entries 21, 53, 86 and 88. -/
def Obligations.MEvents : Prop :=
  (∀ (s : State) (r : MRun) (k : MkF) (t : Trap),
    s.me.m.run.find? (fun x => x.ent.id == s.ev.id) = some r → s.me.dead = false → s.me.job.isSome = true → s.me.m.oldest r = true →
    s.me.cancelDue s.now = false → r.reading = false → (∀ h, mHead (.mchk k) = some h → h.scnt = 0 ∨ s.me.semStage h.sid.toNat s.now ≤ 2) →
    r.ent.instr = .mchk k → s.mchkTest k = some t → t.cause = .gaugeFail → s.me.phase = none → s.me.inh = false →
    ∃ u, exec .commandComplete s = .next u ∧ u.me.m.queue = [] ∧ (u.ctl .m).epc = r.ent.addr ∧ (u.ctl .m).einfo = t.info ∧
      (u.ctl .m).ecause = 21 ∧ u.me.pend = s.me.pend ||| 8 ∧
      ((s.pkgAt s.myPkg).log.length < 4096 → (u.pkgAt s.myPkg).log = (s.pkgAt s.myPkg).log ++
        [errRec 4 (numOf s.cur / 96) (numOf s.cur) s.job.rcd.ctx.toNat t.info.toNat 0])) ∧
  (∀ (s : State) (t : Nat) (g : Option (BitVec 4)) (l : List (Nat × Option (BitVec 4))),
    s.me.m.cancels = (t, g) :: l → t < s.now →
    ∃ u, exec .mcancelAct s = .next u ∧ SameRest s u ∧ OtherCores s u ∧ u.me.m.cancels = l ∧ u.me.m.run = s.me.m.run ∧
      u.me.m.queue = s.me.m.queue.filter fun e => !(g.isNone || g == some e.lgen)) ∧
  (∀ (s : State), s.me.job.isSome = true → s.me.dead = false →
    let pl : MUnit := match s.ev.pl with | .ternary => .tern | .fp => .fp
    s.me.m.testDue pl = true → s.me.m.run.any (fun r => r.units.contains pl) = false →
    ∃ u, exec .injectedSelfTest s = .next u ∧ u.fresh = s.fresh + 4 ∧ u.me.m.run = s.me.m.run ∧ u.me.m.queue = s.me.m.queue ∧
      (s.ev.pl = .ternary → u.me.m.busyT = 0 ∧ u.me.m.ffence = s.me.m.ffence ∧
        ∀ q, q < 4 → u.me.m.tfence.getLsbD q = (s.me.m.tfence.getLsbD q || Config.selfTestFails (s.fresh + q))) ∧
      (s.ev.pl = .fp → u.me.m.busyF = 0 ∧ u.me.m.tfence = s.me.m.tfence ∧
        ∀ q, q < 4 → u.me.m.ffence.getLsbD q = (s.me.m.ffence.getLsbD q || Config.selfTestFails (s.fresh + q))))

/-! Flumes, fences and weirs (14). -/

/-- 14 R311, R312, R314, R316, 07 R191: the flume words on a valid flume of the job's context. A claim takes the slot at TAIL mod S while
one is free and answers its address; `flfill` fills a claimed slot once the core's writes to it are performed; `flwaitf` holds the next
filled slot and answers its address; `flrel` releases the head slot, which becomes empty, and advances HEAD; `flwaitr` answers TAIL once
no slot is in use. The first claim or wait binds its party; another party, or a slot in another state, traps FLUME_FAULT; a word that must
wait, waits. Where a stream waits at such a word, the operation at the flume's home has the effect of the word as the home then stands.
Where the spec leaves a choice, these are the model's: log entry 36. -/
def Obligations.FlumeWords : Prop :=
  ∀ (f : CrF) (r : ArF) (s : State) (a b : FlAt) (fl : Flume) (st : Str) (base slot : W64),
    let slotAt (n : Nat) : W64 := base + BitVec.ofNat 64 (n % fl.slots * fl.slotBits)
    let q1 := CrQ f true false
    let q2 := CrQ f true true
    let to1 (t : State) (x : W64) : State :=
      if st = .c then (((t.cPop f.pk q1).cDst f.qd f.rd x).advance .c) else (((t.aPop r.pk (aSrcQ r.aa.toNat)).aDst r.ad x).advance .a)
    (st = .c ∧ guardOn f.g s.cg = true ∧ base = s.cSrc f.qa f.ra ∧ s.cReady q1 (qName f.qd f.rd) = .ok () ∨
     st = .a ∧ s.me.a.ckpts = [] ∧ base = s.aSrc r.aa ∧ s.aReady (aSrcQ r.aa.toNat) (aDstQ r.ad.toNat) = .ok ()) →
    let goes (i : Instr) (x : Out) : Prop := exec i s = x ∧
      (s.ev.st = st → s.me.canIssue st s.now = true → (s.ctl st).wait.isSome = true → (∃ w, s.wordAt st = .ok w ∧ decode st w = .ok i) →
        exec .flumeHomeOperation s = x)
    let claim : Instr := if st = .c then .flclaim f else .aflclaim r
    let wait : Instr := if st = .c then .flwaitf f else .aflwaitf r
    (s.flume st .w base = .ok (a, fl) →
      (fl.pv = true → fl.producer s.cur st = false → goes claim (.next (s.takeTrap st { cause := .flumeFault, info := base }))) ∧
      ((fl.pv = false ∨ fl.producer s.cur st = true) →
        let g : Flume :=
          { fl with pv := true, ppkg := pkgOf s.cur, pcore := numOf s.cur, pstr := st.num, tail := fl.tail + 1, claimed := fl.claimed + 1 }
        (fl.used < fl.slots → goes claim (.next (to1 (s.setFlume a g) (slotAt fl.tail.toNat)))) ∧
        (fl.slots ≤ fl.used → goes claim (.next (s.noteWait st .sync))))) ∧
    (s.flume st .r base = .ok (a, fl) →
      (fl.cv = true → fl.consumer s.cur st = false → goes wait (.next (s.takeTrap st { cause := .flumeFault, info := base }))) ∧
      ((fl.cv = false ∨ fl.consumer s.cur st = true) →
        let n := fl.head.toNat + fl.held
        let g : Flume := { fl with cv := true, cpkg := pkgOf s.cur, ccore := numOf s.cur, cstr := st.num, held := fl.held + 1 }
        (fl.held < fl.used → fl.isFilled (n % fl.slots) = true → goes wait (.next (to1 (s.setFlume a g) (slotAt n)))) ∧
        (fl.used ≤ fl.held ∨ fl.isFilled (n % fl.slots) = false → goes wait (.next (s.noteWait st .sync)))) ∧
      (st = .c → goes (.flwaitr f)
        (if fl.used = 0 then .next (to1 s (fl.tail.zeroExtend 64)) else .next (s.noteWait .c .sync)))) ∧
    (∀ i, (st = .c → slot = s.cSrc f.qb f.rb ∧ s.cReady q2 [] = .ok ()) → (st = .a → slot = s.aSrc r.ab ∧
        s.aReady (if aSrcQ r.aa.toNat = aSrcQ r.ab.toNat then aSrcQ r.aa.toNat else aSrcQ r.aa.toNat ++ aSrcQ r.ab.toNat) [] = .ok ()) →
      let to2 (t : State) : State :=
        if st = .c then (t.cPop f.pk q2).advance .c
        else (t.aPop r.pk (if aSrcQ r.aa.toNat = aSrcQ r.ab.toNat then aSrcQ r.aa.toNat else aSrcQ r.aa.toNat ++ aSrcQ r.ab.toNat)).advance .a
      s.flumeSlot st .w base slot = .ok (a, fl, b, i) →
      let bad : Out := .next (s.takeTrap st { cause := .flumeFault, info := base })
      goes (if st = .c then .flrel f else .aflrel r)
        (if fl.consumer s.cur st && 1 ≤ fl.held && i == fl.head.toNat % fl.slots then
          .next (to2 (s.setFlume a { fl with filled := tset false fl.filled i false, held := fl.held - 1, head := fl.head + 1 })) else bad) ∧
      (f.fn.getLsbD 0 = false → s.me.put = none → goes (if st = .c then .flfill f else .aflfill r)
        (if fl.producer s.cur st && fl.isClaimed i then
          if s.slotQuiet a fl i then .next (to2 (s.setFlume a { fl with filled := tset false fl.filled i true, claimed := fl.claimed - 1 }))
          else .next (s.noteWait st .sync)
        else bad)))

/-- 14 R309, R311, R315 to R317: `flinit` makes the control block of a flume whose storage, every page of it translated, is STR of the
job's context; `flfill.put` writes its 64 bits and fills in one act once every other write to the slot is performed (through a window the
write leaves first, and once it and every other write to the slot are performed the slot is filled, unless its claim has been taken back),
so that one that waits has had no effect; `fltake` reads at the head held slot, at its home, or by a read request
through a window; a stream that waits at a flume word goes on when the home evaluates it, as the word itself then would.
Where the spec leaves a choice, these are the model's: log entry 36. -/
def Obligations.FlumeSetup : Prop :=
  (∀ (f : CrF) (s : State) (a : FlAt) (gs : List FlAt), guardOn f.g s.cg = true →
    let qs := CrQ f true true
    let base := s.cSrc f.qa f.ra
    let bits := (s.cg f.rd.toNat).toNat
    let count := (s.cSrc f.qb f.rb).toNat
    s.cReady qs [] = .ok () → bits % 128 = 0 → 128 ≤ bits → bits ≤ 2 ^ 20 → 1 ≤ count → count ≤ 65536 →
    s.flumeAts .c .w (s.granVas base.toNat (count * bits)) = .ok (a :: gs) → a.pa % 128 = 0 → base.toNat % 128 = 0 →
    (∀ g ∈ a :: gs, (s.roleAt g.pkg g.pa).role = .str ∧ (s.roleAt g.pkg g.pa).ctx = s.job.rcd.ctx) →
    ((s.flumeOf a).valid = true → (s.flumeOf a).used = 0) → ((s.flumeOf a).valid = true ∨ s.flumeRoom a = true) →
    exec (.flinit f) s = .next (((s.setFlume a
      { base := a.pa, slotBits := bits, slotsM1 := count - 1, valid := true }).cPop f.pk qs).advance .c)) ∧
  (∀ (s : State) (base n v : Nat), 0 < n →
    (v ∈ s.granVas base n ↔ v = base ∨ base < v ∧ v < base + n ∧ (v % 32768 = 0 ∨
      winVa ≤ v ∧ v < winVaEnd ∧ (128 * (s.me.winAt ((v - winVa) / 2 ^ 30)).tb + (v - winVa) % 2 ^ 30) % 32768 = 0))) ∧
  (∀ (f : CrF) (s : State) (a b : FlAt) (fl : Flume) (i : Nat), guardOn f.g s.cg = true → f.fn.getLsbD 0 = true →
    let qs := CrQ f true true
    let base := s.cSrc f.qa f.ra
    let slot := s.cSrc f.qb f.rb
    let ps := cuts b.pa 64
    let x := (s.cg f.rd.toNat).toNat
    s.cReady qs [] = .ok () → s.flumeSlot .c .w base slot = .ok (a, fl, b, i) → fl.producer s.cur .c = true → fl.isClaimed i = true →
    let local_ := ∀ win pkg n o rs, b.t ≠ .peer win pkg n o rs
    (s.me.put = none → local_ → s.rolePieces s.cur s.job s.myPkg ps .wr = true →
      exec (.flfill f) s = if s.slotQuiet a fl i then .next (((((s.wrPieces s.myPkg ps x false).setFlume a
          { fl with filled := tset false fl.filled i true, claimed := fl.claimed - 1 })).cPop f.pk qs).advance .c)
        else .next (s.noteWait .c .sync)) ∧
    (s.me.put = none → local_ → s.rolePieces s.cur s.job s.myPkg ps .wr = false →
      exec (.flfill f) s = .next (s.takeTrap .c { cause := .roleFault, info := slot })) ∧
    (∀ win pkg n o rs, s.me.put = none → b.t = .peer win pkg n o rs →
      let s1 := s.postWin s.cur .write win pkg n (wholePart o 64 x false) (.stream .c) 0 slot false
      let p : FlPut := { pkg := a.pkg, base := a.pa, slot := i, lo := fl.base + i * fl.slotBits, len := fl.slotBits }
      exec (.flfill f) s = if s.slotQuiet a fl i && s.me.canSend win then
          .next ((s1.setMe { s1.me with put := some p }).noteWait .c .free)
        else .next (s.noteWait .c .sync))) ∧
  (∀ (f : CrF) (s : State) (p : FlPut), guardOn f.g s.cg = true → s.me.put = some p →
    let k := granKey p.pkg p.base
    let fl := tget {} s.flumes k
    let s1 := s.setMe { s.me with put := none }
    let t := if fl.producer s.cur .c && fl.isClaimed p.slot then
      { s1 with flumes := tset {} s1.flumes k { fl with filled := tset false fl.filled p.slot true, claimed := fl.claimed - 1 } } else s1
    exec (.flfill f) s = if s.bitsQuiet p.pkg p.lo p.len then .next ((t.cPop f.pk (CrQ f true true)).advance .c)
      else .next (s.noteWait .c .free)) ∧
  (∀ (f : CrF) (s : State) (a : FlAt) (fl : Flume), guardOn f.g s.cg = true →
    let qs := CrQ f true true
    let base := s.cSrc f.qa f.ra
    let o := (s.cSrc f.qb f.rb).toNat
    let pa := fl.base + fl.head.toNat % fl.slots * fl.slotBits + o
    let va := (base + BitVec.ofNat 64 (fl.head.toNat % fl.slots * fl.slotBits)).toNat + o
    s.cReady qs (qName f.qd f.rd) = .ok () → s.me.sent = none → s.flume .c .r base = .ok (a, fl) → fl.consumer s.cur .c = true →
    fl.held ≠ 0 → o % 64 = 0 → o + 64 ≤ fl.slotBits →
    ((∀ win pkg n off rs, a.t ≠ .peer win pkg n off rs) → s.rolePieces s.cur s.job s.myPkg (cuts pa 64) .rd = true →
      exec (.fltake f) s =
        if s.psnPieces s.myPkg (cuts pa 64) then .next (s.takeTrap .c { cause := .poison, info := BitVec.ofNat 64 va })
        else .next (((s.cPop f.pk qs).cDst f.qd f.rd (BitVec.ofNat 64 (s.rdPieces s.myPkg (cuts pa 64)))).advance .c)) ∧
    (∀ win pkg n off rs, a.t = .peer win pkg n off rs → s.me.canSend win = true →
      let m := s.newMsg s.cur .read pkg n [{ at_ := off + (pa - fl.base), w := 64, val := 0 }] (.stream .c) 0 win (BitVec.ofNat 64 va)
      let t := s.post s.cur m
      exec (.fltake f) s = .next ((t.setMe { t.me with sent := some s.ids, reply := none }).noteWait .c .sync))) ∧
  (∀ (f : CrF) (s : State) (v : Nat) (t : Trap), guardOn f.g s.cg = true → s.me.sent.isSome = true →
    let s1 := s.setMe { s.me with sent := none, reply := none }
    (s.me.reply = some (v, none) → exec (.fltake f) s =
      .next (((s1.cPop f.pk (CrQ f true true)).cDst f.qd f.rd (BitVec.ofNat 64 v)).advance .c)) ∧
    (s.me.reply = some (v, some t) → exec (.fltake f) s = .next (s1.takeTrap .c t))) ∧
  ∀ (s : State) (w : Nat) (i : Instr),
    let st := s.ev.st
    (s.me.canIssue st s.now = false ∨ (s.ctl st).wait = none → exec .flumeHomeOperation s = .next s) ∧
    (s.me.canIssue st s.now = true → (s.ctl st).wait.isSome = true → s.wordAt st = .ok w → decode st w = .ok i →
      (∃ f r, i ∈ [Instr.flclaim f, .flfill f, .flwaitf f, .flwaitr f, .flrel f, .aflclaim r, .aflfill r, .aflwaitf r, .aflrel r]) →
      ∃ t, exec .flumeHomeOperation s = .next t ∧ exec i s = .next t)

/-- 14 R319 to R321, 14 R322 to R327, 20 R418: a marker fence is placed once the last one of its identifier has reached the heads of
its queues, and `mjoin` waits for that and takes it away. `weir.set` sets N; an arrival counts, and the N-th completes the generation;
it answers the generation it belongs to, under `.rel` only once no write or add of the C stream, none of the A stream that happens before it,
and no send started before it is on its way; `weir.wt` passes once that generation is released; `weir.sync` arrives once, then waits under a
limit of its own; the waiters of each completed generation, the oldest first, are released after the level's time; a weir with N = 0 traps WEIR_FAULT; a refusal that awaits report is reported.
Where the spec leaves a choice, these are the model's: log entries 18 and 37. -/
def Obligations.FencesAndWeirs : Prop :=
  ∀ (f : CsF) (s : State),
    (guardOn f.g s.cg = true →
      let id := (f.sys.extractLsb' 0 3).toNat
      let free := ∀ k ∈ s.me.marks, k.id = id → s.me.atHead k = true
      let rest := s.me.marks.filter (·.id != id)
      let k : Marker := { id := id, done := f.sys.getLsbD 3, a := f.sub.getLsbD 0, v := f.sub.getLsbD 1, m := f.sub.getLsbD 2,
                          stamp := s.me.stamp, gens := s.me.a.ckpts.map (·.gen) }
      (free → exec (.mfence f) s = .next ((s.setMe { s.me with marks := rest ++ [k] }).advance .c) ∧
        exec (.mjoin f) s = .next ((s.setMe { s.me with
          marks := rest,
          seen := (s.me.marks.filter (·.id == id)).foldl (fun t k => seenMore t 0 (if k.a && k.done then k.stamp else 0)) s.me.seen }).advance .c)) ∧
      (¬free → exec (.mfence f) s = .next (s.noteWait .c .fabric) ∧ exec (.mjoin f) s = .next (s.noteWait .c .sync))) ∧
    (∀ k, guardOn f.g s.cg = true → s.weirOf f = .ok k →
      let v := s.cg f.sub.toNat
      let w := s.weirAt k
      let arrived : State := s.setWeir k
        (if w.arr + 1 = w.n.toNat then { w with arr := 0, gen := w.gen + 1, comps := w.comps ++ [(w.gen + 1, s.now)] } else { w with arr := w.arr + 1 })
      let may := w.n ≠ 0 ∧ (f.wRel = 1 → s.me.owesRel s.cur = false)
      let bad : Out := .next (s.takeTrap .c { cause := .weirFault, info := BitVec.ofNat 64 f.wId })
      let err : Out := .next (((s.setMe { s.me with fab := { s.me.fab with rpend := 0, mpend := false, fxerr := 0 } }).takeTrap .c
        { cause := .fabricErr, info := s.me.fab.fxerr }))
      exec (.weirSet f) s =
        (if v.toNat < 2 ^ 24 ∧ v ≠ 0 then .next ((s.setWeir k { n := v.truncate 24 }).advance .c) else bad) ∧
      (may → exec (.weirArr f) s = if s.me.refusal then err else .next ((arrived.setCg f.sub.toNat (w.gen + 1)).advance .c)) ∧
      (w.n = 0 → exec (.weirArr f) s = bad) ∧
      (w.n ≠ 0 → f.wRel = 1 → s.me.owesRel s.cur = true → exec (.weirArr f) s = .next (s.noteWait .c .sync)) ∧
      exec (.weirWt f) s = (if v.toNat ≤ w.rel.toNat then .next (s.advance .c) else .next (s.noteWait .c .sync)) ∧
      (may → (s.me.sarr = false ∨ s.me.sarrAt ≠ (s.ctl .c).pc) → exec (.weirSync f) s =
        if s.me.refusal then err else
          let t := arrived.setCg f.sub.toNat (w.gen + 1)
          let u := t.setMe { t.me with sarr := true, sarrAt := (s.ctl .c).pc, sgen := some (w.gen + 1) }
          let bl := ((s.ctl .c).wait.bind (·.blocked)).getD s.now
          .next (u.setCtl .c { u.ctl .c with wait := some { since := s.now, kind := .sync, stamp := s.me.stamp, blocked := some bl } })) ∧
      (∀ g, s.me.sarr = true → s.me.sarrAt = (s.ctl .c).pc → g = s.me.sgen.getD v → exec (.weirSync f) s =
        if g.toNat ≤ w.rel.toNat then .next ((s.setMe { s.me with sarr := false, sgen := none }).advance .c)
        else .next (s.noteWait .c .sync))) ∧
    (∀ (c : Core) (ck : Nat), c.owesRel ck = false ↔
      let n := match c.c.ctl.wait with | some w => if w.kind = .sync then w.stamp else c.stamp | none => c.stamp
      (∀ w ∈ c.owed, w.src ≠ 0 ∧ (w.src = 1 → tget 0 c.seen 0 ≤ w.stamp) ∧ (w.src = 4 → n ≤ w.stamp)) ∧
      ∀ x ∈ c.a.copies, x.leaves ck = true → (if x.send then n else tget 0 c.seen 0) ≤ x.id) ∧
    ∀ g t0 l time, (s.weirAt s.ev.id).comps = (g, t0) :: l → (s.ev.id / 2 ^ 40, time) ∈ [(1, 2), (2, 12), (3, 60), (4, 250), (5, 6000)] →
      exec .weirRelease s =
        .next (if t0 + time ≤ s.now then s.setWeir s.ev.id { s.weirAt s.ev.id with rel := g, comps := l } else s)

/-! Roles and phases (13). -/

/-- 13 R285 to R288, R291, R293: a recast that passes its tests reserves the granules of its region in ascending order and waits at its
word: with all of them reserved it has popped its operands; at one that another recast holds it stays, with those below it reserved, until
that one is free, makes its tests again and goes on, or releases what it holds and traps. What its tests admit: a base and an extent in
whole granules, the role that it names in every granule, and no granule of a phase. When every granule is reserved and every announced
write is performed the granules flip, HELD clears and the C stream goes on: to IMM or STR with context and frame kept, to ACC with mode and
point, to PRV of the job. `rcwait` passes once every granule has the role and none is held.
Where the spec leaves a choice, these are the model's: log entry 54. -/
def Obligations.RecastAndWait : Prop :=
  (∀ (f : CrF) (s : State) (pas l1 l2 : List Nat) (m : BitVec 3) (p : BitVec 6), guardOn f.g s.cg = true →
    let qs := CrQ f true true
    let base := s.cSrc f.qa f.ra
    let ext := s.cSrc f.qb f.rb
    let tests := s.recastTests f.fn base ext (s.cg f.rd.toNat)
    let held (pa : Nat) : Bool := (s.roleAt s.myPkg pa).held
    let c := s.me
    let s1 := s.mapRoles s.myPkg (fun e => { e with held := true }) l1
    let goesOn (r : RecastRun) : Out :=
      let s2 := if l2 = [] then s1.cPop f.pk qs else s1
      .next ((s2.setMe { s2.me with recast := some { r with todo := l2 } }).noteWait .c .free)
    (∀ pa ∈ l1, held pa = false) → (∀ pa l, l2 = pa :: l → held pa = true) →
    (c.recast = none → s.cReady qs [] = .ok () → tests = .ok (pas, m, p) → risingOf pas = l1 ++ l2 →
      base.toNat % 32768 = 0 ∧ ext.toNat % 32768 = 0 ∧ ext.toNat ≤ 2 ^ 40 ∧
      (∀ pa ∈ pas, (s.roleAt s.myPkg pa).ph = false ∧
        (f.fn.getLsbD 9 = false → (s.roleAt s.myPkg pa).role = roleOf (f.fn.extractLsb' 3 3).toNat)) ∧
      (risingOf pas).Pairwise (· < ·) ∧ (∀ pa, pa ∈ risingOf pas ↔ pa ∈ pas) ∧
      exec (.recast f) s = goesOn
        { va := base.toNat, grans := risingOf pas, role := roleOf (f.fn.extractLsb' 0 3).toNat, mode := m, point := p, stamp := c.stamp,
          copies := (c.a.copies.filter (·.started)).map (·.id), cmds := c.m.run.map fun r => r.ent.id,
          others := s.otherCopies, ids := s.ids, scope := (f.fn.extractLsb' 6 3).toNat }) ∧
    (∀ r, c.recast = some r → r.todo = l1 ++ l2 → (c.running s.now = true ∨ c.inh = true) →
      (∀ pa ∈ r.todo, pa % 32768 = 0) → r.todo.Pairwise (· < ·) →
      (r.todo = [] ∨ l1 = [] → exec (.recast f) s = .next (s.noteWait .c .free)) ∧
      (l1 ≠ [] → tests = .ok (pas, m, p) → exec (.recast f) s = goesOn r) ∧
      (∀ t, l1 ≠ [] → tests = .error (.trap t) →
        let s2 := s.mapRoles s.myPkg (fun e => { e with held := false }) (r.grans.take (r.grans.length - r.todo.length))
        exec (.recast f) s = .next ((s2.setMe { s2.me with recast := none }).takeTrap .c t)))) ∧
  (∀ (s : State) (r : RecastRun), s.me.recast = some r →
    (r.todo ≠ [] ∨ s.announced r = true → exec .recastComplete s = .next s) ∧
    (r.todo = [] → s.announced r = false →
      let s1 := (s.keepPeriods r).mapRoles s.myPkg (r.flip s.job) r.grans
      exec .recastComplete s = .next ((s1.setMe { s1.me with recast := none }).advance .c)) ∧
    ∀ e : DirEntry,
      (r.role = .imm → r.flip s.job e = { e with held := false, role := .imm, mode := 0, point := 0 }) ∧
      (r.role = .str → r.flip s.job e = { e with held := false, role := .str, mode := 0, point := 0 }) ∧
      (r.role = .acc → r.flip s.job e = { e with held := false, role := .acc, mode := r.mode, point := r.point }) ∧
      (r.role = .prv → e.role ≠ .prv → r.flip s.job e =
        { e with held := false, role := .prv, mode := 0, point := 0, frame := s.job.rcd.frame, ctx := s.job.rcd.ctx, sys := false })) ∧
  (∀ (f : CrF) (s : State) (pas : List Nat), guardOn f.g s.cg = true →
    let qs := CrQ f true true
    let b := (s.cSrc f.qa f.ra).toNat
    let n := (s.cSrc f.qb f.rb).toNat
    let passes := ∀ pa ∈ pas, (s.roleAt s.myPkg pa).role = roleOf (f.fn.extractLsb' 0 3).toNat ∧ (s.roleAt s.myPkg pa).held = false
    s.cReady qs [] = .ok () →
    (¬(b % 32768 = 0 ∧ n % 32768 = 0 ∧ n ≤ 2 ^ 40) →
      exec (.rcwait f) s = .next (s.takeTrap .c { cause := .roleRange, info := BitVec.ofNat 64 b })) ∧
    (b % 32768 = 0 → n % 32768 = 0 → n ≤ 2 ^ 40 → s.regionPas .r b n = .ok pas →
      (passes → exec (.rcwait f) s = .next ((s.cPop f.pk qs).advance .c)) ∧
      (¬passes → exec (.rcwait f) s = .next (s.noteWait .c (.rc (BitVec.ofNat 64 b))))))

/-- 13 R288, R308: a recast keeps the IMM period that it ends for each granule of memory, and its invalidations drop every replica in its
effective scope, the widest of the scope it names and those that hold the issuer and the homes: of each period kept there is from then on
none within that scope. A read of granules of which no replica can stand with the core finds the machine as it is; else it may instead find
the entry, poison and bits of a period of which one can (which of them is free), and nothing else differs.
Where the spec leaves a choice, these are the model's: log entry 56. -/
def Obligations.StaleReplicas : Prop :=
  (∀ (s : State) (r : RecastRun) (pa : Nat), r.grans = [pa] →
    let k := roleKey s.myPkg pa
    let sc := max r.scope (leastScope s.cur pa)
    let now := if replicated pa = true ∧ (s.roleAt s.myPkg pa).role = .imm then [s.periodOf s.myPkg pa] else []
    { s.keepPeriods r with replicas := s.replicas } = s ∧ (∀ j, j ≠ k → tget [] (s.keepPeriods r).replicas j = tget [] s.replicas j) ∧
    tget [] (s.keepPeriods r).replicas k =
      if 4 ≤ sc then [] else (now ++ tget [] s.replicas k).map fun p => { p with cuts := (sc, s.cur) :: p.cuts }) ∧
  (∀ (s : State) (a n : Nat) (l : Pieces), (∀ q ∈ l, q.1 / 32768 = a / 32768) → s.denied ((a, n) :: l) = [] →
    let b := a / 32768 * 32768
    let can (p : Period) : Prop := p ∈ tget [] s.replicas (roleKey s.myPkg a) ∧ ∀ c ∈ p.cuts, outOfScope c.1 c.2 s.cur = true
    let t := s.viewed ((a, n) :: l)
    ((∀ p, ¬can p) → t = s ∧ s.drawn ((a, n) :: l) = s) ∧
    ((∃ p, can p) → s.drawn ((a, n) :: l) = { s with fresh := s.fresh + 1 }) ∧
    (t = s ∨ ∃ p, can p ∧ { t with mem := s.mem, psn := s.psn, dir := s.dir, cores := s.cores } = s ∧ t.roleAt s.myPkg b = p.entry ∧
        memBits t.mem (bitKey s.myPkg b) 32768 = p.bits % 2 ^ 32768 ∧
        ∀ i, i < 256 → tget false t.psn (granKey s.myPkg (b + 128 * i)) = p.psn.testBit i)) ∧
  (∀ k ck : Nat, (outOfScope 1 ck k = true ↔ k ≠ ck) ∧ (outOfScope 2 ck k = true ↔ quadKey k ≠ quadKey ck) ∧
    (outOfScope 3 ck k = true ↔ dieKey k ≠ dieKey ck)) ∧
  ∀ ck n o d : Nat, n < 768 → o < 2 ^ 30 → d < 8 →
    leastScope ck (apAddr n o) = (if n = numOf ck then 1 else if n / 4 = numOf ck / 4 then 2 else if n / 96 = numOf ck / 96 then 3 else 4) ∧
    leastScope ck (dramBase d + o) = if d = numOf ck / 96 then 3 else 4

/-- 13 R294 to R298: `phmark` with a legal header, region and shadow sets PH in the region and records the header and the semaphores;
`phcommit` makes the current copy the committed copy: what a read of the region gives does not change, no granule is dirty any more, and
ERUN is 0; under `.end` the phase is over. `phabort` begins the abort, and at its end every started stream stands at its entry with g5 as
the word gave it; once every word in issue and every started copy and command has completed, the committed copy is the current one again
and the abort counts, and a poisoned committed granule ends the abort there with POISON at the stream that led to it (R299). Without a
phase the last two words trap PHASE_FAULT.
Where the spec leaves a choice, these are the model's: log entry 55. -/
def Obligations.Phases : Prop :=
  (∀ (f : CrF) (s : State) (hps : Pieces) (sw : Bool) (reg shd o q : List Nat), guardOn f.g s.cg = true →
    let qs := CrQ f true true
    let va := s.cSrc f.qa f.ra
    let ext := (s.cSrc f.qb f.rb).toNat
    let hva := s.cg f.rd.toNat
    let n := min ((ext + 32767) / 32768) 257
    let v := s.viewed hps
    let h := v.rdPieces s.myPkg hps
    let es := [nbits h 0 64, nbits h 64 64, nbits h 128 64, nbits h 192 64]
    let sva := nbits h 256 64
    s.cReady qs [] = .ok () → s.pieces s.cur (.stream .c) .r hva.toNat 512 = .ok (hps, sw) →
    s.regionPas .w va.toNat (32768 * n) = .ok reg → s.regionPas .w sva (32768 * n) = .ok shd →
    s.me.phase = none → hva.toNat % 128 = 0 → (∀ p ∈ hps, (v.roleAt s.myPkg p.1).role = .imm) → nbits h 484 28 = 0 →
    nbits h 480 4 ≤ 12 → s.me.entriesOk es = true → va.toNat % 32768 = 0 → sva % 32768 = 0 → ext % 32768 = 0 → 32768 ≤ ext →
    ext ≤ 8388608 → s.ownRegion reg = some o → s.ownRegion shd = some q → (∀ g ∈ o, g ∉ q) →
    v.psnPieces s.myPkg hps = false →
    let ph : Phase := { hdr := hva, va := va, entry := es.map (BitVec.ofNat 64), region := o, shadow := q,
                        swz := (List.range o.length).map fun i => ((s.peek s.cur (.stream .c) ((va.toNat + 32768 * i) % 2 ^ 64)).map (·.2)).getD 0,
                        insrc := BitVec.ofNat 64 (nbits h 320 64), indst := BitVec.ofNat 64 (nbits h 384 64),
                        incnt := nbits h 448 32, inwc := nbits h 480 4, sems := s.me.sem }
    let s1 := ((s.drawn hps).cPop f.pk qs).mapRoles s.myPkg (fun e => { e with ph := true }) reg
    exec (.phmark f) s = .next ((s1.setMe { s1.me with phase := some ph, aborts := 0, last := 0, erun := 0 }).advance .c)) ∧
  (∀ (f : CsF) (s : State) (p : Phase), guardOn f.g s.cg = true → s.me.phase = some p → s.me.writesPhase p = false →
    (f.sub.getLsbD 0 = false → exec (.phcommit f) s = .next ((s.commitPhase s.cur).advance .c)) ∧
    (f.sub.getLsbD 0 = true → ∃ t, exec (.phcommit f) s = .next t ∧ t.me.phase = none ∧ t.mem = (s.commitPhase s.cur).mem ∧
      t.psn = (s.commitPhase s.cur).psn)) ∧
  (∀ (s : State) (p : Phase), s.me.phase = some p → p.region.length = p.shadow.length → p.region.Nodup →
    (∀ g ∈ p.region ++ p.shadow, g % 32768 = 0 ∧ g + 32768 ≤ scratchBits) → (∀ g ∈ p.region, g ∉ p.shadow) →
    (∀ e ∈ p.dirty, e.2 = true ∧ e.1 < 256 * p.region.length) →
    let t := s.commitPhase s.cur
    t.me.phase = some { p with dirty := [] } ∧ t.me.erun = 0 ∧
    ∀ g ∈ p.region, ∀ i n, i < 32768 → i % 128 + n ≤ 128 →
      t.rdGran s.myPkg (apAddr (numOf s.cur) (g + i)) n = s.rdGran s.myPkg (apAddr (numOf s.cur) (g + i)) n) ∧
  (∀ (f : CsF) (s : State), guardOn f.g s.cg = true →
    (s.me.phase = none → exec (.phcommit f) s = .next (s.takeTrap .c { cause := .phaseFault }) ∧
      exec (.phabort f) s = .next (s.takeTrap .c { cause := .phaseFault })) ∧
    (s.me.phase ≠ none → exec (.phabort f) s = .next (s.setMe { s.me with
      abort := some { err := false, st := .c, trap := none, g5 := s.cg f.sub.toNat }, stopAt := some (s.me.stopAt.getD s.now) }))) ∧
  (∀ (s : State) (p : Phase) (ab : Abort), s.me.phase = some p → ab.stage = 0 →
    let c := s.me
    let s1 := s.setMe (c.restore p ab)
    (c.quiet = false → s.abortStep ab = s) ∧
    (∀ e, c.quiet = true → (p.dirty.find? fun e => tget false s.psn (granKey s.myPkg (apAddr (numOf s.cur) (p.regionOff e.1)))) = some e →
      let s2 := s1.setMe { s1.me with abort := none }
      s.abortStep ab = s2.trapAt ab.st { cause := .poison, info := BitVec.ofNat 64 (p.granVa e.1) } (s2.me.trapPc ab.st)) ∧
    (c.restore p ab).phase = some { p with dirty := [] } ∧ (c.restore p ab).aborts = (if c.aborts = 0xFFFF then c.aborts else c.aborts + 1) ∧
    (c.restore p ab).last = (if ab.err then 2 else 1) ∧ (c.restore p ab).erun = if ab.err then c.erun + 1 else c.erun) ∧
  (∀ (s : State) (p : Phase) (ab : Abort), s.me.phase = some p → p.entry.length = 4 → ab.stage = 1 → s.me.a.copies = [] →
    let t := s.abortStep ab
    t.me.abort = none ∧ t.cg 5 = ab.g5 ∧
    ∀ st, (s.ctl st).started = true → (t.ctl st).pc = p.entry.getD st.num 0 ∧ (t.ctl st).ended = false ∧ (t.ctl st).stopped = false)

/-! The fabric (20). -/

/-- 20 R412 to R418, R406, R407, R410: the fabric words, their tests passed. `fxwin` sets up or clears a window that owes no answer and through
which no second message of a word is still to leave;
`fxallow` sets up or clears a receive side; `fxsend.blk` and `.mc` start the copy that their descriptor describes; `fxsend.faa` sends its
addend and waits for the reply, with a limit of its own (R415), which fills rd; `fxarm` arms a slot and `fxdisarm` unarms one or all; `fxcnt` reads, subtracts from and
waits for a byte counter; `fxfence` passes once nothing posted is unanswered, or reports a refusal.
A word that would take a firing away waits while a trigger fires in the cycle.
Where the spec leaves a choice, these are the model's: log entries 30, 59, 60, 61 and 70. -/
def Obligations.FabricWords : Prop :=
  (∀ (f : CrF) (s : State), guardOn f.g s.cg = true → s.cReady (CrQ f true true) [] = .ok () →
    let w := (f.fn.extractLsb' 0 4).toNat
    let t := s.cSrc f.qa f.ra
    let b := s.cSrc f.qb f.rb
    let pkg := t.toNat / 2 ^ 10
    let tb := b.toNat % 2 ^ 30
    let ext := b.toNat / 2 ^ 30
    let c := s.me
    let x := c.winAt w
    let fin (y : Window) : Out :=
      let u := ((s.setMe (c.setWin w y)).cPop f.pk (CrQ f true true)).advance .c
      .next { u with fresh := u.fresh + 1 }
    (t.toNat < 2 ^ 23 → b.toNat < 2 ^ 48 → x.out = 0 → (s.me.a.half.all fun h => h.2.win != w) = true →
      (ext = 0 → exec (.fxwin f) s = fin { x with v := false }) ∧
      (ext ≠ 0 → s.inDomain pkg = true → t.toNat % 2 ^ 10 < 768 → tb % 128 = 0 → (∃ p, inPart p tb (128 * ext) = true) →
        exec (.fxwin f) s = fin { v := true, faa := f.fn.getLsbD 4, pkg := pkg, core := t.toNat % 2 ^ 10, tb := tb / 128,
                                  extm1 := ext - 1, out := 0, lw := x.allow, allow := x.allow, h := x.allow, c := 0 })) ∧
    (∀ e o, e = b → s.allowAt w t.toNat e.toNat (f.fn.getLsbD 4) = .ok o → e ≠ 0 → c.trigNow s.now = false →
      let s1 := s.usePages .c t.toNat 1
      exec (.fxallow f) s = .next (((s1.setMe (s1.me.setRecv w
        { v := true, grant := f.fn.getLsbD 4, rb := o / 128, rextm1 := e.toNat / 128 - 1,
          cnt := if f.fn.getLsbD 5 then (s1.me.recvAt w).cnt else 0 } s.now)).cPop f.pk (CrQ f true true)).advance .c)) ∧
    (c.trigNow s.now = true → exec (.fxallow f) s = .next (s.noteWait .c .free)) ∧
    (b = 0 → c.trigNow s.now = false → exec (.fxallow f) s =
      .next (((s.setMe (c.setRecv w { c.recvAt w with v := false } s.now)).cPop f.pk (CrQ f true true)).advance .c))) ∧
  (∀ (f : CrF) (s : State) (o d : Nat), guardOn f.g s.cg = true → s.cReady (CrQ f true false) [] = .ok () →
    let va := s.cSrc f.qa f.ra
    let mask := s.cg f.rd.toNat
    let fin (u : State) : Out := .next ((u.cPop f.pk (CrQ f true false)).advance .c)
    let s1 := s.usePages .c va.toNat 256
    s.sendDesc va.toNat = .ok (o, d) → s.sendBad d = false →
    (∀ u, s.sendDst (.stream .c) (sendCopy va d none) = .ok () → s.me.a.sends = [] →
      s1.issueCopy (sendCopy va d none) = .ok u → exec (.fxsendBlk f) s = fin u) ∧
    (∀ u, s.sendDst (.stream .c) (sendCopy va d (some mask)) = .ok () → s.me.a.sends = [] → mask ≠ 0 → inWindows (nbits d 64 64) = true →
      s1.issueCopy (sendCopy va d (some mask)) = .ok u → exec (.fxsendMc f) s = fin u) ∧
    (∀ t, s.sendDst (.stream .c) (sendCopy va d none) = .ok () → s.me.a.sends = [] →
      s1.issueCopy (sendCopy va d none) = .error (.trap t) → exec (.fxsendBlk f) s = fin (s1.stopSend va t)) ∧
    (∀ t, s.sendDst (.stream .c) (sendCopy va d none) = .error (.trap t) → exec (.fxsendBlk f) s =
      .next (s.takeTrap .c (if t.cause = .windowFault then { t with info := va } else t))) ∧
    (∀ mc, let x := sendCopy va d mc
      x.src = BitVec.ofNat 64 d ∧ x.dst = BitVec.ofNat 64 (d / 2 ^ 64) ∧ x.n * x.w = nbits d 128 25 ∧ x.ord = d.testBit 160 ∧
      x.add = d.testBit 161 ∧ x.fl = d.testBit 162 ∧ x.sen = d.testBit 167 ∧ x.mc = mc) ∧
    ((tget {} s.me.fab.trig (f.fn.extractLsb' 0 4).toNat : Trigger).v = false →
      let g : Trigger := { v := true, cnt := nbits d 224 4, desc := o / 128, thr := nbits d 192 32 }
      let fab1 : Fabric := { s1.me.fab with trig := tset {} s1.me.fab.trig (f.fn.extractLsb' 0 4).toNat g }
      exec (.fxarm f) s = fin (s1.setMe (Core.reTrig { s1.me with fab := fab1 } s.now)))) ∧
  (∀ (f : CrF) (s : State), guardOn f.g s.cg = true → s.cReady (CrQ f true true) (qName f.qd f.rd) = .ok () →
    let x := s.cSrc f.qa f.ra
    let s1 := s.setMe { s.me with sent := none, reply := none }
    (∀ win pkg n o rs sw, s.me.sent = none → (inWindows x.toNat ∨ inWin16 s.cur x.toNat) →
      s.target s.cur (.stream .c) .add true x.toNat 40 = .ok (.peer win pkg n o rs, sw) → (s.me.winAt win).faa = true →
      inPart .acc o 40 = true → (o - accBase) % 40 = 0 → s.me.canSend win = true →
      let u := s.post s.cur (s.newMsg s.cur .faa pkg n [{ at_ := o, w := 40, val := (s.cSrc f.qb f.rb).toNat }] (.stream .c) 0 win x)
      exec (.fxsendFaa f) s = .next ((u.setMe { u.me with sent := some s.ids, reply := none }).setCtl .c
        { u.ctl .c with wait := some { since := s.now, kind := .syncAt x, stamp := u.me.stamp } })) ∧
    (∀ win pkg n o rs sw, s.me.sent = none → (inWindows x.toNat ∨ inWin16 s.cur x.toNat) →
      s.target s.cur (.stream .c) .add true x.toNat 40 = .ok (.peer win pkg n o rs, sw) → (s.me.winAt win).faa = false →
      exec (.fxsendFaa f) s = .next (s.takeTrap .c { cause := .atomicFault, info := x })) ∧
    (s.me.sent.isSome = true → s.me.reply = none → exec (.fxsendFaa f) s = .next (s.noteWait .c (.syncAt x))) ∧
    (∀ v, s.me.sent.isSome = true → s.me.reply = some (v, none) →
      exec (.fxsendFaa f) s = .next (((s1.cPop f.pk (CrQ f true true)).cDst f.qd f.rd (BitVec.ofNat 64 v)).advance .c)) ∧
    (∀ v t, s.me.sent.isSome = true → s.me.reply = some (v, some t) → exec (.fxsendFaa f) s = .next (s1.takeTrap .c t))) ∧
  (∀ (f : CrF) (s : State), guardOn f.g s.cg = true →
    let w := (f.fn.extractLsb' 0 4).toNat
    let r := s.me.recvAt w
    let a := s.cSrc f.qa f.ra
    (s.cReady [] (qName f.qd f.rd) = .ok () →
      exec (.fxcntRd f) s = .next (((s.cPop f.pk []).cDst f.qd f.rd (BitVec.ofNat 64 r.cnt)).advance .c)) ∧
    (s.cReady (CrQ f true false) (qName f.qd f.rd) = .ok () →
      (a.toNat ≤ r.cnt → exec (.fxcntWt f) s =
        .next (((s.cPop f.pk (CrQ f true false)).cDst f.qd f.rd (BitVec.ofNat 64 r.cnt)).advance .c)) ∧
      (r.cnt < a.toNat → exec (.fxcntWt f) s = .next (s.noteWait .c .fabric)) ∧
      (s.me.trigNow s.now = true → exec (.fxcntSub f) s = .next (s.noteWait .c .free)) ∧
      (s.me.trigNow s.now = false → a.toNat ≤ r.cnt → exec (.fxcntSub f) s =
        .next ((((s.setMe (s.me.setRecv w { r with cnt := r.cnt - a.toNat } s.now)).cPop f.pk (CrQ f true false)).cDst f.qd f.rd
          (BitVec.ofNat 64 (r.cnt - a.toNat))).advance .c)) ∧
      (s.me.trigNow s.now = false → r.cnt < a.toNat → exec (.fxcntSub f) s = .next (s.takeTrap .c { cause := .windowFault, info := BitVec.ofNat 64 w })))) ∧
  (∀ (f : CsF) (s : State), guardOn f.g s.cg = true →
    (s.me.trigNow s.now = true → exec (.fxdisarm f) s = .next (s.noteWait .c .free)) ∧
    (s.me.trigNow s.now = false → ∃ t, exec (.fxdisarm f) s = .next (t.advance .c) ∧ SameRest s t ∧ OtherCores s t ∧
      { t.me with fab := { t.me.fab with trig := s.me.fab.trig } } = s.me ∧
      ∀ k, let x : Trigger := tget {} s.me.fab.trig k
        tget {} t.me.fab.trig k =
          if f.sys.getLsbD 0 = true ∧ k < 16 ∨ f.sys.getLsbD 0 = false ∧ k = f.sub.toNat then { x with v := false, due := none } else x) ∧
    (s.me.owing s.cur = false → s.me.a.sends = [] → exec (.fxfence f) s =
      if s.me.refusal then .next ((s.setMe { s.me with fab := { s.me.fab with rpend := 0, mpend := false, fxerr := 0 } }).takeTrap .c
        { cause := .fabricErr, info := s.me.fab.fxerr })
      else .next (s.advance .c)) ∧
    (s.me.owing s.cur = true ∨ s.me.a.sends ≠ [] → exec (.fxfence f) s = .next (s.noteWait .c .fabric)))

/-- 20 R387, R393, R394, R398 to R400, R404, R408, R410, R391: what happens to messages. The way between two stops of a die takes the X
ring to the column and then the Y ring, the shorter way on each. In the torus a message takes the next ring buffer that has two free entries,
one on its own ring; a station's output buffer holds 64, and above 48 both set the squall bit. A slot that reaches its station goes to the input buffer, is turned away, then may take the overflow buffer, never past
an earlier pinned one turned away there; a multicast leaves a copy at each package it names and goes on to the next.
At its home a granted write, add or fetch-and-add of the receiver's context, and any read that Table 13.2 admits, is
performed, counts 16 bytes for each of its data granules where it writes, and is answered; any other is refused. Of a context that a kill
has stopped the home still performs what its job admits, without counting (15 R359). An answer lowers OUT and moves the live window, a
refusal is noted, data reach the load or copy that asked, and a fetch-and-add's reply its word. A slot whose counter meets its threshold at
the start of a cycle fires in it: it is unarmed and its send waits for a copy slot. A link layer retry changes nothing.
Where the spec leaves a choice, these are the model's: log entries 17, 21, 26, 27, 38, 39 and 60. -/
def Obligations.FabricMessages : Prop :=
  (∀ ax ay bx by_, ax < 8 → ay < 4 → bx < 8 → by_ < 4 →
    let l := torusPath (ax, ay) (bx, by_)
    let near (n a b : Nat) : Nat := min ((b + n - a) % n) ((a + n - b) % n)
    l.length = near 8 ax bx + near 4 ay by_ ∧ ((ax, ay) :: l).getLast? = some (bx, by_) ∧
    ∀ i p q, ((ax, ay) :: l)[i]? = some p → ((ax, ay) :: l)[i + 1]? = some q →
      (if i < near 8 ax bx then p.2 = ay ∧ q.2 = ay ∧ near 8 p.1 q.1 = 1 else p.1 = bx ∧ q.1 = bx ∧ near 4 p.2 q.2 = 1)) ∧
  (∀ (s : State) (m : Msg), s.msgAt s.ev.id = some m →
    let go (l : Leg) (sq : Bool) : State := { s.setMsg s.ev.id (some { m with leg := l, sq := sq }) with ids := s.ids + 1, fresh := s.fresh + 1 }
    (∀ p d a b c l, m.leg = .torus p d (a :: b :: c :: l) → s.inRouter p d b c + (if (a.2 == b.2) = (b.2 == c.2) then 1 else 2) ≤ 64 →
      exec .slotArrival s = .next (go (.torus p d (b :: c :: l)) (m.sq || (48 < s.inRouter p d b c && m.kind.squalls)))) ∧
    (∀ p d a b c l, m.leg = .torus p d (a :: b :: c :: l) → 64 < s.inRouter p d b c + (if (a.2 == b.2) = (b.2 == c.2) then 1 else 2) →
      exec .slotArrival s = .next { s with fresh := s.fresh + 1 }) ∧
    (∀ r cw i n, m.leg = .slot r cw i n →
      let taken := s.earlierPin m fun o => o.turnedAt r i
      let room := s.inInput r cw i < 64
      (m.mc = none → (taken = true ∨ ¬room ∧ (n = 0 ∨ hasOverflow r i = false ∨ 512 ≤ s.inOverflow r i)) →
        exec .slotArrival s = .next (go (.slot r cw i (n + 1)) m.sq)) ∧
      (m.mc = none → taken = false → room → exec .slotArrival s = .next (go (.input r cw i s.ids) m.sq)) ∧
      (m.mc = none → taken = false → ¬room → 0 < n → hasOverflow r i = true → s.inOverflow r i < 512 →
        exec .slotArrival s = .next (go (.overflow r i s.ids) m.sq)) ∧
      (∀ b : W64, m.mc = some b → r = .rack (m.dpkg / 64) → b.getLsbD i = true → taken = false → room → s.ev.id ≤ s.ids →
        let rest := b &&& ~~~(BitVec.ofNat 64 (2 ^ i))
        ∃ t q c, exec .slotArrival s = .next t ∧ t.msgAt s.ev.id = some q ∧ t.msgAt (s.ids + 1) = some c ∧
          q.mc = some rest ∧ q.left = m.left + 1 ∧ c.mc = none ∧ c.parent = some s.ev.id ∧ c.dpkg = m.dpkg / 64 * 64 + i ∧
          c.leg = .input r cw i s.ids ∧
          (rest = 0 → q.leg = .home) ∧ ∀ j, rest ≠ 0 → s.nextAfter r i rest.getLsbD = some j → q.leg = .slot r true j n)) ∧
    (∀ r cw i k, m.leg = .input r cw i k → s.overflowBefore r i k = true → exec .slotArrival s = .next { s with fresh := s.fresh + 1 }) ∧
    (m.leg = .start → ∀ r i j via, s.onward m m.origin.1 m.origin.2.spot (Config.freeNat s.fresh) = some (.output r i j, via) →
      exec .slotArrival s = if 64 ≤ s.inOutput r i then .next { s with fresh := s.fresh + 1 } else
        .next { s.setMsg s.ev.id (some { m with leg := .output r i j, via := via, sq := m.sq || (48 < s.inOutput r i && m.kind.squalls) }) with
                ids := s.ids + 1, fresh := s.fresh + 1 }) ∧
    (∀ r i j, m.leg = .output r i j → exec .slotArrival s = .next { s with fresh := s.fresh + 1 } ∨
      ∃ cw, exec .slotArrival s = .next (go (.slot r cw j 0) m.sq) ∧ (m.mc ≠ none → (∀ p, r ≠ .package p) → cw = true))) ∧
  (∀ (s : State) (m : Msg), s.msgAt s.ev.id = some m → s.atDoor m = true → m.pair = none → m.parent = none →
    let id := s.ev.id
    let dk := coreKey m.dpkg m.dcore
    let c := s.coreAt dk
    let j := s.jobAt dk
    let runs : Bool := c.job.isSome && j.rcd.ctx == m.ctx
    let count (t : State) (l : List (List Nat)) : State := if runs then t.setCoreAt dk ((t.coreAt dk).countIn l s.now) else t
    let qs := m.parts.flatMap fun p => apPieces dk p.at_ p.w
    (runs = true → s.homeSide dk m = some (j, c.fab.recv)) ∧ (runs = false → s.homeSide dk m = c.gone.find? fun g => g.1.rcd.ctx == m.ctx) ∧
    (∀ p, s.homeWriteOk dk m p = true ↔ ∃ h, s.homeSide dk m = some h ∧ ∀ q ∈ cuts p.at_ p.w,
      let pa := apAddr (numOf dk) q.1
      let e := s.roleAt (pkgOf dk) pa
      e.role = .prv ∧ e.ownedBy h.1 = true ∧ recvGranted h.2 q.1 q.2 = true ∨ e.role = .str ∧ s.slotOk (pkgOf dk) pa true m.spkg m.score = true) ∧
    (m.kind = .write → m.part ≠ some .regs →
      (s.homeSide dk m ≠ none → (∀ p ∈ m.parts, s.homeWriteOk dk m p = true) → exec .homeMessage s =
        .next ((count (s.writeParts dk m.parts) ((granulesOf (m.parts.map fun p => (p.at_, p.w))).map fun g => [g])).setMsg id
          (some (m.answer .reply false [] none)))) ∧
      (s.homeSide dk m = none ∨ (∃ p ∈ m.parts, s.homeWriteOk dk m p = false) →
        exec .homeMessage s = .next (s.setMsg id (some (m.answer .reply true [] none))))) ∧
    (∀ p ps, (m.kind = .addInt ∨ m.kind = .addFloat) → m.parts = p :: ps → s.homeSide dk m ≠ none →
      let lane := p.at_ - 40 * m.skip
      let step := s.laneStep dk lane
      let o := lane + step * m.skip
      s.lanesAddOk dk m.ctx o step m.parts.length = true → (o - accBase) % step = 0 →
      exec .homeMessage s = .next ((count (s.addLanes dk o step m.fmt m.w (m.parts.map (·.val))).1
        (addGranules o step m.parts.length m.w)).setMsg id (some (m.answer .reply false [] none)))) ∧
    (∀ p ps h, m.kind = .faa → m.parts = p :: ps → s.homeSide dk m = some h →
      (∀ q ∈ apPieces dk p.at_ 40, (s.roleAt (pkgOf dk) q.1).ownedBy h.1 = true) → recvGranted h.2 p.at_ 40 = true →
      let old := s.rdLane dk p.at_ 40
      exec .homeMessage s = .next ((count (s.wrLane dk p.at_ 40 (itrunc (nsext old 40 + nsext p.val 64) 40)) [granulesOf [(p.at_, 40)]]).setMsg id
        (some (m.answer .reply false (dataParts 40 (some (old, old, s.lanePsn dk p.at_ 40))) none)))) ∧
    (m.kind = .read → m.parts ≠ [] →
      (∀ q ∈ qs, let e := s.roleAt (pkgOf dk) q.1;
        e.role = .imm ∨ e.role = .str ∧ s.slotOk (pkgOf dk) q.1 false m.spkg m.score = true ∨ e.role = .prv ∧ e.ownedBy m.asJob = true) →
      exec .homeMessage s = .next (s.setMsg id (some (m.answer .readData false (dataParts (m.parts.map (·.w)).sum
        (some (s.rdPieces (pkgOf dk) qs, s.rdPiecesZf (pkgOf dk) qs, s.psnPieces (pkgOf dk) qs))) none)))) ∧
    (m.kind = .read → (∃ q ∈ qs, (s.roleAt (pkgOf dk) q.1).role = .acc) →
      exec .homeMessage s = .next (s.setMsg id (some (m.answer .readData true [] (some .roleFault))))) ∧
    (m.kind = .memWrite → (∀ p ∈ m.parts, s.roleOk (coreKey m.spkg m.score) m.asJob m.dpkg p.at_ .wr = true) →
      exec .homeMessage s = .next ((m.parts.foldl (fun t p =>
          if t.hostGranted m.dpkg p.at_ p.w then t.wrGran m.dpkg p.at_ p.w (p.val % 2 ^ p.w) p.psn
          else t.dropHost m.dpkg m.score m.ctx.toNat p.at_) (s.crcWrite m.dpkg (m.parts.map fun p => (p.at_, p.w)))).setMsg id
        (some (m.answer .memAck false [] none)))) ∧
    (m.kind = .memWrite → (∃ p ∈ m.parts, s.roleOk (coreKey m.spkg m.score) m.asJob m.dpkg p.at_ .wr = false) →
      exec .homeMessage s = .next (s.setMsg id (some (m.answer .memAck true [] none))))) ∧
  (∀ (s : State) (m : Msg), s.msgAt s.ev.id = some m → m.leg = .home → s.sentBy m = true →
    let id := s.ev.id
    let k := coreKey m.spkg m.score
    let c := s.coreAt k
    let s1 := s.setMsg id none
    let x := c.winAt m.win
    (m.kind = .reply → ∃ t, exec .reply s = .next t ∧ t.msgAt id = none ∧ (∀ w ∈ (t.coreAt k).owed, w.id ≠ id) ∧
      (m.win ≤ 16 → (t.coreAt k).winAt m.win = x.answered m.sq) ∧
      (c.sent = some id → (t.coreAt k).reply = some m.toC) ∧
      (m.ref = true → m.why = none → m.win ≤ 16 → (t.coreAt k).fab.rpend.getLsbD m.win = true) ∧
      (m.ref = false → (t.coreAt k).fab.rpend = c.fab.rpend)) ∧
    (m.kind = .memAck → m.win = 17 → ∃ t, exec .memoryAcknowledgement s = .next t ∧ t.msgAt id = none ∧
      (∀ w ∈ (t.coreAt k).owed, w.id ≠ id) ∧ (t.coreAt k).fab.mpend = (c.fab.mpend || m.ref)) ∧
    (m.kind = .readData → m.sender = .stream .a → ∃ t, exec .readData s = .next t ∧ t.msgAt id = none ∧
      ∀ l ∈ c.a.loads, l.id = m.load → ∃ l' ∈ (t.coreAt k).a.loads, l' = { l with
        ret := some ((m.parts.map (·.val)).headD 0, ((m.parts.drop 1).map (·.val)).headD 0, (m.parts.map (·.psn)).headD false),
        bad := m.why.map fun w => { cause := w, info := m.va } })) ∧
  (∀ (x : Window), 0 < x.out →
    (x.answered false).out = x.out - 1 ∧ (x.answered false).h = x.h + 1 ∧
    (x.c + 1 = 64 → (x.answered false).lw = min (x.lw + 1) x.allow ∧ (x.answered false).c = 0) ∧
    (x.c + 1 ≠ 64 → (x.answered false).lw = x.lw ∧ (x.answered false).c = x.c + 1) ∧
    (x.answered true).out = x.out - 1 ∧ (x.answered true).c = 0 ∧
    (x.lw ≤ x.h → (x.answered true).lw = max 1 (x.lw / 2) ∧ (x.answered true).h = 1) ∧
    (x.h < x.lw → (x.answered true).lw = x.lw ∧ (x.answered true).h = x.h + 1)) ∧
  (∀ (c : Core) (now k : Nat),
    let x : Trigger := tget {} c.fab.trig k
    x.v = true → (tget {} (c.reTrig now).fab.trig k : Trigger) =
      { x with due := if x.thr ≤ (tget {} c.fab.recv x.cnt : RecvSide).cnt then some (x.due.getD (now + 1)) else none }) ∧
  (∀ (s : State), s.me.job.isSome = true → s.me.dead = false → s.me.saving = false → s.ev.id < 16 → s.me.trigDue s.ev.id s.now = true →
    (∀ i, i < s.ev.id → s.me.trigDue i s.now = false) →
    let x : Trigger := tget {} s.me.fab.trig s.ev.id
    let word : W64 := BitVec.ofNat 64 (selfVa + 128 * x.desc)
    let s1 := s.setMe { s.me with fab := { s.me.fab with trig := tset {} s.me.fab.trig s.ev.id { x with v := false, due := none } } }
    let ps := cuts (apAddr (numOf s.cur) (128 * x.desc)) 256
    let d := s.rdPieces s.myPkg ps
    let y := { sendCopy word d none with id := s.me.stamp, trig := s.ev.id }
    s.psnPieces s.myPkg ps = false → s.sendBad d = false → s1.sendDst (.copy y.id) y = .ok () →
    exec .triggerFire s = .next (s1.setMe { s1.me with
      stamp := s1.me.stamp + 1, a := { s1.me.a with sends := insertSend y s1.me.a.sends } }).pumpSend) ∧
  ∀ (s : State), exec .linkLayerRetry s = .next s

/-! System registers, traps and handlers (15). -/

/-- 15 R338, R341 to R344, R349, 14 R330, 18 R380, 20 R400: `sysrd` writes rd with the register, and what the registers hold; `syswr`
changes the fields that a write may change in its issue cycle; the count of a semaphore is replaced, in a cycle before its signals and waits; an EPC of a stopped stream takes an
aligned value; an allowance below the live window lowers it; a worklist register write is under way for 150 cycles. `snaprd` and `snapwr`
reach the snapshot buffer in a handler. A removal of translations waits its time, then takes them. A walk that ends gives its clients the
translation or the fault.
Where the spec leaves a choice, these are the model's: log entries 13, 19, 22, 66, 68, 69 and 86. -/
def Obligations.SystemRegisters : Prop :=
  (∀ (f : CrF) (s : State), guardOn f.g s.cg = true → s.cReady [] (qName f.qd f.rd) = .ok () →
    exec (.sysrd f) s = .next (((s.cPop f.pk []).cDst f.qd f.rd (BitVec.ofNat 64 (s.sysReg f.fn.toNat))).advance .c)) ∧
  (∀ (s : State), let c := s.me
    (∀ st, s.sysReg st.num = (s.ctl st).xflags.toNat ∧ s.sysReg (0x014 + st.num) = (s.ctl st).tvec.toNat ∧
      s.sysReg (0x018 + st.num) = (s.ctl st).epc.toNat ∧ s.sysReg (0x01C + st.num) = (s.ctl st).ecause.toNat ∧
      s.sysReg (0x020 + st.num) = (s.ctl st).einfo.toNat) ∧
    s.sysReg 0x008 = c.limit.toNat ∧ s.sysReg 0x011 = c.sav30.toNat ∧ s.sysReg 0x012 = c.sav31.toNat ∧
    s.sysReg 0x010 = c.pend.toNat + 16 * c.inh.toNat + 256 * c.cur + 1024 * c.pre.toNat + 2048 * c.sarr.toNat ∧
    s.sysReg 0x024 = numOf s.cur + 1024 * s.myPkg ∧ s.sysReg 0x025 = s.job.rcd.ctx.toNat ∧
    s.sysReg 0x028 = c.a.gen % 16 + 16 * c.a.ckpts.length + 64 * c.a.radepth + 256 * c.a.copies.length + 4096 * (c.feet.filter (·.copy)).length ∧
    s.sysReg 0x029 = c.a.cfaddr.toNat ∧
    s.sysReg 0x02A = c.a.cfIndex.toNat + 2 ^ 32 * c.a.cfValid.toNat + 2 ^ 48 * c.a.cfCause.toNat ∧
    s.sysReg 0x039 = c.m.interval.toNat ∧ s.sysReg 0x060 = c.semOvf.toNat ∧
    (∀ i, i < 16 → s.sysReg (0x050 + i) = c.semAt i ∧ s.sysReg (0x130 + i) = (c.recvAt i).cnt) ∧
    (∀ l, l < 6 → s.sysReg (0x040 + l) = iterOf c.m.loops l) ∧
    s.sysReg 0x300 = (s.pkgAt s.myPkg).pwrLim.toNat ∧ s.sysReg 0x303 = (s.pkgAt s.myPkg).pwrCnt.toNat) ∧
  (∀ (f : CrF) (s : State), guardOn f.g s.cg = true → s.cReady (CrQ f true false) [] = .ok () →
    let x := s.cSrc f.qa f.ra
    let n := f.fn.toNat
    let c := s.me
    let fin (d : Core) : Out := .next (((s.setMe d).cPop f.pk (CrQ f true false)).advance .c)
    (∀ st, let y := s.ctl st
      (n = st.num → exec (.syswr f) s = fin (c.setCtl st { y with xflags := y.xflags &&& ~~~(x.truncate 8) })) ∧
      (n = 0x014 + st.num → exec (.syswr f) s = fin (c.setCtl st { y with tvec := x })) ∧
      (n = 0x018 + st.num → x.toNat % st.wordBits = 0 → y.stopped = true → exec (.epcWrite f) s = fin (c.setCtl st { y with epc := x })) ∧
      (n = 0x018 + st.num → x.toNat % st.wordBits = 0 → y.stopped = false →
        exec (.epcWrite f) s = .next ((s.cPop f.pk (CrQ f true false)).advance .c)) ∧
      (n = 0x018 + st.num → x.toNat % st.wordBits ≠ 0 → exec (.epcWrite f) s = .next (s.takeTrap .c { cause := .sysState }))) ∧
    (n = 0x008 → exec (.syswr f) s = fin { c with limit := x.truncate 32 }) ∧
    (n = 0x010 → exec (.syswr f) s = fin { c with pend := c.pend &&& ~~~(x.truncate 4) }) ∧
    (n = 0x011 → exec (.syswr f) s = fin { c with sav30 := x }) ∧ (n = 0x012 → exec (.syswr f) s = fin { c with sav31 := x }) ∧
    (n = 0x02A → exec (.syswr f) s = fin { c with a := { c.a with cfValid := c.a.cfValid && !x.getLsbD 32 } }) ∧
    (n = 0x039 → exec (.syswr f) s = fin { c with m := { c.m with interval := x.truncate 32 } }) ∧
    (n = 0x060 → exec (.syswr f) s = fin { c with semOvf := c.semOvf &&& ~~~(x.truncate 16) }) ∧
    (∀ i, i < 16 → n = 0x050 + i →
      (c.semMay i 1 s.now = true → exec (.semWrite f) s = fin { c.semMark i 1 s.now with sem := tset 0 c.sem i (x.truncate 16) }) ∧
      (c.semMay i 1 s.now = false → exec (.semWrite f) s = .next (s.noteWait .c .turn))) ∧
    (∀ i, i < 16 → n = 0x110 + i →
      let w := c.winAt i
      let a := (x.extractLsb' 32 10).toNat + 1
      exec (.allowWrite f) s = fin (c.setWin i { w with allow := a, lw := min w.lw a })) ∧
    (n = 0x152 →
      let w := c.winAt 16
      let a := (x.extractLsb' 0 10).toNat + 1
      exec (.allowWrite f) s = fin (c.setWin 16 { w with allow := a, lw := min w.lw a, faa := x.getLsbD 31 })) ∧
    exec (.worklistRegisterWrite f) s = .next (((s.setCtxAt s.myCtx { s.ctxAt s.myCtx with
      writes := (s.ctxAt s.myCtx).writes ++ [(s.now + 150, n, x)] }).cPop f.pk (CrQ f true false)).advance .c)) ∧
  (∀ (f : CrF) (s : State), guardOn f.g s.cg = true →
    let x := s.cSrc f.qa f.ra
    let w := x.toNat % 64
    let e := x.toNat / 64
    let c := s.me
    x.toNat < 4096 → w ≤ 33 → (e < 48 ∨ e = 63) → c.v.ctl.started = true →
    (s.cReady (CrQ f true false) (qName f.qd f.rd) = .ok () →
      (c.inh = true → exec (.snaprd f) s = .next (((s.cPop f.pk (CrQ f true false)).cDst f.qd f.rd (BitVec.ofNat 64
        (if e = 63 then c.v.snapHead w else (c.v.snap.getD e Snap.empty).word w))).advance .c)) ∧
      (c.inh = false → exec (.snaprd f) s = .next (s.takeTrap .c { cause := .sysState }))) ∧
    (s.cReady (CrQ f true true) [] = .ok () →
      let b := s.cSrc f.qb f.rb
      (c.inh = true → e < 48 → (w ≠ 32 ∨ metaOk b.toNat = true) →
        exec (.snapwr f) s = .next (((s.setMe { c with v := { c.v with snap := setSnap c.v.snap e fun y => y.setWord w b } }).cPop f.pk
          (CrQ f true true)).advance .c)) ∧
      (c.inh = false → exec (.snapwr f) s = .next (s.takeTrap .c { cause := .sysState })))) ∧
  (∀ (f : CrF) (s : State), guardOn f.g s.cg = true → s.me.tlbInv = none →
    let all := f.fn.getLsbD 3
    let qs := if all then [] else CrQ f true true
    let scope := (f.fn.extractLsb' 0 3).toNat
    let r := if all then none else some ((s.cSrc f.qa f.ra).toNat, (s.cSrc f.qb f.rb).toNat)
    let s1 := s.cPop f.pk qs
    s.cReady qs [] = .ok () → exec (.tlbinv f) s = .next ((s1.setMe { s1.me with
      tlbInv := some { till := s.now + (if scope = 1 then 20 else if scope = 3 then 150 else 600), range := r, scope := scope } }).noteWait .c .free)) ∧
  (∀ (s : State) (r : TlbInv), s.me.tlbInv = some r → r.till ≤ s.now →
    ∃ t, exec .tlbinvComplete s = .next t ∧ t.me.tlbInv = none ∧ t.mem = s.mem ∧ (t.ctl .c).pc = (s.ctl .c).pc + 48 ∧ (t.ctl .c).wait = none ∧
      (∀ st, ∀ e ∈ (t.ctl st).tlb, e ∈ (s.ctl st).tlb ∧ r.takes s.job.rcd.ctx e.ctx e.va e.size = false) ∧
      (∀ e ∈ t.me.tlb, e ∈ s.me.tlb ∧ r.takes s.job.rcd.ctx e.ctx e.va e.size = false)) ∧
  (∀ (s : State) (w : Walk) (l : List WalkCache) (r : WalkEnd), tget none s.walks s.ev.id = some w → w.stale = false →
    (s.walks.filter fun e => e.1 < s.ev.id && (e.2.map (·.die)) == some w.die).length < 32 →
    ({ s with walks := tset none s.walks s.ev.id none } : State).walk w.die w.ctx w.va = (l, r) →
    ∃ t, exec .walkComplete s = .next t ∧ tget none t.walks s.ev.id = none ∧
      ∀ k st, (k, .stream st) ∈ w.who →
        (∀ e, r = .page e → e ∈ ((t.coreAt k).ctl st).tlb ∧ e ∈ (t.coreAt k).tlb) ∧
        (∀ n, r = .fault n → (s.coreAt k).job.map (·.rcd.ctx) = some w.ctx →
          ((t.coreAt k).ctl st).walkFault = some (BitVec.ofNat 64 w.va, n)))

/-- 15 R333, R334, R336, 06 R137, 04 R75 to R79, 07 R187, 13 R293, R299: taking a trap writes ECAUSE, EINFO and EPC of its stream and sets
its PEND bit, and the job begins to stop; nothing else of the core changes. A trap of the C stream in a handler asks for the kill of the
context; a POISON trap in a phase with ERUN below 2, in a handler too, begins an error abort. A wait that has lasted QSTALL.LIMIT cycles traps by its kind; a
word that no form takes traps ILLEGAL_OP and a fetch fault traps by its cause: in the M stream once every word queued before it has started,
in the A stream once no likely branch is open.
Where the spec leaves a choice, these are the model's: log entries 9, 11 and 25. -/
def Obligations.Traps : Prop :=
  (∀ (s : State) (st : Str) (t : Trap), (t.cause ≠ .poison ∨ s.me.phase = none ∨ 2 ≤ s.me.erun.toNat) → (s.me.inh = false ∨ st ≠ .c) →
    let u := s.takeTrap st t
    SameRest s u ∧ OtherCores s u ∧ (u.ctl st).ecause = BitVec.ofNat 64 (t.cause.code + 256 * t.sub) ∧ (u.ctl st).einfo = t.info ∧
    (u.ctl st).epc = (s.ctl st).pc ∧ (u.ctl st).pc = (s.ctl st).pc ∧ (u.ctl st).tvec = (s.ctl st).tvec ∧
    (u.ctl st).xflags = (s.ctl st).xflags ∧ (∀ o, o ≠ st → u.ctl o = s.ctl o) ∧
    (∀ i, u.me.pend.getLsbD i = (s.me.pend.getLsbD i || i == st.num)) ∧ u.me.stopAt = some (s.me.stopAt.getD s.now) ∧
    { u.me with c := s.me.c, a := s.me.a, v := s.me.v, m := s.me.m, pend := s.me.pend, stopAt := s.me.stopAt } = s.me ∧
    { u.me.c with ctl := s.me.c.ctl } = s.me.c ∧ { u.me.a with ctl := s.me.a.ctl } = s.me.a ∧
    { u.me.v with ctl := s.me.v.ctl } = s.me.v ∧ { u.me.m with ctl := s.me.m.ctl } = s.me.m) ∧
  (∀ (s : State) (t : Trap), s.me.inh = true →
    (t.cause ≠ .poison ∨ s.me.phase = none ∨ 2 ≤ s.me.erun.toNat ∨ s.me.abort ≠ none) →
    let u := s.takeTrap .c t
    u.me.dead = true ∧ (u.ctxAt s.myCtx).killReq = some ((s.ctxAt s.myCtx).killReq.getD t.cause.code)) ∧
  (∀ (s : State) (st : Str) (t : Trap), t.cause = .poison → s.me.phase ≠ none → s.me.erun.toNat < 2 → s.me.abort = none →
    s.takeTrap st t = s.setMe { s.me with
      abort := some { err := true, st := st, trap := some t, g5 := BitVec.allOnes 64 }, stopAt := some (s.me.stopAt.getD s.now) }) ∧
  (∀ (s : State) (st : Str) (w : Waiting), s.me.canIssue st s.now = true → (st = .a → s.me.a.ckpts = []) → s.me.limit ≠ 0 →
    (s.ctl st).wait = some w → w.since + s.me.limit.toNat ≤ s.now →
    let u := if st = .c then s.setMe { s.me with sent := none, reply := none } else s
    (∀ n, w.kind = .queue n → s.ev.st = st →
      exec .queueStall s = .next (u.takeTrap st { cause := .queueStall, info := BitVec.ofNat 64 n })) ∧
    (w.kind = .sync ∨ w.kind = .fabric → s.ev.st = st → exec .syncStall s = .next (u.takeTrap st { cause := .syncStall })) ∧
    (∀ x, w.kind = .syncAt x → s.ev.st = st → exec .syncStall s = .next (u.takeTrap st { cause := .syncStall, info := x })) ∧
    (∀ b, w.kind = .rc b → s.ev.st = st → exec .rcStall s = .next (u.takeTrap st { cause := .rcStall, info := b })) ∧
    (∀ ea, w.kind = .fe ea → s.ev.who = .stream st → exec .feStall s = .next (u.takeTrap st { cause := .feStall, info := ea }))) ∧
  (∀ (s : State), s.me.canIssue s.ev.st s.now = true → (s.ev.st = .a → s.me.onPath = false) → (s.ev.st = .m → s.me.m.queue = []) →
    let pc := (s.ctl s.ev.st).pc.toNat
    (∀ w e, s.wordAt s.ev.st = .ok w → decode s.ev.st w = .error e →
      exec .reservedOpcode s = .next (s.takeTrap s.ev.st { cause := .illegalOp })) ∧
    (∀ t, s.wordAt s.ev.st = .error (.trap t) → exec .wordFetchFault s = .next (s.takeTrap s.ev.st t)) ∧
    (∀ ps sw, s.ev.st ≠ .m → (s.ctl s.ev.st).kept = none → s.pieces s.cur (.stream s.ev.st) .x pc s.ev.st.wordBits = .ok (ps, sw) →
      let v := s.viewedFrom (s.fetchDraw pc) ps
      ((∃ p ∈ ps, (v.roleAt s.myPkg p.1).role ≠ .imm) →
        exec .wordFetchFault s = .next (s.takeTrap s.ev.st { cause := .roleFault, info := BitVec.ofNat 64 pc })) ∧
      ((∀ p ∈ ps, (v.roleAt s.myPkg p.1).role = .imm) → v.psnPieces s.myPkg ps = true →
        exec .wordFetchFault s = .next (s.takeTrap s.ev.st { cause := .poison, info := BitVec.ofNat 64 pc })))) ∧
  (∀ (s : State), s.me.canIssue s.ev.st s.now = true → (s.ev.st = .a ∧ s.me.onPath = true ∨ s.ev.st = .m ∧ s.me.m.queue ≠ []) →
    (∀ w e, s.wordAt s.ev.st = .ok w → decode s.ev.st w = .error e → exec .reservedOpcode s = .next (s.noteWait s.ev.st .free)) ∧
    (∀ t, s.wordAt s.ev.st = .error (.trap t) → exec .wordFetchFault s = .next (s.noteWait s.ev.st .free)))

/-- 15 R334, R335, R337, R352, 06 R142: at the earliest 12 cycles after its streams have stopped the core enters the handler of the lowest
stream that trapped: g30 and g31 are saved and receive its ECAUSE and EPC, and the C stream goes to its vector; each stopped stream's EPC
names the word it had not issued, while one already stopped keeps its EPC; a vector of 0 asks for the kill. `eret` outside a handler traps SYS_STATE; in one it restores g30 and g31
and goes to the next pending handler, or resumes every stopped stream at its EPC. When every open stream waits at the same rendezvous they
all go on; different identifiers trap RDV_MISMATCH at each.
Where the spec leaves a choice, these are the model's: log entries 10, 49 and 57. -/
def Obligations.Handlers : Prop :=
  (∀ (s : State) (st : Str) (n : Nat), s.me.stopAt = some n → n + 12 ≤ s.now → s.me.pend.getLsbD st.num = true →
    (∀ o : Str, s.me.pend.getLsbD o.num = true → st.num ≤ o.num) → s.me.job.isSome = true → s.me.dead = false → s.me.inh = false →
    s.me.saving = false → s.me.abort = none → s.me.inIssue = false →
    let x := s.ctl st
    ∃ u, exec .handlerEntry s = .next u ∧ OtherCores s u ∧ u.mem = s.mem ∧
      (x.tvec ≠ 0 → SameRest s u ∧ u.me.inh = true ∧ u.me.cur = st.num ∧ (u.ctl .c).pc = x.tvec ∧ (u.ctl .c).wait = none ∧
        tget 0 u.me.c.g 30 = x.ecause ∧ tget 0 u.me.c.g 31 = x.epc ∧ u.me.sav30 = tget 0 s.me.c.g 30 ∧ u.me.sav31 = tget 0 s.me.c.g 31 ∧
        (∀ r, r ≠ 30 → r ≠ 31 → tget 0 u.me.c.g r = tget 0 s.me.c.g r) ∧ u.me.a.a = s.me.a.a ∧ u.me.a.g = s.me.a.g ∧ u.me.sem = s.me.sem) ∧
      (x.tvec = 0 → u.me.dead = true ∧ (u.ctxAt s.myCtx).killReq = some ((s.ctxAt s.myCtx).killReq.getD (x.ecause.toNat % 256))) ∧
      ∀ o : Str, (s.ctl o).started = true → (s.ctl o).ended = false → (u.ctl o).stopped = true ∧
        (u.ctl o).epc = if s.me.pend.getLsbD o.num || (s.ctl o).stopped then (s.ctl o).epc else (s.ctl o).pc) ∧
  (∀ (f : CsF) (s : State), guardOn f.g s.cg = true →
    (s.me.inh = false → exec (.eret f) s = .next (s.takeTrap .c { cause := .sysState })) ∧
    (s.me.inh = true → s.me.pend = 0 → s.me.pre = false →
      ∃ u, exec (.eret f) s = .next u ∧ SameRest s u ∧ OtherCores s u ∧ u.me.inh = false ∧ u.me.stopAt = none ∧
        tget 0 u.me.c.g 30 = s.me.sav30 ∧ tget 0 u.me.c.g 31 = s.me.sav31 ∧
        (∀ r, r ≠ 30 → r ≠ 31 → tget 0 u.me.c.g r = tget 0 s.me.c.g r) ∧
        (∀ o, (s.ctl o).stopped = true → (u.ctl o).pc = (s.ctl o).epc ∧ (u.ctl o).stopped = false ∧ (u.ctl o).wait = none) ∧
        ∀ o, (s.ctl o).stopped = false → u.ctl o = s.ctl o) ∧
    (∀ st, s.me.inh = true → s.me.pend.getLsbD st.num = true → (∀ o : Str, s.me.pend.getLsbD o.num = true → st.num ≤ o.num) →
      (s.ctl st).tvec ≠ 0 →
      ∃ u, exec (.eret f) s = .next u ∧ SameRest s u ∧ OtherCores s u ∧ u.me.inh = true ∧ u.me.cur = st.num ∧
        (u.ctl .c).pc = (s.ctl st).tvec ∧ tget 0 u.me.c.g 30 = (s.ctl st).ecause ∧ tget 0 u.me.c.g 31 = (s.ctl st).epc ∧
        u.me.sav30 = s.me.sav30 ∧ u.me.sav31 = s.me.sav31)) ∧
  (∀ (s : State), s.me.running s.now = true → s.me.abort = none → s.me.openStrs ≠ [] → (∀ st ∈ s.me.openStrs, (s.ctl st).rdv.isSome = true) →
    ((∃ i, ∀ st ∈ s.me.openStrs, (s.ctl st).rdv = some i) → (∀ st ∈ s.me.openStrs, (s.ctl st).rdvAt + 2 ≤ s.now) →
      exec .rendezvousResume s = .next (s.me.openStrs.foldl State.passRdv s)) ∧
    (¬(∃ i, ∀ st ∈ s.me.openStrs, (s.ctl st).rdv = some i) →
      exec .rendezvousResume s = .next (s.me.openStrs.foldl (fun t st => t.takeTrap st
        { cause := .rdvMismatch, info := ((s.ctl st).rdv.getD 0).zeroExtend 64 }) s))) ∧
  (∀ (s : State) (st : Str), st = .c ∨ st = .a →
    let t := s.passRdv st
    (t.ctl st).pc = (s.ctl st).pc + BitVec.ofNat 64 st.wordBits ∧ (t.ctl st).rdv = none ∧ (t.ctl st).wait = none ∧
    ∀ o, o ≠ st → t.ctl o = s.ctl o)

/-! The worklist (18). -/

/-- 18 R368, R375, R376, R378, R379: `wlpush` and `wlspawn` take a credit and send a record of the job's context to the headworks, and wait
without a credit. A join takes its turn after the core's earlier pushes: `.dec` counts down and at 0 pushes the slot's record with JZ and
frees the slot; `.arm` takes the lowest free slot for the record that it reads, through a window
by a request; `.add` adds, and one beyond 32 bits traps WL_FAULT 2; a slot that is not armed for the
context traps WL_FAULT 1. `wlfloor` reads the gate floor, the true floor and the freeboard. `wlyield` goes on where a core is free or
nothing waits, else gives up the core or, in a handler, notes it; in a phase it traps WL_FAULT 6.
Where the spec leaves a choice, these are the model's: log entries 63, 64, 66, 67 and 93. -/
def Obligations.WorklistWords : Prop :=
  (∀ (f : CrF) (s : State), guardOn f.g s.cg = true → s.cReady (CrQ f true true) [] = .ok () →
    let d : W64 := s.cg f.rd.toNat
    let r : Rec := { code := s.cSrc f.qa f.ra, frame := s.cSrc f.qb f.rb, pri := if f.rd = 0 then s.job.rcd.pri else d.truncate 32,
                     join := if f.rd = 0 then 0 else d.extractLsb' 32 20, ctx := s.job.rcd.ctx,
                     flags := BitVec.ofNat 12 ((if f.rd = 0 then 0 else d.toNat / 2 ^ 60 * 256) + (f.fn.getLsbD 0).toNat) }
    let s1 := s.setMe { s.me with credits := s.me.credits - 1 }
    let out (spawn : Bool) : Out := .next ((State.cPop { s1 with
      pushes := s.pushes ++ [(s.ids, { rcd := r, die := dieKey s.cur, spawn := spawn, core := some s.cur })], ids := s.ids + 1 }
        f.pk (CrQ f true true)).advance .c)
    (f.rd = 0 ∨ d.extractLsb' 52 8 = 0 →
      (s.me.credits ≠ 0 → exec (.wlpush f) s = out false ∧ exec (.wlspawn f) s = out true) ∧
      (s.me.credits = 0 → exec (.wlpush f) s = .next (s.noteWait .c .sync) ∧ exec (.wlspawn f) s = .next (s.noteWait .c .sync))) ∧
    (f.rd ≠ 0 → d.extractLsb' 52 8 ≠ 0 → exec (.wlpush f) s = .next (s.takeTrap .c { cause := .wlFault, info := 4 }) ∧
      exec (.wlspawn f) s = .next (s.takeTrap .c { cause := .wlFault, info := 4 }))) ∧
  (∀ (f : CrF) (s : State), guardOn f.g s.cg = true → s.me.credits ≠ 0 → (∀ p ∈ s.pushes, p.2.core ≠ some s.cur) →
    let k := joinKey s.myPkg ((s.cSrc f.qa f.ra).toNat % 2 ^ 20)
    let j : JoinSlot := tget {} s.joins k
    let b := s.cSrc f.qb f.rb
    let fin (qs : List Nat) (x : W64) (t : State) : Out := .next (((t.cPop f.pk qs).cDst f.qd f.rd x).advance .c)
    (s.cReady (CrQ f true false) (qName f.qd f.rd) = .ok () →
      (j.armed = true → j.ctx = s.job.rcd.ctx → j.count = 1 → exec (.wljoinDec f) s = fin (CrQ f true false) 0
        { s with
          joins := tset {} s.joins k {}
          pushes := s.pushes ++ [(s.ids, { rcd := { j.rcd with flags := j.rcd.flags ||| 4 }, die := dieKey s.cur, spawn := false, core := none })]
          ids := s.ids + 1 }) ∧
      (j.armed = true → j.ctx = s.job.rcd.ctx → j.count ≠ 1 → exec (.wljoinDec f) s = fin (CrQ f true false) ((j.count - 1).zeroExtend 64)
        { s with joins := tset {} s.joins k { j with count := j.count - 1 } }) ∧
      (j.armed = false ∨ j.ctx ≠ s.job.rcd.ctx → exec (.wljoinDec f) s = .next (s.takeTrap .c { cause := .wlFault, info := 1 }))) ∧
    (s.cReady (CrQ f true true) (qName f.qd f.rd) = .ok () →
      (j.armed = true → j.ctx = s.job.rcd.ctx →
        let n := j.count.toNat + b.toNat % 2 ^ 32
        (n < 2 ^ 32 → exec (.wljoinAdd f) s = fin (CrQ f true true) (BitVec.ofNat 64 n)
          { s with joins := tset {} s.joins k { j with count := BitVec.ofNat 32 n } }) ∧
        (2 ^ 32 ≤ n → exec (.wljoinAdd f) s = .next (s.takeTrap .c { cause := .wlFault, info := 2 }))) ∧
      let ea := (s.cSrc f.qa f.ra).toNat
      let slot (v : Nat) : JoinSlot :=
        { armed := true, ctx := s.job.rcd.ctx, count := b.truncate 32, rcd := { recOf v with ctx := s.job.rcd.ctx, join := 0 } }
      (∀ t sw v, s.me.sent = none → s.target s.cur (.stream .c) .r true ea 256 = .ok (t, sw) → (∀ w p n o rs, t ≠ .peer w p n o rs) →
        s.armRec ea t = .ok v → b ≠ 0 → b.toNat < 2 ^ 32 → recRsv v = false →
        (∀ n, s.freeJoin s.myPkg = some n → exec (.wljoinArm f) s = fin (CrQ f true true) (BitVec.ofNat 64 n)
          { (s.drawn t.local).usePages .c ea 1 with joins := tset {} s.joins (joinKey s.myPkg n) (slot v) }) ∧
        (s.freeJoin s.myPkg = none → exec (.wljoinArm f) s = .next (s.takeTrap .c { cause := .wlFault, info := 3 }))) ∧
      (∀ t sw k, s.me.sent = none → s.target s.cur (.stream .c) .r true ea 256 = .ok (t, sw) → (∀ w p n o rs, t ≠ .peer w p n o rs) →
        s.armRec ea t = .error (.trap k) → exec (.wljoinArm f) s = .next (s.takeTrap .c k)) ∧
      (∀ win pkg n o rs sw, s.me.sent = none → s.target s.cur (.stream .c) .r true ea 256 = .ok (.peer win pkg n o rs, sw) →
        (inPart .scratch o 256 = true ∨ inPart .acc o 256 = true) → ea % 128 = 0 → s.me.canSend win = true →
        s.me.owesWin 0 win pkg (apAddr n o) (apAddr n o + 256) = false →
        let u := s.post s.cur (s.newMsg s.cur .read pkg n [{ at_ := o, w := 256, val := 0 }] (.stream .c) 0 win (BitVec.ofNat 64 ea))
        exec (.wljoinArm f) s = .next ((u.setMe { u.me with sent := some s.ids, reply := none }).noteWait .c .free)) ∧
      (s.me.sent.isSome = true → s.me.reply = none → exec (.wljoinArm f) s = .next (s.noteWait .c .free)) ∧
      ∀ v n, s.me.sent.isSome = true → s.me.reply = some (v, none) → b ≠ 0 → b.toNat < 2 ^ 32 → recRsv v = false → s.freeJoin s.myPkg = some n →
        let s1 := s.setMe { s.me with sent := none, reply := none }
        exec (.wljoinArm f) s = fin (CrQ f true true) (BitVec.ofNat 64 n) { s1 with joins := tset {} s.joins (joinKey s.myPkg n) (slot v) })) ∧
  (∀ (f : CrF) (s : State), guardOn f.g s.cg = true → s.cReady [] (qName f.qd f.rd) = .ok () →
    let d := s.dctxAt (dieKey s.cur) s.job.rcd.ctx
    let fin (x : W64) : Out := .next (((s.cPop f.pk []).cDst f.qd f.rd x).advance .c)
    exec (.wlfloorGate f) s = fin (BitVec.ofNat 64 (d.g.getD 0).toNat) ∧
    exec (.wlfloorFresh f) s = fin (BitVec.ofNat 64 ((s.trueMin s.myPkg s.job.rcd.ctx).getD 0)) ∧
    exec (.wlfloorFb f) s = fin (d.fb.zeroExtend 64)) ∧
  (∀ (f : CsF) (s : State), guardOn f.g s.cg = true →
    (s.me.phase ≠ none → exec (.wlyield f) s = .next (s.takeTrap .c { cause := .wlFault, info := 6 })) ∧
    (s.me.phase = none →
      let s1 := s.advance .c
      let idle := s.anyFree s.myPkg (fun _ => true) = true ∨ ∀ x ∈ s.runningCtxs s.myPkg, s.waitsHead s.myPkg x = false ∧ s.waitsSaved s.myPkg x = false
      (idle → exec (.wlyield f) s = .next s1) ∧
      (¬idle → s.me.inh = true ∨ s.me.pend ≠ 0 → exec (.wlyield f) s = .next (s1.setMe { s1.me with pre := true })) ∧
      (¬idle → s.me.inh = false → s.me.pend = 0 → ∀ i, (s1.ctxAt s1.myCtx).freeSlot = some i →
        ∃ t, exec (.wlyield f) s = .next t ∧ t.me.saving = true ∧ t.me.saveSlot = i ∧ t.me.stopAt = some (s1.me.stopAt.getD s.now) ∧
          (t.ctl .c).pc = (s.ctl .c).pc + 48)))

/-- 18 R366 to R374, R381, R383, R385: what the headworks does. It accepts a push, gives its credit back and queues the record: the first one
sets the floor, one that inherits takes the floor's priority, one below the floor is a straggler and lowers it, at every headworks
of its domain; one that holds no floor takes that of the others. Reductions set the floor
to the least priority that counts, of the package or of the domain. A dispatch grants the head record to the lowest free core of the best
die and moves the pass on. Neighbours take a record of a die, and of a package. A blocked job at the floor is reported once; a context with
nothing left terminates, or goes on with its DONE record. A forwarded record lowers the floor where it lies below it.
Where the spec leaves a choice, these are the model's: log entries 20, 21, 65 and 92. -/
def Obligations.WorklistEvents : Prop :=
  (∀ (s : State) (id : Nat) (p : Push), s.pushes.find? (·.1 == s.ev.id) = some (id, p) →
    let pkg := p.die / 8
    let x := p.rcd.ctx
    let k := ctxKey pkg x
    let c := s.ctxAt k
    (∀ o ∈ s.pushes, o.1 < id → p.core = none ∨ o.2.core ≠ p.core) → s.spilled pkg x + 2 ≤ 2 ^ 24 → c.takes = true → c.running = true →
    ∃ t d r, exec .pushAccept s = .next t ∧ (∀ e ∈ t.pushes, e.1 ≠ id) ∧ (∀ ck, p.core = some ck → (t.coreAt ck).credits = (s.coreAt ck).credits + 1) ∧
      { rcd := r } ∈ (t.dctxAt d x).recs ∧ (p.spawn = true → d = p.die) ∧
      (s.floorNow pkg x = none → r = p.rcd ∧ ∀ q ∈ pkg :: s.floorPkgs pkg x, (t.ctxAt (ctxKey q x)).fh = some p.rcd.pri) ∧
      (∀ fl, s.floorNow pkg x = some fl →
        (p.rcd.inh = true → r = { p.rcd with pri := fl } ∧ (t.ctxAt k).fh = some fl) ∧
        (p.rcd.inh = false → fl.toNat ≤ p.rcd.pri.toNat → r = p.rcd ∧ (t.ctxAt k).fh = some fl) ∧
        (p.rcd.inh = false → p.rcd.pri.toNat < fl.toNat → r = { p.rcd with flags := p.rcd.flags ||| 2 } ∧
          (∀ q ∈ pkg :: s.floorPkgs pkg x, (t.ctxAt (ctxKey q x)).fh = some p.rcd.pri) ∧
          (t.ctxAt k).stragN = if c.stragN = 0xFFFF then c.stragN else c.stragN + 1))) ∧
  (∀ (s : State) (id : Nat) (p : Push), s.pushes.find? (·.1 == s.ev.id) = some (id, p) →
    let pkg := p.die / 8
    ∃ t, exec .pushAccept s = .next t ∧ t.spilled pkg p.rcd.ctx ≤ max (2 ^ 24) (s.spilled pkg p.rcd.ctx)) ∧
  (∀ (s : State) (pkg : Nat) (x : BitVec 4), s.trueMin pkg x = none → s.floorNow pkg x = none) ∧
  (∀ (s : State) (pkg : Nat) (x : BitVec 4) (f : BitVec 32), s.trueMin pkg x ≠ none → (s.ctxAt (ctxKey pkg x)).fh = some f →
    s.floorNow pkg x = some f) ∧
  (∀ (s : State) (pkg : Nat) (x : BitVec 4) (v : Nat), s.trueMin pkg x ≠ none → (s.ctxAt (ctxKey pkg x)).fh = none →
    minOf ((s.floorPkgs pkg x).filterMap fun p => (s.ctxAt (ctxKey p x)).fh.map (·.toNat)) = some v → s.floorNow pkg x = some (BitVec.ofNat 32 v)) ∧
  (∀ (s : State) (m : Msg) (r : Rec), s.msgAt s.ev.id = some m → s.atDoor m = true → m.kind = .forward → m.rcd = some r →
    let k := ctxKey m.dpkg r.ctx
    (s.ctxAt k).takes = true → s.spilled m.dpkg r.ctx + 1 ≤ 2 ^ 24 →
    ∃ t d, exec .homeMessage s = .next t ∧ t.msgAt s.ev.id = none ∧ d ∈ diesOf m.dpkg ∧ { rcd := r } ∈ (t.dctxAt d r.ctx).recs ∧
      (t.ctxAt k).running = true ∧ (t.ctxAt k).stragN = (s.ctxAt k).stragN ∧
      (t.ctxAt k).fh = match s.floorNow m.dpkg r.ctx with
        | some f => if r.pri.toNat < f.toNat then some r.pri else some f
        | none => some r.pri) ∧
  (∀ (s : State), exec .floorReduction s = .next ((s.runningCtxs s.myPkg).foldl (fun t x => t.reduceCtx s.myPkg x) s)) ∧
  (∀ (s : State) (pkg : Nat) (x : BitVec 4),
    let k := ctxKey pkg x
    let t := s.reduceCtx pkg x
    ((s.ctxAt k).dom = false → (∀ p, s.localMin pkg x = some p → (t.ctxAt k).fh = some (BitVec.ofNat 32 p)) ∧
      (s.localMin pkg x = none → (t.ctxAt k).fh = none)) ∧
    ((s.ctxAt k).dom = true → (t.ctxAt k).fh = (s.ctxAt k).fh) ∧
    ∀ d ∈ diesOf pkg, (t.dctxAt d x).g = (t.ctxAt k).fh ∧ (t.dctxAt d x).low = none ∧ (t.dctxAt d x).fb = (t.ctxAt k).fb) ∧
  (∀ (s : State) (v : Nat),
    let x := s.ev.ctx
    let ps := (s.pkgsOf x).filter fun p => (s.ctxAt (ctxKey p x)).dom
    minOf (ps.filterMap fun p => s.localMin p x) = some v →
    ∃ t, exec .domainFloorReduction s = .next t ∧ ∀ p ∈ ps, (t.ctxAt (ctxKey p x)).fh = some (BitVec.ofNat 32 v)) ∧
  (∀ (s : State) (x : BitVec 4) (d n : Nat) (l : List Nat) (q : QRec),
    let pkg := s.myPkg
    let s1 := (if s.ev.up then s.deliverAll pkg else s).markEligible pkg
    let k := ctxKey pkg x
    let c := s1.ctxAt k
    s1.winner pkg = some x → s1.bestDie pkg x = some (d, q) → s1.freeCores c d = n :: l →
    ∃ t, exec .taskDispatch s = .next t ∧ (t.coreAt (coreKey pkg n)).grant = some q ∧
      (t.ctxAt k).pass = c.pass + BitVec.ofNat 64 (2 ^ 20 / c.tickets) ∧ t.dctxAt d x = c.popRec (s1.dctxAt d x)) ∧
  (∀ (s : State) (q : QRec),
    let d := dieKey s.cur
    let n := s.myPkg * 8 + (d % 8 + if s.ev.up then 1 else 7) % 8
    let x := s.ev.ctx
    let c := s.ctxAt (ctxKey s.myPkg x)
    let e := s.dctxAt d x
    c.live = true → c.running = true → s.freeCores c d ≠ [] → (∀ o, c.headRec e = some o → e.admits o = false) →
    c.headRec (s.dctxAt n x) = some q → e.admits q = true →
    exec .neighbourRequest s = .next ((s.setDctx n x (c.popRec (s.dctxAt n x))).placeOn d x q)) ∧
  (∀ (s : State) (a b d : Nat) (q : QRec),
    let pkg := s.myPkg
    let x := s.ev.ctx
    let c := s.ctxAt (ctxKey pkg x)
    let held := ((diesOf pkg).map fun d => let e := s.dctxAt d x; (e.recs.filter fun q => e.admits q && q.area.isNone).length).foldl (· + ·) 0
    s.rackNext pkg true = some a → s.rackNext pkg false = some b →
    (diesOf pkg).find? (fun d => (c.headRec (s.dctxAt d x)).any fun q => q.area.isNone && (s.dctxAt d x).admits q) = some d →
    c.live = true → c.running = true → c.balMode = 1 → c.thresh < held → c.headRec (s.dctxAt d x) = some q →
    ∃ t m, exec .recordForward s = .next t ∧ t.dctxAt d x = c.popRec (s.dctxAt d x) ∧ t.msgAt s.ids = some m ∧ m.kind = .forward ∧
      m.rcd = some q.rcd ∧ (s.freeOf b x < s.freeOf a x → m.dpkg = a) ∧ (s.freeOf a x < s.freeOf b x → m.dpkg = b)) ∧
  (∀ (s : State) (j : Job) (n : Nat),
    let k := ctxKey s.myPkg j.rcd.ctx
    let x := (s.ctxAt k).settle s.now
    s.me.job = some j → s.me.blockedFrom = some n → s.me.running s.now = true → x.invTimeout ≠ 0 → x.fh = some j.rcd.pri →
    n + x.invTimeout.toNat ≤ s.now → j.blocked ≠ some n →
    ∃ t, exec .inversion s = .next t ∧ t.me.job = some { j with blocked := some n } ∧
      (t.ctxAt k).inv = (if x.inv = 0xFFFF then x.inv else x.inv + 1) ∧
      (x.ringN ≠ 0 → s.hostGranted s.myPkg (hostBase + 8 * x.ringAt + 128 * x.ringI) 128 = true → (t.ctxAt k).ringI = (x.ringI + 1) % x.ringN)) ∧
  (∀ (s : State),
    let x := s.ev.ctx
    let k := ctxKey s.myPkg x
    let c := (s.ctxAt k).settle s.now
    c.takes = true → c.running = true → (∀ p ∈ s.floorPkgs s.myPkg x, s.idleCtx p x = true) →
    (regRec c.done = none →
      ∃ t, exec .termination s = .next t ∧ (t.ctxAt k).running = false ∧ (t.ctxAt k).fh = none ∧ ∀ d ∈ diesOf s.myPkg, (t.dctxAt d x).g = none) ∧
    ∀ r, regRec c.done = some r →
      ∃ t d, exec .termination s = .next t ∧ (t.ctxAt k).done = [] ∧ (t.ctxAt k).fh = some r.pri ∧ (t.ctxAt k).running = true ∧
        { rcd := { r with ctx := x, flags := r.flags ||| 8 } } ∈ (t.dctxAt d x).recs)

/-! Tasks, and jobs saved and resumed (06, 13, 15). -/

/-- 06 R139, R140, R143, 13 R279, 15 R345, R352 to R356, 18 R382: a granted record starts its task with the registers that Table 6.6 names,
or is reported where its header is bad; a job whose streams have ended and whose work is done retires; a job that has run its quantum while
another context waits is asked to leave; a stopped job is written to its slot and queued there; a saved record resumes with what its area
holds, or kills its context where the area fails its checks; `ctxsave` and `ctxload` write and load an area in a handler.
Where the spec leaves a choice, these are the model's: log entries 40, 41, 71, 73, 74 and 83. -/
def Obligations.TasksAndSaves : Prop :=
  (∀ (s : State) (q : QRec), s.me.grant = some q → q.area = none → s.me.job = none →
    let r := q.rcd
    (∀ es accx, s.header s.cur r.ctx r.code = some (es, accx) →
      ∃ t j, exec .taskStart s = .next t ∧ t.me.job = some j ∧ j.rcd = r ∧ j.accx = accx ∧ t.me.grant = none ∧ t.me.prev = some r.ctx ∧
        t.cg 1 = r.frame ∧ t.cg 2 = r.code ∧ t.cg 3 = r.pri.zeroExtend 64 ∧
        t.cg 4 = BitVec.ofNat 64 (r.join.toNat + 2 ^ 20 * r.ctx.toNat + 2 ^ 24 * r.flags.toNat) ∧ (∀ n, n = 0 ∨ 5 ≤ n → t.cg n = 0) ∧
        t.me.areg 0 = r.frame ∧ (∀ n, 0 < n → t.me.areg n = 0) ∧ t.me.vg 1 = r.frame ∧ (∀ n, n ≠ 1 → t.me.vg n = 0) ∧
        (∀ st, (t.ctl st).started = decide (es.getD st.num 0 ≠ 0) ∧ (t.ctl st).pc = BitVec.ofNat 64 (es.getD st.num 0) ∧
          (t.ctl st).ended = false ∧ (t.ctl st).wait = none ∧ (t.ctl st).xflags = 0 ∧ (t.ctl st).tvec = (s.ctxAt (ctxKey s.myPkg r.ctx)).dvec) ∧
        (∀ n, (t.me.queue n).ents = [] ∧ (t.me.wqueue n).ents = [] ∧ t.me.semAt n = 0) ∧ t.me.phase = none ∧ t.me.pend = 0 ∧
        t.me.limit = (s.ctxAt (ctxKey s.myPkg r.ctx)).qlimit ∧ (∀ n, t.isFull s.cur n = false) ∧
        (∀ o, o < scratchBits → (t.roleAt s.myPkg (apAddr (numOf s.cur) o)).role = .prv ∧
          (t.roleAt s.myPkg (apAddr (numOf s.cur) o)).frame = r.frame)) ∧
    (s.header s.cur r.ctx r.code = none →
      let s0 := s.headerDrawn s.cur r.ctx r.code
      exec .taskStart s = .next ((s0.setMe { s0.me with grant := none }).report (ctxKey s.myPkg r.ctx) (numOf s.cur) 0 1 r.code.toNat))) ∧
  (∀ (s : State), s.me.finished s.now = true →
    (s.me.a.ctl.due = none → ∃ t, exec .taskRetire s = .next t ∧ t.me.job = none ∧ t.me.phase = none ∧ t.me.prev = s.me.prev ∧
      (s.me.phase = none → t.mem = s.mem)) ∧
    (∀ x, s.me.a.ctl.due = some x → ∃ t, exec .taskRetire s = .next t ∧ t.me.dead = true ∧
      (t.ctxAt s.myCtx).killReq = some ((s.ctxAt s.myCtx).killReq.getD x.cause.code))) ∧
  (∀ (s : State) (y : BitVec 4) (ck : Nat) (j : Job),
    let l := s.rivals s.myPkg s.ev.ctx
    let n := (s.ctxAt (ctxKey s.myPkg y)).quantum
    s.topPass s.myPkg l = some y → longestOf (l.filter fun e => e.2.rcd.ctx == y) = some (ck, j) → s.waitsCore s.myPkg s.ev.ctx = true →
    n ≠ 0 → j.since + n ≤ s.now → (s.coreAt ck).trigLate s.now = false →
    (((s.coreAt ck).inh = true ∨ (s.coreAt ck).pend ≠ 0) →
      exec .preemptRequest s = .next (s.setCoreAt ck { s.coreAt ck with pre := true })) ∧
    (∀ i k, (s.coreAt ck).inh = false → (s.coreAt ck).pend = 0 → (s.coreAt ck).job = some j → k = ctxKey (pkgOf ck) j.rcd.ctx →
      (s.ctxAt k).freeSlot = some i →
      ∃ t, exec .preemptRequest s = .next t ∧ (t.coreAt ck).saving = true ∧ (t.coreAt ck).saveSlot = i ∧
        (t.coreAt ck).stopAt = some ((s.coreAt ck).stopAt.getD s.now) ∧ tget false (t.ctxAt k).saveUsed i = true)) ∧
  (∀ (s : State) (j : Job), s.me.job = some j → s.me.saving = true → s.me.dead = false → s.me.abort = none → s.me.inIssue = false →
    s.me.drained = true →
    let pa := (s.ctxAt s.myCtx).slotPa s.me.saveSlot
    ∃ t, exec .saveAreaWrite s = .next t ∧ t.me.job = none ∧ t.me.saving = false ∧
      { rcd := j.rcd, area := some pa } ∈ (t.dctxAt (dieKey s.cur) j.rcd.ctx).recs ∧
      tget none t.sides (granKey s.myPkg pa) = some (s.me.stopJob s.now)) ∧
  (∀ (s : State) (q : QRec) (pa : Nat), s.me.grant = some q → q.area = some pa → s.me.job = none →
    let r := q.rcd
    let k := ctxKey s.myPkg r.ctx
    let rd : Reader := fun o n => memBits s.mem (bitKey s.myPkg (pa + o)) n
    let poisoned := (List.range ((saSize (rd 384 18) (rd 402 10) + 127) / 128)).any fun i => tget false s.psn (granKey s.myPkg (pa + 128 * i))
    (areaFits rd r = true → poisoned = false →
      ∃ t j, exec .resume s = .next t ∧ t.me.job = some j ∧ j.rcd = r ∧ t.me.grant = none ∧ t.me.saving = false ∧ t.me.inh = false ∧
        (∀ n, 1 ≤ n → n ≤ 31 → t.cg n = BitVec.ofNat 64 (rd (saC + 64 * n) 64)) ∧
        (∀ n, n < 16 → t.me.areg n = BitVec.ofNat 64 (rd (saA + 64 + 64 * n) 64)) ∧
        (∀ n, n < 16 → t.me.semAt n = rd (saCore + 16 * n) 16) ∧ (t.ctl .c).pc = BitVec.ofNat 64 (rd saC 64) ∧
        (t.ctl .c).xflags = BitVec.ofNat 8 (rd (saC + 2048) 64) ∧ t.me.pend = BitVec.ofNat 4 (rd (saC + 2112) 64) ∧
        tget none t.sides (granKey s.myPkg pa) = none ∧ tget false (t.ctxAt k).saveUsed ((s.ctxAt k).slotIx pa) = false) ∧
    (areaFits rd r = false → ∃ t, exec .resume s = .next t ∧ t.me.grant = none ∧
      (t.ctxAt k).killReq = some ((s.ctxAt k).killReq.getD 28)) ∧
    (areaFits rd r = true → poisoned = true → ∃ t, exec .resume s = .next t ∧ t.me.grant = none ∧
      (t.ctxAt k).killReq = some ((s.ctxAt k).killReq.getD 10))) ∧
  (∀ (f : CrF) (s : State), guardOn f.g s.cg = true →
    let a := s.cSrc f.qa f.ra
    let s1 := s.cPop f.pk (CrQ f true false)
    (s.cReady (CrQ f true false) (qName f.qd f.rd) = .ok () →
      (s.me.inh = false → exec (.ctxsave f) s = .next (s.takeTrap .c { cause := .sysState })) ∧
      (∀ pas, s.me.inh = true → areaBase s.cur a.toNat = .ok () → s1.me.drained = true →
        let lanes := if f.fn.getLsbD 1 then s.job.accx else 0
        let spg := if f.fn.getLsbD 0 then (s.ctxAt s.myCtx).savex else 0
        let n := saSize lanes spg
        s1.areaPas a.toNat n .w .wr = .ok pas →
        let zero : Words := (List.range (n / 128)).map fun i => (128 * i, 128, 0)
        let t := (s1.wrArea s.myPkg (s1.areaAt a.toNat .w) zero).wrArea s.myPkg (s1.areaAt a.toNat .w) (s1.areaWords s.cur 2 lanes spg)
        let u := { t with sides := tset none t.sides (granKey s.myPkg (pas.headD 0)) (some s1.me) }
        exec (.ctxsave f) s = .next ((u.cDst f.qd f.rd (BitVec.ofNat 64 n)).advance .c))) ∧
    (s.cReady (CrQ f true false) [] = .ok () →
      (s.me.inh = false → exec (.ctxload f) s = .next (s.takeTrap .c { cause := .sysState })) ∧
      (∀ pas0 pas, s.me.inh = true → areaBase s.cur a.toNat = .ok () → s1.areaPas a.toNat 1024 .r .rd = .ok pas0 → s1.me.drained = true →
        let at_ := s1.areaAt a.toNat .r
        let at1 (o n : Nat) : Pieces := (cuts o n).map fun p => (at_ p.1, p.2)
        let v0 := s1.viewed (at1 0 1024)
        let hd : Reader := fun o n => v0.rdPieces s.myPkg (at1 o n)
        let head : Rec := recOf (hd 64 256)
        let n := saSize (hd 384 18) (hd 402 10)
        let v := s1.viewed (at1 0 n)
        let rd : Reader := fun o n => v.rdPieces s.myPkg (at1 o n)
        v0.psnPieces s.myPkg (at1 0 1024) = false → hd 0 16 = 1 → hd 42 4 = s.job.rcd.ctx.toNat → head.frame = s.job.rcd.frame →
        head.code = s.job.rcd.code → hd 384 18 ≤ laneCount → hd 402 10 ≤ 512 → s1.areaPas a.toNat n .r .rd = .ok pas →
        v.psnPieces s.myPkg (at1 0 n) = false →
        ∃ t, exec (.ctxload f) s = .next t ∧ t.me.inh = true ∧ (t.ctl .c).pc = (s.ctl .c).pc + 48 ∧
          (∀ r, 1 ≤ r → r < 30 → t.cg r = BitVec.ofNat 64 (rd (saC + 64 * r) 64)) ∧
          t.me.sav30 = BitVec.ofNat 64 (rd (saC + 64 * 30) 64) ∧ t.me.sav31 = BitVec.ofNat 64 (rd (saC + 64 * 31) 64) ∧
          t.me.pend = BitVec.ofNat 4 (rd (saC + 2112) 64) ∧
          (∀ r, r < 16 → t.me.areg r = BitVec.ofNat 64 (rd (saA + 64 + 64 * r) 64)) ∧
          (∀ st, (t.ctl st).epc = BitVec.ofNat 64 (rd (saC + 2560 + 64 * st.num) 64)))))

/-! The host, the firmware and the kill of a context (15, 22). -/

/-- 15 R358 to R360, R362, R363, 22 R424 to R432: a host's write of the command mailbox whose DOOR is 1 while BUSY is 0 sets BUSY and waits for
the firmware. A command that is served writes STATUS and its results and clears BUSY: load-image keeps an
accepted image under the next handle; create-context makes a context, and one that exists has status 5; the queries answer a role entry, a
flume block, a granule, a bank or the identity hash; reset-context leaves nothing of its context; read-errors hands over the oldest records;
an OP that is not listed has status 4. An accepted launch pushes the root record; a refused one only writes its CODE. Host writes put their
bytes, host reads copy theirs. A kill that was asked for begins, its granules flip, and when none is left it is complete. Package reset
ends with BUSY 0 and a record of kind 6 for each overlay left out or, where the firmware's signature fails, STATUS 1. The ECC and power events change their registers.
Where the spec leaves a choice, these are the model's: log entries 42, 43, 44, 45, 46, 47, 75, 76, 77, 78, 79, 80, 81, 82, 95 and 97. -/
def Obligations.HostAndKill : Prop :=
  (∀ (s : State), (s.pkgAt s.myPkg).busy = true → (s.pkgAt s.myPkg).doors = [] →
    ∀ i ∈ [Instr.loadImage, .createContext, .queryIdentity, .queryRoleEntry, .queryFlumeBlock,
      .queryGranule, .queryDramBank, .resetContext, .readErrors, .badOp, .launch], exec i s = .next s) ∧
  (∀ (s : State), s.ev.args.a3 = 1 → s.ev.args.a0 = 0 → s.ev.data.length = 64 →
    let p := s.pkgAt s.myPkg
    let v := s.ev.data.foldr (fun b v => b.toNat + 256 * v) 0
    let w (i : Nat) : W64 := BitVec.ofNat 64 (v / 2 ^ (64 * i))
    let args : Args := { a0 := w 0, a1 := w 1, a2 := w 2, a3 := w 3, a4 := w 4, a5 := w 5 }
    let rings := v.testBit 440 = true ∧ p.busy = false
    exec .hostWrite s = .next (s.setPkgAt s.myPkg { p with
      args := args, op := BitVec.ofNat 8 (v / 2 ^ 432), busy := decide (rings ∨ p.busy = true),
      doors := if rings then p.doors ++ [.command] else p.doors })) ∧
  (∀ (s : State) (a : Args),
    let pkg := s.myPkg
    let p := s.pkgAt pkg
    let s0 : State := ({ s with ev := { s.ev with args := a } }).setPkgAt pkg { p with doors := p.doors.tail }
    let x := a.a0.extractLsb' 0 4
    let k := ctxKey pkg x
    let c := s.ctxAt k
    let fin (t : State) (op st : Nat) (r : Args) : Out :=
      .next (t.setPkgAt pkg { t.pkgAt pkg with status := BitVec.ofNat 8 st, op := BitVec.ofNat 8 op, args := r, busy := false })
    let is (op : Nat) : Prop := s.cmdAt op s.ev.args = some (op, a)
    let asks (sel : Nat) : Prop := s.cmdAt 3 { s.ev.args with a0 := BitVec.ofNat 64 sel } = some (3, a) ∧ a.a0.toNat = sel
    let words (v : Nat) : Args :=
      { a with a0 := BitVec.ofNat 64 v, a1 := BitVec.ofNat 64 (v / 2 ^ 64), a2 := BitVec.ofNat 64 (v / 2 ^ 128), a3 := BitVec.ofNat 64 (v / 2 ^ 192) }
    let file := s.hostBytes pkg a.a0.toNat a.a1.toNat
    let windows := s.inWindow pkg a.a0.toNat a.a1.toNat = true ∧ s.inWindow pkg a.a2.toNat a.a3.toNat = true
    let signed : Bool := signedBy (Config.taskKeyHash p.firmware) file (s.hostBytes pkg a.a2.toNat a.a3.toNat)
    let refused : Out := fin (s0.logError pkg (errRec 6 0 0 0 0 0)) 1 1 a
    (is 1 → ¬windows → exec .loadImage s = fin s0 1 6 a) ∧
    (is 1 → windows → (fileOf file).ok = false → exec .loadImage s = if signed then fin s0 1 2 a else refused) ∧
    (is 1 → windows → (fileOf file).ok = true → s0.pagesFor pkg (s0.inUse pkg) (fileOf file).pageVas = none →
      exec .loadImage s = if signed then fin s0 1 3 a else refused) ∧
    (∀ pages, is 1 → windows → (fileOf file).ok = true → s0.pagesFor pkg (s0.inUse pkg) (fileOf file).pageVas = some pages →
      ∃ t, exec .loadImage s = .next t ∧ (signed = false → .next t = refused) ∧
        (signed = true → (t.pkgAt pkg).status = 0 ∧ (t.pkgAt pkg).args.a0 = BitVec.ofNat 64 p.handles ∧
          (t.pkgAt pkg).busy = false ∧ (t.pkgAt pkg).handles = p.handles + 1 ∧
          (t.pkgAt pkg).images = p.images ++ [{ handle := p.handles, secs := (fileOf file).secs.map SecEnt.img, pages := pages,
                                                tasks := (fileOf file).tasks, launch := (fileOf file).launch }])) ∧
    (is 2 → createOk a = true → c.live = true → exec .createContext s = fin s0 2 5 a) ∧
    (is 2 → createOk a = false → exec .createContext s = fin s0 2 4 a) ∧
    (∀ im root s1 s3 t,
      let b : Allot := { v := memBits s.mem (bitKey pkg (hostBase + 8 * a.a5.toNat)) 1024 }
      is 2 → createOk a = true → c.live = false →
      p.images.find? (fun i => i.handle == (a.a0.extractLsb' 32 32).toNat && !i.pages.isEmpty) = some im →
      s.inWindow pkg a.a1.toNat (16 * a.a2.toNat) = true → s.inWindow pkg a.a5.toNat 128 = true → b.ok im = true → s.weirsTaken k b = false →
      s0.sysFree pkg im.grans = true → (s0.setCtxAt k (newCtx a b)).newTable k = some (root, s1) →
      (s1.setCtxAt k { s1.ctxAt k with root := root }).mapPages k root im.pages = some s3 → s3.newPool k b.slots = some t →
      ∃ u, exec .createContext s = .next u ∧ (u.pkgAt pkg).status = 0 ∧ (u.ctxAt k).live = true ∧ (u.ctxAt k).image = im.handle ∧
        (u.ctxAt k).root = root ∧ (u.ctxAt k).mask = BitVec.ofNat 768 b.v ∧ (u.ctxAt k).saveSlots = b.slots ∧
        ∀ d ∈ diesOf pkg, (u.dctxAt d x).fb = a.a3.extractLsb' 0 32) ∧
    (asks 0 → exec .queryIdentity s =
      fin s0 3 0 (words ((sha256 (Config.publicPart p.key)).foldr (fun b v => b.toNat + 256 * v) 0))) ∧
    (∀ pa, pa = a.a1.toNat → place pa ≠ .none →
      (asks 1 → exec .queryRoleEntry s = fin s0 3 0 (words (s.roleAt pkg pa).toNat)) ∧
      (asks 2 → exec .queryFlumeBlock s = fin s0 3 0 (words (tget {} s.flumes (granKey pkg pa) : Flume).toNat)) ∧
      (asks 3 → exec .queryGranule s = fin s0 3 0 (words (s.rdGran pkg (pa / 128 * 128) 128)))) ∧
    (asks 4 → a.a1.toNat < 4096 → exec .queryDramBank s = fin s0 3 0 (words (s.bankAt pkg a.a1.toNat).toNat)) ∧
    (is 4 → a.a0.toNat < 16 → c.live = false → exec .resetContext s = fin s0 4 5 a) ∧
    (is 4 → a.a0.toNat < 16 → c.live = true →
      let s1 := if c.running || c.killing.isSome || c.killReq.isSome then s0.killNow pkg x else s0
      (s1.sysFree pkg (s1.toFree pkg x) = false → exec .resetContext s = .next s) ∧
      (s1.sysFree pkg (s1.toFree pkg x) = true → ∃ t, exec .resetContext s = .next t ∧ (t.pkgAt pkg).status = 0 ∧ t.ctxAt k = {} ∧
        ∀ d ∈ diesOf pkg, t.dctxAt d x = {})) ∧
    (let n := min a.a1.toNat p.log.length
     is 5 → s.inWindow pkg a.a0.toNat (16 * n) = true → ∃ t, exec .readErrors s = .next t ∧ (t.pkgAt pkg).status = 0 ∧
      (t.pkgAt pkg).args.a0 = BitVec.ofNat 64 n ∧ (t.pkgAt pkg).log = p.log.drop n ∧
      ∀ i (h : i < n), memBits t.mem (bitKey pkg (hostBase + 8 * a.a0.toNat + 128 * i)) 128 = (p.log[i]?.getD 0).toNat) ∧
    (∀ op, s.cmdAt s.ev.id s.ev.args = some (op, a) → (op = 0 ∨ 5 < op ∨ op = 3 ∧ 4 < a.a0.toNat) → op < 256 →
      exec .badOp s = fin s0 op 4 a)) ∧
  (∀ (s : State) (bx : LaunchBox), s.launchAt = some bx →
    let pkg := s.myPkg
    let p := s.pkgAt pkg
    let done (n : Nat) : State := s.setPkgAt pkg { p with lcode := BitVec.ofNat 8 n, lbox := bx, lbusy := false, doors := p.doors.tail }
    (∀ n, s.launchCode pkg bx = (n, none) → exec .launch s = .next (done n)) ∧
    (∀ im root args, s.launchCode pkg bx = (0, some (im, root, args)) →
      let free := s.sysFree pkg (((im.secs.filter (·.role == .prv)).map fun y => y.pas im.pages).flatten)
      (free = false → exec .launch s = .next s) ∧
      (free = true → ∃ t, exec .launch s = .next t ∧ (t.pkgAt pkg).lcode = 0 ∧ (t.pkgAt pkg).lbusy = false ∧
        (t.ctxAt (ctxKey pkg bx.ctx)).running = true ∧ t.ids = s.ids + 1 ∧
        t.pushes = s.pushes ++ [(s.ids, { rcd := { code := root, frame := args, pri := bx.pri, ctx := bx.ctx }, die := pkg * 8, spawn := false,
                                          core := none })]))) ∧
  (∀ (s : State),
    let pkg := s.myPkg
    let a := s.ev.args
    let pa := a.a0.toNat
    let m := 8 * s.ev.data.length
    (a.a3 ≠ 1 → pa % 8 = 0 → hostReach pa m = true → s.hostFree pkg pa m = true →
      exec .hostWrite s = .next (s.wrPieces pkg (cuts pa m) (s.ev.data.foldr (fun b v => b.toNat + 256 * v) 0) false)) ∧
    (a.a3 ≠ 1 → s.hostFree pkg pa m = false → exec .hostWrite s = .next s) ∧
    (let n := 8 * a.a1.toNat
     let h := hostBase + 8 * a.a2.toNat
     a.a3 ≠ 1 → hostReach pa n = true → hostReach h n = true → s.hostFree pkg pa n = true → pa + n ≤ hostBase →
      pa % 128 = 0 → h % 128 = 0 → n % 128 = 0 →
      ∃ t, exec .hostRead s = .next t ∧ ∀ i, i < n / 128 →
        memBits t.mem (bitKey pkg (h + 128 * i)) 128 = s.rdGran pkg (pa + 128 * i) 128 ∧
        tget false t.psn (granKey pkg (h + 128 * i)) =
          (s.isPsn pkg (pa + 128 * i) 128 || (!leavesDevice (pa + 128 * i) && (s.crcBad pkg (pa + 128 * i)).isSome)))) ∧
  (∀ (s : State),
    let pkg := s.myPkg
    let x := s.ev.ctx
    let k := ctxKey pkg x
    (∀ n, (s.ctxAt k).killing = none → (s.ctxAt k).killReq = some n →
      ∃ t, exec .contextKill s = .next t ∧ (t.ctxAt k).killing = some n ∧ (t.ctxAt k).killReq = none ∧ (t.ctxAt k).running = false ∧
        (∀ ck, pkgOf ck = pkg → (t.coreAt ck).holds x = false) ∧ (∀ d ∈ diesOf pkg, (t.dctxAt d x).recs = []) ∧ (∀ j ∈ t.joins, j.1 / 2 ^ 20 = pkg → j.2.ctx ≠ x) ∧
        ∀ p ∈ t.pushes, p.2.die / 8 = pkg → p.2.rcd.ctx ≠ x) ∧
    (∀ n, (s.ctxAt k).killing = some n →
      (let e := s.roleAt pkg s.ev.id
       e.ctx = x → e.sys = false → e.role ≠ .imm → s.foreign pkg x s.ev.id = false →
        exec .contextKill s = .next (({ s with replicas := tset [] s.replicas (roleKey pkg s.ev.id) [] } : State).setRoleAt pkg s.ev.id { ctx := e.ctx, sys := true, qr := true, role := .prv })) ∧
      (s.unflipped pkg x = [] → ∃ t, exec .killed s = .next t ∧ (t.ctxAt k).killing = none ∧ (t.ctxAt k).killed = true) ∧
      (s.unflipped pkg x ≠ [] → exec .killed s = .next s))) ∧
  (∀ (s : State),
    let pkg := s.myPkg
    let b := s.bankAt pkg s.ev.id
    (∃ t, exec .packageReset s = .next t ∧ (t.pkgAt pkg).images = [] ∧ (∀ n, n < 768 → t.coreAt (coreKey pkg n) = {}) ∧
      (∀ c, c < 16 → t.ctxAt (pkg * 16 + c) = {}) ∧ (∀ c ∈ t.msgs, ∀ m, c.2 = some m → m.dpkg ≠ pkg ∧ m.spkg ≠ pkg) ∧
      (loadFirmware s.ev.data s.ev.args.a2.toNat = none → (t.pkgAt pkg).busy = true ∧ (t.pkgAt pkg).status = 1) ∧
      ∀ fw bad, loadFirmware s.ev.data s.ev.args.a2.toNat = some (fw, bad) → (t.pkgAt pkg).busy = false ∧ (t.pkgAt pkg).status = 0 ∧
        (t.pkgAt pkg).up = true ∧ (t.pkgAt pkg).log = List.replicate (min bad 4096) (errRec 6 0 0 0 0 0) ∧ (t.pkgAt pkg).firmware = fw ∧ (fw = [] → (t.pkgAt pkg).pwrLim = 2000) ∧
        (fw ≠ [] → (t.pkgAt pkg).pwrLim = BitVec.ofNat 16 (Config.firmwareField fw 0x300)) ∧
        ∀ n, n < 4096 → t.bankAt pkg n = { thr := BitVec.ofNat 16 (Config.firmwareField fw 0x400) }) ∧
    (s.ev.id < 4096 → s.ev.up = true → exec .eccInterval s = .next (s.setBank pkg s.ev.id { b with cnt := 0 })) ∧
    (s.ev.id < 4096 → s.ev.up = false → s.ev.args.a0 = 0 → b.cnt.toNat + s.ev.el < 65536 →
      let n := b.cnt.toNat + s.ev.el
      exec .eccInterval s = .next (s.setBank pkg s.ev.id { b with
        cnt := BitVec.ofNat 16 n, due := b.due || (decide (b.thr.toNat < n) && !b.strong) })) ∧
    (∀ d o, s.ev.id < 4096 → s.ev.up = false → s.ev.args.a0 = 1 → s.ev.el = 0 → place s.ev.args.a1.toNat = .dram d o →
      bankOf s.ev.args.a1.toNat = s.ev.id → b.ue.toNat < 65535 → (b.thr.toNat < b.cnt.toNat → b.due = true ∨ b.strong = true) →
      exec .eccInterval s = .next (((s.setBank pkg s.ev.id { b with ue := b.ue + 1 }).setPsn pkg s.ev.args.a1.toNat true).logError pkg
        (errRec 2 (s.ev.id / 512) 0 0 s.ev.id s.ev.args.a1.toNat))) ∧
    (s.ev.id < 4096 → b.strong = false → b.busy = false → b.due = true → s.topPages pkg s.ev.id = [] →
      exec .bankReencode s = .next (s.setBank pkg s.ev.id { b with busy := true, due := false })) ∧
    (s.ev.id < 4096 → b.busy = true → exec .reencodeComplete s =
      .next ((s.setBank pkg s.ev.id { b with busy := false, strong := true }).logError pkg (errRec 1 (s.ev.id / 512) 0 0 s.ev.id 0))) ∧
    (let p := s.pkgAt pkg
     let est (n : Nat) : Nat := Config.powerEstimate s.fresh (((s.issueCounts pkg).zipIdx).map fun e => e.1 - p.pwrSeen.getD e.2 0) n
     ∃ t n, exec .powerEstimate s = .next t ∧ t.fresh = s.fresh + 1 ∧ (t.pkgAt pkg).pwrThr = BitVec.ofNat 5 n ∧ 1 ≤ n ∧ n ≤ 16 ∧
      (est n ≤ p.pwrLim.toNat ∨ n = 1) ∧ (∀ m, n < m → m ≤ 16 → p.pwrLim.toNat < est m) ∧ (t.pkgAt pkg).pwrAvg = BitVec.ofNat 16 (est 0) ∧
      (t.pkgAt pkg).pwrCnt = if p.pwrThr.toNat < 16 then p.pwrCnt + 3000 else p.pwrCnt))

/-! The whole machine: turns, decoding, memory, frames. -/

/-- 04 R74, R75, R77, R78, 15 R332, 06 R137, 08 R195: the turn of a stream of a running job that nothing stands in the way of executes the
instruction that its word decodes to, one that waits being the word as it was fetched, the word's pages used; around that a step only takes the turn from the agenda and lets its cycles
pass. A word that no rule makes an instruction raises `reservedOpcode` with the name of the broken rule, a word that cannot be fetched its
fetch fault; a fault that is due is taken first, unless the word has issued or lies on a run-ahead path; then a stall, where the word still waits as of the last cycle in which it could issue. What
is due in a V slot lands before its word, unless the word freezes the stream. An event turn is `exec` of its event, a landing and a stall
as in the stream's turn, a copy turn an element of its copy; with an empty agenda the free schedule gives the turn. While a job aborts a
phase, only words that have issued go on, and the stream that led to the abort carries it out.
Where the spec leaves a choice, these are the model's: log entries 4, 9 and 21. -/
def Obligations.StepRunsDecoded : Prop :=
  (∀ (s : State) (dt ck : Nat) (st : Str) (rest : List Turn), s.agenda = { dt := dt, act := .stream ck st } :: rest →
    let u : State := { s with agenda := rest, now := s.now + dt, cur := ck }
    (u.me.canIssue st u.now = false → u.me.abort = none → step s = .next u) ∧
    (∀ ab, u.me.abort = some ab → (u.me.canIssue st u.now = false ∨ u.me.issued st = false) →
      step s = .next (if st = ab.st then u.abortStep ab else u)) ∧
    (u.me.canIssue st u.now = true → (u.me.abort = none ∨ u.me.issued st = true) →
      (∀ t, (u.ctl st).due = some t → u.me.mayTrap st = true → step s = .next (u.takeDue st t)) ∧
      ((u.ctl st).due = none ∨ u.me.mayTrap st = false →
        (∀ i v, stallOf u.me st u.now ≠ none → u.stallNow st = some (i, v) → step s = exec i v) ∧
        ((stallOf u.me st u.now = none ∨ u.stallNow st = none) →
          (st = .v → u.me.landingDue = true → step s = landOrFreeze u) ∧
          ((st = .v → u.me.landingDue = false) →
            (∀ t, u.wordAt st = .error (.trap t) →
              let x := if t.cause = .poison then u.dropped (u.fetchPieces st) else u
              step s = exec .wordFetchFault { x.setWord st none with ev := { st := st, ff := fetchFaultOf t } }) ∧
            (∀ va, u.wordAt st = .error (.walk va) → step s = .next (((u.setWord st none).askWalk ck (.stream st) va).noteWait st .free)) ∧
            (∀ w e, u.wordAt st = .ok w → decode st w = .error e →
              step s = exec .reservedOpcode { u.useFetch st w with ev := { st := st, why := e } }) ∧
            (∀ w i, u.wordAt st = .ok w → decode st w = .ok i → step s = exec i (u.useFetch st w))))))) ∧
  (∀ (u : State), u.me.canIssue .v u.now = true →
    ((∃ r ∈ u.me.v.fly, r.due < u.me.v.slot) → landOrFreeze u = exec .resultLanding u) ∧
    ((∀ r ∈ u.me.v.fly, u.me.v.slot ≤ r.due) →
      (∀ n w, u.polled .v = some w → w.freezes = true → u.wordAt .v = .ok n →
        let x := u.useFetch .v n
        landOrFreeze u = .next (x.setCtl .v { x.ctl .v with wait := some w })) ∧
      ((∀ w, u.polled .v = some w → w.freezes = false) → landOrFreeze u = exec .resultLanding u))) ∧
  (∀ (s : State) (dt ck : Nat) (i : Instr) (ev : EvArg) (rest : List Turn), s.agenda = { dt := dt, act := .event i ck ev } :: rest →
    let u : State := { s with agenda := rest, now := s.now + dt, cur := ck, ev := ev }
    (isEvent i = true → i ≠ .resultLanding → (isStall i = false ∨ ∀ st, ev.who ≠ .stream st) → step s = exec i u) ∧
    (i = .resultLanding → step s = landOrFreeze u) ∧
    (∀ st, isStall i = true → ev.who = .stream st → (u.me.canIssue st u.now = false ∨ u.stallNow st = none) → step s = .next u) ∧
    (∀ st v, isStall i = true → ev.who = .stream st → u.me.canIssue st u.now = true → u.stallNow st = some (i, v) → step s = exec i v) ∧
    (isEvent i = false → step s = .next { s with agenda := rest, now := s.now + dt })) ∧
  (∀ (s : State) (dt ck id e : Nat) (rest : List Turn), s.agenda = { dt := dt, act := .copyMove ck id e } :: rest →
    step s = .next (copyTurn id e { s with agenda := rest, now := s.now + dt, cur := ck })) ∧
  (∀ s : State, s.agenda = [] → step s = step { s with agenda := [Config.schedule s.fresh], fresh := s.fresh + 1 })

/-- No word and no event ends the run: every step and every instruction answers a next state in every state.
Where the spec leaves a choice, these are the model's: log entry 21. -/
def Obligations.StepNeverStops : Prop := (∀ s, Goes s) ∧ ∀ (i : Instr) (s : State), ∃ t, exec i s = .next t

/-- Words that the spec writes out (04 Tables 4.18, 4.19 and the examples of 06 to 20) decode to the instructions it writes beside them,
and the words of Table 4.19 are refused by the rule that each breaks. -/
def Obligations.DecodeWords : Prop :=
  let g0 : Guard := { gd := 0, gb := 0, gs := 1 }
  let h0 : MHead := { fst := 0, lst := 0, lvl := 0, wid := 0, wcnt := 0, sid := 0, scnt := 0, lgen := 0, fw := 0, fpb := 0, fpx := 0,
                      dd := 0, da := 0 }
  decode .c 0xE00020000000 = .ok (.nop { g := g0, sub := 0, sys := 0 }) ∧
  decode .c 0x400023000005 = .ok (.addi { g := g0, rd := 3, ra := 0, imm := 5 }) ∧
  decode .c 0x403024000001 = .ok (.addi { g := { gd := 3, gb := 0, gs := 1 }, rd := 4, ra := 0, imm := 1 }) ∧
  decode .c 0x160025002800 = .ok (.or { g := g0, rd := 5, ra := 0, rb := 0, pk := 1, qd := 0, qa := 1, qb := 0, fn := 0 }) ∧
  decode .c 0x88002AFFFFFE = .ok (.bdec { g := g0, ra := 10, off := 0xFFFFFE }) ∧
  decode .a 0x0200000000000000 = .ok (.aaddi { pk := 0, aq := 0, gen := 0, ad := 0, aa := 0, rsv := 0, imm := 0 }) ∧
  decode .a 0x2800020C00000001 = .ok (.aswz { pk := 0, aq := 0, gen := 0, ad := 4, aa := 3, ab := 0, ac := 0, w := 1 }) ∧
  (let f : VF := { g := g0, tag := 15, vd := 3, va := 1, vb := 2, vc := 0, k := 0, rm := 2, sat := 0, pk := 0, qd := 0, qa := 0, qb := 0,
                   qx := 0 }
   decode .v 0x00800BC611002000 = .ok (.vadd f)) ∧
  decode .v 0x3280080600007FFE = .ok (.gbdec { g := g0, tag := 0, vd := 3, va := 0, vb := 0, vc := 0, k := 0, q := 0x7FFE }) ∧
  decode .m 0x38000000000000000000000000000000 = .ok (.msem { h := h0, db := 0, mq := 0, mimm := 0 }) ∧
  decode .m 0x34000000000000000000000200000004 = .ok (.mloop { h := h0, db := 0, mq := 2, mimm := 4 }) ∧
  decode .c 0x160025002000 = .error .reservedValue ∧ decode .c 0x400003000005 = .error .badGuard ∧
  decode .v 0x00C40BC611002000 = .error .badGuard ∧ decode .c 0x340000000000 = .error .reservedOpcode

/-- Decode and encode agree, on every form and operand: the word of a well-formed instruction decodes to it. -/
def Obligations.DecodeEncode : Prop :=
  ∀ (i : Instr) (st : Str) (w : Nat), i.WellFormed → encode i = some (st, w) → w < 2 ^ st.wordBits ∧ decode st w = .ok i

/-- The other direction: a word that decodes is the word of its instruction, which is well formed, so no two words of a stream decode
to one instruction and no bit of a word is dropped; a word that decodes is never an event. -/
def Obligations.EncodeDecode : Prop :=
  ∀ (i : Instr) (st : Str) (w : Nat), w < 2 ^ st.wordBits → decode st w = .ok i →
    encode i = some (st, w) ∧ i.WellFormed ∧ isEvent i = false

/-- Two invariants of every step. Memory keeps its canonical form. The floors of every context keep their order (01 R25, 18 R371): no die
gates with more than F_h, once a lowered floor on its way has reached it, and F_h is not above any priority that counts in the floor: of a
record queued in the package, saved jobs among them, of one granted to a core, or of a running job. -/
def Obligations.StepKeepsMemory : Prop := ∀ s t, step s = .next t → (Safe s → Safe t) ∧ (FloorInv s → FloorInv t)

/-- 22 R424 step 1, 07 R186, R190, 13 R279: after reset memory is in canonical form and the floors are in their order; every scratchpad and accumulator bit reads 0, every
full/empty bit is empty, no granule and no lane is poisoned; no core has a job or a previous context; BUSY is 1 in every package, no
context is live, every weir counts 0 and no message is under way. That memory outside the chip reads 0 as well and that the registers
for which the spec states no reset value are 0 are the model's choices (log entries 1 and 2).
Where the spec leaves a choice, these are the model's: log entries 1, 2 and 23. -/
def Obligations.ResetLeaves : Prop :=
  let s := State.reset
  Safe s ∧ FloorInv s ∧ (∀ b n, memBits s.mem b n = 0) ∧ (∀ ck o, s.isFull ck o = false) ∧ (∀ pkg pa n, s.isPsn pkg pa n = false) ∧
  (∀ ck, let c := s.coreAt ck
    c.job = none ∧ c.prev = none ∧ c.inh = false ∧ c.pend = 0 ∧ c.phase = none ∧ c.a.radepth = 2 ∧ c.credits = 8 ∧
    (∀ r, c.cg r = 0 ∧ c.areg r = 0 ∧ c.vg r = 0) ∧ (∀ n, (c.queue n).ents = [] ∧ (c.wqueue n).ents = []) ∧
    (∀ i, c.semAt i = 0) ∧ (∀ st, c.canIssue st s.now = false)) ∧
  (∀ p, (s.pkgAt p).busy = true ∧ (s.pkgAt p).up = false ∧ (s.pkgAt p).status = 0 ∧ (s.pkgAt p).log = []) ∧ (∀ k, (s.ctxAt k).live = false) ∧
  (∀ k, (tget {} s.weirs k : Weir).n = 0 ∧ (tget {} s.weirs k : Weir).arr = 0 ∧ (tget {} s.weirs k : Weir).gen = 0) ∧
  ∀ id, s.msgAt id = none

/-- 06 R153, 07 R163, R176, R177, 08 R220, R221, 13 R296: what a store and a load leave alone. A store of the C, A or V stream to its own aperture
writes exactly the bits of its physical pieces, as its meaning computes them (in a marked region of a phase: their places in the shadow
area, a granule's first write filling its whole place there), a masked `vst` those of its active elements, an add exactly its lanes; every
other bit of memory, of every package, reads as before, and a store to the own register window changes none. Other cores
are untouched; in its own core only its stream's counter, wait, flags and translations, the full/empty bits, lane marks, the phase map and,
where it pops, its source queues change, and the register that the window names. A store that leaves the core changes no bit of memory: only
messages, and of the core what it is owed, the window and the queues it names. A load and a full/empty word leave every bit as it was,
whatever comes of it. That a `vst` is performed at its issue, and a store of the A stream to its own aperture in its issue act, is the model's
choice: log entries 6 and 7. -/
def Obligations.StoreFrames : Prop :=
  (∀ (f : CiF) (s : State) (o : Nat) (ps : Pieces), guardOn f.g s.cg = true →
    s.scratch (.stream .c) .w .wr (s.cEa f) (widthOf f.wc) (widthOf f.wc) = .ok (o, ps) →
    ∃ t, exec (.st f) s = .next t ∧ SameBitsBut (storeSpans s s.myPkg ps) s.myPkg s t ∧ SameButHome s t ∧ OtherCores s t ∧
      FrameStore .c [] [] s.me t.me ∧ (t.ctl .c).xflags = (s.ctl .c).xflags) ∧
  (∀ (f : AiF) (s : State) (o : Nat) (ps : Pieces) (sw : Bool),
    let w := widthOf f.wc
    let ea := s.aEa f
    let qs := aSrcQ f.ad.toNat
    s.me.a.ckpts = [] → s.aReady qs [] = .ok () →
    (f.add = false → s.target s.cur (.stream .a) .w true ea w = .ok (.own o ps, sw) → elemPlace (.own o ps) sw ea w = .ok () →
      s.rolePieces s.cur s.job s.myPkg ps .wr = true → s.me.footHits ps true = false →
      ∃ t, exec (.sta f) s = .next t ∧ SameBitsBut (storeSpans s s.myPkg ps) s.myPkg s t ∧ SameButHome s t ∧ OtherCores s t ∧
        FrameStore .a qs [] s.me t.me ∧ (t.ctl .a).xflags = (s.ctl .a).xflags) ∧
    (f.add = true → s.target s.cur (.stream .a) .add true ea 40 = .ok (.own o ps, sw) → s.addTests (.own o ps) 1 ea = .ok () →
      s.me.footHit o (o + s.laneStep s.cur o) true = false →
      ∃ t, exec (.sta f) s = .next t ∧ SameBitsBut [(apAddr (numOf s.cur) o, s.laneStep s.cur o)] s.myPkg s t ∧
        { t with cores := s.cores, mem := s.mem } = s ∧ OtherCores s t ∧ FrameStore .a qs [] s.me t.me ∧ t.me.lanePsn = s.me.lanePsn)) ∧
  (∀ (f : AiF) (s : State) (o : Nat) (ps : Pieces) (sw : Bool) (e : WEntry),
    let ea := s.aEa f
    let q := f.ad.toNat - 25
    let n := (elemsOf e.val).length
    s.me.a.ckpts = [] → s.me.a.half = none → s.me.wqHead q s.now = some e →
    (f.add = false → s.target s.cur (.stream .a) .w true ea 2048 = .ok (.own o ps, sw) → widePlace (.own o ps) true ea = .ok () →
      s.me.footHits ps true = false →
      (inPart .regs o 2048 = false → s.rolePieces s.cur s.job s.myPkg ps .wr = true →
        ∃ t, exec (.stv f) s = .next t ∧ SameBitsBut (storeSpans s s.myPkg ps) s.myPkg s t ∧ SameButHome s t ∧ OtherCores s t ∧
          FrameStore .a [] [q] s.me t.me ∧ (t.ctl .a).xflags = (s.ctl .a).xflags) ∧
      (inPart .regs o 2048 = true → ∃ t, exec (.stv f) s = .next t ∧ SameRest s t ∧ OtherCores s t ∧
        FrameStore .a [] [q] s.me { t.me with v := s.me.v } ∧ { t.me.v with v := s.me.v.v } = s.me.v ∧
        ∀ r, r ≠ (o - regBase) / 2048 → (tget {} t.me.v.v r : VVal) = tget {} s.me.v.v r)) ∧
    (f.add = true → e.val.tag ≠ 0 → e.val.psn = false → s.target s.cur (.stream .a) .add true ea 40 = .ok (.own o ps, sw) →
      s.lanesInWindow ea n = .ok () → s.addTests (.own o ps) n ea = .ok () → s.me.footHit o (o + s.laneStep s.cur o * n) true = false →
      ∃ t, exec (.stv f) s = .next t ∧ SameBitsBut [(apAddr (numOf s.cur) o, s.laneStep s.cur o * n)] s.myPkg s t ∧
        { t with cores := s.cores, mem := s.mem } = s ∧ OtherCores s t ∧ FrameStore .a [] [q] s.me t.me ∧ t.me.lanePsn = s.me.lanePsn)) ∧
  (∀ (f : AiF) (s t : State) (x : Target) (sw : Bool), (∀ o ps, x ≠ .own o ps) →
    (s.target s.cur (.stream .a) (if f.add then .add else .w) true (s.aEa f) (if f.add then 40 else widthOf f.wc) = .ok (x, sw) →
      exec (.sta f) s = .next t → SameMem s t ∧ { t with cores := s.cores, msgs := s.msgs, ids := s.ids } = s ∧ OtherCores s t ∧
        FrameSend (aSrcQ f.ad.toNat) [] s.me t.me) ∧
    (s.target s.cur (.stream .a) (if f.add then .add else .w) true (s.aEa f) (if f.add then 40 else 2048) = .ok (x, sw) →
      exec (.stv f) s = .next t → SameMem s t ∧ { t with cores := s.cores, msgs := s.msgs, ids := s.ids } = s ∧ OtherCores s t ∧
        FrameSend [] [f.ad.toNat - 25] s.me t.me)) ∧
  (∀ (f : VF) (s : State) (pss : List Pieces),
    let ea := s.vEa f
    let w := VF.w f
    let us : VUse := { vs := [((0, f.vd), VF.chk f)], gs := [VF.a f], ks := VF.kNames f, carry := true }
    let elems := (List.range (VF.n f)).filter fun i => (s.acts f.k (VF.n f)).getD i false
    let gs := (List.range 16).filter fun g => f.k == 0 || elems.any fun i => w * i < 128 * (g + 1) && 128 * g < w * (i + 1)
    let paOf (b : Nat) : Nat := (((gs.zip pss).find? fun e => e.1 == b / 128).bind fun e => e.2.head?.map fun q => q.1 + b % 128).getD 0
    let ps : Pieces := if f.k = 0 then pss.foldl (· ++ ·) [] else elems.flatMap fun i => (cuts (w * i) w).map fun c => (paOf c.1, c.2)
    VReady f.g us s → allPass (gs.map fun g => s.granAccess .w .wr ((ea + 128 * g) % 2 ^ 64)) = .ok pss →
    ∃ t, exec (.vst f) s = .next t ∧ SameBitsBut (storeSpans s s.myPkg ps) s.myPkg s t ∧ SameButHome s t ∧
      OtherCores s t ∧ FrameStore .v (vQueues us.gs) [] s.me t.me ∧ (t.ctl .v).xflags = (s.ctl .v).xflags) ∧
  (∀ (f : CiF) (s t : State), exec (.ld f) s = .next t → SameMem s t) ∧
  (∀ (f : AiF) (s t : State), ∀ op ∈ [Instr.lda, .ldv, .fewait, .feset, .feclr, .pf], exec (op f) s = .next t → SameMem s t) ∧
  (∀ (f : VF) (s t : State), ∀ op ∈ [Instr.vld, .vldt], exec (op f) s = .next t → SameMem s t)

/-- 07 R158, R170, 08 R193, R194: the frames of the register words of the A and the V stream, whatever comes of the word (a result, a
wait, a trap). An A word changes its destination register, the queues it names, its stream's control registers and, at a trap, the marks
of the stop; a V word no register at all before its results land: only the pipeline, the slot, the queues it names and the control
registers. `agen` changes RADEPTH, a likely branch the checkpoints and the generation, a rendezvous word its stream's rendezvous. Memory, every
other core, engine and register are as before. -/
def Obligations.EngineFrames : Prop :=
  (∀ (f : ArF) (s t : State), ∀ op ∈ [Instr.aadd, .asub, .amul, .ashl, .aand, .aaddx, .ajr, .aswz], exec (op f) s = .next t →
    FrameA (aSrcQ f.aa.toNat ++ aSrcQ f.ab.toNat ++ aDstQ f.ad.toNat) [f.ad.toNat] s t) ∧
  (∀ (f : AiF) (s t : State), ∀ op ∈ [Instr.aaddi, .alim], exec (op f) s = .next t →
    FrameA (aSrcQ f.aa.toNat ++ aDstQ f.ad.toNat) [f.ad.toNat] s t) ∧
  (∀ (f : AiF) (s t : State), (exec (.abr f) s = .next t → FrameA [] [] s t) ∧ (exec (.abdec f) s = .next t → FrameA [] [f.ad.toNat] s t)) ∧
  (∀ (f : AiF) (s t : State), exec (.abrQ7 f) s = .next t → FrameA [7] [] s t) ∧
  (∀ (f : AiF) (s t : State), ∀ op ∈ [Instr.agen, .abrQ7Likely, .abrRdv], exec (op f) s = .next t →
    SameRest s t ∧ OtherCores s t ∧ OtherQueues [7] s.me t.me ∧ SameCtlRdv s.me.a.ctl t.me.a.ctl ∧
    { t.me with a := s.me.a, q := s.me.q, seen := s.me.seen, pend := s.me.pend, stopAt := s.me.stopAt, abort := s.me.abort } = s.me ∧
    { t.me.a with ctl := s.me.a.ctl, radepth := s.me.a.radepth, gen := s.me.a.gen, ckpts := s.me.a.ckpts } = s.me.a) ∧
  (∀ (f : VF) (s t : State), ∀ op ∈ [Instr.vadd, .vsub, .vmul, .vfma, .vfms, .vfnma, .vmin, .vmax, .vabs, .vneg, .vrcp, .vrsqrt, .vsqrt,
      .vexp2, .vlog2, .vand, .vor, .vxor, .vnot, .vsll, .vsrl, .vsra, .vaddsat, .vsubsat, .vmulhi, .vcmpeq, .vcmplt, .vcmple, .kand, .kor,
      .kxor, .knot, .kpop, .kfirst, .vmov, .vbcast, .vsel, .vredsum, .vredmax, .vredmin, .vredamax, .vscan, .vtag, .vtagrd, .gadd, .gmov,
      .vperm, .vrot, .vslide, .vzip, .vunzip, .vcompact, .vpart, .vpack, .vunpack, .vcvt, .vdeq, .vscl, .vquant],
    exec (op f) s = .next t → FrameV s t) ∧
  (∀ (f : ViF) (s t : State), ∀ op ∈ [Instr.gaddi, .glim, .gbr, .gbdec], exec (op f) s = .next t → FrameV s t) ∧
  (∀ (f : ViF) (s t : State), exec (.gbrRdv f) s = .next t → SameRest s t ∧ OtherCores s t ∧ SameCtlRdv s.me.v.ctl t.me.v.ctl ∧
    { t.me with v := s.me.v, stamp := s.me.stamp, pend := s.me.pend, stopAt := s.me.stopAt, abort := s.me.abort } = s.me ∧
    { t.me.v with ctl := s.me.v.ctl, slot := s.me.v.slot, fly := s.me.v.fly } = s.me.v)
end

