-- ==== Sys2Proof/Laws/State.lean ====
section
/-!
SUPPORT. What each named update leaves alone: one lemma per field and update, so that no proof unfolds a record update.
-/
namespace Sys2Proof.Machine


/-! setCoreAt -/

@[simp] theorem State.setCoreAt_mem (s : State) (k : Nat) (c : Core) : (s.setCoreAt k c).mem = s.mem := rfl
@[simp] theorem State.setCoreAt_psn (s : State) (k : Nat) (c : Core) : (s.setCoreAt k c).psn = s.psn := rfl
@[simp] theorem State.setCoreAt_dir (s : State) (k : Nat) (c : Core) : (s.setCoreAt k c).dir = s.dir := rfl
@[simp] theorem State.setCoreAt_replicas (s : State) (k : Nat) (c : Core) : (s.setCoreAt k c).replicas = s.replicas := rfl
@[simp] theorem State.setCoreAt_crcs (s : State) (k : Nat) (c : Core) : (s.setCoreAt k c).crcs = s.crcs := rfl
@[simp] theorem State.setCoreAt_flumes (s : State) (k : Nat) (c : Core) : (s.setCoreAt k c).flumes = s.flumes := rfl
@[simp] theorem State.setCoreAt_weirs (s : State) (k : Nat) (c : Core) : (s.setCoreAt k c).weirs = s.weirs := rfl
@[simp] theorem State.setCoreAt_pkgs (s : State) (k : Nat) (c : Core) : (s.setCoreAt k c).pkgs = s.pkgs := rfl
@[simp] theorem State.setCoreAt_ctxs (s : State) (k : Nat) (c : Core) : (s.setCoreAt k c).ctxs = s.ctxs := rfl
@[simp] theorem State.setCoreAt_dctxs (s : State) (k : Nat) (c : Core) : (s.setCoreAt k c).dctxs = s.dctxs := rfl
@[simp] theorem State.setCoreAt_joins (s : State) (k : Nat) (c : Core) : (s.setCoreAt k c).joins = s.joins := rfl
@[simp] theorem State.setCoreAt_banks (s : State) (k : Nat) (c : Core) : (s.setCoreAt k c).banks = s.banks := rfl
@[simp] theorem State.setCoreAt_sides (s : State) (k : Nat) (c : Core) : (s.setCoreAt k c).sides = s.sides := rfl
@[simp] theorem State.setCoreAt_pushes (s : State) (k : Nat) (c : Core) : (s.setCoreAt k c).pushes = s.pushes := rfl
@[simp] theorem State.setCoreAt_msgs (s : State) (k : Nat) (c : Core) : (s.setCoreAt k c).msgs = s.msgs := rfl
@[simp] theorem State.setCoreAt_walks (s : State) (k : Nat) (c : Core) : (s.setCoreAt k c).walks = s.walks := rfl
@[simp] theorem State.setCoreAt_wcache (s : State) (k : Nat) (c : Core) : (s.setCoreAt k c).wcache = s.wcache := rfl
@[simp] theorem State.setCoreAt_absent (s : State) (k : Nat) (c : Core) : (s.setCoreAt k c).absent = s.absent := rfl
@[simp] theorem State.setCoreAt_ids (s : State) (k : Nat) (c : Core) : (s.setCoreAt k c).ids = s.ids := rfl
@[simp] theorem State.setCoreAt_agenda (s : State) (k : Nat) (c : Core) : (s.setCoreAt k c).agenda = s.agenda := rfl
@[simp] theorem State.setCoreAt_now (s : State) (k : Nat) (c : Core) : (s.setCoreAt k c).now = s.now := rfl
@[simp] theorem State.setCoreAt_cur (s : State) (k : Nat) (c : Core) : (s.setCoreAt k c).cur = s.cur := rfl
@[simp] theorem State.setCoreAt_ev (s : State) (k : Nat) (c : Core) : (s.setCoreAt k c).ev = s.ev := rfl
@[simp] theorem State.setCoreAt_fresh (s : State) (k : Nat) (c : Core) : (s.setCoreAt k c).fresh = s.fresh := rfl

/-! setMe -/

@[simp] theorem State.setMe_mem (s : State) (c : Core) : (s.setMe c).mem = s.mem := rfl
@[simp] theorem State.setMe_psn (s : State) (c : Core) : (s.setMe c).psn = s.psn := rfl
@[simp] theorem State.setMe_dir (s : State) (c : Core) : (s.setMe c).dir = s.dir := rfl
@[simp] theorem State.setMe_replicas (s : State) (c : Core) : (s.setMe c).replicas = s.replicas := rfl
@[simp] theorem State.setMe_crcs (s : State) (c : Core) : (s.setMe c).crcs = s.crcs := rfl
@[simp] theorem State.setMe_flumes (s : State) (c : Core) : (s.setMe c).flumes = s.flumes := rfl
@[simp] theorem State.setMe_weirs (s : State) (c : Core) : (s.setMe c).weirs = s.weirs := rfl
@[simp] theorem State.setMe_pkgs (s : State) (c : Core) : (s.setMe c).pkgs = s.pkgs := rfl
@[simp] theorem State.setMe_ctxs (s : State) (c : Core) : (s.setMe c).ctxs = s.ctxs := rfl
@[simp] theorem State.setMe_dctxs (s : State) (c : Core) : (s.setMe c).dctxs = s.dctxs := rfl
@[simp] theorem State.setMe_joins (s : State) (c : Core) : (s.setMe c).joins = s.joins := rfl
@[simp] theorem State.setMe_banks (s : State) (c : Core) : (s.setMe c).banks = s.banks := rfl
@[simp] theorem State.setMe_sides (s : State) (c : Core) : (s.setMe c).sides = s.sides := rfl
@[simp] theorem State.setMe_pushes (s : State) (c : Core) : (s.setMe c).pushes = s.pushes := rfl
@[simp] theorem State.setMe_msgs (s : State) (c : Core) : (s.setMe c).msgs = s.msgs := rfl
@[simp] theorem State.setMe_walks (s : State) (c : Core) : (s.setMe c).walks = s.walks := rfl
@[simp] theorem State.setMe_wcache (s : State) (c : Core) : (s.setMe c).wcache = s.wcache := rfl
@[simp] theorem State.setMe_absent (s : State) (c : Core) : (s.setMe c).absent = s.absent := rfl
@[simp] theorem State.setMe_ids (s : State) (c : Core) : (s.setMe c).ids = s.ids := rfl
@[simp] theorem State.setMe_agenda (s : State) (c : Core) : (s.setMe c).agenda = s.agenda := rfl
@[simp] theorem State.setMe_now (s : State) (c : Core) : (s.setMe c).now = s.now := rfl
@[simp] theorem State.setMe_cur (s : State) (c : Core) : (s.setMe c).cur = s.cur := rfl
@[simp] theorem State.setMe_ev (s : State) (c : Core) : (s.setMe c).ev = s.ev := rfl
@[simp] theorem State.setMe_fresh (s : State) (c : Core) : (s.setMe c).fresh = s.fresh := rfl

/-! setCtxAt -/

@[simp] theorem State.setCtxAt_cores (s : State) (k : Nat) (x : Ctx) : (s.setCtxAt k x).cores = s.cores := rfl
@[simp] theorem State.setCtxAt_mem (s : State) (k : Nat) (x : Ctx) : (s.setCtxAt k x).mem = s.mem := rfl
@[simp] theorem State.setCtxAt_psn (s : State) (k : Nat) (x : Ctx) : (s.setCtxAt k x).psn = s.psn := rfl
@[simp] theorem State.setCtxAt_dir (s : State) (k : Nat) (x : Ctx) : (s.setCtxAt k x).dir = s.dir := rfl
@[simp] theorem State.setCtxAt_replicas (s : State) (k : Nat) (x : Ctx) : (s.setCtxAt k x).replicas = s.replicas := rfl
@[simp] theorem State.setCtxAt_crcs (s : State) (k : Nat) (x : Ctx) : (s.setCtxAt k x).crcs = s.crcs := rfl
@[simp] theorem State.setCtxAt_flumes (s : State) (k : Nat) (x : Ctx) : (s.setCtxAt k x).flumes = s.flumes := rfl
@[simp] theorem State.setCtxAt_weirs (s : State) (k : Nat) (x : Ctx) : (s.setCtxAt k x).weirs = s.weirs := rfl
@[simp] theorem State.setCtxAt_pkgs (s : State) (k : Nat) (x : Ctx) : (s.setCtxAt k x).pkgs = s.pkgs := rfl
@[simp] theorem State.setCtxAt_dctxs (s : State) (k : Nat) (x : Ctx) : (s.setCtxAt k x).dctxs = s.dctxs := rfl
@[simp] theorem State.setCtxAt_joins (s : State) (k : Nat) (x : Ctx) : (s.setCtxAt k x).joins = s.joins := rfl
@[simp] theorem State.setCtxAt_banks (s : State) (k : Nat) (x : Ctx) : (s.setCtxAt k x).banks = s.banks := rfl
@[simp] theorem State.setCtxAt_sides (s : State) (k : Nat) (x : Ctx) : (s.setCtxAt k x).sides = s.sides := rfl
@[simp] theorem State.setCtxAt_pushes (s : State) (k : Nat) (x : Ctx) : (s.setCtxAt k x).pushes = s.pushes := rfl
@[simp] theorem State.setCtxAt_msgs (s : State) (k : Nat) (x : Ctx) : (s.setCtxAt k x).msgs = s.msgs := rfl
@[simp] theorem State.setCtxAt_walks (s : State) (k : Nat) (x : Ctx) : (s.setCtxAt k x).walks = s.walks := rfl
@[simp] theorem State.setCtxAt_wcache (s : State) (k : Nat) (x : Ctx) : (s.setCtxAt k x).wcache = s.wcache := rfl
@[simp] theorem State.setCtxAt_absent (s : State) (k : Nat) (x : Ctx) : (s.setCtxAt k x).absent = s.absent := rfl
@[simp] theorem State.setCtxAt_ids (s : State) (k : Nat) (x : Ctx) : (s.setCtxAt k x).ids = s.ids := rfl
@[simp] theorem State.setCtxAt_agenda (s : State) (k : Nat) (x : Ctx) : (s.setCtxAt k x).agenda = s.agenda := rfl
@[simp] theorem State.setCtxAt_now (s : State) (k : Nat) (x : Ctx) : (s.setCtxAt k x).now = s.now := rfl
@[simp] theorem State.setCtxAt_cur (s : State) (k : Nat) (x : Ctx) : (s.setCtxAt k x).cur = s.cur := rfl
@[simp] theorem State.setCtxAt_ev (s : State) (k : Nat) (x : Ctx) : (s.setCtxAt k x).ev = s.ev := rfl
@[simp] theorem State.setCtxAt_fresh (s : State) (k : Nat) (x : Ctx) : (s.setCtxAt k x).fresh = s.fresh := rfl

/-! setPkgAt -/

@[simp] theorem State.setPkgAt_cores (s : State) (k : Nat) (p : Pkg) : (s.setPkgAt k p).cores = s.cores := rfl
@[simp] theorem State.setPkgAt_mem (s : State) (k : Nat) (p : Pkg) : (s.setPkgAt k p).mem = s.mem := rfl
@[simp] theorem State.setPkgAt_psn (s : State) (k : Nat) (p : Pkg) : (s.setPkgAt k p).psn = s.psn := rfl
@[simp] theorem State.setPkgAt_dir (s : State) (k : Nat) (p : Pkg) : (s.setPkgAt k p).dir = s.dir := rfl
@[simp] theorem State.setPkgAt_replicas (s : State) (k : Nat) (p : Pkg) : (s.setPkgAt k p).replicas = s.replicas := rfl
@[simp] theorem State.setPkgAt_crcs (s : State) (k : Nat) (p : Pkg) : (s.setPkgAt k p).crcs = s.crcs := rfl
@[simp] theorem State.setPkgAt_flumes (s : State) (k : Nat) (p : Pkg) : (s.setPkgAt k p).flumes = s.flumes := rfl
@[simp] theorem State.setPkgAt_weirs (s : State) (k : Nat) (p : Pkg) : (s.setPkgAt k p).weirs = s.weirs := rfl
@[simp] theorem State.setPkgAt_ctxs (s : State) (k : Nat) (p : Pkg) : (s.setPkgAt k p).ctxs = s.ctxs := rfl
@[simp] theorem State.setPkgAt_dctxs (s : State) (k : Nat) (p : Pkg) : (s.setPkgAt k p).dctxs = s.dctxs := rfl
@[simp] theorem State.setPkgAt_joins (s : State) (k : Nat) (p : Pkg) : (s.setPkgAt k p).joins = s.joins := rfl
@[simp] theorem State.setPkgAt_banks (s : State) (k : Nat) (p : Pkg) : (s.setPkgAt k p).banks = s.banks := rfl
@[simp] theorem State.setPkgAt_sides (s : State) (k : Nat) (p : Pkg) : (s.setPkgAt k p).sides = s.sides := rfl
@[simp] theorem State.setPkgAt_pushes (s : State) (k : Nat) (p : Pkg) : (s.setPkgAt k p).pushes = s.pushes := rfl
@[simp] theorem State.setPkgAt_msgs (s : State) (k : Nat) (p : Pkg) : (s.setPkgAt k p).msgs = s.msgs := rfl
@[simp] theorem State.setPkgAt_walks (s : State) (k : Nat) (p : Pkg) : (s.setPkgAt k p).walks = s.walks := rfl
@[simp] theorem State.setPkgAt_wcache (s : State) (k : Nat) (p : Pkg) : (s.setPkgAt k p).wcache = s.wcache := rfl
@[simp] theorem State.setPkgAt_absent (s : State) (k : Nat) (p : Pkg) : (s.setPkgAt k p).absent = s.absent := rfl
@[simp] theorem State.setPkgAt_ids (s : State) (k : Nat) (p : Pkg) : (s.setPkgAt k p).ids = s.ids := rfl
@[simp] theorem State.setPkgAt_agenda (s : State) (k : Nat) (p : Pkg) : (s.setPkgAt k p).agenda = s.agenda := rfl
@[simp] theorem State.setPkgAt_now (s : State) (k : Nat) (p : Pkg) : (s.setPkgAt k p).now = s.now := rfl
@[simp] theorem State.setPkgAt_cur (s : State) (k : Nat) (p : Pkg) : (s.setPkgAt k p).cur = s.cur := rfl
@[simp] theorem State.setPkgAt_ev (s : State) (k : Nat) (p : Pkg) : (s.setPkgAt k p).ev = s.ev := rfl
@[simp] theorem State.setPkgAt_fresh (s : State) (k : Nat) (p : Pkg) : (s.setPkgAt k p).fresh = s.fresh := rfl

/-! setPsn -/

@[simp] theorem State.setPsn_cores (s : State) (pkg pa : Nat) (b : Bool) : (s.setPsn pkg pa b).cores = s.cores := rfl
@[simp] theorem State.setPsn_mem (s : State) (pkg pa : Nat) (b : Bool) : (s.setPsn pkg pa b).mem = s.mem := rfl
@[simp] theorem State.setPsn_dir (s : State) (pkg pa : Nat) (b : Bool) : (s.setPsn pkg pa b).dir = s.dir := rfl
@[simp] theorem State.setPsn_replicas (s : State) (pkg pa : Nat) (b : Bool) : (s.setPsn pkg pa b).replicas = s.replicas := rfl
@[simp] theorem State.setPsn_crcs (s : State) (pkg pa : Nat) (b : Bool) : (s.setPsn pkg pa b).crcs = s.crcs := rfl
@[simp] theorem State.setPsn_flumes (s : State) (pkg pa : Nat) (b : Bool) : (s.setPsn pkg pa b).flumes = s.flumes := rfl
@[simp] theorem State.setPsn_weirs (s : State) (pkg pa : Nat) (b : Bool) : (s.setPsn pkg pa b).weirs = s.weirs := rfl
@[simp] theorem State.setPsn_pkgs (s : State) (pkg pa : Nat) (b : Bool) : (s.setPsn pkg pa b).pkgs = s.pkgs := rfl
@[simp] theorem State.setPsn_ctxs (s : State) (pkg pa : Nat) (b : Bool) : (s.setPsn pkg pa b).ctxs = s.ctxs := rfl
@[simp] theorem State.setPsn_dctxs (s : State) (pkg pa : Nat) (b : Bool) : (s.setPsn pkg pa b).dctxs = s.dctxs := rfl
@[simp] theorem State.setPsn_joins (s : State) (pkg pa : Nat) (b : Bool) : (s.setPsn pkg pa b).joins = s.joins := rfl
@[simp] theorem State.setPsn_banks (s : State) (pkg pa : Nat) (b : Bool) : (s.setPsn pkg pa b).banks = s.banks := rfl
@[simp] theorem State.setPsn_sides (s : State) (pkg pa : Nat) (b : Bool) : (s.setPsn pkg pa b).sides = s.sides := rfl
@[simp] theorem State.setPsn_pushes (s : State) (pkg pa : Nat) (b : Bool) : (s.setPsn pkg pa b).pushes = s.pushes := rfl
@[simp] theorem State.setPsn_msgs (s : State) (pkg pa : Nat) (b : Bool) : (s.setPsn pkg pa b).msgs = s.msgs := rfl
@[simp] theorem State.setPsn_walks (s : State) (pkg pa : Nat) (b : Bool) : (s.setPsn pkg pa b).walks = s.walks := rfl
@[simp] theorem State.setPsn_wcache (s : State) (pkg pa : Nat) (b : Bool) : (s.setPsn pkg pa b).wcache = s.wcache := rfl
@[simp] theorem State.setPsn_absent (s : State) (pkg pa : Nat) (b : Bool) : (s.setPsn pkg pa b).absent = s.absent := rfl
@[simp] theorem State.setPsn_ids (s : State) (pkg pa : Nat) (b : Bool) : (s.setPsn pkg pa b).ids = s.ids := rfl
@[simp] theorem State.setPsn_agenda (s : State) (pkg pa : Nat) (b : Bool) : (s.setPsn pkg pa b).agenda = s.agenda := rfl
@[simp] theorem State.setPsn_now (s : State) (pkg pa : Nat) (b : Bool) : (s.setPsn pkg pa b).now = s.now := rfl
@[simp] theorem State.setPsn_cur (s : State) (pkg pa : Nat) (b : Bool) : (s.setPsn pkg pa b).cur = s.cur := rfl
@[simp] theorem State.setPsn_ev (s : State) (pkg pa : Nat) (b : Bool) : (s.setPsn pkg pa b).ev = s.ev := rfl
@[simp] theorem State.setPsn_fresh (s : State) (pkg pa : Nat) (b : Bool) : (s.setPsn pkg pa b).fresh = s.fresh := rfl

/-! setCg -/

@[simp] theorem State.setCg_mem (s : State) (r : Nat) (x : W64) : (s.setCg r x).mem = s.mem := rfl
@[simp] theorem State.setCg_psn (s : State) (r : Nat) (x : W64) : (s.setCg r x).psn = s.psn := rfl
@[simp] theorem State.setCg_dir (s : State) (r : Nat) (x : W64) : (s.setCg r x).dir = s.dir := rfl
@[simp] theorem State.setCg_replicas (s : State) (r : Nat) (x : W64) : (s.setCg r x).replicas = s.replicas := rfl
@[simp] theorem State.setCg_crcs (s : State) (r : Nat) (x : W64) : (s.setCg r x).crcs = s.crcs := rfl
@[simp] theorem State.setCg_flumes (s : State) (r : Nat) (x : W64) : (s.setCg r x).flumes = s.flumes := rfl
@[simp] theorem State.setCg_weirs (s : State) (r : Nat) (x : W64) : (s.setCg r x).weirs = s.weirs := rfl
@[simp] theorem State.setCg_pkgs (s : State) (r : Nat) (x : W64) : (s.setCg r x).pkgs = s.pkgs := rfl
@[simp] theorem State.setCg_ctxs (s : State) (r : Nat) (x : W64) : (s.setCg r x).ctxs = s.ctxs := rfl
@[simp] theorem State.setCg_dctxs (s : State) (r : Nat) (x : W64) : (s.setCg r x).dctxs = s.dctxs := rfl
@[simp] theorem State.setCg_joins (s : State) (r : Nat) (x : W64) : (s.setCg r x).joins = s.joins := rfl
@[simp] theorem State.setCg_banks (s : State) (r : Nat) (x : W64) : (s.setCg r x).banks = s.banks := rfl
@[simp] theorem State.setCg_sides (s : State) (r : Nat) (x : W64) : (s.setCg r x).sides = s.sides := rfl
@[simp] theorem State.setCg_pushes (s : State) (r : Nat) (x : W64) : (s.setCg r x).pushes = s.pushes := rfl
@[simp] theorem State.setCg_msgs (s : State) (r : Nat) (x : W64) : (s.setCg r x).msgs = s.msgs := rfl
@[simp] theorem State.setCg_walks (s : State) (r : Nat) (x : W64) : (s.setCg r x).walks = s.walks := rfl
@[simp] theorem State.setCg_wcache (s : State) (r : Nat) (x : W64) : (s.setCg r x).wcache = s.wcache := rfl
@[simp] theorem State.setCg_absent (s : State) (r : Nat) (x : W64) : (s.setCg r x).absent = s.absent := rfl
@[simp] theorem State.setCg_ids (s : State) (r : Nat) (x : W64) : (s.setCg r x).ids = s.ids := rfl
@[simp] theorem State.setCg_agenda (s : State) (r : Nat) (x : W64) : (s.setCg r x).agenda = s.agenda := rfl
@[simp] theorem State.setCg_now (s : State) (r : Nat) (x : W64) : (s.setCg r x).now = s.now := rfl
@[simp] theorem State.setCg_cur (s : State) (r : Nat) (x : W64) : (s.setCg r x).cur = s.cur := rfl
@[simp] theorem State.setCg_ev (s : State) (r : Nat) (x : W64) : (s.setCg r x).ev = s.ev := rfl
@[simp] theorem State.setCg_fresh (s : State) (r : Nat) (x : W64) : (s.setCg r x).fresh = s.fresh := rfl

/-! setCtl -/

@[simp] theorem State.setCtl_mem (s : State) (st : Str) (x : Stream) : (s.setCtl st x).mem = s.mem := rfl
@[simp] theorem State.setCtl_psn (s : State) (st : Str) (x : Stream) : (s.setCtl st x).psn = s.psn := rfl
@[simp] theorem State.setCtl_dir (s : State) (st : Str) (x : Stream) : (s.setCtl st x).dir = s.dir := rfl
@[simp] theorem State.setCtl_replicas (s : State) (st : Str) (x : Stream) : (s.setCtl st x).replicas = s.replicas := rfl
@[simp] theorem State.setCtl_crcs (s : State) (st : Str) (x : Stream) : (s.setCtl st x).crcs = s.crcs := rfl
@[simp] theorem State.setCtl_flumes (s : State) (st : Str) (x : Stream) : (s.setCtl st x).flumes = s.flumes := rfl
@[simp] theorem State.setCtl_weirs (s : State) (st : Str) (x : Stream) : (s.setCtl st x).weirs = s.weirs := rfl
@[simp] theorem State.setCtl_pkgs (s : State) (st : Str) (x : Stream) : (s.setCtl st x).pkgs = s.pkgs := rfl
@[simp] theorem State.setCtl_ctxs (s : State) (st : Str) (x : Stream) : (s.setCtl st x).ctxs = s.ctxs := rfl
@[simp] theorem State.setCtl_dctxs (s : State) (st : Str) (x : Stream) : (s.setCtl st x).dctxs = s.dctxs := rfl
@[simp] theorem State.setCtl_joins (s : State) (st : Str) (x : Stream) : (s.setCtl st x).joins = s.joins := rfl
@[simp] theorem State.setCtl_banks (s : State) (st : Str) (x : Stream) : (s.setCtl st x).banks = s.banks := rfl
@[simp] theorem State.setCtl_sides (s : State) (st : Str) (x : Stream) : (s.setCtl st x).sides = s.sides := rfl
@[simp] theorem State.setCtl_pushes (s : State) (st : Str) (x : Stream) : (s.setCtl st x).pushes = s.pushes := rfl
@[simp] theorem State.setCtl_msgs (s : State) (st : Str) (x : Stream) : (s.setCtl st x).msgs = s.msgs := rfl
@[simp] theorem State.setCtl_walks (s : State) (st : Str) (x : Stream) : (s.setCtl st x).walks = s.walks := rfl
@[simp] theorem State.setCtl_wcache (s : State) (st : Str) (x : Stream) : (s.setCtl st x).wcache = s.wcache := rfl
@[simp] theorem State.setCtl_absent (s : State) (st : Str) (x : Stream) : (s.setCtl st x).absent = s.absent := rfl
@[simp] theorem State.setCtl_ids (s : State) (st : Str) (x : Stream) : (s.setCtl st x).ids = s.ids := rfl
@[simp] theorem State.setCtl_agenda (s : State) (st : Str) (x : Stream) : (s.setCtl st x).agenda = s.agenda := rfl
@[simp] theorem State.setCtl_now (s : State) (st : Str) (x : Stream) : (s.setCtl st x).now = s.now := rfl
@[simp] theorem State.setCtl_cur (s : State) (st : Str) (x : Stream) : (s.setCtl st x).cur = s.cur := rfl
@[simp] theorem State.setCtl_ev (s : State) (st : Str) (x : Stream) : (s.setCtl st x).ev = s.ev := rfl
@[simp] theorem State.setCtl_fresh (s : State) (st : Str) (x : Stream) : (s.setCtl st x).fresh = s.fresh := rfl

/-! jump -/

@[simp] theorem State.jump_mem (s : State) (st : Str) (t : W64) : (s.jump st t).mem = s.mem := rfl
@[simp] theorem State.jump_psn (s : State) (st : Str) (t : W64) : (s.jump st t).psn = s.psn := rfl
@[simp] theorem State.jump_dir (s : State) (st : Str) (t : W64) : (s.jump st t).dir = s.dir := rfl
@[simp] theorem State.jump_replicas (s : State) (st : Str) (t : W64) : (s.jump st t).replicas = s.replicas := rfl
@[simp] theorem State.jump_crcs (s : State) (st : Str) (t : W64) : (s.jump st t).crcs = s.crcs := rfl
@[simp] theorem State.jump_flumes (s : State) (st : Str) (t : W64) : (s.jump st t).flumes = s.flumes := rfl
@[simp] theorem State.jump_weirs (s : State) (st : Str) (t : W64) : (s.jump st t).weirs = s.weirs := rfl
@[simp] theorem State.jump_pkgs (s : State) (st : Str) (t : W64) : (s.jump st t).pkgs = s.pkgs := rfl
@[simp] theorem State.jump_ctxs (s : State) (st : Str) (t : W64) : (s.jump st t).ctxs = s.ctxs := rfl
@[simp] theorem State.jump_dctxs (s : State) (st : Str) (t : W64) : (s.jump st t).dctxs = s.dctxs := rfl
@[simp] theorem State.jump_joins (s : State) (st : Str) (t : W64) : (s.jump st t).joins = s.joins := rfl
@[simp] theorem State.jump_banks (s : State) (st : Str) (t : W64) : (s.jump st t).banks = s.banks := rfl
@[simp] theorem State.jump_sides (s : State) (st : Str) (t : W64) : (s.jump st t).sides = s.sides := rfl
@[simp] theorem State.jump_pushes (s : State) (st : Str) (t : W64) : (s.jump st t).pushes = s.pushes := rfl
@[simp] theorem State.jump_msgs (s : State) (st : Str) (t : W64) : (s.jump st t).msgs = s.msgs := rfl
@[simp] theorem State.jump_walks (s : State) (st : Str) (t : W64) : (s.jump st t).walks = s.walks := rfl
@[simp] theorem State.jump_wcache (s : State) (st : Str) (t : W64) : (s.jump st t).wcache = s.wcache := rfl
@[simp] theorem State.jump_absent (s : State) (st : Str) (t : W64) : (s.jump st t).absent = s.absent := rfl
@[simp] theorem State.jump_ids (s : State) (st : Str) (t : W64) : (s.jump st t).ids = s.ids := rfl
@[simp] theorem State.jump_agenda (s : State) (st : Str) (t : W64) : (s.jump st t).agenda = s.agenda := rfl
@[simp] theorem State.jump_now (s : State) (st : Str) (t : W64) : (s.jump st t).now = s.now := rfl
@[simp] theorem State.jump_cur (s : State) (st : Str) (t : W64) : (s.jump st t).cur = s.cur := rfl
@[simp] theorem State.jump_ev (s : State) (st : Str) (t : W64) : (s.jump st t).ev = s.ev := rfl
@[simp] theorem State.jump_fresh (s : State) (st : Str) (t : W64) : (s.jump st t).fresh = s.fresh := rfl

/-! advance -/

@[simp] theorem State.advance_mem (s : State) (st : Str) : (s.advance st).mem = s.mem := rfl
@[simp] theorem State.advance_psn (s : State) (st : Str) : (s.advance st).psn = s.psn := rfl
@[simp] theorem State.advance_dir (s : State) (st : Str) : (s.advance st).dir = s.dir := rfl
@[simp] theorem State.advance_replicas (s : State) (st : Str) : (s.advance st).replicas = s.replicas := rfl
@[simp] theorem State.advance_crcs (s : State) (st : Str) : (s.advance st).crcs = s.crcs := rfl
@[simp] theorem State.advance_flumes (s : State) (st : Str) : (s.advance st).flumes = s.flumes := rfl
@[simp] theorem State.advance_weirs (s : State) (st : Str) : (s.advance st).weirs = s.weirs := rfl
@[simp] theorem State.advance_pkgs (s : State) (st : Str) : (s.advance st).pkgs = s.pkgs := rfl
@[simp] theorem State.advance_ctxs (s : State) (st : Str) : (s.advance st).ctxs = s.ctxs := rfl
@[simp] theorem State.advance_dctxs (s : State) (st : Str) : (s.advance st).dctxs = s.dctxs := rfl
@[simp] theorem State.advance_joins (s : State) (st : Str) : (s.advance st).joins = s.joins := rfl
@[simp] theorem State.advance_banks (s : State) (st : Str) : (s.advance st).banks = s.banks := rfl
@[simp] theorem State.advance_sides (s : State) (st : Str) : (s.advance st).sides = s.sides := rfl
@[simp] theorem State.advance_pushes (s : State) (st : Str) : (s.advance st).pushes = s.pushes := rfl
@[simp] theorem State.advance_msgs (s : State) (st : Str) : (s.advance st).msgs = s.msgs := rfl
@[simp] theorem State.advance_walks (s : State) (st : Str) : (s.advance st).walks = s.walks := rfl
@[simp] theorem State.advance_wcache (s : State) (st : Str) : (s.advance st).wcache = s.wcache := rfl
@[simp] theorem State.advance_absent (s : State) (st : Str) : (s.advance st).absent = s.absent := rfl
@[simp] theorem State.advance_ids (s : State) (st : Str) : (s.advance st).ids = s.ids := rfl
@[simp] theorem State.advance_agenda (s : State) (st : Str) : (s.advance st).agenda = s.agenda := rfl
@[simp] theorem State.advance_now (s : State) (st : Str) : (s.advance st).now = s.now := rfl
@[simp] theorem State.advance_cur (s : State) (st : Str) : (s.advance st).cur = s.cur := rfl
@[simp] theorem State.advance_ev (s : State) (st : Str) : (s.advance st).ev = s.ev := rfl
@[simp] theorem State.advance_fresh (s : State) (st : Str) : (s.advance st).fresh = s.fresh := rfl

/-! Core.setCg -/

@[simp] theorem Core.setCg_job (c : Core) (r : Nat) (x : W64) : (c.setCg r x).job = c.job := rfl
@[simp] theorem Core.setCg_grant (c : Core) (r : Nat) (x : W64) : (c.setCg r x).grant = c.grant := rfl
@[simp] theorem Core.setCg_prev (c : Core) (r : Nat) (x : W64) : (c.setCg r x).prev = c.prev := rfl
@[simp] theorem Core.setCg_a (c : Core) (r : Nat) (x : W64) : (c.setCg r x).a = c.a := rfl
@[simp] theorem Core.setCg_v (c : Core) (r : Nat) (x : W64) : (c.setCg r x).v = c.v := rfl
@[simp] theorem Core.setCg_m (c : Core) (r : Nat) (x : W64) : (c.setCg r x).m = c.m := rfl
@[simp] theorem Core.setCg_q (c : Core) (r : Nat) (x : W64) : (c.setCg r x).q = c.q := rfl
@[simp] theorem Core.setCg_wq (c : Core) (r : Nat) (x : W64) : (c.setCg r x).wq = c.wq := rfl
@[simp] theorem Core.setCg_limit (c : Core) (r : Nat) (x : W64) : (c.setCg r x).limit = c.limit := rfl
@[simp] theorem Core.setCg_pend (c : Core) (r : Nat) (x : W64) : (c.setCg r x).pend = c.pend := rfl
@[simp] theorem Core.setCg_inh (c : Core) (r : Nat) (x : W64) : (c.setCg r x).inh = c.inh := rfl
@[simp] theorem Core.setCg_cur (c : Core) (r : Nat) (x : W64) : (c.setCg r x).cur = c.cur := rfl
@[simp] theorem Core.setCg_pre (c : Core) (r : Nat) (x : W64) : (c.setCg r x).pre = c.pre := rfl
@[simp] theorem Core.setCg_sarr (c : Core) (r : Nat) (x : W64) : (c.setCg r x).sarr = c.sarr := rfl
@[simp] theorem Core.setCg_sarrAt (c : Core) (r : Nat) (x : W64) : (c.setCg r x).sarrAt = c.sarrAt := rfl
@[simp] theorem Core.setCg_sgen (c : Core) (r : Nat) (x : W64) : (c.setCg r x).sgen = c.sgen := rfl
@[simp] theorem Core.setCg_sav30 (c : Core) (r : Nat) (x : W64) : (c.setCg r x).sav30 = c.sav30 := rfl
@[simp] theorem Core.setCg_sav31 (c : Core) (r : Nat) (x : W64) : (c.setCg r x).sav31 = c.sav31 := rfl
@[simp] theorem Core.setCg_stopAt (c : Core) (r : Nat) (x : W64) : (c.setCg r x).stopAt = c.stopAt := rfl
@[simp] theorem Core.setCg_saving (c : Core) (r : Nat) (x : W64) : (c.setCg r x).saving = c.saving := rfl
@[simp] theorem Core.setCg_saveSlot (c : Core) (r : Nat) (x : W64) : (c.setCg r x).saveSlot = c.saveSlot := rfl
@[simp] theorem Core.setCg_sem (c : Core) (r : Nat) (x : W64) : (c.setCg r x).sem = c.sem := rfl
@[simp] theorem Core.setCg_semOvf (c : Core) (r : Nat) (x : W64) : (c.setCg r x).semOvf = c.semOvf := rfl
@[simp] theorem Core.setCg_semAct (c : Core) (r : Nat) (x : W64) : (c.setCg r x).semAct = c.semAct := rfl
@[simp] theorem Core.setCg_seen (c : Core) (r : Nat) (x : W64) : (c.setCg r x).seen = c.seen := rfl
@[simp] theorem Core.setCg_semSeen (c : Core) (r : Nat) (x : W64) : (c.setCg r x).semSeen = c.semSeen := rfl
@[simp] theorem Core.setCg_feet (c : Core) (r : Nat) (x : W64) : (c.setCg r x).feet = c.feet := rfl
@[simp] theorem Core.setCg_owed (c : Core) (r : Nat) (x : W64) : (c.setCg r x).owed = c.owed := rfl
@[simp] theorem Core.setCg_marks (c : Core) (r : Nat) (x : W64) : (c.setCg r x).marks = c.marks := rfl
@[simp] theorem Core.setCg_phase (c : Core) (r : Nat) (x : W64) : (c.setCg r x).phase = c.phase := rfl
@[simp] theorem Core.setCg_aborts (c : Core) (r : Nat) (x : W64) : (c.setCg r x).aborts = c.aborts := rfl
@[simp] theorem Core.setCg_last (c : Core) (r : Nat) (x : W64) : (c.setCg r x).last = c.last := rfl
@[simp] theorem Core.setCg_erun (c : Core) (r : Nat) (x : W64) : (c.setCg r x).erun = c.erun := rfl
@[simp] theorem Core.setCg_abort (c : Core) (r : Nat) (x : W64) : (c.setCg r x).abort = c.abort := rfl
@[simp] theorem Core.setCg_dead (c : Core) (r : Nat) (x : W64) : (c.setCg r x).dead = c.dead := rfl
@[simp] theorem Core.setCg_recast (c : Core) (r : Nat) (x : W64) : (c.setCg r x).recast = c.recast := rfl
@[simp] theorem Core.setCg_gone (c : Core) (r : Nat) (x : W64) : (c.setCg r x).gone = c.gone := rfl
@[simp] theorem Core.setCg_tlbInv (c : Core) (r : Nat) (x : W64) : (c.setCg r x).tlbInv = c.tlbInv := rfl
@[simp] theorem Core.setCg_fab (c : Core) (r : Nat) (x : W64) : (c.setCg r x).fab = c.fab := rfl
@[simp] theorem Core.setCg_credits (c : Core) (r : Nat) (x : W64) : (c.setCg r x).credits = c.credits := rfl
@[simp] theorem Core.setCg_sent (c : Core) (r : Nat) (x : W64) : (c.setCg r x).sent = c.sent := rfl
@[simp] theorem Core.setCg_reply (c : Core) (r : Nat) (x : W64) : (c.setCg r x).reply = c.reply := rfl
@[simp] theorem Core.setCg_put (c : Core) (r : Nat) (x : W64) : (c.setCg r x).put = c.put := rfl
@[simp] theorem Core.setCg_full (c : Core) (r : Nat) (x : W64) : (c.setCg r x).full = c.full := rfl
@[simp] theorem Core.setCg_lanePsn (c : Core) (r : Nat) (x : W64) : (c.setCg r x).lanePsn = c.lanePsn := rfl
@[simp] theorem Core.setCg_roleDef (c : Core) (r : Nat) (x : W64) : (c.setCg r x).roleDef = c.roleDef := rfl
@[simp] theorem Core.setCg_roles (c : Core) (r : Nat) (x : W64) : (c.setCg r x).roles = c.roles := rfl
@[simp] theorem Core.setCg_tlb (c : Core) (r : Nat) (x : W64) : (c.setCg r x).tlb = c.tlb := rfl
@[simp] theorem Core.setCg_stamp (c : Core) (r : Nat) (x : W64) : (c.setCg r x).stamp = c.stamp := rfl

/-! Core.setCtl -/

@[simp] theorem Core.setCtl_job (c : Core) (st : Str) (x : Stream) : (c.setCtl st x).job = c.job := by cases st <;> rfl
@[simp] theorem Core.setCtl_grant (c : Core) (st : Str) (x : Stream) : (c.setCtl st x).grant = c.grant := by cases st <;> rfl
@[simp] theorem Core.setCtl_prev (c : Core) (st : Str) (x : Stream) : (c.setCtl st x).prev = c.prev := by cases st <;> rfl
@[simp] theorem Core.setCtl_q (c : Core) (st : Str) (x : Stream) : (c.setCtl st x).q = c.q := by cases st <;> rfl
@[simp] theorem Core.setCtl_wq (c : Core) (st : Str) (x : Stream) : (c.setCtl st x).wq = c.wq := by cases st <;> rfl
@[simp] theorem Core.setCtl_limit (c : Core) (st : Str) (x : Stream) : (c.setCtl st x).limit = c.limit := by cases st <;> rfl
@[simp] theorem Core.setCtl_pend (c : Core) (st : Str) (x : Stream) : (c.setCtl st x).pend = c.pend := by cases st <;> rfl
@[simp] theorem Core.setCtl_inh (c : Core) (st : Str) (x : Stream) : (c.setCtl st x).inh = c.inh := by cases st <;> rfl
@[simp] theorem Core.setCtl_cur (c : Core) (st : Str) (x : Stream) : (c.setCtl st x).cur = c.cur := by cases st <;> rfl
@[simp] theorem Core.setCtl_pre (c : Core) (st : Str) (x : Stream) : (c.setCtl st x).pre = c.pre := by cases st <;> rfl
@[simp] theorem Core.setCtl_sarr (c : Core) (st : Str) (x : Stream) : (c.setCtl st x).sarr = c.sarr := by cases st <;> rfl
@[simp] theorem Core.setCtl_sarrAt (c : Core) (st : Str) (x : Stream) : (c.setCtl st x).sarrAt = c.sarrAt := by cases st <;> rfl
@[simp] theorem Core.setCtl_sgen (c : Core) (st : Str) (x : Stream) : (c.setCtl st x).sgen = c.sgen := by cases st <;> rfl
@[simp] theorem Core.setCtl_sav30 (c : Core) (st : Str) (x : Stream) : (c.setCtl st x).sav30 = c.sav30 := by cases st <;> rfl
@[simp] theorem Core.setCtl_sav31 (c : Core) (st : Str) (x : Stream) : (c.setCtl st x).sav31 = c.sav31 := by cases st <;> rfl
@[simp] theorem Core.setCtl_stopAt (c : Core) (st : Str) (x : Stream) : (c.setCtl st x).stopAt = c.stopAt := by cases st <;> rfl
@[simp] theorem Core.setCtl_saving (c : Core) (st : Str) (x : Stream) : (c.setCtl st x).saving = c.saving := by cases st <;> rfl
@[simp] theorem Core.setCtl_saveSlot (c : Core) (st : Str) (x : Stream) : (c.setCtl st x).saveSlot = c.saveSlot := by cases st <;> rfl
@[simp] theorem Core.setCtl_sem (c : Core) (st : Str) (x : Stream) : (c.setCtl st x).sem = c.sem := by cases st <;> rfl
@[simp] theorem Core.setCtl_semOvf (c : Core) (st : Str) (x : Stream) : (c.setCtl st x).semOvf = c.semOvf := by cases st <;> rfl
@[simp] theorem Core.setCtl_semAct (c : Core) (st : Str) (x : Stream) : (c.setCtl st x).semAct = c.semAct := by cases st <;> rfl
@[simp] theorem Core.setCtl_seen (c : Core) (st : Str) (x : Stream) : (c.setCtl st x).seen = c.seen := by cases st <;> rfl
@[simp] theorem Core.setCtl_semSeen (c : Core) (st : Str) (x : Stream) : (c.setCtl st x).semSeen = c.semSeen := by cases st <;> rfl
@[simp] theorem Core.setCtl_feet (c : Core) (st : Str) (x : Stream) : (c.setCtl st x).feet = c.feet := by cases st <;> rfl
@[simp] theorem Core.setCtl_owed (c : Core) (st : Str) (x : Stream) : (c.setCtl st x).owed = c.owed := by cases st <;> rfl
@[simp] theorem Core.setCtl_marks (c : Core) (st : Str) (x : Stream) : (c.setCtl st x).marks = c.marks := by cases st <;> rfl
@[simp] theorem Core.setCtl_phase (c : Core) (st : Str) (x : Stream) : (c.setCtl st x).phase = c.phase := by cases st <;> rfl
@[simp] theorem Core.setCtl_aborts (c : Core) (st : Str) (x : Stream) : (c.setCtl st x).aborts = c.aborts := by cases st <;> rfl
@[simp] theorem Core.setCtl_last (c : Core) (st : Str) (x : Stream) : (c.setCtl st x).last = c.last := by cases st <;> rfl
@[simp] theorem Core.setCtl_erun (c : Core) (st : Str) (x : Stream) : (c.setCtl st x).erun = c.erun := by cases st <;> rfl
@[simp] theorem Core.setCtl_abort (c : Core) (st : Str) (x : Stream) : (c.setCtl st x).abort = c.abort := by cases st <;> rfl
@[simp] theorem Core.setCtl_dead (c : Core) (st : Str) (x : Stream) : (c.setCtl st x).dead = c.dead := by cases st <;> rfl
@[simp] theorem Core.setCtl_recast (c : Core) (st : Str) (x : Stream) : (c.setCtl st x).recast = c.recast := by cases st <;> rfl
@[simp] theorem Core.setCtl_gone (c : Core) (st : Str) (x : Stream) : (c.setCtl st x).gone = c.gone := by cases st <;> rfl
@[simp] theorem Core.setCtl_tlbInv (c : Core) (st : Str) (x : Stream) : (c.setCtl st x).tlbInv = c.tlbInv := by cases st <;> rfl
@[simp] theorem Core.setCtl_fab (c : Core) (st : Str) (x : Stream) : (c.setCtl st x).fab = c.fab := by cases st <;> rfl
@[simp] theorem Core.setCtl_credits (c : Core) (st : Str) (x : Stream) : (c.setCtl st x).credits = c.credits := by cases st <;> rfl
@[simp] theorem Core.setCtl_sent (c : Core) (st : Str) (x : Stream) : (c.setCtl st x).sent = c.sent := by cases st <;> rfl
@[simp] theorem Core.setCtl_reply (c : Core) (st : Str) (x : Stream) : (c.setCtl st x).reply = c.reply := by cases st <;> rfl
@[simp] theorem Core.setCtl_put (c : Core) (st : Str) (x : Stream) : (c.setCtl st x).put = c.put := by cases st <;> rfl
@[simp] theorem Core.setCtl_full (c : Core) (st : Str) (x : Stream) : (c.setCtl st x).full = c.full := by cases st <;> rfl
@[simp] theorem Core.setCtl_lanePsn (c : Core) (st : Str) (x : Stream) : (c.setCtl st x).lanePsn = c.lanePsn := by cases st <;> rfl
@[simp] theorem Core.setCtl_roleDef (c : Core) (st : Str) (x : Stream) : (c.setCtl st x).roleDef = c.roleDef := by cases st <;> rfl
@[simp] theorem Core.setCtl_roles (c : Core) (st : Str) (x : Stream) : (c.setCtl st x).roles = c.roles := by cases st <;> rfl
@[simp] theorem Core.setCtl_tlb (c : Core) (st : Str) (x : Stream) : (c.setCtl st x).tlb = c.tlb := by cases st <;> rfl
@[simp] theorem Core.setCtl_stamp (c : Core) (st : Str) (x : Stream) : (c.setCtl st x).stamp = c.stamp := by cases st <;> rfl

/-! Core.qPop -/

@[simp] theorem Core.qPop_job (c : Core) (n now : Nat) : (c.qPop n now).job = c.job := rfl
@[simp] theorem Core.qPop_grant (c : Core) (n now : Nat) : (c.qPop n now).grant = c.grant := rfl
@[simp] theorem Core.qPop_prev (c : Core) (n now : Nat) : (c.qPop n now).prev = c.prev := rfl
@[simp] theorem Core.qPop_c (c : Core) (n now : Nat) : (c.qPop n now).c = c.c := rfl
@[simp] theorem Core.qPop_a (c : Core) (n now : Nat) : (c.qPop n now).a = c.a := rfl
@[simp] theorem Core.qPop_v (c : Core) (n now : Nat) : (c.qPop n now).v = c.v := rfl
@[simp] theorem Core.qPop_m (c : Core) (n now : Nat) : (c.qPop n now).m = c.m := rfl
@[simp] theorem Core.qPop_wq (c : Core) (n now : Nat) : (c.qPop n now).wq = c.wq := rfl
@[simp] theorem Core.qPop_limit (c : Core) (n now : Nat) : (c.qPop n now).limit = c.limit := rfl
@[simp] theorem Core.qPop_pend (c : Core) (n now : Nat) : (c.qPop n now).pend = c.pend := rfl
@[simp] theorem Core.qPop_inh (c : Core) (n now : Nat) : (c.qPop n now).inh = c.inh := rfl
@[simp] theorem Core.qPop_cur (c : Core) (n now : Nat) : (c.qPop n now).cur = c.cur := rfl
@[simp] theorem Core.qPop_pre (c : Core) (n now : Nat) : (c.qPop n now).pre = c.pre := rfl
@[simp] theorem Core.qPop_sarr (c : Core) (n now : Nat) : (c.qPop n now).sarr = c.sarr := rfl
@[simp] theorem Core.qPop_sarrAt (c : Core) (n now : Nat) : (c.qPop n now).sarrAt = c.sarrAt := rfl
@[simp] theorem Core.qPop_sgen (c : Core) (n now : Nat) : (c.qPop n now).sgen = c.sgen := rfl
@[simp] theorem Core.qPop_sav30 (c : Core) (n now : Nat) : (c.qPop n now).sav30 = c.sav30 := rfl
@[simp] theorem Core.qPop_sav31 (c : Core) (n now : Nat) : (c.qPop n now).sav31 = c.sav31 := rfl
@[simp] theorem Core.qPop_stopAt (c : Core) (n now : Nat) : (c.qPop n now).stopAt = c.stopAt := rfl
@[simp] theorem Core.qPop_saving (c : Core) (n now : Nat) : (c.qPop n now).saving = c.saving := rfl
@[simp] theorem Core.qPop_saveSlot (c : Core) (n now : Nat) : (c.qPop n now).saveSlot = c.saveSlot := rfl
@[simp] theorem Core.qPop_sem (c : Core) (n now : Nat) : (c.qPop n now).sem = c.sem := rfl
@[simp] theorem Core.qPop_semOvf (c : Core) (n now : Nat) : (c.qPop n now).semOvf = c.semOvf := rfl
@[simp] theorem Core.qPop_semAct (c : Core) (n now : Nat) : (c.qPop n now).semAct = c.semAct := rfl
@[simp] theorem Core.qPop_semSeen (c : Core) (n now : Nat) : (c.qPop n now).semSeen = c.semSeen := rfl
@[simp] theorem Core.qPop_feet (c : Core) (n now : Nat) : (c.qPop n now).feet = c.feet := rfl
@[simp] theorem Core.qPop_owed (c : Core) (n now : Nat) : (c.qPop n now).owed = c.owed := rfl
@[simp] theorem Core.qPop_marks (c : Core) (n now : Nat) : (c.qPop n now).marks = c.marks := rfl
@[simp] theorem Core.qPop_phase (c : Core) (n now : Nat) : (c.qPop n now).phase = c.phase := rfl
@[simp] theorem Core.qPop_aborts (c : Core) (n now : Nat) : (c.qPop n now).aborts = c.aborts := rfl
@[simp] theorem Core.qPop_last (c : Core) (n now : Nat) : (c.qPop n now).last = c.last := rfl
@[simp] theorem Core.qPop_erun (c : Core) (n now : Nat) : (c.qPop n now).erun = c.erun := rfl
@[simp] theorem Core.qPop_abort (c : Core) (n now : Nat) : (c.qPop n now).abort = c.abort := rfl
@[simp] theorem Core.qPop_dead (c : Core) (n now : Nat) : (c.qPop n now).dead = c.dead := rfl
@[simp] theorem Core.qPop_recast (c : Core) (n now : Nat) : (c.qPop n now).recast = c.recast := rfl
@[simp] theorem Core.qPop_gone (c : Core) (n now : Nat) : (c.qPop n now).gone = c.gone := rfl
@[simp] theorem Core.qPop_tlbInv (c : Core) (n now : Nat) : (c.qPop n now).tlbInv = c.tlbInv := rfl
@[simp] theorem Core.qPop_fab (c : Core) (n now : Nat) : (c.qPop n now).fab = c.fab := rfl
@[simp] theorem Core.qPop_credits (c : Core) (n now : Nat) : (c.qPop n now).credits = c.credits := rfl
@[simp] theorem Core.qPop_sent (c : Core) (n now : Nat) : (c.qPop n now).sent = c.sent := rfl
@[simp] theorem Core.qPop_reply (c : Core) (n now : Nat) : (c.qPop n now).reply = c.reply := rfl
@[simp] theorem Core.qPop_put (c : Core) (n now : Nat) : (c.qPop n now).put = c.put := rfl
@[simp] theorem Core.qPop_full (c : Core) (n now : Nat) : (c.qPop n now).full = c.full := rfl
@[simp] theorem Core.qPop_lanePsn (c : Core) (n now : Nat) : (c.qPop n now).lanePsn = c.lanePsn := rfl
@[simp] theorem Core.qPop_roleDef (c : Core) (n now : Nat) : (c.qPop n now).roleDef = c.roleDef := rfl
@[simp] theorem Core.qPop_roles (c : Core) (n now : Nat) : (c.qPop n now).roles = c.roles := rfl
@[simp] theorem Core.qPop_tlb (c : Core) (n now : Nat) : (c.qPop n now).tlb = c.tlb := rfl
@[simp] theorem Core.qPop_stamp (c : Core) (n now : Nat) : (c.qPop n now).stamp = c.stamp := rfl

/-! Core.qPush -/

@[simp] theorem Core.qPush_job (c : Core) (n : Nat) (e : QEntry) : (c.qPush n e).job = c.job := rfl
@[simp] theorem Core.qPush_grant (c : Core) (n : Nat) (e : QEntry) : (c.qPush n e).grant = c.grant := rfl
@[simp] theorem Core.qPush_prev (c : Core) (n : Nat) (e : QEntry) : (c.qPush n e).prev = c.prev := rfl
@[simp] theorem Core.qPush_c (c : Core) (n : Nat) (e : QEntry) : (c.qPush n e).c = c.c := rfl
@[simp] theorem Core.qPush_a (c : Core) (n : Nat) (e : QEntry) : (c.qPush n e).a = c.a := rfl
@[simp] theorem Core.qPush_v (c : Core) (n : Nat) (e : QEntry) : (c.qPush n e).v = c.v := rfl
@[simp] theorem Core.qPush_m (c : Core) (n : Nat) (e : QEntry) : (c.qPush n e).m = c.m := rfl
@[simp] theorem Core.qPush_wq (c : Core) (n : Nat) (e : QEntry) : (c.qPush n e).wq = c.wq := rfl
@[simp] theorem Core.qPush_limit (c : Core) (n : Nat) (e : QEntry) : (c.qPush n e).limit = c.limit := rfl
@[simp] theorem Core.qPush_pend (c : Core) (n : Nat) (e : QEntry) : (c.qPush n e).pend = c.pend := rfl
@[simp] theorem Core.qPush_inh (c : Core) (n : Nat) (e : QEntry) : (c.qPush n e).inh = c.inh := rfl
@[simp] theorem Core.qPush_cur (c : Core) (n : Nat) (e : QEntry) : (c.qPush n e).cur = c.cur := rfl
@[simp] theorem Core.qPush_pre (c : Core) (n : Nat) (e : QEntry) : (c.qPush n e).pre = c.pre := rfl
@[simp] theorem Core.qPush_sarr (c : Core) (n : Nat) (e : QEntry) : (c.qPush n e).sarr = c.sarr := rfl
@[simp] theorem Core.qPush_sarrAt (c : Core) (n : Nat) (e : QEntry) : (c.qPush n e).sarrAt = c.sarrAt := rfl
@[simp] theorem Core.qPush_sgen (c : Core) (n : Nat) (e : QEntry) : (c.qPush n e).sgen = c.sgen := rfl
@[simp] theorem Core.qPush_sav30 (c : Core) (n : Nat) (e : QEntry) : (c.qPush n e).sav30 = c.sav30 := rfl
@[simp] theorem Core.qPush_sav31 (c : Core) (n : Nat) (e : QEntry) : (c.qPush n e).sav31 = c.sav31 := rfl
@[simp] theorem Core.qPush_stopAt (c : Core) (n : Nat) (e : QEntry) : (c.qPush n e).stopAt = c.stopAt := rfl
@[simp] theorem Core.qPush_saving (c : Core) (n : Nat) (e : QEntry) : (c.qPush n e).saving = c.saving := rfl
@[simp] theorem Core.qPush_saveSlot (c : Core) (n : Nat) (e : QEntry) : (c.qPush n e).saveSlot = c.saveSlot := rfl
@[simp] theorem Core.qPush_sem (c : Core) (n : Nat) (e : QEntry) : (c.qPush n e).sem = c.sem := rfl
@[simp] theorem Core.qPush_semOvf (c : Core) (n : Nat) (e : QEntry) : (c.qPush n e).semOvf = c.semOvf := rfl
@[simp] theorem Core.qPush_semAct (c : Core) (n : Nat) (e : QEntry) : (c.qPush n e).semAct = c.semAct := rfl
@[simp] theorem Core.qPush_seen (c : Core) (n : Nat) (e : QEntry) : (c.qPush n e).seen = c.seen := rfl
@[simp] theorem Core.qPush_semSeen (c : Core) (n : Nat) (e : QEntry) : (c.qPush n e).semSeen = c.semSeen := rfl
@[simp] theorem Core.qPush_feet (c : Core) (n : Nat) (e : QEntry) : (c.qPush n e).feet = c.feet := rfl
@[simp] theorem Core.qPush_owed (c : Core) (n : Nat) (e : QEntry) : (c.qPush n e).owed = c.owed := rfl
@[simp] theorem Core.qPush_marks (c : Core) (n : Nat) (e : QEntry) : (c.qPush n e).marks = c.marks := rfl
@[simp] theorem Core.qPush_phase (c : Core) (n : Nat) (e : QEntry) : (c.qPush n e).phase = c.phase := rfl
@[simp] theorem Core.qPush_aborts (c : Core) (n : Nat) (e : QEntry) : (c.qPush n e).aborts = c.aborts := rfl
@[simp] theorem Core.qPush_last (c : Core) (n : Nat) (e : QEntry) : (c.qPush n e).last = c.last := rfl
@[simp] theorem Core.qPush_erun (c : Core) (n : Nat) (e : QEntry) : (c.qPush n e).erun = c.erun := rfl
@[simp] theorem Core.qPush_abort (c : Core) (n : Nat) (e : QEntry) : (c.qPush n e).abort = c.abort := rfl
@[simp] theorem Core.qPush_dead (c : Core) (n : Nat) (e : QEntry) : (c.qPush n e).dead = c.dead := rfl
@[simp] theorem Core.qPush_recast (c : Core) (n : Nat) (e : QEntry) : (c.qPush n e).recast = c.recast := rfl
@[simp] theorem Core.qPush_gone (c : Core) (n : Nat) (e : QEntry) : (c.qPush n e).gone = c.gone := rfl
@[simp] theorem Core.qPush_tlbInv (c : Core) (n : Nat) (e : QEntry) : (c.qPush n e).tlbInv = c.tlbInv := rfl
@[simp] theorem Core.qPush_fab (c : Core) (n : Nat) (e : QEntry) : (c.qPush n e).fab = c.fab := rfl
@[simp] theorem Core.qPush_credits (c : Core) (n : Nat) (e : QEntry) : (c.qPush n e).credits = c.credits := rfl
@[simp] theorem Core.qPush_sent (c : Core) (n : Nat) (e : QEntry) : (c.qPush n e).sent = c.sent := rfl
@[simp] theorem Core.qPush_reply (c : Core) (n : Nat) (e : QEntry) : (c.qPush n e).reply = c.reply := rfl
@[simp] theorem Core.qPush_put (c : Core) (n : Nat) (e : QEntry) : (c.qPush n e).put = c.put := rfl
@[simp] theorem Core.qPush_full (c : Core) (n : Nat) (e : QEntry) : (c.qPush n e).full = c.full := rfl
@[simp] theorem Core.qPush_lanePsn (c : Core) (n : Nat) (e : QEntry) : (c.qPush n e).lanePsn = c.lanePsn := rfl
@[simp] theorem Core.qPush_roleDef (c : Core) (n : Nat) (e : QEntry) : (c.qPush n e).roleDef = c.roleDef := rfl
@[simp] theorem Core.qPush_roles (c : Core) (n : Nat) (e : QEntry) : (c.qPush n e).roles = c.roles := rfl
@[simp] theorem Core.qPush_tlb (c : Core) (n : Nat) (e : QEntry) : (c.qPush n e).tlb = c.tlb := rfl
@[simp] theorem Core.qPush_stamp (c : Core) (n : Nat) (e : QEntry) : (c.qPush n e).stamp = c.stamp := rfl

/-! Core.wqPop -/

@[simp] theorem Core.wqPop_job (c : Core) (n now : Nat) : (c.wqPop n now).job = c.job := rfl
@[simp] theorem Core.wqPop_grant (c : Core) (n now : Nat) : (c.wqPop n now).grant = c.grant := rfl
@[simp] theorem Core.wqPop_prev (c : Core) (n now : Nat) : (c.wqPop n now).prev = c.prev := rfl
@[simp] theorem Core.wqPop_c (c : Core) (n now : Nat) : (c.wqPop n now).c = c.c := rfl
@[simp] theorem Core.wqPop_a (c : Core) (n now : Nat) : (c.wqPop n now).a = c.a := rfl
@[simp] theorem Core.wqPop_v (c : Core) (n now : Nat) : (c.wqPop n now).v = c.v := rfl
@[simp] theorem Core.wqPop_m (c : Core) (n now : Nat) : (c.wqPop n now).m = c.m := rfl
@[simp] theorem Core.wqPop_q (c : Core) (n now : Nat) : (c.wqPop n now).q = c.q := rfl
@[simp] theorem Core.wqPop_limit (c : Core) (n now : Nat) : (c.wqPop n now).limit = c.limit := rfl
@[simp] theorem Core.wqPop_pend (c : Core) (n now : Nat) : (c.wqPop n now).pend = c.pend := rfl
@[simp] theorem Core.wqPop_inh (c : Core) (n now : Nat) : (c.wqPop n now).inh = c.inh := rfl
@[simp] theorem Core.wqPop_cur (c : Core) (n now : Nat) : (c.wqPop n now).cur = c.cur := rfl
@[simp] theorem Core.wqPop_pre (c : Core) (n now : Nat) : (c.wqPop n now).pre = c.pre := rfl
@[simp] theorem Core.wqPop_sarr (c : Core) (n now : Nat) : (c.wqPop n now).sarr = c.sarr := rfl
@[simp] theorem Core.wqPop_sarrAt (c : Core) (n now : Nat) : (c.wqPop n now).sarrAt = c.sarrAt := rfl
@[simp] theorem Core.wqPop_sgen (c : Core) (n now : Nat) : (c.wqPop n now).sgen = c.sgen := rfl
@[simp] theorem Core.wqPop_sav30 (c : Core) (n now : Nat) : (c.wqPop n now).sav30 = c.sav30 := rfl
@[simp] theorem Core.wqPop_sav31 (c : Core) (n now : Nat) : (c.wqPop n now).sav31 = c.sav31 := rfl
@[simp] theorem Core.wqPop_stopAt (c : Core) (n now : Nat) : (c.wqPop n now).stopAt = c.stopAt := rfl
@[simp] theorem Core.wqPop_saving (c : Core) (n now : Nat) : (c.wqPop n now).saving = c.saving := rfl
@[simp] theorem Core.wqPop_saveSlot (c : Core) (n now : Nat) : (c.wqPop n now).saveSlot = c.saveSlot := rfl
@[simp] theorem Core.wqPop_sem (c : Core) (n now : Nat) : (c.wqPop n now).sem = c.sem := rfl
@[simp] theorem Core.wqPop_semOvf (c : Core) (n now : Nat) : (c.wqPop n now).semOvf = c.semOvf := rfl
@[simp] theorem Core.wqPop_semAct (c : Core) (n now : Nat) : (c.wqPop n now).semAct = c.semAct := rfl
@[simp] theorem Core.wqPop_semSeen (c : Core) (n now : Nat) : (c.wqPop n now).semSeen = c.semSeen := rfl
@[simp] theorem Core.wqPop_feet (c : Core) (n now : Nat) : (c.wqPop n now).feet = c.feet := rfl
@[simp] theorem Core.wqPop_owed (c : Core) (n now : Nat) : (c.wqPop n now).owed = c.owed := rfl
@[simp] theorem Core.wqPop_marks (c : Core) (n now : Nat) : (c.wqPop n now).marks = c.marks := rfl
@[simp] theorem Core.wqPop_phase (c : Core) (n now : Nat) : (c.wqPop n now).phase = c.phase := rfl
@[simp] theorem Core.wqPop_aborts (c : Core) (n now : Nat) : (c.wqPop n now).aborts = c.aborts := rfl
@[simp] theorem Core.wqPop_last (c : Core) (n now : Nat) : (c.wqPop n now).last = c.last := rfl
@[simp] theorem Core.wqPop_erun (c : Core) (n now : Nat) : (c.wqPop n now).erun = c.erun := rfl
@[simp] theorem Core.wqPop_abort (c : Core) (n now : Nat) : (c.wqPop n now).abort = c.abort := rfl
@[simp] theorem Core.wqPop_dead (c : Core) (n now : Nat) : (c.wqPop n now).dead = c.dead := rfl
@[simp] theorem Core.wqPop_recast (c : Core) (n now : Nat) : (c.wqPop n now).recast = c.recast := rfl
@[simp] theorem Core.wqPop_gone (c : Core) (n now : Nat) : (c.wqPop n now).gone = c.gone := rfl
@[simp] theorem Core.wqPop_tlbInv (c : Core) (n now : Nat) : (c.wqPop n now).tlbInv = c.tlbInv := rfl
@[simp] theorem Core.wqPop_fab (c : Core) (n now : Nat) : (c.wqPop n now).fab = c.fab := rfl
@[simp] theorem Core.wqPop_credits (c : Core) (n now : Nat) : (c.wqPop n now).credits = c.credits := rfl
@[simp] theorem Core.wqPop_sent (c : Core) (n now : Nat) : (c.wqPop n now).sent = c.sent := rfl
@[simp] theorem Core.wqPop_reply (c : Core) (n now : Nat) : (c.wqPop n now).reply = c.reply := rfl
@[simp] theorem Core.wqPop_put (c : Core) (n now : Nat) : (c.wqPop n now).put = c.put := rfl
@[simp] theorem Core.wqPop_full (c : Core) (n now : Nat) : (c.wqPop n now).full = c.full := rfl
@[simp] theorem Core.wqPop_lanePsn (c : Core) (n now : Nat) : (c.wqPop n now).lanePsn = c.lanePsn := rfl
@[simp] theorem Core.wqPop_roleDef (c : Core) (n now : Nat) : (c.wqPop n now).roleDef = c.roleDef := rfl
@[simp] theorem Core.wqPop_roles (c : Core) (n now : Nat) : (c.wqPop n now).roles = c.roles := rfl
@[simp] theorem Core.wqPop_tlb (c : Core) (n now : Nat) : (c.wqPop n now).tlb = c.tlb := rfl
@[simp] theorem Core.wqPop_stamp (c : Core) (n now : Nat) : (c.wqPop n now).stamp = c.stamp := rfl

/-! Core.wqPush -/

@[simp] theorem Core.wqPush_job (c : Core) (n : Nat) (e : WEntry) : (c.wqPush n e).job = c.job := rfl
@[simp] theorem Core.wqPush_grant (c : Core) (n : Nat) (e : WEntry) : (c.wqPush n e).grant = c.grant := rfl
@[simp] theorem Core.wqPush_prev (c : Core) (n : Nat) (e : WEntry) : (c.wqPush n e).prev = c.prev := rfl
@[simp] theorem Core.wqPush_c (c : Core) (n : Nat) (e : WEntry) : (c.wqPush n e).c = c.c := rfl
@[simp] theorem Core.wqPush_a (c : Core) (n : Nat) (e : WEntry) : (c.wqPush n e).a = c.a := rfl
@[simp] theorem Core.wqPush_v (c : Core) (n : Nat) (e : WEntry) : (c.wqPush n e).v = c.v := rfl
@[simp] theorem Core.wqPush_m (c : Core) (n : Nat) (e : WEntry) : (c.wqPush n e).m = c.m := rfl
@[simp] theorem Core.wqPush_q (c : Core) (n : Nat) (e : WEntry) : (c.wqPush n e).q = c.q := rfl
@[simp] theorem Core.wqPush_limit (c : Core) (n : Nat) (e : WEntry) : (c.wqPush n e).limit = c.limit := rfl
@[simp] theorem Core.wqPush_pend (c : Core) (n : Nat) (e : WEntry) : (c.wqPush n e).pend = c.pend := rfl
@[simp] theorem Core.wqPush_inh (c : Core) (n : Nat) (e : WEntry) : (c.wqPush n e).inh = c.inh := rfl
@[simp] theorem Core.wqPush_cur (c : Core) (n : Nat) (e : WEntry) : (c.wqPush n e).cur = c.cur := rfl
@[simp] theorem Core.wqPush_pre (c : Core) (n : Nat) (e : WEntry) : (c.wqPush n e).pre = c.pre := rfl
@[simp] theorem Core.wqPush_sarr (c : Core) (n : Nat) (e : WEntry) : (c.wqPush n e).sarr = c.sarr := rfl
@[simp] theorem Core.wqPush_sarrAt (c : Core) (n : Nat) (e : WEntry) : (c.wqPush n e).sarrAt = c.sarrAt := rfl
@[simp] theorem Core.wqPush_sgen (c : Core) (n : Nat) (e : WEntry) : (c.wqPush n e).sgen = c.sgen := rfl
@[simp] theorem Core.wqPush_sav30 (c : Core) (n : Nat) (e : WEntry) : (c.wqPush n e).sav30 = c.sav30 := rfl
@[simp] theorem Core.wqPush_sav31 (c : Core) (n : Nat) (e : WEntry) : (c.wqPush n e).sav31 = c.sav31 := rfl
@[simp] theorem Core.wqPush_stopAt (c : Core) (n : Nat) (e : WEntry) : (c.wqPush n e).stopAt = c.stopAt := rfl
@[simp] theorem Core.wqPush_saving (c : Core) (n : Nat) (e : WEntry) : (c.wqPush n e).saving = c.saving := rfl
@[simp] theorem Core.wqPush_saveSlot (c : Core) (n : Nat) (e : WEntry) : (c.wqPush n e).saveSlot = c.saveSlot := rfl
@[simp] theorem Core.wqPush_sem (c : Core) (n : Nat) (e : WEntry) : (c.wqPush n e).sem = c.sem := rfl
@[simp] theorem Core.wqPush_semOvf (c : Core) (n : Nat) (e : WEntry) : (c.wqPush n e).semOvf = c.semOvf := rfl
@[simp] theorem Core.wqPush_semAct (c : Core) (n : Nat) (e : WEntry) : (c.wqPush n e).semAct = c.semAct := rfl
@[simp] theorem Core.wqPush_seen (c : Core) (n : Nat) (e : WEntry) : (c.wqPush n e).seen = c.seen := rfl
@[simp] theorem Core.wqPush_semSeen (c : Core) (n : Nat) (e : WEntry) : (c.wqPush n e).semSeen = c.semSeen := rfl
@[simp] theorem Core.wqPush_feet (c : Core) (n : Nat) (e : WEntry) : (c.wqPush n e).feet = c.feet := rfl
@[simp] theorem Core.wqPush_owed (c : Core) (n : Nat) (e : WEntry) : (c.wqPush n e).owed = c.owed := rfl
@[simp] theorem Core.wqPush_marks (c : Core) (n : Nat) (e : WEntry) : (c.wqPush n e).marks = c.marks := rfl
@[simp] theorem Core.wqPush_phase (c : Core) (n : Nat) (e : WEntry) : (c.wqPush n e).phase = c.phase := rfl
@[simp] theorem Core.wqPush_aborts (c : Core) (n : Nat) (e : WEntry) : (c.wqPush n e).aborts = c.aborts := rfl
@[simp] theorem Core.wqPush_last (c : Core) (n : Nat) (e : WEntry) : (c.wqPush n e).last = c.last := rfl
@[simp] theorem Core.wqPush_erun (c : Core) (n : Nat) (e : WEntry) : (c.wqPush n e).erun = c.erun := rfl
@[simp] theorem Core.wqPush_abort (c : Core) (n : Nat) (e : WEntry) : (c.wqPush n e).abort = c.abort := rfl
@[simp] theorem Core.wqPush_dead (c : Core) (n : Nat) (e : WEntry) : (c.wqPush n e).dead = c.dead := rfl
@[simp] theorem Core.wqPush_recast (c : Core) (n : Nat) (e : WEntry) : (c.wqPush n e).recast = c.recast := rfl
@[simp] theorem Core.wqPush_gone (c : Core) (n : Nat) (e : WEntry) : (c.wqPush n e).gone = c.gone := rfl
@[simp] theorem Core.wqPush_tlbInv (c : Core) (n : Nat) (e : WEntry) : (c.wqPush n e).tlbInv = c.tlbInv := rfl
@[simp] theorem Core.wqPush_fab (c : Core) (n : Nat) (e : WEntry) : (c.wqPush n e).fab = c.fab := rfl
@[simp] theorem Core.wqPush_credits (c : Core) (n : Nat) (e : WEntry) : (c.wqPush n e).credits = c.credits := rfl
@[simp] theorem Core.wqPush_sent (c : Core) (n : Nat) (e : WEntry) : (c.wqPush n e).sent = c.sent := rfl
@[simp] theorem Core.wqPush_reply (c : Core) (n : Nat) (e : WEntry) : (c.wqPush n e).reply = c.reply := rfl
@[simp] theorem Core.wqPush_put (c : Core) (n : Nat) (e : WEntry) : (c.wqPush n e).put = c.put := rfl
@[simp] theorem Core.wqPush_full (c : Core) (n : Nat) (e : WEntry) : (c.wqPush n e).full = c.full := rfl
@[simp] theorem Core.wqPush_lanePsn (c : Core) (n : Nat) (e : WEntry) : (c.wqPush n e).lanePsn = c.lanePsn := rfl
@[simp] theorem Core.wqPush_roleDef (c : Core) (n : Nat) (e : WEntry) : (c.wqPush n e).roleDef = c.roleDef := rfl
@[simp] theorem Core.wqPush_roles (c : Core) (n : Nat) (e : WEntry) : (c.wqPush n e).roles = c.roles := rfl
@[simp] theorem Core.wqPush_tlb (c : Core) (n : Nat) (e : WEntry) : (c.wqPush n e).tlb = c.tlb := rfl
@[simp] theorem Core.wqPush_stamp (c : Core) (n : Nat) (e : WEntry) : (c.wqPush n e).stamp = c.stamp := rfl

end Sys2Proof.Machine
end

