-- ==== Sys2Proof/Laws/Tables.lean ====
section
/-!
SUPPORT. The laws of sparse tables: what a read after a write gives, and that every operation keeps the canonical form.
-/
namespace Sys2Proof.Machine

variable {α : Type}

@[simp] theorem tget_nil (d : α) (k : Nat) : tget d [] k = d := rfl
theorem tget_cons (d : α) (e : Nat × α) (t : Tbl α) (k : Nat) : tget d (e :: t) k = if k = e.1 then e.2 else tget d t k := rfl

/-! Deleting and inserting, on any list. -/

theorem tget_tdel (d : α) (t : Tbl α) (k j : Nat) : tget d (tdel t k) j = if j = k then d else tget d t j := by
  induction t with
  | nil => simp [tdel, tget]
  | cons e t ih =>
    obtain ⟨k', v⟩ := e
    by_cases h : k = k'
    · by_cases hj : j = k <;> simp_all [tdel, tget]
    · by_cases hj : j = k' <;> by_cases hjk : j = k <;> simp_all [tdel, tget]

theorem tget_tins (d : α) (t : Tbl α) (k : Nat) (v : α) (j : Nat) (h : j = k → ∀ e ∈ t, e.1 ≠ k) :
    tget d (tins t k v) j = if j = k then v else tget d t j := by
  induction t with
  | nil => simp [tins, tget]
  | cons e t ih =>
    obtain ⟨k', v'⟩ := e
    have ih' := ih fun hj x hx => h hj x (List.mem_cons_of_mem _ hx)
    simp only [tins]
    split
    · simp [tget]
    · by_cases hj : j = k'
      · by_cases hk : j = k
        · exact absurd (hj.symm.trans hk) (h hk _ List.mem_cons_self)
        · simp_all [tget]
      · simp_all [tget]

theorem mem_tdel {t : Tbl α} {k : Nat} {e : Nat × α} (h : e ∈ tdel t k) : e ∈ t ∧ e.1 ≠ k := by
  induction t with
  | nil => simp [tdel] at h
  | cons e' t ih =>
    obtain ⟨k', v⟩ := e'
    simp only [tdel] at h
    split at h
    · exact ⟨List.mem_cons_of_mem _ (ih h).1, (ih h).2⟩
    · rcases List.mem_cons.1 h with rfl | h
      · exact ⟨List.mem_cons_self, fun hk => by simp_all⟩
      · exact ⟨List.mem_cons_of_mem _ (ih h).1, (ih h).2⟩

/-- What a read gives after a write: the value at its key, elsewhere what it gave before. -/
theorem tget_tset [DecidableEq α] (d : α) (t : Tbl α) (k : Nat) (v : α) (j : Nat) :
    tget d (tset d t k v) j = if j = k then v else tget d t j := by
  simp only [tset]
  split
  · rename_i h; simp [tget_tdel, h]
  · rw [tget_tins _ _ _ _ _ fun _ e he => (mem_tdel he).2, tget_tdel]; split <;> rfl

@[simp] theorem tget_tset_same [DecidableEq α] (d : α) (t : Tbl α) (k : Nat) (v : α) : tget d (tset d t k v) k = v := by
  simp [tget_tset]
theorem tget_tset_ne [DecidableEq α] (d : α) (t : Tbl α) (k : Nat) (v : α) {j : Nat} (h : j ≠ k) :
    tget d (tset d t k v) j = tget d t j := by simp [tget_tset, h]

/-! The canonical form. -/

theorem tabove_tdel (n : Nat) (t : Tbl α) (k : Nat) (h : tabove n t = true) : tabove n (tdel t k) = true := by
  induction t with
  | nil => rfl
  | cons e t ih =>
    simp only [tabove, Bool.and_eq_true, decide_eq_true_eq] at h
    simp only [tdel]
    split
    · exact ih h.2
    · simp [tabove, h.1, ih h.2]

theorem tabove_tins (n : Nat) (t : Tbl α) (k : Nat) (v : α) (hk : n < k) (h : tabove n t = true) :
    tabove n (tins t k v) = true := by
  induction t with
  | nil => simp [tins, tabove, hk]
  | cons e t ih =>
    have h' := h
    simp only [tabove, Bool.and_eq_true, decide_eq_true_eq] at h
    simp only [tins]
    split
    · simp [tabove, hk, h.1, h.2]
    · simp [tabove, h.1, ih h.2]

theorem tabove_le {n m : Nat} (t : Tbl α) (hm : m ≤ n) (h : tabove n t = true) : tabove m t = true := by
  induction t with
  | nil => rfl
  | cons e t ih =>
    simp only [tabove, Bool.and_eq_true, decide_eq_true_eq] at h ⊢
    exact ⟨by omega, ih h.2⟩

theorem twf_tdel [DecidableEq α] (d : α) (t : Tbl α) (k : Nat) (h : twf d t = true) : twf d (tdel t k) = true := by
  induction t with
  | nil => rfl
  | cons e t ih =>
    simp only [twf, Bool.and_eq_true, decide_eq_true_eq] at h
    simp only [tdel]
    split
    · exact ih h.2
    · simp [twf, h.1.1, tabove_tdel _ _ _ h.1.2, ih h.2]

theorem twf_tins [DecidableEq α] (d : α) (t : Tbl α) (k : Nat) (v : α) (hv : v ≠ d) (hk : ∀ e ∈ t, e.1 ≠ k)
    (h : twf d t = true) : twf d (tins t k v) = true := by
  induction t with
  | nil => simp [tins, twf, tabove, hv]
  | cons e t ih =>
    have hw := h
    simp only [twf, Bool.and_eq_true, decide_eq_true_eq] at h
    simp only [tins]
    split
    · rename_i hlt
      rw [twf, hw]
      simp [tabove, hv, hlt, tabove_le t (Nat.le_of_lt hlt) h.1.2]
    · have : e.1 < k := by have := hk e List.mem_cons_self; omega
      simp only [twf, Bool.and_eq_true, decide_eq_true_eq]
      exact ⟨⟨h.1.1, tabove_tins _ _ _ _ this h.1.2⟩, ih (fun x hx => hk x (List.mem_cons_of_mem _ hx)) h.2⟩

/-- A write keeps the canonical form. -/
theorem twf_tset [DecidableEq α] (d : α) (t : Tbl α) (k : Nat) (v : α) (h : twf d t = true) : twf d (tset d t k v) = true := by
  simp only [tset]
  split
  · exact twf_tdel _ _ _ h
  · rename_i hv
    exact twf_tins _ _ _ _ hv (fun _ he => (mem_tdel he).2) (twf_tdel _ _ _ h)

theorem tabove_filter (n : Nat) (t : Tbl α) (p : Nat × α → Bool) (h : tabove n t = true) : tabove n (t.filter p) = true := by
  induction t with
  | nil => rfl
  | cons e t ih =>
    simp only [tabove, Bool.and_eq_true, decide_eq_true_eq] at h
    simp only [List.filter_cons]
    split
    · simp [tabove, h.1, ih h.2]
    · exact ih h.2

/-- Leaving entries out keeps the canonical form. -/
theorem twf_filter [DecidableEq α] (d : α) (t : Tbl α) (p : Nat × α → Bool) (h : twf d t = true) : twf d (t.filter p) = true := by
  induction t with
  | nil => rfl
  | cons e t ih =>
    simp only [twf, Bool.and_eq_true, decide_eq_true_eq] at h
    simp only [List.filter_cons]
    split
    · simp [twf, h.1.1, tabove_filter _ _ _ h.1.2, ih h.2]
    · exact ih h.2

theorem twf_tclear [DecidableEq α] (d : α) (t : Tbl α) (lo hi : Nat) (h : twf d t = true) : twf d (tclear t lo hi) = true :=
  twf_filter d t _ h

theorem twf_tfill [DecidableEq α] (d : α) (v : α) (n : Nat) (t : Tbl α) (k : Nat) (h : twf d t = true) :
    twf d (tfill d t k v n) = true := by
  induction n generalizing t k with
  | zero => exact h
  | succ n ih => exact ih _ _ (twf_tset _ _ _ _ h)

theorem tget_of_tabove (d : α) (t : Tbl α) (k : Nat) (h : tabove k t = true) : tget d t k = d := by
  induction t with
  | nil => rfl
  | cons e t ih =>
    simp only [tabove, Bool.and_eq_true, decide_eq_true_eq] at h
    simp [tget, ih h.2, Nat.ne_of_lt h.1]

/-- Tables in canonical form that read alike are equal. -/
theorem twf_ext [DecidableEq α] (d : α) (t u : Tbl α) (ht : twf d t = true) (hu : twf d u = true)
    (h : ∀ k, tget d t k = tget d u k) : t = u := by
  induction t generalizing u with
  | nil =>
    cases u with
    | nil => rfl
    | cons e u =>
      simp only [twf, Bool.and_eq_true, decide_eq_true_eq] at hu
      have := h e.1
      simp [tget] at this
      exact absurd this.symm hu.1.1
  | cons e t ih =>
    simp only [twf, Bool.and_eq_true, decide_eq_true_eq] at ht
    cases u with
    | nil =>
      have := h e.1
      simp [tget] at this
      exact absurd this ht.1.1
    | cons e' u =>
      simp only [twf, Bool.and_eq_true, decide_eq_true_eq] at hu
      obtain ⟨k, v⟩ := e
      obtain ⟨k', v'⟩ := e'
      have hk : k = k' := by
        rcases Nat.lt_trichotomy k k' with hlt | heq | hlt
        · have := h k
          simp only [tget, if_true] at this
          rw [if_neg (Nat.ne_of_lt hlt), tget_of_tabove d u k (tabove_le u (Nat.le_of_lt hlt) hu.1.2)] at this
          exact absurd this ht.1.1
        · exact heq
        · have := h k'
          simp only [tget, if_true] at this
          rw [if_neg (Nat.ne_of_lt hlt), tget_of_tabove d t k' (tabove_le t (Nat.le_of_lt hlt) ht.1.2)] at this
          exact absurd this.symm hu.1.1
      subst hk
      have hv : v = v' := by have := h k; simpa [tget] using this
      subst hv
      have : t = u := by
        refine ih u ht.2 hu.2 fun j => ?_
        by_cases hj : j = k
        · subst hj; rw [tget_of_tabove d t j ht.1.2, tget_of_tabove d u j hu.1.2]
        · have := h j; simpa [tget, hj] using this
      rw [this]

end Sys2Proof.Machine
end

