-- ==== Sys2Proof/Laws/Cores.lean ====
section
/-!
SUPPORT. Reading a core, a context, a package, a stream or a register after a write, and what the shared operations of a word do.
-/
namespace Sys2Proof.Machine
open Sys2Proof

/-! Cores, contexts, packages. -/

theorem tdel_tins {α : Type} (t : Tbl α) (k : Nat) (v : α) (h : ∀ e ∈ t, e.1 ≠ k) : tdel (tins t k v) k = t := by
  induction t with
  | nil => simp [tins, tdel]
  | cons e t ih =>
    have he : e.1 ≠ k := h e List.mem_cons_self
    have ht : ∀ x ∈ t, x.1 ≠ k := fun x hx => h x (List.mem_cons_of_mem _ hx)
    have hd : tdel t k = t := by
      clear ih h
      induction t with
      | nil => rfl
      | cons x t ih => simp [tdel, Ne.symm (ht x List.mem_cons_self), ih fun y hy => ht y (List.mem_cons_of_mem _ hy)]
    simp only [tins]
    split
    · simp [tdel, Ne.symm he, hd]
    · simp [tdel, Ne.symm he, ih ht]

theorem tdel_of_absent {α : Type} (t : Tbl α) (k : Nat) (h : ∀ e ∈ t, e.1 ≠ k) : tdel t k = t := by
  induction t with
  | nil => rfl
  | cons x t ih => simp [tdel, Ne.symm (h x List.mem_cons_self), ih fun y hy => h y (List.mem_cons_of_mem _ hy)]

/-- A second write to a key replaces the first. -/
@[simp] theorem tset_tset {α : Type} [DecidableEq α] (d : α) (t : Tbl α) (k : Nat) (v w : α) :
    tset d (tset d t k v) k w = tset d t k w := by
  have h : tdel (tset d t k v) k = tdel t k := by
    simp only [tset]
    split
    · exact tdel_of_absent _ _ fun _ he => (mem_tdel he).2
    · exact tdel_tins _ _ _ fun _ he => (mem_tdel he).2
  simp only [tset] at h ⊢
  simp only [h]

theorem State.coreAt_setCoreAt (s : State) (k : Nat) (c : Core) (j : Nat) :
    (s.setCoreAt k c).coreAt j = if j = k then c else s.coreAt j := tget_tset _ _ _ _ _
@[simp] theorem State.coreAt_setCoreAt_same (s : State) (k : Nat) (c : Core) : (s.setCoreAt k c).coreAt k = c := by
  simp [coreAt_setCoreAt]
@[simp] theorem State.me_setMe (s : State) (c : Core) : (s.setMe c).me = c := by simp [State.me, State.setMe]
theorem State.coreAt_setMe (s : State) (c : Core) (j : Nat) : (s.setMe c).coreAt j = if j = s.cur then c else s.coreAt j :=
  tget_tset _ _ _ _ _
@[simp] theorem State.setMe_setMe (s : State) (c d : Core) : (s.setMe c).setMe d = s.setMe d := by
  simp [State.setMe, State.setCoreAt]
@[simp] theorem State.ctl_setCtl (s : State) (st : Str) (x : Stream) : (s.setCtl st x).ctl st = x := by
  cases st <;> simp [State.ctl, State.setCtl, Core.ctl, Core.setCtl]
@[simp] theorem Core.ctl_setCtl (c : Core) (st : Str) (x : Stream) : (c.setCtl st x).ctl st = x := by cases st <;> rfl
theorem Core.ctl_setCtl_ne (c : Core) {st su : Str} (x : Stream) (h : su ≠ st) : (c.setCtl st x).ctl su = c.ctl su := by
  cases st <;> cases su <;> first | rfl | exact absurd rfl h
theorem State.ctxAt_setCtxAt (s : State) (k : Nat) (x : Ctx) (j : Nat) :
    (s.setCtxAt k x).ctxAt j = if j = k then x else s.ctxAt j := tget_tset _ _ _ _ _
theorem State.pkgAt_setPkgAt (s : State) (k : Nat) (p : Pkg) (j : Nat) :
    (s.setPkgAt k p).pkgAt j = if j = k then p else s.pkgAt j := tget_tset _ _ _ _ _

/-- A write of the acting core changes no other core and nothing outside the cores. -/
theorem State.setMe_frame (s : State) (c : Core) :
    { s.setMe c with cores := s.cores } = s ∧ ∀ k, k ≠ s.cur → (s.setMe c).coreAt k = s.coreAt k :=
  ⟨rfl, fun _ h => by simp [State.coreAt_setMe, h]⟩

/-! Registers: a write to g0 is discarded, and g0 reads 0 (06 R130). -/

theorem regGet_regSet (t : Tbl W64) (r : Nat) (x : W64) (j : Nat) :
    regGet (regSet t r x) j = if j = r ∧ r ≠ 0 then x else regGet t j := by
  by_cases hj : j = 0
  · subst hj; simp [regGet]; intro h; subst h; simp
  · by_cases hr : r = 0
    · simp [regGet, regSet, hr]
    · simp [regGet, regSet, hj, hr, tget_tset]

@[simp] theorem State.cg_zero (s : State) : s.cg 0 = 0 := rfl
theorem State.cg_setCg (s : State) (r : Nat) (x : W64) (j : Nat) :
    (s.setCg r x).cg j = if j = r ∧ r ≠ 0 then x else s.cg j := by
  simp [State.cg, State.setCg, Core.cg, Core.setCg, regGet_regSet]
@[simp] theorem State.setCg_zero_cg (s : State) (x : W64) (j : Nat) : (s.setCg 0 x).cg j = s.cg j := by simp [State.cg_setCg]
theorem Core.areg_setAreg (c : Core) (r : Nat) (x : W64) (j : Nat) :
    (c.setAreg r x).areg j = if j = r ∧ r ≠ 16 then x else c.areg j := by
  by_cases hr : r < 16 <;> by_cases hj : j < 16 <;> simp only [Core.setAreg, Core.areg, hr, hj, if_true, if_false]
  · by_cases h : j = r <;> simp [tget_tset, h]; omega
  · rw [if_neg]; omega
  · rw [if_neg]; omega
  · rw [regGet_regSet]
    by_cases h : j = r
    · subst h; by_cases h16 : j = 16
      · subst h16; simp
      · rw [if_pos, if_pos] <;> constructor <;> first | rfl | omega
    · rw [if_neg, if_neg] <;> omega

/-! Going on and waiting. -/

@[simp] theorem State.jump_pc (s : State) (st : Str) (t : W64) : ((s.jump st t).ctl st).pc = t := by simp [State.jump]
@[simp] theorem State.advance_pc (s : State) (st : Str) :
    ((s.advance st).ctl st).pc = (s.ctl st).pc + BitVec.ofNat 64 st.wordBits := by simp [State.advance]
/-- A jump changes the counter and the wait of its stream and nothing else. -/
theorem State.jump_eq (s : State) (st : Str) (t : W64) :
    s.jump st t = s.setMe (s.me.setCtl st { s.ctl st with pc := t, wait := none }) := rfl
/-- A word that waits changes the wait of its stream, and the slot of the V stream under the scoreboard, on a walk or at a
rendezvous; nothing else of the machine. -/
theorem State.noteWait_cases (s : State) (st : Str) (k : WaitKind) : ∃ w : Waiting, w.kind = k ∧
    ((¬(st = .v ∧ (k = .free ∨ k = .rdv)) ∧ s.noteWait st k = s.setCtl st { s.ctl st with wait := some w }) ∨
    (st = .v ∧ (k = .free ∨ k = .rdv) ∧ s.noteWait st k =
      s.setMe { s.me with v := { s.me.v with ctl := { s.me.v.ctl with wait := some w }, slot := s.me.v.slot + 1 } })) := by
  let w : Waiting := .after (s.ctl st).wait ((s.ctl st).wait.filter (·.kind.goesOn k)) k s.now s.me.stamp
  refine ⟨w, rfl, ?_⟩
  · by_cases h : st = .v ∧ (k = .free ∨ k = .rdv)
    · refine .inr ⟨h.1, h.2, ?_⟩
      obtain ⟨rfl, hk⟩ := h
      simp [State.noteWait, hk, State.setCtl, Core.setCtl, State.ctl, Core.ctl, w] <;> rfl
    · exact .inl ⟨h, by simp only [State.noteWait, if_neg h]; rfl⟩
@[simp] theorem State.noteWait_mem (s : State) (st : Str) (k : WaitKind) : (s.noteWait st k).mem = s.mem := by
  simp only [State.noteWait]; split <;> rfl
@[simp] theorem State.noteWait_cur (s : State) (st : Str) (k : WaitKind) : (s.noteWait st k).cur = s.cur := by
  simp only [State.noteWait]; split <;> rfl

/-! Traps. -/

/-- Everything that taking a trap can do: an error abort begins; or the trap's registers are written, and in a handler of the C
stream the kill of the context is asked for as well. -/
theorem State.takeTrapAt_cases (s : State) (st : Str) (t : Trap) (pc : W64) :
    (t.cause = .poison ∧ s.me.phase.isSome = true ∧ s.me.erun.toNat < 2 ∧ s.takeTrapAt st t pc = s.setMe { s.me with
      abort := some { err := true, st := st, trap := some t, g5 := BitVec.allOnes 64 }, stopAt := some (s.me.stopAt.getD s.now) }) ∨
    (s.me.inh = true ∧ st = .c ∧ s.takeTrapAt st t pc =
      (s.setMe { s.me.recordTrap st t pc s.now with dead := true }).askKill s.myCtx t.cause.code) ∨
    (¬(s.me.inh = true ∧ st = .c) ∧ s.takeTrapAt st t pc = s.setMe (s.me.recordTrap st t pc s.now)) := by
  simp only [State.takeTrapAt, State.trapAt]
  split
  · rename_i h; exact .inl ⟨h.1, h.2.1, h.2.2.1, rfl⟩
  · split
    · rename_i h; exact .inr (.inl ⟨h.1, h.2, by simp⟩)
    · rename_i h; exact .inr (.inr ⟨h, rfl⟩)
@[simp] theorem State.askKill_mem (s : State) (k c : Nat) : (s.askKill k c).mem = s.mem := rfl
@[simp] theorem State.takeTrapAt_mem (s : State) (st : Str) (t : Trap) (pc : W64) : (s.takeTrapAt st t pc).mem = s.mem := by
  simp only [State.takeTrapAt, State.trapAt]; split
  · rfl
  · split <;> rfl
@[simp] theorem State.takeTrap_mem (s : State) (st : Str) (t : Trap) : (s.takeTrap st t).mem = s.mem := State.takeTrapAt_mem ..
@[simp] theorem State.takeTrapAt_cur (s : State) (st : Str) (t : Trap) (pc : W64) : (s.takeTrapAt st t pc).cur = s.cur := by
  simp only [State.takeTrapAt, State.trapAt]; split
  · rfl
  · split <;> rfl
@[simp] theorem State.askWalk_mem (s : State) (ck : Nat) (cl : Waiter) (va : Nat) : (s.askWalk ck cl va).mem = s.mem := by
  simp only [State.askWalk]; split
  · split <;> rfl
  · rfl
@[simp] theorem State.askWalk_cores (s : State) (ck : Nat) (cl : Waiter) (va : Nat) : (s.askWalk ck cl va).cores = s.cores := by
  simp only [State.askWalk]; split
  · split <;> rfl
  · rfl
@[simp] theorem State.askWalk_cur (s : State) (ck : Nat) (cl : Waiter) (va : Nat) : (s.askWalk ck cl va).cur = s.cur := by
  simp only [State.askWalk]; split
  · split <;> rfl
  · rfl

/-! The end of a word. -/

@[simp] theorem State.finish_ok (s t : State) (st : Str) : s.finish st (.ok t) = t := rfl
@[simp] theorem State.finish_trap (s : State) (st : Str) (t : Trap) : s.finish st (.error (.trap t)) = s.takeTrap st t := rfl
@[simp] theorem State.finish_wait (s : State) (st : Str) (k : WaitKind) : s.finish st (.error (.wait k)) = s.noteWait st k := rfl
@[simp] theorem State.finish_walk (s : State) (st : Str) (va : Nat) :
    s.finish st (.error (.walk va)) = (s.askWalk s.cur (.stream st) va).noteWait st .free := rfl
/-- Everything that a word can come to: the state it gives, its trap, its wait, or a wait for a page walk. -/
theorem State.finish_cases (s : State) (st : Str) (r : Except Stop State) :
    (∃ t, r = .ok t ∧ s.finish st r = t) ∨ (∃ t, r = .error (.trap t) ∧ s.finish st r = s.takeTrap st t) ∨
    (∃ k, r = .error (.wait k) ∧ s.finish st r = s.noteWait st k) ∨
    (∃ va, r = .error (.walk va) ∧ s.finish st r = (s.askWalk s.cur (.stream st) va).noteWait st .free) := by
  rcases r with e | t
  · cases e with
    | trap t => exact .inr (.inl ⟨t, rfl, rfl⟩)
    | wait k => exact .inr (.inr (.inl ⟨k, rfl, rfl⟩))
    | walk va => exact .inr (.inr (.inr ⟨va, rfl, rfl⟩))
  · exact .inl ⟨t, rfl, rfl⟩
/-- A word whose body keeps memory keeps memory. -/
theorem State.finish_mem (s : State) (st : Str) (r : Except Stop State) (h : ∀ t, r = .ok t → t.mem = s.mem) :
    (s.finish st r).mem = s.mem := by
  rcases s.finish_cases st r with ⟨t, ht, he⟩ | ⟨t, _, he⟩ | ⟨k, _, he⟩ | ⟨va, _, he⟩ <;> rw [he]
  · exact h t ht
  all_goals simp

/-! Tests. -/

@[simp] theorem need_true (e : Stop) : need true e = .ok () := rfl
@[simp] theorem need_false (e : Stop) : need false e = .error e := rfl
theorem need_ok {b : Bool} {e : Stop} : need b e = .ok () ↔ b = true := by cases b <;> simp [need]
theorem tests_ok (l : List (Bool × Stop)) : tests l = .ok () ↔ ∀ x ∈ l, x.1 = true := by
  induction l with
  | nil => simp [tests]
  | cons x l ih => obtain ⟨b, e⟩ := x; cases b <;> simp [tests, ih]
/-- The first test that fails names the stop. -/
theorem tests_error (l : List (Bool × Stop)) (e : Stop) (h : tests l = .error e) : ∃ x ∈ l, x.1 = false ∧ x.2 = e := by
  induction l with
  | nil => simp [tests] at h
  | cons x l ih =>
    obtain ⟨b, e'⟩ := x
    cases b
    · simp only [tests, Bool.false_eq_true, if_false, Except.error.injEq] at h
      exact ⟨_, List.mem_cons_self, rfl, h⟩
    · obtain ⟨y, hy, h1⟩ := ih (by simpa [tests] using h)
      exact ⟨y, List.mem_cons_of_mem _ hy, h1⟩

/-! Queues (06 R132 to R134). -/

theorem Core.queue_qPush (c : Core) (n : Nat) (e : QEntry) (m : Nat) :
    (c.qPush n e).queue m = if m = n then { c.queue n with ents := (c.queue n).ents ++ [{ e with seen := c.seenBy (qFrom n) }] } else c.queue m :=
  tget_tset _ _ _ _ _
theorem Core.queue_qPop (c : Core) (n now m : Nat) :
    (c.qPop n now).queue m = if m = n then
      { ents := (c.queue n).ents.drop 1, pops := now :: (c.queue n).pops.take 7 }
    else c.queue m := tget_tset _ _ _ _ _
theorem Core.wqueue_wqPush (c : Core) (n : Nat) (e : WEntry) (m : Nat) :
    (c.wqPush n e).wqueue m = if m = n then { c.wqueue n with ents := (c.wqueue n).ents ++ [{ e with seen := c.seenBy (wqFrom n) }] }
    else c.wqueue m :=
  tget_tset _ _ _ _ _
theorem Core.wqueue_wqPop (c : Core) (n now m : Nat) :
    (c.wqPop n now).wqueue m = if m = n then
      { ents := (c.wqueue n).ents.drop 1, pops := now :: (c.wqueue n).pops.take 3 }
    else c.wqueue m := tget_tset _ _ _ _ _
/-- Popping a list of queues leaves every other queue as it was, and of the core all else but what its stream has acquired. -/
theorem Core.qPops_frame (l : List Nat) (now : Nat) (c : Core) :
    (∀ m, m ∉ l → (l.foldl (fun c n => c.qPop n now) c).queue m = c.queue m) ∧
    { l.foldl (fun c n => c.qPop n now) c with q := c.q, seen := c.seen } = c := by
  induction l generalizing c with
  | nil => exact ⟨fun _ _ => rfl, rfl⟩
  | cons n l ih =>
    obtain ⟨h1, h2⟩ := ih (c.qPop n now)
    refine ⟨fun m hm => ?_, ?_⟩
    · simp only [List.mem_cons, not_or] at hm
      rw [List.foldl_cons, h1 m hm.2, Core.queue_qPop, if_neg hm.1]
    · rw [List.foldl_cons]
      generalize l.foldl (fun c n => c.qPop n now) (c.qPop n now) = d at h2
      have : { d with q := c.q, seen := c.seen } = { c.qPop n now with q := c.q, seen := c.seen } := by rw [← h2]
      rw [this]; rfl

/-- A C word's pops change only the queues that it names, and what the stream has acquired. -/
theorem State.cPop_frame (s : State) (pk : BitVec 1) (l : List Nat) :
    { s.cPop pk l with cores := s.cores } = s ∧ (∀ k, k ≠ s.cur → (s.cPop pk l).coreAt k = s.coreAt k) ∧
    (∀ m, m ∉ l → (s.cPop pk l).me.queue m = s.me.queue m) ∧ { (s.cPop pk l).me with q := s.me.q, seen := s.me.seen } = s.me := by
  simp only [State.cPop]
  split
  · exact ⟨rfl, fun _ _ => rfl, fun _ _ => rfl, rfl⟩
  · have h := Core.qPops_frame l s.now s.me
    refine ⟨rfl, fun k hk => by simp [State.coreAt_setMe, hk], fun m hm => ?_, ?_⟩
    · simpa using h.1 m hm
    · simpa using h.2

/-! C words. -/

theorem cWord_off (g : Guard) (body : State → Except Stop State) (s : State) (h : guardOn g s.cg = false) :
    cWord g body s = s.advance .c := by simp [cWord, h]
theorem cWord_on (g : Guard) (body : State → Except Stop State) (s : State) (h : guardOn g s.cg = true) :
    cWord g body s = s.finish .c (body s) := by simp [cWord, h]
/-- When the sources of a word are ready: each queue it pops holds an entry that is not poisoned (06 R129, 07 R190). -/
theorem State.cSources_ok (s : State) (src : List Nat) : s.cSources src = .ok () ↔
    ∀ n ∈ src, ∃ e, s.me.qHead n s.now = some e ∧ e.psn = false := by
  simp only [State.cSources, State.cClean, bind, Except.bind]
  constructor
  · intro h n hn
    split at h
    · simp at h
    · rename_i h1
      have a := (tests_ok _).1 h1 _ (List.mem_map.2 ⟨n, hn, rfl⟩)
      have b := (tests_ok _).1 h _ (List.mem_map.2 ⟨n, hn, rfl⟩)
      cases hq : s.me.qHead n s.now with
      | none => simp [hq] at b
      | some e => exact ⟨e, rfl, by simpa [hq] using a⟩
  · intro h
    have a : tests (src.map fun n => (!((s.me.qHead n s.now).map (·.psn)).getD false, tr .poison)) = .ok () := by
      rw [tests_ok]; intro x hx
      obtain ⟨n, hn, rfl⟩ := List.mem_map.1 hx
      obtain ⟨e, he, hp⟩ := h n hn; simp [he, hp]
    rw [a]; simp only; rw [tests_ok]; intro x hx
    obtain ⟨n, hn, rfl⟩ := List.mem_map.1 hx
    obtain ⟨e, he, _⟩ := h n hn; simp [he]
theorem State.cRoom_ok (s : State) (dst : List Nat) : s.cRoom dst = .ok () ↔ ∀ n ∈ dst, s.me.qFree n s.now = true := by
  simp [State.cRoom, tests_ok]
/-- Both together. -/
theorem State.cReady_split (s : State) (src dst : List Nat) : s.cReady src dst = .ok () ↔ s.cSources src = .ok () ∧ s.cRoom dst = .ok () := by
  simp only [State.cReady, bind, Except.bind]
  split <;> simp_all
/-- When a C word issues: each queue it pops holds an entry that is not poisoned, each that it pushes has room (06 R129, 07 R190). -/
theorem State.cReady_ok (s : State) (src dst : List Nat) : s.cReady src dst = .ok () ↔
    (∀ n ∈ src, ∃ e, s.me.qHead n s.now = some e ∧ e.psn = false) ∧ ∀ n ∈ dst, s.me.qFree n s.now = true := by
  rw [State.cReady_split, State.cSources_ok, State.cRoom_ok]
@[simp] theorem State.cReady_nil (s : State) : s.cReady [] [] = .ok () := rfl
@[simp] theorem State.cSources_nil (s : State) : s.cSources [] = .ok () := rfl
/-- A ready CR word whose function answers a value completes: pops, destination, next word. -/
theorem State.crForm_ok (s : State) (f : CrF) (ua ub ud : Bool) (op : W64 → W64 → Except Stop (W64 × State)) (x : W64) (s1 : State)
    (h : s.cReady (CrQ f ua ub) (if ud then qName f.qd f.rd else []) = .ok ())
    (ho : op (s.cSrc f.qa f.ra) (s.cSrc f.qb f.rb) = .ok (x, s1)) :
    s.crForm f ua ub ud op = .ok ((if ud then (s1.cPop f.pk (CrQ f ua ub)).cDst f.qd f.rd x else s1.cPop f.pk (CrQ f ua ub)).advance .c) := by
  obtain ⟨h1, h2⟩ := (State.cReady_split _ _ _).1 h
  simp [State.crForm, h1, h2, ho, bind, Except.bind]
/-- A CR word ends as its sources, its function or the room at its destination stop it, in this order (15 R332). -/
theorem State.crForm_stop (s : State) (f : CrF) (ua ub ud : Bool) (op : W64 → W64 → Except Stop (W64 × State)) (e : Stop)
    (h : s.cSources (CrQ f ua ub) = .error e ∨ (s.cSources (CrQ f ua ub) = .ok () ∧
      (op (s.cSrc f.qa f.ra) (s.cSrc f.qb f.rb) = .error e ∨ ((∃ x, op (s.cSrc f.qa f.ra) (s.cSrc f.qb f.rb) = .ok x) ∧
        s.cRoom (if ud then qName f.qd f.rd else []) = .error e)))) :
    s.crForm f ua ub ud op = .error e := by
  rcases h with h | ⟨h, ho | ⟨⟨x, ho⟩, hr⟩⟩
  · simp [State.crForm, h, bind, Except.bind]
  · simp [State.crForm, h, ho, bind, Except.bind]
  · simp [State.crForm, h, ho, hr, bind, Except.bind]

/-! A words. -/

theorem State.aReady_ok (s : State) (src dst : List Nat) : s.aReady src dst = .ok () ↔
    (∀ n ∈ src, ∃ e, s.me.qHead n s.now = some e ∧ e.psn = false) ∧ ∀ n ∈ dst, s.me.qFree n s.now = true :=
  State.cReady_ok s src dst
theorem aWord_free (b : Bool) (body : State → Except Stop State) (s : State) (h : s.me.a.ckpts = []) :
    aWord b body s = s.finish .a (body s) := by simp [aWord, Core.onPath, h]
theorem aWord_held (body : State → Except Stop State) (s : State) (h : s.me.a.ckpts ≠ []) :
    aWord false body s = s.noteWait .a .free := by
  have : s.me.onPath = true := by cases hc : s.me.a.ckpts with
    | nil => exact absurd hc h
    | cons => simp [Core.onPath, hc]
  simp [aWord, this]
/-- A word that a run-ahead path admits completes there as elsewhere. -/
theorem aWord_ok (body : State → Except Stop State) (s t : State) (h : body s = .ok t) : aWord true body s = t := by
  simp only [aWord, h, State.finish_ok]; split <;> rfl
theorem State.arForm_ok (s : State) (pk : BitVec 1) (ad : BitVec 5) (src : List (BitVec 5)) (ud : Bool)
    (op : State → Except Stop (W64 × State)) (x : W64) (s1 : State) (qs : List Nat)
    (hq : (src.map (fun r => aSrcQ r.toNat)).foldl (fun l q => if l = q then l else l ++ q) [] = qs)
    (h : s.aReady qs (if ud then aDstQ ad.toNat else []) = .ok ()) (ho : op s = .ok (x, s1)) :
    s.arForm pk ad src ud op = .ok ((if ud then (s1.aPop pk qs).aDst ad x else s1.aPop pk qs).advance .a) := by
  subst hq
  obtain ⟨h1, h2⟩ := (State.cReady_split _ _ _).1 h
  simp [State.arForm, h1, h2, ho, bind, Except.bind]

end Sys2Proof.Machine
end

