-- ==== Sys2Proof/Laws/Encoding.lean ====
section
/-!
SUPPORT. The fields of a word and the word of its fields, for every format: cutting a word into its fields and putting them together
are inverse to each other.
-/
namespace Sys2Proof

theorem ext_low {a b : Nat} (x : BitVec a) (y : BitVec b) (s n : Nat) (h : s + n ≤ b) :
    (x ++ y).extractLsb' s n = y.extractLsb' s n := by
  ext i hi; simp only [BitVec.getElem_extractLsb', BitVec.getLsbD_append]; rw [if_pos (by omega)]
theorem ext_high {a b : Nat} (x : BitVec a) (y : BitVec b) (s n : Nat) (h : b ≤ s) :
    (x ++ y).extractLsb' s n = x.extractLsb' (s - b) n := by
  ext i hi; simp only [BitVec.getElem_extractLsb', BitVec.getLsbD_append]; rw [if_neg (by omega)]; congr 1; omega
theorem ext_all {a : Nat} (x : BitVec a) : x.extractLsb' 0 a = x := by ext i hi; simp
theorem ext_cat {w : Nat} (x : BitVec w) (t a s b : Nat) (h : t = s + b) :
    x.extractLsb' t a ++ x.extractLsb' s b = x.extractLsb' s (a + b) := by
  subst h
  ext i hi
  simp only [BitVec.getElem_append, BitVec.getElem_extractLsb']
  split
  · rfl
  · congr 1; omega

/-- A word's number gives the word back. -/
theorem ofNat_toNat {n : Nat} (w : BitVec n) : BitVec.ofNat n w.toNat = w := by simp

theorem mHead_fst (h : MHead) : (h.bits).extractLsb' 57 1 = h.fst := by
  change BitVec.extractLsb' 57 1 (n := 1+1+3+4+3+4+3+4+1+18+8+4+4) _ = _
  unfold MHead.bits
  simp (disch := decide) only [ext_low, ext_high]
  exact ext_all _
theorem mHead_lst (h : MHead) : (h.bits).extractLsb' 56 1 = h.lst := by
  change BitVec.extractLsb' 56 1 (n := 1+1+3+4+3+4+3+4+1+18+8+4+4) _ = _
  unfold MHead.bits
  simp (disch := decide) only [ext_low, ext_high]
  exact ext_all _
theorem mHead_lvl (h : MHead) : (h.bits).extractLsb' 53 3 = h.lvl := by
  change BitVec.extractLsb' 53 3 (n := 1+1+3+4+3+4+3+4+1+18+8+4+4) _ = _
  unfold MHead.bits
  simp (disch := decide) only [ext_low, ext_high]
  exact ext_all _
theorem mHead_wid (h : MHead) : (h.bits).extractLsb' 49 4 = h.wid := by
  change BitVec.extractLsb' 49 4 (n := 1+1+3+4+3+4+3+4+1+18+8+4+4) _ = _
  unfold MHead.bits
  simp (disch := decide) only [ext_low, ext_high]
  exact ext_all _
theorem mHead_wcnt (h : MHead) : (h.bits).extractLsb' 46 3 = h.wcnt := by
  change BitVec.extractLsb' 46 3 (n := 1+1+3+4+3+4+3+4+1+18+8+4+4) _ = _
  unfold MHead.bits
  simp (disch := decide) only [ext_low, ext_high]
  exact ext_all _
theorem mHead_sid (h : MHead) : (h.bits).extractLsb' 42 4 = h.sid := by
  change BitVec.extractLsb' 42 4 (n := 1+1+3+4+3+4+3+4+1+18+8+4+4) _ = _
  unfold MHead.bits
  simp (disch := decide) only [ext_low, ext_high]
  exact ext_all _
theorem mHead_scnt (h : MHead) : (h.bits).extractLsb' 39 3 = h.scnt := by
  change BitVec.extractLsb' 39 3 (n := 1+1+3+4+3+4+3+4+1+18+8+4+4) _ = _
  unfold MHead.bits
  simp (disch := decide) only [ext_low, ext_high]
  exact ext_all _
theorem mHead_lgen (h : MHead) : (h.bits).extractLsb' 35 4 = h.lgen := by
  change BitVec.extractLsb' 35 4 (n := 1+1+3+4+3+4+3+4+1+18+8+4+4) _ = _
  unfold MHead.bits
  simp (disch := decide) only [ext_low, ext_high]
  exact ext_all _
theorem mHead_fw (h : MHead) : (h.bits).extractLsb' 34 1 = h.fw := by
  change BitVec.extractLsb' 34 1 (n := 1+1+3+4+3+4+3+4+1+18+8+4+4) _ = _
  unfold MHead.bits
  simp (disch := decide) only [ext_low, ext_high]
  exact ext_all _
theorem mHead_fpb (h : MHead) : (h.bits).extractLsb' 16 18 = h.fpb := by
  change BitVec.extractLsb' 16 18 (n := 1+1+3+4+3+4+3+4+1+18+8+4+4) _ = _
  unfold MHead.bits
  simp (disch := decide) only [ext_low, ext_high]
  exact ext_all _
theorem mHead_fpx (h : MHead) : (h.bits).extractLsb' 8 8 = h.fpx := by
  change BitVec.extractLsb' 8 8 (n := 1+1+3+4+3+4+3+4+1+18+8+4+4) _ = _
  unfold MHead.bits
  simp (disch := decide) only [ext_low, ext_high]
  exact ext_all _
theorem mHead_dd (h : MHead) : (h.bits).extractLsb' 4 4 = h.dd := by
  change BitVec.extractLsb' 4 4 (n := 1+1+3+4+3+4+3+4+1+18+8+4+4) _ = _
  unfold MHead.bits
  simp (disch := decide) only [ext_low, ext_high]
  exact ext_all _
theorem mHead_da (h : MHead) : (h.bits).extractLsb' 0 4 = h.da := by
  change BitVec.extractLsb' 0 4 (n := 1+1+3+4+3+4+3+4+1+18+8+4+4) _ = _
  unfold MHead.bits
  simp (disch := decide) only [ext_low, ext_high]
  exact ext_all _

/-! Format CR. -/

theorem crWord_op (op : BitVec 7) (f : CrF) : (crWord op f).extractLsb' 41 7 = op := by
  change BitVec.extractLsb' 41 7 (n := 7+5+6+1+5+5+5+1+1+1+1+10) _ = _
  unfold crWord
  simp (disch := decide) only [ext_low, ext_high]
  exact ext_all _
theorem crWord_g_gd (op : BitVec 7) (f : CrF) : (crWord op f).extractLsb' 36 5 = f.g.gd := by
  change BitVec.extractLsb' 36 5 (n := 7+5+6+1+5+5+5+1+1+1+1+10) _ = _
  unfold crWord
  simp (disch := decide) only [ext_low, ext_high]
  exact ext_all _
theorem crWord_g_gb (op : BitVec 7) (f : CrF) : (crWord op f).extractLsb' 30 6 = f.g.gb := by
  change BitVec.extractLsb' 30 6 (n := 7+5+6+1+5+5+5+1+1+1+1+10) _ = _
  unfold crWord
  simp (disch := decide) only [ext_low, ext_high]
  exact ext_all _
theorem crWord_g_gs (op : BitVec 7) (f : CrF) : (crWord op f).extractLsb' 29 1 = f.g.gs := by
  change BitVec.extractLsb' 29 1 (n := 7+5+6+1+5+5+5+1+1+1+1+10) _ = _
  unfold crWord
  simp (disch := decide) only [ext_low, ext_high]
  exact ext_all _
theorem crWord_rd (op : BitVec 7) (f : CrF) : (crWord op f).extractLsb' 24 5 = f.rd := by
  change BitVec.extractLsb' 24 5 (n := 7+5+6+1+5+5+5+1+1+1+1+10) _ = _
  unfold crWord
  simp (disch := decide) only [ext_low, ext_high]
  exact ext_all _
theorem crWord_ra (op : BitVec 7) (f : CrF) : (crWord op f).extractLsb' 19 5 = f.ra := by
  change BitVec.extractLsb' 19 5 (n := 7+5+6+1+5+5+5+1+1+1+1+10) _ = _
  unfold crWord
  simp (disch := decide) only [ext_low, ext_high]
  exact ext_all _
theorem crWord_rb (op : BitVec 7) (f : CrF) : (crWord op f).extractLsb' 14 5 = f.rb := by
  change BitVec.extractLsb' 14 5 (n := 7+5+6+1+5+5+5+1+1+1+1+10) _ = _
  unfold crWord
  simp (disch := decide) only [ext_low, ext_high]
  exact ext_all _
theorem crWord_pk (op : BitVec 7) (f : CrF) : (crWord op f).extractLsb' 13 1 = f.pk := by
  change BitVec.extractLsb' 13 1 (n := 7+5+6+1+5+5+5+1+1+1+1+10) _ = _
  unfold crWord
  simp (disch := decide) only [ext_low, ext_high]
  exact ext_all _
theorem crWord_qd (op : BitVec 7) (f : CrF) : (crWord op f).extractLsb' 12 1 = f.qd := by
  change BitVec.extractLsb' 12 1 (n := 7+5+6+1+5+5+5+1+1+1+1+10) _ = _
  unfold crWord
  simp (disch := decide) only [ext_low, ext_high]
  exact ext_all _
theorem crWord_qa (op : BitVec 7) (f : CrF) : (crWord op f).extractLsb' 11 1 = f.qa := by
  change BitVec.extractLsb' 11 1 (n := 7+5+6+1+5+5+5+1+1+1+1+10) _ = _
  unfold crWord
  simp (disch := decide) only [ext_low, ext_high]
  exact ext_all _
theorem crWord_qb (op : BitVec 7) (f : CrF) : (crWord op f).extractLsb' 10 1 = f.qb := by
  change BitVec.extractLsb' 10 1 (n := 7+5+6+1+5+5+5+1+1+1+1+10) _ = _
  unfold crWord
  simp (disch := decide) only [ext_low, ext_high]
  exact ext_all _
theorem crWord_fn (op : BitVec 7) (f : CrF) : (crWord op f).extractLsb' 0 10 = f.fn := by
  change BitVec.extractLsb' 0 10 (n := 7+5+6+1+5+5+5+1+1+1+1+10) _ = _
  unfold crWord
  simp (disch := decide) only [ext_low, ext_high]
  exact ext_all _
/-- The fields of the word of some fields are those fields. -/
theorem crOf_crWord (op : BitVec 7) (f : CrF) : crOf (crWord op f) = f := by
  simp only [crOf, crWord_g_gd, crWord_g_gb, crWord_g_gs, crWord_rd, crWord_ra, crWord_rb, crWord_pk, crWord_qd, crWord_qa, crWord_qb, crWord_fn]
/-- A word is the word of its opcode and fields. -/
theorem crWord_crOf (w : BitVec 48) : crWord (w.extractLsb' 41 7) (crOf w) = w := by
  simp (disch := decide) only [crWord, crOf, ext_cat]
  exact ext_all w

/-! Format CI. -/

theorem ciWord_op (op : BitVec 7) (f : CiF) : (ciWord op f).extractLsb' 41 7 = op := by
  change BitVec.extractLsb' 41 7 (n := 7+5+6+1+5+5+19) _ = _
  unfold ciWord
  simp (disch := decide) only [ext_low, ext_high]
  exact ext_all _
theorem ciWord_g_gd (op : BitVec 7) (f : CiF) : (ciWord op f).extractLsb' 36 5 = f.g.gd := by
  change BitVec.extractLsb' 36 5 (n := 7+5+6+1+5+5+19) _ = _
  unfold ciWord
  simp (disch := decide) only [ext_low, ext_high]
  exact ext_all _
theorem ciWord_g_gb (op : BitVec 7) (f : CiF) : (ciWord op f).extractLsb' 30 6 = f.g.gb := by
  change BitVec.extractLsb' 30 6 (n := 7+5+6+1+5+5+19) _ = _
  unfold ciWord
  simp (disch := decide) only [ext_low, ext_high]
  exact ext_all _
theorem ciWord_g_gs (op : BitVec 7) (f : CiF) : (ciWord op f).extractLsb' 29 1 = f.g.gs := by
  change BitVec.extractLsb' 29 1 (n := 7+5+6+1+5+5+19) _ = _
  unfold ciWord
  simp (disch := decide) only [ext_low, ext_high]
  exact ext_all _
theorem ciWord_rd (op : BitVec 7) (f : CiF) : (ciWord op f).extractLsb' 24 5 = f.rd := by
  change BitVec.extractLsb' 24 5 (n := 7+5+6+1+5+5+19) _ = _
  unfold ciWord
  simp (disch := decide) only [ext_low, ext_high]
  exact ext_all _
theorem ciWord_ra (op : BitVec 7) (f : CiF) : (ciWord op f).extractLsb' 19 5 = f.ra := by
  change BitVec.extractLsb' 19 5 (n := 7+5+6+1+5+5+19) _ = _
  unfold ciWord
  simp (disch := decide) only [ext_low, ext_high]
  exact ext_all _
theorem ciWord_imm (op : BitVec 7) (f : CiF) : (ciWord op f).extractLsb' 0 19 = f.imm := by
  change BitVec.extractLsb' 0 19 (n := 7+5+6+1+5+5+19) _ = _
  unfold ciWord
  simp (disch := decide) only [ext_low, ext_high]
  exact ext_all _
/-- The fields of the word of some fields are those fields. -/
theorem ciOf_ciWord (op : BitVec 7) (f : CiF) : ciOf (ciWord op f) = f := by
  simp only [ciOf, ciWord_g_gd, ciWord_g_gb, ciWord_g_gs, ciWord_rd, ciWord_ra, ciWord_imm]
/-- A word is the word of its opcode and fields. -/
theorem ciWord_ciOf (w : BitVec 48) : ciWord (w.extractLsb' 41 7) (ciOf w) = w := by
  simp (disch := decide) only [ciWord, ciOf, ext_cat]
  exact ext_all w

/-! Format CB. -/

theorem cbWord_op (op : BitVec 7) (f : CbF) : (cbWord op f).extractLsb' 41 7 = op := by
  change BitVec.extractLsb' 41 7 (n := 7+5+6+1+5+24) _ = _
  unfold cbWord
  simp (disch := decide) only [ext_low, ext_high]
  exact ext_all _
theorem cbWord_g_gd (op : BitVec 7) (f : CbF) : (cbWord op f).extractLsb' 36 5 = f.g.gd := by
  change BitVec.extractLsb' 36 5 (n := 7+5+6+1+5+24) _ = _
  unfold cbWord
  simp (disch := decide) only [ext_low, ext_high]
  exact ext_all _
theorem cbWord_g_gb (op : BitVec 7) (f : CbF) : (cbWord op f).extractLsb' 30 6 = f.g.gb := by
  change BitVec.extractLsb' 30 6 (n := 7+5+6+1+5+24) _ = _
  unfold cbWord
  simp (disch := decide) only [ext_low, ext_high]
  exact ext_all _
theorem cbWord_g_gs (op : BitVec 7) (f : CbF) : (cbWord op f).extractLsb' 29 1 = f.g.gs := by
  change BitVec.extractLsb' 29 1 (n := 7+5+6+1+5+24) _ = _
  unfold cbWord
  simp (disch := decide) only [ext_low, ext_high]
  exact ext_all _
theorem cbWord_ra (op : BitVec 7) (f : CbF) : (cbWord op f).extractLsb' 24 5 = f.ra := by
  change BitVec.extractLsb' 24 5 (n := 7+5+6+1+5+24) _ = _
  unfold cbWord
  simp (disch := decide) only [ext_low, ext_high]
  exact ext_all _
theorem cbWord_off (op : BitVec 7) (f : CbF) : (cbWord op f).extractLsb' 0 24 = f.off := by
  change BitVec.extractLsb' 0 24 (n := 7+5+6+1+5+24) _ = _
  unfold cbWord
  simp (disch := decide) only [ext_low, ext_high]
  exact ext_all _
/-- The fields of the word of some fields are those fields. -/
theorem cbOf_cbWord (op : BitVec 7) (f : CbF) : cbOf (cbWord op f) = f := by
  simp only [cbOf, cbWord_g_gd, cbWord_g_gb, cbWord_g_gs, cbWord_ra, cbWord_off]
/-- A word is the word of its opcode and fields. -/
theorem cbWord_cbOf (w : BitVec 48) : cbWord (w.extractLsb' 41 7) (cbOf w) = w := by
  simp (disch := decide) only [cbWord, cbOf, ext_cat]
  exact ext_all w

/-! Format CS. -/

theorem csWord_op (op : BitVec 7) (f : CsF) : (csWord op f).extractLsb' 41 7 = op := by
  change BitVec.extractLsb' 41 7 (n := 7+5+6+1+5+24) _ = _
  unfold csWord
  simp (disch := decide) only [ext_low, ext_high]
  exact ext_all _
theorem csWord_g_gd (op : BitVec 7) (f : CsF) : (csWord op f).extractLsb' 36 5 = f.g.gd := by
  change BitVec.extractLsb' 36 5 (n := 7+5+6+1+5+24) _ = _
  unfold csWord
  simp (disch := decide) only [ext_low, ext_high]
  exact ext_all _
theorem csWord_g_gb (op : BitVec 7) (f : CsF) : (csWord op f).extractLsb' 30 6 = f.g.gb := by
  change BitVec.extractLsb' 30 6 (n := 7+5+6+1+5+24) _ = _
  unfold csWord
  simp (disch := decide) only [ext_low, ext_high]
  exact ext_all _
theorem csWord_g_gs (op : BitVec 7) (f : CsF) : (csWord op f).extractLsb' 29 1 = f.g.gs := by
  change BitVec.extractLsb' 29 1 (n := 7+5+6+1+5+24) _ = _
  unfold csWord
  simp (disch := decide) only [ext_low, ext_high]
  exact ext_all _
theorem csWord_sub (op : BitVec 7) (f : CsF) : (csWord op f).extractLsb' 24 5 = f.sub := by
  change BitVec.extractLsb' 24 5 (n := 7+5+6+1+5+24) _ = _
  unfold csWord
  simp (disch := decide) only [ext_low, ext_high]
  exact ext_all _
theorem csWord_sys (op : BitVec 7) (f : CsF) : (csWord op f).extractLsb' 0 24 = f.sys := by
  change BitVec.extractLsb' 0 24 (n := 7+5+6+1+5+24) _ = _
  unfold csWord
  simp (disch := decide) only [ext_low, ext_high]
  exact ext_all _
/-- The fields of the word of some fields are those fields. -/
theorem csOf_csWord (op : BitVec 7) (f : CsF) : csOf (csWord op f) = f := by
  simp only [csOf, csWord_g_gd, csWord_g_gb, csWord_g_gs, csWord_sub, csWord_sys]
/-- A word is the word of its opcode and fields. -/
theorem csWord_csOf (w : BitVec 48) : csWord (w.extractLsb' 41 7) (csOf w) = w := by
  simp (disch := decide) only [csWord, csOf, ext_cat]
  exact ext_all w

/-! Format AR. -/

theorem arWord_op (op : BitVec 8) (f : ArF) : (arWord op f).extractLsb' 56 8 = op := by
  change BitVec.extractLsb' 56 8 (n := 8+1+7+4+5+5+5+5+24) _ = _
  unfold arWord
  simp (disch := decide) only [ext_low, ext_high]
  exact ext_all _
theorem arWord_pk (op : BitVec 8) (f : ArF) : (arWord op f).extractLsb' 55 1 = f.pk := by
  change BitVec.extractLsb' 55 1 (n := 8+1+7+4+5+5+5+5+24) _ = _
  unfold arWord
  simp (disch := decide) only [ext_low, ext_high]
  exact ext_all _
theorem arWord_aq (op : BitVec 8) (f : ArF) : (arWord op f).extractLsb' 48 7 = f.aq := by
  change BitVec.extractLsb' 48 7 (n := 8+1+7+4+5+5+5+5+24) _ = _
  unfold arWord
  simp (disch := decide) only [ext_low, ext_high]
  exact ext_all _
theorem arWord_gen (op : BitVec 8) (f : ArF) : (arWord op f).extractLsb' 44 4 = f.gen := by
  change BitVec.extractLsb' 44 4 (n := 8+1+7+4+5+5+5+5+24) _ = _
  unfold arWord
  simp (disch := decide) only [ext_low, ext_high]
  exact ext_all _
theorem arWord_ad (op : BitVec 8) (f : ArF) : (arWord op f).extractLsb' 39 5 = f.ad := by
  change BitVec.extractLsb' 39 5 (n := 8+1+7+4+5+5+5+5+24) _ = _
  unfold arWord
  simp (disch := decide) only [ext_low, ext_high]
  exact ext_all _
theorem arWord_aa (op : BitVec 8) (f : ArF) : (arWord op f).extractLsb' 34 5 = f.aa := by
  change BitVec.extractLsb' 34 5 (n := 8+1+7+4+5+5+5+5+24) _ = _
  unfold arWord
  simp (disch := decide) only [ext_low, ext_high]
  exact ext_all _
theorem arWord_ab (op : BitVec 8) (f : ArF) : (arWord op f).extractLsb' 29 5 = f.ab := by
  change BitVec.extractLsb' 29 5 (n := 8+1+7+4+5+5+5+5+24) _ = _
  unfold arWord
  simp (disch := decide) only [ext_low, ext_high]
  exact ext_all _
theorem arWord_ac (op : BitVec 8) (f : ArF) : (arWord op f).extractLsb' 24 5 = f.ac := by
  change BitVec.extractLsb' 24 5 (n := 8+1+7+4+5+5+5+5+24) _ = _
  unfold arWord
  simp (disch := decide) only [ext_low, ext_high]
  exact ext_all _
theorem arWord_w (op : BitVec 8) (f : ArF) : (arWord op f).extractLsb' 0 24 = f.w := by
  change BitVec.extractLsb' 0 24 (n := 8+1+7+4+5+5+5+5+24) _ = _
  unfold arWord
  simp (disch := decide) only [ext_low, ext_high]
  exact ext_all _
/-- The fields of the word of some fields are those fields. -/
theorem arOf_arWord (op : BitVec 8) (f : ArF) : arOf (arWord op f) = f := by
  simp only [arOf, arWord_pk, arWord_aq, arWord_gen, arWord_ad, arWord_aa, arWord_ab, arWord_ac, arWord_w]
/-- A word is the word of its opcode and fields. -/
theorem arWord_arOf (w : BitVec 64) : arWord (w.extractLsb' 56 8) (arOf w) = w := by
  simp (disch := decide) only [arWord, arOf, ext_cat]
  exact ext_all w

/-! Format AI. -/

theorem aiWord_op (op : BitVec 8) (f : AiF) : (aiWord op f).extractLsb' 56 8 = op := by
  change BitVec.extractLsb' 56 8 (n := 8+1+7+4+5+5+2+32) _ = _
  unfold aiWord
  simp (disch := decide) only [ext_low, ext_high]
  exact ext_all _
theorem aiWord_pk (op : BitVec 8) (f : AiF) : (aiWord op f).extractLsb' 55 1 = f.pk := by
  change BitVec.extractLsb' 55 1 (n := 8+1+7+4+5+5+2+32) _ = _
  unfold aiWord
  simp (disch := decide) only [ext_low, ext_high]
  exact ext_all _
theorem aiWord_aq (op : BitVec 8) (f : AiF) : (aiWord op f).extractLsb' 48 7 = f.aq := by
  change BitVec.extractLsb' 48 7 (n := 8+1+7+4+5+5+2+32) _ = _
  unfold aiWord
  simp (disch := decide) only [ext_low, ext_high]
  exact ext_all _
theorem aiWord_gen (op : BitVec 8) (f : AiF) : (aiWord op f).extractLsb' 44 4 = f.gen := by
  change BitVec.extractLsb' 44 4 (n := 8+1+7+4+5+5+2+32) _ = _
  unfold aiWord
  simp (disch := decide) only [ext_low, ext_high]
  exact ext_all _
theorem aiWord_ad (op : BitVec 8) (f : AiF) : (aiWord op f).extractLsb' 39 5 = f.ad := by
  change BitVec.extractLsb' 39 5 (n := 8+1+7+4+5+5+2+32) _ = _
  unfold aiWord
  simp (disch := decide) only [ext_low, ext_high]
  exact ext_all _
theorem aiWord_aa (op : BitVec 8) (f : AiF) : (aiWord op f).extractLsb' 34 5 = f.aa := by
  change BitVec.extractLsb' 34 5 (n := 8+1+7+4+5+5+2+32) _ = _
  unfold aiWord
  simp (disch := decide) only [ext_low, ext_high]
  exact ext_all _
theorem aiWord_rsv (op : BitVec 8) (f : AiF) : (aiWord op f).extractLsb' 32 2 = f.rsv := by
  change BitVec.extractLsb' 32 2 (n := 8+1+7+4+5+5+2+32) _ = _
  unfold aiWord
  simp (disch := decide) only [ext_low, ext_high]
  exact ext_all _
theorem aiWord_imm (op : BitVec 8) (f : AiF) : (aiWord op f).extractLsb' 0 32 = f.imm := by
  change BitVec.extractLsb' 0 32 (n := 8+1+7+4+5+5+2+32) _ = _
  unfold aiWord
  simp (disch := decide) only [ext_low, ext_high]
  exact ext_all _
/-- The fields of the word of some fields are those fields. -/
theorem aiOf_aiWord (op : BitVec 8) (f : AiF) : aiOf (aiWord op f) = f := by
  simp only [aiOf, aiWord_pk, aiWord_aq, aiWord_gen, aiWord_ad, aiWord_aa, aiWord_rsv, aiWord_imm]
/-- A word is the word of its opcode and fields. -/
theorem aiWord_aiOf (w : BitVec 64) : aiWord (w.extractLsb' 56 8) (aiOf w) = w := by
  simp (disch := decide) only [aiWord, aiOf, ext_cat]
  exact ext_all w

/-! Format VF. -/

theorem vfWord_op (op : BitVec 9) (f : VF) : (vfWord op f).extractLsb' 55 9 = op := by
  change BitVec.extractLsb' 55 9 (n := 9+5+6+1+5+5+5+5+5+3+3+1+1+1+1+1+7) _ = _
  unfold vfWord
  simp (disch := decide) only [ext_low, ext_high]
  exact ext_all _
theorem vfWord_g_gd (op : BitVec 9) (f : VF) : (vfWord op f).extractLsb' 50 5 = f.g.gd := by
  change BitVec.extractLsb' 50 5 (n := 9+5+6+1+5+5+5+5+5+3+3+1+1+1+1+1+7) _ = _
  unfold vfWord
  simp (disch := decide) only [ext_low, ext_high]
  exact ext_all _
theorem vfWord_g_gb (op : BitVec 9) (f : VF) : (vfWord op f).extractLsb' 44 6 = f.g.gb := by
  change BitVec.extractLsb' 44 6 (n := 9+5+6+1+5+5+5+5+5+3+3+1+1+1+1+1+7) _ = _
  unfold vfWord
  simp (disch := decide) only [ext_low, ext_high]
  exact ext_all _
theorem vfWord_g_gs (op : BitVec 9) (f : VF) : (vfWord op f).extractLsb' 43 1 = f.g.gs := by
  change BitVec.extractLsb' 43 1 (n := 9+5+6+1+5+5+5+5+5+3+3+1+1+1+1+1+7) _ = _
  unfold vfWord
  simp (disch := decide) only [ext_low, ext_high]
  exact ext_all _
theorem vfWord_tag (op : BitVec 9) (f : VF) : (vfWord op f).extractLsb' 38 5 = f.tag := by
  change BitVec.extractLsb' 38 5 (n := 9+5+6+1+5+5+5+5+5+3+3+1+1+1+1+1+7) _ = _
  unfold vfWord
  simp (disch := decide) only [ext_low, ext_high]
  exact ext_all _
theorem vfWord_vd (op : BitVec 9) (f : VF) : (vfWord op f).extractLsb' 33 5 = f.vd := by
  change BitVec.extractLsb' 33 5 (n := 9+5+6+1+5+5+5+5+5+3+3+1+1+1+1+1+7) _ = _
  unfold vfWord
  simp (disch := decide) only [ext_low, ext_high]
  exact ext_all _
theorem vfWord_va (op : BitVec 9) (f : VF) : (vfWord op f).extractLsb' 28 5 = f.va := by
  change BitVec.extractLsb' 28 5 (n := 9+5+6+1+5+5+5+5+5+3+3+1+1+1+1+1+7) _ = _
  unfold vfWord
  simp (disch := decide) only [ext_low, ext_high]
  exact ext_all _
theorem vfWord_vb (op : BitVec 9) (f : VF) : (vfWord op f).extractLsb' 23 5 = f.vb := by
  change BitVec.extractLsb' 23 5 (n := 9+5+6+1+5+5+5+5+5+3+3+1+1+1+1+1+7) _ = _
  unfold vfWord
  simp (disch := decide) only [ext_low, ext_high]
  exact ext_all _
theorem vfWord_vc (op : BitVec 9) (f : VF) : (vfWord op f).extractLsb' 18 5 = f.vc := by
  change BitVec.extractLsb' 18 5 (n := 9+5+6+1+5+5+5+5+5+3+3+1+1+1+1+1+7) _ = _
  unfold vfWord
  simp (disch := decide) only [ext_low, ext_high]
  exact ext_all _
theorem vfWord_k (op : BitVec 9) (f : VF) : (vfWord op f).extractLsb' 15 3 = f.k := by
  change BitVec.extractLsb' 15 3 (n := 9+5+6+1+5+5+5+5+5+3+3+1+1+1+1+1+7) _ = _
  unfold vfWord
  simp (disch := decide) only [ext_low, ext_high]
  exact ext_all _
theorem vfWord_rm (op : BitVec 9) (f : VF) : (vfWord op f).extractLsb' 12 3 = f.rm := by
  change BitVec.extractLsb' 12 3 (n := 9+5+6+1+5+5+5+5+5+3+3+1+1+1+1+1+7) _ = _
  unfold vfWord
  simp (disch := decide) only [ext_low, ext_high]
  exact ext_all _
theorem vfWord_sat (op : BitVec 9) (f : VF) : (vfWord op f).extractLsb' 11 1 = f.sat := by
  change BitVec.extractLsb' 11 1 (n := 9+5+6+1+5+5+5+5+5+3+3+1+1+1+1+1+7) _ = _
  unfold vfWord
  simp (disch := decide) only [ext_low, ext_high]
  exact ext_all _
theorem vfWord_pk (op : BitVec 9) (f : VF) : (vfWord op f).extractLsb' 10 1 = f.pk := by
  change BitVec.extractLsb' 10 1 (n := 9+5+6+1+5+5+5+5+5+3+3+1+1+1+1+1+7) _ = _
  unfold vfWord
  simp (disch := decide) only [ext_low, ext_high]
  exact ext_all _
theorem vfWord_qd (op : BitVec 9) (f : VF) : (vfWord op f).extractLsb' 9 1 = f.qd := by
  change BitVec.extractLsb' 9 1 (n := 9+5+6+1+5+5+5+5+5+3+3+1+1+1+1+1+7) _ = _
  unfold vfWord
  simp (disch := decide) only [ext_low, ext_high]
  exact ext_all _
theorem vfWord_qa (op : BitVec 9) (f : VF) : (vfWord op f).extractLsb' 8 1 = f.qa := by
  change BitVec.extractLsb' 8 1 (n := 9+5+6+1+5+5+5+5+5+3+3+1+1+1+1+1+7) _ = _
  unfold vfWord
  simp (disch := decide) only [ext_low, ext_high]
  exact ext_all _
theorem vfWord_qb (op : BitVec 9) (f : VF) : (vfWord op f).extractLsb' 7 1 = f.qb := by
  change BitVec.extractLsb' 7 1 (n := 9+5+6+1+5+5+5+5+5+3+3+1+1+1+1+1+7) _ = _
  unfold vfWord
  simp (disch := decide) only [ext_low, ext_high]
  exact ext_all _
theorem vfWord_qx (op : BitVec 9) (f : VF) : (vfWord op f).extractLsb' 0 7 = f.qx := by
  change BitVec.extractLsb' 0 7 (n := 9+5+6+1+5+5+5+5+5+3+3+1+1+1+1+1+7) _ = _
  unfold vfWord
  simp (disch := decide) only [ext_low, ext_high]
  exact ext_all _
/-- The fields of the word of some fields are those fields. -/
theorem vfOf_vfWord (op : BitVec 9) (f : VF) : vfOf (vfWord op f) = f := by
  simp only [vfOf, vfWord_g_gd, vfWord_g_gb, vfWord_g_gs, vfWord_tag, vfWord_vd, vfWord_va, vfWord_vb, vfWord_vc, vfWord_k, vfWord_rm, vfWord_sat, vfWord_pk, vfWord_qd, vfWord_qa, vfWord_qb, vfWord_qx]
/-- A word is the word of its opcode and fields. -/
theorem vfWord_vfOf (w : BitVec 64) : vfWord (w.extractLsb' 55 9) (vfOf w) = w := by
  simp (disch := decide) only [vfWord, vfOf, ext_cat]
  exact ext_all w

/-! Format VI. -/

theorem viWord_op (op : BitVec 9) (f : ViF) : (viWord op f).extractLsb' 55 9 = op := by
  change BitVec.extractLsb' 55 9 (n := 9+5+6+1+5+5+5+5+5+3+15) _ = _
  unfold viWord
  simp (disch := decide) only [ext_low, ext_high]
  exact ext_all _
theorem viWord_g_gd (op : BitVec 9) (f : ViF) : (viWord op f).extractLsb' 50 5 = f.g.gd := by
  change BitVec.extractLsb' 50 5 (n := 9+5+6+1+5+5+5+5+5+3+15) _ = _
  unfold viWord
  simp (disch := decide) only [ext_low, ext_high]
  exact ext_all _
theorem viWord_g_gb (op : BitVec 9) (f : ViF) : (viWord op f).extractLsb' 44 6 = f.g.gb := by
  change BitVec.extractLsb' 44 6 (n := 9+5+6+1+5+5+5+5+5+3+15) _ = _
  unfold viWord
  simp (disch := decide) only [ext_low, ext_high]
  exact ext_all _
theorem viWord_g_gs (op : BitVec 9) (f : ViF) : (viWord op f).extractLsb' 43 1 = f.g.gs := by
  change BitVec.extractLsb' 43 1 (n := 9+5+6+1+5+5+5+5+5+3+15) _ = _
  unfold viWord
  simp (disch := decide) only [ext_low, ext_high]
  exact ext_all _
theorem viWord_tag (op : BitVec 9) (f : ViF) : (viWord op f).extractLsb' 38 5 = f.tag := by
  change BitVec.extractLsb' 38 5 (n := 9+5+6+1+5+5+5+5+5+3+15) _ = _
  unfold viWord
  simp (disch := decide) only [ext_low, ext_high]
  exact ext_all _
theorem viWord_vd (op : BitVec 9) (f : ViF) : (viWord op f).extractLsb' 33 5 = f.vd := by
  change BitVec.extractLsb' 33 5 (n := 9+5+6+1+5+5+5+5+5+3+15) _ = _
  unfold viWord
  simp (disch := decide) only [ext_low, ext_high]
  exact ext_all _
theorem viWord_va (op : BitVec 9) (f : ViF) : (viWord op f).extractLsb' 28 5 = f.va := by
  change BitVec.extractLsb' 28 5 (n := 9+5+6+1+5+5+5+5+5+3+15) _ = _
  unfold viWord
  simp (disch := decide) only [ext_low, ext_high]
  exact ext_all _
theorem viWord_vb (op : BitVec 9) (f : ViF) : (viWord op f).extractLsb' 23 5 = f.vb := by
  change BitVec.extractLsb' 23 5 (n := 9+5+6+1+5+5+5+5+5+3+15) _ = _
  unfold viWord
  simp (disch := decide) only [ext_low, ext_high]
  exact ext_all _
theorem viWord_vc (op : BitVec 9) (f : ViF) : (viWord op f).extractLsb' 18 5 = f.vc := by
  change BitVec.extractLsb' 18 5 (n := 9+5+6+1+5+5+5+5+5+3+15) _ = _
  unfold viWord
  simp (disch := decide) only [ext_low, ext_high]
  exact ext_all _
theorem viWord_k (op : BitVec 9) (f : ViF) : (viWord op f).extractLsb' 15 3 = f.k := by
  change BitVec.extractLsb' 15 3 (n := 9+5+6+1+5+5+5+5+5+3+15) _ = _
  unfold viWord
  simp (disch := decide) only [ext_low, ext_high]
  exact ext_all _
theorem viWord_q (op : BitVec 9) (f : ViF) : (viWord op f).extractLsb' 0 15 = f.q := by
  change BitVec.extractLsb' 0 15 (n := 9+5+6+1+5+5+5+5+5+3+15) _ = _
  unfold viWord
  simp (disch := decide) only [ext_low, ext_high]
  exact ext_all _
/-- The fields of the word of some fields are those fields. -/
theorem viOf_viWord (op : BitVec 9) (f : ViF) : viOf (viWord op f) = f := by
  simp only [viOf, viWord_g_gd, viWord_g_gb, viWord_g_gs, viWord_tag, viWord_vd, viWord_va, viWord_vb, viWord_vc, viWord_k, viWord_q]
/-- A word is the word of its opcode and fields. -/
theorem viWord_viOf (w : BitVec 64) : viWord (w.extractLsb' 55 9) (viOf w) = w := by
  simp (disch := decide) only [viWord, viOf, ext_cat]
  exact ext_all w

/-! Format MF. -/

theorem mfWord_op (op : BitVec 6) (f : MF) : (mfWord op f).extractLsb' 122 6 = op := by
  change BitVec.extractLsb' 122 6 (n := 6+58+4+28+32) _ = _
  unfold mfWord
  simp (disch := decide) only [ext_low, ext_high]
  exact ext_all _
theorem mfWord_h (op : BitVec 6) (f : MF) : (mfWord op f).extractLsb' 64 58 = f.h.bits := by
  change BitVec.extractLsb' 64 58 (n := 6+58+4+28+32) _ = _
  unfold mfWord
  simp (disch := decide) only [ext_low, ext_high]
  exact ext_all _
theorem mfWord_db (op : BitVec 6) (f : MF) : (mfWord op f).extractLsb' 60 4 = f.db := by
  change BitVec.extractLsb' 60 4 (n := 6+58+4+28+32) _ = _
  unfold mfWord
  simp (disch := decide) only [ext_low, ext_high]
  exact ext_all _
theorem mfWord_mq (op : BitVec 6) (f : MF) : (mfWord op f).extractLsb' 32 28 = f.mq := by
  change BitVec.extractLsb' 32 28 (n := 6+58+4+28+32) _ = _
  unfold mfWord
  simp (disch := decide) only [ext_low, ext_high]
  exact ext_all _
theorem mfWord_mimm (op : BitVec 6) (f : MF) : (mfWord op f).extractLsb' 0 32 = f.mimm := by
  change BitVec.extractLsb' 0 32 (n := 6+58+4+28+32) _ = _
  unfold mfWord
  simp (disch := decide) only [ext_low, ext_high]
  exact ext_all _
theorem mfWord_head (op : BitVec 6) (f : MF) (s n : Nat) (h : s + n ≤ 58) : (mfWord op f).extractLsb' (64 + s) n = f.h.bits.extractLsb' s n := by
  rw [← mfWord_h op f]
  ext i hi
  simp only [BitVec.getElem_extractLsb', BitVec.getLsbD_extractLsb']
  rw [Nat.add_assoc]; simp [show s + i < 58 by omega]
theorem mHeadOf_mfWord (op : BitVec 6) (f : MF) : mHeadOf (mfWord op f) = f.h := by
  unfold mHeadOf
  rw [show (mfWord op f).extractLsb' 121 1 = f.h.fst from (mfWord_head op f 57 1 (by decide)).trans (mHead_fst f.h), show (mfWord op f).extractLsb' 120 1 = f.h.lst from (mfWord_head op f 56 1 (by decide)).trans (mHead_lst f.h), show (mfWord op f).extractLsb' 117 3 = f.h.lvl from (mfWord_head op f 53 3 (by decide)).trans (mHead_lvl f.h), show (mfWord op f).extractLsb' 113 4 = f.h.wid from (mfWord_head op f 49 4 (by decide)).trans (mHead_wid f.h), show (mfWord op f).extractLsb' 110 3 = f.h.wcnt from (mfWord_head op f 46 3 (by decide)).trans (mHead_wcnt f.h), show (mfWord op f).extractLsb' 106 4 = f.h.sid from (mfWord_head op f 42 4 (by decide)).trans (mHead_sid f.h), show (mfWord op f).extractLsb' 103 3 = f.h.scnt from (mfWord_head op f 39 3 (by decide)).trans (mHead_scnt f.h), show (mfWord op f).extractLsb' 99 4 = f.h.lgen from (mfWord_head op f 35 4 (by decide)).trans (mHead_lgen f.h), show (mfWord op f).extractLsb' 98 1 = f.h.fw from (mfWord_head op f 34 1 (by decide)).trans (mHead_fw f.h), show (mfWord op f).extractLsb' 80 18 = f.h.fpb from (mfWord_head op f 16 18 (by decide)).trans (mHead_fpb f.h), show (mfWord op f).extractLsb' 72 8 = f.h.fpx from (mfWord_head op f 8 8 (by decide)).trans (mHead_fpx f.h), show (mfWord op f).extractLsb' 68 4 = f.h.dd from (mfWord_head op f 4 4 (by decide)).trans (mHead_dd f.h), show (mfWord op f).extractLsb' 64 4 = f.h.da from (mfWord_head op f 0 4 (by decide)).trans (mHead_da f.h)]
/-- The fields of the word of some fields are those fields. -/
theorem mfOf_mfWord (op : BitVec 6) (f : MF) : mfOf (mfWord op f) = f := by
  simp only [mfOf, mHeadOf_mfWord, mfWord_db, mfWord_mq, mfWord_mimm]
theorem mHeadOf_bits_mf (w : BitVec 128) : (mHeadOf w).bits = w.extractLsb' 64 58 := by
  simp (disch := decide) only [MHead.bits, mHeadOf, ext_cat]
/-- A word is the word of its opcode and fields. -/
theorem mfWord_mfOf (w : BitVec 128) : mfWord (w.extractLsb' 122 6) (mfOf w) = w := by
  simp only [mfWord, mfOf, mHeadOf_bits_mf]
  simp (disch := decide) only [ext_cat]
  exact ext_all w

/-! Format MK. -/

theorem mkWord_op (op : BitVec 6) (f : MkF) : (mkWord op f).extractLsb' 122 6 = op := by
  change BitVec.extractLsb' 122 6 (n := 6+58+64) _ = _
  unfold mkWord
  simp (disch := decide) only [ext_low, ext_high]
  exact ext_all _
theorem mkWord_h (op : BitVec 6) (f : MkF) : (mkWord op f).extractLsb' 64 58 = f.h.bits := by
  change BitVec.extractLsb' 64 58 (n := 6+58+64) _ = _
  unfold mkWord
  simp (disch := decide) only [ext_low, ext_high]
  exact ext_all _
theorem mkWord_const (op : BitVec 6) (f : MkF) : (mkWord op f).extractLsb' 0 64 = f.const := by
  change BitVec.extractLsb' 0 64 (n := 6+58+64) _ = _
  unfold mkWord
  simp (disch := decide) only [ext_low, ext_high]
  exact ext_all _
theorem mkWord_head (op : BitVec 6) (f : MkF) (s n : Nat) (h : s + n ≤ 58) : (mkWord op f).extractLsb' (64 + s) n = f.h.bits.extractLsb' s n := by
  rw [← mkWord_h op f]
  ext i hi
  simp only [BitVec.getElem_extractLsb', BitVec.getLsbD_extractLsb']
  rw [Nat.add_assoc]; simp [show s + i < 58 by omega]
theorem mHeadOf_mkWord (op : BitVec 6) (f : MkF) : mHeadOf (mkWord op f) = f.h := by
  unfold mHeadOf
  rw [show (mkWord op f).extractLsb' 121 1 = f.h.fst from (mkWord_head op f 57 1 (by decide)).trans (mHead_fst f.h), show (mkWord op f).extractLsb' 120 1 = f.h.lst from (mkWord_head op f 56 1 (by decide)).trans (mHead_lst f.h), show (mkWord op f).extractLsb' 117 3 = f.h.lvl from (mkWord_head op f 53 3 (by decide)).trans (mHead_lvl f.h), show (mkWord op f).extractLsb' 113 4 = f.h.wid from (mkWord_head op f 49 4 (by decide)).trans (mHead_wid f.h), show (mkWord op f).extractLsb' 110 3 = f.h.wcnt from (mkWord_head op f 46 3 (by decide)).trans (mHead_wcnt f.h), show (mkWord op f).extractLsb' 106 4 = f.h.sid from (mkWord_head op f 42 4 (by decide)).trans (mHead_sid f.h), show (mkWord op f).extractLsb' 103 3 = f.h.scnt from (mkWord_head op f 39 3 (by decide)).trans (mHead_scnt f.h), show (mkWord op f).extractLsb' 99 4 = f.h.lgen from (mkWord_head op f 35 4 (by decide)).trans (mHead_lgen f.h), show (mkWord op f).extractLsb' 98 1 = f.h.fw from (mkWord_head op f 34 1 (by decide)).trans (mHead_fw f.h), show (mkWord op f).extractLsb' 80 18 = f.h.fpb from (mkWord_head op f 16 18 (by decide)).trans (mHead_fpb f.h), show (mkWord op f).extractLsb' 72 8 = f.h.fpx from (mkWord_head op f 8 8 (by decide)).trans (mHead_fpx f.h), show (mkWord op f).extractLsb' 68 4 = f.h.dd from (mkWord_head op f 4 4 (by decide)).trans (mHead_dd f.h), show (mkWord op f).extractLsb' 64 4 = f.h.da from (mkWord_head op f 0 4 (by decide)).trans (mHead_da f.h)]
/-- The fields of the word of some fields are those fields. -/
theorem mkOf_mkWord (op : BitVec 6) (f : MkF) : mkOf (mkWord op f) = f := by
  simp only [mkOf, mHeadOf_mkWord, mkWord_const]
/-- A word is the word of its opcode and fields. -/
theorem mkWord_mkOf (w : BitVec 128) : mkWord (w.extractLsb' 122 6) (mkOf w) = w := by
  simp only [mkWord, mkOf, mHeadOf_bits_mf]
  simp (disch := decide) only [ext_cat]
  exact ext_all w

/-! The tests of R77. -/

theorem firstBad_none (l : List (Bool × DecodeError)) : firstBad l = none ↔ ∀ x ∈ l, x.1 = true := by
  induction l with
  | nil => simp [firstBad]
  | cons x l ih => obtain ⟨b, e⟩ := x; cases b <;> simp [firstBad, ih]
/-- An instruction is well formed when it passes every test. -/
theorem Instr.wellFormed_iff (i : Instr) : i.WellFormed ↔ ∀ x ∈ i.checks, x.1 = true := firstBad_none _
/-- What a word decodes to has passed every test of its row. -/
theorem decideRow_ok (r : Option Instr) (i : Instr) (h : decideRow r = .ok i) : r = some i ∧ i.WellFormed := by
  unfold decideRow at h
  split at h
  · simp at h
  · split at h
    · rename_i hi; simp only [Except.ok.injEq] at h; subst h; exact ⟨rfl, hi⟩
    · simp at h
theorem decideRow_wf (i : Instr) (h : i.WellFormed) : decideRow (some i) = .ok i := by
  show (match i.illegal with | none => _ | some e => _) = _
  rw [show i.illegal = none from h]

end Sys2Proof
end

