-- ==== Sys2Proof/Laws/Memory.lean ====
section
/-!
SUPPORT. The laws of memory: what a read of bits gives after a write of bits, and that every operation keeps the canonical form.
-/
namespace Sys2Proof.Machine
open Sys2Proof

/-- One bit of memory, by its bit key. -/
def memBit (m : List Host.Cell) (b : Nat) : Bool := (memByte m (b / 8)).getLsbD (b % 8)

/-! The canonical form. -/

theorem Memory.wf_setByte (m : List Host.Cell) (k : Nat) (b : Byte) (h : Memory.wf m = true) : Memory.wf (memSetByte m k b) = true :=
  twf_tset _ _ _ _ h
theorem Memory.wf_setBytes (n : Nat) (m : List Host.Cell) (k v : Nat) (h : Memory.wf m = true) :
    Memory.wf (memSetBytes m k n v) = true := by
  induction n generalizing m k v with
  | zero => exact h
  | succ n ih => exact ih _ _ _ (Memory.wf_setByte _ _ _ h)
theorem Memory.wf_setBits (m : List Host.Cell) (a n v : Nat) (h : Memory.wf m = true) : Memory.wf (memSetBits m a n v) = true :=
  Memory.wf_setBytes _ _ _ _ h
theorem Memory.wf_clear (m : List Host.Cell) (lo hi : Nat) (h : Memory.wf m = true) : Memory.wf (tclear m lo hi) = true :=
  twf_tclear _ _ _ _ h

/-! Bytes. -/

theorem memByte_setByte (m : List Host.Cell) (k : Nat) (b : Byte) (j : Nat) :
    memByte (memSetByte m k b) j = if j = k then b else memByte m j := tget_tset _ _ _ _ _

theorem memByte_setBytes (n : Nat) (m : List Host.Cell) (k v j : Nat) :
    memByte (memSetBytes m k n v) j = if k ≤ j ∧ j < k + n then BitVec.ofNat 8 (v / 256 ^ (j - k)) else memByte m j := by
  induction n generalizing m k v with
  | zero => rw [memSetBytes, if_neg (by omega)]
  | succ n ih =>
    rw [memSetBytes, ih, memByte_setByte]
    by_cases hj : j = k
    · subst hj; rw [if_neg (by omega), if_pos rfl, if_pos (by omega)]; simp
    · by_cases h : k + 1 ≤ j ∧ j < k + 1 + n
      · rw [if_pos h, if_pos (by omega), Nat.div_div_eq_div_mul, ← Nat.pow_succ']
        congr 3; omega
      · rw [if_neg h, if_neg hj, if_neg (by omega)]

theorem testBit_memBytes (n : Nat) (m : List Host.Cell) (k j : Nat) :
    (memBytes m k n).testBit j = (decide (j < 8 * n) && memBit m (8 * k + j)) := by
  induction n generalizing k j with
  | zero => simp [memBytes]
  | succ n ih =>
    rw [memBytes, Nat.add_comm, show (256 : Nat) = 2 ^ 8 from rfl, Nat.testBit_two_pow_mul_add _ (memByte m k).isLt]
    by_cases h : j < 8
    · rw [if_pos h, memBit, show (8 * k + j) / 8 = k by omega, show (8 * k + j) % 8 = j by omega]
      simp [BitVec.getLsbD, show j < 8 * (n + 1) by omega]
    · rw [if_neg h, ih]
      have : 8 * (k + 1) + (j - 8) = 8 * k + j := by omega
      rw [this]
      congr 1
      exact decide_eq_decide.2 (by omega)

theorem spanBytes_ge (a n : Nat) : n = 0 ∨ a % 8 + n ≤ 8 * spanBytes a n := by
  unfold spanBytes; split
  · exact .inl ‹_›
  · right; omega

/-- A read of bits gives each bit of memory in its place. -/
theorem testBit_memBits (m : List Host.Cell) (a n i : Nat) : (memBits m a n).testBit i = (decide (i < n) && memBit m (a + i)) := by
  rw [memBits, Nat.testBit_mod_two_pow, Nat.testBit_div_two_pow, testBit_memBytes]
  by_cases h : i < n
  · have := spanBytes_ge a n
    have e : 8 * (a / 8) + (i + a % 8) = a + i := by omega
    rw [e]
    simp [h, show i + a % 8 < 8 * spanBytes a n by omega]
  · simp [h]

theorem memBits_lt (m : List Host.Cell) (a n : Nat) : memBits m a n < 2 ^ n := Nat.mod_lt _ (Nat.two_pow_pos n)
theorem memBits_one (m : List Host.Cell) (b : Nat) : memBits m b 1 = (memBit m b).toNat := by
  apply Nat.eq_of_testBit_eq
  intro i
  rw [testBit_memBits]
  rcases i with _ | i
  · cases memBit m b <;> simp
  · cases memBit m b <;> simp [Nat.testBit_succ]

/-- What a bit reads as after a write of bits: the value's bit within the written run, elsewhere what it read before. -/
theorem memBit_setBits (m : List Host.Cell) (a n v b : Nat) :
    memBit (memSetBits m a n v) b = if a ≤ b ∧ b < a + n then v.testBit (b - a) else memBit m b := by
  by_cases hn : n = 0
  · subst hn
    rw [if_neg (by omega)]
    simp [memSetBits, spanBytes, memSetBytes]
  rw [memBit, memSetBits, memByte_setBytes]
  have hs := (spanBytes_ge a n).resolve_left hn
  split
  · rename_i h
    rw [BitVec.getLsbD_ofNat]
    have h8 : b % 8 < 8 := Nat.mod_lt _ (by decide)
    simp only [h8, decide_true, Bool.true_and]
    rw [show (256 : Nat) = 2 ^ 8 from rfl, ← Nat.pow_mul, Nat.testBit_div_two_pow]
    have e : b % 8 + 8 * (b / 8 - a / 8) = b - 8 * (a / 8) := by omega
    rw [e]
    have hlo : memBytes m (a / 8) (spanBytes a n) % 2 ^ (a % 8) < 2 ^ (a % 8) := Nat.mod_lt _ (Nat.two_pow_pos _)
    have hv : v % 2 ^ n < 2 ^ n := Nat.mod_lt _ (Nat.two_pow_pos _)
    have hin : memBytes m (a / 8) (spanBytes a n) % 2 ^ (a % 8) + 2 ^ (a % 8) * (v % 2 ^ n) < 2 ^ (a % 8 + n) := by
      calc _ < 2 ^ (a % 8) + 2 ^ (a % 8) * (v % 2 ^ n) := by omega
        _ = 2 ^ (a % 8) * (v % 2 ^ n + 1) := by rw [Nat.mul_add]; omega
        _ ≤ 2 ^ (a % 8) * 2 ^ n := Nat.mul_le_mul_left _ hv
        _ = _ := (Nat.pow_add ..).symm
    rw [Nat.add_comm _ (2 ^ (a % 8 + n) * _), Nat.testBit_two_pow_mul_add _ hin]
    split
    · rename_i h1
      rw [Nat.add_comm, Nat.testBit_two_pow_mul_add _ hlo]
      split
      · rename_i h2
        rw [if_neg (by omega), Nat.testBit_mod_two_pow, testBit_memBytes]
        have e2 : 8 * (a / 8) + (b - 8 * (a / 8)) = b := by omega
        rw [e2]
        simp [h2, show b - 8 * (a / 8) < 8 * spanBytes a n by omega]
      · rename_i h2
        rw [if_pos (by omega), Nat.testBit_mod_two_pow]
        have e2 : b - 8 * (a / 8) - a % 8 = b - a := by omega
        rw [e2]
        simp [show b - a < n by omega]
    · rename_i h1
      rw [if_neg (by omega), Nat.testBit_div_two_pow, testBit_memBytes]
      have e2 : 8 * (a / 8) + (b - 8 * (a / 8) - (a % 8 + n) + (a % 8 + n)) = b := by omega
      rw [e2]
      simp [show b - 8 * (a / 8) - (a % 8 + n) + (a % 8 + n) < 8 * spanBytes a n by omega]
  · rename_i h
    rw [if_neg (by omega), memBit]

/-- A read of the bits just written gives the value. -/
theorem memBits_setBits_same (m : List Host.Cell) (a n v : Nat) : memBits (memSetBits m a n v) a n = v % 2 ^ n := by
  apply Nat.eq_of_testBit_eq
  intro i
  rw [testBit_memBits, memBit_setBits, Nat.testBit_mod_two_pow]
  by_cases h : i < n
  · rw [if_pos (by omega)]; simp
  · simp [h]

/-- A read of bits that a write does not touch gives what it gave before. -/
theorem memBits_setBits_other (m : List Host.Cell) (a n v b k : Nat) (h : b + k ≤ a ∨ a + n ≤ b) :
    memBits (memSetBits m a n v) b k = memBits m b k := by
  apply Nat.eq_of_testBit_eq
  intro i
  rw [testBit_memBits, testBit_memBits, memBit_setBits]
  by_cases hi : i < k
  · rw [if_neg (by omega)]
  · simp [hi]

/-! Writes at a home. -/

@[simp] theorem State.logError_mem (s : State) (p : Nat) (r : BitVec 128) : (s.logError p r).mem = s.mem := rfl
@[simp] theorem State.logError_cores (s : State) (p : Nat) (r : BitVec 128) : (s.logError p r).cores = s.cores := rfl
@[simp] theorem State.logCrc_mem (s : State) (p pa : Nat) (c : BitVec 32) : (s.logCrc p pa c).mem = s.mem := rfl
@[simp] theorem State.logCrc_cores (s : State) (p pa : Nat) (c : BitVec 32) : (s.logCrc p pa c).cores = s.cores := rfl
theorem foldl_keep {α β γ : Type} (l : List α) (f : β → α → β) (g : β → γ) (h : ∀ t i, g (f t i) = g t) (s : β) :
    g (l.foldl f s) = g s := by
  induction l generalizing s with
  | nil => rfl
  | cons i l ih => rw [List.foldl_cons, ih, h]
/-- The check of a block changes poison, the block's stored CRC and the log. -/
theorem State.crcCheck_frame (s : State) (p pa : Nat) : (s.crcCheck p pa).mem = s.mem ∧ (s.crcCheck p pa).cores = s.cores := by
  have hm : ∀ (l : List Nat) (t : State), (l.foldl (fun t i => t.setPsn p (pa / 2048 * 2048 + 128 * i) true) t).mem = t.mem :=
    fun l t => foldl_keep l (fun t i => t.setPsn p (pa / 2048 * 2048 + 128 * i) true) State.mem (fun _ _ => rfl) t
  have hc : ∀ (l : List Nat) (t : State), (l.foldl (fun t i => t.setPsn p (pa / 2048 * 2048 + 128 * i) true) t).cores = t.cores :=
    fun l t => foldl_keep l (fun t i => t.setPsn p (pa / 2048 * 2048 + 128 * i) true) State.cores (fun _ _ => rfl) t
  have hk : ∀ (t : State) (x : Tbl (Option (BitVec 32))) (c : BitVec 32), ({ t with crcs := x }.logCrc p pa c).mem = t.mem ∧
      ({ t with crcs := x }.logCrc p pa c).cores = t.cores := fun _ _ _ => ⟨rfl, rfl⟩
  generalize hl : List.range 16 = l at *
  simp only [State.crcCheck, hl]
  split
  · exact ⟨(hk _ _ _).1.trans (hm l s), (hk _ _ _).2.trans (hc l s)⟩
  · exact ⟨rfl, rfl⟩
@[simp] theorem State.crcCheck_mem (s : State) (p pa : Nat) : (s.crcCheck p pa).mem = s.mem := (s.crcCheck_frame p pa).1
@[simp] theorem State.crcCheck_cores (s : State) (p pa : Nat) : (s.crcCheck p pa).cores = s.cores := (s.crcCheck_frame p pa).2
/-- What a write does to the CRCs of its blocks leaves every bit of memory and every core. -/
theorem State.crcWrite_frame (s : State) (p : Nat) (ps : List (Nat × Nat)) : (s.crcWrite p ps).mem = s.mem ∧ (s.crcWrite p ps).cores = s.cores := by
  simp only [State.crcWrite]
  split
  · exact ⟨rfl, rfl⟩
  · exact ⟨foldl_keep _ _ State.mem (fun t b => by split <;> simp) s, foldl_keep _ _ State.cores (fun t b => by split <;> simp) s⟩
@[simp] theorem State.crcWrite_mem (s : State) (p : Nat) (ps : List (Nat × Nat)) : (s.crcWrite p ps).mem = s.mem := (s.crcWrite_frame p ps).1
@[simp] theorem State.crcWrite_cores (s : State) (p : Nat) (ps : List (Nat × Nat)) : (s.crcWrite p ps).cores = s.cores := (s.crcWrite_frame p ps).2
theorem State.touchPhase_wf (s : State) (p pa : Nat) (h : Memory.wf s.mem = true) : Memory.wf (s.touchPhase p pa).mem = true := by
  simp only [State.touchPhase]
  split
  · split
    · split
      · split
        · exact h
        · exact Memory.wf_setBits _ _ _ _ h
      · exact h
    · exact h
  · exact h
/-- A write within a granule keeps the canonical form. -/
theorem State.wrGran_wf (s : State) (p pa n v : Nat) (b : Bool) (h : Memory.wf s.mem = true) :
    Memory.wf (s.wrGran p pa n v b).mem = true := by
  have h2 : Memory.wf (s.touchPhase p pa).mem = true := State.touchPhase_wf _ _ _ h
  simp only [State.wrGran]
  split
  · split
    · exact Memory.wf_setBits _ _ _ _ h2
    · exact Memory.wf_setBits _ _ _ _ h2
  · exact Memory.wf_setBits _ _ _ _ h2
/-- A write of pieces keeps the canonical form. -/
theorem State.wrBits_wf (ps : Pieces) (s : State) (p v : Nat) (b : Bool) (h : Memory.wf s.mem = true) :
    Memory.wf (s.wrBits p ps v b).mem = true := by
  induction ps generalizing s v with
  | nil => exact h
  | cons q ps ih => exact ih _ _ (State.wrGran_wf _ _ _ _ _ _ h)
theorem State.wrPieces_wf (ps : Pieces) (s : State) (p v : Nat) (b : Bool) (h : Memory.wf s.mem = true) :
    Memory.wf (s.wrPieces p ps v b).mem = true := State.wrBits_wf _ _ _ _ _ (by simpa using h)
/-- The memory that reset leaves is in canonical form. -/
theorem State.reset_wf : Memory.wf State.reset.mem = true := rfl

end Sys2Proof.Machine
end

