-- ==== Sys2Proof/Laws/PerInstr.lean ====
section
/-!
SUPPORT. The family WordFits, one lemma per constructor: the word of an instruction fits its stream's word size; an event has none.
-/
namespace Sys2Proof.Laws.WordFits
open Sys2Proof

/-- The word of an instruction is below 2 to the number of bits of its stream's words. -/
def Statement (i : Instr) : Prop := ∀ st w, encode i = some (st, w) → w < 2 ^ st.wordBits

theorem of_word (i : Instr) (st : Str) (w : BitVec st.wordBits) (h : encode i = some (st, w.toNat)) : Statement i := by
  intro st' w' h'
  rw [h] at h'
  cases h'
  exact w.isLt
theorem of_event (i : Instr) (h : encode i = none) : Statement i := by
  intro st w h'
  rw [h] at h'
  cases h'

theorem add (f) : Statement (.add f) := of_word _ .c (crWord 0x01 f) rfl
theorem sub (f) : Statement (.sub f) := of_word _ .c (crWord 0x02 f) rfl
theorem mul (f) : Statement (.mul f) := of_word _ .c (crWord 0x03 f) rfl
theorem mulh (f) : Statement (.mulh f) := of_word _ .c (crWord 0x04 f) rfl
theorem mulhn (f) : Statement (.mulhn f) := of_word _ .c (crWord 0x05 f) rfl
theorem div (f) : Statement (.div f) := of_word _ .c (crWord 0x06 f) rfl
theorem divn (f) : Statement (.divn f) := of_word _ .c (crWord 0x07 f) rfl
theorem rem (f) : Statement (.rem f) := of_word _ .c (crWord 0x08 f) rfl
theorem remn (f) : Statement (.remn f) := of_word _ .c (crWord 0x09 f) rfl
theorem and (f) : Statement (.and f) := of_word _ .c (crWord 0x0a f) rfl
theorem or (f) : Statement (.or f) := of_word _ .c (crWord 0x0b f) rfl
theorem xor (f) : Statement (.xor f) := of_word _ .c (crWord 0x0c f) rfl
theorem andn (f) : Statement (.andn f) := of_word _ .c (crWord 0x0d f) rfl
theorem sll (f) : Statement (.sll f) := of_word _ .c (crWord 0x0e f) rfl
theorem srl (f) : Statement (.srl f) := of_word _ .c (crWord 0x0f f) rfl
theorem sra (f) : Statement (.sra f) := of_word _ .c (crWord 0x10 f) rfl
theorem min (f) : Statement (.min f) := of_word _ .c (crWord 0x11 f) rfl
theorem max (f) : Statement (.max f) := of_word _ .c (crWord 0x12 f) rfl
theorem minn (f) : Statement (.minn f) := of_word _ .c (crWord 0x13 f) rfl
theorem maxn (f) : Statement (.maxn f) := of_word _ .c (crWord 0x14 f) rfl
theorem cmpeq (f) : Statement (.cmpeq f) := of_word _ .c (crWord 0x15 f) rfl
theorem cmplt (f) : Statement (.cmplt f) := of_word _ .c (crWord 0x16 f) rfl
theorem cmpltn (f) : Statement (.cmpltn f) := of_word _ .c (crWord 0x17 f) rfl
theorem cmple (f) : Statement (.cmple f) := of_word _ .c (crWord 0x18 f) rfl
theorem cmplen (f) : Statement (.cmplen f) := of_word _ .c (crWord 0x19 f) rfl
theorem addi (f) : Statement (.addi f) := of_word _ .c (ciWord 0x20 f) rfl
theorem andi (f) : Statement (.andi f) := of_word _ .c (ciWord 0x21 f) rfl
theorem ori (f) : Statement (.ori f) := of_word _ .c (ciWord 0x22 f) rfl
theorem xori (f) : Statement (.xori f) := of_word _ .c (ciWord 0x23 f) rfl
theorem slli (f) : Statement (.slli f) := of_word _ .c (ciWord 0x24 f) rfl
theorem srli (f) : Statement (.srli f) := of_word _ .c (ciWord 0x25 f) rfl
theorem srai (f) : Statement (.srai f) := of_word _ .c (ciWord 0x26 f) rfl
theorem cmpeqi (f) : Statement (.cmpeqi f) := of_word _ .c (ciWord 0x27 f) rfl
theorem cmplti (f) : Statement (.cmplti f) := of_word _ .c (ciWord 0x28 f) rfl
theorem lim (f) : Statement (.lim f) := of_word _ .c (ciWord 0x29 f) rfl
theorem limh (f) : Statement (.limh f) := of_word _ .c (ciWord 0x2a f) rfl
theorem clz (f) : Statement (.clz f) := of_word _ .c (crWord 0x30 f) rfl
theorem ctz (f) : Statement (.ctz f) := of_word _ .c (crWord 0x31 f) rfl
theorem popc (f) : Statement (.popc f) := of_word _ .c (crWord 0x32 f) rfl
theorem bext (f) : Statement (.bext f) := of_word _ .c (ciWord 0x33 f) rfl
theorem bins (f) : Statement (.bins f) := of_word _ .c (ciWord 0x34 f) rfl
theorem bset (f) : Statement (.bset f) := of_word _ .c (ciWord 0x35 f) rfl
theorem bclr (f) : Statement (.bclr f) := of_word _ .c (ciWord 0x36 f) rfl
theorem addx (f) : Statement (.addx f) := of_word _ .c (crWord 0x37 f) rfl
theorem xidx (f) : Statement (.xidx f) := of_word _ .c (crWord 0x38 f) rfl
theorem alnup (f) : Statement (.alnup f) := of_word _ .c (crWord 0x39 f) rfl
theorem br (f) : Statement (.br f) := of_word _ .c (cbWord 0x40 f) rfl
theorem brl (f) : Statement (.brl f) := of_word _ .c (cbWord 0x41 f) rfl
theorem bdec (f) : Statement (.bdec f) := of_word _ .c (cbWord 0x44 f) rfl
theorem jr (f) : Statement (.jr f) := of_word _ .c (crWord 0x42 f) rfl
theorem jrl (f) : Statement (.jrl f) := of_word _ .c (crWord 0x43 f) rfl
theorem ld (f) : Statement (.ld f) := of_word _ .c (ciWord 0x45 f) rfl
theorem st (f) : Statement (.st f) := of_word _ .c (ciWord 0x46 f) rfl
theorem rdv (f) : Statement (.rdv f) := of_word _ .c (csWord 0x48 f) rfl
theorem mcancel (f) : Statement (.mcancel f) := of_word _ .c (csWord 0x49 f) rfl
theorem wlpush (f) : Statement (.wlpush f) := of_word _ .c (crWord 0x4a f) rfl
theorem wlspawn (f) : Statement (.wlspawn f) := of_word _ .c (crWord 0x4b f) rfl
theorem wljoinDec (f) : Statement (.wljoinDec f) := of_word _ .c (crWord 0x4c f) rfl
theorem wljoinArm (f) : Statement (.wljoinArm f) := of_word _ .c (crWord 0x4c f) rfl
theorem wljoinAdd (f) : Statement (.wljoinAdd f) := of_word _ .c (crWord 0x4c f) rfl
theorem wlfloorGate (f) : Statement (.wlfloorGate f) := of_word _ .c (crWord 0x4d f) rfl
theorem wlfloorFresh (f) : Statement (.wlfloorFresh f) := of_word _ .c (crWord 0x4d f) rfl
theorem wlfloorFb (f) : Statement (.wlfloorFb f) := of_word _ .c (crWord 0x4d f) rfl
theorem wlyield (f) : Statement (.wlyield f) := of_word _ .c (csWord 0x4e f) rfl
theorem flinit (f) : Statement (.flinit f) := of_word _ .c (crWord 0x50 f) rfl
theorem flclaim (f) : Statement (.flclaim f) := of_word _ .c (crWord 0x51 f) rfl
theorem flfill (f) : Statement (.flfill f) := of_word _ .c (crWord 0x52 f) rfl
theorem flwaitf (f) : Statement (.flwaitf f) := of_word _ .c (crWord 0x53 f) rfl
theorem flwaitr (f) : Statement (.flwaitr f) := of_word _ .c (crWord 0x54 f) rfl
theorem fltake (f) : Statement (.fltake f) := of_word _ .c (crWord 0x55 f) rfl
theorem flrel (f) : Statement (.flrel f) := of_word _ .c (crWord 0x56 f) rfl
theorem mfence (f) : Statement (.mfence f) := of_word _ .c (csWord 0x58 f) rfl
theorem mjoin (f) : Statement (.mjoin f) := of_word _ .c (csWord 0x59 f) rfl
theorem weirSet (f) : Statement (.weirSet f) := of_word _ .c (csWord 0x5a f) rfl
theorem weirArr (f) : Statement (.weirArr f) := of_word _ .c (csWord 0x5a f) rfl
theorem weirWt (f) : Statement (.weirWt f) := of_word _ .c (csWord 0x5a f) rfl
theorem weirSync (f) : Statement (.weirSync f) := of_word _ .c (csWord 0x5a f) rfl
theorem recast (f) : Statement (.recast f) := of_word _ .c (crWord 0x5b f) rfl
theorem rcwait (f) : Statement (.rcwait f) := of_word _ .c (crWord 0x5c f) rfl
theorem phmark (f) : Statement (.phmark f) := of_word _ .c (crWord 0x5d f) rfl
theorem phcommit (f) : Statement (.phcommit f) := of_word _ .c (csWord 0x5e f) rfl
theorem phabort (f) : Statement (.phabort f) := of_word _ .c (csWord 0x5f f) rfl
theorem semsig (f) : Statement (.semsig f) := of_word _ .c (csWord 0x60 f) rfl
theorem semwait (f) : Statement (.semwait f) := of_word _ .c (csWord 0x61 f) rfl
theorem fxwin (f) : Statement (.fxwin f) := of_word _ .c (crWord 0x62 f) rfl
theorem fxallow (f) : Statement (.fxallow f) := of_word _ .c (crWord 0x63 f) rfl
theorem fxsendBlk (f) : Statement (.fxsendBlk f) := of_word _ .c (crWord 0x64 f) rfl
theorem fxsendMc (f) : Statement (.fxsendMc f) := of_word _ .c (crWord 0x64 f) rfl
theorem fxsendFaa (f) : Statement (.fxsendFaa f) := of_word _ .c (crWord 0x64 f) rfl
theorem fxarm (f) : Statement (.fxarm f) := of_word _ .c (crWord 0x65 f) rfl
theorem fxdisarm (f) : Statement (.fxdisarm f) := of_word _ .c (csWord 0x66 f) rfl
theorem fxcntRd (f) : Statement (.fxcntRd f) := of_word _ .c (crWord 0x67 f) rfl
theorem fxcntSub (f) : Statement (.fxcntSub f) := of_word _ .c (crWord 0x67 f) rfl
theorem fxcntWt (f) : Statement (.fxcntWt f) := of_word _ .c (crWord 0x67 f) rfl
theorem fxfence (f) : Statement (.fxfence f) := of_word _ .c (csWord 0x68 f) rfl
theorem nop (f) : Statement (.nop f) := of_word _ .c (csWord 0x70 f) rfl
theorem trap (f) : Statement (.trap f) := of_word _ .c (csWord 0x71 f) rfl
theorem eret (f) : Statement (.eret f) := of_word _ .c (csWord 0x72 f) rfl
theorem sysrd (f) : Statement (.sysrd f) := of_word _ .c (crWord 0x73 f) rfl
theorem syswr (f) : Statement (.syswr f) := of_word _ .c (crWord 0x74 f) rfl
theorem semWrite (f) : Statement (.semWrite f) := of_word _ .c (crWord 0x74 f) rfl
theorem epcWrite (f) : Statement (.epcWrite f) := of_word _ .c (crWord 0x74 f) rfl
theorem allowWrite (f) : Statement (.allowWrite f) := of_word _ .c (crWord 0x74 f) rfl
theorem worklistRegisterWrite (f) : Statement (.worklistRegisterWrite f) := of_word _ .c (crWord 0x74 f) rfl
theorem tlbinv (f) : Statement (.tlbinv f) := of_word _ .c (crWord 0x75 f) rfl
theorem tlbinvComplete : Statement .tlbinvComplete := of_event _ rfl
theorem snaprd (f) : Statement (.snaprd f) := of_word _ .c (crWord 0x76 f) rfl
theorem snapwr (f) : Statement (.snapwr f) := of_word _ .c (crWord 0x77 f) rfl
theorem ctxsave (f) : Statement (.ctxsave f) := of_word _ .c (crWord 0x78 f) rfl
theorem ctxload (f) : Statement (.ctxload f) := of_word _ .c (crWord 0x79 f) rfl
theorem aadd (f) : Statement (.aadd f) := of_word _ .a (arWord 0x01 f) rfl
theorem aaddi (f) : Statement (.aaddi f) := of_word _ .a (aiWord 0x02 f) rfl
theorem asub (f) : Statement (.asub f) := of_word _ .a (arWord 0x03 f) rfl
theorem amul (f) : Statement (.amul f) := of_word _ .a (arWord 0x04 f) rfl
theorem ashl (f) : Statement (.ashl f) := of_word _ .a (arWord 0x05 f) rfl
theorem aand (f) : Statement (.aand f) := of_word _ .a (arWord 0x06 f) rfl
theorem alim (f) : Statement (.alim f) := of_word _ .a (aiWord 0x07 f) rfl
theorem aaddx (f) : Statement (.aaddx f) := of_word _ .a (arWord 0x08 f) rfl
theorem abr (f) : Statement (.abr f) := of_word _ .a (aiWord 0x10 f) rfl
theorem abrQ7 (f) : Statement (.abrQ7 f) := of_word _ .a (aiWord 0x10 f) rfl
theorem abrQ7Likely (f) : Statement (.abrQ7Likely f) := of_word _ .a (aiWord 0x10 f) rfl
theorem abrRdv (f) : Statement (.abrRdv f) := of_word _ .a (aiWord 0x10 f) rfl
theorem abdec (f) : Statement (.abdec f) := of_word _ .a (aiWord 0x11 f) rfl
theorem ajr (f) : Statement (.ajr f) := of_word _ .a (arWord 0x12 f) rfl
theorem agen (f) : Statement (.agen f) := of_word _ .a (aiWord 0x13 f) rfl
theorem lda (f) : Statement (.lda f) := of_word _ .a (aiWord 0x18 f) rfl
theorem sta (f) : Statement (.sta f) := of_word _ .a (aiWord 0x1a f) rfl
theorem ldv (f) : Statement (.ldv f) := of_word _ .a (aiWord 0x19 f) rfl
theorem stv (f) : Statement (.stv f) := of_word _ .a (aiWord 0x1b f) rfl
theorem cp (f) : Statement (.cp f) := of_word _ .a (arWord 0x20 f) rfl
theorem cpg (f) : Statement (.cpg f) := of_word _ .a (arWord 0x21 f) rfl
theorem cps (f) : Statement (.cps f) := of_word _ .a (arWord 0x22 f) rfl
theorem cpt (f) : Statement (.cpt f) := of_word _ .a (arWord 0x23 f) rfl
theorem cpz (f) : Statement (.cpz f) := of_word _ .a (arWord 0x24 f) rfl
theorem aswz (f) : Statement (.aswz f) := of_word _ .a (arWord 0x28 f) rfl
theorem fewait (f) : Statement (.fewait f) := of_word _ .a (aiWord 0x2c f) rfl
theorem feset (f) : Statement (.feset f) := of_word _ .a (aiWord 0x2d f) rfl
theorem feclr (f) : Statement (.feclr f) := of_word _ .a (aiWord 0x2e f) rfl
theorem pf (f) : Statement (.pf f) := of_word _ .a (aiWord 0x30 f) rfl
theorem aflclaim (f) : Statement (.aflclaim f) := of_word _ .a (arWord 0x34 f) rfl
theorem aflfill (f) : Statement (.aflfill f) := of_word _ .a (arWord 0x35 f) rfl
theorem aflwaitf (f) : Statement (.aflwaitf f) := of_word _ .a (arWord 0x36 f) rfl
theorem aflrel (f) : Statement (.aflrel f) := of_word _ .a (arWord 0x37 f) rfl
theorem vadd (f) : Statement (.vadd f) := of_word _ .v (vfWord 0x01 f) rfl
theorem vsub (f) : Statement (.vsub f) := of_word _ .v (vfWord 0x02 f) rfl
theorem vmul (f) : Statement (.vmul f) := of_word _ .v (vfWord 0x03 f) rfl
theorem vfma (f) : Statement (.vfma f) := of_word _ .v (vfWord 0x04 f) rfl
theorem vfms (f) : Statement (.vfms f) := of_word _ .v (vfWord 0x05 f) rfl
theorem vfnma (f) : Statement (.vfnma f) := of_word _ .v (vfWord 0x06 f) rfl
theorem vmin (f) : Statement (.vmin f) := of_word _ .v (vfWord 0x07 f) rfl
theorem vmax (f) : Statement (.vmax f) := of_word _ .v (vfWord 0x08 f) rfl
theorem vabs (f) : Statement (.vabs f) := of_word _ .v (vfWord 0x09 f) rfl
theorem vneg (f) : Statement (.vneg f) := of_word _ .v (vfWord 0x0a f) rfl
theorem vrcp (f) : Statement (.vrcp f) := of_word _ .v (vfWord 0x0b f) rfl
theorem vrsqrt (f) : Statement (.vrsqrt f) := of_word _ .v (vfWord 0x0c f) rfl
theorem vsqrt (f) : Statement (.vsqrt f) := of_word _ .v (vfWord 0x0d f) rfl
theorem vexp2 (f) : Statement (.vexp2 f) := of_word _ .v (vfWord 0x0e f) rfl
theorem vlog2 (f) : Statement (.vlog2 f) := of_word _ .v (vfWord 0x0f f) rfl
theorem vand (f) : Statement (.vand f) := of_word _ .v (vfWord 0x10 f) rfl
theorem vor (f) : Statement (.vor f) := of_word _ .v (vfWord 0x11 f) rfl
theorem vxor (f) : Statement (.vxor f) := of_word _ .v (vfWord 0x12 f) rfl
theorem vnot (f) : Statement (.vnot f) := of_word _ .v (vfWord 0x13 f) rfl
theorem vsll (f) : Statement (.vsll f) := of_word _ .v (vfWord 0x14 f) rfl
theorem vsrl (f) : Statement (.vsrl f) := of_word _ .v (vfWord 0x15 f) rfl
theorem vsra (f) : Statement (.vsra f) := of_word _ .v (vfWord 0x16 f) rfl
theorem vaddsat (f) : Statement (.vaddsat f) := of_word _ .v (vfWord 0x17 f) rfl
theorem vsubsat (f) : Statement (.vsubsat f) := of_word _ .v (vfWord 0x18 f) rfl
theorem vmulhi (f) : Statement (.vmulhi f) := of_word _ .v (vfWord 0x19 f) rfl
theorem vcmpeq (f) : Statement (.vcmpeq f) := of_word _ .v (vfWord 0x20 f) rfl
theorem vcmplt (f) : Statement (.vcmplt f) := of_word _ .v (vfWord 0x21 f) rfl
theorem vcmple (f) : Statement (.vcmple f) := of_word _ .v (vfWord 0x22 f) rfl
theorem kand (f) : Statement (.kand f) := of_word _ .v (vfWord 0x28 f) rfl
theorem kor (f) : Statement (.kor f) := of_word _ .v (vfWord 0x29 f) rfl
theorem kxor (f) : Statement (.kxor f) := of_word _ .v (vfWord 0x2a f) rfl
theorem knot (f) : Statement (.knot f) := of_word _ .v (vfWord 0x2b f) rfl
theorem kpop (f) : Statement (.kpop f) := of_word _ .v (vfWord 0x2c f) rfl
theorem kfirst (f) : Statement (.kfirst f) := of_word _ .v (vfWord 0x2d f) rfl
theorem vmov (f) : Statement (.vmov f) := of_word _ .v (vfWord 0x30 f) rfl
theorem vbcast (f) : Statement (.vbcast f) := of_word _ .v (vfWord 0x31 f) rfl
theorem vsel (f) : Statement (.vsel f) := of_word _ .v (vfWord 0x32 f) rfl
theorem vperm (f) : Statement (.vperm f) := of_word _ .v (vfWord 0x33 f) rfl
theorem vrot (f) : Statement (.vrot f) := of_word _ .v (vfWord 0x34 f) rfl
theorem vslide (f) : Statement (.vslide f) := of_word _ .v (vfWord 0x35 f) rfl
theorem vzip (f) : Statement (.vzip f) := of_word _ .v (vfWord 0x36 f) rfl
theorem vunzip (f) : Statement (.vunzip f) := of_word _ .v (vfWord 0x37 f) rfl
theorem vpart (f) : Statement (.vpart f) := of_word _ .v (vfWord 0x38 f) rfl
theorem vcompact (f) : Statement (.vcompact f) := of_word _ .v (vfWord 0x39 f) rfl
theorem vredsum (f) : Statement (.vredsum f) := of_word _ .v (vfWord 0x40 f) rfl
theorem vredmax (f) : Statement (.vredmax f) := of_word _ .v (vfWord 0x41 f) rfl
theorem vredmin (f) : Statement (.vredmin f) := of_word _ .v (vfWord 0x42 f) rfl
theorem vredamax (f) : Statement (.vredamax f) := of_word _ .v (vfWord 0x43 f) rfl
theorem vscan (f) : Statement (.vscan f) := of_word _ .v (vfWord 0x44 f) rfl
theorem vld (f) : Statement (.vld f) := of_word _ .v (vfWord 0x48 f) rfl
theorem vst (f) : Statement (.vst f) := of_word _ .v (vfWord 0x49 f) rfl
theorem vldt (f) : Statement (.vldt f) := of_word _ .v (vfWord 0x4a f) rfl
theorem vcvt (f) : Statement (.vcvt f) := of_word _ .v (vfWord 0x50 f) rfl
theorem vquant (f) : Statement (.vquant f) := of_word _ .v (vfWord 0x51 f) rfl
theorem vdeq (f) : Statement (.vdeq f) := of_word _ .v (vfWord 0x52 f) rfl
theorem vscl (f) : Statement (.vscl f) := of_word _ .v (vfWord 0x55 f) rfl
theorem vpack (f) : Statement (.vpack f) := of_word _ .v (vfWord 0x53 f) rfl
theorem vunpack (f) : Statement (.vunpack f) := of_word _ .v (vfWord 0x54 f) rfl
theorem vtag (f) : Statement (.vtag f) := of_word _ .v (vfWord 0x58 f) rfl
theorem vtagrd (f) : Statement (.vtagrd f) := of_word _ .v (vfWord 0x59 f) rfl
theorem gadd (f) : Statement (.gadd f) := of_word _ .v (vfWord 0x60 f) rfl
theorem gaddi (f) : Statement (.gaddi f) := of_word _ .v (viWord 0x61 f) rfl
theorem glim (f) : Statement (.glim f) := of_word _ .v (viWord 0x62 f) rfl
theorem gmov (f) : Statement (.gmov f) := of_word _ .v (vfWord 0x63 f) rfl
theorem gbr (f) : Statement (.gbr f) := of_word _ .v (viWord 0x64 f) rfl
theorem gbrRdv (f) : Statement (.gbrRdv f) := of_word _ .v (viWord 0x64 f) rfl
theorem gbdec (f) : Statement (.gbdec f) := of_word _ .v (viWord 0x65 f) rfl
theorem vsemsig (f) : Statement (.vsemsig f) := of_word _ .v (vfWord 0x68 f) rfl
theorem vsemwait (f) : Statement (.vsemwait f) := of_word _ .v (vfWord 0x69 f) rfl
theorem resultLanding : Statement .resultLanding := of_event _ rfl
theorem mbase (f) : Statement (.mbase f) := of_word _ .m (mfWord 0x01 f) rfl
theorem mrow (f) : Statement (.mrow f) := of_word _ .m (mfWord 0x02 f) rfl
theorem mseed (f) : Statement (.mseed f) := of_word _ .m (mfWord 0x03 f) rfl
theorem mternSeed (f) : Statement (.mternSeed f) := of_word _ .m (mfWord 0x04 f) rfl
theorem mternCim (f) : Statement (.mternCim f) := of_word _ .m (mfWord 0x04 f) rfl
theorem mternTile (f) : Statement (.mternTile f) := of_word _ .m (mfWord 0x04 f) rfl
theorem mcimldMem (f) : Statement (.mcimldMem f) := of_word _ .m (mfWord 0x05 f) rfl
theorem mcimldBasis (f) : Statement (.mcimldBasis f) := of_word _ .m (mfWord 0x05 f) rfl
theorem mfp (f) : Statement (.mfp f) := of_word _ .m (mfWord 0x06 f) rfl
theorem maccz (f) : Statement (.maccz f) := of_word _ .m (mfWord 0x07 f) rfl
theorem maccrd (f) : Statement (.maccrd f) := of_word _ .m (mfWord 0x08 f) rfl
theorem maccwr (f) : Statement (.maccwr f) := of_word _ .m (mfWord 0x09 f) rfl
theorem mchk (f) : Statement (.mchk f) := of_word _ .m (mkWord 0x0a f) rfl
theorem mscan (f) : Statement (.mscan f) := of_word _ .m (mkWord 0x0b f) rfl
theorem mtest (f) : Statement (.mtest f) := of_word _ .m (mfWord 0x0c f) rfl
theorem mloop (f) : Statement (.mloop f) := of_word _ .m (mfWord 0x0d f) rfl
theorem msem (f) : Statement (.msem f) := of_word _ .m (mfWord 0x0e f) rfl
theorem mdrain (f) : Statement (.mdrain f) := of_word _ .m (mfWord 0x0f f) rfl
theorem mdrainRdv (f) : Statement (.mdrainRdv f) := of_word _ .m (mfWord 0x0f f) rfl
theorem commandStart : Statement .commandStart := of_event _ rfl
theorem commandComplete : Statement .commandComplete := of_event _ rfl
theorem mcancelAct : Statement .mcancelAct := of_event _ rfl
theorem injectedSelfTest : Statement .injectedSelfTest := of_event _ rfl
theorem rendezvousResume : Statement .rendezvousResume := of_event _ rfl
theorem queueStall : Statement .queueStall := of_event _ rfl
theorem feStall : Statement .feStall := of_event _ rfl
theorem syncStall : Statement .syncStall := of_event _ rfl
theorem rcStall : Statement .rcStall := of_event _ rfl
theorem handlerEntry : Statement .handlerEntry := of_event _ rfl
theorem likelyResolution : Statement .likelyResolution := of_event _ rfl
theorem loadReturn : Statement .loadReturn := of_event _ rfl
theorem copyComplete : Statement .copyComplete := of_event _ rfl
theorem copyStop : Statement .copyStop := of_event _ rfl
theorem walkComplete : Statement .walkComplete := of_event _ rfl
theorem recastComplete : Statement .recastComplete := of_event _ rfl
theorem flumeHomeOperation : Statement .flumeHomeOperation := of_event _ rfl
theorem weirRelease : Statement .weirRelease := of_event _ rfl
theorem taskDispatch : Statement .taskDispatch := of_event _ rfl
theorem taskStart : Statement .taskStart := of_event _ rfl
theorem taskRetire : Statement .taskRetire := of_event _ rfl
theorem pushAccept : Statement .pushAccept := of_event _ rfl
theorem floorReduction : Statement .floorReduction := of_event _ rfl
theorem domainFloorReduction : Statement .domainFloorReduction := of_event _ rfl
theorem neighbourRequest : Statement .neighbourRequest := of_event _ rfl
theorem recordForward : Statement .recordForward := of_event _ rfl
theorem inversion : Statement .inversion := of_event _ rfl
theorem termination : Statement .termination := of_event _ rfl
theorem preemptRequest : Statement .preemptRequest := of_event _ rfl
theorem saveAreaWrite : Statement .saveAreaWrite := of_event _ rfl
theorem resume : Statement .resume := of_event _ rfl
theorem contextKill : Statement .contextKill := of_event _ rfl
theorem killed : Statement .killed := of_event _ rfl
theorem homeMessage : Statement .homeMessage := of_event _ rfl
theorem readData : Statement .readData := of_event _ rfl
theorem reply : Statement .reply := of_event _ rfl
theorem memoryAcknowledgement : Statement .memoryAcknowledgement := of_event _ rfl
theorem slotArrival : Statement .slotArrival := of_event _ rfl
theorem triggerFire : Statement .triggerFire := of_event _ rfl
theorem launch : Statement .launch := of_event _ rfl
theorem loadImage : Statement .loadImage := of_event _ rfl
theorem createContext : Statement .createContext := of_event _ rfl
theorem queryIdentity : Statement .queryIdentity := of_event _ rfl
theorem queryRoleEntry : Statement .queryRoleEntry := of_event _ rfl
theorem queryFlumeBlock : Statement .queryFlumeBlock := of_event _ rfl
theorem queryGranule : Statement .queryGranule := of_event _ rfl
theorem queryDramBank : Statement .queryDramBank := of_event _ rfl
theorem resetContext : Statement .resetContext := of_event _ rfl
theorem readErrors : Statement .readErrors := of_event _ rfl
theorem packageReset : Statement .packageReset := of_event _ rfl
theorem hostWrite : Statement .hostWrite := of_event _ rfl
theorem hostRead : Statement .hostRead := of_event _ rfl
theorem powerEstimate : Statement .powerEstimate := of_event _ rfl
theorem eccInterval : Statement .eccInterval := of_event _ rfl
theorem bankReencode : Statement .bankReencode := of_event _ rfl
theorem reencodeComplete : Statement .reencodeComplete := of_event _ rfl
theorem reservedOpcode : Statement .reservedOpcode := of_event _ rfl
theorem wordFetchFault : Statement .wordFetchFault := of_event _ rfl
theorem linkLayerRetry : Statement .linkLayerRetry := of_event _ rfl
theorem badOp : Statement .badOp := of_event _ rfl

end Sys2Proof.Laws.WordFits
end

