-- ==== Sys2Proof/Laws/Words.lean ====
section
/-!
SUPPORT. What the shared forms of V words do, what a turn comes to, and the frames of stores.
-/
namespace Sys2Proof.Machine
open Sys2Proof

@[simp] theorem State.updMe_eq (s : State) (g : Core → Core) : s.updMe g = s.setMe (g s.me) := rfl

/-! V words. -/

theorem vRooms_ok (s : State) (l : List VDst)
    (h : ∀ d ∈ l, (∀ n, d = .wq n → s.me.wqFree n s.now = true) ∧ (d = .q5 → s.me.qFree 5 s.now = true)) :
    l.forM s.vRoom = .ok () := by
  induction l with
  | nil => rfl
  | cons d l ih =>
    have hd : s.vRoom d = .ok () := by
      have := h d List.mem_cons_self
      cases d with
      | wq n => simp [State.vRoom, this.1 n rfl]
      | q5 => simp [State.vRoom, this.2 rfl]
      | _ => rfl
    show (s.vRoom d >>= fun _ => l.forM s.vRoom) = .ok ()
    rw [hd]
    exact ih fun x hx => h x (List.mem_cons_of_mem _ hx)

/-- The sources of a word have the tags it asks for and no poison that stops it. -/
theorem vSources_ok (s : State) (u : VUse) (h5 : ∀ o ∈ u.vs, ∀ t, o.2 = some t → (s.vSrc o.1).tag.toNat = t)
    (h6 : u.carry = true ∨ ((∀ o ∈ u.vs, (s.vSrc o.1).psn = false) ∧
      ∀ n ∈ vQueues u.gs, ∀ e, s.me.qHead n s.now = some e → e.psn = false)) : s.vSources u = .ok () := by
  have e1 (p : VOp × Option Nat → Bool) (hp : ∀ o ∈ u.vs, p o = true) : (u.vs.filter fun o => s.vKnown o.1).all p = true :=
    List.all_eq_true.2 fun o ho => hp o (List.mem_filter.1 ho).1
  have e2 : (u.carry || !((u.vs.filter fun o => s.vKnown o.1).any (fun o => (s.vSrc o.1).psn) ||
      (vQueues u.gs).any fun n => ((s.me.qHead n s.now).map (·.psn)).getD false)) = true := by
    rcases h6 with hc | ⟨ha, hb⟩
    · simp [hc]
    · have a1 : (u.vs.filter fun o => s.vKnown o.1).any (fun o => (s.vSrc o.1).psn) = false := by
        rw [List.any_eq_false]; intro o ho'; simp [ha o (List.mem_filter.1 ho').1]
      have a2 : ((vQueues u.gs).any fun n => ((s.me.qHead n s.now).map (·.psn)).getD false) = false := by
        rw [List.any_eq_false]; intro n hn
        cases hq : s.me.qHead n s.now with
        | none => simp
        | some e => simp [hb n hn e hq]
      rw [a1, a2]; simp
  show (need _ _ >>= fun _ => need _ _) = .ok ()
  rw [e1 _ fun o ho => by split <;> first | simp [h5 o ho _ (by assumption)] | rfl]
  exact need_ok.2 e2

/-- A ready V word whose function answers its results issues: pops, results on their way, next slot, next word. -/
theorem vForm_ok (g : Guard) (pk : BitVec 1) (u : VUse) (lat : Nat) (op : State → Except Stop (List VOut × State)) (s : State)
    (outs : List VOut) (s1 : State) (h : VReady g u s) (ho : op s = .ok (outs, s1)) :
    vForm g pk u lat op s = vDone s pk u lat outs s1 := by
  obtain ⟨h1, h2, h3, h4, h5, h6, h7⟩ := h
  have ht : tests ((vQueues (u.vs.map (·.1))).map (fun n => ((s.me.wqHead n s.now).isSome, Stop.wait (.queue (8 + n)))) ++
      (vQueues u.gs).map (fun n => ((s.me.qHead n s.now).isSome, Stop.wait (.queue n)))) = .ok () := by
    rw [tests_ok]
    intro x hx
    simp only [List.mem_append, List.mem_map] at hx
    rcases hx with ⟨n, hn, rfl⟩ | ⟨n, hn, rfl⟩
    · exact h3 n hn
    · exact h4 n hn
  simp only [vForm, vWord]
  rw [h1, if_neg (by simp), if_pos h2]
  simp only [bind, Except.bind, vSources_ok s u h5 h6, ht, ho, vRooms_ok s u.ds h7, State.finish_ok, State.updMe_eq, vDone]
  by_cases hk : pk = 1 <;> simp [hk]

/-- Everything that a V word can come to: it waits under the scoreboard, its false guard takes its slot, it stops, or it issues. -/
theorem vForm_cases (g : Guard) (pk : BitVec 1) (u : VUse) (lat : Nat) (op : State → Except Stop (List VOut × State)) (s : State) :
    vForm g pk u lat op s = s.noteWait .v .free ∨ vForm g pk u lat op s = s.vNext ∨
    (∃ e : Stop, vForm g pk u lat op s = s.finish .v (.error e)) ∨
    ∃ outs s1, op s = .ok (outs, s1) ∧ vForm g pk u lat op s = vDone s pk u lat outs s1 := by
  simp only [vForm, vWord]
  split
  · exact .inl rfl
  · split
    · simp only [bind, Except.bind]
      split
      · exact .inr (.inr (.inl ⟨_, rfl⟩))
      · split
        · exact .inr (.inr (.inl ⟨_, rfl⟩))
        · split
          · exact .inr (.inr (.inl ⟨_, rfl⟩))
          · rename_i r hr
            split
            · exact .inr (.inr (.inl ⟨_, rfl⟩))
            · refine .inr (.inr (.inr ⟨r.1, r.2, by simpa using hr, ?_⟩))
              by_cases hk : pk = 1 <;> simp [hk, vDone]
    · exact .inr (.inl rfl)

/-! The turns. -/

/-- With no abort under way a turn of a stream is its ordinary turn; a stall acts only where the wait has run out. -/
theorem streamTurn_plain (st : Str) (s : State) (h : s.me.abort = none) :
    streamTurn st s = match turnOf st s with
      | .run i t =>
        if isStall i then (match s.stallNow st with | some (j, u) => exec j u | none => runTurn s (turnWord st s))
        else runTurn s (.run i t)
      | o => runTurn s o := by
  have e : s.turn st = turnOf st s := by simp only [State.turn, h]
  simp only [streamTurn, e] <;> (cases turnOf st s <;> rfl)
/-- A stream that cannot issue does nothing in its turn. -/
theorem turnOf_idle (st : Str) (s : State) (h : s.me.canIssue st s.now = false) : turnOf st s = .idle := by
  simp [turnOf, h]

/-- Reset leaves a safe state. -/
theorem reset_safe : Safe State.reset := rfl

/-! Reads that the host port drops, pages used, floors. -/

/-- A dropped read changes the package's log, and no memory, poison or core (22 R428). -/
theorem State.dropped_frame (s : State) (ps : Pieces) : ∃ l, s.dropped ps = { s with pkgs := l } := by
  unfold State.dropped
  generalize s.denied ps = qs
  generalize s.myPkg = p, numOf s.cur = n, s.job.rcd.ctx.toNat = x
  induction qs generalizing s with
  | nil => exact ⟨_, rfl⟩
  | cons q qs ih =>
    obtain ⟨l, h⟩ := ih (s.dropHost p n x q.1)
    exact ⟨l, by rw [List.foldl_cons, h]; rfl⟩
@[simp] theorem State.dropped_mem (s : State) (ps : Pieces) : (s.dropped ps).mem = s.mem := by obtain ⟨l, h⟩ := s.dropped_frame ps; rw [h]
@[simp] theorem State.dropped_cores (s : State) (ps : Pieces) : (s.dropped ps).cores = s.cores := by
  obtain ⟨l, h⟩ := s.dropped_frame ps; rw [h]
@[simp] theorem State.drawn_mem (s : State) (ps : Pieces) : (s.drawn ps).mem = s.mem := by rw [State.drawn, State.dropped_mem]
@[simp] theorem State.drawn_cores (s : State) (ps : Pieces) : (s.drawn ps).cores = s.cores := by rw [State.drawn, State.dropped_cores]
@[simp] theorem State.usePages_mem (s : State) (st : Str) (ea n : Nat) : (s.usePages st ea n).mem = s.mem :=
  foldl_keep (cuts ea n) (fun (t : State) p => t.useTlb s.cur (.stream st) p.1) State.mem (fun _ _ => rfl) s
@[simp] theorem State.useFetch_mem (s : State) (st : Str) (w : Nat) : (s.useFetch st w).mem = s.mem := by
  unfold State.useFetch
  split
  · rfl
  · exact (foldl_keep (cuts (s.ctl st).pc.toNat st.wordBits) (fun (t : State) p => t.useTlb s.cur (.stream st) p.1) State.mem
      (fun _ _ => rfl) _).trans (s.dropped_mem _)
/-- New gate floors change the dies' part of a context alone. -/
theorem State.setGates_frame (s : State) (pkg : Nat) (x : BitVec 4) (g : DieCtx → DieCtx) : ∃ l, s.setGates pkg x g = { s with dctxs := l } := by
  unfold State.setGates
  generalize diesOf pkg = ds
  induction ds generalizing s with
  | nil => exact ⟨_, rfl⟩
  | cons d ds ih =>
    obtain ⟨l, h⟩ := ih (s.setDctx d x (g (s.dctxAt d x)))
    exact ⟨l, by rw [List.foldl_cons, h]; rfl⟩
/-- A floor that is set changes contexts and their parts at the dies, and nothing else (18 R369, R371). -/
theorem State.setFloor_frame (s : State) (pkg : Nat) (x : BitVec 4) (p : BitVec 32) (g : DieCtx → DieCtx) :
    ∃ c l, s.setFloor pkg x p g = { s with ctxs := c, dctxs := l } := by
  unfold State.setFloor
  generalize s.floorPkgs pkg x = qs
  induction qs generalizing s with
  | nil => exact ⟨_, _, rfl⟩
  | cons q qs ih =>
    obtain ⟨l0, h0⟩ := (s.setCtxAt (ctxKey q x) { s.ctxAt (ctxKey q x) with fh := some p }).setGates_frame q x g
    obtain ⟨c, l, h⟩ := ih ((s.setCtxAt (ctxKey q x) { s.ctxAt (ctxKey q x) with fh := some p }).setGates q x g)
    exact ⟨c, l, by rw [List.foldl_cons, h, h0]; rfl⟩
theorem State.joinFloor_frame (s : State) (pkg : Nat) (x : BitVec 4) (f : BitVec 32) :
    ∃ c l, s.joinFloor pkg x f = { s with ctxs := c, dctxs := l } := by
  unfold State.joinFloor
  split
  · exact ⟨_, _, rfl⟩
  · obtain ⟨l, h⟩ := (s.setCtxAt (ctxKey pkg x) { s.ctxAt (ctxKey pkg x) with fh := some f }).setGates_frame pkg x
      fun d => { d with g := some f, low := none }
    exact ⟨_, l, h⟩

end Sys2Proof.Machine
end

