-- ==== Sys2Proof/Tests/Slice0.lean ====
section
/-!
SUPPORT. Tests: every word form decodes from a word written out field by field, ill-formed terms are refused by name, the spec's worked
examples, and for every statement a state and operands that meet its hypotheses together.
-/
set_option maxRecDepth 20000
set_option Elab.async false
namespace Sys2Proof.Tests
open Sys2Proof Sys2Proof.Machine

/-- Decides equality of two results. -/
def exceptDec {ε α : Type} [DecidableEq ε] [DecidableEq α] : DecidableEq (Except ε α)
  | .ok a, .ok b => if h : a = b then isTrue (h ▸ rfl) else isFalse fun e => h (Except.ok.inj e)
  | .error a, .error b => if h : a = b then isTrue (h ▸ rfl) else isFalse fun e => h (Except.error.inj e)
  | .ok _, .error _ => isFalse fun e => nomatch e
  | .error _, .ok _ => isFalse fun e => nomatch e
/-- A proposition that its decision procedure finds true. -/
theorem byKernel {p : Prop} (d : Decidable p) (h : d.decide = true) : p := of_decide_eq_true h

/-! Small states: core 5 of package 0, its job of context 1. -/

def g0 : Guard := { gd := 0, gb := 0, gs := 1 }
def gN : Guard := { gd := 3, gb := 0, gs := 0 }
def rc0 : Rec := { code := 0x2000, frame := 0x1000, pri := 5, ctx := 1 }
def j0 : Job := { rcd := rc0, serial := 1 }
def own0 : DirEntry := { sys := false, ctx := 1, frame := 0x1000 }
def acc0 : DirEntry := { own0 with role := .acc }
def core0 : Core := { job := some j0, roleDef := own0, roles := [(4096, acc0)] }
def pg0 : TlbEntry := { ctx := 1, va := 0x40000000, size := 19, pa := 0x80000, swz := 0, r := true, w := true, x := true, add := true }
def win0 : Window := { v := true, faa := true, pkg := 0, core := 6, tb := 0, extm1 := 100000 }
def winA : Window := { v := true, faa := true, pkg := 0, core := 6, tb := 2 ^ 20, extm1 := 2000 }
def coreM : Core := { core0 with tlb := [pg0], fab := { win := [(1, win0), (2, winA)] } }
def st (c : Core) (m : List Host.Cell := []) : State := { cores := [(5, c)], cur := 5, mem := m, now := 10, dir := [(16, own0)] }
def qe (v : W64) : Queue := { ents := [{ val := v }] }
def qFull : Queue := { ents := List.replicate 8 { val := 7 } }
def run (i : Instr) (s : State) : State := match exec i s with | .next t => t | _ => s
def cr (ra rb rd : Nat) (fn : Nat := 0) : CrF :=
  { g := g0, rd := BitVec.ofNat 5 rd, ra := BitVec.ofNat 5 ra, rb := BitVec.ofNat 5 rb, pk := 0, qd := 0, qa := 0, qb := 0, fn := BitVec.ofNat 10 fn }
def okOf {ε α : Type} [Inhabited α] (e : Except ε α) : α := match e with | .ok x => x | .error _ => default
def stPsn (c : Core) (m : List Host.Cell := []) : State := { st c m with psn := [(granKey 0 0x80000, true), (granKey 0 (apAddr 5 0), true)] }

/-- A record of format CR from its fields, as 04 Tables 4.4 to 4.16 order them. -/
def wCr (gd gb gs rd ra rb pk qd qa qb fn : Nat) : CrF :=
  { g := { gd := BitVec.ofNat 5 gd, gb := BitVec.ofNat 6 gb, gs := BitVec.ofNat 1 gs }, rd := BitVec.ofNat 5 rd,
    ra := BitVec.ofNat 5 ra, rb := BitVec.ofNat 5 rb, pk := BitVec.ofNat 1 pk, qd := BitVec.ofNat 1 qd,
    qa := BitVec.ofNat 1 qa, qb := BitVec.ofNat 1 qb, fn := BitVec.ofNat 10 fn }
/-- A record of format CI from its fields, as 04 Tables 4.4 to 4.16 order them. -/
def wCi (gd gb gs rd ra imm : Nat) : CiF :=
  { g := { gd := BitVec.ofNat 5 gd, gb := BitVec.ofNat 6 gb, gs := BitVec.ofNat 1 gs }, rd := BitVec.ofNat 5 rd,
    ra := BitVec.ofNat 5 ra, imm := BitVec.ofNat 19 imm }
/-- A record of format CB from its fields, as 04 Tables 4.4 to 4.16 order them. -/
def wCb (gd gb gs ra off : Nat) : CbF :=
  { g := { gd := BitVec.ofNat 5 gd, gb := BitVec.ofNat 6 gb, gs := BitVec.ofNat 1 gs }, ra := BitVec.ofNat 5 ra,
    off := BitVec.ofNat 24 off }
/-- A record of format CS from its fields, as 04 Tables 4.4 to 4.16 order them. -/
def wCs (gd gb gs sub sys : Nat) : CsF :=
  { g := { gd := BitVec.ofNat 5 gd, gb := BitVec.ofNat 6 gb, gs := BitVec.ofNat 1 gs }, sub := BitVec.ofNat 5 sub,
    sys := BitVec.ofNat 24 sys }
/-- A record of format AR from its fields, as 04 Tables 4.4 to 4.16 order them. -/
def wAr (pk aq gen ad aa ab ac w : Nat) : ArF :=
  { pk := BitVec.ofNat 1 pk, aq := BitVec.ofNat 7 aq, gen := BitVec.ofNat 4 gen, ad := BitVec.ofNat 5 ad,
    aa := BitVec.ofNat 5 aa, ab := BitVec.ofNat 5 ab, ac := BitVec.ofNat 5 ac, w := BitVec.ofNat 24 w }
/-- A record of format AI from its fields, as 04 Tables 4.4 to 4.16 order them. -/
def wAi (pk aq gen ad aa rsv imm : Nat) : AiF :=
  { pk := BitVec.ofNat 1 pk, aq := BitVec.ofNat 7 aq, gen := BitVec.ofNat 4 gen, ad := BitVec.ofNat 5 ad,
    aa := BitVec.ofNat 5 aa, rsv := BitVec.ofNat 2 rsv, imm := BitVec.ofNat 32 imm }
/-- A record of format VF from its fields, as 04 Tables 4.4 to 4.16 order them. -/
def wVf (gd gb gs tag vd va vb vc k rm sat pk qd qa qb qx : Nat) : VF :=
  { g := { gd := BitVec.ofNat 5 gd, gb := BitVec.ofNat 6 gb, gs := BitVec.ofNat 1 gs }, tag := BitVec.ofNat 5 tag,
    vd := BitVec.ofNat 5 vd, va := BitVec.ofNat 5 va, vb := BitVec.ofNat 5 vb, vc := BitVec.ofNat 5 vc,
    k := BitVec.ofNat 3 k, rm := BitVec.ofNat 3 rm, sat := BitVec.ofNat 1 sat, pk := BitVec.ofNat 1 pk,
    qd := BitVec.ofNat 1 qd, qa := BitVec.ofNat 1 qa, qb := BitVec.ofNat 1 qb, qx := BitVec.ofNat 7 qx }
/-- A record of format VI from its fields, as 04 Tables 4.4 to 4.16 order them. -/
def wVi (gd gb gs tag vd va vb vc k q : Nat) : ViF :=
  { g := { gd := BitVec.ofNat 5 gd, gb := BitVec.ofNat 6 gb, gs := BitVec.ofNat 1 gs }, tag := BitVec.ofNat 5 tag,
    vd := BitVec.ofNat 5 vd, va := BitVec.ofNat 5 va, vb := BitVec.ofNat 5 vb, vc := BitVec.ofNat 5 vc,
    k := BitVec.ofNat 3 k, q := BitVec.ofNat 15 q }
/-- The upper half of an M word (04 Table 4.16). -/
def wHead (fst lst lvl wid wcnt sid scnt lgen fw fpb fpx dd da : Nat) : MHead :=
  { fst := BitVec.ofNat 1 fst, lst := BitVec.ofNat 1 lst, lvl := BitVec.ofNat 3 lvl, wid := BitVec.ofNat 4 wid, wcnt := BitVec.ofNat 3 wcnt
    sid := BitVec.ofNat 4 sid, scnt := BitVec.ofNat 3 scnt, lgen := BitVec.ofNat 4 lgen, fw := BitVec.ofNat 1 fw, fpb := BitVec.ofNat 18 fpb
    fpx := BitVec.ofNat 8 fpx, dd := BitVec.ofNat 4 dd, da := BitVec.ofNat 4 da }
/-- A record of format MF from its fields, as 04 Tables 4.4 to 4.16 order them. -/
def wMf (fst lst lvl wid wcnt sid scnt lgen fw fpb fpx dd da db mq mimm : Nat) : MF :=
  { h := wHead fst lst lvl wid wcnt sid scnt lgen fw fpb fpx dd da, db := BitVec.ofNat 4 db, mq := BitVec.ofNat 28 mq,
    mimm := BitVec.ofNat 32 mimm }
/-- A record of format MK from its fields, as 04 Tables 4.4 to 4.16 order them. -/
def wMk (fst lst lvl wid wcnt sid scnt lgen fw fpb fpx dd da const : Nat) : MkF :=
  { h := wHead fst lst lvl wid wcnt sid scnt lgen fw fpb fpx dd da, const := BitVec.ofNat 64 const }
/-- Words of the C register format, field by field (04 Tables 4.4 to 4.17). -/
theorem test_decode_cr :
    decode .c 0b0000001_00100_000101_1_00011_00001_00101_1_1_1_1_0000000000
      = .ok (.add (wCr 4 5 1 3 1 5 1 1 1 1 0)) ∧
    decode .c 0b0000010_00100_000101_1_00011_00001_00101_1_1_1_1_0000000000
      = .ok (.sub (wCr 4 5 1 3 1 5 1 1 1 1 0)) ∧
    decode .c 0b0000011_00100_000101_1_00011_00001_00101_1_1_1_1_0000000000
      = .ok (.mul (wCr 4 5 1 3 1 5 1 1 1 1 0)) ∧
    decode .c 0b0000100_00001_000110_1_00100_00001_00001_1_1_1_1_0000000000
      = .ok (.mulh (wCr 1 6 1 4 1 1 1 1 1 1 0)) ∧
    decode .c 0b0000101_00100_000001_1_00100_00001_00001_1_1_1_1_0000000000
      = .ok (.mulhn (wCr 4 1 1 4 1 1 1 1 1 1 0)) ∧
    decode .c 0b0000110_00100_000101_1_00011_00001_00101_1_1_1_1_0000000000
      = .ok (.div (wCr 4 5 1 3 1 5 1 1 1 1 0)) ∧
    decode .c 0b0000111_00001_000110_1_00100_00001_00001_1_1_1_1_0000000000
      = .ok (.divn (wCr 1 6 1 4 1 1 1 1 1 1 0)) ∧
    decode .c 0b0001000_00100_000101_1_00011_00001_00101_1_1_1_1_0000000000
      = .ok (.rem (wCr 4 5 1 3 1 5 1 1 1 1 0)) ∧
    decode .c 0b0001001_00001_000110_1_00100_00001_00001_1_1_1_1_0000000000
      = .ok (.remn (wCr 1 6 1 4 1 1 1 1 1 1 0)) ∧
    decode .c 0b0001010_00100_000101_1_00011_00001_00101_1_1_1_1_0000000000
      = .ok (.and (wCr 4 5 1 3 1 5 1 1 1 1 0)) ∧
    decode .c 0b0001011_01000_001000_1_00011_10000_00001_1_1_0_1_0000000000
      = .ok (.or (wCr 8 8 1 3 16 1 1 1 0 1 0)) ∧
    decode .c 0b0001100_00100_000101_1_00011_00001_00101_1_1_1_1_0000000000
      = .ok (.xor (wCr 4 5 1 3 1 5 1 1 1 1 0)) ∧
    decode .c 0b0001101_00001_000110_1_00100_00001_00001_1_1_1_1_0000000000
      = .ok (.andn (wCr 1 6 1 4 1 1 1 1 1 1 0)) ∧
    decode .c 0b0001110_00100_000101_1_00011_00001_00101_1_1_1_1_0000000000
      = .ok (.sll (wCr 4 5 1 3 1 5 1 1 1 1 0)) ∧
    decode .c 0b0001111_00100_000101_1_00011_00001_00101_1_1_1_1_0000000000
      = .ok (.srl (wCr 4 5 1 3 1 5 1 1 1 1 0)) :=
  byKernel (letI := @exceptDec; inferInstance) (by decide +kernel)
/-- Words of the C register format, field by field (04 Tables 4.4 to 4.17). -/
theorem test_decode_cr_2 :
    decode .c 0b0010000_00100_000101_1_00011_00001_00101_1_1_1_1_0000000000
      = .ok (.sra (wCr 4 5 1 3 1 5 1 1 1 1 0)) ∧
    decode .c 0b0010001_00100_000101_1_00011_00001_00101_1_1_1_1_0000000000
      = .ok (.min (wCr 4 5 1 3 1 5 1 1 1 1 0)) ∧
    decode .c 0b0010010_00100_000101_1_00011_00001_00101_1_1_1_1_0000000000
      = .ok (.max (wCr 4 5 1 3 1 5 1 1 1 1 0)) ∧
    decode .c 0b0010011_00001_000110_1_00100_00001_00001_1_1_1_1_0000000000
      = .ok (.minn (wCr 1 6 1 4 1 1 1 1 1 1 0)) ∧
    decode .c 0b0010100_00001_000110_1_00100_00001_00001_1_1_1_1_0000000000
      = .ok (.maxn (wCr 1 6 1 4 1 1 1 1 1 1 0)) ∧
    decode .c 0b0010101_00100_000001_1_00100_00001_00001_1_1_1_1_0000000000
      = .ok (.cmpeq (wCr 4 1 1 4 1 1 1 1 1 1 0)) ∧
    decode .c 0b0010110_00100_000001_1_00100_00001_00001_1_1_1_1_0000000000
      = .ok (.cmplt (wCr 4 1 1 4 1 1 1 1 1 1 0)) ∧
    decode .c 0b0010111_11100_100000_1_00100_00001_00001_1_1_1_1_0000000000
      = .ok (.cmpltn (wCr 28 32 1 4 1 1 1 1 1 1 0)) ∧
    decode .c 0b0011000_00100_000001_1_00100_00001_00001_1_1_1_1_0000000000
      = .ok (.cmple (wCr 4 1 1 4 1 1 1 1 1 1 0)) ∧
    decode .c 0b0011001_11100_100000_1_00100_00001_00001_1_1_1_1_0000000000
      = .ok (.cmplen (wCr 28 32 1 4 1 1 1 1 1 1 0)) ∧
    decode .c 0b0110000_00100_000101_1_00011_00001_00000_1_1_1_0_0000000000
      = .ok (.clz (wCr 4 5 1 3 1 0 1 1 1 0 0)) ∧
    decode .c 0b0110001_00100_000101_1_00011_00001_00000_1_1_1_0_0000000000
      = .ok (.ctz (wCr 4 5 1 3 1 0 1 1 1 0 0)) ∧
    decode .c 0b0110010_11111_000110_1_00100_00001_00000_1_1_1_0_0000000000
      = .ok (.popc (wCr 31 6 1 4 1 0 1 1 1 0 0)) ∧
    decode .c 0b0110111_00001_000110_1_00100_00001_00001_1_1_1_1_0000000001
      = .ok (.addx (wCr 1 6 1 4 1 1 1 1 1 1 1)) ∧
    decode .c 0b0111000_11111_000110_1_00100_00001_00000_1_1_1_0_0000000001
      = .ok (.xidx (wCr 31 6 1 4 1 0 1 1 1 0 1)) :=
  byKernel (letI := @exceptDec; inferInstance) (by decide +kernel)
/-- Words of the C register format, field by field (04 Tables 4.4 to 4.17). -/
theorem test_decode_cr_3 :
    decode .c 0b0111001_00100_000001_1_00100_00001_00000_1_1_1_0_0000001101
      = .ok (.alnup (wCr 4 1 1 4 1 0 1 1 1 0 13)) ∧
    decode .c 0b1000010_01000_000010_1_00000_00001_00000_1_0_1_0_0000000000
      = .ok (.jr (wCr 8 2 1 0 1 0 1 0 1 0 0)) ∧
    decode .c 0b1000011_00100_000101_1_00011_00001_00000_1_1_1_0_0000000000
      = .ok (.jrl (wCr 4 5 1 3 1 0 1 1 1 0 0)) ∧
    decode .c 0b1001010_11100_100000_1_11110_00001_00001_1_0_1_1_0000000001
      = .ok (.wlpush (wCr 28 32 1 30 1 1 1 0 1 1 1)) ∧
    decode .c 0b1001011_11010_000001_1_01100_00001_00001_1_0_1_1_0000000001
      = .ok (.wlspawn (wCr 26 1 1 12 1 1 1 0 1 1 1)) ∧
    decode .c 0b1001100_00100_011011_1_00010_00001_00000_1_1_1_0_0000000000
      = .ok (.wljoinDec (wCr 4 27 1 2 1 0 1 1 1 0 0)) ∧
    decode .c 0b1001100_00100_011011_1_00010_00001_00001_1_1_1_1_0000000001
      = .ok (.wljoinArm (wCr 4 27 1 2 1 1 1 1 1 1 1)) ∧
    decode .c 0b1001100_00100_011011_1_00010_00001_00001_1_1_1_1_0000000010
      = .ok (.wljoinAdd (wCr 4 27 1 2 1 1 1 1 1 1 2)) ∧
    decode .c 0b1001101_01110_000011_1_00011_00000_00000_0_1_0_0_0000000000
      = .ok (.wlfloorGate (wCr 14 3 1 3 0 0 0 1 0 0 0)) ∧
    decode .c 0b1001101_00010_010000_1_00010_00000_00000_0_1_0_0_0000000001
      = .ok (.wlfloorFresh (wCr 2 16 1 2 0 0 0 1 0 0 1)) ∧
    decode .c 0b1001101_00001_000101_1_00010_00000_00000_0_1_0_0_0000000010
      = .ok (.wlfloorFb (wCr 1 5 1 2 0 0 0 1 0 0 2)) ∧
    decode .c 0b1010000_11100_100000_1_11110_00001_00001_1_0_1_1_0000000000
      = .ok (.flinit (wCr 28 32 1 30 1 1 1 0 1 1 0)) ∧
    decode .c 0b1010001_01100_001101_1_00010_00001_00000_1_1_1_0_0000000000
      = .ok (.flclaim (wCr 12 13 1 2 1 0 1 1 1 0 0)) ∧
    decode .c 0b1010010_11100_100000_1_11110_00001_00001_1_0_1_1_0000000001
      = .ok (.flfill (wCr 28 32 1 30 1 1 1 0 1 1 1)) ∧
    decode .c 0b1010011_01100_001101_1_00010_00001_00000_1_1_1_0_0000000000
      = .ok (.flwaitf (wCr 12 13 1 2 1 0 1 1 1 0 0)) :=
  byKernel (letI := @exceptDec; inferInstance) (by decide +kernel)
/-- Words of the C register format, field by field (04 Tables 4.4 to 4.17). -/
theorem test_decode_cr_4 :
    decode .c 0b1010100_01100_001101_1_00010_00001_00000_1_1_1_0_0000000000
      = .ok (.flwaitr (wCr 12 13 1 2 1 0 1 1 1 0 0)) ∧
    decode .c 0b1010101_11100_100000_1_00100_00001_00001_1_1_1_1_0000000000
      = .ok (.fltake (wCr 28 32 1 4 1 1 1 1 1 1 0)) ∧
    decode .c 0b1010110_00100_000001_1_00000_00001_00001_1_0_1_1_0000000000
      = .ok (.flrel (wCr 4 1 1 0 1 1 1 0 1 1 0)) ∧
    decode .c 0b1011011_11100_100000_1_11110_00001_00001_1_0_1_1_0000001011
      = .ok (.recast (wCr 28 32 1 30 1 1 1 0 1 1 11)) ∧
    decode .c 0b1011100_11100_100000_1_00000_00001_00001_1_0_1_1_0000000010
      = .ok (.rcwait (wCr 28 32 1 0 1 1 1 0 1 1 2)) ∧
    decode .c 0b1011101_11100_100000_1_11110_00001_00001_1_0_1_1_0000000000
      = .ok (.phmark (wCr 28 32 1 30 1 1 1 0 1 1 0)) ∧
    decode .c 0b1100010_00100_000001_1_00000_00001_00001_1_0_1_1_0000011101
      = .ok (.fxwin (wCr 4 1 1 0 1 1 1 0 1 1 29)) ∧
    decode .c 0b1100011_11010_000001_1_00000_00001_00001_1_0_1_1_0000100000
      = .ok (.fxallow (wCr 26 1 1 0 1 1 1 0 1 1 32)) ∧
    decode .c 0b1100100_00100_011011_1_00000_00001_00000_1_0_1_0_0000000000
      = .ok (.fxsendBlk (wCr 4 27 1 0 1 0 1 0 1 0 0)) ∧
    decode .c 0b1100100_11010_001101_1_01100_00001_00000_1_0_1_0_0000000010
      = .ok (.fxsendMc (wCr 26 13 1 12 1 0 1 0 1 0 2)) ∧
    decode .c 0b1100100_00100_011011_1_00010_00001_00001_1_1_1_1_0000000001
      = .ok (.fxsendFaa (wCr 4 27 1 2 1 1 1 1 1 1 1)) ∧
    decode .c 0b1100101_00100_000001_1_00000_00001_00000_1_0_1_0_0000001101
      = .ok (.fxarm (wCr 4 1 1 0 1 0 1 0 1 0 13)) ∧
    decode .c 0b1100111_11100_000111_1_00100_00000_00000_0_1_0_0_0000001111
      = .ok (.fxcntRd (wCr 28 7 1 4 0 0 0 1 0 0 15)) ∧
    decode .c 0b1100111_00110_000010_1_00100_00001_00000_1_1_1_0_0000010110
      = .ok (.fxcntSub (wCr 6 2 1 4 1 0 1 1 1 0 22)) ∧
    decode .c 0b1100111_11100_000111_1_00100_00001_00000_1_1_1_0_0000101011
      = .ok (.fxcntWt (wCr 28 7 1 4 1 0 1 1 1 0 43)) :=
  byKernel (letI := @exceptDec; inferInstance) (by decide +kernel)
/-- Words of the C register format, field by field (04 Tables 4.4 to 4.17). -/
theorem test_decode_cr_5 :
    decode .c 0b1110011_00100_000001_1_00011_00000_00000_0_1_0_0_0000011101
      = .ok (.sysrd (wCr 4 1 1 3 0 0 0 1 0 0 29)) ∧
    decode .c 0b1110100_00100_000001_1_00000_00001_00000_1_0_1_0_0000011101
      = .ok (.syswr (wCr 4 1 1 0 1 0 1 0 1 0 29)) ∧
    decode .c 0b1110100_00110_000010_1_00000_00001_00000_1_0_1_0_0001011110
      = .ok (.semWrite (wCr 6 2 1 0 1 0 1 0 1 0 94)) ∧
    decode .c 0b1110100_00110_000010_1_00000_00001_00000_1_0_1_0_0000011000
      = .ok (.epcWrite (wCr 6 2 1 0 1 0 1 0 1 0 24)) ∧
    decode .c 0b1110100_00100_011011_1_00000_00001_00000_1_0_1_0_0100010110
      = .ok (.allowWrite (wCr 4 27 1 0 1 0 1 0 1 0 278)) ∧
    decode .c 0b1110100_01001_000110_1_00000_00001_00000_1_0_1_0_1000000000
      = .ok (.worklistRegisterWrite (wCr 9 6 1 0 1 0 1 0 1 0 512)) ∧
    decode .c 0b1110101_11100_100000_1_00000_00001_00001_1_0_1_1_0000000001
      = .ok (.tlbinv (wCr 28 32 1 0 1 1 1 0 1 1 1)) ∧
    decode .c 0b1110110_11100_000111_1_00100_00001_00000_1_1_1_0_0000000000
      = .ok (.snaprd (wCr 28 7 1 4 1 0 1 1 1 0 0)) ∧
    decode .c 0b1110111_11100_100000_1_00000_00001_00001_1_0_1_1_0000000000
      = .ok (.snapwr (wCr 28 32 1 0 1 1 1 0 1 1 0)) ∧
    decode .c 0b1111000_01100_001101_1_00010_00001_00000_1_1_1_0_0000000010
      = .ok (.ctxsave (wCr 12 13 1 2 1 0 1 1 1 0 2)) ∧
    decode .c 0b1111001_11010_001101_1_00000_00001_00000_1_0_1_0_0000000000
      = .ok (.ctxload (wCr 26 13 1 0 1 0 1 0 1 0 0)) :=
  byKernel (letI := @exceptDec; inferInstance) (by decide +kernel)
/-- Words of the C immediate format, field by field (04 Tables 4.4 to 4.17). -/
theorem test_decode_ci :
    decode .c 0b0100000_00010_001100_1_00001_00001_0000000000000000100
      = .ok (.addi (wCi 2 12 1 1 1 4)) ∧
    decode .c 0b0100001_00010_001100_1_00001_00001_0000000000000000100
      = .ok (.andi (wCi 2 12 1 1 1 4)) ∧
    decode .c 0b0100010_00101_000100_1_00010_00100_0000000000000001000
      = .ok (.ori (wCi 5 4 1 2 4 8)) ∧
    decode .c 0b0100011_00010_001100_1_00001_00001_0000000000000000100
      = .ok (.xori (wCi 2 12 1 1 1 4)) ∧
    decode .c 0b0100100_00010_001100_1_00001_00001_0000000000000000100
      = .ok (.slli (wCi 2 12 1 1 1 4)) ∧
    decode .c 0b0100101_00010_001100_1_00001_00001_0000000000000000100
      = .ok (.srli (wCi 2 12 1 1 1 4)) ∧
    decode .c 0b0100110_00010_001100_1_00001_00001_0000000000000000100
      = .ok (.srai (wCi 2 12 1 1 1 4)) ∧
    decode .c 0b0100111_00011_001111_1_10000_11110_0000000100000000000
      = .ok (.cmpeqi (wCi 3 15 1 16 30 2048)) ∧
    decode .c 0b0101000_00011_001111_1_10000_11110_0000000100000000000
      = .ok (.cmplti (wCi 3 15 1 16 30 2048)) ∧
    decode .c 0b0101001_00101_000100_1_00010_00000_0000000000000001000
      = .ok (.lim (wCi 5 4 1 2 0 8)) ∧
    decode .c 0b0101010_00010_001100_1_00001_00001_0000000000000000100
      = .ok (.limh (wCi 2 12 1 1 1 4)) ∧
    decode .c 0b0110011_00010_001100_1_00001_00001_0000000000000000100
      = .ok (.bext (wCi 2 12 1 1 1 4)) ∧
    decode .c 0b0110100_00010_001100_1_00001_00001_0000000000000000100
      = .ok (.bins (wCi 2 12 1 1 1 4)) ∧
    decode .c 0b0110101_00010_001100_1_00001_00001_0000000000000000100
      = .ok (.bset (wCi 2 12 1 1 1 4)) ∧
    decode .c 0b0110110_00010_001100_1_00001_00001_0000000000000000100
      = .ok (.bclr (wCi 2 12 1 1 1 4)) :=
  byKernel (letI := @exceptDec; inferInstance) (by decide +kernel)
/-- Words of the C immediate format, field by field (04 Tables 4.4 to 4.17). -/
theorem test_decode_ci_2 :
    decode .c 0b1000101_00001_100000_1_01011_00010_0000000000000001111
      = .ok (.ld (wCi 1 32 1 11 2 15)) ∧
    decode .c 0b1000110_00001_100000_1_01011_00010_0000000000000001111
      = .ok (.st (wCi 1 32 1 11 2 15)) :=
  byKernel (letI := @exceptDec; inferInstance) (by decide +kernel)
/-- Words of the C branch format, field by field (04 Tables 4.4 to 4.17). -/
theorem test_decode_cb :
    decode .c 0b1000000_00100_001011_1_00000_000000000010000000000000
      = .ok (.br (wCb 4 11 1 0 8192)) ∧
    decode .c 0b1000001_00010_000101_1_01000_000000000000000000001000
      = .ok (.brl (wCb 2 5 1 8 8)) ∧
    decode .c 0b1000100_00010_001011_1_00010_000000000000000000010001
      = .ok (.bdec (wCb 2 11 1 2 17)) :=
  byKernel (letI := @exceptDec; inferInstance) (by decide +kernel)
/-- Words of the C system format, field by field (04 Tables 4.4 to 4.17). -/
theorem test_decode_cs :
    decode .c 0b1001000_00100_000101_1_00111_000000000000000000000000
      = .ok (.rdv (wCs 4 5 1 7 0)) ∧
    decode .c 0b1001001_00001_001110_1_00000_000000000000000000000101
      = .ok (.mcancel (wCs 1 14 1 0 5)) ∧
    decode .c 0b1001110_00001_001110_1_00000_000000000000000000000000
      = .ok (.wlyield (wCs 1 14 1 0 0)) ∧
    decode .c 0b1011000_01100_001111_1_00011_000000000000000000000010
      = .ok (.mfence (wCs 12 15 1 3 2)) ∧
    decode .c 0b1011001_00100_000100_1_00000_000000000000000000000111
      = .ok (.mjoin (wCs 4 4 1 0 7)) ∧
    decode .c 0b1011010_00001_000010_1_01000_000000000000000000011011
      = .ok (.weirSet (wCs 1 2 1 8 27)) ∧
    decode .c 0b1011010_01110_000010_1_01000_000000000000000000000011
      = .ok (.weirArr (wCs 14 2 1 8 3)) ∧
    decode .c 0b1011010_00100_000100_1_00011_000000000000000000001010
      = .ok (.weirWt (wCs 4 4 1 3 10)) ∧
    decode .c 0b1011010_01100_001111_1_01011_000000000000000000010101
      = .ok (.weirSync (wCs 12 15 1 11 21)) ∧
    decode .c 0b1011110_01000_011000_1_00001_000000000000000000000000
      = .ok (.phcommit (wCs 8 24 1 1 0)) ∧
    decode .c 0b1011111_00001_000111_1_00110_000000000000000000000000
      = .ok (.phabort (wCs 1 7 1 6 0)) ∧
    decode .c 0b1100000_01100_001111_1_01011_000000000000000000011110
      = .ok (.semsig (wCs 12 15 1 11 30)) ∧
    decode .c 0b1100001_00001_000111_1_00110_000000000000000010000000
      = .ok (.semwait (wCs 1 7 1 6 128)) ∧
    decode .c 0b1100110_01000_011000_1_01100_000000000000000000000000
      = .ok (.fxdisarm (wCs 8 24 1 12 0)) ∧
    decode .c 0b1101000_00001_001110_1_00000_000000000000000000000000
      = .ok (.fxfence (wCs 1 14 1 0 0)) :=
  byKernel (letI := @exceptDec; inferInstance) (by decide +kernel)
/-- Words of the C system format, field by field (04 Tables 4.4 to 4.17). -/
theorem test_decode_cs_2 :
    decode .c 0b1110000_00100_000101_1_00000_000000000000000000000000
      = .ok (.nop (wCs 4 5 1 0 0)) ∧
    decode .c 0b1110001_00010_001011_1_00000_000000000000000000001111
      = .ok (.trap (wCs 2 11 1 0 15)) ∧
    decode .c 0b1110010_00010_001011_1_00000_000000000000000000000000
      = .ok (.eret (wCs 2 11 1 0 0)) :=
  byKernel (letI := @exceptDec; inferInstance) (by decide +kernel)
/-- Words of the A register format, field by field (04 Tables 4.4 to 4.17). -/
theorem test_decode_ar :
    decode .a 0b00000001_0_0000000_0000_00110_01111_00100_00000_000000000000000000000000
      = .ok (.aadd (wAr 0 0 0 6 15 4 0 0)) ∧
    decode .a 0b00000011_0_0000000_0000_00110_01111_00100_00000_000000000000000000000000
      = .ok (.asub (wAr 0 0 0 6 15 4 0 0)) ∧
    decode .a 0b00000100_0_0000000_0000_00110_01111_00100_00000_000000000000000000000000
      = .ok (.amul (wAr 0 0 0 6 15 4 0 0)) ∧
    decode .a 0b00000101_0_0000000_0000_00110_01111_00100_00000_000000000000000000000000
      = .ok (.ashl (wAr 0 0 0 6 15 4 0 0)) ∧
    decode .a 0b00000110_0_0000000_0000_00110_01111_00100_00000_000000000000000000000000
      = .ok (.aand (wAr 0 0 0 6 15 4 0 0)) ∧
    decode .a 0b00001000_1_0000000_0000_00010_11000_00011_00000_000000000000000000001010
      = .ok (.aaddx (wAr 1 0 0 2 24 3 0 10)) ∧
    decode .a 0b00010010_0_0000000_0000_01001_00100_00000_00000_000000000000000000000000
      = .ok (.ajr (wAr 0 0 0 9 4 0 0 0)) ∧
    decode .a 0b00100000_0_0001100_0000_01000_00110_01111_00000_000000000000000000000010
      = .ok (.cp (wAr 0 12 0 8 6 15 0 2)) ∧
    decode .a 0b00100001_0_0001100_0000_00010_00101_01000_01110_000000000000000000001000
      = .ok (.cpg (wAr 0 12 0 2 5 8 14 8)) ∧
    decode .a 0b00100010_0_0001000_0000_00010_00101_01000_01110_000000000000000000001000
      = .ok (.cps (wAr 0 8 0 2 5 8 14 8)) ∧
    decode .a 0b00100011_0_0000010_0000_00010_00101_01000_01110_000000000000000000001000
      = .ok (.cpt (wAr 0 2 0 2 5 8 14 8)) ∧
    decode .a 0b00100100_0_0000000_0000_00010_00101_01000_00000_000000000000000000001000
      = .ok (.cpz (wAr 0 0 0 2 5 8 0 8)) ∧
    decode .a 0b00101000_0_0000000_0000_00010_01111_00000_00000_000000000000000000000011
      = .ok (.aswz (wAr 0 0 0 2 15 0 0 3)) ∧
    decode .a 0b00110100_1_0000000_0000_01000_11000_00000_00000_000000000000000000000000
      = .ok (.aflclaim (wAr 1 0 0 8 24 0 0 0)) ∧
    decode .a 0b00110101_0_0000000_0000_00000_00110_00001_00000_000000000000000000000000
      = .ok (.aflfill (wAr 0 0 0 0 6 1 0 0)) :=
  byKernel (letI := @exceptDec; inferInstance) (by decide +kernel)
/-- Words of the A register format, field by field (04 Tables 4.4 to 4.17). -/
theorem test_decode_ar_2 :
    decode .a 0b00110110_1_0000000_0000_01000_11000_00000_00000_000000000000000000000000
      = .ok (.aflwaitf (wAr 1 0 0 8 24 0 0 0)) ∧
    decode .a 0b00110111_0_0000000_0000_00000_01100_00100_00000_000000000000000000000000
      = .ok (.aflrel (wAr 0 0 0 0 12 4 0 0)) :=
  byKernel (letI := @exceptDec; inferInstance) (by decide +kernel)
/-- Words of the A immediate format, field by field (04 Tables 4.4 to 4.17). -/
theorem test_decode_ai :
    decode .a 0b00000010_1_0000000_0000_10001_11000_00_00000000000000000000000000000011
      = .ok (.aaddi (wAi 1 0 0 17 24 0 3)) ∧
    decode .a 0b00000111_0_1000000_0000_01100_00000_00_00000000000000000000000000000100
      = .ok (.alim (wAi 0 64 0 12 0 0 4)) ∧
    decode .a 0b00010000_0_0000010_0000_00000_01000_00_00000000000000000000000000000111
      = .ok (.abr (wAi 0 2 0 0 8 0 7)) ∧
    decode .a 0b00010000_0_0000011_0000_00000_00000_00_00000000000000000000000000000100
      = .ok (.abrQ7 (wAi 0 3 0 0 0 0 4)) ∧
    decode .a 0b00010000_0_0100011_0000_00000_00000_00_10000000000000000000000000000000
      = .ok (.abrQ7Likely (wAi 0 35 0 0 0 0 2147483648)) ∧
    decode .a 0b00010000_0_0000100_0000_00000_00000_00_00000000000000000000000000000010
      = .ok (.abrRdv (wAi 0 4 0 0 0 0 2)) ∧
    decode .a 0b00010001_0_0000000_0000_01010_00000_00_00000000000000000000000000000011
      = .ok (.abdec (wAi 0 0 0 10 0 0 3)) ∧
    decode .a 0b00010011_0_0000000_0001_00000_00000_00_00000000000000000000000000000000
      = .ok (.agen (wAi 0 0 1 0 0 0 0)) ∧
    decode .a 0b00011000_0_0000011_0000_00010_01000_00_00000000000000000000000000000010
      = .ok (.lda (wAi 0 3 0 2 8 0 2)) ∧
    decode .a 0b00011001_0_0000011_0000_11011_01000_00_00000000000000000000000000000111
      = .ok (.ldv (wAi 0 3 0 27 8 0 7)) ∧
    decode .a 0b00011010_1_0001000_0000_11000_01000_00_00000000000000000000000000000111
      = .ok (.sta (wAi 1 8 0 24 8 0 7)) ∧
    decode .a 0b00011011_1_0001000_0000_11100_01000_00_00000000000000000000000000000111
      = .ok (.stv (wAi 1 8 0 28 8 0 7)) ∧
    decode .a 0b00101100_0_0000010_0000_00000_00001_00_00000000000000000000000000011011
      = .ok (.fewait (wAi 0 2 0 0 1 0 27)) ∧
    decode .a 0b00101101_0_0000000_0000_00000_00100_00_00000000000000000000000000000011
      = .ok (.feset (wAi 0 0 0 0 4 0 3)) ∧
    decode .a 0b00101110_0_0000000_0000_00000_00100_00_00000000000000000000000000000011
      = .ok (.feclr (wAi 0 0 0 0 4 0 3)) :=
  byKernel (letI := @exceptDec; inferInstance) (by decide +kernel)
/-- Words of the A immediate format, field by field (04 Tables 4.4 to 4.17). -/
theorem test_decode_ai_2 :
    decode .a 0b00110000_0_0000000_0000_00000_01111_00_00000000000000000000000000000001
      = .ok (.pf (wAi 0 0 0 0 15 0 1)) :=
  byKernel (letI := @exceptDec; inferInstance) (by decide +kernel)
/-- Words of the V format, field by field (04 Tables 4.4 to 4.17). -/
theorem test_decode_vf :
    decode .v 0b000000001_00010_010111_1_01111_00010_00001_00001_00000_100_011_1_1_1_1_1_0000000
      = .ok (.vadd (wVf 2 23 1 15 2 1 1 0 4 3 1 1 1 1 1 0)) ∧
    decode .v 0b000000010_00010_010111_1_01111_00010_00001_00001_00000_100_011_1_1_1_1_1_0000000
      = .ok (.vsub (wVf 2 23 1 15 2 1 1 0 4 3 1 1 1 1 1 0)) ∧
    decode .v 0b000000011_00010_010111_1_01111_00010_00001_00001_00000_100_011_1_1_1_1_1_0000000
      = .ok (.vmul (wVf 2 23 1 15 2 1 1 0 4 3 1 1 1 1 1 0)) ∧
    decode .v 0b000000100_00010_010111_1_01111_00011_00001_00001_00011_100_011_1_1_1_1_1_0000000
      = .ok (.vfma (wVf 2 23 1 15 3 1 1 3 4 3 1 1 1 1 1 0)) ∧
    decode .v 0b000000101_00010_010111_1_01111_00011_00001_00001_00011_100_011_1_1_1_1_1_0000000
      = .ok (.vfms (wVf 2 23 1 15 3 1 1 3 4 3 1 1 1 1 1 0)) ∧
    decode .v 0b000000110_01000_000011_1_01111_00010_00001_00001_01010_111_001_1_1_1_1_1_0000000
      = .ok (.vfnma (wVf 8 3 1 15 2 1 1 10 7 1 1 1 1 1 1 0)) ∧
    decode .v 0b000000111_00010_010111_1_01000_00010_00001_00001_00000_100_000_0_1_1_1_1_0000000
      = .ok (.vmin (wVf 2 23 1 8 2 1 1 0 4 0 0 1 1 1 1 0)) ∧
    decode .v 0b000001000_00010_010111_1_01000_00010_00001_00001_00000_100_000_0_1_1_1_1_0000000
      = .ok (.vmax (wVf 2 23 1 8 2 1 1 0 4 0 0 1 1 1 1 0)) ∧
    decode .v 0b000001001_01101_010111_1_01000_00010_00001_00000_00000_100_000_0_1_1_1_0_0000000
      = .ok (.vabs (wVf 13 23 1 8 2 1 0 0 4 0 0 1 1 1 0 0)) ∧
    decode .v 0b000001010_01101_010111_1_01000_00010_00001_00000_00000_100_000_0_1_1_1_0_0000000
      = .ok (.vneg (wVf 13 23 1 8 2 1 0 0 4 0 0 1 1 1 0 0)) ∧
    decode .v 0b000001011_01101_010111_1_01111_00010_00001_00000_00000_100_011_1_1_1_1_0_0000000
      = .ok (.vrcp (wVf 13 23 1 15 2 1 0 0 4 3 1 1 1 1 0 0)) ∧
    decode .v 0b000001100_01001_000001_1_10000_00011_00010_00000_00000_010_100_1_0_1_0_0_0000000
      = .ok (.vrsqrt (wVf 9 1 1 16 3 2 0 0 2 4 1 0 1 0 0 0)) ∧
    decode .v 0b000001101_01000_000011_1_10000_00010_00001_00000_00000_111_001_1_1_1_1_0_0000000
      = .ok (.vsqrt (wVf 8 3 1 16 2 1 0 0 7 1 1 1 1 1 0 0)) ∧
    decode .v 0b000001110_01000_000011_1_10000_00010_00001_00000_00000_111_001_1_1_1_1_0_0000000
      = .ok (.vexp2 (wVf 8 3 1 16 2 1 0 0 7 1 1 1 1 1 0 0)) ∧
    decode .v 0b000001111_01000_000011_1_10000_00010_00001_00000_00000_111_001_1_1_1_1_0_0000000
      = .ok (.vlog2 (wVf 8 3 1 16 2 1 0 0 7 1 1 1 1 1 0 0)) :=
  byKernel (letI := @exceptDec; inferInstance) (by decide +kernel)
/-- Words of the V format, field by field (04 Tables 4.4 to 4.17). -/
theorem test_decode_vf_2 :
    decode .v 0b000010000_00010_010111_1_01000_00010_00001_00001_00000_100_000_0_1_1_1_1_0000000
      = .ok (.vand (wVf 2 23 1 8 2 1 1 0 4 0 0 1 1 1 1 0)) ∧
    decode .v 0b000010001_01000_000100_1_10000_00011_00001_00001_00000_100_000_0_1_1_1_1_0000000
      = .ok (.vor (wVf 8 4 1 16 3 1 1 0 4 0 0 1 1 1 1 0)) ∧
    decode .v 0b000010010_00010_010111_1_01000_00010_00001_00001_00000_100_000_0_1_1_1_1_0000000
      = .ok (.vxor (wVf 2 23 1 8 2 1 1 0 4 0 0 1 1 1 1 0)) ∧
    decode .v 0b000010011_01101_010111_1_01000_00010_00001_00000_00000_100_000_0_1_1_1_0_0000000
      = .ok (.vnot (wVf 13 23 1 8 2 1 0 0 4 0 0 1 1 1 0 0)) ∧
    decode .v 0b000010100_00010_010111_1_01000_00010_00001_00001_00000_100_000_0_1_1_1_1_0000000
      = .ok (.vsll (wVf 2 23 1 8 2 1 1 0 4 0 0 1 1 1 1 0)) ∧
    decode .v 0b000010101_00010_010111_1_01000_00010_00001_00001_00000_100_000_0_1_1_1_1_0000000
      = .ok (.vsrl (wVf 2 23 1 8 2 1 1 0 4 0 0 1 1 1 1 0)) ∧
    decode .v 0b000010110_00010_010111_1_01000_00010_00001_00001_00000_100_000_0_1_1_1_1_0000000
      = .ok (.vsra (wVf 2 23 1 8 2 1 1 0 4 0 0 1 1 1 1 0)) ∧
    decode .v 0b000010111_00110_000111_1_01000_00011_00001_00001_00000_010_000_0_1_1_1_1_0000000
      = .ok (.vaddsat (wVf 6 7 1 8 3 1 1 0 2 0 0 1 1 1 1 0)) ∧
    decode .v 0b000011000_00110_000111_1_01000_00011_00001_00001_00000_010_000_0_1_1_1_1_0000000
      = .ok (.vsubsat (wVf 6 7 1 8 3 1 1 0 2 0 0 1 1 1 1 0)) ∧
    decode .v 0b000011001_01001_000001_1_01000_00011_01000_00001_00000_010_000_0_1_1_0_1_0000001
      = .ok (.vmulhi (wVf 9 1 1 8 3 8 1 0 2 0 0 1 1 0 1 1)) ∧
    decode .v 0b000100000_01001_000001_1_10000_00011_00001_00001_00000_101_000_0_1_0_1_1_0000000
      = .ok (.vcmpeq (wVf 9 1 1 16 3 1 1 0 5 0 0 1 0 1 1 0)) ∧
    decode .v 0b000100001_01001_000001_1_10000_00011_00001_00001_00000_101_000_0_1_0_1_1_0000000
      = .ok (.vcmplt (wVf 9 1 1 16 3 1 1 0 5 0 0 1 0 1 1 0)) ∧
    decode .v 0b000100010_01001_000001_1_10000_00011_00001_00001_00000_101_000_0_1_0_1_1_0000000
      = .ok (.vcmple (wVf 9 1 1 16 3 1 1 0 5 0 0 1 0 1 1 0)) ∧
    decode .v 0b000101000_01101_000010_1_00000_00010_00100_00010_00000_000_000_0_0_0_0_0_0000000
      = .ok (.kand (wVf 13 2 1 0 2 4 2 0 0 0 0 0 0 0 0 0)) ∧
    decode .v 0b000101001_01000_000011_1_00000_00011_00010_00001_00000_000_000_0_0_0_0_0_0000000
      = .ok (.kor (wVf 8 3 1 0 3 2 1 0 0 0 0 0 0 0 0 0)) :=
  byKernel (letI := @exceptDec; inferInstance) (by decide +kernel)
/-- Words of the V format, field by field (04 Tables 4.4 to 4.17). -/
theorem test_decode_vf_3 :
    decode .v 0b000101010_01101_000010_1_00000_00010_00100_00010_00000_000_000_0_0_0_0_0_0000000
      = .ok (.kxor (wVf 13 2 1 0 2 4 2 0 0 0 0 0 0 0 0 0)) ∧
    decode .v 0b000101011_01101_000010_1_00000_00010_00100_00000_00000_000_000_0_0_0_0_0_0000000
      = .ok (.knot (wVf 13 2 1 0 2 4 0 0 0 0 0 0 0 0 0 0)) ∧
    decode .v 0b000101100_01101_000010_1_00000_00010_00100_00000_00000_000_000_0_0_0_0_0_0000000
      = .ok (.kpop (wVf 13 2 1 0 2 4 0 0 0 0 0 0 0 0 0 0)) ∧
    decode .v 0b000101101_01001_010000_1_00000_01100_00010_00000_00000_000_000_0_0_0_0_0_0000000
      = .ok (.kfirst (wVf 9 16 1 0 12 2 0 0 0 0 0 0 0 0 0 0)) ∧
    decode .v 0b000110000_01101_010111_1_01000_00010_00001_00000_00000_100_000_0_1_1_1_0_0000000
      = .ok (.vmov (wVf 13 23 1 8 2 1 0 0 4 0 0 1 1 1 0 0)) ∧
    decode .v 0b000110001_01001_000001_1_01100_00011_00110_00000_00000_110_000_0_1_1_1_0_0000000
      = .ok (.vbcast (wVf 9 1 1 12 3 6 0 0 6 0 0 1 1 1 0 0)) ∧
    decode .v 0b000110010_00010_010111_1_01000_00010_00001_00001_00000_100_000_0_1_1_1_1_0000000
      = .ok (.vsel (wVf 2 23 1 8 2 1 1 0 4 0 0 1 1 1 1 0)) ∧
    decode .v 0b000110011_01000_000010_1_01101_00010_00001_00001_00000_111_000_0_1_1_1_1_0000000
      = .ok (.vperm (wVf 8 2 1 13 2 1 1 0 7 0 0 1 1 1 1 0)) ∧
    decode .v 0b000110100_01101_010111_1_01000_00010_00001_00010_00000_100_000_0_1_1_1_0_0000000
      = .ok (.vrot (wVf 13 23 1 8 2 1 2 0 4 0 0 1 1 1 0 0)) ∧
    decode .v 0b000110101_01001_000001_1_01100_00011_00010_00001_00111_010_000_0_1_1_0_1_0000000
      = .ok (.vslide (wVf 9 1 1 12 3 2 1 7 2 0 0 1 1 0 1 0)) ∧
    decode .v 0b000110110_00010_000010_1_00001_00010_00001_00001_00000_000_000_0_1_1_1_1_0000001
      = .ok (.vzip (wVf 2 2 1 1 2 1 1 0 0 0 0 1 1 1 1 1)) ∧
    decode .v 0b000110111_01001_000001_1_01100_00011_01000_00001_00000_000_000_0_1_1_0_1_0000001
      = .ok (.vunzip (wVf 9 1 1 12 3 8 1 0 0 0 0 1 1 0 1 1)) ∧
    decode .v 0b000111000_01000_000010_1_00110_10000_00011_00100_01010_111_000_0_0_0_0_0_0000001
      = .ok (.vpart (wVf 8 2 1 6 16 3 4 10 7 0 0 0 0 0 0 1)) ∧
    decode .v 0b000111001_00100_000011_1_01000_10000_01110_01010_00000_111_000_0_0_0_0_0_0000000
      = .ok (.vcompact (wVf 4 3 1 8 16 14 10 0 7 0 0 0 0 0 0 0)) ∧
    decode .v 0b001000000_00110_000111_1_01111_00110_00001_00000_00000_010_011_1_1_0_1_0_0000001
      = .ok (.vredsum (wVf 6 7 1 15 6 1 0 0 2 3 1 1 0 1 0 1)) :=
  byKernel (letI := @exceptDec; inferInstance) (by decide +kernel)
/-- Words of the V format, field by field (04 Tables 4.4 to 4.17). -/
theorem test_decode_vf_4 :
    decode .v 0b001000001_00110_000111_1_00110_00110_00001_00000_00000_010_000_0_1_0_1_0_0000001
      = .ok (.vredmax (wVf 6 7 1 6 6 1 0 0 2 0 0 1 0 1 0 1)) ∧
    decode .v 0b001000010_00110_000111_1_00110_00110_00001_00000_00000_010_000_0_1_0_1_0_0000001
      = .ok (.vredmin (wVf 6 7 1 6 6 1 0 0 2 0 0 1 0 1 0 1)) ∧
    decode .v 0b001000011_00101_000011_1_10000_00101_00001_00000_00000_101_000_0_1_1_1_0_0000001
      = .ok (.vredamax (wVf 5 3 1 16 5 1 0 0 5 0 0 1 1 1 0 1)) ∧
    decode .v 0b001000100_01000_000010_1_01000_00010_00001_00000_00000_111_000_0_1_1_1_0_0000000
      = .ok (.vscan (wVf 8 2 1 8 2 1 0 0 7 0 0 1 1 1 0 0)) ∧
    decode .v 0b001001000_01000_000100_1_00010_00011_00010_01110_01000_000_000_0_0_1_0_0_0000010
      = .ok (.vld (wVf 8 4 1 2 3 2 14 8 0 0 0 0 1 0 0 2)) ∧
    decode .v 0b001001001_01000_000100_1_10000_00101_00010_01110_01000_100_000_0_0_0_0_0_0000000
      = .ok (.vst (wVf 8 4 1 16 5 2 14 8 4 0 0 0 0 0 0 0)) ∧
    decode .v 0b001001010_01101_010111_1_01000_00010_01100_00010_00000_100_000_0_0_1_0_0_0000000
      = .ok (.vldt (wVf 13 23 1 8 2 12 2 0 4 0 0 0 1 0 0 0)) ∧
    decode .v 0b001010000_00001_010111_1_01111_00011_00001_00000_00011_100_011_1_1_0_1_0_0000010
      = .ok (.vcvt (wVf 1 23 1 15 3 1 0 3 4 3 1 1 0 1 0 2)) ∧
    decode .v 0b001010001_01001_010000_1_01100_01011_01000_00011_01111_000_100_1_0_0_0_0_0000001
      = .ok (.vquant (wVf 9 16 1 12 11 8 3 15 0 4 1 0 0 0 0 1)) ∧
    decode .v 0b001010010_00001_010111_1_01111_00011_00001_00010_00011_100_011_1_1_0_1_0_0000010
      = .ok (.vdeq (wVf 1 23 1 15 3 1 2 3 4 3 1 1 0 1 0 2)) ∧
    decode .v 0b001010011_01000_000010_1_01101_10000_00001_00000_10000_111_000_0_1_0_1_0_0000011
      = .ok (.vpack (wVf 8 2 1 13 16 1 0 16 7 0 0 1 0 1 0 3)) ∧
    decode .v 0b001010100_00110_000111_1_00110_00110_00001_00000_00001_010_000_0_1_0_1_0_0000001
      = .ok (.vunpack (wVf 6 7 1 6 6 1 0 1 2 0 0 1 0 1 0 1)) ∧
    decode .v 0b001010101_01101_010111_1_01111_00010_00001_00010_00000_100_011_1_1_1_1_0_0100000
      = .ok (.vscl (wVf 13 23 1 15 2 1 2 0 4 3 1 1 1 1 0 32)) ∧
    decode .v 0b001011000_01101_000010_1_00001_00010_00001_00000_00000_000_000_0_1_1_1_0_0000000
      = .ok (.vtag (wVf 13 2 1 1 2 1 0 0 0 0 0 1 1 1 0 0)) ∧
    decode .v 0b001011001_01001_010000_1_00000_01100_00010_00000_00000_000_000_0_0_0_0_0_0000000
      = .ok (.vtagrd (wVf 9 16 1 0 12 2 0 0 0 0 0 0 0 0 0 0)) :=
  byKernel (letI := @exceptDec; inferInstance) (by decide +kernel)
/-- Words of the V format, field by field (04 Tables 4.4 to 4.17). -/
theorem test_decode_vf_5 :
    decode .v 0b001100000_01101_000010_1_00000_00010_00100_00010_00000_000_000_0_1_0_1_0_0000000
      = .ok (.gadd (wVf 13 2 1 0 2 4 2 0 0 0 0 1 0 1 0 0)) ∧
    decode .v 0b001100011_01101_000010_1_00000_00010_00100_00000_00000_000_000_0_1_0_1_0_0000000
      = .ok (.gmov (wVf 13 2 1 0 2 4 0 0 0 0 0 1 0 1 0 0)) ∧
    decode .v 0b001101000_00110_000111_1_00000_00000_00000_00000_00000_000_000_0_0_0_0_0_0100101
      = .ok (.vsemsig (wVf 6 7 1 0 0 0 0 0 0 0 0 0 0 0 0 37)) ∧
    decode .v 0b001101001_00010_000011_1_00000_00000_00000_00000_00000_000_000_0_0_0_0_0_0000010
      = .ok (.vsemwait (wVf 2 3 1 0 0 0 0 0 0 0 0 0 0 0 0 2)) :=
  byKernel (letI := @exceptDec; inferInstance) (by decide +kernel)
/-- Words of the V immediate format, field by field (04 Tables 4.4 to 4.17). -/
theorem test_decode_vi :
    decode .v 0b001100001_00100_000001_1_00000_01010_00010_00000_00000_000_000000000001010
      = .ok (.gaddi (wVi 4 1 1 0 10 2 0 0 0 10)) ∧
    decode .v 0b001100010_00010_001011_1_00000_01111_00001_00001_00000_000_000000000001100
      = .ok (.glim (wVi 2 11 1 0 15 1 1 0 0 12)) ∧
    decode .v 0b001100100_00110_100000_1_00000_00010_00010_00000_00000_000_000000000000010
      = .ok (.gbr (wVi 6 32 1 0 2 2 0 0 0 2)) ∧
    decode .v 0b001100100_01010_000001_1_00000_00011_00000_00000_00000_000_000000000000101
      = .ok (.gbrRdv (wVi 10 1 1 0 3 0 0 0 0 5)) ∧
    decode .v 0b001100101_00100_000001_1_00000_01010_00000_00000_00000_000_000000000001010
      = .ok (.gbdec (wVi 4 1 1 0 10 0 0 0 0 10)) :=
  byKernel (letI := @exceptDec; inferInstance) (by decide +kernel)
/-- Words of the M format, field by field (04 Tables 4.4 to 4.17). -/
theorem test_decode_mf :
    decode .m 0b000001_1_1_011_0010_100_0011_001_1010_0_000000000000000000_00000000_0100_0000_0000_0000000000000000000000000001_00000000000000000000000000001101
      = .ok (.mbase (wMf 1 1 3 2 4 3 1 10 0 0 0 4 0 0 1 13)) ∧
    decode .m 0b000010_1_1_010_0001_011_1100_010_0011_0_000000000000000011_00001000_0000_0110_0100_0000000000000000000000000001_00000000000000000000000000001011
      = .ok (.mrow (wMf 1 1 2 1 3 12 2 3 0 3 8 0 6 4 1 11)) ∧
    decode .m 0b000011_1_1_011_0010_100_0011_001_1010_0_000000000000000000_00000000_0000_0100_0000_0000000000000000000000000001_00000000000000000000000000000000
      = .ok (.mseed (wMf 1 1 3 2 4 3 1 10 0 0 0 0 4 0 1 0)) ∧
    decode .m 0b000100_1_1_011_1011_110_0111_001_1000_1_000000000000001110_00001000_1100_0000_0000_0000000000000000100000000000_00000000000000000000000000000001
      = .ok (.mternSeed (wMf 1 1 3 11 6 7 1 8 1 14 8 12 0 0 2048 1)) ∧
    decode .m 0b000100_1_1_010_0100_110_0010_010_0011_1_000000000000000010_00010110_1101_0000_0000_0000000000000000000000011001_00000000000000000000000000000101
      = .ok (.mternCim (wMf 1 1 2 4 6 2 2 3 1 2 22 13 0 0 25 5)) ∧
    decode .m 0b000100_1_1_011_1011_110_0111_001_1000_1_000000000000001110_00001000_1100_0000_1010_0000000000000000000000000010_00000000000000000000000000000001
      = .ok (.mternTile (wMf 1 1 3 11 6 7 1 8 1 14 8 12 0 10 2 1)) ∧
    decode .m 0b000101_1_1_001_0011_010_1111_110_0010_0_000000000000000000_00000000_0000_1000_0000_0000000000000000000000000000_00000000000000000000000000000001
      = .ok (.mcimldMem (wMf 1 1 1 3 2 15 6 2 0 0 0 0 8 0 0 1)) ∧
    decode .m 0b000101_1_1_010_0010_110_0011_011_0001_0_000000000000000000_00000000_0000_0000_0000_0000000000000000000000000011_00000000000000000000000001000000
      = .ok (.mcimldBasis (wMf 1 1 2 2 6 3 3 1 0 0 0 0 0 0 3 64)) ∧
    decode .m 0b000110_1_1_101_0010_101_0100_110_1000_1_000000000000000100_00000100_1001_0001_0001_0000000000000000000000001110_00000000000000000000000000000010
      = .ok (.mfp (wMf 1 1 5 2 5 4 6 8 1 4 4 9 1 1 14 2)) ∧
    decode .m 0b000111_1_1_001_0010_100_0011_001_1010_1_000000000000000001_00000001_0100_0000_0000_0000000000000000000000000000_00000000000000000000000000001101
      = .ok (.maccz (wMf 1 1 1 2 4 3 1 10 1 1 1 4 0 0 0 13)) ∧
    decode .m 0b001000_1_1_001_0010_011_0001_011_0111_1_100000000000000000_01010001_1111_0011_0000_0000000000000000000000000001_00000000000000000000000000000001
      = .ok (.maccrd (wMf 1 1 1 2 3 1 3 7 1 131072 81 15 3 0 1 1)) ∧
    decode .m 0b001001_1_1_001_0010_011_0001_011_0111_1_100000000000000000_01010001_1111_0011_0000_0000000000000000000000000001_00000000000000000000000000000001
      = .ok (.maccwr (wMf 1 1 1 2 3 1 3 7 1 131072 81 15 3 0 1 1)) ∧
    decode .m 0b001100_1_1_011_0010_100_0011_001_1010_0_000000000000000000_00000000_0000_0000_0000_0000000000000000000000000001_00000000000000000000000000000000
      = .ok (.mtest (wMf 1 1 3 2 4 3 1 10 0 0 0 0 0 0 1 0)) ∧
    decode .m 0b001101_1_1_011_0000_000_0000_000_1010_0_000000000000000000_00000000_0000_0000_0000_0000000000000000000000001010_00000000000000000000000000001101
      = .ok (.mloop (wMf 1 1 3 0 0 0 0 10 0 0 0 0 0 0 10 13)) ∧
    decode .m 0b001110_1_1_010_0001_011_1100_010_0011_0_000000000000000000_00000000_0000_0000_0000_0000000000000000000000000000_00000000000000000000000000000000
      = .ok (.msem (wMf 1 1 2 1 3 12 2 3 0 0 0 0 0 0 0 0)) :=
  byKernel (letI := @exceptDec; inferInstance) (by decide +kernel)
/-- Words of the M format, field by field (04 Tables 4.4 to 4.17). -/
theorem test_decode_mf_2 :
    decode .m 0b001111_1_1_001_0010_011_0010_011_0111_0_000000000000000000_00000000_0000_0000_0000_0000000000000000000000000000_00000000000000000000000000000000
      = .ok (.mdrain (wMf 1 1 1 2 3 2 3 7 0 0 0 0 0 0 0 0)) ∧
    decode .m 0b001111_1_1_001_0011_010_1111_110_0010_0_000000000000000000_00000000_0000_0000_0000_0000000000000000000000000011_00000000000000000000000000000000
      = .ok (.mdrainRdv (wMf 1 1 1 3 2 15 6 2 0 0 0 0 0 0 3 0)) :=
  byKernel (letI := @exceptDec; inferInstance) (by decide +kernel)
/-- Words of the M constant format, field by field (04 Tables 4.4 to 4.17). -/
theorem test_decode_mk :
    decode .m 0b001010_1_1_100_1101_010_1101_100_1100_0_000000000000000100_00001100_0000_0000_0000000000000000000000000000000000000000000000000000000000000100
      = .ok (.mchk (wMk 1 1 4 13 2 13 4 12 0 4 12 0 0 4)) ∧
    decode .m 0b001011_1_1_100_0011_001_0001_001_0001_1_000000000001000000_10010001_1010_1001_0000000000000000000000000000000000000000000000000000000000000011
      = .ok (.mscan (wMk 1 1 4 3 1 1 1 1 1 64 145 10 9 3)) :=
  byKernel (letI := @exceptDec; inferInstance) (by decide +kernel)


/-! Well-formedness: terms that break one rule each are refused by its name (04 R77). -/

/-- Each term is refused by the name beside it. -/
def refusedBy (l : List (Instr × DecodeError)) : Bool := l.all fun x => x.1.illegal == some x.2
/-- Ill-formed terms of the C register format. -/
theorem test_illformed_cr : refusedBy [
    (.add (wCr 0 5 1 3 1 5 1 1 1 1 0), .badGuard),
    (.add (wCr 4 5 1 0 1 5 1 1 1 1 0), .badRegister),
    (.add (wCr 4 5 1 26 1 5 1 1 1 1 0), .reservedBit),
    (.add (wCr 4 5 1 3 12 5 1 1 1 1 0), .reservedBit),
    (.add (wCr 4 5 1 3 2 5 1 1 1 1 0), .badRegister),
    (.add (wCr 4 5 1 3 1 25 1 1 1 1 0), .reservedBit),
    (.add (wCr 4 5 1 3 1 7 1 1 1 1 0), .badRegister),
    (.add (wCr 4 5 1 3 1 5 1 1 1 1 8), .reservedBit),
    (.andn (wCr 1 6 1 4 1 1 1 1 1 1 8), .reservedBit),
    (.cmple (wCr 4 1 1 4 1 1 1 1 1 1 9), .reservedBit),
    (.clz (wCr 4 5 1 3 1 0 1 1 0 0 0), .reservedValue),
    (.clz (wCr 4 5 1 3 1 0 1 1 1 1 0), .reservedBit),
    (.clz (wCr 4 5 1 3 1 0 1 1 1 0 8), .reservedBit),
    (.addx (wCr 1 6 1 4 1 1 1 1 1 1 15), .reservedValue),
    (.addx (wCr 1 6 1 4 1 1 1 1 1 1 64), .reservedBit),
    (.xidx (wCr 31 6 1 4 1 0 1 1 1 0 15), .reservedValue),
    (.xidx (wCr 31 6 1 4 1 0 1 1 1 0 64), .reservedBit),
    (.alnup (wCr 4 1 1 4 1 0 1 1 1 0 29), .reservedValue),
    (.alnup (wCr 4 1 1 4 1 0 1 1 1 0 64), .reservedBit),
    (.jr (wCr 8 2 1 0 1 0 1 1 1 0 0), .reservedBit),
    (.jr (wCr 8 2 1 0 1 0 1 0 1 0 7), .reservedBit),
    (.jrl (wCr 4 5 1 3 1 0 1 1 1 0 8), .reservedBit),
    (.wlpush (wCr 28 32 1 30 1 1 1 0 1 1 9), .reservedBit),
    (.wljoinDec (wCr 4 27 1 2 1 0 1 1 1 0 11), .reservedBit),
    (.wljoinArm (wCr 4 27 1 2 1 1 1 1 1 1 11), .reservedBit),
    (.wljoinAdd (wCr 4 27 1 2 1 1 1 1 1 1 11), .reservedBit),
    (.wlfloorGate (wCr 14 3 1 3 0 0 1 1 0 0 0), .reservedValue),
    (.wlfloorGate (wCr 14 3 1 3 0 0 0 1 1 0 0), .reservedBit),
    (.wlfloorGate (wCr 14 3 1 3 0 0 0 1 0 0 12), .reservedBit),
    (.wlfloorFresh (wCr 2 16 1 2 0 0 0 1 0 0 12), .reservedBit)] = true := by decide +kernel
/-- Ill-formed terms of the C register format. -/
theorem test_illformed_cr_2 : refusedBy [
    (.wlfloorFb (wCr 1 5 1 2 0 0 0 1 0 0 11), .reservedBit),
    (.flinit (wCr 28 32 1 30 1 1 1 0 1 1 9), .reservedBit),
    (.flclaim (wCr 12 13 1 2 1 0 1 1 1 0 10), .reservedBit),
    (.flfill (wCr 28 32 1 30 1 1 1 0 1 1 9), .reservedBit),
    (.fltake (wCr 28 32 1 4 1 1 1 1 1 1 9), .reservedBit),
    (.flrel (wCr 4 1 1 0 1 1 1 0 1 1 9), .reservedBit),
    (.recast (wCr 28 32 1 30 1 1 1 0 1 1 9), .reservedBit),
    (.recast (wCr 28 32 1 30 1 1 1 0 1 1 1), .reservedValue),
    (.rcwait (wCr 28 32 1 0 1 1 1 0 1 1 9), .reservedBit),
    (.rcwait (wCr 28 32 1 0 1 1 1 0 1 1 5), .reservedValue),
    (.phmark (wCr 28 32 1 30 1 1 1 0 1 1 9), .reservedBit),
    (.fxwin (wCr 4 1 1 0 1 1 1 0 1 1 64), .reservedBit),
    (.fxallow (wCr 26 1 1 0 1 1 1 0 1 1 1023), .reservedBit),
    (.fxsendBlk (wCr 4 27 1 0 1 0 1 0 1 0 11), .reservedBit),
    (.fxsendMc (wCr 26 13 1 12 1 0 1 0 1 0 10), .reservedBit),
    (.fxsendFaa (wCr 4 27 1 2 1 1 1 1 1 1 11), .reservedBit),
    (.fxarm (wCr 4 1 1 0 1 0 1 0 1 0 29), .reservedBit),
    (.fxcntRd (wCr 28 7 1 4 0 0 0 1 0 0 16), .reservedBit),
    (.fxcntSub (wCr 6 2 1 4 1 0 1 1 1 0 10), .reservedValue),
    (.fxcntSub (wCr 6 2 1 4 1 0 1 1 1 0 143), .reservedBit),
    (.fxcntWt (wCr 28 7 1 4 1 0 1 1 1 0 10), .reservedValue),
    (.fxcntWt (wCr 28 7 1 4 1 0 1 1 1 0 1023), .reservedBit),
    (.sysrd (wCr 4 1 1 3 0 0 0 1 0 0 10), .reservedValue),
    (.syswr (wCr 4 1 1 0 1 0 1 0 1 0 10), .reservedValue),
    (.semWrite (wCr 6 2 1 0 1 0 1 0 1 0 10), .reservedValue),
    (.epcWrite (wCr 6 2 1 0 1 0 1 0 1 0 10), .reservedValue),
    (.allowWrite (wCr 4 27 1 0 1 0 1 0 1 0 11), .reservedValue),
    (.worklistRegisterWrite (wCr 9 6 1 0 1 0 1 0 1 0 2), .reservedValue),
    (.tlbinv (wCr 28 32 1 0 1 1 1 0 1 1 9), .reservedBit),
    (.tlbinv (wCr 28 32 1 0 1 1 1 0 1 1 2), .reservedValue)] = true := by decide +kernel
/-- Ill-formed terms of the C register format. -/
theorem test_illformed_cr_3 : refusedBy [
    (.snaprd (wCr 28 7 1 4 1 0 1 1 1 0 9), .reservedBit),
    (.snapwr (wCr 28 32 1 0 1 1 1 0 1 1 9), .reservedBit),
    (.ctxsave (wCr 12 13 1 2 1 0 1 1 1 0 10), .reservedBit),
    (.ctxload (wCr 26 13 1 0 1 0 1 0 1 0 10), .reservedBit)] = true := by decide +kernel
/-- Ill-formed terms of the C immediate format. -/
theorem test_illformed_ci : refusedBy [
    (.addi (wCi 0 12 1 1 1 4), .badGuard),
    (.slli (wCi 2 12 1 1 1 65536), .reservedBit),
    (.lim (wCi 5 4 1 2 12 8), .reservedBit),
    (.limh (wCi 2 12 1 1 1 262144), .reservedBit),
    (.bext (wCi 2 12 1 1 1 65536), .reservedBit),
    (.ld (wCi 1 32 1 11 2 457971), .reservedValue),
    (.st (wCi 1 32 1 11 2 457971), .reservedValue),
    (.st (wCi 1 32 1 11 2 90849), .reservedBit)] = true := by decide +kernel
/-- Ill-formed terms of the C branch format. -/
theorem test_illformed_cb : refusedBy [
    (.br (wCb 0 11 1 0 8192), .badGuard),
    (.br (wCb 4 11 1 15 8192), .reservedBit),
    (.bdec (wCb 2 11 1 0 17), .reservedValue)] = true := by decide +kernel
/-- Ill-formed terms of the C system format. -/
theorem test_illformed_cs : refusedBy [
    (.rdv (wCs 0 5 1 7 0), .badGuard),
    (.rdv (wCs 4 5 1 7 12), .reservedBit),
    (.mcancel (wCs 1 14 1 2 5), .reservedBit),
    (.mcancel (wCs 1 14 1 0 6144), .reservedBit),
    (.wlyield (wCs 1 14 1 2 0), .reservedBit),
    (.wlyield (wCs 1 14 1 0 14), .reservedBit),
    (.mfence (wCs 12 15 1 0 2), .reservedValue),
    (.mfence (wCs 12 15 1 8 2), .reservedBit),
    (.mfence (wCs 12 15 1 3 31), .reservedBit),
    (.mjoin (wCs 4 4 1 1 7), .reservedBit),
    (.mjoin (wCs 4 4 1 0 13), .reservedBit),
    (.weirSet (wCs 1 2 1 8 14), .reservedValue),
    (.weirSet (wCs 1 2 1 8 341094), .reservedBit),
    (.weirArr (wCs 14 2 1 8 14), .reservedValue),
    (.weirArr (wCs 14 2 1 8 341094), .reservedBit),
    (.weirWt (wCs 4 4 1 3 14), .reservedValue),
    (.weirWt (wCs 4 4 1 3 11849583), .reservedBit),
    (.weirSync (wCs 12 15 1 11 15), .reservedValue),
    (.weirSync (wCs 12 15 1 11 65536), .reservedBit),
    (.phcommit (wCs 8 24 1 2 0), .reservedBit),
    (.phcommit (wCs 8 24 1 1 15), .reservedBit),
    (.phabort (wCs 1 7 1 6 14), .reservedBit),
    (.semsig (wCs 12 15 1 27 30), .reservedBit),
    (.semsig (wCs 12 15 1 11 11849583), .reservedBit),
    (.semsig (wCs 12 15 1 11 0), .reservedValue),
    (.fxdisarm (wCs 8 24 1 16 0), .reservedValue),
    (.fxdisarm (wCs 8 24 1 12 15), .reservedBit),
    (.fxdisarm (wCs 8 24 1 12 1), .reservedValue),
    (.fxfence (wCs 1 14 1 2 0), .reservedBit),
    (.fxfence (wCs 1 14 1 0 14), .reservedBit)] = true := by decide +kernel
/-- Ill-formed terms of the C system format. -/
theorem test_illformed_cs_2 : refusedBy [
    (.trap (wCs 2 11 1 1 15), .reservedBit),
    (.trap (wCs 2 11 1 0 14637838), .reservedBit)] = true := by decide +kernel
/-- Ill-formed terms of the A register format. -/
theorem test_illformed_ar : refusedBy [
    (.aadd (wAr 1 0 0 6 15 4 0 0), .reservedValue),
    (.aadd (wAr 0 23 0 6 15 4 0 0), .reservedBit),
    (.aadd (wAr 0 0 3 6 15 4 0 0), .reservedBit),
    (.aadd (wAr 0 0 0 31 15 4 0 0), .badRegister),
    (.aadd (wAr 0 0 0 6 28 4 0 0), .badRegister),
    (.aadd (wAr 0 0 0 6 15 28 0 0), .badRegister),
    (.aadd (wAr 0 0 0 6 15 4 16 0), .reservedBit),
    (.aadd (wAr 0 0 0 6 15 4 0 13565794), .reservedBit),
    (.aaddx (wAr 1 0 0 2 13 3 0 10), .reservedValue),
    (.aaddx (wAr 1 0 0 2 24 3 0 12725651), .reservedBit),
    (.aaddx (wAr 1 0 0 2 24 3 0 13), .reservedValue),
    (.ajr (wAr 0 0 0 9 4 25 0 0), .reservedBit),
    (.ajr (wAr 0 0 0 9 4 0 0 14405938), .reservedBit),
    (.cp (wAr 0 12 0 8 6 15 0 15246081), .reservedValue),
    (.cpg (wAr 0 12 0 2 5 8 24 8), .badRegister),
    (.cpg (wAr 0 12 0 2 5 8 14 14405938), .reservedValue),
    (.cps (wAr 0 8 0 2 5 8 14 14405938), .reservedValue),
    (.cpt (wAr 0 2 0 2 5 8 14 14405938), .reservedValue),
    (.cpz (wAr 0 0 0 2 5 8 0 14405938), .reservedValue),
    (.aswz (wAr 0 0 0 2 15 0 0 13565794), .reservedBit),
    (.aswz (wAr 0 0 0 2 15 0 0 7), .reservedValue),
    (.aflclaim (wAr 1 0 0 8 24 0 0 10205220), .reservedBit),
    (.aflfill (wAr 0 0 0 2 6 1 0 0), .reservedBit),
    (.aflfill (wAr 0 0 0 0 6 1 0 11045364), .reservedBit)] = true := by decide +kernel
/-- Ill-formed terms of the A immediate format. -/
theorem test_illformed_ai : refusedBy [
    (.aaddi (wAi 1 71 0 17 24 0 3), .reservedBit),
    (.aaddi (wAi 1 0 10 17 24 0 3), .reservedBit),
    (.aaddi (wAi 1 0 0 31 24 0 3), .badRegister),
    (.aaddi (wAi 1 0 0 17 13 0 3), .reservedValue),
    (.aaddi (wAi 1 0 0 17 31 0 3), .badRegister),
    (.aaddi (wAi 1 0 0 17 24 2 3), .reservedBit),
    (.alim (wAi 1 64 0 12 0 0 4), .reservedValue),
    (.alim (wAi 0 64 0 12 13 0 4), .reservedBit),
    (.abr (wAi 0 4 0 0 8 0 7), .reservedValue),
    (.abr (wAi 0 2 0 26 8 0 7), .reservedBit),
    (.abrRdv (wAi 0 4 0 0 0 0 100663296), .reservedBit),
    (.agen (wAi 0 0 4 0 0 0 0), .reservedValue),
    (.agen (wAi 0 0 1 0 0 0 512), .reservedBit),
    (.lda (wAi 0 3 0 2 8 0 4009411917), .reservedValue),
    (.ldv (wAi 0 3 0 27 8 0 4009411917), .reservedValue),
    (.sta (wAi 1 8 0 0 8 0 7), .reservedValue),
    (.sta (wAi 1 8 0 24 8 0 4009411917), .reservedValue),
    (.stv (wAi 1 8 0 28 8 0 536870912), .reservedBit),
    (.fewait (wAi 0 2 0 0 1 0 134217728), .reservedBit),
    (.feset (wAi 0 0 0 0 4 0 1825904807), .reservedBit)] = true := by decide +kernel
/-- Ill-formed terms of the V format. -/
theorem test_illformed_vf : refusedBy [
    (.vadd (wVf 0 23 1 15 2 1 1 0 4 3 1 1 1 1 1 0), .badGuard),
    (.vadd (wVf 2 23 1 0 2 1 1 0 4 3 1 1 1 1 1 0), .reservedValue),
    (.vadd (wVf 2 23 1 6 2 1 1 0 4 3 1 1 1 1 1 0), .reservedBit),
    (.vadd (wVf 2 23 1 15 13 1 1 0 4 3 1 1 1 1 1 0), .badRegister),
    (.vadd (wVf 2 23 1 15 2 9 1 0 4 3 1 1 1 1 1 0), .badRegister),
    (.vadd (wVf 2 23 1 15 2 1 16 0 4 3 1 1 1 1 1 0), .badRegister),
    (.vadd (wVf 2 23 1 15 2 1 1 2 4 3 1 1 1 1 1 0), .reservedBit),
    (.vadd (wVf 2 23 1 15 2 1 1 0 4 6 1 1 1 1 1 0), .reservedValue),
    (.vadd (wVf 2 23 1 15 2 1 1 0 4 3 1 1 1 1 1 7), .reservedBit),
    (.vfma (wVf 2 23 1 0 3 1 1 3 4 3 1 1 1 1 1 0), .reservedValue),
    (.vfma (wVf 2 23 1 15 3 1 1 3 4 3 1 1 1 1 1 7), .reservedBit),
    (.vmin (wVf 2 23 1 0 2 1 1 0 4 0 0 1 1 1 1 0), .reservedValue),
    (.vmin (wVf 2 23 1 8 2 1 1 0 4 4 0 1 1 1 1 0), .reservedBit),
    (.vmin (wVf 2 23 1 8 2 1 1 0 4 0 1 1 1 1 1 0), .reservedBit),
    (.vmin (wVf 2 23 1 8 2 1 1 0 4 0 0 1 1 1 1 7), .reservedBit),
    (.vabs (wVf 13 23 1 0 2 1 0 0 4 0 0 1 1 1 0 0), .reservedValue),
    (.vabs (wVf 13 23 1 8 2 1 16 0 4 0 0 1 1 1 0 0), .reservedBit),
    (.vabs (wVf 13 23 1 8 2 1 0 0 4 0 0 1 1 0 0 0), .reservedValue),
    (.vabs (wVf 13 23 1 8 2 1 0 0 4 0 0 1 1 1 1 0), .reservedBit),
    (.vabs (wVf 13 23 1 8 2 1 0 0 4 0 0 1 1 1 0 7), .reservedBit),
    (.vrcp (wVf 13 23 1 0 2 1 0 0 4 3 1 1 1 1 0 0), .reservedValue),
    (.vrcp (wVf 13 23 1 15 2 1 0 0 4 3 1 1 1 1 0 7), .reservedBit),
    (.vand (wVf 2 23 1 0 2 1 1 0 4 0 0 1 1 1 1 0), .reservedValue),
    (.vand (wVf 2 23 1 8 2 1 1 0 4 0 0 1 1 1 1 7), .reservedBit),
    (.vnot (wVf 13 23 1 0 2 1 0 0 4 0 0 1 1 1 0 0), .reservedValue),
    (.vnot (wVf 13 23 1 8 2 1 0 0 4 0 0 1 1 1 0 7), .reservedBit),
    (.vsll (wVf 2 23 1 0 2 1 1 0 4 0 0 1 1 1 1 0), .reservedValue),
    (.vsll (wVf 2 23 1 8 2 1 1 0 4 0 0 1 1 1 1 7), .reservedBit),
    (.vmulhi (wVf 9 1 1 1 3 8 1 0 2 0 0 1 1 0 1 1), .reservedValue),
    (.vmulhi (wVf 9 1 1 8 3 8 1 0 2 0 0 1 1 1 1 1), .badRegister)] = true := by decide +kernel
/-- Ill-formed terms of the V format. -/
theorem test_illformed_vf_2 : refusedBy [
    (.vmulhi (wVf 9 1 1 8 3 8 1 0 2 0 0 1 1 0 0 1), .reservedValue),
    (.vmulhi (wVf 9 1 1 8 3 8 1 0 2 0 0 1 1 0 1 8), .reservedBit),
    (.vcmpeq (wVf 9 1 1 1 3 1 1 0 5 0 0 1 0 1 1 0), .reservedValue),
    (.vcmpeq (wVf 9 1 1 16 3 1 1 0 5 0 0 1 1 1 1 0), .badRegister),
    (.vcmpeq (wVf 9 1 1 16 3 1 1 0 5 0 0 1 0 1 1 8), .reservedBit),
    (.vcmpeq (wVf 9 1 1 16 3 1 1 0 5 0 0 1 0 1 1 1), .reservedValue),
    (.kand (wVf 13 2 1 1 2 4 2 0 0 0 0 0 0 0 0 0), .reservedBit),
    (.kand (wVf 13 2 1 0 2 4 2 0 3 0 0 0 0 0 0 0), .reservedBit),
    (.kand (wVf 13 2 1 0 2 4 2 0 0 0 0 1 0 0 0 0), .reservedValue),
    (.kand (wVf 13 2 1 0 2 4 2 0 0 0 0 0 0 0 1 0), .badRegister),
    (.kand (wVf 13 2 1 0 2 4 2 0 0 0 0 0 0 0 0 7), .reservedBit),
    (.knot (wVf 13 2 1 1 2 4 0 0 0 0 0 0 0 0 0 0), .reservedBit),
    (.knot (wVf 13 2 1 0 2 4 0 0 0 0 0 0 0 0 0 7), .reservedBit),
    (.kpop (wVf 13 2 1 1 2 4 0 0 0 0 0 0 0 0 0 0), .reservedBit),
    (.kpop (wVf 13 2 1 0 2 4 0 0 0 0 0 0 0 0 0 7), .reservedBit),
    (.vmov (wVf 13 23 1 0 2 1 0 0 4 0 0 1 1 1 0 0), .reservedValue),
    (.vmov (wVf 13 23 1 8 2 1 0 0 4 0 0 1 1 1 0 7), .reservedBit),
    (.vbcast (wVf 9 1 1 1 3 6 0 0 6 0 0 1 1 1 0 0), .reservedValue),
    (.vbcast (wVf 9 1 1 12 3 6 0 0 6 0 0 1 1 1 0 8), .reservedBit),
    (.vsel (wVf 2 23 1 0 2 1 1 0 4 0 0 1 1 1 1 0), .reservedValue),
    (.vsel (wVf 2 23 1 8 2 1 1 0 0 0 0 1 1 1 1 0), .reservedValue),
    (.vsel (wVf 2 23 1 8 2 1 1 0 4 0 0 1 1 1 1 7), .reservedBit),
    (.vperm (wVf 8 2 1 1 2 1 1 0 7 0 0 1 1 1 1 0), .reservedValue),
    (.vperm (wVf 8 2 1 13 2 1 1 0 7 0 0 1 1 1 1 8), .reservedBit),
    (.vrot (wVf 13 23 1 0 2 1 2 0 4 0 0 1 1 1 0 0), .reservedValue),
    (.vrot (wVf 13 23 1 8 2 1 2 0 4 0 0 1 1 1 0 7), .reservedBit),
    (.vslide (wVf 9 1 1 1 3 2 1 7 2 0 0 1 1 0 1 0), .reservedValue),
    (.vslide (wVf 9 1 1 12 3 2 1 23 2 0 0 1 1 0 1 0), .badRegister),
    (.vslide (wVf 9 1 1 12 3 2 1 7 2 0 0 1 1 0 1 8), .reservedBit),
    (.vzip (wVf 2 2 1 0 2 1 1 0 0 0 0 1 1 1 1 1), .reservedValue)] = true := by decide +kernel
/-- Ill-formed terms of the V format. -/
theorem test_illformed_vf_3 : refusedBy [
    (.vzip (wVf 2 2 1 1 2 1 1 0 0 0 0 1 1 1 1 7), .reservedBit),
    (.vpart (wVf 8 2 1 1 16 3 4 10 7 0 0 0 0 0 0 1), .reservedValue),
    (.vpart (wVf 8 2 1 6 16 3 4 10 7 0 0 0 0 0 0 8), .reservedBit),
    (.vcompact (wVf 4 3 1 2 16 14 10 0 7 0 0 0 0 0 0 0), .reservedValue),
    (.vcompact (wVf 4 3 1 8 16 14 10 0 7 0 0 0 0 0 0 9), .reservedBit),
    (.vredsum (wVf 6 7 1 2 6 1 0 0 2 3 1 1 0 1 0 1), .reservedValue),
    (.vredsum (wVf 6 7 1 6 6 1 0 0 2 3 1 1 0 1 0 1), .reservedBit),
    (.vredsum (wVf 6 7 1 15 6 1 0 0 2 3 1 1 0 1 0 9), .reservedBit),
    (.vredmax (wVf 6 7 1 2 6 1 0 0 2 0 0 1 0 1 0 1), .reservedValue),
    (.vredmax (wVf 6 7 1 6 6 1 0 0 2 0 0 1 0 1 0 9), .reservedBit),
    (.vredamax (wVf 5 3 1 2 5 1 0 0 5 0 0 1 1 1 0 1), .reservedValue),
    (.vredamax (wVf 5 3 1 16 5 1 0 0 5 0 0 1 1 1 0 9), .reservedBit),
    (.vredamax (wVf 5 3 1 16 5 1 0 0 5 0 0 1 1 1 0 0), .badRegister),
    (.vscan (wVf 8 2 1 1 2 1 0 0 7 0 0 1 1 1 0 0), .reservedValue),
    (.vscan (wVf 8 2 1 8 2 1 0 0 7 0 0 1 1 1 0 8), .reservedBit),
    (.vld (wVf 8 4 1 26 3 2 14 8 0 0 0 0 1 0 0 2), .reservedValue),
    (.vld (wVf 8 4 1 2 3 2 14 8 0 0 0 0 1 0 0 7), .reservedBit),
    (.vst (wVf 8 4 1 0 5 2 14 8 4 0 0 0 0 0 0 0), .reservedValue),
    (.vst (wVf 8 4 1 16 5 2 14 8 4 0 0 0 0 0 0 7), .reservedBit),
    (.vldt (wVf 13 23 1 0 2 12 2 0 4 0 0 0 1 0 0 0), .reservedValue),
    (.vldt (wVf 13 23 1 8 2 12 2 0 4 0 0 0 1 0 0 7), .reservedBit),
    (.vcvt (wVf 1 23 1 0 3 1 0 3 4 3 1 1 0 1 0 2), .reservedBit),
    (.vcvt (wVf 1 23 1 11 3 1 0 3 4 3 1 1 0 1 0 2), .reservedValue),
    (.vcvt (wVf 1 23 1 15 3 1 0 7 4 3 1 1 0 1 0 2), .reservedValue),
    (.vcvt (wVf 1 23 1 15 3 1 0 3 4 3 1 1 1 1 0 2), .reservedValue),
    (.vcvt (wVf 1 23 1 15 3 1 0 3 4 3 1 1 0 1 0 7), .reservedValue),
    (.vcvt (wVf 1 23 1 15 3 1 0 3 4 3 1 1 0 1 0 64), .reservedBit),
    (.vquant (wVf 9 16 1 1 11 8 3 15 0 4 1 0 0 0 0 1), .reservedBit),
    (.vquant (wVf 9 16 1 17 11 8 3 15 0 4 1 0 0 0 0 1), .reservedValue),
    (.vquant (wVf 9 16 1 12 11 8 3 15 0 4 1 0 0 0 0 8), .reservedValue)] = true := by decide +kernel
/-- Ill-formed terms of the V format. -/
theorem test_illformed_vf_4 : refusedBy [
    (.vdeq (wVf 1 23 1 0 3 1 2 3 4 3 1 1 0 1 0 2), .reservedBit),
    (.vdeq (wVf 1 23 1 11 3 1 2 3 4 3 1 1 0 1 0 2), .reservedValue),
    (.vdeq (wVf 1 23 1 15 3 1 2 3 4 3 1 1 0 1 0 7), .reservedValue),
    (.vdeq (wVf 1 23 1 15 3 1 2 3 4 3 1 1 0 1 0 64), .reservedBit),
    (.vpack (wVf 8 2 1 1 16 1 0 16 7 0 0 1 0 1 0 3), .reservedValue),
    (.vpack (wVf 8 2 1 13 16 1 0 16 7 0 0 1 0 1 0 8), .reservedValue),
    (.vpack (wVf 8 2 1 13 16 1 0 16 7 0 0 1 0 1 0 48), .reservedBit),
    (.vunpack (wVf 6 7 1 2 6 1 0 1 2 0 0 1 0 1 0 1), .reservedValue),
    (.vunpack (wVf 6 7 1 6 6 1 0 1 2 0 0 1 0 1 0 9), .reservedValue),
    (.vunpack (wVf 6 7 1 6 6 1 0 1 2 0 0 1 0 1 0 59), .reservedBit),
    (.vscl (wVf 13 23 1 0 2 1 2 0 4 3 1 1 1 1 0 32), .reservedBit),
    (.vscl (wVf 13 23 1 11 2 1 2 0 4 3 1 1 1 1 0 32), .reservedValue),
    (.vscl (wVf 13 23 1 15 2 1 2 0 4 3 1 1 1 1 0 7), .reservedBit),
    (.vtag (wVf 13 2 1 31 2 1 0 0 0 0 0 1 1 1 0 0), .reservedValue),
    (.vtag (wVf 13 2 1 1 2 1 0 0 0 0 0 1 1 1 0 7), .reservedBit),
    (.vtagrd (wVf 9 16 1 1 12 2 0 0 0 0 0 0 0 0 0 0), .reservedBit),
    (.vtagrd (wVf 9 16 1 0 12 2 0 0 0 0 0 0 0 0 0 8), .reservedBit),
    (.gadd (wVf 13 2 1 1 2 4 2 0 0 0 0 1 0 1 0 0), .reservedBit),
    (.gadd (wVf 13 2 1 0 2 4 2 0 0 0 0 1 0 1 0 7), .reservedBit),
    (.gmov (wVf 13 2 1 1 2 4 0 0 0 0 0 1 0 1 0 0), .reservedBit),
    (.gmov (wVf 13 2 1 0 2 4 0 0 0 0 0 1 0 1 0 7), .reservedBit),
    (.vsemsig (wVf 6 7 1 2 0 0 0 0 0 0 0 0 0 0 0 37), .reservedBit),
    (.vsemsig (wVf 6 7 1 0 14 0 0 0 0 0 0 0 0 0 0 37), .reservedBit),
    (.vsemsig (wVf 6 7 1 0 0 27 0 0 0 0 0 0 0 0 0 37), .reservedBit),
    (.vsemsig (wVf 6 7 1 0 0 0 0 0 0 0 0 0 1 0 0 37), .reservedBit),
    (.vsemsig (wVf 6 7 1 0 0 0 0 0 0 0 0 0 0 1 0 37), .reservedBit)] = true := by decide +kernel
/-- Ill-formed terms of the V immediate format. -/
theorem test_illformed_vi : refusedBy [
    (.gaddi (wVi 0 1 1 0 10 2 0 0 0 10), .badGuard),
    (.gaddi (wVi 4 1 1 1 10 2 0 0 0 10), .reservedBit),
    (.gaddi (wVi 4 1 1 0 31 2 0 0 0 10), .badRegister),
    (.gaddi (wVi 4 1 1 0 10 26 0 0 0 10), .badRegister),
    (.gaddi (wVi 4 1 1 0 10 2 8 0 0 10), .reservedBit),
    (.gaddi (wVi 4 1 1 0 10 2 0 19 0 10), .reservedBit),
    (.gaddi (wVi 4 1 1 0 10 2 0 0 1 10), .reservedBit),
    (.glim (wVi 2 11 1 0 15 1 16 0 0 12), .reservedValue),
    (.gbr (wVi 6 32 1 0 12 2 0 0 0 2), .reservedValue),
    (.gbr (wVi 6 32 1 0 0 2 0 0 0 2), .reservedBit),
    (.gbrRdv (wVi 10 1 1 0 3 10 0 0 0 5), .reservedBit),
    (.gbrRdv (wVi 10 1 1 0 3 0 0 0 0 24771), .reservedBit)] = true := by decide +kernel
/-- Ill-formed terms of the M format. -/
theorem test_illformed_mf : refusedBy [
    (.mbase (wMf 1 1 7 2 4 3 1 10 0 0 0 4 0 0 1 13), .reservedValue),
    (.mbase (wMf 1 1 3 2 0 3 1 10 0 0 0 4 0 0 1 13), .reservedValue),
    (.mbase (wMf 1 1 3 2 4 3 0 10 0 0 0 4 0 0 1 13), .reservedValue),
    (.mbase (wMf 1 1 3 2 4 3 1 10 1 0 0 4 0 0 1 13), .reservedValue),
    (.mbase (wMf 1 1 3 2 4 3 1 10 0 12 0 4 0 0 1 13), .reservedValue),
    (.mbase (wMf 1 1 3 2 4 3 1 10 0 0 9 4 0 0 1 13), .reservedValue),
    (.mbase (wMf 1 1 3 2 4 3 1 10 0 0 0 4 2 0 1 13), .reservedBit),
    (.mbase (wMf 1 1 3 2 4 3 1 10 0 0 0 4 0 14 1 13), .reservedBit),
    (.mbase (wMf 1 1 3 2 4 3 1 10 0 0 0 4 0 0 67108864 13), .reservedBit),
    (.mbase (wMf 1 1 3 2 4 3 1 10 0 0 0 4 0 0 12 13), .reservedValue),
    (.mrow (wMf 1 1 2 1 3 12 2 3 0 3 8 5 6 4 1 11), .reservedBit),
    (.mrow (wMf 1 1 2 1 3 12 2 3 0 3 8 0 6 4 3 11), .reservedBit),
    (.mrow (wMf 1 1 2 1 3 12 2 3 0 3 8 0 6 4 0 11), .reservedValue),
    (.mrow (wMf 1 1 2 1 3 12 2 3 0 3 8 0 6 4 1 524288), .reservedBit),
    (.mseed (wMf 1 1 3 2 4 3 1 10 0 0 0 0 4 0 67108864 0), .reservedBit),
    (.mseed (wMf 1 1 3 2 4 3 1 10 0 0 0 0 4 0 14 0), .reservedValue),
    (.mseed (wMf 1 1 3 2 4 3 1 10 0 0 0 0 4 0 1 8), .reservedBit),
    (.mternSeed (wMf 1 1 3 11 6 7 1 8 1 14 8 12 0 8 2048 1), .reservedValue),
    (.mternSeed (wMf 1 1 3 11 6 7 1 8 1 14 8 12 0 0 1 1), .reservedValue),
    (.mternSeed (wMf 1 1 3 11 6 7 1 8 1 14 8 12 0 0 43484512 1), .reservedBit),
    (.mternSeed (wMf 1 1 3 11 6 7 1 8 1 14 8 12 0 0 2048 2049683036), .reservedBit),
    (.mternCim (wMf 1 1 2 4 6 2 2 3 1 2 22 13 0 0 4 5), .reservedValue),
    (.mternCim (wMf 1 1 2 4 6 2 2 3 1 2 22 13 0 0 151043089 5), .reservedBit),
    (.mternCim (wMf 1 1 2 4 6 2 2 3 1 2 22 13 0 0 25 65536), .reservedBit),
    (.mternTile (wMf 1 1 3 11 6 7 1 8 1 14 8 12 0 10 1 1), .reservedValue),
    (.mternTile (wMf 1 1 3 11 6 7 1 8 1 14 8 12 0 10 207079258 1), .reservedBit),
    (.mternTile (wMf 1 1 3 11 6 7 1 8 1 14 8 12 0 10 2 2049683036), .reservedBit),
    (.mcimldMem (wMf 1 1 1 3 2 15 6 2 0 0 0 0 8 0 1 1), .reservedBit),
    (.mcimldMem (wMf 1 1 1 3 2 15 6 2 0 0 0 0 8 0 0 2049683036), .reservedBit),
    (.mcimldBasis (wMf 1 1 2 2 6 3 3 1 0 0 0 0 0 0 2 64), .reservedValue)] = true := by decide +kernel
/-- Ill-formed terms of the M format. -/
theorem test_illformed_mf_2 : refusedBy [
    (.mcimldBasis (wMf 1 1 2 2 6 3 3 1 0 0 0 0 0 0 8388608 64), .reservedBit),
    (.mcimldBasis (wMf 1 1 2 2 6 3 3 1 0 0 0 0 0 0 3 2119708363), .reservedBit),
    (.mfp (wMf 1 1 5 2 5 4 6 8 1 4 4 9 1 1 2 2), .reservedValue),
    (.mfp (wMf 1 1 5 2 5 4 6 8 1 4 4 9 1 1 512 2), .reservedBit),
    (.mfp (wMf 1 1 5 2 5 4 6 8 1 4 4 9 1 1 14 2097152), .reservedValue),
    (.mfp (wMf 1 1 5 2 5 4 6 8 1 4 4 9 1 1 14 67108864), .reservedBit),
    (.maccz (wMf 1 1 1 2 4 3 1 10 1 1 1 4 0 0 3 13), .reservedBit),
    (.maccz (wMf 1 1 1 2 4 3 1 10 1 1 1 4 0 0 0 1048576), .reservedBit),
    (.maccrd (wMf 1 1 1 2 3 1 3 7 1 131072 81 15 3 0 134217728 1), .reservedBit),
    (.maccrd (wMf 1 1 1 2 3 1 3 7 1 131072 81 15 3 0 23 1), .reservedValue),
    (.maccrd (wMf 1 1 1 2 3 1 3 7 1 131072 81 15 3 0 1 268435456), .reservedBit),
    (.maccwr (wMf 1 1 1 2 3 1 3 7 1 131072 81 15 3 0 134217728 1), .reservedBit),
    (.maccwr (wMf 1 1 1 2 3 1 3 7 1 131072 81 15 3 0 23 1), .reservedValue),
    (.maccwr (wMf 1 1 1 2 3 1 3 7 1 131072 81 15 3 0 1 268435456), .reservedBit),
    (.mtest (wMf 1 1 3 2 4 3 1 10 0 0 0 0 0 0 3 0), .reservedValue),
    (.mtest (wMf 1 1 3 2 4 3 1 10 0 0 0 0 0 0 67108864 0), .reservedBit),
    (.mtest (wMf 1 1 3 2 4 3 1 10 0 0 0 0 0 0 1 8), .reservedBit),
    (.mloop (wMf 1 1 3 1 0 0 0 10 0 0 0 0 0 0 10 13), .reservedValue),
    (.mloop (wMf 1 1 3 0 5 0 0 10 0 0 0 0 0 0 10 13), .reservedBit),
    (.mloop (wMf 1 1 3 0 0 10 0 10 0 0 0 0 0 0 10 13), .reservedValue),
    (.mloop (wMf 1 1 3 0 0 0 1 10 0 0 0 0 0 0 10 13), .reservedBit),
    (.mloop (wMf 1 1 3 0 0 0 0 10 0 0 0 0 0 0 67108864 13), .reservedBit),
    (.msem (wMf 1 1 2 1 3 12 2 3 0 0 0 0 0 0 3 0), .reservedBit),
    (.msem (wMf 1 1 2 1 3 12 2 3 0 0 0 0 0 0 0 7), .reservedBit),
    (.mdrain (wMf 1 1 1 2 3 2 3 7 0 0 0 0 0 0 134217728 0), .reservedBit),
    (.mdrain (wMf 1 1 1 2 3 2 3 7 0 0 0 0 0 0 0 8), .reservedBit),
    (.mdrainRdv (wMf 1 1 1 3 2 15 6 2 0 0 0 0 0 0 16 0), .reservedValue),
    (.mdrainRdv (wMf 1 1 1 3 2 15 6 2 0 0 0 0 0 0 217107145 0), .reservedBit),
    (.mdrainRdv (wMf 1 1 1 3 2 15 6 2 0 0 0 0 0 0 3 10), .reservedBit)] = true := by decide +kernel
/-- Ill-formed terms of the M constant format. -/
theorem test_illformed_mk : refusedBy [
    (.mchk (wMk 1 1 6 13 2 13 4 12 0 4 12 0 0 4), .reservedValue),
    (.mchk (wMk 1 1 4 13 0 13 4 12 0 4 12 0 0 4), .reservedValue),
    (.mchk (wMk 1 1 4 13 2 13 0 12 0 4 12 0 0 4), .reservedValue),
    (.mchk (wMk 1 1 4 13 2 13 4 12 1 4 12 0 0 4), .reservedValue),
    (.mchk (wMk 1 1 4 13 2 13 4 12 0 4 0 0 0 4), .reservedValue),
    (.mchk (wMk 1 1 4 13 2 13 4 12 0 4 12 5 0 4), .reservedBit),
    (.mchk (wMk 1 1 4 13 2 13 4 12 0 4 12 0 8 4), .reservedBit)] = true := by decide +kernel
/-- An opcode that Table 4.8 reserves is refused before its guard is read (04 Table 4.19). -/
theorem test_reserved_opcodes : decode .c 0 = .error .reservedOpcode ∧ decode .a 0 = .error .reservedOpcode ∧
    decode .v 0 = .error .reservedOpcode ∧ decode .m 0 = .error .reservedOpcode ∧ decode .c 0x340000000000 = .error .reservedOpcode :=
  byKernel (letI := @exceptDec; inferInstance) (by decide +kernel)

/-! The C stream. -/

def crQ : CrF := { cr 3 4 5 with qa := 1, qb := 1, qd := 1 }
def sC : State := st { core0 with c := { g := [(3, 7), (4, -9), (6, 96)] }, q := [(3, qe 5), (4, qe (-3)), (5, qe 6)], sem := [(3, 0x205)] }
def sMin : State := st { core0 with c := { g := [(3, 0x8000000000000000), (4, -1)] } }
def ciC : CiF := { g := g0, rd := 5, ra := 3, imm := 0x20184 }
def cbC : CbF := { g := g0, ra := 3, off := 0xFFFFFE }
def csC : CsF := { g := g0, sub := 3, sys := 0x000205 }
def sMem : State := st { core0 with c := { g := [(3, 0x7E00000000000000), (4, 0x7E00000000000009), (5, 5)] } } [(2 ^ 57 + 5 * 2 ^ 27, 0x81)]
def sImm : State := st { core0 with roleDef := { own0 with role := .imm } }
def sStr : State := st { core0 with roleDef := { own0 with role := .str } }
def sQ : State :=
  st { core0 with c := { g := [(3, 7)] }, q := [(2, qFull), (3, { ents := [{ val := 5, psn := true }] }), (5, qFull)] }

/-- The hypotheses of CRegisterForms are met. -/
theorem witness_CRegisterForms :
    (let f : CrF := cr 3 4 5
    let s : State := sC
    guardOn f.g s.cg = true ∧ s.cReady (CrQ f true true) (qName f.qd f.rd) = .ok ()) ∧
    (let f : CrF := crQ
    let s : State := sC
    guardOn f.g s.cg = true ∧ s.cReady (CrQ f true true) (qName f.qd f.rd) = .ok ()) :=
  by refine ⟨?_, ?_⟩ <;> exact byKernel (letI := @exceptDec; inferInstance) (by decide +kernel)

/-- The hypotheses of CDivision are met. -/
theorem witness_CDivision :
    (let f : CrF := cr 3 0 5
    let s : State := sC
    let b := s.cSrc f.qb f.rb
    guardOn f.g s.cg = true ∧ s.cReady (CrQ f true true) (qName f.qd f.rd) = .ok () ∧ b = 0) ∧
    (let f : CrF := cr 3 4 5
    let s : State := sC
    let b := s.cSrc f.qb f.rb
    guardOn f.g s.cg = true ∧ s.cReady (CrQ f true true) (qName f.qd f.rd) = .ok () ∧ b ≠ 0) ∧
    (let f : CrF := crQ
    let s : State := sC
    let b := s.cSrc f.qb f.rb
    guardOn f.g s.cg = true ∧ s.cReady (CrQ f true true) (qName f.qd f.rd) = .ok () ∧ b ≠ 0) ∧
    (let f : CrF := cr 3 4 5
    let s : State := sMin
    let a := s.cSrc f.qa f.ra
    let b := s.cSrc f.qb f.rb
    guardOn f.g s.cg = true ∧ s.cReady (CrQ f true true) (qName f.qd f.rd) = .ok () ∧ (a.toInt = -(2 ^ 63) ∧ b.toInt = -1)) ∧
    (let f : CrF := cr 3 4 5
    let s : State := sC
    let a := s.cSrc f.qa f.ra
    let b := s.cSrc f.qb f.rb
    guardOn f.g s.cg = true ∧ s.cReady (CrQ f true true) (qName f.qd f.rd) = .ok () ∧ b ≠ 0 ∧ (¬(a.toInt = -(2 ^ 63) ∧ b.toInt = -1))) :=
  by refine ⟨?_, ?_, ?_, ?_, ?_⟩ <;> exact byKernel (letI := @exceptDec; inferInstance) (by decide +kernel)
/-- The hypotheses of CDivision are met and the word answers a next state. -/
theorem witness_CDivision_runs :
    (let f : CrF := cr 3 4 5
    let s : State := sC
    let op := Instr.add
    ∃ t, exec (op f) s = .next t) ∧
    (let i : CiF := ciC
    let s : State := sC
    let op := Instr.addi
    ∃ t, exec (op i) s = .next t) ∧
    (let b : CbF := cbC
    let s : State := sC
    let op := Instr.bdec
    ∃ t, exec (op b) s = .next t) ∧
    (let k : CsF := csC
    let s : State := sC
    ∃ t, exec (.rdv k) s = .next t) :=
  ⟨⟨_, rfl⟩,
   ⟨_, rfl⟩,
   ⟨_, rfl⟩,
   ⟨_, rfl⟩⟩

/-- The hypotheses of CImmediateForms are met. -/
theorem witness_CImmediateForms :
    (let f : CiF := ciC
    let s : State := sC
    guardOn f.g s.cg = true) ∧
    (let f : CiF := ciC
    let s : State := sC
    let n := (f.imm.extractLsb' 0 6).toNat
    let len := (f.imm.extractLsb' 6 6).toNat + 1
    guardOn f.g s.cg = true ∧ n + len ≤ 64) ∧
    (let f : CiF := { ciC with imm := 0xFC0 }
    let s : State := sC
    let n := (f.imm.extractLsb' 0 6).toNat
    let len := (f.imm.extractLsb' 6 6).toNat + 1
    guardOn f.g s.cg = true ∧ n + len ≤ 64) :=
  by refine ⟨?_, ?_, ?_⟩ <;> exact byKernel (letI := @exceptDec; inferInstance) (by decide +kernel)

/-- The hypotheses of CCounts are met. -/
theorem witness_CCounts :
    (let f : CrF := cr 3 4 5
    let s : State := sC
    guardOn f.g s.cg = true ∧ s.cReady (CrQ f true false) (qName f.qd f.rd) = .ok ()) ∧
    (let f : CrF := cr 3 0 5
    let s : State := sC
    let op := Instr.clz
    guardOn f.g s.cg = true ∧ s.cReady (CrQ f true false) (qName f.qd f.rd) = .ok () ∧ (op f).WellFormed) :=
  by refine ⟨?_, ?_⟩ <;> exact byKernel (letI := @exceptDec; inferInstance) (by decide +kernel)

/-- The hypotheses of CBranchesAndJumps are met. -/
theorem witness_CBranchesAndJumps :
    (let f : CbF := cbC
    let s : State := sC
    guardOn f.g s.cg = true) ∧
    (let f : CrF := cr 6 0 5
    let s : State := sC
    let qs := CrQ f true false
    guardOn f.g s.cg = true ∧ s.cReady qs [] = .ok ()) ∧
    (let f : CrF := { cr 6 0 5 with qd := 1 }
    let s : State := sC
    let qs := CrQ f true false
    guardOn f.g s.cg = true ∧ s.cReady qs (qName f.qd f.rd) = .ok ()) ∧
    (let f : CbF := { cbC with ra := 0 }
    (Instr.br f).WellFormed) ∧
    (let f : CbF := cbC
    (Instr.bdec f).WellFormed) ∧
    (let r : CrF := cr 3 0 0
    (Instr.jr r).WellFormed) ∧
    (let r : CrF := cr 3 0 5
    (Instr.jrl r).WellFormed) :=
  by refine ⟨?_, ?_, ?_, ?_, ?_, ?_, ?_⟩ <;> exact byKernel (letI := @exceptDec; inferInstance) (by decide +kernel)

/-- The hypotheses of CLoadStore are met. -/
theorem witness_CLoadStore :
    (let f : CiF := { ciC with imm := 0x24000 }
    let s : State := sMem
    let o : Nat := 0
    let ps : Pieces := [(apAddr 5 0, 6)]
    let w := widthOf f.wc
    let ea := ((s.cg f.ra.toNat).toNat + f.d * (w : Int)) % 2 ^ 64
    guardOn f.g s.cg = true ∧ s.scratch (.stream .c) .r .rd ea.toNat w w = .ok (o, ps)) ∧
    (let f : CiF := { ciC with imm := 0x17FFF, ra := 4 }
    let s : State := sMem
    let o : Nat := 6
    let ps : Pieces := [(apAddr 5 6, 3)]
    let w := widthOf f.wc
    let ea := ((s.cg f.ra.toNat).toNat + f.d * (w : Int)) % 2 ^ 64
    guardOn f.g s.cg = true ∧ s.scratch (.stream .c) .w .wr ea.toNat w w = .ok (o, ps)) ∧
    (let f : CiF := { ciC with imm := 0x24000, ra := 4 }
    let s : State := sMem
    let w := widthOf f.wc
    let ea := ((s.cg f.ra.toNat).toNat + f.d * (w : Int)) % 2 ^ 64
    let e := trAt .misalign 0x7E00000000000009
    guardOn f.g s.cg = true ∧ s.scratch (.stream .c) .r .rd ea.toNat w w = .error e) ∧
    (let f : CiF := { ciC with imm := 0x24000, ra := 4 }
    let s : State := sMem
    let w := widthOf f.wc
    let ea := ((s.cg f.ra.toNat).toNat + f.d * (w : Int)) % 2 ^ 64
    let e := trAt .misalign 0x7E00000000000009
    guardOn f.g s.cg = true ∧ s.scratch (.stream .c) .w .wr ea.toNat w w = .error e) ∧
    (let s : State := sMem
    let p : Perm := .r
    let o : Nat := 0
    let n : Nat := 6
    p ≠ .x ∧ 0 < n ∧ o + n ≤ 2 ^ 30 ∧ numOf s.cur < 768) ∧
    (let ea : Nat := winVa
    winVa ≤ ea ∧ ea < winVaEnd) ∧
    (let s : State := sImm
    let pkg : Nat := 0
    let pa : Nat := apAddr 5 0
    let e := s.roleAt pkg pa
    e.role = .imm) ∧
    (let s : State := sMem
    let pkg : Nat := 0
    let pa : Nat := apAddr 5 (4096 * 32768)
    let e := s.roleAt pkg pa
    e.role = .acc) ∧
    (let s : State := sMem
    let pkg : Nat := 0
    let pa : Nat := apAddr 5 0
    let e := s.roleAt pkg pa
    e.role = .prv) ∧
    (let s : State := sStr
    let pkg : Nat := 0
    let pa : Nat := apAddr 5 0
    let e := s.roleAt pkg pa
    e.role = .str) :=
  by refine ⟨?_, ?_, ?_, ?_, ?_, ?_, ?_, ?_, ?_, ?_⟩ <;> exact byKernel (letI := @exceptDec; inferInstance) (by decide +kernel)

/-- The hypotheses of CGuardsAndWaits are met. -/
theorem witness_CGuardsAndWaits :
    (let r : CrF := { cr 3 4 5 with g := gN }
    let s : State := sC
    guardOn r.g s.cg = false) ∧
    (let i : CiF := { ciC with g := gN }
    let s : State := sC
    guardOn i.g s.cg = false) ∧
    (let b : CbF := { cbC with g := gN }
    let s : State := sC
    guardOn b.g s.cg = false) ∧
    (let k : CsF := { csC with g := gN }
    let s : State := sC
    guardOn k.g s.cg = false) ∧
    (let f : CrF := { cr 3 4 5 with qa := 1, qb := 1 }
    let s : State := sQ
    let ua : Bool := true
    let ub : Bool := true
    let op := Instr.add
    let qs := CrQ f ua ub
    guardOn f.g s.cg = true ∧ s.me.recast = none ∧ s.me.tlbInv = none ∧ s.me.put = none ∧ s.me.sent = none ∧ (op f = .tlbinv f → f.fn.getLsbD 3 = false) ∧ (∃ m ∈ qs, ∃ e, s.me.qHead m s.now = some e ∧ e.psn = true)) ∧
    (let f : CrF := { cr 4 0 5 with qa := 1 }
    let s : State := sQ
    let ua : Bool := true
    let ub : Bool := false
    let op := Instr.clz
    let qs := CrQ f ua ub
    let l := []
    let n := 4
    let r := []
    guardOn f.g s.cg = true ∧ s.me.recast = none ∧ s.me.tlbInv = none ∧ s.me.put = none ∧ s.me.sent = none ∧ (op f = .tlbinv f → f.fn.getLsbD 3 = false) ∧ (∀ m ∈ qs, ∀ e, s.me.qHead m s.now = some e → e.psn = false) ∧ (op f ∈ [Instr.snaprd f, .snapwr f] → s.me.inh = true ∧ s.me.v.ctl.started = true) ∧ (op f ∈ [Instr.ctxsave f, .ctxload f] → s.me.inh = true) ∧ qs = l ++ n :: r ∧ (∀ m ∈ l, s.me.qHead m s.now ≠ none) ∧ s.me.qHead n s.now = none) ∧
    (let f : CrF := { cr 5 4 5 with qa := 1, qb := 1 }
    let s : State := sQ
    let ua : Bool := true
    let ub : Bool := true
    let op := Instr.add
    let qs := CrQ f ua ub
    let l := [5]
    let n := 4
    let r := []
    guardOn f.g s.cg = true ∧ s.me.recast = none ∧ s.me.tlbInv = none ∧ s.me.put = none ∧ s.me.sent = none ∧ (op f = .tlbinv f → f.fn.getLsbD 3 = false) ∧ (∀ m ∈ qs, ∀ e, s.me.qHead m s.now = some e → e.psn = false) ∧ (op f ∈ [Instr.snaprd f, .snapwr f] → s.me.inh = true ∧ s.me.v.ctl.started = true) ∧ (op f ∈ [Instr.ctxsave f, .ctxload f] → s.me.inh = true) ∧ qs = l ++ n :: r ∧ (∀ m ∈ l, s.me.qHead m s.now ≠ none) ∧ s.me.qHead n s.now = none) ∧
    (let f : CrF := { cr 3 0 5 with qd := 1 }
    let s : State := sQ
    let d : Nat := 5
    guardOn f.g s.cg = true ∧ d ∈ qName f.qd f.rd ∧ s.me.qFree d s.now = false ∧ s.cSources (CrQ f true true) = .ok ()) ∧
    (let f : CrF := { cr 3 0 5 with qd := 1 }
    let s : State := sQ
    let d : Nat := 5
    guardOn f.g s.cg = true ∧ d ∈ qName f.qd f.rd ∧ s.me.qFree d s.now = false ∧ s.cSources (CrQ f true false) = .ok ()) ∧
    (let f : CrF := { cr 0 0 5 with qd := 1 }
    let s : State := sQ
    let d : Nat := 5
    guardOn f.g s.cg = true ∧ d ∈ qName f.qd f.rd ∧ s.me.qFree d s.now = false ∧ s.cSources (CrQ f true false) = .ok () ∧ (s.cSrc f.qa f.ra).toNat % 48 = 0) ∧
    (let f : CrF := { cr 0 0 5 with qd := 1 }
    let s : State := sQ
    let d : Nat := 5
    guardOn f.g s.cg = true ∧ d ∈ qName f.qd f.rd ∧ s.me.qFree d s.now = false ∧ s.cSources (CrQ f true false) = .ok () ∧ (s.cSrc f.qa f.ra).toNat ≤ (s.me.recvAt (fxW f)).cnt) ∧
    (let f : CrF := { cr 0 0 5 with qd := 1 }
    let s : State := sQ
    let d : Nat := 5
    guardOn f.g s.cg = true ∧ d ∈ qName f.qd f.rd ∧ s.me.qFree d s.now = false) :=
  by refine ⟨?_, ?_, ?_, ?_, ?_, ?_, ?_, ?_, ?_, ?_, ?_, ?_⟩ <;> exact byKernel (letI := @exceptDec; inferInstance) (by decide +kernel)

/-- The hypotheses of CSystemWords are met. -/
theorem witness_CSystemWords :
    (let f : CsF := csC
    let s : State := sC
    let g : Option (BitVec 4) := if f.sys.getLsbD 4 then none else some (f.sys.extractLsb' 0 4)
    guardOn f.g s.cg = true) ∧
    (let f : CsF := { csC with sub := 0 }
    let s : State := sC
    let g : Option (BitVec 4) := if f.sys.getLsbD 4 then none else some (f.sys.extractLsb' 0 4)
    guardOn f.g s.cg = true ∧ f.sub = 0) ∧
    (let f : CsF := csC
    let s : State := sC
    let x := s.ctl .c
    let g : Option (BitVec 4) := if f.sys.getLsbD 4 then none else some (f.sys.extractLsb' 0 4)
    guardOn f.g s.cg = true ∧ f.sub ≠ 0 ∧ x.rdv = none) ∧
    (let f : CsF := csC
    let s : State := sC
    let i := (f.sub.extractLsb' 0 4).toNat
    let g : Option (BitVec 4) := if f.sys.getLsbD 4 then none else some (f.sys.extractLsb' 0 4)
    guardOn f.g s.cg = true ∧ s.me.semStage i s.now ≤ 2) ∧
    (let f : CsF := csC
    let s : State := { sC with cores := [(5, { core0 with semAct := [(3, 11, 5)] })] }
    let i := (f.sub.extractLsb' 0 4).toNat
    let g : Option (BitVec 4) := if f.sys.getLsbD 4 then none else some (f.sys.extractLsb' 0 4)
    guardOn f.g s.cg = true ∧ 2 < s.me.semStage i s.now) ∧
    (let f : CsF := csC
    let s : State := sC
    let i := (f.sub.extractLsb' 0 4).toNat
    let n := (f.sys.extractLsb' 0 16).toNat
    let g : Option (BitVec 4) := if f.sys.getLsbD 4 then none else some (f.sys.extractLsb' 0 4)
    guardOn f.g s.cg = true ∧ n ≤ s.me.semAt i ∧ s.me.semStage i s.now ≤ 3) ∧
    (let f : CsF := csC
    let s : State := st core0
    let i := (f.sub.extractLsb' 0 4).toNat
    let n := (f.sys.extractLsb' 0 16).toNat
    let g : Option (BitVec 4) := if f.sys.getLsbD 4 then none else some (f.sys.extractLsb' 0 4)
    guardOn f.g s.cg = true ∧ (s.me.semAt i < n ∨ 3 < s.me.semStage i s.now)) ∧
    (let f : CsF := csC
    let s : State := sC
    let g : Option (BitVec 4) := if f.sys.getLsbD 4 then none else some (f.sys.extractLsb' 0 4)
    let k : Nat := 1
    guardOn f.g s.cg = true ∧ k < 65536) ∧
    (let f : CsF := csC
    let s : State := sC
    let i := (f.sub.extractLsb' 0 4).toNat
    let g : Option (BitVec 4) := if f.sys.getLsbD 4 then none else some (f.sys.extractLsb' 0 4)
    let j : Nat := 3
    let k : Nat := 1
    let i := 4
    guardOn f.g s.cg = true ∧ k < 65536 ∧ i ≠ j) :=
  by refine ⟨?_, ?_, ?_, ?_, ?_, ?_, ?_, ?_, ?_⟩ <;> exact byKernel (letI := @exceptDec; inferInstance) (by decide +kernel)

/-- The hypotheses of CRegisterFrame are met and the word answers a next state. -/
theorem witness_CRegisterFrame_runs :
    (let f : CrF := crQ
    let s : State := sC
    let op := Instr.add
    guardOn f.g s.cg = true ∧ s.cReady (CrQ f true true) (qName f.qd f.rd) = .ok () ∧ ∃ t, exec (op f) s = .next t) ∧
    (let f : CrF := crQ
    let s : State := sC
    let op := Instr.alnup
    guardOn f.g s.cg = true ∧ s.cReady (CrQ f true false) (qName f.qd f.rd) = .ok () ∧ ∃ t, exec (op f) s = .next t) :=
  ⟨⟨byKernel (letI := @exceptDec; inferInstance) (by decide +kernel), byKernel (letI := @exceptDec; inferInstance) (by decide +kernel), ⟨_, rfl⟩⟩,
   ⟨byKernel (letI := @exceptDec; inferInstance) (by decide +kernel), byKernel (letI := @exceptDec; inferInstance) (by decide +kernel), ⟨_, rfl⟩⟩⟩

/-- The hypotheses of CImmediateFrame are met and the word answers a next state. -/
theorem witness_CImmediateFrame_runs :
    (let f : CiF := ciC
    let s : State := sC
    let op := Instr.bins
    ∃ t, exec (op f) s = .next t) ∧
    (let f : CbF := cbC
    let s : State := sC
    let op := Instr.bdec
    ∃ t, exec (op f) s = .next t) :=
  ⟨⟨_, rfl⟩,
   ⟨_, rfl⟩⟩

/-! The A stream. -/

def arA : ArF := { pk := 0, aq := 0, gen := 0, ad := 5, aa := 3, ab := 4, ac := 6, w := 0x000003 }
def arQ : ArF := { arA with aa := 24, ab := 25, ad := 26 }
def aiA : AiF := { pk := 0, aq := 0, gen := 0, ad := 5, aa := 3, rsv := 0, imm := 0xFFFFFFFE }
def cA : Core := { coreM with a := { a := [(3, 7), (4, -9), (5, 1)] }, q := [(2, qe 5), (3, qe (-3)), (7, qe 1)] }
def ck1 : Ckpt := { a := [(3, 1)], g := [], addr := 64, gen := 1, xflags := 3 }
def sA : State := st cA
def sPath : State := st { cA with a := { cA.a with ckpts := [ck1], gen := 1 } }
def sDeep : State := st { cA with a := { cA.a with ckpts := [ck1, { ck1 with gen := 2 }], gen := 2 } }
def aW (wc b27 d : Nat) : BitVec 32 := BitVec.ofNat 32 (wc * 2 ^ 28 + b27 * 2 ^ 27 + d)
def cMem : Core := { coreM with
  a := { a := [(3, 0x7E00000000000000), (4, 0x40000000), (5, 0x7C00000040000000), (6, 0x7E00000008000000), (7, 0x7C00000080000000),
               (8, 0x1234), (9, 0x7E00000020000000), (10, 3), (11, 256), (12, 0x7E00000000001000)] }
  full := [(0, true)], q := [(2, qe 5), (3, qe 7)] }
def mem0 : List Host.Cell := [(0x80000 / 8, 0xC3), (2 ^ 57 + 5 * 2 ^ 27, 0x81), (2 ^ 57 + 5 * 2 ^ 27 + 1, 0xFF)]
def sO : State := st cMem mem0
def sOp : State := stPsn cMem mem0
def fLd : AiF := { aiA with imm := aW 5 1 0 }
def fLdv : AiF := { aiA with ad := 28, imm := 0 }
def vvA : VVal := { bits := 0x0102030405060708090A0B0C0D0E0F10, tag := 5 }
def w3 : WEntry := { val := { vvA with tag := 3 } }
def w0 : WEntry := { val := { vvA with tag := 0 } }
def sW (e : WEntry) : State := st { cMem with wq := [(2, { ents := [e] })] } mem0
def sWfull (e : WEntry) : State :=
  st { cMem with fab := { win := [(2, { winA with out := 63 })] }, wq := [(2, { ents := [e] })] } mem0
def sW1 (e : WEntry) : State :=
  st { cMem with fab := { win := [(2, { winA with lw := 1 })] }, wq := [(2, { ents := [e] })] } mem0
def mHalf : Msg := sO.newMsg 5 .write 0 6 [] (.stream .a) 1 2 0
def sHalf : State := st { cMem with a := { cMem.a with half := some (0, mHalf) }, wq := [(2, { ents := [w3] })] } mem0
def sGw (g : Tbl W64) (e : WEntry) : State := st { cMem with a := { a := g }, wq := [(2, { ents := [e] })] } mem0
def fStv : AiF := { aiA with ad := 27, imm := 0 }
def tgt (s : State) (p : Perm) (f : AiF) (n : Nat) : Target := (okOf (s.target s.cur (.stream .a) p true (s.aEa f) n)).1
def sNp : State := st { cMem with tlb := [{ pg0 with r := false, w := false, add := false }] } mem0
def sNt : State := st { cMem with tlb := [] } mem0
def sWf : State := st { cMem with tlb := [], a := { cMem.a with ctl := { walkFault := some (0x40000000, 3) } } } mem0
def sMis : State := st { cMem with a := { a := [(3, 0x7E00000000000007)] } } mem0
def sAcc : State := st { cMem with roleDef := acc0 } mem0
def ps16 (b : Nat) : Pieces := (List.range 16).map fun i => (b + 128 * i, 128)
def acp : ArF := { arA with ad := 3, aa := 12, ab := 10, ac := 11, w := 0x000005 }
def kCp : Copy := { id := 0, kind := .cp, word := 0, dst := 0x7E00000000000000, src := 0x7E00000000001000, n := 3, w := 8 }
def sCopy (x : Copy) : State :=
  { st { cMem with a := { cMem.a with copies := [x] } } mem0 with ev := { id := 4, el := 1 } }
def sCopyAt (e : Nat) (x : Copy) : State := { sCopy x with dir := [(31, own0)], ev := { id := 4, el := e } }
def xDone : Copy := { kCp with id := 4, started := true, done := [(0, true), (1, true), (2, true)] }
def xBad : Copy := { xDone with done := [(0, true)], dst := 0x7E00000008000000 }
def xReg : Copy :=
  { xBad with dst := 0x7E00000020000000, src := 0x4007FFF8, n := 256, done := [], walkFault := some (0x40080000, 3) }
def ld7 (d : LoadDst) (p : Bool) (b : Option Trap) : Load :=
  { id := 7, dst := d, ea := 0x100, word := 64, w := 8, sx := true, zf := true, tag := 5, ret := some (0x81, 0x80, p), bad := b }
def sLoad (l : Load) : State :=
  { st { cMem with a := { cMem.a with loads := [l], ctl := { started := true, pc := 64 } }, q := [(1, { ents := [{ val := 0, load := some 7 }] })],
                   wq := [(0, { ents := [{ val := {}, load := some 7 }] })] } with ev := { id := 7 } }

/-- The hypotheses of ARegisterForms are met. -/
theorem witness_ARegisterForms :
    (let f : ArF := arA
    let s : State := sA
    let x := aSrcQ f.aa.toNat
    let y := aSrcQ f.ab.toNat
    let qs := if x = y then x else x ++ y
    s.aReady qs (aDstQ f.ad.toNat) = .ok ()) ∧
    (let f : ArF := arQ
    let s : State := sA
    let x := aSrcQ f.aa.toNat
    let y := aSrcQ f.ab.toNat
    let qs := if x = y then x else x ++ y
    s.aReady qs (aDstQ f.ad.toNat) = .ok ()) ∧
    (let f : ArF := arQ
    let s : State := sA
    s.aReady (aSrcQ f.aa.toNat) (aDstQ f.ad.toNat) = .ok ()) ∧
    (let f : AiF := aiA
    let s : State := sA
    s.aReady (aSrcQ f.aa.toNat) (aDstQ f.ad.toNat) = .ok ()) ∧
    (let f : AiF := { aiA with ad := 26, aa := 25 }
    let s : State := sPath
    s.aReady (aSrcQ f.aa.toNat) (aDstQ f.ad.toNat) = .ok ()) ∧
    (let f : AiF := aiA
    let s : State := sA
    s.aReady [] (aDstQ f.ad.toNat) = .ok ()) :=
  by refine ⟨?_, ?_, ?_, ?_, ?_, ?_⟩ <;> exact byKernel (letI := @exceptDec; inferInstance) (by decide +kernel)

/-- The hypotheses of AControl are met. -/
theorem witness_AControl :
    (let f : AiF := aiA
    f.cond = 0) ∧
    (let f : AiF := { aiA with aq := 1 }
    f.cond = 1) ∧
    (let f : AiF := { aiA with aq := 2 }
    f.cond = 2) ∧
    (let r : ArF := arQ
    let s : State := sA
    s.me.a.ckpts = [] ∧ s.aReady (aSrcQ r.aa.toNat) (aDstQ r.ad.toNat) = .ok ()) ∧
    (let s : State := sA
    s.me.a.ckpts = []) ∧
    (let f : AiF := { aiA with imm := 0 }
    let s : State := sA
    s.me.a.ckpts = [] ∧ f.imm.extractLsb' 0 5 = 0) ∧
    (let f : AiF := aiA
    let s : State := sA
    let x := s.ctl .a
    s.me.a.ckpts = [] ∧ f.imm.extractLsb' 0 5 ≠ 0 ∧ x.rdv = none) ∧
    (let s : State := sPath
    s.me.a.ckpts ≠ []) ∧
    (let f : AiF := { pk := 0, aq := 0, gen := 3, ad := 0, aa := 0, rsv := 0, imm := 0 }
    (Instr.agen f).WellFormed) :=
  by refine ⟨?_, ?_, ?_, ?_, ?_, ?_, ?_, ?_, ?_⟩ <;> exact byKernel (letI := @exceptDec; inferInstance) (by decide +kernel)

/-- The hypotheses of ARunAhead are met. -/
theorem witness_ARunAhead :
    (let s : State := sA
    let c := s.me
    let e := { val := 1 }
    c.a.ckpts = [] ∧ c.qHead 7 s.now = some e ∧ e.psn = false) ∧
    (let s : State := st { cA with a := { cA.a with radepth := 0 } }
    let c := s.me
    let e := { val := 1 }
    c.a.ckpts = [] ∧ c.qHead 7 s.now = some e ∧ e.psn = false ∧ c.a.radepth = 0) ∧
    (let s : State := sA
    let c := s.me
    c.a.ckpts.length < c.a.radepth) ∧
    (let s : State := sPath
    let c := s.me
    c.a.ckpts.length < c.a.radepth) ∧
    (let s : State := sDeep
    let c := s.me
    c.a.ckpts ≠ [] ∧ c.a.radepth ≤ c.a.ckpts.length) ∧
    (let s : State := sPath
    let k : Ckpt := ck1
    let ks : List Ckpt := []
    let e : QEntry := { val := 1 }
    s.me.a.ckpts = k :: ks ∧ s.me.qHead 7 s.now = some e ∧ s.me.running s.now = true) :=
  by refine ⟨?_, ?_, ?_, ?_, ?_, ?_⟩ <;> exact byKernel (letI := @exceptDec; inferInstance) (by decide +kernel)

/-- The hypotheses of ALoads are met. -/
theorem witness_ALoads :
    (let f : AiF := { fLd with ad := 24 }
    let s : State := sOp
    let sw : Bool := false
    let w := widthOf f.wc
    let ea := s.aEa f
    let dq := aDstQ f.ad.toNat
    let o := 0
    let ps := [(apAddr 5 0, 8)]
    let t : Target := tgt s .r f 8
    let r := s.viewed t.local
    let p := r.psnPieces s.myPkg t.local
    (s.me.a.ckpts = [] ∨ f.clr = false) ∧ s.me.regLoad s.me.a.ctl.pc = false ∧ s.target s.cur (.stream .a) .r true ea w = .ok (t, sw) ∧ feScope t (f.wait || f.clr) ea = .ok () ∧ elemPlace t sw ea w = .ok () ∧ r.rolePieces s.cur s.job s.myPkg t.local .rd = true ∧ (∀ n ∈ dq, s.me.qFree n s.now = true) ∧ t = .own o ps ∧ s.me.footHits ps false = false ∧ (f.wait = true → s.allFull s.cur ps = true) ∧ p = true ∧ (f.zf = true ∨ dq ≠ [])) ∧
    (let f : AiF := fLd
    let s : State := sO
    let sw : Bool := false
    let w := widthOf f.wc
    let ea := s.aEa f
    let dq := aDstQ f.ad.toNat
    let o := 0
    let ps := [(apAddr 5 0, 8)]
    let t : Target := tgt s .r f 8
    let r := s.viewed t.local
    let p := r.psnPieces s.myPkg t.local
    (s.me.a.ckpts = [] ∨ f.clr = false) ∧ s.me.regLoad s.me.a.ctl.pc = false ∧ s.target s.cur (.stream .a) .r true ea w = .ok (t, sw) ∧ feScope t (f.wait || f.clr) ea = .ok () ∧ elemPlace t sw ea w = .ok () ∧ r.rolePieces s.cur s.job s.myPkg t.local .rd = true ∧ (∀ n ∈ dq, s.me.qFree n s.now = true) ∧ t = .own o ps ∧ s.me.footHits ps false = false ∧ (f.wait = true → s.allFull s.cur ps = true) ∧ p = false) ∧
    (let f : AiF := fLd
    let s : State := sOp
    let sw : Bool := false
    let w := widthOf f.wc
    let ea := s.aEa f
    let dq := aDstQ f.ad.toNat
    let o := 0
    let ps := [(apAddr 5 0, 8)]
    let t : Target := tgt s .r f 8
    let r := s.viewed t.local
    let p := r.psnPieces s.myPkg t.local
    (s.me.a.ckpts = [] ∨ f.clr = false) ∧ s.me.regLoad s.me.a.ctl.pc = false ∧ s.target s.cur (.stream .a) .r true ea w = .ok (t, sw) ∧ feScope t (f.wait || f.clr) ea = .ok () ∧ elemPlace t sw ea w = .ok () ∧ r.rolePieces s.cur s.job s.myPkg t.local .rd = true ∧ (∀ n ∈ dq, s.me.qFree n s.now = true) ∧ t = .own o ps ∧ s.me.footHits ps false = false ∧ (f.wait = true → s.allFull s.cur ps = true) ∧ p = true ∧ f.zf = false ∧ dq = [] ∧ s.me.a.ckpts = []) ∧
    (let f : AiF := { fLd with aa := 4, ad := 25 }
    let s : State := sOp
    let sw : Bool := false
    let w := widthOf f.wc
    let ea := s.aEa f
    let dq := aDstQ f.ad.toNat
    let ps := [(0x80000, 8)]
    let t : Target := tgt s .r f 8
    let r := s.viewed t.local
    let p := r.psnPieces s.myPkg t.local
    (s.me.a.ckpts = [] ∨ f.clr = false) ∧ s.me.regLoad s.me.a.ctl.pc = false ∧ s.target s.cur (.stream .a) .r true ea w = .ok (t, sw) ∧ feScope t (f.wait || f.clr) ea = .ok () ∧ elemPlace t sw ea w = .ok () ∧ r.rolePieces s.cur s.job s.myPkg t.local .rd = true ∧ (∀ n ∈ dq, s.me.qFree n s.now = true) ∧ t = .mem ps ∧ s.memClear ps false = .ok () ∧ p = true ∧ (f.zf = true ∨ dq ≠ [])) ∧
    (let f : AiF := { fLd with aa := 4 }
    let s : State := sO
    let sw : Bool := false
    let w := widthOf f.wc
    let ea := s.aEa f
    let dq := aDstQ f.ad.toNat
    let ps := [(0x80000, 8)]
    let t : Target := tgt s .r f 8
    let r := s.viewed t.local
    let p := r.psnPieces s.myPkg t.local
    (s.me.a.ckpts = [] ∨ f.clr = false) ∧ s.me.regLoad s.me.a.ctl.pc = false ∧ s.target s.cur (.stream .a) .r true ea w = .ok (t, sw) ∧ feScope t (f.wait || f.clr) ea = .ok () ∧ elemPlace t sw ea w = .ok () ∧ r.rolePieces s.cur s.job s.myPkg t.local .rd = true ∧ (∀ n ∈ dq, s.me.qFree n s.now = true) ∧ t = .mem ps ∧ s.memClear ps false = .ok () ∧ p = false) ∧
    (let f : AiF := { fLd with aa := 4 }
    let s : State := sOp
    let sw : Bool := false
    let w := widthOf f.wc
    let ea := s.aEa f
    let dq := aDstQ f.ad.toNat
    let ps := [(0x80000, 8)]
    let t : Target := tgt s .r f 8
    let r := s.viewed t.local
    let p := r.psnPieces s.myPkg t.local
    (s.me.a.ckpts = [] ∨ f.clr = false) ∧ s.me.regLoad s.me.a.ctl.pc = false ∧ s.target s.cur (.stream .a) .r true ea w = .ok (t, sw) ∧ feScope t (f.wait || f.clr) ea = .ok () ∧ elemPlace t sw ea w = .ok () ∧ r.rolePieces s.cur s.job s.myPkg t.local .rd = true ∧ (∀ n ∈ dq, s.me.qFree n s.now = true) ∧ t = .mem ps ∧ s.memClear ps false = .ok () ∧ p = true ∧ f.zf = false ∧ dq = [] ∧ s.me.a.ckpts = []) ∧
    (let f : AiF := { fLd with aa := 5 }
    let s : State := sO
    let sw : Bool := false
    let w := widthOf f.wc
    let ea := s.aEa f
    let dq := aDstQ f.ad.toNat
    let win := 1
    let pkg := 0
    let n := 6
    let o := 0
    let rs := [(0, 8)]
    let u := okOf (s.readPeer win pkg n rs w ea f.ad.toNat (f.b27 == 1) f.zf 0)
    let t : Target := tgt s .r f 8
    let r := s.viewed t.local
    (s.me.a.ckpts = [] ∨ f.clr = false) ∧ s.me.regLoad s.me.a.ctl.pc = false ∧ s.target s.cur (.stream .a) .r true ea w = .ok (t, sw) ∧ feScope t (f.wait || f.clr) ea = .ok () ∧ elemPlace t sw ea w = .ok () ∧ r.rolePieces s.cur s.job s.myPkg t.local .rd = true ∧ (∀ n ∈ dq, s.me.qFree n s.now = true) ∧ t = .peer win pkg n o rs ∧ s.readPeer win pkg n rs w ea f.ad.toNat (f.b27 == 1) f.zf 0 = .ok u) ∧
    (let f : AiF := { fLd with aa := 4 }
    let s : State := sNp
    let w := widthOf f.wc
    let ea := s.aEa f
    let dest := s.target s.cur (.stream .a) .r true ea w
    let e := .trap { cause := .permFault, info := 0x40000000, sub := Perm.r.sub }
    s.me.regLoad s.me.a.ctl.pc = false ∧ dest = .error e) ∧
    (let f : AiF := { fLd with aa := 4, aq := 2 }
    let s : State := sO
    let w := widthOf f.wc
    let ea := s.aEa f
    let dest := s.target s.cur (.stream .a) .r true ea w
    let t := tgt s .r f 8
    let sw := false
    let e := trAt .ldstScope 0x40000000
    s.me.regLoad s.me.a.ctl.pc = false ∧ dest = .ok (t, sw) ∧ feScope t (f.wait || f.clr) ea = .error e) ∧
    (let f : AiF := fLd
    let s : State := sMis
    let w := widthOf f.wc
    let ea := s.aEa f
    let dest := s.target s.cur (.stream .a) .r true ea w
    let t := tgt s .r f 8
    let sw := false
    let e := trAt .misalign 0x7E00000000000007
    s.me.regLoad s.me.a.ctl.pc = false ∧ dest = .ok (t, sw) ∧ feScope t (f.wait || f.clr) ea = .ok () ∧ elemPlace t sw ea w = .error e) ∧
    (let f : AiF := fLd
    let s : State := sAcc
    let w := widthOf f.wc
    let ea := s.aEa f
    let dest := s.target s.cur (.stream .a) .r true ea w
    let t := tgt s .r f 8
    let sw := false
    s.me.regLoad s.me.a.ctl.pc = false ∧ dest = .ok (t, sw) ∧ feScope t (f.wait || f.clr) ea = .ok () ∧ elemPlace t sw ea w = .ok () ∧ (s.viewed t.local).rolePieces s.cur s.job s.myPkg t.local .rd = false) ∧
    (let s : State := sO
    let p : Perm := .r
    let n : Nat := 8
    let x := s.job.rcd.ctx
    let o := 8
    let ea : Nat := selfVa + o
    p ≠ .x ∧ 0 < n ∧ numOf s.cur < 768 ∧ ea = selfVa + o ∧ o + n ≤ 2 ^ 30) :=
  by refine ⟨?_, ?_, ?_, ?_, ?_, ?_, ?_, ?_, ?_, ?_, ?_, ?_⟩ <;> exact byKernel (letI := @exceptDec; inferInstance) (by decide +kernel)
/-- The hypotheses of ALoads are met. -/
theorem witness_ALoads_2 :
    (let s : State := sO
    let p : Perm := .r
    let ea : Nat := 0x7C00000040000008
    let n : Nat := 8
    let x := s.job.rcd.ctx
    let k := 1
    let o := 8
    p ≠ .x ∧ 0 < n ∧ numOf s.cur < 768 ∧ ea = winVa + 2 ^ 30 * k + o ∧ o < 2 ^ 30 ∧ ea < winVaEnd) ∧
    (let s : State := sNp
    let cl : Waiter := .stream .a
    let p : Perm := .r
    let ea : Nat := 0x40000000
    let n : Nat := 8
    let x := s.job.rcd.ctx
    let e := { pg0 with r := false, w := false, add := false }
    p ≠ .x ∧ 0 < n ∧ numOf s.cur < 768 ∧ (¬(winVa ≤ ea ∧ ea < winVaEnd)) ∧ (¬(selfVa ≤ ea ∧ ea < selfVa + 2 ^ 30)) ∧ (¬(absVa ≤ ea ∧ ea < absVa + 768 * 2 ^ 30)) ∧ s.me.job ≠ none ∧ (s.me.tlbFor cl).find? (·.covers x ea) = some e ∧ e.allows p = false) ∧
    (let s : State := sO
    let cl : Waiter := .stream .a
    let p : Perm := .r
    let ea : Nat := 0x40000000
    let n : Nat := 8
    let x := s.job.rcd.ctx
    let e := pg0
    let d := 0
    let o := 0x80000
    p ≠ .x ∧ 0 < n ∧ numOf s.cur < 768 ∧ (¬(winVa ≤ ea ∧ ea < winVaEnd)) ∧ (¬(selfVa ≤ ea ∧ ea < selfVa + 2 ^ 30)) ∧ (¬(absVa ≤ ea ∧ ea < absVa + 768 * 2 ^ 30)) ∧ s.me.job ≠ none ∧ (s.me.tlbFor cl).find? (·.covers x ea) = some e ∧ e.allows p = true ∧ ea % 128 + n ≤ 128 ∧ place (e.pa + swizzle e.swz (ea - e.va)) = .dram d o) ∧
    (let s : State := sNt
    let cl : Waiter := .stream .a
    let p : Perm := .r
    let ea : Nat := 0x40000000
    let n : Nat := 8
    let x := s.job.rcd.ctx
    p ≠ .x ∧ 0 < n ∧ numOf s.cur < 768 ∧ (¬(winVa ≤ ea ∧ ea < winVaEnd)) ∧ (¬(selfVa ≤ ea ∧ ea < selfVa + 2 ^ 30)) ∧ (¬(absVa ≤ ea ∧ ea < absVa + 768 * 2 ^ 30)) ∧ s.me.job ≠ none ∧ (s.me.tlbFor cl).find? (·.covers x ea) = none ∧ s.me.walkFaultOf cl = none) ∧
    (let s : State := sWf
    let cl : Waiter := .stream .a
    let p : Perm := .r
    let ea : Nat := 0x40000000
    let n : Nat := 8
    let x := s.job.rcd.ctx
    let va := 0x40000000
    let sub := 3
    p ≠ .x ∧ 0 < n ∧ numOf s.cur < 768 ∧ (¬(winVa ≤ ea ∧ ea < winVaEnd)) ∧ (¬(selfVa ≤ ea ∧ ea < selfVa + 2 ^ 30)) ∧ (¬(absVa ≤ ea ∧ ea < absVa + 768 * 2 ^ 30)) ∧ s.me.job ≠ none ∧ (s.me.tlbFor cl).find? (·.covers x ea) = none ∧ s.me.walkFaultOf cl = some (va, sub) ∧ va.toNat / 2 ^ 19 = ea / 2 ^ 19) ∧
    (let t : Target := .own 0 [(apAddr 5 0, 8)]
    let o := 0
    let ps := [(apAddr 5 0, 8)]
    t = .own o ps) ∧
    (let t : Target := .mem [(0, 8)]
    let ps := [(0, 8)]
    t = .mem ps) ∧
    (let t : Target := .peer 1 0 6 0 [(0, 8)]
    let win := 1
    let pkg := 0
    let n := 6
    let o := 0
    let rs := [(0, 8)]
    t = .peer win pkg n o rs) :=
  by refine ⟨?_, ?_, ?_, ?_, ?_, ?_, ?_, ?_⟩ <;> exact byKernel (letI := @exceptDec; inferInstance) (by decide +kernel)

/-- The hypotheses of AVectorLoads are met. -/
theorem witness_AVectorLoads :
    (let f : AiF := fLdv
    let s : State := sO
    let sw : Bool := false
    let ea := s.aEa f
    let q := f.ad.toNat - 27
    let o := 0
    let ps := ps16 (apAddr 5 0)
    let t : Target := tgt s .r f 2048
    let r := s.viewed t.local
    (s.me.a.ckpts = [] ∨ f.clr = false) ∧ s.target s.cur (.stream .a) .r true ea 2048 = .ok (t, sw) ∧ feScope t (f.wait || f.clr) ea = .ok () ∧ widePlace t false ea = .ok () ∧ r.rolePieces s.cur s.job s.myPkg t.local .rd = true ∧ s.me.wqFree q s.now = true ∧ t = .own o ps ∧ s.me.footHits ps false = false ∧ (f.wait = true → s.allFull s.cur ps = true)) ∧
    (let f : AiF := { fLdv with aa := 4 }
    let s : State := sO
    let sw : Bool := false
    let ea := s.aEa f
    let q := f.ad.toNat - 27
    let ps := ps16 0x80000
    let t : Target := tgt s .r f 2048
    let r := s.viewed t.local
    (s.me.a.ckpts = [] ∨ f.clr = false) ∧ s.target s.cur (.stream .a) .r true ea 2048 = .ok (t, sw) ∧ feScope t (f.wait || f.clr) ea = .ok () ∧ widePlace t false ea = .ok () ∧ r.rolePieces s.cur s.job s.myPkg t.local .rd = true ∧ s.me.wqFree q s.now = true ∧ t = .mem ps ∧ s.memClear ps false = .ok ()) ∧
    (let f : AiF := { fLdv with aa := 5 }
    let s : State := sO
    let sw : Bool := false
    let ea := s.aEa f
    let q := f.ad.toNat - 27
    let win := 1
    let pkg := 0
    let n := 6
    let o := 0
    let rs := [(0, 2048)]
    let u := okOf (s.readPeer win pkg n rs 2048 ea f.ad.toNat false f.zf f.tag)
    let t : Target := tgt s .r f 2048
    let r := s.viewed t.local
    (s.me.a.ckpts = [] ∨ f.clr = false) ∧ s.target s.cur (.stream .a) .r true ea 2048 = .ok (t, sw) ∧ feScope t (f.wait || f.clr) ea = .ok () ∧ widePlace t false ea = .ok () ∧ r.rolePieces s.cur s.job s.myPkg t.local .rd = true ∧ s.me.wqFree q s.now = true ∧ t = .peer win pkg n o rs ∧ s.readPeer win pkg n rs 2048 ea f.ad.toNat false f.zf f.tag = .ok u) ∧
    (let f : AiF := { fLdv with aa := 4 }
    let s : State := sNt
    let ea := s.aEa f
    let dest := s.target s.cur (.stream .a) .r true ea 2048
    let e := .walk 0x40000000
    s.me.a.ckpts = [] ∧ dest = .error e) ∧
    (let f : AiF := { fLdv with aa := 4, aq := 2 }
    let s : State := sO
    let ea := s.aEa f
    let dest := s.target s.cur (.stream .a) .r true ea 2048
    let t := tgt s .r f 2048
    let sw := false
    let e := trAt .ldstScope 0x40000000
    s.me.a.ckpts = [] ∧ dest = .ok (t, sw) ∧ feScope t (f.wait || f.clr) ea = .error e) ∧
    (let f : AiF := fLdv
    let s : State := sMis
    let ea := s.aEa f
    let dest := s.target s.cur (.stream .a) .r true ea 2048
    let t := tgt s .r f 2048
    let sw := false
    let e := trAt .misalign 0x7E00000000000007
    s.me.a.ckpts = [] ∧ dest = .ok (t, sw) ∧ feScope t (f.wait || f.clr) ea = .ok () ∧ widePlace t false ea = .error e) ∧
    (let f : AiF := fLdv
    let s : State := sAcc
    let ea := s.aEa f
    let dest := s.target s.cur (.stream .a) .r true ea 2048
    let t := tgt s .r f 2048
    let sw := false
    s.me.a.ckpts = [] ∧ dest = .ok (t, sw) ∧ feScope t (f.wait || f.clr) ea = .ok () ∧ widePlace t false ea = .ok () ∧ (s.viewed t.local).rolePieces s.cur s.job s.myPkg t.local .rd = false) ∧
    (let t : Target := .own 0 (ps16 (apAddr 5 0))
    let o := 0
    let ps := ps16 (apAddr 5 0)
    t = .own o ps) ∧
    (let t : Target := .mem (ps16 0)
    let ps := ps16 0
    t = .mem ps) ∧
    (let t : Target := .peer 1 0 6 0 [(0, 2048)]
    let win := 1
    let pkg := 0
    let n := 6
    let o := 0
    let rs := [(0, 2048)]
    t = .peer win pkg n o rs) :=
  by refine ⟨?_, ?_, ?_, ?_, ?_, ?_, ?_, ?_, ?_, ?_⟩ <;> exact byKernel (letI := @exceptDec; inferInstance) (by decide +kernel)

/-- The hypotheses of AStores are met. -/
theorem witness_AStores :
    (let f : AiF := { fLd with ad := 8 }
    let s : State := sO
    let sw : Bool := false
    let w := widthOf f.wc
    let t : Target := tgt s .w f 8
    let ea := s.aEa f
    let qs := aSrcQ f.ad.toNat
    let o := 0
    let ps := [(apAddr 5 0, 8)]
    s.me.a.ckpts = [] ∧ s.aReady qs [] = .ok () ∧ f.add = false ∧ s.target s.cur (.stream .a) .w true ea w = .ok (t, sw) ∧ elemPlace t sw ea w = .ok () ∧ s.rolePieces s.cur s.job s.myPkg t.local .wr = true ∧ t = .own o ps ∧ s.me.footHits ps true = false) ∧
    (let f : AiF := { fLd with ad := 24, aa := 4 }
    let s : State := sO
    let sw : Bool := false
    let w := widthOf f.wc
    let t : Target := tgt s .w f 8
    let ea := s.aEa f
    let qs := aSrcQ f.ad.toNat
    let ps := [(0x80000, 8)]
    s.me.a.ckpts = [] ∧ s.aReady qs [] = .ok () ∧ f.add = false ∧ s.target s.cur (.stream .a) .w true ea w = .ok (t, sw) ∧ elemPlace t sw ea w = .ok () ∧ s.rolePieces s.cur s.job s.myPkg t.local .wr = true ∧ t = .mem ps ∧ s.memClear ps true = .ok ()) ∧
    (let f : AiF := { fLd with ad := 24, aa := 5, aq := 8 }
    let s : State := sO
    let sw : Bool := false
    let w := widthOf f.wc
    let t : Target := tgt s .w f 8
    let ea := s.aEa f
    let qs := aSrcQ f.ad.toNat
    let win := 1
    let pkg := 0
    let n := 6
    let o := 0
    let rs := [(0, 8)]
    s.me.a.ckpts = [] ∧ s.aReady qs [] = .ok () ∧ f.add = false ∧ s.target s.cur (.stream .a) .w true ea w = .ok (t, sw) ∧ elemPlace t sw ea w = .ok () ∧ s.rolePieces s.cur s.job s.myPkg t.local .wr = true ∧ t = .peer win pkg n o rs ∧ s.me.canSend win = true) ∧
    (let f : AiF := { fLd with ad := 8, aa := 6, aq := 16, imm := aW 5 0 0 }
    let s : State := sO
    let t : Target := tgt s .add f 40
    let sw : Bool := false
    let ea := s.aEa f
    let qs := aSrcQ f.ad.toNat
    let o := accBase
    let ps := [(apAddr 5 accBase, 40)]
    s.me.a.ckpts = [] ∧ s.aReady qs [] = .ok () ∧ f.add = true ∧ s.target s.cur (.stream .a) .add true ea 40 = .ok (t, sw) ∧ s.addTests t 1 ea = .ok () ∧ t = .own o ps ∧ s.me.footHit o (o + s.laneStep s.cur o) true = false) ∧
    (let f : AiF := { fLd with ad := 8, aa := 7, aq := 16, imm := aW 7 1 40 }
    let s : State := sO
    let t : Target := tgt s .add f 40
    let sw : Bool := false
    let ea := s.aEa f
    let qs := aSrcQ f.ad.toNat
    let win := 2
    let pkg := 0
    let n := 6
    let o := accBase + 40
    let rs := [(accBase + 40, 40)]
    s.me.a.ckpts = [] ∧ s.aReady qs [] = .ok () ∧ f.add = true ∧ s.target s.cur (.stream .a) .add true ea 40 = .ok (t, sw) ∧ s.addTests t 1 ea = .ok () ∧ t = .peer win pkg n o rs ∧ s.me.canSend win = true) ∧
    (let f : AiF := { fLd with aa := 4 }
    let s : State := sNt
    let w := widthOf f.wc
    let ea := s.aEa f
    let dest := s.target s.cur (.stream .a) .w true ea w
    let e := .walk 0x40000000
    s.me.a.ckpts = [] ∧ f.add = false ∧ dest = .error e) ∧
    (let f : AiF := { fLd with aa := 3 }
    let s : State := sMis
    let w := widthOf f.wc
    let ea := s.aEa f
    let dest := s.target s.cur (.stream .a) .w true ea w
    let t := tgt s .w f 8
    let sw := false
    let e := trAt .misalign 0x7E00000000000007
    s.me.a.ckpts = [] ∧ f.add = false ∧ dest = .ok (t, sw) ∧ elemPlace t sw ea w = .error e) ∧
    (let f : AiF := fLd
    let s : State := sAcc
    let w := widthOf f.wc
    let ea := s.aEa f
    let dest := s.target s.cur (.stream .a) .w true ea w
    let t := tgt s .w f 8
    let sw := false
    s.me.a.ckpts = [] ∧ f.add = false ∧ dest = .ok (t, sw) ∧ elemPlace t sw ea w = .ok () ∧ s.rolePieces s.cur s.job s.myPkg t.local .wr = false) ∧
    (let f : AiF := { fLd with aa := 4, aq := 16, imm := aW 5 0 0 }
    let s : State := sNt
    let ea := s.aEa f
    let ta := s.target s.cur (.stream .a) .add true ea 40
    let e := .walk 0x40000000
    s.me.a.ckpts = [] ∧ f.add = true ∧ ta = .error e) ∧
    (let f : AiF := { fLd with aa := 4, aq := 16, imm := aW 5 0 0 }
    let s : State := sO
    let ea := s.aEa f
    let ta := s.target s.cur (.stream .a) .add true ea 40
    let t := tgt s .add f 40
    let sw := false
    let e := trAt .roleFault 0x40000000
    s.me.a.ckpts = [] ∧ f.add = true ∧ ta = .ok (t, sw) ∧ s.addTests t 1 ea = .error e) :=
  by refine ⟨?_, ?_, ?_, ?_, ?_, ?_, ?_, ?_, ?_, ?_⟩ <;> exact byKernel (letI := @exceptDec; inferInstance) (by decide +kernel)

/-- The hypotheses of AVectorStores are met. -/
theorem witness_AVectorStores :
    (let f : AiF := { fStv with aa := 9 }
    let sw : Bool := false
    let e : WEntry := w0
    let s : State := sW e
    let t : Target := tgt s .w f 2048
    let ea := s.aEa f
    let q := f.ad.toNat - 25
    let o := regBase
    let ps := ps16 (apAddr 5 regBase)
    s.me.a.ckpts = [] ∧ s.me.a.half = none ∧ s.me.wqHead q s.now = some e ∧ f.add = false ∧ s.target s.cur (.stream .a) .w true ea 2048 = .ok (t, sw) ∧ widePlace t true ea = .ok () ∧ t = .own o ps ∧ s.me.footHits ps true = false ∧ inPart .regs o 2048 = true) ∧
    (let f : AiF := fStv
    let sw : Bool := false
    let e : WEntry := { val := vvA }
    let s : State := sW e
    let t : Target := tgt s .w f 2048
    let ea := s.aEa f
    let q := f.ad.toNat - 25
    let o := 0
    let ps := ps16 (apAddr 5 0)
    s.me.a.ckpts = [] ∧ s.me.a.half = none ∧ s.me.wqHead q s.now = some e ∧ f.add = false ∧ s.target s.cur (.stream .a) .w true ea 2048 = .ok (t, sw) ∧ widePlace t true ea = .ok () ∧ t = .own o ps ∧ s.me.footHits ps true = false ∧ inPart .regs o 2048 = false ∧ s.rolePieces s.cur s.job s.myPkg ps .wr = true) ∧
    (let f : AiF := { fStv with aa := 4 }
    let sw : Bool := false
    let e : WEntry := { val := vvA }
    let s : State := sW e
    let t : Target := tgt s .w f 2048
    let ea := s.aEa f
    let q := f.ad.toNat - 25
    let ps := ps16 0x80000
    s.me.a.ckpts = [] ∧ s.me.a.half = none ∧ s.me.wqHead q s.now = some e ∧ f.add = false ∧ s.target s.cur (.stream .a) .w true ea 2048 = .ok (t, sw) ∧ widePlace t true ea = .ok () ∧ t = .mem ps ∧ s.rolePieces s.cur s.job s.myPkg ps .wr = true ∧ s.memClear ps true = .ok ()) ∧
    (let f : AiF := { fStv with aa := 5 }
    let sw : Bool := false
    let e : WEntry := { val := vvA }
    let s : State := sW e
    let t : Target := tgt s .w f 2048
    let ea := s.aEa f
    let q := f.ad.toNat - 25
    let win := 1
    let pkg := 0
    let n := 6
    let o := 0
    let rs := [(0, 2048)]
    let pop (u : State) : State := if f.pk = 1 then u else u.setMe (u.me.wqPop q s.now)
    let u := okOf (s.sendWide win pkg n o rs e.val (BitVec.ofNat 64 ea) f.ord pop)
    s.me.a.ckpts = [] ∧ s.me.a.half = none ∧ s.me.wqHead q s.now = some e ∧ f.add = false ∧ s.target s.cur (.stream .a) .w true ea 2048 = .ok (t, sw) ∧ widePlace t true ea = .ok () ∧ t = .peer win pkg n o rs ∧ s.sendWide win pkg n o rs e.val (BitVec.ofNat 64 ea) f.ord pop = .ok u) ∧
    (let f : AiF := { fStv with aa := 6, aq := 16 }
    let sw : Bool := false
    let e : WEntry := { val := vvA }
    let s : State := sW e
    let t : Target := tgt s .add f 40
    let ea := s.aEa f
    let q := f.ad.toNat - 25
    let es := elemsOf e.val
    let tag := e.val.tag.toNat
    let o := accBase
    let ps := [(apAddr 5 accBase, 40)]
    s.me.a.ckpts = [] ∧ s.me.a.half = none ∧ s.me.wqHead q s.now = some e ∧ f.add = true ∧ e.val.tag ≠ 0 ∧ e.val.psn = false ∧ s.target s.cur (.stream .a) .add true ea 40 = .ok (t, sw) ∧ s.lanesInWindow ea es.length = .ok () ∧ s.addTests t es.length ea = .ok () ∧ t = .own o ps ∧ s.me.footHit o (o + s.laneStep s.cur o * es.length) true = false) ∧
    (let f : AiF := { fStv with aa := 7, aq := 16 }
    let sw : Bool := false
    let e : WEntry := w3
    let s : State := sW e
    let t : Target := tgt s .add f 40
    let ea := s.aEa f
    let q := f.ad.toNat - 25
    let es := elemsOf e.val
    let tag := e.val.tag.toNat
    let win := 2
    let pkg := 0
    let n := 6
    let o := accBase
    let rs := [(accBase, 40)]
    let k := 1664 / tagWidth tag
    let msg (l : List Nat) (skip : Nat) : Msg := let m := s.newMsg s.cur (if addFmt tag = 0 then .addInt else .addFloat) pkg n (l.zipIdx.map fun x => { at_ := o + 40 * (skip + x.2), w := tagWidth tag, val := x.1 }) (.stream .a) 1 win (BitVec.ofNat 64 (ea + 40 * skip)); { m with w := tagWidth tag, fmt := addFmt tag, pin := f.ord, skip := skip }
    let s2 := s.post s.cur (msg (es.take k) 0)
    s.me.a.ckpts = [] ∧ s.me.a.half = none ∧ s.me.wqHead q s.now = some e ∧ f.add = true ∧ e.val.tag ≠ 0 ∧ e.val.psn = false ∧ s.target s.cur (.stream .a) .add true ea 40 = .ok (t, sw) ∧ s.lanesInWindow ea es.length = .ok () ∧ s.addTests t es.length ea = .ok () ∧ t = .peer win pkg n o rs ∧ k < es.length ∧ s.me.canSend2 win false = true ∧ s2.me.canSend win = true) ∧
    (let f : AiF := { fStv with aa := 7, aq := 16 }
    let sw : Bool := false
    let e : WEntry := w3
    let s : State := sW1 e
    let t : Target := tgt s .add f 40
    let ea := s.aEa f
    let q := f.ad.toNat - 25
    let es := elemsOf e.val
    let tag := e.val.tag.toNat
    let win := 2
    let pkg := 0
    let n := 6
    let o := accBase
    let rs := [(accBase, 40)]
    let k := 1664 / tagWidth tag
    let msg (l : List Nat) (skip : Nat) : Msg := let m := s.newMsg s.cur (if addFmt tag = 0 then .addInt else .addFloat) pkg n (l.zipIdx.map fun x => { at_ := o + 40 * (skip + x.2), w := tagWidth tag, val := x.1 }) (.stream .a) 1 win (BitVec.ofNat 64 (ea + 40 * skip)); { m with w := tagWidth tag, fmt := addFmt tag, pin := f.ord, skip := skip }
    let s2 := s.post s.cur (msg (es.take k) 0)
    s.me.a.ckpts = [] ∧ s.me.a.half = none ∧ s.me.wqHead q s.now = some e ∧ f.add = true ∧ e.val.tag ≠ 0 ∧ e.val.psn = false ∧ s.target s.cur (.stream .a) .add true ea 40 = .ok (t, sw) ∧ s.lanesInWindow ea es.length = .ok () ∧ s.addTests t es.length ea = .ok () ∧ t = .peer win pkg n o rs ∧ k < es.length ∧ s.me.canSend2 win false = true ∧ s2.me.canSend win = false) ∧
    (let s : State := sHalf
    let m : Msg := mHalf
    s.me.a.ckpts = [] ∧ s.me.a.half = some (s.me.a.ctl.pc, m) ∧ s.me.canSend m.win = true) ∧
    (let f : AiF := { fStv with aa := 4 }
    let s : State := sNt
    let ea := s.aEa f
    let dest := s.target s.cur (.stream .a) .w true ea 2048
    let e := .walk 0x40000000
    s.me.a.ckpts = [] ∧ s.me.a.half = none ∧ f.add = false ∧ dest = .error e) ∧
    (let f : AiF := { fStv with aa := 8 }
    let s : State := sGw [(8, 0x7E00000000000007)] w3
    let ea := s.aEa f
    let dest := s.target s.cur (.stream .a) .w true ea 2048
    let t := tgt s .w f 2048
    let sw := false
    let e := trAt .misalign 0x7E00000000000007
    s.me.a.ckpts = [] ∧ s.me.a.half = none ∧ f.add = false ∧ dest = .ok (t, sw) ∧ widePlace t true ea = .error e) ∧
    (let f : AiF := fStv
    let s : State := sAcc
    let ea := s.aEa f
    let dest := s.target s.cur (.stream .a) .w true ea 2048
    let t := tgt s .w f 2048
    let sw := false
    let open_ := (match t with | .own o _ => inPart .regs o 2048 | _ => false) || s.rolePieces s.cur s.job s.myPkg t.local .wr
    s.me.a.ckpts = [] ∧ s.me.a.half = none ∧ f.add = false ∧ dest = .ok (t, sw) ∧ widePlace t true ea = .ok () ∧ open_ = false) ∧
    (let f : AiF := fStv
    let s : State := sO
    let ea := s.aEa f
    let q := f.ad.toNat - 25
    let x := s.me.wqHead q s.now
    let dest := s.target s.cur (.stream .a) .w true ea 2048
    let t := tgt s .w f 2048
    let sw := false
    let open_ := (match t with | .own o _ => inPart .regs o 2048 | _ => false) || s.rolePieces s.cur s.job s.myPkg t.local .wr
    s.me.a.ckpts = [] ∧ s.me.a.half = none ∧ f.add = false ∧ dest = .ok (t, sw) ∧ widePlace t true ea = .ok () ∧ open_ = true ∧ x = none) :=
  by refine ⟨?_, ?_, ?_, ?_, ?_, ?_, ?_, ?_, ?_, ?_, ?_, ?_⟩ <;> exact byKernel (letI := @exceptDec; inferInstance) (by decide +kernel)
/-- The hypotheses of AVectorStores are met. -/
theorem witness_AVectorStores_2 :
    (let f : AiF := { fStv with aa := 4, aq := 16 }
    let s : State := st { cMem with tlb := [{ pg0 with pa := cxlBase }], wq := [(2, { ents := [w3] })] }
    let ea := s.aEa f
    let ta := s.target s.cur (.stream .a) .add true ea 40
    let e := { cause := .atomicFault, info := 0x40000000 }
    s.me.a.ckpts = [] ∧ s.me.a.half = none ∧ f.add = true ∧ ta = .error (.trap e) ∧ e.cause = .atomicFault) ∧
    (let f : AiF := { fStv with aa := 6, aq := 16 }
    let s : State := sW w0
    let ea := s.aEa f
    let q := f.ad.toNat - 25
    let x := s.me.wqHead q s.now
    let ta := s.target s.cur (.stream .a) .add true ea 40
    let y := w0
    s.me.a.ckpts = [] ∧ s.me.a.half = none ∧ f.add = true ∧ atomicFirst ta = .ok () ∧ x = some y ∧ y.val.tag = 0) ∧
    (let f : AiF := { fStv with aa := 6, aq := 16 }
    let q := f.ad.toNat - 25
    let y := { val := { vvA with psn := true } }
    let s : State := sW y
    let ea := s.aEa f
    let x := s.me.wqHead q s.now
    let ta := s.target s.cur (.stream .a) .add true ea 40
    s.me.a.ckpts = [] ∧ s.me.a.half = none ∧ f.add = true ∧ atomicFirst ta = .ok () ∧ x = some y ∧ y.val.tag ≠ 0 ∧ y.val.psn = true) ∧
    (let f : AiF := { fStv with aa := 4, aq := 16 }
    let s : State := { sNp with cores := [(5, { sNp.me with wq := [(2, { ents := [w3] })] })] }
    let ea := s.aEa f
    let q := f.ad.toNat - 25
    let x := s.me.wqHead q s.now
    let ta := s.target s.cur (.stream .a) .add true ea 40
    let e := .trap { cause := .permFault, info := 0x40000000, sub := Perm.add.sub }
    s.me.a.ckpts = [] ∧ s.me.a.half = none ∧ f.add = true ∧ atomicFirst ta = .ok () ∧ (∀ y, x = some y → y.val.tag ≠ 0 ∧ y.val.psn = false) ∧ ta = .error e) ∧
    (let f : AiF := { fStv with aa := 8, aq := 16 }
    let s : State := sGw [(8, 0x7C0000008003E830)] w3
    let ea := s.aEa f
    let q := f.ad.toNat - 25
    let x := s.me.wqHead q s.now
    let ta := s.target s.cur (.stream .a) .add true ea 40
    let n := match x with | none => 1 | some y => (elemsOf y.val).length
    let t := tgt s .add f 40
    let sw := false
    let e := trAt .windowFault 0x7C0000008003E830
    s.me.a.ckpts = [] ∧ s.me.a.half = none ∧ f.add = true ∧ atomicFirst ta = .ok () ∧ (∀ y, x = some y → y.val.tag ≠ 0 ∧ y.val.psn = false) ∧ ta = .ok (t, sw) ∧ s.lanesInWindow ea n = .error e) ∧
    (let f : AiF := { fStv with aa := 3, aq := 16 }
    let s : State := sW w3
    let ea := s.aEa f
    let q := f.ad.toNat - 25
    let x := s.me.wqHead q s.now
    let ta := s.target s.cur (.stream .a) .add true ea 40
    let n := match x with | none => 1 | some y => (elemsOf y.val).length
    let t := tgt s .add f 40
    let sw := false
    let e := trAt .roleFault 0x7E00000000000000
    s.me.a.ckpts = [] ∧ s.me.a.half = none ∧ f.add = true ∧ atomicFirst ta = .ok () ∧ (∀ y, x = some y → y.val.tag ≠ 0 ∧ y.val.psn = false) ∧ ta = .ok (t, sw) ∧ s.lanesInWindow ea n = .ok () ∧ s.addTests t n ea = .error e) ∧
    (let f : AiF := { fStv with aa := 6, aq := 16 }
    let s : State := sO
    let ea := s.aEa f
    let q := f.ad.toNat - 25
    let x := s.me.wqHead q s.now
    let ta := s.target s.cur (.stream .a) .add true ea 40
    let n := match x with | none => 1 | some y => (elemsOf y.val).length
    let t := tgt s .add f 40
    let sw := false
    s.me.a.ckpts = [] ∧ s.me.a.half = none ∧ f.add = true ∧ atomicFirst ta = .ok () ∧ (∀ y, x = some y → y.val.tag ≠ 0 ∧ y.val.psn = false) ∧ ta = .ok (t, sw) ∧ s.lanesInWindow ea n = .ok () ∧ s.addTests t n ea = .ok () ∧ x = none) ∧
    (let k : Nat := 1
    let o : Nat := 8
    o < 2 ^ 30 ∧ k < 16) :=
  by refine ⟨?_, ?_, ?_, ?_, ?_, ?_, ?_, ?_⟩ <;> exact byKernel (letI := @exceptDec; inferInstance) (by decide +kernel)

/-- The hypotheses of AFullEmpty are met. -/
theorem witness_AFullEmpty :
    (let f : AiF := { fLd with aq := 2, imm := 0 }
    let s : State := sO
    let ps := [(apAddr 5 0, 128)]
    s.me.a.ckpts = [] ∧ s.feRange f .r = .ok ps ∧ s.allFull s.cur ps = true) ∧
    (let f : AiF := { fLd with aq := 2, imm := 128 }
    let s : State := sO
    let ps := [(apAddr 5 128, 128)]
    s.me.a.ckpts = [] ∧ s.feRange f .r = .ok ps ∧ s.allFull s.cur ps = false) ∧
    (let f : AiF := { fLd with aq := 2, imm := 128 }
    let s : State := sO
    let ps := [(apAddr 5 128, 128)]
    s.me.a.ckpts = [] ∧ s.feRange f .w = .ok ps) ∧
    (let f : AiF := { fLd with aq := 2, aa := 4, imm := 0 }
    let s : State := sO
    let e := trAt .ldstScope 0x40000000
    s.me.a.ckpts = [] ∧ s.feRange f .r = .error e) ∧
    (let f : AiF := { fLd with aq := 2, aa := 4, imm := 0 }
    let s : State := sO
    let e := trAt .ldstScope 0x40000000
    s.me.a.ckpts = [] ∧ s.feRange f .w = .error e) ∧
    (let f : AiF := { fLd with aq := 2, imm := 0 }
    let s : State := sO
    let ea := s.aEa f
    let n := 128 * f.n
    let p : Perm := .r
    let o : Nat := 0
    p ≠ .x ∧ numOf s.cur < 768 ∧ ea = selfVa + o ∧ o + n ≤ scratchBits ∧ 0 < n) :=
  by refine ⟨?_, ?_, ?_, ?_, ?_, ?_⟩ <;> exact byKernel (letI := @exceptDec; inferInstance) (by decide +kernel)

/-- The hypotheses of ACopyIssue are met. -/
theorem witness_ACopyIssue :
    (let f : ArF := { acp with ab := 3 }
    let s : State := sO
    let i : Instr := .cp f
    let n (r : BitVec 5) : Nat := (s.me.areg r.toNat).toNat
    let base (kind : CopyKind) : Copy := { id := 0, kind := kind, word := s.me.a.ctl.pc, dst := s.me.areg f.ad.toNat, src := s.me.areg f.aa.toNat, n := 0, w := widthOf f.wc, ix64 := f.ix == 1, fl := f.fl == 1, wait := f.wait, clr := f.clr, zf := f.zf, ord := f.ord, add := f.add, sen := f.sen == 1, sid := f.sid }
    let k : Copy := { base .cp with n := n f.ab }
    let qa := aSrcQ f.aa.toNat
    let qb := aSrcQ f.ab.toNat
    let row := f.n13.toNat + 1
    let x : Copy := { k with id := s.me.stamp }
    s.me.a.ckpts = [] ∧ (i = .cp f ∧ k = { base .cp with n := n f.ab } ∨ i = .cpz f ∧ k = { base .cpz with src := 0, imm := s.aSrc f.aa, n := n f.ab } ∧ s.aReady qa [] = .ok () ∨ i = .cpt f ∧ k = { base .cpt with n := n f.ab, m := row, pitch := s.me.areg f.ac.toNat } ∨ i = .cpg f ∧ k = { base .cpg with m := row, fromQ := !qb.isEmpty, idx := s.aSrc f.ab, n := if qb = [] then n f.ac else 1 } ∧ s.aReady qb [] = .ok () ∨ i = .cps f ∧ k = { base .cps with m := row, idx := s.me.areg f.ab.toNat, n := n f.ac }) ∧ s.copyRange x = false) ∧
    (let f : ArF := { acp with ab := 1 }
    let s : State := sO
    let i : Instr := .cp f
    let n (r : BitVec 5) : Nat := (s.me.areg r.toNat).toNat
    let base (kind : CopyKind) : Copy := { id := 0, kind := kind, word := s.me.a.ctl.pc, dst := s.me.areg f.ad.toNat, src := s.me.areg f.aa.toNat, n := 0, w := widthOf f.wc, ix64 := f.ix == 1, fl := f.fl == 1, wait := f.wait, clr := f.clr, zf := f.zf, ord := f.ord, add := f.add, sen := f.sen == 1, sid := f.sid }
    let k : Copy := { base .cp with n := n f.ab }
    let qa := aSrcQ f.aa.toNat
    let qb := aSrcQ f.ab.toNat
    let row := f.n13.toNat + 1
    let x : Copy := { k with id := s.me.stamp }
    s.me.a.ckpts = [] ∧ (i = .cp f ∧ k = { base .cp with n := n f.ab } ∨ i = .cpz f ∧ k = { base .cpz with src := 0, imm := s.aSrc f.aa, n := n f.ab } ∧ s.aReady qa [] = .ok () ∨ i = .cpt f ∧ k = { base .cpt with n := n f.ab, m := row, pitch := s.me.areg f.ac.toNat } ∨ i = .cpg f ∧ k = { base .cpg with m := row, fromQ := !qb.isEmpty, idx := s.aSrc f.ab, n := if qb = [] then n f.ac else 1 } ∧ s.aReady qb [] = .ok () ∨ i = .cps f ∧ k = { base .cps with m := row, idx := s.me.areg f.ab.toNat, n := n f.ac }) ∧ s.copyRange x = true ∧ x.total = 0 ∧ (k.sen = false ∨ s.me.semStage k.sid.toNat s.now ≤ 2)) ∧
    (let f : ArF := acp
    let s : State := sO
    let i : Instr := .cp f
    let n (r : BitVec 5) : Nat := (s.me.areg r.toNat).toNat
    let base (kind : CopyKind) : Copy := { id := 0, kind := kind, word := s.me.a.ctl.pc, dst := s.me.areg f.ad.toNat, src := s.me.areg f.aa.toNat, n := 0, w := widthOf f.wc, ix64 := f.ix == 1, fl := f.fl == 1, wait := f.wait, clr := f.clr, zf := f.zf, ord := f.ord, add := f.add, sen := f.sen == 1, sid := f.sid }
    let k : Copy := { base .cp with n := n f.ab }
    let qa := aSrcQ f.aa.toNat
    let qb := aSrcQ f.ab.toNat
    let row := f.n13.toNat + 1
    let x : Copy := { k with id := s.me.stamp }
    let fs := s.copyFeet x
    s.me.a.ckpts = [] ∧ (i = .cp f ∧ k = { base .cp with n := n f.ab } ∨ i = .cpz f ∧ k = { base .cpz with src := 0, imm := s.aSrc f.aa, n := n f.ab } ∧ s.aReady qa [] = .ok () ∨ i = .cpt f ∧ k = { base .cpt with n := n f.ab, m := row, pitch := s.me.areg f.ac.toNat } ∨ i = .cpg f ∧ k = { base .cpg with m := row, fromQ := !qb.isEmpty, idx := s.aSrc f.ab, n := if qb = [] then n f.ac else 1 } ∧ s.aReady qb [] = .ok () ∨ i = .cps f ∧ k = { base .cps with m := row, idx := s.me.areg f.ab.toNat, n := n f.ac }) ∧ s.copyRange x = true ∧ x.total ≠ 0 ∧ s.me.a.copies.length < 8 ∧ (fs = [] ∨ s.me.feet.length + fs.length + (if s.me.headWants then 1 else 0) ≤ 16)) ∧
    (let f : ArF := { acp with aa := 25 }
    let s : State := sO
    let i : Instr := .cpz f
    let n (r : BitVec 5) : Nat := (s.me.areg r.toNat).toNat
    let base (kind : CopyKind) : Copy := { id := 0, kind := kind, word := s.me.a.ctl.pc, dst := s.me.areg f.ad.toNat, src := s.me.areg f.aa.toNat, n := 0, w := widthOf f.wc, ix64 := f.ix == 1, fl := f.fl == 1, wait := f.wait, clr := f.clr, zf := f.zf, ord := f.ord, add := f.add, sen := f.sen == 1, sid := f.sid }
    let k : Copy := { base .cpz with src := 0, imm := s.aSrc f.aa, n := n f.ab }
    let qa := aSrcQ f.aa.toNat
    let qb := aSrcQ f.ab.toNat
    let row := f.n13.toNat + 1
    let x : Copy := { k with id := s.me.stamp }
    let fs := s.copyFeet x
    s.me.a.ckpts = [] ∧ (i = .cp f ∧ k = { base .cp with n := n f.ab } ∨ i = .cpz f ∧ k = { base .cpz with src := 0, imm := s.aSrc f.aa, n := n f.ab } ∧ s.aReady qa [] = .ok () ∨ i = .cpt f ∧ k = { base .cpt with n := n f.ab, m := row, pitch := s.me.areg f.ac.toNat } ∨ i = .cpg f ∧ k = { base .cpg with m := row, fromQ := !qb.isEmpty, idx := s.aSrc f.ab, n := if qb = [] then n f.ac else 1 } ∧ s.aReady qb [] = .ok () ∨ i = .cps f ∧ k = { base .cps with m := row, idx := s.me.areg f.ab.toNat, n := n f.ac }) ∧ s.copyRange x = true ∧ x.total ≠ 0 ∧ s.me.a.copies.length < 8 ∧ (fs = [] ∨ s.me.feet.length + fs.length + (if s.me.headWants then 1 else 0) ≤ 16)) ∧
    (let f : ArF := acp
    let s : State := sO
    let i : Instr := .cpt f
    let n (r : BitVec 5) : Nat := (s.me.areg r.toNat).toNat
    let base (kind : CopyKind) : Copy := { id := 0, kind := kind, word := s.me.a.ctl.pc, dst := s.me.areg f.ad.toNat, src := s.me.areg f.aa.toNat, n := 0, w := widthOf f.wc, ix64 := f.ix == 1, fl := f.fl == 1, wait := f.wait, clr := f.clr, zf := f.zf, ord := f.ord, add := f.add, sen := f.sen == 1, sid := f.sid }
    let qa := aSrcQ f.aa.toNat
    let qb := aSrcQ f.ab.toNat
    let row := f.n13.toNat + 1
    let k : Copy := { base .cpt with n := n f.ab, m := row, pitch := s.me.areg f.ac.toNat }
    let x : Copy := { k with id := s.me.stamp }
    let fs := s.copyFeet x
    s.me.a.ckpts = [] ∧ (i = .cp f ∧ k = { base .cp with n := n f.ab } ∨ i = .cpz f ∧ k = { base .cpz with src := 0, imm := s.aSrc f.aa, n := n f.ab } ∧ s.aReady qa [] = .ok () ∨ i = .cpt f ∧ k = { base .cpt with n := n f.ab, m := row, pitch := s.me.areg f.ac.toNat } ∨ i = .cpg f ∧ k = { base .cpg with m := row, fromQ := !qb.isEmpty, idx := s.aSrc f.ab, n := if qb = [] then n f.ac else 1 } ∧ s.aReady qb [] = .ok () ∨ i = .cps f ∧ k = { base .cps with m := row, idx := s.me.areg f.ab.toNat, n := n f.ac }) ∧ s.copyRange x = true ∧ x.total ≠ 0 ∧ s.me.a.copies.length < 8 ∧ (fs = [] ∨ s.me.feet.length + fs.length + (if s.me.headWants then 1 else 0) ≤ 16)) ∧
    (let f : ArF := { acp with ab := 24, ac := 10 }
    let s : State := sO
    let i : Instr := .cpg f
    let n (r : BitVec 5) : Nat := (s.me.areg r.toNat).toNat
    let base (kind : CopyKind) : Copy := { id := 0, kind := kind, word := s.me.a.ctl.pc, dst := s.me.areg f.ad.toNat, src := s.me.areg f.aa.toNat, n := 0, w := widthOf f.wc, ix64 := f.ix == 1, fl := f.fl == 1, wait := f.wait, clr := f.clr, zf := f.zf, ord := f.ord, add := f.add, sen := f.sen == 1, sid := f.sid }
    let qa := aSrcQ f.aa.toNat
    let qb := aSrcQ f.ab.toNat
    let row := f.n13.toNat + 1
    let k : Copy := { base .cpg with m := row, fromQ := !qb.isEmpty, idx := s.aSrc f.ab, n := if qb = [] then n f.ac else 1 }
    let x : Copy := { k with id := s.me.stamp }
    let fs := s.copyFeet x
    s.me.a.ckpts = [] ∧ (i = .cp f ∧ k = { base .cp with n := n f.ab } ∨ i = .cpz f ∧ k = { base .cpz with src := 0, imm := s.aSrc f.aa, n := n f.ab } ∧ s.aReady qa [] = .ok () ∨ i = .cpt f ∧ k = { base .cpt with n := n f.ab, m := row, pitch := s.me.areg f.ac.toNat } ∨ i = .cpg f ∧ k = { base .cpg with m := row, fromQ := !qb.isEmpty, idx := s.aSrc f.ab, n := if qb = [] then n f.ac else 1 } ∧ s.aReady qb [] = .ok () ∨ i = .cps f ∧ k = { base .cps with m := row, idx := s.me.areg f.ab.toNat, n := n f.ac }) ∧ s.copyRange x = true ∧ x.total ≠ 0 ∧ s.me.a.copies.length < 8 ∧ (fs = [] ∨ s.me.feet.length + fs.length + (if s.me.headWants then 1 else 0) ≤ 16)) ∧
    (let f : ArF := { acp with ab := 12, ac := 10 }
    let s : State := sO
    let i : Instr := .cps f
    let n (r : BitVec 5) : Nat := (s.me.areg r.toNat).toNat
    let base (kind : CopyKind) : Copy := { id := 0, kind := kind, word := s.me.a.ctl.pc, dst := s.me.areg f.ad.toNat, src := s.me.areg f.aa.toNat, n := 0, w := widthOf f.wc, ix64 := f.ix == 1, fl := f.fl == 1, wait := f.wait, clr := f.clr, zf := f.zf, ord := f.ord, add := f.add, sen := f.sen == 1, sid := f.sid }
    let qa := aSrcQ f.aa.toNat
    let qb := aSrcQ f.ab.toNat
    let row := f.n13.toNat + 1
    let k : Copy := { base .cps with m := row, idx := s.me.areg f.ab.toNat, n := n f.ac }
    let x : Copy := { k with id := s.me.stamp }
    let fs := s.copyFeet x
    s.me.a.ckpts = [] ∧ (i = .cp f ∧ k = { base .cp with n := n f.ab } ∨ i = .cpz f ∧ k = { base .cpz with src := 0, imm := s.aSrc f.aa, n := n f.ab } ∧ s.aReady qa [] = .ok () ∨ i = .cpt f ∧ k = { base .cpt with n := n f.ab, m := row, pitch := s.me.areg f.ac.toNat } ∨ i = .cpg f ∧ k = { base .cpg with m := row, fromQ := !qb.isEmpty, idx := s.aSrc f.ab, n := if qb = [] then n f.ac else 1 } ∧ s.aReady qb [] = .ok () ∨ i = .cps f ∧ k = { base .cps with m := row, idx := s.me.areg f.ab.toNat, n := n f.ac }) ∧ s.copyRange x = true ∧ x.total ≠ 0 ∧ s.me.a.copies.length < 8 ∧ (fs = [] ∨ s.me.feet.length + fs.length + (if s.me.headWants then 1 else 0) ≤ 16)) :=
  by refine ⟨?_, ?_, ?_, ?_, ?_, ?_, ?_⟩ <;> exact byKernel (letI := @exceptDec; inferInstance) (by decide +kernel)

/-- The hypotheses of ACopyEnds are met. -/
theorem witness_ACopyEnds :
    (let s : State := sCopy xDone
    let x : Copy := xDone
    s.me.copy? s.ev.id = some x ∧ x.allDone = true ∧ x.owed = 0 ∧ (x.sen = false ∨ s.me.semStage x.sid.toNat s.now ≤ 2)) ∧
    (let s : State := sCopy xBad
    let x : Copy := xBad
    let t := match s.copyFault x s.ev.el with | some (.stop (.trap t)) => t | _ => { cause := .trap }
    s.me.copy? s.ev.id = some x ∧ x.started = true ∧ x.isDone s.ev.el = false ∧ s.ev.el < x.total ∧ s.copyFault x s.ev.el = some (.stop (.trap t)) ∧ s.toRegs x = false ∧ x.below s.ev.el = true) ∧
    (let s : State := sCopyAt 1 xReg
    let x : Copy := xReg
    let t := match s.copyFault x s.ev.el with | some (.stop (.trap t)) => t | _ => { cause := .trap }
    s.me.copy? s.ev.id = some x ∧ x.started = true ∧ x.isDone s.ev.el = false ∧ s.ev.el < x.total ∧ s.copyFault x s.ev.el = some (.stop (.trap t)) ∧ s.toRegs x = true ∧ (∀ i, i < s.ev.el → s.copyFault x i = none)) :=
  by refine ⟨?_, ?_, ?_⟩ <;> exact byKernel (letI := @exceptDec; inferInstance) (by decide +kernel)

/-- The hypotheses of ALoadReturn are met. -/
theorem witness_ALoadReturn :
    (let l : Load := ld7 (.areg 5) true none
    let s : State := sLoad l
    let v : Nat := 0x81
    let vz : Nat := 0x80
    let p : Bool := true
    let r := 5
    s.me.a.loads.find? (·.id == s.ev.id) = some l ∧ l.ret = some (v, vz, p) ∧ l.dst = .areg r ∧ s.me.a.ctl.stopped = false ∧ s.me.dead = false ∧ s.me.a.ctl.pc = l.word ∧ s.me.a.ckpts = [] ∧ l.bad = none ∧ (p = true → l.zf = true)) ∧
    (let l : Load := ld7 (.areg 5) true (some { cause := .windowFault, info := 3 })
    let s : State := sLoad l
    let v : Nat := 0x81
    let vz : Nat := 0x80
    let p : Bool := true
    let r := 5
    let t := { cause := .windowFault, info := 3 }
    s.me.a.loads.find? (·.id == s.ev.id) = some l ∧ l.ret = some (v, vz, p) ∧ l.dst = .areg r ∧ s.me.a.ctl.stopped = false ∧ s.me.dead = false ∧ s.me.a.ctl.pc = l.word ∧ s.me.a.ckpts = [] ∧ l.bad = some t) ∧
    (let l : Load := ld7 (.q 1) true none
    let s : State := sLoad l
    let v : Nat := 0x81
    let vz : Nat := 0x80
    let p : Bool := true
    let n := 1
    s.me.a.loads.find? (·.id == s.ev.id) = some l ∧ l.ret = some (v, vz, p) ∧ (l.dst = .q n ∨ l.dst = .wq n) ∧ l.bad = none) ∧
    (let l : Load := ld7 (.wq 0) true none
    let s : State := sLoad l
    let v : Nat := 0x81
    let vz : Nat := 0x80
    let p : Bool := true
    let n := 0
    s.me.a.loads.find? (·.id == s.ev.id) = some l ∧ l.ret = some (v, vz, p) ∧ (l.dst = .q n ∨ l.dst = .wq n) ∧ l.bad = none) :=
  by refine ⟨?_, ?_, ?_, ?_⟩ <;> exact byKernel (letI := @exceptDec; inferInstance) (by decide +kernel)

/-! The V stream. -/

def eqGet {α : Type} (o : Option α) (P : α → Prop) [∀ x, Decidable (P x)] : Decidable (∀ x, o = some x → P x) :=
  match o with
  | none => isTrue fun _ e => nomatch e
  | some a => if h : P a then isTrue fun _ e => Option.some.inj e ▸ h else isFalse fun g => h (g a rfl)
def vDstDec (d : VDst) (s : State) :
    Decidable ((∀ n, d = .wq n → s.me.wqFree n s.now = true) ∧ (d = .q5 → s.me.qFree 5 s.now = true)) :=
  match d with
  | .wq n => if h : s.me.wqFree n s.now = true then isTrue ⟨fun _ e => (VDst.wq.inj e) ▸ h, fun e => (nomatch e)⟩ else isFalse fun g => h (g.1 n rfl)
  | .q5 => if h : s.me.qFree 5 s.now = true then isTrue ⟨fun _ e => (nomatch e), fun _ => h⟩ else isFalse fun g => h (g.2 rfl)
  | .v _ => isTrue ⟨fun _ e => (nomatch e), fun e => (nomatch e)⟩
  | .k _ => isTrue ⟨fun _ e => (nomatch e), fun e => (nomatch e)⟩
  | .g _ => isTrue ⟨fun _ e => (nomatch e), fun e => (nomatch e)⟩
def vReadyDec (g : Guard) (u : VUse) (s : State) : Decidable (VReady g u s) := by
  unfold VReady
  letI := @eqGet
  letI := vDstDec
  exact inferInstance
def vf : VF :=
  { g := g0, tag := 5, vd := 3, va := 1, vb := 2, vc := 4, k := 0, rm := 0, sat := 0, pk := 0, qd := 0, qa := 0, qb := 0, qx := 0 }
def vb1 : V2048 := 0xFEDCBA98765432100123456789ABCDEF8000000080000000FFFFFFFF00000001
def vv (b : V2048) (t : Nat) : VVal := { bits := b, tag := BitVec.ofNat 5 t }
def cV (t : Nat) : Core := { coreM with
  v := { v := [(1, vv vb1 t), (2, vv (vb1 + 3) t), (3, vv (vb1 + 4) t), (4, vv (vb1 + 5) t)], k := [(1, 0xAAAAAAAAAAAAAAAA5)],
         g := [(1, 9), (2, 70), (4, 5), (5, 0x7E00000000000000)] }
  full := (List.range 200).map fun i => (i, true)
  q := [(4, qe 77)], wq := [(0, { ents := [{ val := vv vb1 t }] }), (1, { ents := [{ val := vv vb1 t }] })] }
def sV (t : Nat) : State := st (cV t) mem0
def fCv (d c x : Nat) : VF := { vf with tag := BitVec.ofNat 5 d, vc := BitVec.ofNat 5 c, qx := BitVec.ofNat 7 x }
def fMem : VF := { vf with tag := 6, va := 5 }
def sIx : State :=
  st { cV 6 with v := { (cV 6).v with v := [(1, vv vb1 6), (2, vv 0x00050003FFFF0000 6), (3, vv vb1 6)], k := [(2, 5)] } } mem0
def vi : ViF := { g := g0, tag := 0, vd := 3, va := 1, vb := 2, vc := 0, k := 0, q := 0x7FFE }
def rFly : VRes := { dst := .v 1, due := 3, val := vv vb1 7, wmask := BitVec.allOnes 2048, full := true, flags := 0x83 }
def sFly : State := st { cV 5 with sem := [(3, 9)], v := { (cV 5).v with slot := 4, fly := [rFly, { rFly with due := 6 }] } }
def sFly2 : State := st { cV 5 with v := { (cV 5).v with slot := 2, fly := [rFly] } }
def sAct : State := st { cV 5 with semAct := [(0, (11, 5))] }
def sSem : State := st { cV 5 with sem := [(3, 9)] }

/-- The hypotheses of VIntegers are met. -/
theorem witness_VIntegers :
    (let f : VF := vf
    let s : State := sV 5
    let two := [VF.a f, VF.b f]
    tagFloat (VF.t f) = false ∧ VReady f.g (vElemUse f two) s) ∧
    (let f : VF := { vf with tag := 8, qa := 1, va := 0, qb := 1, vb := 1, qd := 1, vd := 2 }
    let s : State := sV 8
    let two := [VF.a f, VF.b f]
    tagFloat (VF.t f) = false ∧ VReady f.g (vElemUse f two) s) ∧
    (let f : VF := { vf with k := 1 }
    let s : State := sV 5
    let one := [VF.a f]
    tagFloat (VF.t f) = false ∧ VReady f.g (vElemUse f one) s) :=
  by refine ⟨?_, ?_, ?_⟩ <;> exact byKernel (letI := @exceptDec; letI := @vReadyDec; inferInstance) (by decide +kernel)

/-- The hypotheses of VFloats are met. -/
theorem witness_VFloats :
    (let md : Nat := 0
    md ≤ 4) ∧
    (let F := fp32
    let md : Nat := 0
    let k := 5
    md ≤ 4 ∧ k ≤ F.maxCode) ∧
    (let F := fp32
    let md : Nat := 0
    let m := 5
    let e := -149
    let k := 5
    let lo : Int := 1 - F.bias - F.m
    let c := 2 ^ (lo - e).toNat
    let x := m * 2 ^ (e - lo).toNat
    let y (k : Nat) : Nat := fmtMag F k * c
    md ≤ 4 ∧ m ≠ 0 ∧ k ≤ F.maxCode ∧ y k ≤ x ∧ x < y (k + 1)) ∧
    (let F := fp32
    let md : Nat := 0
    let m := 1
    let e := 200
    let k := 5
    let lo : Int := 1 - F.bias - F.m
    let c := 2 ^ (lo - e).toNat
    let x := m * 2 ^ (e - lo).toNat
    let y (k : Nat) : Nat := fmtMag F k * c
    md ≤ 4 ∧ m ≠ 0 ∧ k ≤ F.maxCode ∧ y (F.maxCode + 1) ≤ x) ∧
    (let F := fp32
    let md : Nat := 0
    let f := 3
    md ≤ 4 ∧ F.kind = 2 ∧ f < 2 ^ F.m) ∧
    (let F := ffmt 12
    let md : Nat := 0
    md ≤ 4 ∧ F.kind = 1) ∧
    (let n : Nat := 5
    n ≠ 0) ∧
    (let n : Nat := 0
    n = 0) ∧
    (let f : VF := { vf with tag := 15 }
    let s : State := sV 15
    let t := VF.t f
    let two := [VF.a f, VF.b f]
    tagFloat (VF.t f) = true ∧ VReady f.g (vElemUse f two) s) ∧
    (let f : VF := { vf with tag := 17, rm := 3, k := 1 }
    let s : State := sV 17
    let t := VF.t f
    let two := [VF.a f, VF.b f]
    tagFloat (VF.t f) = true ∧ VReady f.g (vElemUse f two) s) ∧
    (let f : VF := { vf with tag := 16 }
    let s : State := sV 16
    let t := VF.t f
    let three := [VF.a f, VF.b f, VF.c f]
    tagFloat (VF.t f) = true ∧ VReady f.g (vElemUse f three) s) :=
  by refine ⟨?_, ?_, ?_, ?_, ?_, ?_, ?_, ?_, ?_, ?_, ?_⟩ <;> exact byKernel (letI := @exceptDec; letI := @vReadyDec; inferInstance) (by decide +kernel)
/-- The hypotheses of VFloats are met. -/
theorem witness_VFloats_2 :
    (let f : VF := { vf with tag := 12 }
    let s : State := sV 12
    let t := VF.t f
    let one := [VF.a f]
    tagFloat (VF.t f) = true ∧ VReady f.g (vElemUse f one) s) :=
  byKernel (letI := @exceptDec; letI := @vReadyDec; inferInstance) (by decide +kernel)
/-- The hypotheses of VFloats are met. -/
theorem witness_VFloats_a :
    (let v : Val := .nan
    v = .nan ∨ (v = .inf true ∨ ∃ m e, m ≠ 0 ∧ v = .fin true m e false)) :=
  Or.inl rfl

/-- The hypotheses of VBitsAndMasks are met. -/
theorem witness_VBitsAndMasks :
    (let f : VF := vf
    let s : State := sV 5
    VReady f.g (vElemUse f [VF.a f, VF.b f]) s) ∧
    (let f : VF := { vf with tag := 0 }
    let s : State := sV 5
    VReady f.g (vElemUse f [VF.a f, VF.b f]) s) ∧
    (let f : VF := vf
    let s : State := sV 5
    VReady f.g (vElemUse f [VF.a f]) s) ∧
    (let f : VF := vf
    let s : State := sV 5
    let uc : VUse := { vs := [(VF.a f, VF.chk f), (VF.b f, VF.chk f)], ks := VF.kNames f, ds := [.k f.vd.toNat] }
    VReady f.g uc s) ∧
    (let f : VF := vf
    let s : State := sV 5
    let k2 : VUse := { ks := [f.va.toNat, f.vb.toNat], ds := [.k f.vd.toNat] }
    VReady f.g k2 s) ∧
    (let f : VF := vf
    let s : State := sV 5
    let k1 : VUse := { ks := [f.va.toNat], ds := [.k f.vd.toNat] }
    VReady f.g k1 s) ∧
    (let f : VF := vf
    let s : State := sV 5
    let kg : VUse := { ks := [f.va.toNat], ds := [gDstOf f.qd f.vd] }
    VReady f.g kg s) ∧
    (let f : VF := vf
    let s : State := sV 5
    let KA : BitVec 256 := tget 0 s.me.v.k f.va.toNat
    let kg : VUse := { ks := [f.va.toNat], ds := [gDstOf f.qd f.vd] }
    let n := 0
    VReady f.g kg s ∧ n < 256 ∧ KA.getLsbD n = true ∧ (∀ i, i < n → KA.getLsbD i = false)) ∧
    (let f : VF := { vf with va := 2 }
    let s : State := sV 5
    let KA : BitVec 256 := tget 0 s.me.v.k f.va.toNat
    let kg : VUse := { ks := [f.va.toNat], ds := [gDstOf f.qd f.vd] }
    VReady f.g kg s ∧ KA = 0) :=
  by refine ⟨?_, ?_, ?_, ?_, ?_, ?_, ?_, ?_, ?_⟩ <;> exact byKernel (letI := @exceptDec; letI := @vReadyDec; inferInstance) (by decide +kernel)

/-- The hypotheses of VMovement are met. -/
theorem witness_VMovement :
    (let f : VF := vf
    let s : State := sV 5
    let d := vDstOf f.qd f.vd
    let c := VF.chk f
    let use (vs : List (VOp × Option Nat)) (gs : List VOp) (carry : Bool) : VUse := { vs := vs, gs := gs, ks := VF.kNames f, ds := [d], carry := carry }
    let um := use [(VF.a f, c)] [] true
    VReady f.g um s) ∧
    (let f : VF := vf
    let s : State := sV 5
    let d := vDstOf f.qd f.vd
    let use (vs : List (VOp × Option Nat)) (gs : List VOp) (carry : Bool) : VUse := { vs := vs, gs := gs, ks := VF.kNames f, ds := [d], carry := carry }
    let ub := use [] [VF.a f] false
    VReady f.g ub s) ∧
    (let f : VF := vf
    let s : State := sV 5
    let d := vDstOf f.qd f.vd
    let c := VF.chk f
    let use (vs : List (VOp × Option Nat)) (gs : List VOp) (carry : Bool) : VUse := { vs := vs, gs := gs, ks := VF.kNames f, ds := [d], carry := carry }
    let us := use [(VF.a f, c), (VF.b f, c)] [] false
    VReady f.g us s) ∧
    (let f : VF := { vf with tag := 6, k := 1 }
    let s : State := sV 6
    let d := vDstOf f.qd f.vd
    let c := VF.chk f
    let use (vs : List (VOp × Option Nat)) (gs : List VOp) (carry : Bool) : VUse := { vs := vs, gs := gs, ks := VF.kNames f, ds := [d], carry := carry }
    let up := use [(VF.a f, c), (VF.b f, s.ixTag (VF.b f))] [] false
    let ix := okOf (s.indices (VF.b f))
    VReady f.g up s ∧ s.indices (VF.b f) = .ok ix) ∧
    (let f : VF := vf
    let s : State := sV 5
    let d := vDstOf f.qd f.vd
    let c := VF.chk f
    let use (vs : List (VOp × Option Nat)) (gs : List VOp) (carry : Bool) : VUse := { vs := vs, gs := gs, ks := VF.kNames f, ds := [d], carry := carry }
    let ur := use [(VF.a f, c)] [VF.b f] false
    VReady f.g ur s) ∧
    (let f : VF := vf
    let s : State := sV 5
    let d := vDstOf f.qd f.vd
    let c := VF.chk f
    let use (vs : List (VOp × Option Nat)) (gs : List VOp) (carry : Bool) : VUse := { vs := vs, gs := gs, ks := VF.kNames f, ds := [d], carry := carry }
    let ul := use [(VF.a f, c), (VF.b f, c)] [VF.c f] false
    VReady f.g ul s) :=
  by refine ⟨?_, ?_, ?_, ?_, ?_, ?_⟩ <;> exact byKernel (letI := @exceptDec; letI := @vReadyDec; inferInstance) (by decide +kernel)

/-- The hypotheses of VListsAndReductions are met. -/
theorem witness_VListsAndReductions :
    (let t : Nat := 16
    let md : Nat := 0
    let n : Nat := 1
    let l : List Term := [(some .zero, 0), (none, 0)]
    l.length = 2 ^ n ∧ 14 ≤ t ∧ t ≤ 17 ∧ md ≤ 4 ∧ n ≠ 0) ∧
    (let t : Nat := 14
    let md : Nat := 1
    let n : Nat := 0
    let x := (some .zero, 0)
    let l : List Term := [x]
    l.length = 2 ^ n ∧ 14 ≤ t ∧ t ≤ 17 ∧ md ≤ 4 ∧ n = 0 ∧ l = [x]) ∧
    (let t : Nat := 16
    let md : Nat := 0
    let n : Nat := 0
    let l : List Term := [(none, 0)]
    let narrow := t = 14 ∨ t = 15
    let i := 0
    let c := 5
    l.length = 2 ^ n ∧ 14 ≤ t ∧ t ≤ 17 ∧ md ≤ 4 ∧ ¬narrow ∧ c < 2 * (ffmt t).sign ∧ ((ffmt t).read c).1 ≠ .nan ∧ i < 2 ^ n) ∧
    (let t : Nat := 16
    let md : Nat := 0
    let n : Nat := 0
    let l : List Term := [(none, 0)]
    let a : Val := .zero
    let b : Val := .inf true
    l.length = 2 ^ n ∧ 14 ≤ t ∧ t ≤ 17 ∧ md ≤ 4 ∧ ¬a.isNan ∧ ¬b.isNan) ∧
    (let t : Nat := 16
    let md : Nat := 0
    let n : Nat := 0
    let l : List Term := [(none, 0)]
    l.length = 2 ^ n ∧ 14 ≤ t ∧ t ≤ 17 ∧ md ≤ 4) ∧
    (let f : VF := vf
    let s : State := sV 5
    let uc : VUse := { vs := [(VF.a f, VF.chk f)], ks := VF.kNames f, ds := [.v f.vd.toNat, .g f.vb.toNat] }
    VReady f.g uc s) ∧
    (let f : VF := { vf with qx := 1 }
    let s : State := sV 5
    let k := if f.x 0 then 3 else 1
    let up : VUse := { gs := [VF.c f], ks := f.k.toNat :: (if f.x 0 then [f.vb.toNat] else []), ds := .v f.vd.toNat :: (List.range k).map fun j => .g (f.va.toNat + j) }
    VReady f.g up s) ∧
    (let f : VF := { vf with tag := 15, qx := 1, k := 1 }
    let s : State := sV 15
    let dr := if f.x 0 then gDstOf f.qd f.vd else vDstOf f.qd f.vd
    let ur : VUse := { vs := [(VF.a f, VF.chk f)], ks := VF.kNames f, ds := [dr] }
    VReady f.g ur s) ∧
    (let f : VF := vf
    let s : State := sV 5
    let us : VUse := { vs := [(VF.a f, VF.chk f)], ks := VF.kNames f, ds := [vDstOf f.qd f.vd] }
    VReady f.g us s) :=
  by refine ⟨?_, ?_, ?_, ?_, ?_, ?_, ?_, ?_, ?_⟩ <;> exact byKernel (letI := @exceptDec; letI := @vReadyDec; inferInstance) (by decide +kernel)

/-- The hypotheses of VMemory are met. -/
theorem witness_VMemory :
    (let f : VF := { fMem with qx := 1 }
    let s : State := sV 6
    let d := vDstOf f.qd f.vd
    let ea := s.vEa f
    let ul : VUse := { gs := [VF.a f], ds := [d] }
    let pss := okOf (allPass ((vecGrans ea).map (s.granAccess .r .rd)))
    let ps := pss.foldl (· ++ ·) []
    let full := ps.all fun p => match place p.1 with | .ap n o => s.isFull (coreKey s.myPkg n) o | _ => true
    VReady f.g ul s ∧ allPass ((vecGrans ea).map (s.granAccess .r .rd)) = .ok pss ∧ (f.x 0 = true → full = true)) ∧
    (let f : VF := fMem
    let s : State := sV 6
    let ea := s.vEa f
    let w := VF.w f
    let us : VUse := { vs := [((0, f.vd), VF.chk f)], gs := [VF.a f], ks := VF.kNames f, carry := true }
    let pss := okOf (allPass ((List.range 16).map fun g => s.granAccess .w .wr ((ea + 128 * g) % 2 ^ 64)))
    VReady f.g us s ∧ f.k = 0 ∧ allPass ((List.range 16).map fun g => s.granAccess .w .wr ((ea + 128 * g) % 2 ^ 64)) = .ok pss) ∧
    (let f : VF := { fMem with k := 2 }
    let s : State := sIx
    let ea := s.vEa f
    let w := VF.w f
    let acts := s.acts f.k (VF.n f)
    let elems := (List.range (VF.n f)).filter fun i => acts.getD i false
    let gs := (List.range 16).filter fun g => elems.any fun i => w * i < 128 * (g + 1) && 128 * g < w * (i + 1)
    let us : VUse := { vs := [((0, f.vd), VF.chk f)], gs := [VF.a f], ks := VF.kNames f, carry := true }
    let pss := okOf (allPass (gs.map fun g => s.granAccess .w .wr ((ea + 128 * g) % 2 ^ 64)))
    VReady f.g us s ∧ f.k ≠ 0 ∧ allPass (gs.map fun g => s.granAccess .w .wr ((ea + 128 * g) % 2 ^ 64)) = .ok pss) ∧
    (let f : VF := { fMem with k := 2 }
    let s : State := sIx
    let d := vDstOf f.qd f.vd
    let w := VF.w f
    let acts := s.acts f.k (VF.n f)
    let ixo : VOp := (0, f.vb)
    let ut : VUse := { vs := [(ixo, s.ixTag ixo)], gs := [VF.a f], ks := VF.kNames f, ds := [d] }
    let ix := okOf (s.indices ixo)
    let at_ (j : Nat) : Nat := ((s.me.vg f.va.toNat).toNat + j * w) % 2 ^ 64
    let reads := ((firstN (VF.n f) ix).zip acts).map fun p => if p.2 then p.1.map at_ else none
    let ps := okOf (allPass (reads.map fun r => match r with | some a => s.elemAccess .r .rd a w | none => .ok []))
    VReady f.g ut s ∧ s.indices ixo = .ok ix ∧ allPass (reads.map fun r => match r with | some a => s.elemAccess .r .rd a w | none => .ok []) = .ok ps) :=
  by refine ⟨?_, ?_, ?_, ?_⟩ <;> exact byKernel (letI := @exceptDec; letI := @vReadyDec; inferInstance) (by decide +kernel)

/-- The hypotheses of VConversions are met. -/
theorem witness_VConversions :
    (let t : Nat := 5
    let x : Int := -3
    let lim : Int := ((2 ^ (tagWidth t - 1) : Nat) : Int)
    2 ≤ t ∧ t ≤ 8 ∧ -lim ≤ x ∧ x < lim) ∧
    (let t : Nat := 5
    2 ≤ t ∧ t ≤ 8) ∧
    (let c : Nat := 5
    c < 256 ∧ c ≠ 255) ∧
    (let c : Nat := 255
    c < 256) ∧
    (let f : VF := fCv 16 15 1
    let s : State := sV 15
    let d := vDstOf f.qd f.vd
    let st := f.srcTag
    let g := s.gSrc (VF.b f)
    let use (gs : List VOp) : VUse := { vs := [(VF.a f, some st)], gs := gs, ks := VF.kNames f, ds := [d] }
    VReady f.g (use []) s) ∧
    (let f : VF := fCv 6 5 0
    let s : State := sV 5
    let d := vDstOf f.qd f.vd
    let st := f.srcTag
    let g := s.gSrc (VF.b f)
    let use (gs : List VOp) : VUse := { vs := [(VF.a f, some st)], gs := gs, ks := VF.kNames f, ds := [d] }
    VReady f.g (use []) s ∧ f.x 5 = false) ∧
    (let f : VF := fCv 15 2 33
    let s : State := sV 2
    let d := vDstOf f.qd f.vd
    let st := f.srcTag
    let g := s.gSrc (VF.b f)
    let use (gs : List VOp) : VUse := { vs := [(VF.a f, some st)], gs := gs, ks := VF.kNames f, ds := [d] }
    VReady f.g (use [VF.b f]) s ∧ f.x 5 = true) ∧
    (let f : VF := fCv 15 2 1
    let s : State := sV 2
    let d := vDstOf f.qd f.vd
    let st := f.srcTag
    let g := s.gSrc (VF.b f)
    let use (gs : List VOp) : VUse := { vs := [(VF.a f, some st)], gs := gs, ks := VF.kNames f, ds := [d] }
    VReady f.g (use [VF.b f]) s ∧ f.x 5 = false) ∧
    (let f : VF := vf
    let s : State := sV 5
    let d := vDstOf f.qd f.vd
    let g := s.gSrc (VF.b f)
    let us : VUse := { vs := [(VF.a f, VF.chk f)], gs := [VF.b f], ks := VF.kNames f, ds := [d] }
    VReady f.g us s) ∧
    (let f : VF := vf
    let s : State := sV 5
    let d := vDstOf f.qd f.vd
    let g := s.gSrc (VF.b f)
    let ut : VUse := { vs := [(VF.a f, none)], ds := [d], carry := true }
    VReady f.g ut s) ∧
    (let f : VF := vf
    let s : State := sV 5
    let g := s.gSrc (VF.b f)
    let ur : VUse := { vs := [(VF.a f, none)], ds := [gDstOf f.qd f.vd], carry := true }
    VReady f.g ur s) :=
  by refine ⟨?_, ?_, ?_, ?_, ?_, ?_, ?_, ?_, ?_, ?_, ?_⟩ <;> exact byKernel (letI := @exceptDec; letI := @vReadyDec; inferInstance) (by decide +kernel)
/-- The hypotheses of VConversions are met. -/
theorem witness_VConversions_a :
    (let t := 6; let md := 0; let sat := false; let w := 16; let dest : Val → Nat × Fl := roundTag t md sat
    (1 ≤ t ∧ t ≤ 8 ∧ w = tagWidth t ∧ dest = roundTag t md sat) ∨ (t = 0 ∧ w = 40 ∧ dest = roundInt 0 40)) :=
  Or.inl ⟨by decide, by decide, by decide, rfl⟩

/-- The hypotheses of VQuantises are met. -/
theorem witness_VQuantises :
    (let v : Val := .nan
    (v = .nan ∨ v = .inf false)) ∧
    (let t : Nat := 12
    let top : List (Nat × Nat × Int) := [(12, 448, 0), (13, 57344, 0), (10, 28, 0), (11, 15, -1), (9, 6, 0), (5, 127, 0), (4, 31, 0), (3, 7, 0), (2, 3, 0)]
    let m := 5
    let x := (448, 0)
    (t, x) ∈ top ∧ m ≠ 0) ∧
    (let f : VF := fCv 5 16 3
    let s : State := sV 16
    let u : VUse := { vs := [(VF.a f, some f.srcTag)], gs := [VF.b f], ds := [.v f.vd.toNat] }
    VReady f.g u s ∧ f.x 5 = false) ∧
    (let f : VF := fCv 12 15 33
    let s : State := sV 15
    let u : VUse := { vs := [(VF.a f, some f.srcTag)], gs := [VF.b f], ds := [.v f.vd.toNat] }
    VReady f.g u s ∧ f.x 5 = true) :=
  by refine ⟨?_, ?_, ?_, ?_⟩ <;> exact byKernel (letI := @exceptDec; letI := @vReadyDec; inferInstance) (by decide +kernel)
/-- The hypotheses of VQuantises are met. -/
theorem witness_VQuantises_a :
    (let t := 12; let m := 5; let l : Int := 3; let e : Int := 1; let x : Int := 8
    (t, x) ∈ [(12, (8 : Int)), (13, 15), (10, 4), (11, 2), (9, 2), (5, 6), (4, 4), (3, 2), (2, 1)] ∧ m ≠ 0 ∧ ∃ k : Nat, l = k + e ∧ 2 ^ k ≤ m ∧ m < 2 ^ (k + 1)) :=
  ⟨by decide, by decide, 2, by decide⟩

/-- The hypotheses of VScalarsAndBranches are met. -/
theorem witness_VScalarsAndBranches :
    (let f : VF := vf
    let s : State := sV 5
    let ua : VUse := { gs := [VF.a f, VF.b f], ds := [gDstOf f.qd f.vd] }
    VReady f.g ua s) ∧
    (let f : VF := vf
    let s : State := sV 5
    let um : VUse := { gs := [VF.a f], ds := [gDstOf f.qd f.vd] }
    VReady f.g um s) ∧
    (let i : ViF := vi
    let s : State := sV 5
    let ui : VUse := { gs := [(0, i.va)], ds := [.g i.vd.toNat] }
    VReady i.g ui s) ∧
    (let i : ViF := { vi with vd := 0 }
    let s : State := sV 5
    let free (g : Guard) (names : List VDst) : Prop := s.me.v.fly.any (fun r => r.mark && (Guard.vNames g ++ names).contains r.dst) = false ∧ guardOn g s.me.vg = true
    free i.g (if i.vd = 0 then [] else [.g i.va.toNat]) ∧ i.vd = 0) ∧
    (let i : ViF := { vi with vd := 1 }
    let s : State := sV 5
    let free (g : Guard) (names : List VDst) : Prop := s.me.v.fly.any (fun r => r.mark && (Guard.vNames g ++ names).contains r.dst) = false ∧ guardOn g s.me.vg = true
    free i.g (if i.vd = 0 then [] else [.g i.va.toNat]) ∧ i.vd = 1) ∧
    (let i : ViF := { vi with vd := 2 }
    let s : State := sV 5
    let free (g : Guard) (names : List VDst) : Prop := s.me.v.fly.any (fun r => r.mark && (Guard.vNames g ++ names).contains r.dst) = false ∧ guardOn g s.me.vg = true
    free i.g (if i.vd = 0 then [] else [.g i.va.toNat]) ∧ i.vd = 2) ∧
    (let i : ViF := vi
    let s : State := sV 5
    let free (g : Guard) (names : List VDst) : Prop := s.me.v.fly.any (fun r => r.mark && (Guard.vNames g ++ names).contains r.dst) = false ∧ guardOn g s.me.vg = true
    free i.g [.g i.vd.toNat]) ∧
    (let i : ViF := vi
    let s : State := sFly
    let v := s.me.vg i.vd.toNat - 1
    let free (g : Guard) (names : List VDst) : Prop := s.me.v.fly.any (fun r => r.mark && (Guard.vNames g ++ names).contains r.dst) = false ∧ guardOn g s.me.vg = true
    free i.g [] ∧ s.me.v.fly ≠ []) ∧
    (let i : ViF := { vi with q := 0 }
    let s : State := sV 5
    let v := s.me.vg i.vd.toNat - 1
    let free (g : Guard) (names : List VDst) : Prop := s.me.v.fly.any (fun r => r.mark && (Guard.vNames g ++ names).contains r.dst) = false ∧ guardOn g s.me.vg = true
    let id := i.q.extractLsb' 0 5
    free i.g [] ∧ s.me.v.fly = [] ∧ id = 0) ∧
    (let i : ViF := { vi with q := 33 }
    let s : State := sV 5
    let v := s.me.vg i.vd.toNat - 1
    let free (g : Guard) (names : List VDst) : Prop := s.me.v.fly.any (fun r => r.mark && (Guard.vNames g ++ names).contains r.dst) = false ∧ guardOn g s.me.vg = true
    let x := s.ctl .v
    let id := i.q.extractLsb' 0 5
    free i.g [] ∧ s.me.v.fly = [] ∧ id ≠ 0 ∧ x.rdv = none) ∧
    (let f : VF := vf
    let s : State := sV 5
    let free (g : Guard) (names : List VDst) : Prop := s.me.v.fly.any (fun r => r.mark && (Guard.vNames g ++ names).contains r.dst) = false ∧ guardOn g s.me.vg = true
    let k := (f.qx.extractLsb' 0 4).toNat
    free f.g [] ∧ s.me.semStage k s.now ≤ 2) ∧
    (let f : VF := vf
    let s : State := sAct
    let free (g : Guard) (names : List VDst) : Prop := s.me.v.fly.any (fun r => r.mark && (Guard.vNames g ++ names).contains r.dst) = false ∧ guardOn g s.me.vg = true
    let k := (f.qx.extractLsb' 0 4).toNat
    free f.g [] ∧ 2 < s.me.semStage k s.now) :=
  by refine ⟨?_, ?_, ?_, ?_, ?_, ?_, ?_, ?_, ?_, ?_, ?_, ?_⟩ <;> exact byKernel (letI := @exceptDec; letI := @vReadyDec; inferInstance) (by decide +kernel)
/-- The hypotheses of VScalarsAndBranches are met. -/
theorem witness_VScalarsAndBranches_2 :
    (let f : VF := { vf with qx := 0x23 }
    let s : State := sSem
    let free (g : Guard) (names : List VDst) : Prop := s.me.v.fly.any (fun r => r.mark && (Guard.vNames g ++ names).contains r.dst) = false ∧ guardOn g s.me.vg = true
    let k := (f.qx.extractLsb' 0 4).toNat
    let n := (f.qx.extractLsb' 4 3).toNat + 1
    free f.g [] ∧ n ≤ s.me.semAt k ∧ s.semEarlier [.c] k = false ∧ s.me.semStage k s.now ≤ 4) ∧
    (let f : VF := vf
    let s : State := sV 5
    let free (g : Guard) (names : List VDst) : Prop := s.me.v.fly.any (fun r => r.mark && (Guard.vNames g ++ names).contains r.dst) = false ∧ guardOn g s.me.vg = true
    let k := (f.qx.extractLsb' 0 4).toNat
    let n := (f.qx.extractLsb' 4 3).toNat + 1
    free f.g [] ∧ (s.me.semAt k < n ∨ s.semEarlier [.c] k = true ∨ 4 < s.me.semStage k s.now)) :=
  by refine ⟨?_, ?_⟩ <;> exact byKernel (letI := @exceptDec; letI := @vReadyDec; inferInstance) (by decide +kernel)

/-- The hypotheses of VResultLands are met. -/
theorem witness_VResultLands :
    (let s : State := sFly
    let d : Nat := 3
    s.me.job.isSome = true ∧ (∃ r ∈ s.me.v.fly, r.due = d) ∧ (∀ r ∈ s.me.v.fly, d ≤ r.due) ∧ d ≤ s.me.v.slot) ∧
    (let s : State := sFly2
    (s.me.job = none ∨ (∀ r ∈ s.me.v.fly, s.me.v.slot < r.due))) :=
  by refine ⟨?_, ?_⟩ <;> exact byKernel (letI := @exceptDec; letI := @vReadyDec; inferInstance) (by decide +kernel)

/-! The M stream. -/

noncomputable def notQuickDec (i : Instr) :
    Decidable (∀ f : MF, i ≠ .msem f ∧ i ≠ .mdrain f ∧ i ≠ .mdrainRdv f ∧ i ≠ .mbase f ∧ i ≠ .mseed f ∧ i ≠ .mcimldMem f) :=
  match i with
  | .mrow _ | .maccz _ | .mtest _ => isTrue fun _ => ⟨fun e => (nomatch e), fun e => (nomatch e), fun e => (nomatch e),
      fun e => (nomatch e), fun e => (nomatch e), fun e => (nomatch e)⟩
  | _ => Classical.propDecidable _
noncomputable def quickDec (i : Instr) (P : Prop) [Decidable P] :
    Decidable ((∃ f, i = .msem f ∨ i = .mdrain f ∨ i = .mdrainRdv f) → P) :=
  match i with
  | .mrow _ | .maccz _ | .mtest _ | .mseed _ | .mcimldMem _ | .mbase _ | .maccwr _ =>
    isTrue fun h => h.elim fun _ e => e.elim (nomatch ·) fun e => e.elim (nomatch ·) (nomatch ·)
  | .msem f => if h : P then isTrue fun _ => h else isFalse fun g => h (g ⟨f, .inl rfl⟩)
  | .mdrain f => if h : P then isTrue fun _ => h else isFalse fun g => h (g ⟨f, .inr (.inl rfl)⟩)
  | .mdrainRdv f => if h : P then isTrue fun _ => h else isFalse fun g => h (g ⟨f, .inr (.inr rfl)⟩)
  | _ => Classical.propDecidable _
noncomputable def chkDec (i : Instr) (P : MkF → Prop) [∀ k, Decidable (P k)] : Decidable (∀ k, i = .mchk k → P k) :=
  match i with
  | .mchk k => if h : P k then isTrue fun _ e => (Instr.mchk.inj e) ▸ h else isFalse fun g => h (g k rfl)
  | .mrow _ | .maccz _ | .mseed _ | .mcimldBasis _ | .mternSeed _ | .mternCim _ | .mternTile _ | .mfp _ | .maccrd _ | .maccwr _ | .mscan _
  | .mcimldMem _ => isTrue fun _ e => nomatch e
  | _ => Classical.propDecidable _

def mh0 : MHead := { fst := 0, lst := 0, lvl := 0, wid := 0, wcnt := 0, sid := 2, scnt := 1, lgen := 0, fw := 0, fpb := 0, fpx := 0, dd := 1, da := 2 }
def mf : MF := { h := mh0, db := 3, mq := 0, mimm := 4 }
def okM (e : Except Stop MSrc) : MSrc := match e with | .ok l => l | .error _ => []
def mkf : MkF := { h := mh0, const := 0x45727635 }
def mkBad : MkF := { h := mh0, const := 1 }
def mhW : MHead := { mh0 with wid := 4, wcnt := 2 }
def mfW : MF := { mf with h := mhW }
def mh5 : MHead := { mh0 with da := 5 }
def mf5 : MF := { mf with h := mh5 }
def mhT : MHead := { mh0 with da := 2, wid := 4, wcnt := 2 }
def mfT : MF := { mf with h := mhT }
def mfX : MF := { mf with mq := 12 }
def mhFst : MHead := { mh0 with fst := 1 }
def mLp (it tr : Nat) : MLoop := { addr := 0, lgen := 3, trip := tr, len := 3, iter := it }
def mDs (b : W64) (t : Nat) : Desc := { tag := BitVec.ofNat 5 t, rows := 0, pitch := 2048, base := b }
def cM : Core := { coreM with
  m := { ctl := { started := true, pc := 128 }, d := [(1, mDs (BitVec.ofNat 64 accBase) 16), (2, mDs 0 5), (3, mDs 4096 16), (5, mDs 0x40000000 1)] }
  sem := [(4, 3)], roles := [] }
def mEnt (i : Instr) : MEntry := { id := 9, instr := i, addr := 256, loops := [mLp 1 4] }
def mem1 : List Host.Cell := [(2 ^ 57 + 5 * 2 ^ 27, 0x81), (2 ^ 57 + 5 * 2 ^ 27 + 1, 0xFF)]
def sM (c : Core) : State := st c mem1
def sImmM (c : Core) : State := { sM c with
  mem := memSetBits [] 0x80000 64 (14 * 2 ^ 35 + 5), dir := (List.range 4).map fun i => (16 + i, { own0 with role := .imm }) }
def cLoop : Core := { cM with m := { cM.m with loops := [mLp 1 4] } }
def cMFull : Core := { cM with m := { cM.m with queue := List.replicate 16 (mEnt (.msem mf)) } }
def cGo (i : Instr) : Core := { cM with m := { cM.m with queue := [mEnt i, mEnt (.msem mf)] } }
def mRn (i : Instr) : MRun := cM.mRun (mEnt i) ((mHead i).getD mh0)
def sRun (i : Instr) : State := { sM { cM with m := { cM.m with run := [mRn i] } } with ev := { id := 9 } }
def rRead : MRun := { mRn (.mseed mf) with reading := true }
def sRead : State := { sM { cM with m := { cM.m with run := [rRead] } } with ev := { id := 9 } }
def mTrap : Trap := ((sRun (.mchk mkBad)).mchkTest mkBad).getD { cause := .trap }
def sCanc : State := sM { cM with m := { cM.m with cancels := [(9, some 3), (12, none)] } }
def sTest (p : Plane) : State :=
  { sM { cM with m := { cM.m with interval := 5, busyT := 6, busyF := 9, tfence := 2 } } with ev := { pl := p } }

/-- The hypotheses of MWordsEnterTheQueue are met. -/
theorem witness_MWordsEnterTheQueue :
    (let f : MF := mf
    let k : MkF := mkf
    let i : Instr := .mbase mf
    let h : MHead := mh0
    let s : State := sM cM
    let s1 := s.mKeep i
    let c := s1.me
    (i ∈ [Instr.mbase f, .mrow f, .mseed f, .mternSeed f, .mternCim f, .mternTile f, .mcimldMem f, .mcimldBasis f, .mfp f, .maccz f, .maccrd f, .maccwr f, .mtest f, .msem f, .mdrain f] ∧ h = f.h ∨ i ∈ [Instr.mchk k, .mscan k] ∧ h = k.h) ∧ s.me.cancelDue s.now = false ∧ ((h.fst = 1 ∨ h.lst = 1) → h.lvl.toNat < s.me.m.loops.length) ∧ admits h s.me.m.loops = true ∧ c.m.queue.length < 16) ∧
    (let f : MF := mf
    let k : MkF := mkf
    let i : Instr := .mchk mkf
    let h : MHead := mh0
    let s : State := sM cLoop
    let s1 := s.mKeep i
    let c := s1.me
    (i ∈ [Instr.mbase f, .mrow f, .mseed f, .mternSeed f, .mternCim f, .mternTile f, .mcimldMem f, .mcimldBasis f, .mfp f, .maccz f, .maccrd f, .maccwr f, .mtest f, .msem f, .mdrain f] ∧ h = f.h ∨ i ∈ [Instr.mchk k, .mscan k] ∧ h = k.h) ∧ s.me.cancelDue s.now = false ∧ ((h.fst = 1 ∨ h.lst = 1) → h.lvl.toNat < s.me.m.loops.length) ∧ admits h s.me.m.loops = true ∧ c.m.queue.length < 16) ∧
    (let f : MF := mf
    let k : MkF := mkf
    let i : Instr := .msem mf
    let h : MHead := mh0
    let s : State := sM cMFull
    let s1 := s.mKeep i
    let c := s1.me
    (i ∈ [Instr.mbase f, .mrow f, .mseed f, .mternSeed f, .mternCim f, .mternTile f, .mcimldMem f, .mcimldBasis f, .mfp f, .maccz f, .maccrd f, .maccwr f, .mtest f, .msem f, .mdrain f] ∧ h = f.h ∨ i ∈ [Instr.mchk k, .mscan k] ∧ h = k.h) ∧ s.me.cancelDue s.now = false ∧ ((h.fst = 1 ∨ h.lst = 1) → h.lvl.toNat < s.me.m.loops.length) ∧ admits h s.me.m.loops = true ∧ 16 ≤ c.m.queue.length) ∧
    (let k : MkF := mkf
    let h : MHead := mhFst
    let f : MF := { mf with h := mhFst }
    let i : Instr := .mtest f
    let s : State := sM cLoop
    (i ∈ [Instr.mbase f, .mrow f, .mseed f, .mternSeed f, .mternCim f, .mternTile f, .mcimldMem f, .mcimldBasis f, .mfp f, .maccz f, .maccrd f, .maccwr f, .mtest f, .msem f, .mdrain f] ∧ h = f.h ∨ i ∈ [Instr.mchk k, .mscan k] ∧ h = k.h) ∧ s.me.cancelDue s.now = false ∧ ((h.fst = 1 ∨ h.lst = 1) → h.lvl.toNat < s.me.m.loops.length) ∧ admits h s.me.m.loops = false) :=
  by refine ⟨?_, ?_, ?_, ?_⟩ <;> exact byKernel (letI := @exceptDec; letI := @eqGet; letI := @notQuickDec; letI := @chkDec; letI := @quickDec; letI : DecidableEq MSrc := inferInstanceAs (DecidableEq (List (Nat × Pieces))); inferInstance) (by decide +kernel)

/-- The hypotheses of MLoopsAndRendezvous are met. -/
theorem witness_MLoopsAndRendezvous :
    (let f : MF := { mf with mq := 2 }
    let s : State := sM cM
    let s1 := s.mKeep (.mloop f)
    let c := s1.me
    let l : MLoop := { addr := c.m.ctl.pc, lgen := f.h.lgen, trip := f.i 0 32, len := f.q 32 6 + 1, iter := 0 }
    let fits := c.m.loops.length < 6 ∧ ∀ o, c.m.loops.getLast? = some o → l.stop.toNat ≤ o.stop.toNat
    s.me.cancelDue s.now = false ∧ f.h.fst = 0 ∧ f.h.lst = 0 ∧ fits ∧ f.i 0 32 ≠ 0) ∧
    (let f : MF := { mf with mq := 2, mimm := 0 }
    let s : State := sM cM
    let s1 := s.mKeep (.mloop f)
    let c := s1.me
    let l : MLoop := { addr := c.m.ctl.pc, lgen := f.h.lgen, trip := f.i 0 32, len := f.q 32 6 + 1, iter := 0 }
    let fits := c.m.loops.length < 6 ∧ ∀ o, c.m.loops.getLast? = some o → l.stop.toNat ≤ o.stop.toNat
    s.me.cancelDue s.now = false ∧ f.h.fst = 0 ∧ f.h.lst = 0 ∧ fits ∧ f.i 0 32 = 0) ∧
    (let f : MF := { mf with mq := 20 }
    let s : State := sM cLoop
    let s1 := s.mKeep (.mloop f)
    let c := s1.me
    let l : MLoop := { addr := c.m.ctl.pc, lgen := f.h.lgen, trip := f.i 0 32, len := f.q 32 6 + 1, iter := 0 }
    let fits := c.m.loops.length < 6 ∧ ∀ o, c.m.loops.getLast? = some o → l.stop.toNat ≤ o.stop.toNat
    s.me.cancelDue s.now = false ∧ f.h.fst = 0 ∧ f.h.lst = 0 ∧ ¬fits ∧ c.m.queue = []) ∧
    (let f : MF := { mf with mq := 20 }
    let s : State := sM { cLoop with m := { cLoop.m with queue := [mEnt (.msem mf)] } }
    let s1 := s.mKeep (.mloop f)
    let c := s1.me
    let l : MLoop := { addr := c.m.ctl.pc, lgen := f.h.lgen, trip := f.i 0 32, len := f.q 32 6 + 1, iter := 0 }
    let fits := c.m.loops.length < 6 ∧ ∀ o, c.m.loops.getLast? = some o → l.stop.toNat ≤ o.stop.toNat
    s.me.cancelDue s.now = false ∧ f.h.fst = 0 ∧ f.h.lst = 0 ∧ ¬fits ∧ c.m.queue ≠ []) ∧
    (let f : MF := mf
    let s : State := sM cM
    let s2 := s.mKeep (.mdrainRdv f)
    let d := s2.me
    s.me.cancelDue s.now = false ∧ f.h.fst = 0 ∧ f.h.lst = 0 ∧ d.m.ctl.rdv = none ∧ d.m.rdvQueued = false ∧ d.m.queue.length < 16) :=
  by refine ⟨?_, ?_, ?_, ?_, ?_⟩ <;> exact byKernel (letI := @exceptDec; letI := @eqGet; letI := @notQuickDec; letI := @chkDec; letI := @quickDec; letI : DecidableEq MSrc := inferInstanceAs (DecidableEq (List (Nat × Pieces))); inferInstance) (by decide +kernel)

/-- The hypotheses of MCommandStarts are met. -/
theorem witness_MCommandStarts :
    (let s : State := sM (cGo (.maccwr mfT))
    let e : MEntry := mEnt (.maccwr mfT)
    let q : List MEntry := [mEnt (.msem mf)]
    let h : MHead := mhT
    let s0 := s.setMe s.me
    let r := s.me.mRun e h
    let t := match s0.mTests r with | .error (.trap t) => t | _ => { cause := .trap }
    s.me.canIssue .m s.now = true ∧ s.me.m.queue = e :: q ∧ mHead e.instr = some h ∧ (h.fpx = 0 ∨ e.foot = true) ∧ s.me.mReady e h = true ∧ (h.wcnt ≠ 0 → h.wcnt.toNat ≤ s.me.semAt h.wid.toNat ∧ s.semEarlier [.c, .v] h.wid.toNat = false ∧ s.me.semStage h.wid.toNat s.now ≤ 5) ∧ ((∃ f, e.instr = .msem f ∨ e.instr = .mdrain f ∨ e.instr = .mdrainRdv f) → h.scnt = 0 ∨ s.me.semStage h.sid.toNat s.now ≤ 2) ∧ s0.mTests r = .error (.trap t)) ∧
    (let s : State := sM (cGo (.msem mfW))
    let e : MEntry := mEnt (.msem mfW)
    let q : List MEntry := [mEnt (.msem mf)]
    let h : MHead := mhW
    let s0 := s.setMe s.me
    let r := s.me.mRun e h
    let c0 := if h.wcnt = 0 then s.me else { s.me.semMark h.wid.toNat 5 s.now with sem := tset 0 s.me.sem h.wid.toNat (BitVec.ofNat 16 (s.me.semAt h.wid.toNat - h.wcnt.toNat)), seen := seenMore s.me.seen 3 (tget 0 s.me.semSeen h.wid.toNat) }
    let c := { c0 with m := { c0.m with queue := q } }
    let f := mfW
    s.me.canIssue .m s.now = true ∧ s.me.m.queue = e :: q ∧ mHead e.instr = some h ∧ (h.fpx = 0 ∨ e.foot = true) ∧ s.me.mReady e h = true ∧ (h.wcnt ≠ 0 → h.wcnt.toNat ≤ s.me.semAt h.wid.toNat ∧ s.semEarlier [.c, .v] h.wid.toNat = false ∧ s.me.semStage h.wid.toNat s.now ≤ 5) ∧ ((∃ f, e.instr = .msem f ∨ e.instr = .mdrain f ∨ e.instr = .mdrainRdv f) → h.scnt = 0 ∨ s.me.semStage h.sid.toNat s.now ≤ 2) ∧ s0.mTests r = .ok () ∧ (e.instr = .msem f ∨ e.instr = .mdrain f)) ∧
    (let s : State := sM (cGo (.mdrainRdv mfW))
    let e : MEntry := mEnt (.mdrainRdv mfW)
    let q : List MEntry := [mEnt (.msem mf)]
    let h : MHead := mhW
    let s0 := s.setMe s.me
    let r := s.me.mRun e h
    let c0 := if h.wcnt = 0 then s.me else { s.me.semMark h.wid.toNat 5 s.now with sem := tset 0 s.me.sem h.wid.toNat (BitVec.ofNat 16 (s.me.semAt h.wid.toNat - h.wcnt.toNat)), seen := seenMore s.me.seen 3 (tget 0 s.me.semSeen h.wid.toNat) }
    let c := { c0 with m := { c0.m with queue := q } }
    let f := mfW
    s.me.canIssue .m s.now = true ∧ s.me.m.queue = e :: q ∧ mHead e.instr = some h ∧ (h.fpx = 0 ∨ e.foot = true) ∧ s.me.mReady e h = true ∧ (h.wcnt ≠ 0 → h.wcnt.toNat ≤ s.me.semAt h.wid.toNat ∧ s.semEarlier [.c, .v] h.wid.toNat = false ∧ s.me.semStage h.wid.toNat s.now ≤ 5) ∧ ((∃ f, e.instr = .msem f ∨ e.instr = .mdrain f ∨ e.instr = .mdrainRdv f) → h.scnt = 0 ∨ s.me.semStage h.sid.toNat s.now ≤ 2) ∧ s0.mTests r = .ok () ∧ e.instr = .mdrainRdv f) ∧
    (let s : State := sM (cGo (.mbase mfW))
    let e : MEntry := mEnt (.mbase mfW)
    let q : List MEntry := [mEnt (.msem mf)]
    let h : MHead := mhW
    let s0 := s.setMe s.me
    let r := s.me.mRun e h
    let c0 := if h.wcnt = 0 then s.me else { s.me.semMark h.wid.toNat 5 s.now with sem := tset 0 s.me.sem h.wid.toNat (BitVec.ofNat 16 (s.me.semAt h.wid.toNat - h.wcnt.toNat)), seen := seenMore s.me.seen 3 (tget 0 s.me.semSeen h.wid.toNat) }
    let c := { c0 with m := { c0.m with queue := q } }
    let f := mfW
    s.me.canIssue .m s.now = true ∧ s.me.m.queue = e :: q ∧ mHead e.instr = some h ∧ (h.fpx = 0 ∨ e.foot = true) ∧ s.me.mReady e h = true ∧ (h.wcnt ≠ 0 → h.wcnt.toNat ≤ s.me.semAt h.wid.toNat ∧ s.semEarlier [.c, .v] h.wid.toNat = false ∧ s.me.semStage h.wid.toNat s.now ≤ 5) ∧ ((∃ f, e.instr = .msem f ∨ e.instr = .mdrain f ∨ e.instr = .mdrainRdv f) → h.scnt = 0 ∨ s.me.semStage h.sid.toNat s.now ≤ 2) ∧ s0.mTests r = .ok () ∧ e.instr = .mbase f) ∧
    (let s : State := sM (cGo (.mrow mf))
    let e : MEntry := mEnt (.mrow mf)
    let q : List MEntry := [mEnt (.msem mf)]
    let h : MHead := mh0
    let s0 := s.setMe s.me
    let r := s.me.mRun e h
    let c0 := if h.wcnt = 0 then s.me else { s.me.semMark h.wid.toNat 5 s.now with sem := tset 0 s.me.sem h.wid.toNat (BitVec.ofNat 16 (s.me.semAt h.wid.toNat - h.wcnt.toNat)), seen := seenMore s.me.seen 3 (tget 0 s.me.semSeen h.wid.toNat) }
    let c := { c0 with m := { c0.m with queue := q } }
    s.me.canIssue .m s.now = true ∧ s.me.m.queue = e :: q ∧ mHead e.instr = some h ∧ (h.fpx = 0 ∨ e.foot = true) ∧ s.me.mReady e h = true ∧ (h.wcnt ≠ 0 → h.wcnt.toNat ≤ s.me.semAt h.wid.toNat ∧ s.semEarlier [.c, .v] h.wid.toNat = false ∧ s.me.semStage h.wid.toNat s.now ≤ 5) ∧ ((∃ f, e.instr = .msem f ∨ e.instr = .mdrain f ∨ e.instr = .mdrainRdv f) → h.scnt = 0 ∨ s.me.semStage h.sid.toNat s.now ≤ 2) ∧ s0.mTests r = .ok () ∧ (∀ f, e.instr ≠ .msem f ∧ e.instr ≠ .mdrain f ∧ e.instr ≠ .mdrainRdv f ∧ e.instr ≠ .mbase f ∧ e.instr ≠ .mseed f ∧ e.instr ≠ .mcimldMem f)) ∧
    (let s : State := sImmM (cGo (.mseed mf5))
    let e : MEntry := mEnt (.mseed mf5)
    let q : List MEntry := [mEnt (.msem mf)]
    let h : MHead := mh5
    let s0 := s.setMe s.me
    let r := s.me.mRun e h
    let c0 := if h.wcnt = 0 then s.me else { s.me.semMark h.wid.toNat 5 s.now with sem := tset 0 s.me.sem h.wid.toNat (BitVec.ofNat 16 (s.me.semAt h.wid.toNat - h.wcnt.toNat)), seen := seenMore s.me.seen 3 (tget 0 s.me.semSeen h.wid.toNat) }
    let c := { c0 with m := { c0.m with queue := q } }
    let s1 := s0.setMe c
    let f := mf5
    let l := okM (s1.mSrc r)
    let v := s1.viewed l.pieces
    s.me.canIssue .m s.now = true ∧ s.me.m.queue = e :: q ∧ mHead e.instr = some h ∧ (h.fpx = 0 ∨ e.foot = true) ∧ s.me.mReady e h = true ∧ (h.wcnt ≠ 0 → h.wcnt.toNat ≤ s.me.semAt h.wid.toNat ∧ s.semEarlier [.c, .v] h.wid.toNat = false ∧ s.me.semStage h.wid.toNat s.now ≤ 5) ∧ ((∃ f, e.instr = .msem f ∨ e.instr = .mdrain f ∨ e.instr = .mdrainRdv f) → h.scnt = 0 ∨ s.me.semStage h.sid.toNat s.now ≤ 2) ∧ s0.mTests r = .ok () ∧ (e.instr = .mseed f ∨ e.instr = .mcimldMem f) ∧ s1.mSrc r = .ok l) ∧
    (let s : State := sImmM (cGo (.mcimldMem mf5))
    let e : MEntry := mEnt (.mcimldMem mf5)
    let q : List MEntry := [mEnt (.msem mf)]
    let h : MHead := mh5
    let s0 := s.setMe s.me
    let r := s.me.mRun e h
    let c0 := if h.wcnt = 0 then s.me else { s.me.semMark h.wid.toNat 5 s.now with sem := tset 0 s.me.sem h.wid.toNat (BitVec.ofNat 16 (s.me.semAt h.wid.toNat - h.wcnt.toNat)), seen := seenMore s.me.seen 3 (tget 0 s.me.semSeen h.wid.toNat) }
    let c := { c0 with m := { c0.m with queue := q } }
    let s1 := s0.setMe c
    let f := mf5
    let l := okM (s1.mSrc r)
    let v := s1.viewed l.pieces
    s.me.canIssue .m s.now = true ∧ s.me.m.queue = e :: q ∧ mHead e.instr = some h ∧ (h.fpx = 0 ∨ e.foot = true) ∧ s.me.mReady e h = true ∧ (h.wcnt ≠ 0 → h.wcnt.toNat ≤ s.me.semAt h.wid.toNat ∧ s.semEarlier [.c, .v] h.wid.toNat = false ∧ s.me.semStage h.wid.toNat s.now ≤ 5) ∧ ((∃ f, e.instr = .msem f ∨ e.instr = .mdrain f ∨ e.instr = .mdrainRdv f) → h.scnt = 0 ∨ s.me.semStage h.sid.toNat s.now ≤ 2) ∧ s0.mTests r = .ok () ∧ (e.instr = .mseed f ∨ e.instr = .mcimldMem f) ∧ s1.mSrc r = .ok l) ∧
    (let s : State := sImmM (cGo (.mcimldMem mf5))
    let e : MEntry := mEnt (.mcimldMem mf5)
    let q : List MEntry := [mEnt (.msem mf)]
    let h : MHead := mh5
    let s0 := s.setMe s.me
    let r := s.me.mRun e h
    let c0 := if h.wcnt = 0 then s.me else { s.me.semMark h.wid.toNat 5 s.now with sem := tset 0 s.me.sem h.wid.toNat (BitVec.ofNat 16 (s.me.semAt h.wid.toNat - h.wcnt.toNat)), seen := seenMore s.me.seen 3 (tget 0 s.me.semSeen h.wid.toNat) }
    let c := { c0 with m := { c0.m with queue := q } }
    let f := mf5
    s.me.canIssue .m s.now = true ∧ s.me.m.queue = e :: q ∧ mHead e.instr = some h ∧ (h.fpx = 0 ∨ e.foot = true) ∧ s.me.mReady e h = true ∧ (h.wcnt ≠ 0 → h.wcnt.toNat ≤ s.me.semAt h.wid.toNat ∧ s.semEarlier [.c, .v] h.wid.toNat = false ∧ s.me.semStage h.wid.toNat s.now ≤ 5) ∧ ((∃ f, e.instr = .msem f ∨ e.instr = .mdrain f ∨ e.instr = .mdrainRdv f) → h.scnt = 0 ∨ s.me.semStage h.sid.toNat s.now ≤ 2) ∧ s0.mTests r = .ok () ∧ e.instr = .mcimldMem f) ∧
    (let s : State := sImmM (cGo (.mseed mf5))
    let e : MEntry := mEnt (.mseed mf5)
    let q : List MEntry := [mEnt (.msem mf)]
    let h : MHead := mh5
    let s0 := s.setMe s.me
    let r := s.me.mRun e h
    let c0 := if h.wcnt = 0 then s.me else { s.me.semMark h.wid.toNat 5 s.now with sem := tset 0 s.me.sem h.wid.toNat (BitVec.ofNat 16 (s.me.semAt h.wid.toNat - h.wcnt.toNat)), seen := seenMore s.me.seen 3 (tget 0 s.me.semSeen h.wid.toNat) }
    let c := { c0 with m := { c0.m with queue := q } }
    let s1 := s0.setMe c
    let l : MSrc := okM (s1.virtRows [(r.ea, 64)])
    let f := mf5
    s.me.canIssue .m s.now = true ∧ s.me.m.queue = e :: q ∧ mHead e.instr = some h ∧ (h.fpx = 0 ∨ e.foot = true) ∧ s.me.mReady e h = true ∧ (h.wcnt ≠ 0 → h.wcnt.toNat ≤ s.me.semAt h.wid.toNat ∧ s.semEarlier [.c, .v] h.wid.toNat = false ∧ s.me.semStage h.wid.toNat s.now ≤ 5) ∧ ((∃ f, e.instr = .msem f ∨ e.instr = .mdrain f ∨ e.instr = .mdrainRdv f) → h.scnt = 0 ∨ s.me.semStage h.sid.toNat s.now ≤ 2) ∧ s0.mTests r = .ok () ∧ e.instr = .mseed f ∧ s1.virtRows [(r.ea, 64)] = .ok l) :=
  by refine ⟨?_, ?_, ?_, ?_, ?_, ?_, ?_, ?_, ?_⟩ <;> exact byKernel (letI := @exceptDec; letI := @eqGet; letI := @notQuickDec; letI := @chkDec; letI := @quickDec; letI : DecidableEq MSrc := inferInstanceAs (DecidableEq (List (Nat × Pieces))); inferInstance) (by decide +kernel)

/-- The hypotheses of MCommandCompletes are met. -/
theorem witness_MCommandCompletes :
    (let s : State := sRead
    let r : MRun := rRead
    let h : MHead := mh0
    let run := if s.me.m.run.any (fun x => x.units.contains .gen) then s.me.m.run else s.me.m.run.map fun x => if x.ent.id = r.ent.id then { x with reading := false } else x
    s.me.m.run.find? (fun x => x.ent.id == s.ev.id) = some r ∧ s.me.dead = false ∧ s.me.job.isSome = true ∧ s.me.m.oldest r = true ∧ s.me.cancelDue s.now = false ∧ mHead r.ent.instr = some h ∧ r.reading = true) ∧
    (let s : State := sRun (.mchk mkf)
    let r : MRun := mRn (.mchk mkf)
    let h : MHead := mh0
    let run := if s.me.m.run.any (fun x => x.units.contains .gen) then s.me.m.run else s.me.m.run.map fun x => if x.ent.id = r.ent.id then { x with reading := false } else x
    s.me.m.run.find? (fun x => x.ent.id == s.ev.id) = some r ∧ s.me.dead = false ∧ s.me.job.isSome = true ∧ s.me.m.oldest r = true ∧ s.me.cancelDue s.now = false ∧ mHead r.ent.instr = some h ∧ r.reading = false ∧ (h.scnt = 0 ∨ s.me.semStage h.sid.toNat s.now ≤ 2) ∧ (∀ k, r.ent.instr = .mchk k → s.mchkTest k = none)) ∧
    (let s : State := sRun (.mrow mf)
    let r : MRun := mRn (.mrow mf)
    let h : MHead := mh0
    let run := if s.me.m.run.any (fun x => x.units.contains .gen) then s.me.m.run else s.me.m.run.map fun x => if x.ent.id = r.ent.id then { x with reading := false } else x
    s.me.m.run.find? (fun x => x.ent.id == s.ev.id) = some r ∧ s.me.dead = false ∧ s.me.job.isSome = true ∧ s.me.m.oldest r = true ∧ s.me.cancelDue s.now = false ∧ mHead r.ent.instr = some h ∧ r.reading = false ∧ (h.scnt = 0 ∨ s.me.semStage h.sid.toNat s.now ≤ 2) ∧ (∀ k, r.ent.instr = .mchk k → s.mchkTest k = none)) ∧
    (let p : Nat := 3
    p ≤ 39) ∧
    (let seed : Nat := 5
    let t := 9
    seed < 2 ^ 32 ∧ t < 8192) ∧
    (let f : MF := mf
    let r : MRun := mRn (.mternSeed mf)
    r.ent.instr = .mternSeed f) ∧
    (let f : MF := mf
    let r : MRun := mRn (.mternCim mf)
    r.ent.instr = .mternCim f) ∧
    (let f : MF := mf
    let r : MRun := mRn (.mternTile mf)
    r.ent.instr = .mternTile f) ∧
    (let f : MF := mf
    let r : MRun := mRn (.mfp mf)
    r.ent.instr = .mfp f) ∧
    (let f : MF := mfX
    let r : MRun := mRn (.mfp mfX)
    let t := f.q 32 5
    r.ent.instr = .mfp f ∧ 9 ≤ t ∧ t ≤ 13) ∧
    (let f : MF := mf
    let r : MRun := mRn (.mfp mf)
    let t := f.q 32 5
    r.ent.instr = .mfp f ∧ (f.q 37 1 = 0 ∨ f.i 0 16 + 1 ≤ tagLanes t)) ∧
    (let f : MF := mf
    let r : MRun := mRn (.maccz mf)
    r.ent.instr = .maccz f) :=
  by refine ⟨?_, ?_, ?_, ?_, ?_, ?_, ?_, ?_, ?_, ?_, ?_, ?_⟩ <;> exact byKernel (letI := @exceptDec; letI := @eqGet; letI := @notQuickDec; letI := @chkDec; letI := @quickDec; letI : DecidableEq MSrc := inferInstanceAs (DecidableEq (List (Nat × Pieces))); inferInstance) (by decide +kernel)
/-- The hypotheses of MCommandCompletes are met. -/
theorem witness_MCommandCompletes_2 :
    (let f : MF := mf
    let r : MRun := mRn (.maccrd mf)
    r.ent.instr = .maccrd f) ∧
    (let f : MF := mf
    let r : MRun := mRn (.maccwr mf)
    r.ent.instr = .maccwr f) ∧
    (let f : MkF := mkf
    let r : MRun := mRn (.mscan mkf)
    r.ent.instr = .mscan f) ∧
    (let f : MF := mf
    let r : MRun := mRn (.mrow mf)
    r.ent.instr = .mrow f) ∧
    (let f : MF := mf
    let r : MRun := mRn (.mrow mf)
    let n := 9
    r.ent.instr = .mrow f ∧ (∀ i, i ≤ r.da.rows.toNat → n ≠ f.i 0 6 + i)) ∧
    (let f : MF := mf
    let r : MRun := mRn (.mrow mf)
    let i := 0
    r.ent.instr = .mrow f ∧ i ≤ r.da.rows.toNat) ∧
    (let f : MF := mf
    let r : MRun := mRn (.mseed mf)
    r.ent.instr = .mseed f) ∧
    (let f : MF := mf
    let r : MRun := mRn (.mseed mf)
    let n := 9
    r.ent.instr = .mseed f ∧ n ≠ r.buf) ∧
    (let f : MF := mf
    let r : MRun := mRn (.mseed mf)
    let w := r.seen
    let kp := w / 2 ^ 32 % 8 + 1
    let k := 0
    let n := 9
    r.ent.instr = .mseed f ∧ k < kp ∧ n < 128) ∧
    (let f : MF := mf
    let r : MRun := mRn (.mcimldMem mf)
    r.ent.instr = .mcimldMem f) ∧
    (let f : MF := mf
    let r : MRun := mRn (.mcimldMem mf)
    let n := 9
    r.ent.instr = .mcimldMem f ∧ n ≠ f.i 0 4) ∧
    (let f : MF := mf
    let r : MRun := mRn (.mcimldMem mf)
    let i := 9
    r.ent.instr = .mcimldMem f ∧ i < 8192) :=
  by refine ⟨?_, ?_, ?_, ?_, ?_, ?_, ?_, ?_, ?_, ?_, ?_, ?_⟩ <;> exact byKernel (letI := @exceptDec; letI := @eqGet; letI := @notQuickDec; letI := @chkDec; letI := @quickDec; letI : DecidableEq MSrc := inferInstanceAs (DecidableEq (List (Nat × Pieces))); inferInstance) (by decide +kernel)
/-- The hypotheses of MCommandCompletes are met. -/
theorem witness_MCommandCompletes_3 :
    (let f : MF := mf
    let r : MRun := mRn (.mcimldBasis mf)
    r.ent.instr = .mcimldBasis f) ∧
    (let f : MF := mf
    let r : MRun := mRn (.mcimldBasis mf)
    let n := 9
    r.ent.instr = .mcimldBasis f ∧ n ≠ f.i 0 4) ∧
    (let f : MF := mf
    let r : MRun := mRn (.mcimldBasis mf)
    let j := 5
    let n := 9
    r.ent.instr = .mcimldBasis f ∧ j < 64 ∧ n < 128) ∧
    (let f : MF := mf
    let r : MRun := mRn (.mtest mf)
    r.ent.instr = .mtest f) ∧
    (let p : MUnit := .tern
    let q : Nat := 1
    (p = .tern ∨ p = .fp) ∧ q < 4) ∧
    (let p : MUnit := .tern
    let q : Nat := 1
    let k := 2
    (p = .tern ∨ p = .fp) ∧ q < 4 ∧ k < 4) ∧
    (let s : State := sM cM
    let p : MUnit := .fp
    let q : Nat := 3
    (p = .tern ∨ p = .fp) ∧ q < 4 ∧ (s.pkgAt s.myPkg).log.length < 4096) ∧
    (let k : MkF := mkf
    let r : MRun := mRn (.mchk mkf)
    r.ent.instr = .mchk k) :=
  by refine ⟨?_, ?_, ?_, ?_, ?_, ?_, ?_, ?_⟩ <;> exact byKernel (letI := @exceptDec; letI := @eqGet; letI := @notQuickDec; letI := @chkDec; letI := @quickDec; letI : DecidableEq MSrc := inferInstanceAs (DecidableEq (List (Nat × Pieces))); inferInstance) (by decide +kernel)

/-- The hypotheses of MEvents are met. -/
theorem witness_MEvents :
    (let s : State := sRun (.mchk mkBad)
    let r : MRun := mRn (.mchk mkBad)
    let k : MkF := mkBad
    let t : Trap := mTrap
    s.me.m.run.find? (fun x => x.ent.id == s.ev.id) = some r ∧ s.me.dead = false ∧ s.me.job.isSome = true ∧ s.me.m.oldest r = true ∧ s.me.cancelDue s.now = false ∧ r.reading = false ∧ (∀ h, mHead (.mchk k) = some h → h.scnt = 0 ∨ s.me.semStage h.sid.toNat s.now ≤ 2) ∧ r.ent.instr = .mchk k ∧ s.mchkTest k = some t ∧ t.cause = .gaugeFail ∧ s.me.phase = none ∧ s.me.inh = false) ∧
    (let s : State := sCanc
    let t : Nat := 9
    let g : Option (BitVec 4) := some 3
    let l : List (Nat × Option (BitVec 4)) := [(12, none)]
    s.me.m.cancels = (t, g) :: l ∧ t < s.now) ∧
    (let s : State := sTest .ternary
    let pl : MUnit := match s.ev.pl with | .ternary => .tern | .fp => .fp
    s.me.job.isSome = true ∧ s.me.dead = false ∧ s.me.m.testDue pl = true ∧ s.me.m.run.any (fun r => r.units.contains pl) = false) ∧
    (let s : State := sTest .fp
    let pl : MUnit := match s.ev.pl with | .ternary => .tern | .fp => .fp
    s.me.job.isSome = true ∧ s.me.dead = false ∧ s.me.m.testDue pl = true ∧ s.me.m.run.any (fun r => r.units.contains pl) = false) :=
  by refine ⟨?_, ?_, ?_, ?_⟩ <;> exact byKernel (letI := @exceptDec; letI := @eqGet; letI := @notQuickDec; letI := @chkDec; letI := @quickDec; letI : DecidableEq MSrc := inferInstanceAs (DecidableEq (List (Nat × Pieces))); inferInstance) (by decide +kernel)

/-! Flumes, weirs, roles and phases. -/

def ownDec (t : Target) : Decidable (∃ o qs, t = .own o qs) :=
  match t with
  | .own o qs => isTrue ⟨o, qs, rfl⟩
  | .mem _ => isFalse fun ⟨_, _, e⟩ => nomatch e
  | .peer .. => isFalse fun ⟨_, _, e⟩ => nomatch e
def peerDec (t : Target) : Decidable (∀ win pkg n off rs, t ≠ .peer win pkg n off rs) :=
  match t with
  | .peer a b c d e => isFalse fun h => h a b c d e rfl
  | .own _ _ => isTrue fun _ _ _ _ _ e => nomatch e
  | .mem _ => isTrue fun _ _ _ _ _ e => nomatch e
def headDec {α : Type} (l : List α) (P : α → List α → Prop) [∀ x y, Decidable (P x y)] : Decidable (∀ a t, l = a :: t → P a t) :=
  match l with
  | [] => isTrue fun _ _ e => nomatch e
  | a :: t => if h : P a t then isTrue fun _ _ e => (List.cons.inj e).1 ▸ (List.cons.inj e).2 ▸ h else isFalse fun g => h (g a t rfl)
theorem range_iff {a b : Nat} {P : Nat → Prop} :
    (∀ i, i < b + 1 - a → P (a + i)) ↔ ∀ g, a ≤ g → g ≤ b → P g := by
  constructor
  · intro h g h1 h2
    have := h (g - a) (by omega)
    rwa [Nat.add_sub_cancel' h1] at this
  · intro h i hi
    exact h _ (by omega) (by omega)
def rangeDec (a b : Nat) (P : Nat → Prop) [∀ x, Decidable (P x)] : Decidable (∀ g, a ≤ g → g ≤ b → P g) :=
  decidable_of_iff _ range_iff
def strE : DirEntry := { sys := false, ctx := 1, role := .str }
def immE : DirEntry := { sys := false, ctx := 1, role := .imm }
def fl0 : Flume := { base := apAddr 5 0x40000, slotBits := 256, slotsM1 := 3, valid := true }
def flB : W64 := 0x7E00000000040000
def cFl : Core := { coreM with
  c := { ctl := { started := true, pc := 96 }, g := [(3, flB), (4, flB + 256), (5, 256), (6, 4), (7, 64)] }
  a := { ctl := { started := true }, a := [(3, flB), (4, flB + 256)] }, roles := [(8, strE), (9, strE), (4096, acc0)] }
def sFl (f : Flume) : State := { st cFl with flumes := [(granKey 0 (apAddr 5 0x40000), f)] }
def flAt : FlAt := okOf ((sFl fl0).flumeAt .c .w flB.toNat)
def flAt1 : FlAt := okOf ((sFl fl0).flumeAt .c .w (flB + 256).toNat)
def prod (f : Flume) (n : Nat) : Flume := { f with pv := true, pcore := 5, pstr := n }
def cons (f : Flume) (n : Nat) : Flume := { f with cv := true, ccore := 5, cstr := n }
def flUsed (n : Nat) : Flume := { cons (prod fl0 n) n with tail := 3, head := 1, held := 1, claimed := 0, filled := [(1, true), (2, true)] }
def flClaimed (n : Nat) : Flume := { cons (prod fl0 n) n with tail := 3, head := 1, held := 0, claimed := 2 }
def flFull (n : Nat) : Flume := { cons (prod fl0 n) n with tail := 5, head := 1, held := 0, claimed := 4 }
def sFlOwed : State := { sFl (flClaimed 0) with
  cores := [(5, { cFl with owed := [{ id := 1, src := 0, win := 17, pkg := 0, lo := apAddr 5 0x40100, hi := apAddr 5 0x40200, stamp := 0 }] })] }
def flW : W64 := 0x7C00000040040000
def flFar : Flume := { flUsed 0 with base := apAddr 6 0x40000 }
def cFar : Core := { cFl with c := { cFl.c with g := [(3, flW), (4, 64), (6, flW + 256)] } }
def sFlFar : State := { st cFar with cores := [(5, cFar), (6, cFl)], flumes := [(granKey 0 (apAddr 6 0x40000), flFar)] }
def flAtFar : FlAt := okOf (sFlFar.flumeAt .c .r flW.toNat)
def flFarC : Flume := { flClaimed 0 with base := apAddr 6 0x40000 }
def sFlFarC : State := { sFlFar with flumes := [(granKey 0 (apAddr 6 0x40000), flFarC)] }
def sFlGot : State := st { cFl with sent := some 3, reply := some (77, none) }
def pPut : FlPut := { pkg := 0, base := apAddr 5 0x40000, slot := 1, lo := apAddr 5 0x40100, len := 256 }
def put1 : CrF := cr 3 4 5 1
def pgX : TlbEntry := { ctx := 1, va := 0, size := 19, pa := 0x100000, swz := 0, r := true, w := false, x := true, add := false }
def claimWord : Nat := ((encode (.flclaim (cr 3 0 5))).map (·.2)).getD 0
def sFlWait : State := { st { cFl with tlb := [pgX], c := { cFl.c with ctl := { cFl.c.ctl with wait := some { since := 3, kind := .sync } } } } with
  mem := memSetBits [] (0x100000 + 96) 48 claimWord, dir := [(32, immE)], flumes := [(granKey 0 (apAddr 5 0x40000), fl0)] }
def csW : CsF := { g := g0, sub := 3, sys := 0x00008A }
def csWr : CsF := { csW with sys := 0x0000AA }
def sWeir (c : Core) (w : Weir) : State := { st c with weirs := [(weirKey 5 2 1, w)], ctxs := [(1, { weirs := [(2, 0xFF)] })], ev := { id := weirKey 5 2 1 } }
def cW : Core := { coreM with c := { ctl := { started := true, pc := 96 }, g := [(3, 5)] }, stamp := 9 }
def cWcopy : Core := { cW with a := { ctl := { started := true }, copies := [{ kCp with id := 3 }] }, marks := [{ id := 2, done := true, a := true, v := false, m := false, stamp := 5 }] }
def rgB : W64 := 0x7E00000000010000
def accB : W64 := 0x7E00000008000000
def hdB : W64 := 0x10000000
def pgH : TlbEntry := { ctx := 1, va := 0x10000000, size := 19, pa := 0x100000, swz := 0, r := true, w := false, x := true, add := false }
def phHdr : Nat := 480 + 2 ^ 64 * 320 + 2 ^ 256 * 0x7E00000000040000 + 2 ^ 480 * 5
def cRg : Core := { core0 with
  tlb := [pg0, pgH] 
  c := { ctl := { started := true, pc := 96 }, g := [(3, rgB), (4, 0x10000), (5, hdB), (6, 0x8000), (7, accB), (8, 0x1A)] }
  a := { ctl := { started := true } }, sem := [(2, 3)] }
def sRg (c : Core) : State := { st c (memSetBits [] 0x100000 512 phHdr) with dir := [(16, own0), (32, immE)] }
def rcFn (x frm all : Nat) : Nat := x + 8 * frm + 512 * all
def cHeld : Core := { cRg with roles := [(3, { own0 with held := true }), (4096, acc0)] }
def pasOf (s : State) (f : CrF) : List Nat × BitVec 3 × BitVec 6 := okOf (s.recastTests f.fn (s.cSrc f.qa f.ra) (s.cSrc f.qb f.rb) (s.cg f.rd.toNat))
def rcR (x : Role) : RecastRun :=
  { va := rgB.toNat, grans := [apAddr 5 0x10000, apAddr 5 0x18000], role := x, mode := 2, point := 3, stamp := 5, copies := [], cmds := [] }
def sRec (x : Role) : State := sRg { cRg with recast := some (rcR x) }
def sRecOwed : State := sRg { cRg with
  recast := some (rcR .imm), owed := [{ id := 1, src := 0, win := 17, pkg := 0, lo := apAddr 5 0x10100, hi := apAddr 5 0x10200, stamp := 0 }] }
def fRec : CrF := cr 3 4 0 (rcFn 1 4 0)
def fRecAcc : CrF := cr 7 6 8 (rcFn 3 0 1)
def ph0 : Phase :=
  { hdr := 0, va := rgB, entry := [480, 320, 0, 0], region := [0x10000, 0x18000], shadow := [0x40000, 0x48000], insrc := 0, indst := 0, incnt := 0,
    inwc := 0, dirty := [(0, true), (3, true)], sems := [(1, 2)] }
def sPh : State := sRg { cRg with phase := some ph0 }
def csP (n : Nat) : CsF := { g := g0, sub := BitVec.ofNat 5 n, sys := 0 }
def pd0 : Period := { entry := immE, bits := 0x1234, psn := 5 }
def rcD : RecastRun := { rcR .str with grans := [0x100000], scope := 4 }
def sRpl (core : Nat) : State := { sRg cRg with replicas := [(32, [{ pd0 with cuts := [(3, core)] }])], dir := [(32, immE)] }
def ab1 : Abort := { err := true, st := .a, trap := none, g5 := 99, stage := 1 }

/-- The hypotheses of FlumeWords are met. -/
theorem witness_FlumeWords :
    (let f : CrF := cr 3 4 5
    let r : ArF := arA
    let s : State := sFl (prod fl0 2)
    let a : FlAt := flAt
    let fl : Flume := prod fl0 2
    let st : Str := .c
    let base : W64 := flB
    let q1 := CrQ f true false
    (st = .c ∧ guardOn f.g s.cg = true ∧ base = s.cSrc f.qa f.ra ∧ s.cReady q1 (qName f.qd f.rd) = .ok () ∨ st = .a ∧ s.me.a.ckpts = [] ∧ base = s.aSrc r.aa ∧ s.aReady (aSrcQ r.aa.toNat) (aDstQ r.ad.toNat) = .ok ()) ∧ s.flume st .w base = .ok (a, fl) ∧ fl.pv = true ∧ fl.producer s.cur st = false) ∧
    (let f : CrF := cr 3 4 5
    let r : ArF := arA
    let s : State := sFl (prod fl0 2)
    let a : FlAt := flAt
    let fl : Flume := prod fl0 2
    let st : Str := .a
    let base : W64 := flB
    let q1 := CrQ f true false
    (st = .c ∧ guardOn f.g s.cg = true ∧ base = s.cSrc f.qa f.ra ∧ s.cReady q1 (qName f.qd f.rd) = .ok () ∨ st = .a ∧ s.me.a.ckpts = [] ∧ base = s.aSrc r.aa ∧ s.aReady (aSrcQ r.aa.toNat) (aDstQ r.ad.toNat) = .ok ()) ∧ s.flume st .w base = .ok (a, fl) ∧ fl.pv = true ∧ fl.producer s.cur st = false) ∧
    (let f : CrF := cr 3 4 5
    let r : ArF := arA
    let s : State := sFl (fl0)
    let a : FlAt := flAt
    let fl : Flume := fl0
    let st : Str := .c
    let base : W64 := flB
    let q1 := CrQ f true false
    let g : Flume := { fl with pv := true, ppkg := pkgOf s.cur, pcore := numOf s.cur, pstr := st.num, tail := fl.tail + 1, claimed := fl.claimed + 1 }
    (st = .c ∧ guardOn f.g s.cg = true ∧ base = s.cSrc f.qa f.ra ∧ s.cReady q1 (qName f.qd f.rd) = .ok () ∨ st = .a ∧ s.me.a.ckpts = [] ∧ base = s.aSrc r.aa ∧ s.aReady (aSrcQ r.aa.toNat) (aDstQ r.ad.toNat) = .ok ()) ∧ s.flume st .w base = .ok (a, fl) ∧ (fl.pv = false ∨ fl.producer s.cur st = true) ∧ fl.used < fl.slots) ∧
    (let f : CrF := cr 3 4 5
    let r : ArF := arA
    let s : State := sFl (flUsed 1)
    let a : FlAt := flAt
    let fl : Flume := flUsed 1
    let st : Str := .a
    let base : W64 := flB
    let q1 := CrQ f true false
    let g : Flume := { fl with pv := true, ppkg := pkgOf s.cur, pcore := numOf s.cur, pstr := st.num, tail := fl.tail + 1, claimed := fl.claimed + 1 }
    (st = .c ∧ guardOn f.g s.cg = true ∧ base = s.cSrc f.qa f.ra ∧ s.cReady q1 (qName f.qd f.rd) = .ok () ∨ st = .a ∧ s.me.a.ckpts = [] ∧ base = s.aSrc r.aa ∧ s.aReady (aSrcQ r.aa.toNat) (aDstQ r.ad.toNat) = .ok ()) ∧ s.flume st .w base = .ok (a, fl) ∧ (fl.pv = false ∨ fl.producer s.cur st = true) ∧ fl.used < fl.slots) ∧
    (let f : CrF := cr 3 4 5
    let r : ArF := arA
    let s : State := sFl (flFull 0)
    let a : FlAt := flAt
    let fl : Flume := flFull 0
    let st : Str := .c
    let base : W64 := flB
    let q1 := CrQ f true false
    let g : Flume := { fl with pv := true, ppkg := pkgOf s.cur, pcore := numOf s.cur, pstr := st.num, tail := fl.tail + 1, claimed := fl.claimed + 1 }
    (st = .c ∧ guardOn f.g s.cg = true ∧ base = s.cSrc f.qa f.ra ∧ s.cReady q1 (qName f.qd f.rd) = .ok () ∨ st = .a ∧ s.me.a.ckpts = [] ∧ base = s.aSrc r.aa ∧ s.aReady (aSrcQ r.aa.toNat) (aDstQ r.ad.toNat) = .ok ()) ∧ s.flume st .w base = .ok (a, fl) ∧ (fl.pv = false ∨ fl.producer s.cur st = true) ∧ fl.slots ≤ fl.used) ∧
    (let f : CrF := cr 3 4 5
    let r : ArF := arA
    let s : State := sFl (cons fl0 2)
    let a : FlAt := flAt
    let fl : Flume := cons fl0 2
    let st : Str := .a
    let base : W64 := flB
    let q1 := CrQ f true false
    (st = .c ∧ guardOn f.g s.cg = true ∧ base = s.cSrc f.qa f.ra ∧ s.cReady q1 (qName f.qd f.rd) = .ok () ∨ st = .a ∧ s.me.a.ckpts = [] ∧ base = s.aSrc r.aa ∧ s.aReady (aSrcQ r.aa.toNat) (aDstQ r.ad.toNat) = .ok ()) ∧ s.flume st .r base = .ok (a, fl) ∧ fl.cv = true ∧ fl.consumer s.cur st = false) ∧
    (let f : CrF := cr 3 4 5
    let r : ArF := arA
    let s : State := sFl (cons fl0 2)
    let a : FlAt := flAt
    let fl : Flume := cons fl0 2
    let st : Str := .c
    let base : W64 := flB
    let q1 := CrQ f true false
    (st = .c ∧ guardOn f.g s.cg = true ∧ base = s.cSrc f.qa f.ra ∧ s.cReady q1 (qName f.qd f.rd) = .ok () ∨ st = .a ∧ s.me.a.ckpts = [] ∧ base = s.aSrc r.aa ∧ s.aReady (aSrcQ r.aa.toNat) (aDstQ r.ad.toNat) = .ok ()) ∧ s.flume st .r base = .ok (a, fl) ∧ fl.cv = true ∧ fl.consumer s.cur st = false) ∧
    (let f : CrF := cr 3 4 5
    let r : ArF := arA
    let s : State := sFl ({ flUsed 0 with held := 0 })
    let a : FlAt := flAt
    let fl : Flume := { flUsed 0 with held := 0 }
    let st : Str := .c
    let base : W64 := flB
    let q1 := CrQ f true false
    let n := fl.head.toNat + fl.held
    let g : Flume := { fl with cv := true, cpkg := pkgOf s.cur, ccore := numOf s.cur, cstr := st.num, held := fl.held + 1 }
    (st = .c ∧ guardOn f.g s.cg = true ∧ base = s.cSrc f.qa f.ra ∧ s.cReady q1 (qName f.qd f.rd) = .ok () ∨ st = .a ∧ s.me.a.ckpts = [] ∧ base = s.aSrc r.aa ∧ s.aReady (aSrcQ r.aa.toNat) (aDstQ r.ad.toNat) = .ok ()) ∧ s.flume st .r base = .ok (a, fl) ∧ (fl.cv = false ∨ fl.consumer s.cur st = true) ∧ fl.held < fl.used ∧ fl.isFilled (n % fl.slots) = true) ∧
    (let f : CrF := cr 3 4 5
    let r : ArF := arA
    let s : State := sFl ({ flUsed 1 with held := 1 })
    let a : FlAt := flAt
    let fl : Flume := { flUsed 1 with held := 1 }
    let st : Str := .a
    let base : W64 := flB
    let q1 := CrQ f true false
    let n := fl.head.toNat + fl.held
    let g : Flume := { fl with cv := true, cpkg := pkgOf s.cur, ccore := numOf s.cur, cstr := st.num, held := fl.held + 1 }
    (st = .c ∧ guardOn f.g s.cg = true ∧ base = s.cSrc f.qa f.ra ∧ s.cReady q1 (qName f.qd f.rd) = .ok () ∨ st = .a ∧ s.me.a.ckpts = [] ∧ base = s.aSrc r.aa ∧ s.aReady (aSrcQ r.aa.toNat) (aDstQ r.ad.toNat) = .ok ()) ∧ s.flume st .r base = .ok (a, fl) ∧ (fl.cv = false ∨ fl.consumer s.cur st = true) ∧ fl.held < fl.used ∧ fl.isFilled (n % fl.slots) = true) ∧
    (let f : CrF := cr 3 4 5
    let r : ArF := arA
    let s : State := sFl (flClaimed 0)
    let a : FlAt := flAt
    let fl : Flume := flClaimed 0
    let st : Str := .c
    let base : W64 := flB
    let q1 := CrQ f true false
    let n := fl.head.toNat + fl.held
    let g : Flume := { fl with cv := true, cpkg := pkgOf s.cur, ccore := numOf s.cur, cstr := st.num, held := fl.held + 1 }
    (st = .c ∧ guardOn f.g s.cg = true ∧ base = s.cSrc f.qa f.ra ∧ s.cReady q1 (qName f.qd f.rd) = .ok () ∨ st = .a ∧ s.me.a.ckpts = [] ∧ base = s.aSrc r.aa ∧ s.aReady (aSrcQ r.aa.toNat) (aDstQ r.ad.toNat) = .ok ()) ∧ s.flume st .r base = .ok (a, fl) ∧ (fl.cv = false ∨ fl.consumer s.cur st = true) ∧ (fl.used ≤ fl.held ∨ fl.isFilled (n % fl.slots) = false)) ∧
    (let f : CrF := cr 3 4 5
    let r : ArF := arA
    let s : State := sFl (flUsed 0)
    let a : FlAt := flAt
    let fl : Flume := flUsed 0
    let st : Str := .c
    let base : W64 := flB
    let q1 := CrQ f true false
    (st = .c ∧ guardOn f.g s.cg = true ∧ base = s.cSrc f.qa f.ra ∧ s.cReady q1 (qName f.qd f.rd) = .ok () ∨ st = .a ∧ s.me.a.ckpts = [] ∧ base = s.aSrc r.aa ∧ s.aReady (aSrcQ r.aa.toNat) (aDstQ r.ad.toNat) = .ok ()) ∧ s.flume st .r base = .ok (a, fl) ∧ st = .c) ∧
    (let f : CrF := cr 3 4 5
    let r : ArF := arA
    let s : State := sFl (flUsed 0)
    let a : FlAt := flAt
    let b : FlAt := flAt1
    let fl : Flume := flUsed 0
    let st : Str := .c
    let base : W64 := flB
    let slot : W64 := flB + 256
    let q1 := CrQ f true false
    let q2 := CrQ f true true
    let i := 1
    (st = .c ∧ guardOn f.g s.cg = true ∧ base = s.cSrc f.qa f.ra ∧ s.cReady q1 (qName f.qd f.rd) = .ok () ∨ st = .a ∧ s.me.a.ckpts = [] ∧ base = s.aSrc r.aa ∧ s.aReady (aSrcQ r.aa.toNat) (aDstQ r.ad.toNat) = .ok ()) ∧ (st = .c → slot = s.cSrc f.qb f.rb ∧ s.cReady q2 [] = .ok ()) ∧ (st = .a → slot = s.aSrc r.ab ∧ s.aReady (if aSrcQ r.aa.toNat = aSrcQ r.ab.toNat then aSrcQ r.aa.toNat else aSrcQ r.aa.toNat ++ aSrcQ r.ab.toNat) [] = .ok ()) ∧ s.flumeSlot st .w base slot = .ok (a, fl, b, i)) :=
  by refine ⟨?_, ?_, ?_, ?_, ?_, ?_, ?_, ?_, ?_, ?_, ?_, ?_⟩ <;> exact byKernel (letI := @exceptDec; letI := @ownDec; letI := @peerDec; letI := @rangeDec; letI := @headDec; inferInstance) (by decide +kernel)
/-- The hypotheses of FlumeWords are met. -/
theorem witness_FlumeWords_2 :
    (let f : CrF := cr 3 4 5
    let r : ArF := arA
    let s : State := sFl (flUsed 1)
    let a : FlAt := flAt
    let b : FlAt := flAt1
    let fl : Flume := flUsed 1
    let st : Str := .a
    let base : W64 := flB
    let slot : W64 := flB + 256
    let q1 := CrQ f true false
    let q2 := CrQ f true true
    let i := 1
    (st = .c ∧ guardOn f.g s.cg = true ∧ base = s.cSrc f.qa f.ra ∧ s.cReady q1 (qName f.qd f.rd) = .ok () ∨ st = .a ∧ s.me.a.ckpts = [] ∧ base = s.aSrc r.aa ∧ s.aReady (aSrcQ r.aa.toNat) (aDstQ r.ad.toNat) = .ok ()) ∧ (st = .c → slot = s.cSrc f.qb f.rb ∧ s.cReady q2 [] = .ok ()) ∧ (st = .a → slot = s.aSrc r.ab ∧ s.aReady (if aSrcQ r.aa.toNat = aSrcQ r.ab.toNat then aSrcQ r.aa.toNat else aSrcQ r.aa.toNat ++ aSrcQ r.ab.toNat) [] = .ok ()) ∧ s.flumeSlot st .w base slot = .ok (a, fl, b, i)) ∧
    (let f : CrF := cr 3 4 5
    let r : ArF := arA
    let s : State := sFl (flClaimed 0)
    let a : FlAt := flAt
    let b : FlAt := flAt1
    let fl : Flume := flClaimed 0
    let st : Str := .c
    let base : W64 := flB
    let slot : W64 := flB + 256
    let q1 := CrQ f true false
    let q2 := CrQ f true true
    let i := 1
    (st = .c ∧ guardOn f.g s.cg = true ∧ base = s.cSrc f.qa f.ra ∧ s.cReady q1 (qName f.qd f.rd) = .ok () ∨ st = .a ∧ s.me.a.ckpts = [] ∧ base = s.aSrc r.aa ∧ s.aReady (aSrcQ r.aa.toNat) (aDstQ r.ad.toNat) = .ok ()) ∧ (st = .c → slot = s.cSrc f.qb f.rb ∧ s.cReady q2 [] = .ok ()) ∧ (st = .a → slot = s.aSrc r.ab ∧ s.aReady (if aSrcQ r.aa.toNat = aSrcQ r.ab.toNat then aSrcQ r.aa.toNat else aSrcQ r.aa.toNat ++ aSrcQ r.ab.toNat) [] = .ok ()) ∧ s.flumeSlot st .w base slot = .ok (a, fl, b, i) ∧ f.fn.getLsbD 0 = false ∧ s.me.put = none) ∧
    (let f : CrF := cr 3 4 5
    let r : ArF := arA
    let s : State := sFl (flClaimed 1)
    let a : FlAt := flAt
    let b : FlAt := flAt1
    let fl : Flume := flClaimed 1
    let st : Str := .a
    let base : W64 := flB
    let slot : W64 := flB + 256
    let q1 := CrQ f true false
    let q2 := CrQ f true true
    let i := 1
    (st = .c ∧ guardOn f.g s.cg = true ∧ base = s.cSrc f.qa f.ra ∧ s.cReady q1 (qName f.qd f.rd) = .ok () ∨ st = .a ∧ s.me.a.ckpts = [] ∧ base = s.aSrc r.aa ∧ s.aReady (aSrcQ r.aa.toNat) (aDstQ r.ad.toNat) = .ok ()) ∧ (st = .c → slot = s.cSrc f.qb f.rb ∧ s.cReady q2 [] = .ok ()) ∧ (st = .a → slot = s.aSrc r.ab ∧ s.aReady (if aSrcQ r.aa.toNat = aSrcQ r.ab.toNat then aSrcQ r.aa.toNat else aSrcQ r.aa.toNat ++ aSrcQ r.ab.toNat) [] = .ok ()) ∧ s.flumeSlot st .w base slot = .ok (a, fl, b, i) ∧ f.fn.getLsbD 0 = false ∧ s.me.put = none) :=
  by refine ⟨?_, ?_, ?_⟩ <;> exact byKernel (letI := @exceptDec; letI := @ownDec; letI := @peerDec; letI := @rangeDec; letI := @headDec; inferInstance) (by decide +kernel)

/-- The hypotheses of FlumeSetup are met. -/
theorem witness_FlumeSetup :
    (let f : CrF := cr 3 6 5
    let s : State := sFl {}
    let a : FlAt := flAt
    let gs : List FlAt := []
    let qs := CrQ f true true
    let base := s.cSrc f.qa f.ra
    let bits := (s.cg f.rd.toNat).toNat
    let count := (s.cSrc f.qb f.rb).toNat
    guardOn f.g s.cg = true ∧ s.cReady qs [] = .ok () ∧ bits % 128 = 0 ∧ 128 ≤ bits ∧ bits ≤ 2 ^ 20 ∧ 1 ≤ count ∧ count ≤ 65536 ∧ s.flumeAts .c .w (s.granVas base.toNat (count * bits)) = .ok (a :: gs) ∧ a.pa % 128 = 0 ∧ base.toNat % 128 = 0 ∧ (∀ g ∈ a :: gs, (s.roleAt g.pkg g.pa).role = .str ∧ (s.roleAt g.pkg g.pa).ctx = s.job.rcd.ctx) ∧ ((s.flumeOf a).valid = true → (s.flumeOf a).used = 0) ∧ ((s.flumeOf a).valid = true ∨ s.flumeRoom a = true)) ∧
    (let f : CrF := cr 3 6 5
    let s : State := sFl (cons fl0 0)
    let a : FlAt := flAt
    let gs : List FlAt := []
    let qs := CrQ f true true
    let base := s.cSrc f.qa f.ra
    let bits := (s.cg f.rd.toNat).toNat
    let count := (s.cSrc f.qb f.rb).toNat
    guardOn f.g s.cg = true ∧ s.cReady qs [] = .ok () ∧ bits % 128 = 0 ∧ 128 ≤ bits ∧ bits ≤ 2 ^ 20 ∧ 1 ≤ count ∧ count ≤ 65536 ∧ s.flumeAts .c .w (s.granVas base.toNat (count * bits)) = .ok (a :: gs) ∧ a.pa % 128 = 0 ∧ base.toNat % 128 = 0 ∧ (∀ g ∈ a :: gs, (s.roleAt g.pkg g.pa).role = .str ∧ (s.roleAt g.pkg g.pa).ctx = s.job.rcd.ctx) ∧ ((s.flumeOf a).valid = true → (s.flumeOf a).used = 0) ∧ ((s.flumeOf a).valid = true ∨ s.flumeRoom a = true)) ∧
    (let n : Nat := 3
    0 < n) ∧
    (let f : CrF := put1
    let s : State := sFl (flClaimed 0)
    let a : FlAt := flAt
    let b : FlAt := flAt1
    let fl : Flume := flClaimed 0
    let i : Nat := 1
    let qs := CrQ f true true
    let base := s.cSrc f.qa f.ra
    let slot := s.cSrc f.qb f.rb
    let ps := cuts b.pa 64
    let local_ := ∀ win pkg n o rs, b.t ≠ .peer win pkg n o rs
    guardOn f.g s.cg = true ∧ f.fn.getLsbD 0 = true ∧ s.cReady qs [] = .ok () ∧ s.flumeSlot .c .w base slot = .ok (a, fl, b, i) ∧ fl.producer s.cur .c = true ∧ fl.isClaimed i = true ∧ s.me.put = none ∧ local_ ∧ s.rolePieces s.cur s.job s.myPkg ps .wr = true) ∧
    (let f : CrF := put1
    let s : State := { sFl (flClaimed 0) with cores := [(5, { cFl with roles := [(8, acc0)] })] }
    let a : FlAt := flAt
    let b : FlAt := flAt1
    let fl : Flume := flClaimed 0
    let i : Nat := 1
    let qs := CrQ f true true
    let base := s.cSrc f.qa f.ra
    let slot := s.cSrc f.qb f.rb
    let ps := cuts b.pa 64
    let local_ := ∀ win pkg n o rs, b.t ≠ .peer win pkg n o rs
    guardOn f.g s.cg = true ∧ f.fn.getLsbD 0 = true ∧ s.cReady qs [] = .ok () ∧ s.flumeSlot .c .w base slot = .ok (a, fl, b, i) ∧ fl.producer s.cur .c = true ∧ fl.isClaimed i = true ∧ s.me.put = none ∧ local_ ∧ s.rolePieces s.cur s.job s.myPkg ps .wr = false) ∧
    (let f : CrF := cr 3 6 5 1
    let s : State := sFlFarC
    let a : FlAt := flAtFar
    let b : FlAt := okOf (sFlFarC.flumeAt .c .w (flW + 256).toNat)
    let fl : Flume := flFarC
    let i : Nat := 1
    let qs := CrQ f true true
    let base := s.cSrc f.qa f.ra
    let slot := s.cSrc f.qb f.rb
    let win := 1
    let pkg := 0
    let n := 6
    let o := 0x40100
    let rs := [(0x40100, 1)]
    guardOn f.g s.cg = true ∧ f.fn.getLsbD 0 = true ∧ s.cReady qs [] = .ok () ∧ s.flumeSlot .c .w base slot = .ok (a, fl, b, i) ∧ fl.producer s.cur .c = true ∧ fl.isClaimed i = true ∧ s.me.put = none ∧ b.t = .peer win pkg n o rs) ∧
    (let f : CrF := put1
    let s : State := { sFl (flClaimed 0) with cores := [(5, { cFl with put := some pPut })] }
    let p : FlPut := pPut
    guardOn f.g s.cg = true ∧ s.me.put = some p) ∧
    (let f : CrF := cr 3 0 5
    let s : State := sFl (flUsed 0)
    let a : FlAt := flAt
    let fl : Flume := flUsed 0
    let qs := CrQ f true true
    let base := s.cSrc f.qa f.ra
    let o := (s.cSrc f.qb f.rb).toNat
    let pa := fl.base + fl.head.toNat % fl.slots * fl.slotBits + o
    guardOn f.g s.cg = true ∧ s.cReady qs (qName f.qd f.rd) = .ok () ∧ s.me.sent = none ∧ s.flume .c .r base = .ok (a, fl) ∧ fl.consumer s.cur .c = true ∧ fl.held ≠ 0 ∧ o % 64 = 0 ∧ o + 64 ≤ fl.slotBits ∧ (∀ win pkg n off rs, a.t ≠ .peer win pkg n off rs) ∧ s.rolePieces s.cur s.job s.myPkg (cuts pa 64) .rd = true) ∧
    (let f : CrF := cr 3 4 5
    let s : State := sFlFar
    let a : FlAt := flAtFar
    let fl : Flume := flFar
    let qs := CrQ f true true
    let base := s.cSrc f.qa f.ra
    let o := (s.cSrc f.qb f.rb).toNat
    let pa := fl.base + fl.head.toNat % fl.slots * fl.slotBits + o
    let va := (base + BitVec.ofNat 64 (fl.head.toNat % fl.slots * fl.slotBits)).toNat + o
    let win := 1
    let pkg := 0
    let n := 6
    let off := 0x40000
    let rs := [(0x40000, 1)]
    let m := s.newMsg s.cur .read pkg n [{ at_ := off + (pa - fl.base), w := 64, val := 0 }] (.stream .c) 0 win (BitVec.ofNat 64 va)
    let t := s.post s.cur m
    guardOn f.g s.cg = true ∧ s.cReady qs (qName f.qd f.rd) = .ok () ∧ s.me.sent = none ∧ s.flume .c .r base = .ok (a, fl) ∧ fl.consumer s.cur .c = true ∧ fl.held ≠ 0 ∧ o % 64 = 0 ∧ o + 64 ≤ fl.slotBits ∧ a.t = .peer win pkg n off rs ∧ s.me.canSend win = true) ∧
    (let f : CrF := cr 3 4 5
    let s : State := sFlGot
    let v : Nat := 77
    guardOn f.g s.cg = true ∧ s.me.sent.isSome = true ∧ s.me.reply = some (v, none)) ∧
    (let f : CrF := cr 3 4 5
    let v : Nat := 77
    let t : Trap := { cause := .roleFault, info := 5 }
    let s : State := st { cFl with sent := some 3, reply := some (77, some t) }
    guardOn f.g s.cg = true ∧ s.me.sent.isSome = true ∧ s.me.reply = some (v, some t)) ∧
    (let s : State := sFl fl0
    let st := s.ev.st
    (s.me.canIssue st s.now = false ∨ (s.ctl st).wait = none)) :=
  by refine ⟨?_, ?_, ?_, ?_, ?_, ?_, ?_, ?_, ?_, ?_, ?_, ?_⟩ <;> exact byKernel (letI := @exceptDec; letI := @ownDec; letI := @peerDec; letI := @rangeDec; letI := @headDec; inferInstance) (by decide +kernel)
/-- The hypotheses of FlumeSetup are met. -/
theorem witness_FlumeSetup_a :
    let s : State := sFlWait
    let i : Instr := .flclaim (cr 3 0 5)
    (s.me.canIssue s.ev.st s.now = true ∧ (s.ctl s.ev.st).wait.isSome = true ∧ s.wordAt s.ev.st = .ok claimWord ∧ decode s.ev.st claimWord = .ok i) ∧
      (∃ f r, i ∈ [Instr.flclaim f, .flfill f, .flwaitf f, .flwaitr f, .flrel f, .aflclaim r, .aflfill r, .aflwaitf r, .aflrel r]) ∧ ∃ t, exec i s = .next t :=
  ⟨byKernel (letI := @exceptDec; inferInstance) (by decide +kernel), ⟨cr 3 0 5, arA, by simp⟩, _, rfl⟩

/-- The hypotheses of FencesAndWeirs are met. -/
theorem witness_FencesAndWeirs :
    (let f : CsF := csW
    let s : State := sWeir cW {}
    let id := (f.sys.extractLsb' 0 3).toNat
    let free := ∀ k ∈ s.me.marks, k.id = id → s.me.atHead k = true
    guardOn f.g s.cg = true ∧ free) ∧
    (let f : CsF := csW
    let s : State := sWeir cWcopy {}
    let id := (f.sys.extractLsb' 0 3).toNat
    let free := ∀ k ∈ s.me.marks, k.id = id → s.me.atHead k = true
    guardOn f.g s.cg = true ∧ ¬free) ∧
    (let f : CsF := csW
    let s : State := sWeir cW { n := 3 }
    let k := weirKey 5 2 1
    guardOn f.g s.cg = true ∧ s.weirOf f = .ok k) ∧
    (let f : CsF := csW
    let s : State := sWeir cW { n := 3, arr := 2, gen := 4, rel := 4 }
    let k := weirKey 5 2 1
    let w := s.weirAt k
    let may := w.n ≠ 0 ∧ (f.wRel = 1 → s.me.owesRel s.cur = false)
    guardOn f.g s.cg = true ∧ s.weirOf f = .ok k ∧ may) ∧
    (let f : CsF := csWr
    let s : State := sWeir cW { n := 3, arr := 1, gen := 4, rel := 4 }
    let k := weirKey 5 2 1
    let w := s.weirAt k
    let may := w.n ≠ 0 ∧ (f.wRel = 1 → s.me.owesRel s.cur = false)
    guardOn f.g s.cg = true ∧ s.weirOf f = .ok k ∧ may) ∧
    (let f : CsF := csW
    let s : State := sWeir cW {}
    let k := weirKey 5 2 1
    let w := s.weirAt k
    guardOn f.g s.cg = true ∧ s.weirOf f = .ok k ∧ w.n = 0) ∧
    (let f : CsF := csWr
    let s : State := sWeir { cW with owed := [{ id := 1, src := 0, win := 17, pkg := 0, lo := 0, hi := 128, stamp := 0 }] } { n := 3 }
    let k := weirKey 5 2 1
    let w := s.weirAt k
    guardOn f.g s.cg = true ∧ s.weirOf f = .ok k ∧ w.n ≠ 0 ∧ f.wRel = 1 ∧ s.me.owesRel s.cur = true) ∧
    (let f : CsF := csW
    let s : State := sWeir cW { n := 3 }
    let k := weirKey 5 2 1
    let w := s.weirAt k
    let may := w.n ≠ 0 ∧ (f.wRel = 1 → s.me.owesRel s.cur = false)
    guardOn f.g s.cg = true ∧ s.weirOf f = .ok k ∧ may ∧ (s.me.sarr = false ∨ s.me.sarrAt ≠ (s.ctl .c).pc)) ∧
    (let f : CsF := csW
    let s : State := sWeir { cW with sarr := true, sarrAt := 96, sgen := some 6 } { n := 3 }
    let k := weirKey 5 2 1
    let v := s.cg f.sub.toNat
    let g := 6
    guardOn f.g s.cg = true ∧ s.weirOf f = .ok k ∧ s.me.sarr = true ∧ s.me.sarrAt = (s.ctl .c).pc ∧ g = s.me.sgen.getD v) ∧
    (let s : State := { sWeir cW { n := 3, gen := 5, rel := 4, comps := [(5, 8)] } with now := 20 }
    let g := 5
    let t0 := 8
    let l := []
    let time := 12
    (s.weirAt s.ev.id).comps = (g, t0) :: l ∧ (s.ev.id / 2 ^ 40, time) ∈ [(1, 2), (2, 12), (3, 60), (4, 250), (5, 6000)]) :=
  by refine ⟨?_, ?_, ?_, ?_, ?_, ?_, ?_, ?_, ?_, ?_⟩ <;> exact byKernel (letI := @exceptDec; letI := @ownDec; letI := @peerDec; letI := @rangeDec; letI := @headDec; inferInstance) (by decide +kernel)

/-- The hypotheses of RecastAndWait are met. -/
theorem witness_RecastAndWait :
    (let f : CrF := fRec
    let s : State := sRg cRg
    let pas : List Nat := (pasOf (sRg cRg) f).1
    let l1 : List Nat := risingOf pas
    let l2 : List Nat := []
    let m : BitVec 3 := (pasOf s f).2.1
    let p : BitVec 6 := (pasOf s f).2.2
    let qs := CrQ f true true
    let base := s.cSrc f.qa f.ra
    let ext := s.cSrc f.qb f.rb
    let tests := s.recastTests f.fn base ext (s.cg f.rd.toNat)
    let held (pa : Nat) : Bool := (s.roleAt s.myPkg pa).held
    let c := s.me
    guardOn f.g s.cg = true ∧ (∀ pa ∈ l1, held pa = false) ∧ (∀ pa l, l2 = pa :: l → held pa = true) ∧ c.recast = none ∧ s.cReady qs [] = .ok () ∧ tests = .ok (pas, m, p) ∧ risingOf pas = l1 ++ l2) ∧
    (let f : CrF := fRecAcc
    let s : State := sRg cRg
    let pas : List Nat := (pasOf (sRg cRg) f).1
    let l1 : List Nat := risingOf pas
    let l2 : List Nat := []
    let m : BitVec 3 := (pasOf s f).2.1
    let p : BitVec 6 := (pasOf s f).2.2
    let qs := CrQ f true true
    let base := s.cSrc f.qa f.ra
    let ext := s.cSrc f.qb f.rb
    let tests := s.recastTests f.fn base ext (s.cg f.rd.toNat)
    let held (pa : Nat) : Bool := (s.roleAt s.myPkg pa).held
    let c := s.me
    guardOn f.g s.cg = true ∧ (∀ pa ∈ l1, held pa = false) ∧ (∀ pa l, l2 = pa :: l → held pa = true) ∧ c.recast = none ∧ s.cReady qs [] = .ok () ∧ tests = .ok (pas, m, p) ∧ risingOf pas = l1 ++ l2) ∧
    (let f : CrF := fRec
    let s : State := sRg cHeld
    let pas : List Nat := (pasOf (sRg cRg) f).1
    let l1 : List Nat := [apAddr 5 0x10000]
    let l2 : List Nat := [apAddr 5 0x18000]
    let m : BitVec 3 := (pasOf s f).2.1
    let p : BitVec 6 := (pasOf s f).2.2
    let qs := CrQ f true true
    let base := s.cSrc f.qa f.ra
    let ext := s.cSrc f.qb f.rb
    let tests := s.recastTests f.fn base ext (s.cg f.rd.toNat)
    let held (pa : Nat) : Bool := (s.roleAt s.myPkg pa).held
    let c := s.me
    guardOn f.g s.cg = true ∧ (∀ pa ∈ l1, held pa = false) ∧ (∀ pa l, l2 = pa :: l → held pa = true) ∧ c.recast = none ∧ s.cReady qs [] = .ok () ∧ tests = .ok (pas, m, p) ∧ risingOf pas = l1 ++ l2) ∧
    (let f : CrF := fRec
    let s : State := sRg cRg
    let pas : List Nat := (pasOf (sRg cRg) f).1
    let l1 : List Nat := risingOf pas
    let l2 : List Nat := []
    let m : BitVec 3 := (pasOf s f).2.1
    let p : BitVec 6 := (pasOf s f).2.2
    let qs := CrQ f true true
    let base := s.cSrc f.qa f.ra
    let ext := s.cSrc f.qb f.rb
    let tests := s.recastTests f.fn base ext (s.cg f.rd.toNat)
    let c := s.me
    let pa := apAddr 5 0x18000
    let held (pa : Nat) : Bool := (s.roleAt s.myPkg pa).held
    guardOn f.g s.cg = true ∧ (∀ pa ∈ l1, held pa = false) ∧ (∀ pa l, l2 = pa :: l → held pa = true) ∧ c.recast = none ∧ s.cReady qs [] = .ok () ∧ tests = .ok (pas, m, p) ∧ risingOf pas = l1 ++ l2) ∧
    (let f : CrF := fRec
    let s : State := sRg cRg
    let pas : List Nat := (pasOf (sRg cRg) f).1
    let l1 : List Nat := risingOf pas
    let l2 : List Nat := []
    let m : BitVec 3 := (pasOf s f).2.1
    let p : BitVec 6 := (pasOf s f).2.2
    let qs := CrQ f true true
    let base := s.cSrc f.qa f.ra
    let ext := s.cSrc f.qb f.rb
    let tests := s.recastTests f.fn base ext (s.cg f.rd.toNat)
    let c := s.me
    let pa := apAddr 5 0x18000
    let held (pa : Nat) : Bool := (s.roleAt s.myPkg pa).held
    guardOn f.g s.cg = true ∧ (∀ pa ∈ l1, held pa = false) ∧ (∀ pa l, l2 = pa :: l → held pa = true) ∧ c.recast = none ∧ s.cReady qs [] = .ok () ∧ tests = .ok (pas, m, p) ∧ risingOf pas = l1 ++ l2 ∧ f.fn.getLsbD 9 = false) ∧
    (let f : CrF := fRec
    let l1 : List Nat := []
    let l2 : List Nat := []
    let r := rcR .imm
    let s : State := sRg { cRg with recast := some r }
    let held (pa : Nat) : Bool := (s.roleAt s.myPkg pa).held
    let c := s.me
    guardOn f.g s.cg = true ∧ (∀ pa ∈ l1, held pa = false) ∧ (∀ pa l, l2 = pa :: l → held pa = true) ∧ c.recast = some r ∧ r.todo = l1 ++ l2 ∧ (c.running s.now = true ∨ c.inh = true) ∧ (∀ pa ∈ r.todo, pa % 32768 = 0) ∧ r.todo.Pairwise (· < ·) ∧ (r.todo = [] ∨ l1 = [])) ∧
    (let f : CrF := fRec
    let l1 : List Nat := [apAddr 5 0x18000]
    let l2 : List Nat := []
    let r := { rcR .imm with todo := [apAddr 5 0x18000] }
    let s : State := sRg { cRg with recast := some r }
    let pas : List Nat := (pasOf s f).1
    let m : BitVec 3 := (pasOf s f).2.1
    let p : BitVec 6 := (pasOf s f).2.2
    let base := s.cSrc f.qa f.ra
    let ext := s.cSrc f.qb f.rb
    let tests := s.recastTests f.fn base ext (s.cg f.rd.toNat)
    let held (pa : Nat) : Bool := (s.roleAt s.myPkg pa).held
    let c := s.me
    guardOn f.g s.cg = true ∧ (∀ pa ∈ l1, held pa = false) ∧ (∀ pa l, l2 = pa :: l → held pa = true) ∧ c.recast = some r ∧ r.todo = l1 ++ l2 ∧ (c.running s.now = true ∨ c.inh = true) ∧ (∀ pa ∈ r.todo, pa % 32768 = 0) ∧ r.todo.Pairwise (· < ·) ∧ l1 ≠ [] ∧ tests = .ok (pas, m, p)) ∧
    (let f : CrF := cr 3 4 0 (rcFn 1 3 0)
    let l1 : List Nat := [apAddr 5 0x18000]
    let l2 : List Nat := []
    let r := { rcR .imm with todo := [apAddr 5 0x18000] }
    let s : State := sRg { cRg with recast := some r }
    let base := s.cSrc f.qa f.ra
    let ext := s.cSrc f.qb f.rb
    let tests := s.recastTests f.fn base ext (s.cg f.rd.toNat)
    let held (pa : Nat) : Bool := (s.roleAt s.myPkg pa).held
    let c := s.me
    let t := match tests with | .error (.trap t) => t | _ => { cause := .trap }
    guardOn f.g s.cg = true ∧ (∀ pa ∈ l1, held pa = false) ∧ (∀ pa l, l2 = pa :: l → held pa = true) ∧ c.recast = some r ∧ r.todo = l1 ++ l2 ∧ (c.running s.now = true ∨ c.inh = true) ∧ (∀ pa ∈ r.todo, pa % 32768 = 0) ∧ r.todo.Pairwise (· < ·) ∧ l1 ≠ [] ∧ tests = .error (.trap t)) ∧
    (let s : State := sRecOwed
    let r : RecastRun := rcR .imm
    s.me.recast = some r ∧ (r.todo ≠ [] ∨ s.announced r = true)) ∧
    (let s : State := sRec .str
    let r : RecastRun := rcR .str
    s.me.recast = some r ∧ r.todo = [] ∧ s.announced r = false) ∧
    (let s : State := sRec .imm
    let r : RecastRun := rcR .imm
    s.me.recast = some r ∧ r.role = .imm) :=
  by refine ⟨?_, ?_, ?_, ?_, ?_, ?_, ?_, ?_, ?_, ?_, ?_⟩ <;> exact byKernel (letI := @exceptDec; letI := @ownDec; letI := @peerDec; letI := @rangeDec; letI := @headDec; inferInstance) (by decide +kernel)
/-- The hypotheses of RecastAndWait are met. -/
theorem witness_RecastAndWait_2 :
    (let s : State := sRec .str
    let r : RecastRun := rcR .str
    s.me.recast = some r ∧ r.role = .str) ∧
    (let s : State := sRec .acc
    let r : RecastRun := rcR .acc
    s.me.recast = some r ∧ r.role = .acc) ∧
    (let s : State := sRec .prv
    let r : RecastRun := rcR .prv
    let e : DirEntry := acc0
    s.me.recast = some r ∧ r.role = .prv ∧ e.role ≠ .prv) ∧
    (let f : CrF := cr 3 8 0 4
    let s : State := sRg cRg
    let qs := CrQ f true true
    let b := (s.cSrc f.qa f.ra).toNat
    let n := (s.cSrc f.qb f.rb).toNat
    guardOn f.g s.cg = true ∧ s.cReady qs [] = .ok () ∧ (¬(b % 32768 = 0 ∧ n % 32768 = 0 ∧ n ≤ 2 ^ 40))) ∧
    (let f : CrF := cr 3 4 0 4
    let s : State := sRg cRg
    let pas : List Nat := [apAddr 5 0x10000, apAddr 5 0x18000]
    let qs := CrQ f true true
    let b := (s.cSrc f.qa f.ra).toNat
    let n := (s.cSrc f.qb f.rb).toNat
    let passes := ∀ pa ∈ pas, (s.roleAt s.myPkg pa).role = roleOf (f.fn.extractLsb' 0 3).toNat ∧ (s.roleAt s.myPkg pa).held = false
    guardOn f.g s.cg = true ∧ s.cReady qs [] = .ok () ∧ b % 32768 = 0 ∧ n % 32768 = 0 ∧ n ≤ 2 ^ 40 ∧ s.regionPas .r b n = .ok pas ∧ passes) ∧
    (let f : CrF := cr 3 4 0 1
    let s : State := sRg cRg
    let pas : List Nat := [apAddr 5 0x10000, apAddr 5 0x18000]
    let qs := CrQ f true true
    let b := (s.cSrc f.qa f.ra).toNat
    let n := (s.cSrc f.qb f.rb).toNat
    let passes := ∀ pa ∈ pas, (s.roleAt s.myPkg pa).role = roleOf (f.fn.extractLsb' 0 3).toNat ∧ (s.roleAt s.myPkg pa).held = false
    guardOn f.g s.cg = true ∧ s.cReady qs [] = .ok () ∧ b % 32768 = 0 ∧ n % 32768 = 0 ∧ n ≤ 2 ^ 40 ∧ s.regionPas .r b n = .ok pas ∧ ¬passes) :=
  by refine ⟨?_, ?_, ?_, ?_, ?_, ?_⟩ <;> exact byKernel (letI := @exceptDec; letI := @ownDec; letI := @peerDec; letI := @rangeDec; letI := @headDec; inferInstance) (by decide +kernel)

/-- The hypotheses of StaleReplicas are met. -/
theorem witness_StaleReplicas :
    (let r : RecastRun := rcD
    let pa : Nat := 0x100000
    r.grans = [pa]) ∧
    (let s : State := sRpl 5
    let r : RecastRun := rcD
    let pa : Nat := 0x100000
    let k := roleKey s.myPkg pa
    let j := 0
    r.grans = [pa] ∧ j ≠ k) ∧
    (let s : State := sRpl 100
    let a : Nat := 0x100100
    let n : Nat := 64
    let l : Pieces := [(0x100180, 8)]
    (∀ q ∈ l, q.1 / 32768 = a / 32768) ∧ s.denied ((a, n) :: l) = []) ∧
    (let n : Nat := 6
    let o : Nat := 128
    let d : Nat := 3
    n < 768 ∧ o < 2 ^ 30 ∧ d < 8) :=
  by refine ⟨?_, ?_, ?_, ?_⟩ <;> exact byKernel (letI := @exceptDec; letI := @ownDec; letI := @peerDec; letI := @rangeDec; letI := @headDec; inferInstance) (by decide +kernel)
/-- The hypotheses of StaleReplicas are met. -/
theorem witness_StaleReplicas_a :
    let s : State := sRg cRg
    let l : Pieces := [(0x100180, 8)]
    let can (p : Period) : Prop := p ∈ tget [] s.replicas (roleKey s.myPkg 0x100100) ∧ ∀ c ∈ p.cuts, outOfScope c.1 c.2 s.cur = true
    (∀ q ∈ l, q.1 / 32768 = 0x100100 / 32768) ∧ s.denied ((0x100100, 64) :: l) = [] ∧ ∀ p, ¬can p :=
  ⟨by decide, by decide +kernel, fun _ h => nomatch h.1⟩
/-- The hypotheses of StaleReplicas are met. -/
theorem witness_StaleReplicas_b :
    let s : State := sRpl 100
    let l : Pieces := [(0x100180, 8)]
    let can (p : Period) : Prop := p ∈ tget [] s.replicas (roleKey s.myPkg 0x100100) ∧ ∀ c ∈ p.cuts, outOfScope c.1 c.2 s.cur = true
    (∀ q ∈ l, q.1 / 32768 = 0x100100 / 32768) ∧ s.denied ((0x100100, 64) :: l) = [] ∧ ∃ p, can p :=
  ⟨by decide, by decide +kernel, { pd0 with cuts := [(3, 100)] }, by decide +kernel⟩

/-- The hypotheses of Phases are met. -/
theorem witness_Phases :
    (let f : CrF := cr 3 4 5
    let s : State := sRg cRg
    let hps : Pieces := (List.range 4).map fun i => (0x100000 + 128 * i, 128)
    let sw : Bool := false
    let reg : List Nat := [apAddr 5 0x10000, apAddr 5 0x18000]
    let shd : List Nat := [apAddr 5 0x40000, apAddr 5 0x48000]
    let o : List Nat := [0x10000, 0x18000]
    let q : List Nat := [0x40000, 0x48000]
    let qs := CrQ f true true
    let va := s.cSrc f.qa f.ra
    let ext := (s.cSrc f.qb f.rb).toNat
    let hva := s.cg f.rd.toNat
    let n := min ((ext + 32767) / 32768) 257
    let v := s.viewed hps
    let h := v.rdPieces s.myPkg hps
    let es := [nbits h 0 64, nbits h 64 64, nbits h 128 64, nbits h 192 64]
    let sva := nbits h 256 64
    guardOn f.g s.cg = true ∧ s.cReady qs [] = .ok () ∧ s.pieces s.cur (.stream .c) .r hva.toNat 512 = .ok (hps, sw) ∧ s.regionPas .w va.toNat (32768 * n) = .ok reg ∧ s.regionPas .w sva (32768 * n) = .ok shd ∧ s.me.phase = none ∧ hva.toNat % 128 = 0 ∧ (∀ p ∈ hps, (v.roleAt s.myPkg p.1).role = .imm) ∧ nbits h 484 28 = 0 ∧ nbits h 480 4 ≤ 12 ∧ s.me.entriesOk es = true ∧ va.toNat % 32768 = 0 ∧ sva % 32768 = 0 ∧ ext % 32768 = 0 ∧ 32768 ≤ ext ∧ ext ≤ 8388608 ∧ s.ownRegion reg = some o ∧ s.ownRegion shd = some q ∧ (∀ g ∈ o, g ∉ q) ∧ v.psnPieces s.myPkg hps = false) ∧
    (let f : CsF := csP 0
    let s : State := sPh
    let p : Phase := ph0
    guardOn f.g s.cg = true ∧ s.me.phase = some p ∧ s.me.writesPhase p = false ∧ f.sub.getLsbD 0 = false) ∧
    (let f : CsF := csP 1
    let s : State := sPh
    let p : Phase := ph0
    guardOn f.g s.cg = true ∧ s.me.phase = some p ∧ s.me.writesPhase p = false ∧ f.sub.getLsbD 0 = true) ∧
    (let s : State := sPh
    let p : Phase := ph0
    s.me.phase = some p ∧ p.region.length = p.shadow.length ∧ p.region.Nodup ∧ (∀ g ∈ p.region ++ p.shadow, g % 32768 = 0 ∧ g + 32768 ≤ scratchBits) ∧ (∀ g ∈ p.region, g ∉ p.shadow) ∧ (∀ e ∈ p.dirty, e.2 = true ∧ e.1 < 256 * p.region.length)) ∧
    (let s : State := sPh
    let p : Phase := ph0
    let g := 0x18000
    let i := 16
    let n := 112
    s.me.phase = some p ∧ p.region.length = p.shadow.length ∧ p.region.Nodup ∧ (∀ g ∈ p.region ++ p.shadow, g % 32768 = 0 ∧ g + 32768 ≤ scratchBits) ∧ (∀ g ∈ p.region, g ∉ p.shadow) ∧ (∀ e ∈ p.dirty, e.2 = true ∧ e.1 < 256 * p.region.length) ∧ i < 32768 ∧ i % 128 + n ≤ 128) ∧
    (let f : CsF := csP 3
    let s : State := sRg cRg
    guardOn f.g s.cg = true ∧ s.me.phase = none) ∧
    (let f : CsF := csP 3
    let s : State := sPh
    guardOn f.g s.cg = true ∧ s.me.phase ≠ none) ∧
    (let s : State := sRg { cRg with phase := some ph0, put := some pPut }
    let p : Phase := ph0
    let ab : Abort := { ab1 with stage := 0 }
    let c := s.me
    s.me.phase = some p ∧ ab.stage = 0 ∧ c.quiet = false) ∧
    (let s : State := { sPh with psn := [(granKey 0 (apAddr 5 0x10000), true)] }
    let p : Phase := ph0
    let ab : Abort := { ab1 with stage := 0 }
    let c := s.me
    let e := (0, true)
    s.me.phase = some p ∧ ab.stage = 0 ∧ c.quiet = true ∧ (p.dirty.find? fun e => tget false s.psn (granKey s.myPkg (apAddr (numOf s.cur) (p.regionOff e.1)))) = some e) ∧
    (let s : State := sPh
    let p : Phase := ph0
    let ab : Abort := { ab1 with stage := 0 }
    s.me.phase = some p ∧ ab.stage = 0) ∧
    (let s : State := sPh
    let p : Phase := ph0
    let ab : Abort := ab1
    s.me.phase = some p ∧ p.entry.length = 4 ∧ ab.stage = 1 ∧ s.me.a.copies = []) ∧
    (let s : State := sPh
    let p : Phase := ph0
    let ab : Abort := ab1
    let st := .a
    s.me.phase = some p ∧ p.entry.length = 4 ∧ ab.stage = 1 ∧ s.me.a.copies = [] ∧ (s.ctl st).started = true) :=
  by refine ⟨?_, ?_, ?_, ?_, ?_, ?_, ?_, ?_, ?_, ?_, ?_, ?_⟩ <;> exact byKernel (letI := @exceptDec; letI := @ownDec; letI := @peerDec; letI := @rangeDec; letI := @headDec; inferInstance) (by decide +kernel)

/-! The fabric. -/

def partDec (P : ApPart → Prop) [∀ p, Decidable (P p)] : Decidable (∃ p, P p) :=
  decidable_of_iff (P .scratch ∨ P .acc ∨ P .regs)
    ⟨fun h => h.elim (fun a => ⟨_, a⟩) fun h => h.elim (fun a => ⟨_, a⟩) fun a => ⟨_, a⟩,
     fun ⟨p, a⟩ => match p, a with | .scratch, a => .inl a | .acc, a => .inr (.inl a) | .regs, a => .inr (.inr a)⟩
def byt (a n v : Nat) : List Host.Cell := ((List.range n).map fun i => (a + i, BitVec.ofNat 8 (v / 256 ^ i))).filter (·.2 != 0)
def apB : W64 := 0x7E00000000000000
/-- A descriptor: source, target, length 1,024 bits, ordered, sentry 5, threshold 64, counter 3. -/
def descX : Nat :=
  (apB.toNat + 0x2000) + 2 ^ 64 * 0x7C00000040000000 + 2 ^ 128 * 1024 + 2 ^ 160 + 2 ^ 167 + 2 ^ 168 * 5 + 2 ^ 192 * 64 + 2 ^ 224 * 3
def memX : List Host.Cell := byt (2 ^ 57 + 5 * 2 ^ 27 + 0x1000 / 8) 32 descX
def cX : Core := { coreM with
  c := { ctl := { started := true, pc := 96 }
         g := [(3, 6), (4, BitVec.ofNat 64 (2 ^ 27 + 2 ^ 30 * 5)), (5, apB + 0x1000), (6, 0x7C00000080000000), (7, 0x8000), (8, apB + 0x8000),
               (9, 3), (10, 100)] }
  a := { ctl := { started := true } } }
def sX (c : Core) : State := { st c memX with cores := [(5, c), (6, { core0 with prev := some 3 })] }
def fBlk : CrF := cr 5 0 9
def dX (n : Nat) (f : Nat × Nat → Nat) : Nat := f (okOf ((sX cX).sendDesc (apB + 0x1000).toNat)) + n
def cSent : Core := { cX with sent := some 4, reply := some (55, none) }
def cSentT : Core := { cX with sent := some 4, reply := some (55, some { cause := .atomicFault }) }
def cRec : Core := { cX with fab := { cX.fab with recv := [(2, { v := true, cnt := 3 }), (3, { v := true, cnt := 2 })] } }
def csX (sub sys : Nat) : CsF := { g := g0, sub := BitVec.ofNat 5 sub, sys := BitVec.ofNat 24 sys }
def owX (n : Nat) : OwedWrite := { id := n, src := 1, win := 1, pkg := 0, lo := 0, hi := 1, stamp := 1 }
def cOwes : Core := { cX with owed := [owX 1] }
def cTrg : Core := { cX with
  fab := { cX.fab with trig := [(2, { v := true, cnt := 3, desc := 0x1000 / 128, thr := 64 })], recv := [(3, { v := true, cnt := 64 })] } }
def cDue : Core := { cTrg with fab := { cTrg.fab with trig := [(2, { v := true, cnt := 3, desc := 0x1000 / 128, thr := 64, due := some 9 })] } }
def sDsc (d : Nat) : State := { sX cX with mem := byt (2 ^ 57 + 5 * 2 ^ 27 + 0x1000 / 8) 32 d }
def msgX (k : MsgKind) (l : Leg) (ps : List Part) : Msg :=
  { kind := k, dpkg := 0, dcore := 6, parts := ps, ctx := 1, frame := 0x1000, spkg := 0, score := 5, job := 1, sender := .stream .a, src := 1
    win := 1, va := 0x7C00000040000000, seq := 3, leg := l, load := 8 }
def sMsg (mx : Msg) (tc : Core := core0) (frm : Core := coreM) : State :=
  { sX cX with cores := [(5, frm), (6, tc)], msgs := [(3, some mx)], ev := { id := 3, up := true } }
/-- A message with `n` others in the input buffer of a station. -/
def sIn (mx : Msg) (r : Ring) (i n : Nat) : State :=
  { sMsg mx with msgs := (3, some mx) :: (List.range n).map fun k => (4 + k, some { mx with leg := .input r true i k }) }
def mFw : Msg := { msgX .forward .start [] with sender := .headworks, dpkg := 1 }
def hmX : Core := { core0 with
  roles := [(1, { own0 with role := .imm }), (4096, { acc0 with mode := 1 }), (4097, own0)]
  fab := { recv := [(1, { v := true, grant := true, rb := 0, rextm1 := 10, cnt := 0xFFFFFFF8 }),
                    (2, { v := true, grant := true, rb := 2 ^ 20 + 256, rextm1 := 1000, cnt := 5 })] } }
def mWr : Msg := msgX .write .home [{ at_ := 100, w := 16, val := 0x1234 }, { at_ := 200, w := 128, val := 7, psn := true }]
def pAdd : Part := { at_ := 2 ^ 27 + 80, w := 16, val := 0xFFFF }
def psAdd : List Part := [{ at_ := 2 ^ 27 + 120, w := 16, val := 7 }]
def mAdd : Msg := { msgX .addInt .home (pAdd :: psAdd) with w := 16 }
def pFaa : Part := { at_ := 2 ^ 27 + 40 * 1024, w := 40, val := 0xFFFF }
def pRd : Part := { at_ := 32768 + 8, w := 8, val := 0 }
def mMem : Msg := { msgX .memWrite .home [{ at_ := 0x80008, w := 8, val := 0x77 }] with win := 17 }
def mAns (k : MsgKind) (wn : Nat := 1) : Msg := { msgX k .home [{ at_ := 0, w := 40, val := 0xFFFFFFFFF0 }, { at_ := 0, w := 40, val := 9 }] with win := wn }
def cAns : Core := { coreM with
  owed := [owX 3, owX 4], sent := some 3, a := { coreM.a with loads := [{ id := 8, dst := .areg 3, ea := 0, word := 0, w := 8 }] } }

/-- The hypotheses of FabricWords are met. -/
theorem witness_FabricWords :
    (let f : CrF := cr 3 12 0 1
    let w := (f.fn.extractLsb' 0 4).toNat
    let s : State := { sX cX with cores := [(5, { cX with c := { cX.c with g := [(3, 6), (8, 6)] } })] }
    let t := s.cSrc f.qa f.ra
    let b := s.cSrc f.qb f.rb
    let ext := b.toNat / 2 ^ 30
    let c := s.me
    let x := c.winAt w
    guardOn f.g s.cg = true ∧ s.cReady (CrQ f true true) [] = .ok () ∧ t.toNat < 2 ^ 23 ∧ b.toNat < 2 ^ 48 ∧ x.out = 0 ∧ (s.me.a.half.all fun h => h.2.win != w) = true ∧ ext = 0) ∧
    (let f : CrF := cr 3 4 0 0x15
    let s : State := sX cX
    let w := (f.fn.extractLsb' 0 4).toNat
    let t := s.cSrc f.qa f.ra
    let b := s.cSrc f.qb f.rb
    let pkg := t.toNat / 2 ^ 10
    let tb := b.toNat % 2 ^ 30
    let ext := b.toNat / 2 ^ 30
    let c := s.me
    let x := c.winAt w
    guardOn f.g s.cg = true ∧ s.cReady (CrQ f true true) [] = .ok () ∧ t.toNat < 2 ^ 23 ∧ b.toNat < 2 ^ 48 ∧ x.out = 0 ∧ (s.me.a.half.all fun h => h.2.win != w) = true ∧ ext ≠ 0 ∧ s.inDomain pkg = true ∧ t.toNat % 2 ^ 10 < 768 ∧ tb % 128 = 0 ∧ (∃ p, inPart p tb (128 * ext) = true)) ∧
    (let f : CrF := cr 8 7 0 0x32
    let s : State := sX cX
    let w := (f.fn.extractLsb' 0 4).toNat
    let t := s.cSrc f.qa f.ra
    let b := s.cSrc f.qb f.rb
    let c := s.me
    let e := 0x8000
    let o := okOf (s.allowAt w t.toNat e.toNat (f.fn.getLsbD 4))
    guardOn f.g s.cg = true ∧ s.cReady (CrQ f true true) [] = .ok () ∧ e = b ∧ s.allowAt w t.toNat e.toNat (f.fn.getLsbD 4) = .ok o ∧ e ≠ 0 ∧ c.trigNow s.now = false) ∧
    (let f : CrF := cr 8 7 0 0x32
    let s : State := sX cDue
    let c := s.me
    guardOn f.g s.cg = true ∧ s.cReady (CrQ f true true) [] = .ok () ∧ c.trigNow s.now = true) ∧
    (let f : CrF := cr 3 0 0 2
    let s : State := sX cX
    let b := s.cSrc f.qb f.rb
    let c := s.me
    guardOn f.g s.cg = true ∧ s.cReady (CrQ f true true) [] = .ok () ∧ b = 0 ∧ c.trigNow s.now = false) ∧
    (let f : CrF := fBlk
    let s : State := sX cX
    let o : Nat := dX 0 (·.1)
    let d : Nat := dX 0 (·.2)
    let va := s.cSrc f.qa f.ra
    let s1 := s.usePages .c va.toNat 256
    let u := okOf (s1.issueCopy (sendCopy va d none))
    guardOn f.g s.cg = true ∧ s.cReady (CrQ f true false) [] = .ok () ∧ s.sendDesc va.toNat = .ok (o, d) ∧ s.sendBad d = false ∧ s.sendDst (.stream .c) (sendCopy va d none) = .ok () ∧ s.me.a.sends = [] ∧ s1.issueCopy (sendCopy va d none) = .ok u) ∧
    (let f : CrF := fBlk
    let s : State := sX cX
    let o : Nat := dX 0 (·.1)
    let d : Nat := dX 0 (·.2)
    let va := s.cSrc f.qa f.ra
    let mask := s.cg f.rd.toNat
    let s1 := s.usePages .c va.toNat 256
    let u := okOf (s1.issueCopy (sendCopy va d (some mask)))
    guardOn f.g s.cg = true ∧ s.cReady (CrQ f true false) [] = .ok () ∧ s.sendDesc va.toNat = .ok (o, d) ∧ s.sendBad d = false ∧ s.sendDst (.stream .c) (sendCopy va d (some mask)) = .ok () ∧ s.me.a.sends = [] ∧ mask ≠ 0 ∧ inWindows (nbits d 64 64) = true ∧ s1.issueCopy (sendCopy va d (some mask)) = .ok u) ∧
    (let f : CrF := fBlk
    let s : State := sDsc (descX + 1)
    let o : Nat := 0x1000
    let d : Nat := descX + 1
    let va := s.cSrc f.qa f.ra
    let s1 := s.usePages .c va.toNat 256
    let t := { cause := .copyRange }
    guardOn f.g s.cg = true ∧ s.cReady (CrQ f true false) [] = .ok () ∧ s.sendDesc va.toNat = .ok (o, d) ∧ s.sendBad d = false ∧ s.sendDst (.stream .c) (sendCopy va d none) = .ok () ∧ s.me.a.sends = [] ∧ s1.issueCopy (sendCopy va d none) = .error (.trap t)) ∧
    (let f : CrF := fBlk
    let s : State := sDsc (descX + 2 ^ 95)
    let o : Nat := 0x1000
    let d : Nat := descX + 2 ^ 95
    let va := s.cSrc f.qa f.ra
    let t := { cause := .windowFault, info := 0x7C000000C0000000 }
    guardOn f.g s.cg = true ∧ s.cReady (CrQ f true false) [] = .ok () ∧ s.sendDesc va.toNat = .ok (o, d) ∧ s.sendBad d = false ∧ s.sendDst (.stream .c) (sendCopy va d none) = .error (.trap t)) ∧
    (let f : CrF := fBlk
    let s : State := sX cX
    let o : Nat := dX 0 (·.1)
    let d : Nat := dX 0 (·.2)
    let va := s.cSrc f.qa f.ra
    guardOn f.g s.cg = true ∧ s.cReady (CrQ f true false) [] = .ok () ∧ s.sendDesc va.toNat = .ok (o, d) ∧ s.sendBad d = false) ∧
    (let f : CrF := cr 5 0 9 7
    let s : State := sX cX
    let o : Nat := dX 0 (·.1)
    let d : Nat := dX 0 (·.2)
    let va := s.cSrc f.qa f.ra
    let g : Trigger := { v := true, cnt := nbits d 224 4, desc := o / 128, thr := nbits d 192 32 }
    guardOn f.g s.cg = true ∧ s.cReady (CrQ f true false) [] = .ok () ∧ s.sendDesc va.toNat = .ok (o, d) ∧ s.sendBad d = false ∧ (tget {} s.me.fab.trig (f.fn.extractLsb' 0 4).toNat : Trigger).v = false) ∧
    (let f : CrF := cr 6 9 10
    let s : State := sX cX
    let x := s.cSrc f.qa f.ra
    let win := 2
    let pkg := 0
    let n := 6
    let o := 2 ^ 27
    let rs := [(2 ^ 27, 40)]
    let sw := false
    guardOn f.g s.cg = true ∧ s.cReady (CrQ f true true) (qName f.qd f.rd) = .ok () ∧ s.me.sent = none ∧ (inWindows x.toNat ∨ inWin16 s.cur x.toNat) ∧ s.target s.cur (.stream .c) .add true x.toNat 40 = .ok (.peer win pkg n o rs, sw) ∧ (s.me.winAt win).faa = true ∧ inPart .acc o 40 = true ∧ (o - accBase) % 40 = 0 ∧ s.me.canSend win = true) :=
  by refine ⟨?_, ?_, ?_, ?_, ?_, ?_, ?_, ?_, ?_, ?_, ?_, ?_⟩ <;> exact byKernel (letI := @exceptDec; letI := @partDec; inferInstance) (by decide +kernel)
/-- The hypotheses of FabricWords are met. -/
theorem witness_FabricWords_2 :
    (let f : CrF := cr 6 9 10
    let win := 2
    let s : State := sX { cX with fab := { win := [(2, { winA with faa := false })] } }
    let x := s.cSrc f.qa f.ra
    let pkg := 0
    let n := 6
    let o := 2 ^ 27
    let rs := [(2 ^ 27, 40)]
    let sw := false
    guardOn f.g s.cg = true ∧ s.cReady (CrQ f true true) (qName f.qd f.rd) = .ok () ∧ s.me.sent = none ∧ (inWindows x.toNat ∨ inWin16 s.cur x.toNat) ∧ s.target s.cur (.stream .c) .add true x.toNat 40 = .ok (.peer win pkg n o rs, sw) ∧ (s.me.winAt win).faa = false) ∧
    (let f : CrF := cr 6 9 10
    let s : State := sX { cX with sent := some 4 }
    guardOn f.g s.cg = true ∧ s.cReady (CrQ f true true) (qName f.qd f.rd) = .ok () ∧ s.me.sent.isSome = true ∧ s.me.reply = none) ∧
    (let f : CrF := cr 6 9 10
    let s : State := sX cSent
    let v := 55
    guardOn f.g s.cg = true ∧ s.cReady (CrQ f true true) (qName f.qd f.rd) = .ok () ∧ s.me.sent.isSome = true ∧ s.me.reply = some (v, none)) ∧
    (let f : CrF := cr 6 9 10
    let s : State := sX cSentT
    let v := 55
    let t := { cause := .atomicFault }
    guardOn f.g s.cg = true ∧ s.cReady (CrQ f true true) (qName f.qd f.rd) = .ok () ∧ s.me.sent.isSome = true ∧ s.me.reply = some (v, some t)) ∧
    (let f : CrF := cr 9 0 11 2
    let s : State := sX cRec
    guardOn f.g s.cg = true ∧ s.cReady [] (qName f.qd f.rd) = .ok ()) ∧
    (let f : CrF := cr 9 0 11 2
    let s : State := sX cRec
    let w := (f.fn.extractLsb' 0 4).toNat
    let r := s.me.recvAt w
    let a := s.cSrc f.qa f.ra
    guardOn f.g s.cg = true ∧ s.cReady (CrQ f true false) (qName f.qd f.rd) = .ok () ∧ a.toNat ≤ r.cnt) ∧
    (let f : CrF := cr 9 0 11 3
    let s : State := sX cRec
    let w := (f.fn.extractLsb' 0 4).toNat
    let r := s.me.recvAt w
    let a := s.cSrc f.qa f.ra
    guardOn f.g s.cg = true ∧ s.cReady (CrQ f true false) (qName f.qd f.rd) = .ok () ∧ r.cnt < a.toNat) ∧
    (let f : CrF := cr 9 0 11 2
    let s : State := sX cDue
    guardOn f.g s.cg = true ∧ s.cReady (CrQ f true false) (qName f.qd f.rd) = .ok () ∧ s.me.trigNow s.now = true) ∧
    (let f : CrF := cr 9 0 11 2
    let s : State := sX cRec
    let w := (f.fn.extractLsb' 0 4).toNat
    let r := s.me.recvAt w
    let a := s.cSrc f.qa f.ra
    guardOn f.g s.cg = true ∧ s.cReady (CrQ f true false) (qName f.qd f.rd) = .ok () ∧ s.me.trigNow s.now = false ∧ a.toNat ≤ r.cnt) ∧
    (let f : CrF := cr 9 0 11 3
    let s : State := sX cRec
    let w := (f.fn.extractLsb' 0 4).toNat
    let r := s.me.recvAt w
    let a := s.cSrc f.qa f.ra
    guardOn f.g s.cg = true ∧ s.cReady (CrQ f true false) (qName f.qd f.rd) = .ok () ∧ s.me.trigNow s.now = false ∧ r.cnt < a.toNat) ∧
    (let f : CsF := csX 7 0
    let s : State := sX cDue
    guardOn f.g s.cg = true ∧ s.me.trigNow s.now = true) ∧
    (let f : CsF := csX 7 0
    let s : State := sX cX
    guardOn f.g s.cg = true ∧ s.me.trigNow s.now = false) :=
  by refine ⟨?_, ?_, ?_, ?_, ?_, ?_, ?_, ?_, ?_, ?_, ?_, ?_⟩ <;> exact byKernel (letI := @exceptDec; letI := @partDec; inferInstance) (by decide +kernel)
/-- The hypotheses of FabricWords are met. -/
theorem witness_FabricWords_3 :
    (let f : CsF := csX 7 0
    let s : State := sX cX
    guardOn f.g s.cg = true ∧ s.me.owing s.cur = false ∧ s.me.a.sends = []) ∧
    (let f : CsF := csX 7 0
    let s : State := sX cOwes
    guardOn f.g s.cg = true ∧ (s.me.owing s.cur = true ∨ s.me.a.sends ≠ [])) :=
  by refine ⟨?_, ?_⟩ <;> exact byKernel (letI := @exceptDec; letI := @partDec; inferInstance) (by decide +kernel)

/-- The hypotheses of FabricMessages are met. -/
theorem witness_FabricMessages :
    (let ax := 0
    let ay := 0
    let bx := 7
    let by_ := 2
    ax < 8 ∧ ay < 4 ∧ bx < 8 ∧ by_ < 4) ∧
    (let ax := 0
    let ay := 0
    let bx := 7
    let by_ := 2
    let l := torusPath (ax, ay) (bx, by_)
    let i := 0
    let p := (0, 0)
    let q := (7, 0)
    ax < 8 ∧ ay < 4 ∧ bx < 8 ∧ by_ < 4 ∧ ((ax, ay) :: l)[i]? = some p ∧ ((ax, ay) :: l)[i + 1]? = some q) ∧
    (let p := 0
    let d := 0
    let a := (0, 0)
    let b := (1, 0)
    let c := (2, 0)
    let l := [(2, 1)]
    let m : Msg := msgX .write (.torus p d (a :: b :: c :: l)) []
    let s : State := sMsg m
    s.msgAt s.ev.id = some m ∧ m.leg = .torus p d (a :: b :: c :: l) ∧ s.inRouter p d b c + (if (a.2 == b.2) = (b.2 == c.2) then 1 else 2) ≤ 64) ∧
    (let p := 0
    let d := 0
    let a := (0, 0)
    let b := (1, 0)
    let c := (2, 0)
    let l := [(2, 1)]
    let m : Msg := msgX .write (.torus p d (a :: b :: c :: l)) []
    let s : State := { sMsg m with msgs := (3, some m) :: (List.range 70).map fun i => (4 + i, some { m with leg := .torus p d (b :: c :: l) }) }
    s.msgAt s.ev.id = some m ∧ m.leg = .torus p d (a :: b :: c :: l) ∧ 64 < s.inRouter p d b c + (if (a.2 == b.2) = (b.2 == c.2) then 1 else 2)) ∧
    (let r := .package 0
    let cw := true
    let i := 1
    let n := 0
    let m : Msg := msgX .write (.slot r cw i n) []
    let s : State := sIn m r i 64
    let taken := s.earlierPin m fun o => o.turnedAt r i
    let room := s.inInput r cw i < 64
    s.msgAt s.ev.id = some m ∧ m.leg = .slot r cw i n ∧ m.mc = none ∧ (taken = true ∨ ¬room ∧ (n = 0 ∨ hasOverflow r i = false ∨ 512 ≤ s.inOverflow r i))) ∧
    (let r := .package 0
    let cw := true
    let i := 1
    let n := 0
    let m : Msg := msgX .write (.slot r cw i n) []
    let s : State := sIn m r i 63
    let taken := s.earlierPin m fun o => o.turnedAt r i
    let room := s.inInput r cw i < 64
    s.msgAt s.ev.id = some m ∧ m.leg = .slot r cw i n ∧ m.mc = none ∧ taken = false ∧ room) ∧
    (let r := .package 0
    let cw := true
    let i := 8
    let n := 1
    let m : Msg := msgX .write (.slot r cw i n) []
    let s : State := sIn m r i 64
    let taken := s.earlierPin m fun o => o.turnedAt r i
    let room := s.inInput r cw i < 64
    s.msgAt s.ev.id = some m ∧ m.leg = .slot r cw i n ∧ m.mc = none ∧ taken = false ∧ ¬room ∧ 0 < n ∧ hasOverflow r i = true ∧ s.inOverflow r i < 512) ∧
    (let r := .rack 0
    let cw := true
    let i := 1
    let n := 0
    let m : Msg := { msgX .write (.slot r cw i n) [] with mc := some 6 }
    let s : State := { sMsg m with ids := 3 }
    let taken := s.earlierPin m fun o => o.turnedAt r i
    let room := s.inInput r cw i < 64
    let b : W64 := 6
    s.msgAt s.ev.id = some m ∧ m.leg = .slot r cw i n ∧ m.mc = some b ∧ r = .rack (m.dpkg / 64) ∧ b.getLsbD i = true ∧ taken = false ∧ room ∧ s.ev.id ≤ s.ids) ∧
    (let r := .package 0
    let cw := true
    let i := 4
    let k := 2
    let m : Msg := msgX .write (.input r cw i k) []
    let s : State := { sMsg m with msgs := [(3, some m), (4, some { m with leg := .overflow r i 1 })] }
    s.msgAt s.ev.id = some m ∧ m.leg = .input r cw i k ∧ s.overflowBefore r i k = true) ∧
    (let m : Msg := mFw
    let s : State := sMsg m
    let r := .rack 0
    let i := 0
    let j := 1
    let via := none
    s.msgAt s.ev.id = some m ∧ m.leg = .start ∧ s.onward m m.origin.1 m.origin.2.spot (Config.freeNat s.fresh) = some (.output r i j, via)) ∧
    (let r := .package 0
    let i := 1
    let j := 3
    let m : Msg := msgX .write (.output r i j) []
    let s : State := sMsg m
    s.msgAt s.ev.id = some m ∧ m.leg = .output r i j) ∧
    (let m : Msg := mWr
    let s : State := sMsg m hmX
    let id := s.ev.id
    let dk := coreKey m.dpkg m.dcore
    let c := s.coreAt dk
    let j := s.jobAt dk
    let runs : Bool := c.job.isSome && j.rcd.ctx == m.ctx
    s.msgAt s.ev.id = some m ∧ s.atDoor m = true ∧ m.pair = none ∧ m.parent = none ∧ runs = true) :=
  by refine ⟨?_, ?_, ?_, ?_, ?_, ?_, ?_, ?_, ?_, ?_, ?_, ?_⟩ <;> exact byKernel (letI := @exceptDec; letI := @partDec; inferInstance) (by decide +kernel)
/-- The hypotheses of FabricMessages are met. -/
theorem witness_FabricMessages_2 :
    (let m : Msg := mWr
    let s : State := sMsg m { hmX with job := none, gone := [(j0, [])] }
    let id := s.ev.id
    let dk := coreKey m.dpkg m.dcore
    let c := s.coreAt dk
    let j := s.jobAt dk
    let runs : Bool := c.job.isSome && j.rcd.ctx == m.ctx
    s.msgAt s.ev.id = some m ∧ s.atDoor m = true ∧ m.pair = none ∧ m.parent = none ∧ runs = false) ∧
    (let m : Msg := mWr
    let s : State := sMsg m hmX
    let id := s.ev.id
    s.msgAt s.ev.id = some m ∧ s.atDoor m = true ∧ m.pair = none ∧ m.parent = none) ∧
    (let m : Msg := mWr
    let s : State := sMsg m hmX
    let id := s.ev.id
    let dk := coreKey m.dpkg m.dcore
    s.msgAt s.ev.id = some m ∧ s.atDoor m = true ∧ m.pair = none ∧ m.parent = none ∧ m.kind = .write ∧ m.part ≠ some .regs ∧ s.homeSide dk m ≠ none ∧ (∀ p ∈ m.parts, s.homeWriteOk dk m p = true)) ∧
    (let m : Msg := mWr
    let s : State := sMsg m
    let id := s.ev.id
    let dk := coreKey m.dpkg m.dcore
    s.msgAt s.ev.id = some m ∧ s.atDoor m = true ∧ m.pair = none ∧ m.parent = none ∧ m.kind = .write ∧ m.part ≠ some .regs ∧ (s.homeSide dk m = none ∨ (∃ p ∈ m.parts, s.homeWriteOk dk m p = false))) ∧
    (let m : Msg := mAdd
    let s : State := sMsg m hmX
    let id := s.ev.id
    let dk := coreKey m.dpkg m.dcore
    let p := pAdd
    let ps := psAdd
    let lane := p.at_ - 40 * m.skip
    let step := s.laneStep dk lane
    let o := lane + step * m.skip
    s.msgAt s.ev.id = some m ∧ s.atDoor m = true ∧ m.pair = none ∧ m.parent = none ∧ (m.kind = .addInt ∨ m.kind = .addFloat) ∧ m.parts = p :: ps ∧ s.homeSide dk m ≠ none ∧ s.lanesAddOk dk m.ctx o step m.parts.length = true ∧ (o - accBase) % step = 0) ∧
    (let m : Msg := msgX .faa .home [pFaa]
    let s : State := sMsg m hmX
    let id := s.ev.id
    let dk := coreKey m.dpkg m.dcore
    let p := pFaa
    let ps := []
    let h := (s.homeSide 6 m).getD (j0, [])
    s.msgAt s.ev.id = some m ∧ s.atDoor m = true ∧ m.pair = none ∧ m.parent = none ∧ m.kind = .faa ∧ m.parts = p :: ps ∧ s.homeSide dk m = some h ∧ (∀ q ∈ apPieces dk p.at_ 40, (s.roleAt (pkgOf dk) q.1).ownedBy h.1 = true) ∧ recvGranted h.2 p.at_ 40 = true) ∧
    (let m : Msg := msgX .read .home [pRd]
    let s : State := sMsg m hmX
    let id := s.ev.id
    let dk := coreKey m.dpkg m.dcore
    let qs := m.parts.flatMap fun p => apPieces dk p.at_ p.w
    s.msgAt s.ev.id = some m ∧ s.atDoor m = true ∧ m.pair = none ∧ m.parent = none ∧ m.kind = .read ∧ m.parts ≠ [] ∧ (∀ q ∈ qs, let e := s.roleAt (pkgOf dk) q.1; e.role = .imm ∨ e.role = .str ∧ s.slotOk (pkgOf dk) q.1 false m.spkg m.score = true ∨ e.role = .prv ∧ e.ownedBy m.asJob = true)) ∧
    (let m : Msg := msgX .read .home [{ pRd with at_ := 2 ^ 27 }]
    let s : State := sMsg m hmX
    let id := s.ev.id
    let dk := coreKey m.dpkg m.dcore
    let qs := m.parts.flatMap fun p => apPieces dk p.at_ p.w
    s.msgAt s.ev.id = some m ∧ s.atDoor m = true ∧ m.pair = none ∧ m.parent = none ∧ m.kind = .read ∧ (∃ q ∈ qs, (s.roleAt (pkgOf dk) q.1).role = .acc)) ∧
    (let m : Msg := mMem
    let s : State := sMsg m
    let id := s.ev.id
    s.msgAt s.ev.id = some m ∧ s.atDoor m = true ∧ m.pair = none ∧ m.parent = none ∧ m.kind = .memWrite ∧ (∀ p ∈ m.parts, s.roleOk (coreKey m.spkg m.score) m.asJob m.dpkg p.at_ .wr = true)) ∧
    (let m : Msg := { mMem with parts := [{ at_ := 0x90008, w := 8, val := 0x77 }] }
    let s : State := sMsg m
    let id := s.ev.id
    s.msgAt s.ev.id = some m ∧ s.atDoor m = true ∧ m.pair = none ∧ m.parent = none ∧ m.kind = .memWrite ∧ (∃ p ∈ m.parts, s.roleOk (coreKey m.spkg m.score) m.asJob m.dpkg p.at_ .wr = false)) ∧
    (let m : Msg := mAns .reply
    let s : State := sMsg m hmX cAns
    let id := s.ev.id
    s.msgAt s.ev.id = some m ∧ m.leg = .home ∧ s.sentBy m = true ∧ m.kind = .reply) ∧
    (let m : Msg := mAns .memAck 17
    let s : State := sMsg m hmX cAns
    let id := s.ev.id
    s.msgAt s.ev.id = some m ∧ m.leg = .home ∧ s.sentBy m = true ∧ m.kind = .memAck ∧ m.win = 17) :=
  by refine ⟨?_, ?_, ?_, ?_, ?_, ?_, ?_, ?_, ?_, ?_, ?_, ?_⟩ <;> exact byKernel (letI := @exceptDec; letI := @partDec; inferInstance) (by decide +kernel)
/-- The hypotheses of FabricMessages are met. -/
theorem witness_FabricMessages_3 :
    (let m : Msg := mAns .readData
    let s : State := sMsg m hmX cAns
    let id := s.ev.id
    s.msgAt s.ev.id = some m ∧ m.leg = .home ∧ s.sentBy m = true ∧ m.kind = .readData ∧ m.sender = .stream .a) ∧
    (let x : Window := { win0 with out := 5, c := 63, lw := 20, allow := 20 }
    0 < x.out) ∧
    (let x : Window := { win0 with out := 5, c := 63, lw := 20, allow := 20 }
    0 < x.out ∧ x.c + 1 = 64) ∧
    (let x : Window := { win0 with out := 1, c := 6, lw := 20, h := 20, allow := 64 }
    0 < x.out ∧ x.c + 1 ≠ 64) ∧
    (let x : Window := { win0 with out := 1, c := 63, lw := 1, h := 2, allow := 64 }
    0 < x.out ∧ x.lw ≤ x.h) ∧
    (let x : Window := { win0 with out := 1, c := 6, lw := 20, h := 19, allow := 64 }
    0 < x.out ∧ x.h < x.lw) ∧
    (let c : Core := cTrg
    let k : Nat := 2
    let x : Trigger := tget {} c.fab.trig k
    x.v = true) ∧
    (let s : State := { sX cDue with ev := { id := 2 } }
    let x : Trigger := tget {} s.me.fab.trig s.ev.id
    let word : W64 := BitVec.ofNat 64 (selfVa + 128 * x.desc)
    let s1 := s.setMe { s.me with fab := { s.me.fab with trig := tset {} s.me.fab.trig s.ev.id { x with v := false, due := none } } }
    let ps := cuts (apAddr (numOf s.cur) (128 * x.desc)) 256
    let d := s.rdPieces s.myPkg ps
    let y := { sendCopy word d none with id := s.me.stamp, trig := s.ev.id }
    s.me.job.isSome = true ∧ s.me.dead = false ∧ s.me.saving = false ∧ s.ev.id < 16 ∧ s.me.trigDue s.ev.id s.now = true ∧ (∀ i, i < s.ev.id → s.me.trigDue i s.now = false) ∧ s.psnPieces s.myPkg ps = false ∧ s.sendBad d = false ∧ s1.sendDst (.copy y.id) y = .ok ()) :=
  by refine ⟨?_, ?_, ?_, ?_, ?_, ?_, ?_, ?_⟩ <;> exact byKernel (letI := @exceptDec; letI := @partDec; inferInstance) (by decide +kernel)

/-! System registers, traps and handlers. -/

def strDec (P : Str → Prop) [∀ o, Decidable (P o)] : Decidable (∀ o, P o) :=
  decidable_of_iff (P .c ∧ P .a ∧ P .v ∧ P .m)
    ⟨fun h o => match o with | .c => h.1 | .a => h.2.1 | .v => h.2.2.1 | .m => h.2.2.2, fun h => ⟨h _, h _, h _, h _⟩⟩
def bvDec (P : BitVec 5 → Prop) [∀ i, Decidable (P i)] : Decidable (∃ i, P i) :=
  decidable_of_iff (∃ i : Fin 32, P (BitVec.ofNat 5 i.val))
    ⟨fun ⟨_, h⟩ => ⟨_, h⟩, fun ⟨b, h⟩ => ⟨⟨b.toNat, b.isLt⟩, by simpa using h⟩⟩
def xStop : Stream := { started := true, stopped := true, pc := 96, xflags := 0x5A, tvec := 0x123, epc := 0x456, ecause := 0x789, einfo := 0xABC }
def xRun : Stream := { xStop with stopped := false }
def cY : Core := { coreM with
  c := { ctl := xRun, g := [(3, 0x00F05A00000180A5), (4, 5), (5, 5 * 64 + 32), (6, 63 * 64 + 2), (7, 0x60), (8, 0x180), (9, 0x10000)] }
  a := { ctl := xStop }, v := { ctl := xStop, v := [(3, { bits := 5, psn := true })] }, m := { ctl := xStop, interval := 77 }, pend := 5, pre := true
  sem := [(4, 9)], fab := { win := [(2, { v := true, allow := 60, lw := 50 })] } }
def sY : State := { st cY with pkgs := [(0, { pwrLim := 3, pwrCnt := 9 })] }
def sYh : State := st { cY with inh := true }
def tInv : TlbInv := { till := 9, range := some (0x40000000, 0x100), scope := 1 }
def sInv : State := st { cY with tlbInv := some tInv, tlb := [pg0, { pg0 with ctx := 2 }] }
def cT : Core := { coreM with
  c := { ctl := xRun, g := [(5, 50), (30, 300), (31, 310)] }, a := { ctl := xRun, a := [(3, 3)] }, v := { ctl := xRun }, m := { ctl := xRun }
  limit := 8, sem := [(4, 9)] }
def sT (c : Core := cT) : State := { st c with ctxs := [(1, { live := true, running := true })] }
def mTab : List Host.Cell :=
  [(0, 0x8001), (0x8000, 0x10001), (0x10000, 0x18001), (0x18000, 0x20001), (0x20000, 0x801E3)].foldl (fun m p => memSetBits m (bitKey 0 p.1) 64 p.2) []
def wk0 : Walk := { die := 0, ctx := 1, va := 0x1234, who := [(5, .stream .c), (5, .copy 3)] }
def sWk : State := { sT with mem := mTab, walks := [(3, some wk0)], ev := { id := 3 } }
def trM : Trap := { cause := .misalign, info := 5, sub := 2 }
def trP : Trap := { cause := .poison, info := 5 }
def cInP : Core := { cT with
  erun := 1
  phase := some { hdr := 0, va := 0, entry := [], region := [], shadow := [], insrc := 0, indst := 0, incnt := 0, inwc := 0, sems := [] } }
def wtS (y : Str) (kd : WaitKind) : State :=
  { sT ({ cT with sent := some 3 }.setCtl y { xRun with wait := some { since := 2, kind := kd } }) with ev := { st := y, who := .stream y } }
def cH : Core := { cT with pend := 10, stopAt := some 3 }
def cHandler : Core := { cT with
  a := { ctl := xStop }, inh := true, cur := 1, sav30 := 30, sav31 := 31, stopAt := some 3 }
def xRdv (i : BitVec 5) : Stream := { xRun with rdv := some i, rdvAt := 8, wait := some { since := 8, kind := .rdv } }
def cRdv (i : BitVec 5) : Core := { cT with c := { cT.c with ctl := xRdv 3 }, a := { ctl := xRdv 3 }, v := { ctl := xRdv 3 }, m := { ctl := xRdv i } }
def placed (y : Str) : State := { placeWord State.reset y 0x160025002000 with ev := { st := y } }
def piecesX (y : Str) : Pieces × Bool := okOf ((placed y).pieces (placed y).cur (.stream y) .x ((placed y).ctl y).pc.toNat y.wordBits)
def faulted : State := (placed .m).updCore 0 fun c => { c with m := { c.m with ctl := { c.m.ctl with walkFault := some (0, 3), tlb := [] } } }
def errOf (e : Except DecodeError Instr) : DecodeError := match e with | .error x => x | .ok _ => .reservedValue
def onPathA : State := (placed .a).updCore 0 fun c => { c with a := { c.a with ckpts := [ck1], gen := 1 } }
def faultQ : State := faulted.updCore 0 fun c => { c with m := { c.m with queue := [mEnt (.msem mf)] } }

/-- The hypotheses of SystemRegisters are met. -/
theorem witness_SystemRegisters :
    (let f : CrF := cr 0 0 5 1
    let s : State := sY
    guardOn f.g s.cg = true ∧ s.cReady [] (qName f.qd f.rd) = .ok ()) ∧
    (let i := 15
    i < 16) ∧
    (let l := 5
    l < 6) ∧
    (let f : CrF := cr 3 0 0 0
    let s : State := sY
    let n := f.fn.toNat
    let c := s.me
    let st := Str.c
    guardOn f.g s.cg = true ∧ s.cReady (CrQ f true false) [] = .ok () ∧ n = st.num) ∧
    (let f : CrF := cr 3 0 0 3
    let s : State := sY
    let n := f.fn.toNat
    let st := Str.m
    guardOn f.g s.cg = true ∧ s.cReady (CrQ f true false) [] = .ok () ∧ n = st.num) ∧
    (let f : CrF := cr 3 0 0 22
    let s : State := sY
    let n := f.fn.toNat
    let st := Str.v
    guardOn f.g s.cg = true ∧ s.cReady (CrQ f true false) [] = .ok () ∧ n = 0x014 + st.num) ∧
    (let f : CrF := cr 8 0 0 25
    let s : State := sY
    let x := s.cSrc f.qa f.ra
    let n := f.fn.toNat
    let st := Str.a
    let y := s.ctl st
    guardOn f.g s.cg = true ∧ s.cReady (CrQ f true false) [] = .ok () ∧ n = 0x018 + st.num ∧ x.toNat % st.wordBits = 0 ∧ y.stopped = true) ∧
    (let f : CrF := cr 8 0 0 24
    let s : State := sY
    let x := s.cSrc f.qa f.ra
    let n := f.fn.toNat
    let c := s.me
    let st := Str.c
    let y := s.ctl st
    guardOn f.g s.cg = true ∧ s.cReady (CrQ f true false) [] = .ok () ∧ n = 0x018 + st.num ∧ x.toNat % st.wordBits = 0 ∧ y.stopped = false) ∧
    (let f : CrF := cr 3 0 0 25
    let s : State := sY
    let x := s.cSrc f.qa f.ra
    let n := f.fn.toNat
    let st := Str.a
    guardOn f.g s.cg = true ∧ s.cReady (CrQ f true false) [] = .ok () ∧ n = 0x018 + st.num ∧ x.toNat % st.wordBits ≠ 0) ∧
    (let f : CrF := cr 3 0 0 8
    let s : State := sY
    let n := f.fn.toNat
    guardOn f.g s.cg = true ∧ s.cReady (CrQ f true false) [] = .ok () ∧ n = 0x008) ∧
    (let f : CrF := cr 3 0 0 16
    let s : State := sY
    let n := f.fn.toNat
    guardOn f.g s.cg = true ∧ s.cReady (CrQ f true false) [] = .ok () ∧ n = 0x010) ∧
    (let f : CrF := cr 3 0 0 17
    let s : State := sY
    let n := f.fn.toNat
    guardOn f.g s.cg = true ∧ s.cReady (CrQ f true false) [] = .ok () ∧ n = 0x011) :=
  by refine ⟨?_, ?_, ?_, ?_, ?_, ?_, ?_, ?_, ?_, ?_, ?_, ?_⟩ <;> exact byKernel (letI := @exceptDec; letI := @partDec; letI := @strDec; letI := @bvDec; inferInstance) (by decide +kernel)
/-- The hypotheses of SystemRegisters are met. -/
theorem witness_SystemRegisters_2 :
    (let f : CrF := cr 3 0 0 18
    let s : State := sY
    let n := f.fn.toNat
    guardOn f.g s.cg = true ∧ s.cReady (CrQ f true false) [] = .ok () ∧ n = 0x012) ∧
    (let f : CrF := cr 3 0 0 42
    let s : State := sY
    let n := f.fn.toNat
    guardOn f.g s.cg = true ∧ s.cReady (CrQ f true false) [] = .ok () ∧ n = 0x02A) ∧
    (let f : CrF := cr 3 0 0 57
    let s : State := sY
    let n := f.fn.toNat
    guardOn f.g s.cg = true ∧ s.cReady (CrQ f true false) [] = .ok () ∧ n = 0x039) ∧
    (let f : CrF := cr 3 0 0 96
    let s : State := sY
    let n := f.fn.toNat
    guardOn f.g s.cg = true ∧ s.cReady (CrQ f true false) [] = .ok () ∧ n = 0x060) ∧
    (let f : CrF := cr 3 0 0 95
    let s : State := sY
    let n := f.fn.toNat
    let c := s.me
    let i := 15
    guardOn f.g s.cg = true ∧ s.cReady (CrQ f true false) [] = .ok () ∧ i < 16 ∧ n = 0x050 + i ∧ c.semMay i 1 s.now = true) ∧
    (let f : CrF := cr 3 0 0 80
    let s : State := sY
    let n := f.fn.toNat
    let c := s.me
    let i := 0
    guardOn f.g s.cg = true ∧ s.cReady (CrQ f true false) [] = .ok () ∧ i < 16 ∧ n = 0x050 + i ∧ c.semMay i 1 s.now = true) ∧
    (let f : CrF := cr 3 0 0 0x5F
    let s : State := { sY with cores := [(5, { cY with semAct := [(15, (11, 3))] })] }
    let n := f.fn.toNat
    let c := s.me
    let i := 15
    guardOn f.g s.cg = true ∧ s.cReady (CrQ f true false) [] = .ok () ∧ i < 16 ∧ n = 0x050 + i ∧ c.semMay i 1 s.now = false) ∧
    (let f : CrF := cr 3 0 0 274
    let s : State := sY
    let n := f.fn.toNat
    let i := 2
    guardOn f.g s.cg = true ∧ s.cReady (CrQ f true false) [] = .ok () ∧ i < 16 ∧ n = 0x110 + i) ∧
    (let f : CrF := cr 3 0 0 338
    let s : State := sY
    let n := f.fn.toNat
    guardOn f.g s.cg = true ∧ s.cReady (CrQ f true false) [] = .ok () ∧ n = 0x152) ∧
    (let f : CrF := cr 3 0 0 516
    let s : State := sY
    guardOn f.g s.cg = true ∧ s.cReady (CrQ f true false) [] = .ok ()) ∧
    (let f : CrF := cr 5 4 9
    let s : State := sYh
    let x := s.cSrc f.qa f.ra
    let w := x.toNat % 64
    let e := x.toNat / 64
    let c := s.me
    guardOn f.g s.cg = true ∧ x.toNat < 4096 ∧ w ≤ 33 ∧ (e < 48 ∨ e = 63) ∧ c.v.ctl.started = true ∧ s.cReady (CrQ f true false) (qName f.qd f.rd) = .ok () ∧ c.inh = true) ∧
    (let f : CrF := cr 6 4 9
    let s : State := sYh
    let x := s.cSrc f.qa f.ra
    let w := x.toNat % 64
    let e := x.toNat / 64
    let c := s.me
    guardOn f.g s.cg = true ∧ x.toNat < 4096 ∧ w ≤ 33 ∧ (e < 48 ∨ e = 63) ∧ c.v.ctl.started = true ∧ s.cReady (CrQ f true false) (qName f.qd f.rd) = .ok () ∧ c.inh = true) :=
  by refine ⟨?_, ?_, ?_, ?_, ?_, ?_, ?_, ?_, ?_, ?_, ?_, ?_⟩ <;> exact byKernel (letI := @exceptDec; letI := @partDec; letI := @strDec; letI := @bvDec; inferInstance) (by decide +kernel)
/-- The hypotheses of SystemRegisters are met. -/
theorem witness_SystemRegisters_3 :
    (let f : CrF := cr 5 4 9
    let s : State := sY
    let x := s.cSrc f.qa f.ra
    let w := x.toNat % 64
    let e := x.toNat / 64
    let c := s.me
    guardOn f.g s.cg = true ∧ x.toNat < 4096 ∧ w ≤ 33 ∧ (e < 48 ∨ e = 63) ∧ c.v.ctl.started = true ∧ s.cReady (CrQ f true false) (qName f.qd f.rd) = .ok () ∧ c.inh = false) ∧
    (let f : CrF := cr 5 9 9
    let s : State := sYh
    let x := s.cSrc f.qa f.ra
    let w := x.toNat % 64
    let e := x.toNat / 64
    let c := s.me
    let b := s.cSrc f.qb f.rb
    guardOn f.g s.cg = true ∧ x.toNat < 4096 ∧ w ≤ 33 ∧ (e < 48 ∨ e = 63) ∧ c.v.ctl.started = true ∧ s.cReady (CrQ f true true) [] = .ok () ∧ c.inh = true ∧ e < 48 ∧ (w ≠ 32 ∨ metaOk b.toNat = true)) ∧
    (let f : CrF := cr 5 4 9
    let s : State := sY
    let x := s.cSrc f.qa f.ra
    let w := x.toNat % 64
    let e := x.toNat / 64
    let c := s.me
    guardOn f.g s.cg = true ∧ x.toNat < 4096 ∧ w ≤ 33 ∧ (e < 48 ∨ e = 63) ∧ c.v.ctl.started = true ∧ s.cReady (CrQ f true true) [] = .ok () ∧ c.inh = false) ∧
    (let f : CrF := cr 7 8 0 1
    let s : State := sY
    let all := f.fn.getLsbD 3
    let qs := if all then [] else CrQ f true true
    guardOn f.g s.cg = true ∧ s.me.tlbInv = none ∧ s.cReady qs [] = .ok ()) ∧
    (let f : CrF := cr 7 8 0 10
    let s : State := sY
    let all := f.fn.getLsbD 3
    let qs := if all then [] else CrQ f true true
    guardOn f.g s.cg = true ∧ s.me.tlbInv = none ∧ s.cReady qs [] = .ok ()) ∧
    (let s : State := sInv
    let r : TlbInv := tInv
    s.me.tlbInv = some r ∧ r.till ≤ s.now) ∧
    (let s : State := sWk
    let w : Walk := wk0
    let l : List WalkCache := (({ sWk with walks := [] } : State).walk 0 1 0x1234).1
    let r : WalkEnd := (({ sWk with walks := [] } : State).walk 0 1 0x1234).2
    tget none s.walks s.ev.id = some w ∧ w.stale = false ∧ (s.walks.filter fun e => e.1 < s.ev.id && (e.2.map (·.die)) == some w.die).length < 32 ∧ ({ s with walks := tset none s.walks s.ev.id none } : State).walk w.die w.ctx w.va = (l, r)) :=
  by refine ⟨?_, ?_, ?_, ?_, ?_, ?_, ?_⟩ <;> exact byKernel (letI := @exceptDec; letI := @partDec; letI := @strDec; letI := @bvDec; inferInstance) (by decide +kernel)

/-- The hypotheses of Traps are met. -/
theorem witness_Traps :
    (let s : State := sT
    let st : Str := .c
    let t : Trap := trM
    (t.cause ≠ .poison ∨ s.me.phase = none ∨ 2 ≤ s.me.erun.toNat) ∧ (s.me.inh = false ∨ st ≠ .c)) ∧
    (let s : State := sT
    let st : Str := .c
    let t : Trap := trM
    let o := .v
    (t.cause ≠ .poison ∨ s.me.phase = none ∨ 2 ≤ s.me.erun.toNat) ∧ (s.me.inh = false ∨ st ≠ .c) ∧ o ≠ st) ∧
    (let s : State := sT { cT with inh := true }
    let t : Trap := trM
    s.me.inh = true ∧ (t.cause ≠ .poison ∨ s.me.phase = none ∨ 2 ≤ s.me.erun.toNat ∨ s.me.abort ≠ none)) ∧
    (let s : State := sT cInP
    let t : Trap := trP
    t.cause = .poison ∧ s.me.phase ≠ none ∧ s.me.erun.toNat < 2 ∧ s.me.abort = none) ∧
    (let s : State := wtS .c (.queue 9)
    let st : Str := .c
    let w : Waiting := { since := 2, kind := .queue 9 }
    let n := 9
    s.me.canIssue st s.now = true ∧ (st = .a → s.me.a.ckpts = []) ∧ s.me.limit ≠ 0 ∧ (s.ctl st).wait = some w ∧ w.since + s.me.limit.toNat ≤ s.now ∧ w.kind = .queue n ∧ s.ev.st = st) ∧
    (let s : State := wtS .a .sync
    let st : Str := .a
    let w : Waiting := { since := 2, kind := .sync }
    s.me.canIssue st s.now = true ∧ (st = .a → s.me.a.ckpts = []) ∧ s.me.limit ≠ 0 ∧ (s.ctl st).wait = some w ∧ w.since + s.me.limit.toNat ≤ s.now ∧ (w.kind = .sync ∨ w.kind = .fabric) ∧ s.ev.st = st) ∧
    (let s : State := wtS .c (.syncAt 9)
    let st : Str := .c
    let w : Waiting := { since := 2, kind := .syncAt 9 }
    let x := 9
    s.me.canIssue st s.now = true ∧ (st = .a → s.me.a.ckpts = []) ∧ s.me.limit ≠ 0 ∧ (s.ctl st).wait = some w ∧ w.since + s.me.limit.toNat ≤ s.now ∧ w.kind = .syncAt x ∧ s.ev.st = st) ∧
    (let s : State := wtS .v (.rc 7)
    let st : Str := .v
    let w : Waiting := { since := 2, kind := .rc 7 }
    let b := 7
    s.me.canIssue st s.now = true ∧ (st = .a → s.me.a.ckpts = []) ∧ s.me.limit ≠ 0 ∧ (s.ctl st).wait = some w ∧ w.since + s.me.limit.toNat ≤ s.now ∧ w.kind = .rc b ∧ s.ev.st = st) ∧
    (let s : State := wtS .m (.fe 7)
    let st : Str := .m
    let w : Waiting := { since := 2, kind := .fe 7 }
    let ea := 7
    s.me.canIssue st s.now = true ∧ (st = .a → s.me.a.ckpts = []) ∧ s.me.limit ≠ 0 ∧ (s.ctl st).wait = some w ∧ w.since + s.me.limit.toNat ≤ s.now ∧ w.kind = .fe ea ∧ s.ev.who = .stream st) ∧
    (let s : State := placed .c
    let w := 0x160025002000
    let e := .reservedValue
    s.me.canIssue s.ev.st s.now = true ∧ (s.ev.st = .a → s.me.onPath = false) ∧ (s.ev.st = .m → s.me.m.queue = []) ∧ s.wordAt s.ev.st = .ok w ∧ decode s.ev.st w = .error e) ∧
    (let s : State := faulted
    let t := { cause := .pageFault, info := 0, sub := 3 }
    s.me.canIssue s.ev.st s.now = true ∧ (s.ev.st = .a → s.me.onPath = false) ∧ (s.ev.st = .m → s.me.m.queue = []) ∧ s.wordAt s.ev.st = .error (.trap t)) :=
  by refine ⟨?_, ?_, ?_, ?_, ?_, ?_, ?_, ?_, ?_, ?_, ?_⟩ <;> exact byKernel (letI := @exceptDec; letI := @partDec; letI := @strDec; letI := @bvDec; inferInstance) (by decide +kernel)
/-- The hypotheses of Traps are met. -/
theorem witness_Traps_2 :
    (let s : State := { placed .v with dir := [] }
    let pc := (s.ctl s.ev.st).pc.toNat
    let ps := (piecesX .v).1
    let sw := (piecesX .v).2
    let v := s.viewedFrom (s.fetchDraw pc) ps
    s.me.canIssue s.ev.st s.now = true ∧ (s.ev.st = .a → s.me.onPath = false) ∧ (s.ev.st = .m → s.me.m.queue = []) ∧ s.ev.st ≠ .m ∧ (s.ctl s.ev.st).kept = none ∧ s.pieces s.cur (.stream s.ev.st) .x pc s.ev.st.wordBits = .ok (ps, sw) ∧ (∃ p ∈ ps, (v.roleAt s.myPkg p.1).role ≠ .imm)) ∧
    (let s : State := { placed .c with psn := [(granKey 0 0, true)] }
    let pc := (s.ctl s.ev.st).pc.toNat
    let ps := (piecesX .c).1
    let sw := (piecesX .c).2
    let v := s.viewedFrom (s.fetchDraw pc) ps
    s.me.canIssue s.ev.st s.now = true ∧ (s.ev.st = .a → s.me.onPath = false) ∧ (s.ev.st = .m → s.me.m.queue = []) ∧ s.ev.st ≠ .m ∧ (s.ctl s.ev.st).kept = none ∧ s.pieces s.cur (.stream s.ev.st) .x pc s.ev.st.wordBits = .ok (ps, sw) ∧ (∀ p ∈ ps, (v.roleAt s.myPkg p.1).role = .imm) ∧ v.psnPieces s.myPkg ps = true) ∧
    (let s : State := onPathA
    let w := 0x160025002000
    let e := errOf (decode .a w)
    s.me.canIssue s.ev.st s.now = true ∧ (s.ev.st = .a ∧ s.me.onPath = true ∨ s.ev.st = .m ∧ s.me.m.queue ≠ []) ∧ s.wordAt s.ev.st = .ok w ∧ decode s.ev.st w = .error e) ∧
    (let s : State := faultQ
    let t := { cause := .pageFault, info := 0, sub := 3 }
    s.me.canIssue s.ev.st s.now = true ∧ (s.ev.st = .a ∧ s.me.onPath = true ∨ s.ev.st = .m ∧ s.me.m.queue ≠ []) ∧ s.wordAt s.ev.st = .error (.trap t)) :=
  by refine ⟨?_, ?_, ?_, ?_⟩ <;> exact byKernel (letI := @exceptDec; letI := @partDec; letI := @strDec; letI := @bvDec; inferInstance) (by decide +kernel)

/-- The hypotheses of Handlers are met. -/
theorem witness_Handlers :
    (let s : State := { sT cH with now := 15 }
    let st : Str := .a
    let n : Nat := 3
    s.me.stopAt = some n ∧ n + 12 ≤ s.now ∧ s.me.pend.getLsbD st.num = true ∧ (∀ o : Str, s.me.pend.getLsbD o.num = true → st.num ≤ o.num) ∧ s.me.job.isSome = true ∧ s.me.dead = false ∧ s.me.inh = false ∧ s.me.saving = false ∧ s.me.abort = none ∧ s.me.inIssue = false) ∧
    (let f : CsF := csX 0 0
    let s : State := sT
    guardOn f.g s.cg = true ∧ s.me.inh = false) ∧
    (let f : CsF := csX 0 0
    let s : State := sT cHandler
    guardOn f.g s.cg = true ∧ s.me.inh = true ∧ s.me.pend = 0 ∧ s.me.pre = false) ∧
    (let f : CsF := csX 0 0
    let s : State := sT { cHandler with pend := 12 }
    let st := Str.v
    guardOn f.g s.cg = true ∧ s.me.inh = true ∧ s.me.pend.getLsbD st.num = true ∧ (∀ o : Str, s.me.pend.getLsbD o.num = true → st.num ≤ o.num) ∧ (s.ctl st).tvec ≠ 0) ∧
    (let s : State := sT (cRdv 3)
    s.me.running s.now = true ∧ s.me.abort = none ∧ s.me.openStrs ≠ [] ∧ (∀ st ∈ s.me.openStrs, (s.ctl st).rdv.isSome = true) ∧ (∃ i, ∀ st ∈ s.me.openStrs, (s.ctl st).rdv = some i) ∧ (∀ st ∈ s.me.openStrs, (s.ctl st).rdvAt + 2 ≤ s.now)) ∧
    (let s : State := sT (cRdv 4)
    s.me.running s.now = true ∧ s.me.abort = none ∧ s.me.openStrs ≠ [] ∧ (∀ st ∈ s.me.openStrs, (s.ctl st).rdv.isSome = true) ∧ ¬(∃ i, ∀ st ∈ s.me.openStrs, (s.ctl st).rdv = some i)) ∧
    (let st : Str := Str.a
    (st = .c ∨ st = .a)) ∧
    (let st : Str := .a
    let o := .c
    (st = .c ∨ st = .a) ∧ o ≠ st) :=
  by refine ⟨?_, ?_, ?_, ?_, ?_, ?_, ?_, ?_⟩ <;> exact byKernel (letI := @exceptDec; letI := @partDec; letI := @strDec; letI := @bvDec; inferInstance) (by decide +kernel)

/-! The worklist. -/

def cWl : Core := { coreM with
  c := { ctl := { started := true, pc := 96 }, g := [(3, 0x3000), (4, 0x4000), (5, 7 + 2 ^ 32 * 9 + 2 ^ 60 * 5), (6, 2 ^ 52), (7, 3), (8, 2), (9, apB + 0x100), (11, apB + 0x108), (12, 0x7C00000040000100)] }
  credits := 3 }
def ctx1 : Ctx := { live := true, running := true, mask := 0xFFFF, saveSlots := 2, pool := [(0x1000000, 2)] }
def sWl (c : Core := cWl) : State := { st c with ctxs := [(1, ctx1)], ids := 40 }
def jsN (n : Nat) : JoinSlot := { armed := true, ctx := 1, count := BitVec.ofNat 32 n, rcd := rc0 }
def sJoin (j : JoinSlot) : State := { sWl with joins := [(3, j)] }
def memRec : List Host.Cell := memSetBits [] (bitKey 0 (apAddr 5 0x100)) 256 rc0.toNat
def sArm : State := { sWl with joins := [(1, jsN 9)], mem := memRec }
def joinsFull : List (Nat × JoinSlot) := (List.range' 1 (2 ^ 20 - 1)).map fun k => (k, jsN 1)
theorem lowestFree_range (n a : Nat) : lowestFree (List.range' a n) a = a + n := by
  induction n generalizing a with
  | zero => rfl
  | succ n ih => rw [List.range'_succ, lowestFree, if_pos rfl, ih]; omega
theorem freeJoin_full (s : State) (n : Nat) (h : n < 2 ^ 20) :
    ({ s with joins := (List.range' 1 n).map fun k => (k, jsN 1) } : State).freeJoin 0 =
      if 1 + n < 2 ^ 20 then some (1 + n) else none := by
  have e : ∀ l : List Nat, (∀ k ∈ l, 0 < k ∧ k < 2 ^ 20) →
      ((((l.map fun k => (k, jsN 1)).filter fun e => e.1 / 2 ^ 20 == 0 && e.2.armed).map fun e => e.1 % 2 ^ 20).filter (0 < ·)) = l := by
    intro l hl
    induction l with
    | nil => rfl
    | cons k l ih =>
      obtain ⟨h0, h1⟩ := hl k (by simp)
      have hk : k / 2 ^ 20 = 0 := Nat.div_eq_of_lt h1
      have hm : k % 2 ^ 20 = k := Nat.mod_eq_of_lt h1
      rw [List.map_cons, List.filter_cons_of_pos (by show (k / 2 ^ 20 == 0 && (jsN 1).armed) = true; rw [hk]; rfl),
        List.map_cons, List.filter_cons_of_pos (by show decide (0 < k % 2 ^ 20) = true; rw [hm]; exact decide_eq_true h0),
        ih fun k hk => hl k (by simp [hk]), hm]
  have := e (List.range' 1 n) fun k hk => by rw [List.mem_range'] at hk; omega
  unfold State.freeJoin
  simp only [this, lowestFree_range]
def dct1 : DieCtx := { basins := [(0, [{ rcd := { rc0 with pri := 2 } }])], g := some 2, fb := 5 }
def qrc (p : Nat) : QRec := { rcd := { rc0 with pri := BitVec.ofNat 32 p } }
def sQd : State := { sWl with dctxs := [(1, dct1)] }
@[irreducible] def coresBusy (c : Core) : List (Nat × Core) := (List.range' 0 768).map fun n => (n, if n = 5 then c else { job := some j0 })
@[irreducible] def sBusy (c : Core) : State := { sQd with cores := coresBusy c }
theorem tget_range {α : Type} (d : α) (f : Nat → α) (k n a : Nat) (h1 : a ≤ k) (h2 : k < a + n) :
    tget d ((List.range' a n).map fun n => (n, f n)) k = f k := by
  induction n generalizing a with
  | zero => omega
  | succ n ih =>
    rw [List.range'_succ, List.map_cons, tget]
    split
    · simp_all
    · exact ih (a + 1) (by omega) (by omega)
theorem anyFree_busy (c : Core) (h : c.isFree = false) : (sBusy c).anyFree 0 (fun _ => true) = false := by
  have e : ∀ n ∈ List.range 768, ((fun _ => true) n && ((sBusy c).coreAt (coreKey 0 n)).isFree) = false := by
    intro n hn
    have hk : coreKey 0 n = n := by simp [coreKey]
    have : (sBusy c).coreAt n = if n = 5 then c else { job := some j0 } := by
      unfold State.coreAt sBusy coresBusy
      exact tget_range _ (fun n => if n = 5 then c else { job := some j0 }) n 768 0 (by omega) (by simpa using List.mem_range.1 hn)
    rw [hk, this]
    split
    · simp [h]
    · rfl
  rw [State.anyFree, List.any_eq_false]
  exact fun n hn => by rw [e n hn]; decide
theorem notIdle (c : Core) (h : c.isFree = false) (hp : (sBusy c).myPkg = 0)
    (hw : ¬∀ x ∈ (sBusy c).runningCtxs (sBusy c).myPkg,
      (sBusy c).waitsHead (sBusy c).myPkg x = false ∧ (sBusy c).waitsSaved (sBusy c).myPkg x = false) :
    ¬((sBusy c).anyFree (sBusy c).myPkg (fun _ => true) = true ∨
      ∀ x ∈ (sBusy c).runningCtxs (sBusy c).myPkg,
        (sBusy c).waitsHead (sBusy c).myPkg x = false ∧ (sBusy c).waitsSaved (sBusy c).myPkg x = false) := by
  rintro (h1 | h1)
  · rw [hp, anyFree_busy c h] at h1; exact absurd h1 (by decide)
  · exact hw h1
def cWlP : Core := { cWl with
  phase := some { hdr := 0, va := 0, entry := [], region := [], shadow := [], insrc := 0, indst := 0, incnt := 0, inwc := 0, sems := [] } }
def recWords : Tbl W64 := (List.range 4).map fun i => (i, BitVec.ofNat 64 (rc0.toNat / 2 ^ (64 * i)))
def push1 : Push := { rcd := (qrc 3).rcd, die := 3, spawn := true, core := some 5 }
def sPush : State := { sWl { job := some j0, credits := 7 } with ctxs := [(1, { ctx1 with fh := some 4 })], pushes := [(8, push1)], ev := { id := 8 } }
def sRed : State := { sWl with dctxs := [(1, dct1)], cores := [], ctxs := [(1, { ctx1 with b := 25 })], ev := { ctx := 1 } }
def sNb : State := { sRed with
  dctxs := [(1, { dct1 with basins := [] }), (17, dct1)], ev := { ctx := 1, up := true }, ctxs := [(1, { ctx1 with mask := BitVec.allOnes 768 })] }
def sFw : State := { sNb with
  dctxs := [(17, { dct1 with basins := [(0, [qrc 2, qrc 3])] })], ctxs := [(1, { ctx1 with balMode := 1, thresh := 1 }), (17, { ctx1 with mask := 0 })]
  absent := (List.range 64).filter fun i => 2 < i }
def jobI : Job := { j0 with rcd := (qrc 4).rcd }
def sInvr : State := { st { job := some jobI, c := { ctl := { started := true, wait := some { since := 3, kind := .sync, blocked := some 3 } } } } with
  ctxs := [(1, { ctx1 with fh := some 4, invTimeout := 6, ringN := 4, ringI := 3 })] }

/-- The hypotheses of WorklistWords are met. -/
theorem witness_WorklistWords :
    (let f : CrF := cr 3 4 5 1
    let s : State := sWl
    let d : W64 := s.cg f.rd.toNat
    guardOn f.g s.cg = true ∧ s.cReady (CrQ f true true) [] = .ok () ∧ (f.rd = 0 ∨ d.extractLsb' 52 8 = 0) ∧ s.me.credits ≠ 0) ∧
    (let f : CrF := cr 3 4 0
    let s : State := sWl
    let d : W64 := s.cg f.rd.toNat
    guardOn f.g s.cg = true ∧ s.cReady (CrQ f true true) [] = .ok () ∧ (f.rd = 0 ∨ d.extractLsb' 52 8 = 0) ∧ s.me.credits ≠ 0) ∧
    (let f : CrF := cr 3 4 5 1
    let s : State := sWl { cWl with credits := 0 }
    let d : W64 := s.cg f.rd.toNat
    guardOn f.g s.cg = true ∧ s.cReady (CrQ f true true) [] = .ok () ∧ (f.rd = 0 ∨ d.extractLsb' 52 8 = 0) ∧ s.me.credits = 0) ∧
    (let f : CrF := cr 3 4 6
    let s : State := sWl
    let d : W64 := s.cg f.rd.toNat
    guardOn f.g s.cg = true ∧ s.cReady (CrQ f true true) [] = .ok () ∧ f.rd ≠ 0 ∧ d.extractLsb' 52 8 ≠ 0) ∧
    (let f : CrF := cr 7 4 5
    let s : State := sJoin (jsN 1)
    let k := joinKey s.myPkg ((s.cSrc f.qa f.ra).toNat % 2 ^ 20)
    let j : JoinSlot := tget {} s.joins k
    guardOn f.g s.cg = true ∧ s.me.credits ≠ 0 ∧ (∀ p ∈ s.pushes, p.2.core ≠ some s.cur) ∧ s.cReady (CrQ f true false) (qName f.qd f.rd) = .ok () ∧ j.armed = true ∧ j.ctx = s.job.rcd.ctx ∧ j.count = 1) ∧
    (let f : CrF := cr 7 4 5
    let s : State := sJoin (jsN 9)
    let k := joinKey s.myPkg ((s.cSrc f.qa f.ra).toNat % 2 ^ 20)
    let j : JoinSlot := tget {} s.joins k
    guardOn f.g s.cg = true ∧ s.me.credits ≠ 0 ∧ (∀ p ∈ s.pushes, p.2.core ≠ some s.cur) ∧ s.cReady (CrQ f true false) (qName f.qd f.rd) = .ok () ∧ j.armed = true ∧ j.ctx = s.job.rcd.ctx ∧ j.count ≠ 1) ∧
    (let f : CrF := cr 7 4 5
    let s : State := sJoin { jsN 9 with ctx := 2 }
    let k := joinKey s.myPkg ((s.cSrc f.qa f.ra).toNat % 2 ^ 20)
    let j : JoinSlot := tget {} s.joins k
    guardOn f.g s.cg = true ∧ s.me.credits ≠ 0 ∧ (∀ p ∈ s.pushes, p.2.core ≠ some s.cur) ∧ s.cReady (CrQ f true false) (qName f.qd f.rd) = .ok () ∧ (j.armed = false ∨ j.ctx ≠ s.job.rcd.ctx)) ∧
    (let f : CrF := cr 7 4 5
    let s : State := sJoin (jsN 9)
    let k := joinKey s.myPkg ((s.cSrc f.qa f.ra).toNat % 2 ^ 20)
    let j : JoinSlot := tget {} s.joins k
    let b := s.cSrc f.qb f.rb
    let n := j.count.toNat + b.toNat % 2 ^ 32
    guardOn f.g s.cg = true ∧ s.me.credits ≠ 0 ∧ (∀ p ∈ s.pushes, p.2.core ≠ some s.cur) ∧ s.cReady (CrQ f true true) (qName f.qd f.rd) = .ok () ∧ j.armed = true ∧ j.ctx = s.job.rcd.ctx ∧ n < 2 ^ 32) ∧
    (let f : CrF := cr 7 4 5
    let s : State := sJoin (jsN (2 ^ 32 - 1))
    let k := joinKey s.myPkg ((s.cSrc f.qa f.ra).toNat % 2 ^ 20)
    let j : JoinSlot := tget {} s.joins k
    let b := s.cSrc f.qb f.rb
    let n := j.count.toNat + b.toNat % 2 ^ 32
    guardOn f.g s.cg = true ∧ s.me.credits ≠ 0 ∧ (∀ p ∈ s.pushes, p.2.core ≠ some s.cur) ∧ s.cReady (CrQ f true true) (qName f.qd f.rd) = .ok () ∧ j.armed = true ∧ j.ctx = s.job.rcd.ctx ∧ 2 ^ 32 ≤ n) ∧
    (let f : CrF := cr 9 8 10
    let s : State := sArm
    let b := s.cSrc f.qb f.rb
    let ea := (s.cSrc f.qa f.ra).toNat
    let t := (okOf (s.target s.cur (.stream .c) .r true ea 256)).1
    let sw := false
    let v := okOf (s.armRec ea t)
    let n := 2
    guardOn f.g s.cg = true ∧ s.me.credits ≠ 0 ∧ (∀ p ∈ s.pushes, p.2.core ≠ some s.cur) ∧ s.cReady (CrQ f true true) (qName f.qd f.rd) = .ok () ∧ s.me.sent = none ∧ s.target s.cur (.stream .c) .r true ea 256 = .ok (t, sw) ∧ (∀ w p n o rs, t ≠ .peer w p n o rs) ∧ s.armRec ea t = .ok v ∧ b ≠ 0 ∧ b.toNat < 2 ^ 32 ∧ recRsv v = false ∧ s.freeJoin s.myPkg = some n) ∧
    (let f : CrF := cr 11 8 10
    let s : State := sArm
    let k := joinKey s.myPkg ((s.cSrc f.qa f.ra).toNat % 2 ^ 20)
    let ea := (s.cSrc f.qa f.ra).toNat
    let t := (okOf (s.target s.cur (.stream .c) .r true ea 256)).1
    let sw := false
    let k := match s.armRec ea t with | .error (.trap k) => k | _ => { cause := .trap }
    guardOn f.g s.cg = true ∧ s.me.credits ≠ 0 ∧ (∀ p ∈ s.pushes, p.2.core ≠ some s.cur) ∧ s.cReady (CrQ f true true) (qName f.qd f.rd) = .ok () ∧ s.me.sent = none ∧ s.target s.cur (.stream .c) .r true ea 256 = .ok (t, sw) ∧ (∀ w p n o rs, t ≠ .peer w p n o rs) ∧ s.armRec ea t = .error (.trap k)) ∧
    (let f : CrF := cr 12 8 10
    let s : State := sArm
    let ea := (s.cSrc f.qa f.ra).toNat
    let win := 1
    let pkg := 0
    let n := 6
    let o := 0x100
    let rs := [(0x100, 256)]
    let sw := false
    guardOn f.g s.cg = true ∧ s.me.credits ≠ 0 ∧ (∀ p ∈ s.pushes, p.2.core ≠ some s.cur) ∧ s.cReady (CrQ f true true) (qName f.qd f.rd) = .ok () ∧ s.me.sent = none ∧ s.target s.cur (.stream .c) .r true ea 256 = .ok (.peer win pkg n o rs, sw) ∧ (inPart .scratch o 256 = true ∨ inPart .acc o 256 = true) ∧ ea % 128 = 0 ∧ s.me.canSend win = true ∧ s.me.owesWin 0 win pkg (apAddr n o) (apAddr n o + 256) = false) :=
  by refine ⟨?_, ?_, ?_, ?_, ?_, ?_, ?_, ?_, ?_, ?_, ?_, ?_⟩ <;> exact byKernel (letI := @exceptDec; letI := @partDec; letI := @strDec; letI := @bvDec; letI := @peerDec; inferInstance) (by decide +kernel)
/-- The hypotheses of WorklistWords are met. -/
theorem witness_WorklistWords_2 :
    (let f : CrF := cr 12 8 10
    let s : State := sWl { cWl with sent := some 3 }
    guardOn f.g s.cg = true ∧ s.me.credits ≠ 0 ∧ (∀ p ∈ s.pushes, p.2.core ≠ some s.cur) ∧ s.cReady (CrQ f true true) (qName f.qd f.rd) = .ok () ∧ s.me.sent.isSome = true ∧ s.me.reply = none) ∧
    (let f : CrF := cr 12 8 10
    let v := rc0.toNat
    let s : State := sWl { cWl with sent := some 3, reply := some (v, none) }
    let b := s.cSrc f.qb f.rb
    let n := 1
    guardOn f.g s.cg = true ∧ s.me.credits ≠ 0 ∧ (∀ p ∈ s.pushes, p.2.core ≠ some s.cur) ∧ s.cReady (CrQ f true true) (qName f.qd f.rd) = .ok () ∧ s.me.sent.isSome = true ∧ s.me.reply = some (v, none) ∧ b ≠ 0 ∧ b.toNat < 2 ^ 32 ∧ recRsv v = false ∧ s.freeJoin s.myPkg = some n) ∧
    (let f : CrF := cr 0 0 5
    let s : State := sQd
    guardOn f.g s.cg = true ∧ s.cReady [] (qName f.qd f.rd) = .ok ()) ∧
    (let f : CsF := csX 0 0
    let s : State := sWl cWlP
    guardOn f.g s.cg = true ∧ s.me.phase ≠ none) ∧
    (let f : CsF := csX 0 0
    let s : State := sQd
    let idle := s.anyFree s.myPkg (fun _ => true) = true ∨ ∀ x ∈ s.runningCtxs s.myPkg, s.waitsHead s.myPkg x = false ∧ s.waitsSaved s.myPkg x = false
    guardOn f.g s.cg = true ∧ s.me.phase = none ∧ idle) :=
  by refine ⟨?_, ?_, ?_, ?_, ?_⟩ <;> exact byKernel (letI := @exceptDec; letI := @partDec; letI := @strDec; letI := @bvDec; letI := @peerDec; inferInstance) (by decide +kernel)
/-- The hypotheses of WorklistWords are met. -/
theorem witness_WorklistWords_a :
    let f : CrF := cr 9 8 10
    let s : State := { sArm with joins := joinsFull }
    let ea := (s.cSrc f.qa f.ra).toNat
    let t : Target := (okOf (sArm.target sArm.cur (.stream .c) .r true ea 256)).1
    let v : Nat := okOf (sArm.armRec ea t)
    let b := s.cSrc f.qb f.rb
    (guardOn f.g s.cg = true ∧ s.me.credits ≠ 0 ∧ (∀ p ∈ s.pushes, p.2.core ≠ some s.cur) ∧
      s.cReady (CrQ f true true) (qName f.qd f.rd) = .ok () ∧ s.me.sent = none ∧ s.target s.cur (.stream .c) .r true ea 256 = .ok (t, false) ∧
      (∀ w p n o rs, t ≠ .peer w p n o rs) ∧ s.armRec ea t = .ok v ∧ b ≠ 0 ∧ b.toNat < 2 ^ 32 ∧ recRsv v = false) ∧
      s.freeJoin s.myPkg = none :=
  ⟨byKernel (letI := @exceptDec; letI := @peerDec; inferInstance) (by decide +kernel), freeJoin_full sArm (2 ^ 20 - 1) (by decide)⟩
/-- The hypotheses of WorklistWords are met. -/
theorem witness_WorklistWords_b :
    let f : CsF := csX 0 0
    let s : State := sBusy ({ cWl with pend := 2 })
    let s1 := s.advance .c
    let idle := s.anyFree s.myPkg (fun _ => true) = true ∨ ∀ x ∈ s.runningCtxs s.myPkg, s.waitsHead s.myPkg x = false ∧ s.waitsSaved s.myPkg x = false
    guardOn f.g s.cg = true ∧ s.me.phase = none ∧ ¬idle ∧ (s.me.inh = true ∨ s.me.pend ≠ 0) :=
  ⟨by decide +kernel, by decide +kernel, notIdle _ (by decide +kernel) (by decide +kernel) (by decide +kernel), by decide +kernel⟩
/-- The hypotheses of WorklistWords are met. -/
theorem witness_WorklistWords_c :
    let f : CsF := csX 0 0
    let s : State := sBusy ({ cWl with inh := true })
    let s1 := s.advance .c
    let idle := s.anyFree s.myPkg (fun _ => true) = true ∨ ∀ x ∈ s.runningCtxs s.myPkg, s.waitsHead s.myPkg x = false ∧ s.waitsSaved s.myPkg x = false
    guardOn f.g s.cg = true ∧ s.me.phase = none ∧ ¬idle ∧ (s.me.inh = true ∨ s.me.pend ≠ 0) :=
  ⟨by decide +kernel, by decide +kernel, notIdle _ (by decide +kernel) (by decide +kernel) (by decide +kernel), by decide +kernel⟩
/-- The hypotheses of WorklistWords are met. -/
theorem witness_WorklistWords_d :
    let f : CsF := csX 0 0
    let s : State := sBusy (cWl)
    let s1 := s.advance .c
    let idle := s.anyFree s.myPkg (fun _ => true) = true ∨ ∀ x ∈ s.runningCtxs s.myPkg, s.waitsHead s.myPkg x = false ∧ s.waitsSaved s.myPkg x = false
    guardOn f.g s.cg = true ∧ s.me.phase = none ∧ ¬idle ∧ s.me.inh = false ∧ s.me.pend = 0 ∧ (s1.ctxAt s1.myCtx).freeSlot = some 0 :=
  ⟨by decide +kernel, by decide +kernel, notIdle _ (by decide +kernel) (by decide +kernel) (by decide +kernel), by decide +kernel, by decide +kernel, by decide +kernel⟩

/-- The hypotheses of WorklistEvents are met. -/
theorem witness_WorklistEvents :
    (let s : State := sPush
    let id : Nat := 8
    let p : Push := push1
    let pkg := p.die / 8
    let x := p.rcd.ctx
    let k := ctxKey pkg x
    let c := s.ctxAt k
    s.pushes.find? (·.1 == s.ev.id) = some (id, p) ∧ (∀ o ∈ s.pushes, o.1 < id → p.core = none ∨ o.2.core ≠ p.core) ∧ s.spilled pkg x + 2 ≤ 2 ^ 24 ∧ c.takes = true ∧ c.running = true) ∧
    (let s : State := sPush
    let id : Nat := 8
    let p : Push := push1
    s.pushes.find? (·.1 == s.ev.id) = some (id, p)) ∧
    (let s : State := { sRed with dctxs := [] }
    let pkg : Nat := 0
    let x : BitVec 4 := 1
    s.trueMin pkg x = none) ∧
    (let s : State := { sRed with ctxs := [(1, { ctx1 with fh := some 2 })] }
    let pkg : Nat := 0
    let x : BitVec 4 := 1
    let f : BitVec 32 := 2
    s.trueMin pkg x ≠ none ∧ (s.ctxAt (ctxKey pkg x)).fh = some f) ∧
    (let s : State := { sRed with ctxs := [(1, { ctx1 with dom := true }), (17, { ctx1 with dom := true, fh := some 2 })] }
    let pkg : Nat := 0
    let x : BitVec 4 := 1
    let v : Nat := 2
    s.trueMin pkg x ≠ none ∧ (s.ctxAt (ctxKey pkg x)).fh = none ∧ minOf ((s.floorPkgs pkg x).filterMap fun p => (s.ctxAt (ctxKey p x)).fh.map (·.toNat)) = some v) ∧
    (let m : Msg := { msgX .forward .home [] with rcd := some rc0 }
    let s : State := { sWl with msgs := [(3, some m)], ev := { id := 3 } }
    let r : Rec := rc0
    let k := ctxKey m.dpkg r.ctx
    s.msgAt s.ev.id = some m ∧ s.atDoor m = true ∧ m.kind = .forward ∧ m.rcd = some r ∧ (s.ctxAt k).takes = true ∧ s.spilled m.dpkg r.ctx + 1 ≤ 2 ^ 24) ∧
    (let s : State := sRed
    let pkg : Nat := 0
    let x : BitVec 4 := 1
    let k := ctxKey pkg x
    let p := okOf (match s.localMin 0 1 with | some n => (.ok n : Except Unit Nat) | none => .error ())
    (s.ctxAt k).dom = false ∧ s.localMin pkg x = some p) ∧
    (let s : State := { sRed with dctxs := [] }
    let pkg : Nat := 0
    let x : BitVec 4 := 1
    let k := ctxKey pkg x
    (s.ctxAt k).dom = false ∧ s.localMin pkg x = none) ∧
    (let s : State := { sRed with ctxs := [(1, { ctx1 with dom := true })] }
    let pkg : Nat := 0
    let x : BitVec 4 := 1
    let k := ctxKey pkg x
    (s.ctxAt k).dom = true) ∧
    (let s : State := { sRed with ctxs := [(1, { ctx1 with dom := true })] }
    let v : Nat := 2
    let x := s.ev.ctx
    let ps := (s.pkgsOf x).filter fun p => (s.ctxAt (ctxKey p x)).dom
    minOf (ps.filterMap fun p => s.localMin p x) = some v) ∧
    (let s : State := sRed
    let x : BitVec 4 := 1
    let d : Nat := 0
    let n : Nat := 0
    let l : List Nat := (List.range 16).drop 1
    let q : QRec := qrc 2
    let pkg := s.myPkg
    let s1 := (if s.ev.up then s.deliverAll pkg else s).markEligible pkg
    let k := ctxKey pkg x
    let c := s1.ctxAt k
    s1.winner pkg = some x ∧ s1.bestDie pkg x = some (d, q) ∧ s1.freeCores c d = n :: l) ∧
    (let s : State := sNb
    let q : QRec := qrc 2
    let d := dieKey s.cur
    let n := s.myPkg * 8 + (d % 8 + if s.ev.up then 1 else 7) % 8
    let x := s.ev.ctx
    let c := s.ctxAt (ctxKey s.myPkg x)
    let e := s.dctxAt d x
    c.live = true ∧ c.running = true ∧ s.freeCores c d ≠ [] ∧ (∀ o, c.headRec e = some o → e.admits o = false) ∧ c.headRec (s.dctxAt n x) = some q ∧ e.admits q = true) :=
  by refine ⟨?_, ?_, ?_, ?_, ?_, ?_, ?_, ?_, ?_, ?_, ?_, ?_⟩ <;> exact byKernel (letI := @exceptDec; letI := @partDec; letI := @strDec; letI := @bvDec; letI := @peerDec; inferInstance) (by decide +kernel)
/-- The hypotheses of WorklistEvents are met. -/
theorem witness_WorklistEvents_2 :
    (let s : State := sFw
    let a : Nat := 1
    let b : Nat := 2
    let d : Nat := 1
    let q : QRec := qrc 2
    let pkg := s.myPkg
    let x := s.ev.ctx
    let c := s.ctxAt (ctxKey pkg x)
    let held := ((diesOf pkg).map fun d => let e := s.dctxAt d x; (e.recs.filter fun q => e.admits q && q.area.isNone).length).foldl (· + ·) 0
    s.rackNext pkg true = some a ∧ s.rackNext pkg false = some b ∧ (diesOf pkg).find? (fun d => (c.headRec (s.dctxAt d x)).any fun q => q.area.isNone && (s.dctxAt d x).admits q) = some d ∧ c.live = true ∧ c.running = true ∧ c.balMode = 1 ∧ c.thresh < held ∧ c.headRec (s.dctxAt d x) = some q) ∧
    (let s : State := sInvr
    let j : Job := jobI
    let n : Nat := 3
    let k := ctxKey s.myPkg j.rcd.ctx
    let x := (s.ctxAt k).settle s.now
    s.me.job = some j ∧ s.me.blockedFrom = some n ∧ s.me.running s.now = true ∧ x.invTimeout ≠ 0 ∧ x.fh = some j.rcd.pri ∧ n + x.invTimeout.toNat ≤ s.now ∧ j.blocked ≠ some n) ∧
    (let s : State := { sRed with dctxs := [] }
    let x := s.ev.ctx
    let k := ctxKey s.myPkg x
    let c := (s.ctxAt k).settle s.now
    c.takes = true ∧ c.running = true ∧ (∀ p ∈ s.floorPkgs s.myPkg x, s.idleCtx p x = true) ∧ regRec c.done = none) ∧
    (let s : State := { sRed with dctxs := [], ctxs := [(1, { ctx1 with done := recWords })] }
    let x := s.ev.ctx
    let k := ctxKey s.myPkg x
    let c := (s.ctxAt k).settle s.now
    let r := rc0
    c.takes = true ∧ c.running = true ∧ (∀ p ∈ s.floorPkgs s.myPkg x, s.idleCtx p x = true) ∧ regRec c.done = some r) :=
  by refine ⟨?_, ?_, ?_, ?_⟩ <;> exact byKernel (letI := @exceptDec; letI := @partDec; letI := @strDec; letI := @bvDec; letI := @peerDec; inferInstance) (by decide +kernel)

/-! Tasks, and jobs saved and resumed. -/

def ctxT : Ctx := { ctx1 with dvec := 0x99, qlimit := 77, quantum := 5, root := 0 }
def mTask : List Host.Cell :=
  [(0, 0x8001), (0x8000, 0x10001), (0x10000, 0x18001), (0x18000, 0x20001), (0x20000, 0x801E3), (0x82000, 0x30000), (0x82040, 0x100000),
   (0x820C0, 0x400000), (0x82100, 7)].foldl (fun m p => memSetBits m (bitKey 0 p.1) 64 p.2) []
def sTask (c : Core) : State :=
  { cores := [(5, c)], cur := 5, mem := mTask, now := 10, dir := [(16, immE)], ctxs := [(1, ctxT), (2, { ctxT with mask := 32, pass := 3 })]
    dctxs := [(2, { basins := [(0, [{ rcd := { rc0 with pri := 2, ctx := 2 } }])], g := some 2, fb := 5 })], ids := 40, ev := { ctx := 2 } }
def cGr : Core := { grant := some { rcd := rc0 }, prev := some 2 }
def cEnd : Core := { job := some j0, prev := some 1, c := { ctl := { started := true, ended := true } } }
def cSv : Core := { cWl with saving := true, saveSlot := 1, stopAt := some 3, sem := [(4, 9)], a := { a := [(3, 77)] } }
def paSv : Nat := ctxT.slotPa 1
def qSv : QRec := { rcd := rc0, area := some paSv }
def hdSv : Nat := 1 + 2 ^ 42 + 2 ^ 64 * rc0.toNat
def sSaved : State := { sTask { grant := some qSv } with mem := memSetBits mTask (bitKey 0 paSv) 512 hdSv }
def cArea (h : Bool) : Core := { cWl with tlb := [{ pg0 with va := 0 }], inh := h, c := { cWl.c with g := [(3, 0)] }, stopAt := some 3 }
def sArea (h : Bool) : State := { sTask (cArea h) with dir := (List.range 16).map fun i => (16 + i, own0) }
def svF : CrF := cr 3 0 5
def pasA (n : Nat) : Except Stop (List Nat) := (sArea true).areaPas 0 n .w .wr
def sLd : State := { sArea true with mem := memSetBits mTask (bitKey 0 0x80000) 512 hdSv }
def pasL (n : Nat) : Except Stop (List Nat) := (sLd.cPop svF.pk (CrQ svF true false)).areaPas 0 n .r .rd

/-- The hypotheses of TasksAndSaves are met. -/
theorem witness_TasksAndSaves :
    (let s : State := sTask cGr
    let q : QRec := { rcd := rc0 }
    let r := q.rcd
    let es := (((sTask cGr).header 5 1 0x2000).getD ([], 0)).1
    let accx := (((sTask cGr).header 5 1 0x2000).getD ([], 0)).2
    s.me.grant = some q ∧ q.area = none ∧ s.me.job = none ∧ s.header s.cur r.ctx r.code = some (es, accx)) ∧
    (let s : State := { sTask cGr with dir := [] }
    let q : QRec := { rcd := rc0 }
    let r := q.rcd
    s.me.grant = some q ∧ q.area = none ∧ s.me.job = none ∧ s.header s.cur r.ctx r.code = none) ∧
    (let s : State := sTask cEnd
    s.me.finished s.now = true ∧ s.me.a.ctl.due = none) ∧
    (let s : State := sTask { cEnd with a := { ctl := { due := some { cause := .misalign } } } }
    let x := { cause := .misalign }
    s.me.finished s.now = true ∧ s.me.a.ctl.due = some x) ∧
    (let s : State := sTask { job := some j0, pend := 1 }
    let y : BitVec 4 := 1
    let ck : Nat := 5
    let j : Job := j0
    let l := s.rivals s.myPkg s.ev.ctx
    let n := (s.ctxAt (ctxKey s.myPkg y)).quantum
    s.topPass s.myPkg l = some y ∧ longestOf (l.filter fun e => e.2.rcd.ctx == y) = some (ck, j) ∧ s.waitsCore s.myPkg s.ev.ctx = true ∧ n ≠ 0 ∧ j.since + n ≤ s.now ∧ (s.coreAt ck).trigLate s.now = false ∧ ((s.coreAt ck).inh = true ∨ (s.coreAt ck).pend ≠ 0)) ∧
    (let s : State := sTask { job := some j0 }
    let y : BitVec 4 := 1
    let ck : Nat := 5
    let j : Job := j0
    let l := s.rivals s.myPkg s.ev.ctx
    let n := (s.ctxAt (ctxKey s.myPkg y)).quantum
    let i := 0
    let k := 1
    s.topPass s.myPkg l = some y ∧ longestOf (l.filter fun e => e.2.rcd.ctx == y) = some (ck, j) ∧ s.waitsCore s.myPkg s.ev.ctx = true ∧ n ≠ 0 ∧ j.since + n ≤ s.now ∧ (s.coreAt ck).trigLate s.now = false ∧ (s.coreAt ck).inh = false ∧ (s.coreAt ck).pend = 0 ∧ (s.coreAt ck).job = some j ∧ k = ctxKey (pkgOf ck) j.rcd.ctx ∧ (s.ctxAt k).freeSlot = some i) ∧
    (let s : State := sTask cSv
    let j : Job := j0
    s.me.job = some j ∧ s.me.saving = true ∧ s.me.dead = false ∧ s.me.abort = none ∧ s.me.inIssue = false ∧ s.me.drained = true) ∧
    (let s : State := sSaved
    let q : QRec := qSv
    let pa : Nat := paSv
    let r := q.rcd
    let rd : Reader := fun o n => memBits s.mem (bitKey s.myPkg (pa + o)) n
    let poisoned := (List.range ((saSize (rd 384 18) (rd 402 10) + 127) / 128)).any fun i => tget false s.psn (granKey s.myPkg (pa + 128 * i))
    s.me.grant = some q ∧ q.area = some pa ∧ s.me.job = none ∧ areaFits rd r = true ∧ poisoned = false) ∧
    (let s : State := { sSaved with mem := [] }
    let q : QRec := qSv
    let pa : Nat := paSv
    let r := q.rcd
    let rd : Reader := fun o n => memBits s.mem (bitKey s.myPkg (pa + o)) n
    s.me.grant = some q ∧ q.area = some pa ∧ s.me.job = none ∧ areaFits rd r = false) ∧
    (let s : State := { sSaved with psn := [(granKey 0 (paSv + 128), true)] }
    let q : QRec := qSv
    let pa : Nat := paSv
    let r := q.rcd
    let rd : Reader := fun o n => memBits s.mem (bitKey s.myPkg (pa + o)) n
    let poisoned := (List.range ((saSize (rd 384 18) (rd 402 10) + 127) / 128)).any fun i => tget false s.psn (granKey s.myPkg (pa + 128 * i))
    s.me.grant = some q ∧ q.area = some pa ∧ s.me.job = none ∧ areaFits rd r = true ∧ poisoned = true) ∧
    (let f : CrF := svF
    let s : State := sArea false
    guardOn f.g s.cg = true ∧ s.cReady (CrQ f true false) (qName f.qd f.rd) = .ok () ∧ s.me.inh = false) ∧
    (let f : CrF := svF
    let s : State := sArea true
    let a := s.cSrc f.qa f.ra
    let s1 := s.cPop f.pk (CrQ f true false)
    let pas := okOf (pasA (saSize 0 0))
    let lanes := if f.fn.getLsbD 1 then s.job.accx else 0
    let spg := if f.fn.getLsbD 0 then (s.ctxAt s.myCtx).savex else 0
    let n := saSize lanes spg
    guardOn f.g s.cg = true ∧ s.cReady (CrQ f true false) (qName f.qd f.rd) = .ok () ∧ s.me.inh = true ∧ areaBase s.cur a.toNat = .ok () ∧ s1.me.drained = true ∧ s1.areaPas a.toNat n .w .wr = .ok pas) :=
  by refine ⟨?_, ?_, ?_, ?_, ?_, ?_, ?_, ?_, ?_, ?_, ?_, ?_⟩ <;> exact byKernel (letI := @exceptDec; letI := @partDec; letI := @strDec; letI := @bvDec; inferInstance) (by decide +kernel)
/-- The hypotheses of TasksAndSaves are met. -/
theorem witness_TasksAndSaves_2 :
    (let f : CrF := svF
    let s : State := sArea false
    guardOn f.g s.cg = true ∧ s.cReady (CrQ f true false) [] = .ok () ∧ s.me.inh = false) ∧
    (let f : CrF := svF
    let s : State := sLd
    let a := s.cSrc f.qa f.ra
    let s1 := s.cPop f.pk (CrQ f true false)
    let pas0 := okOf (pasL 1024)
    let pas := okOf (pasL (saSize 0 0))
    let at_ := s1.areaAt a.toNat .r
    let at1 (o n : Nat) : Pieces := (cuts o n).map fun p => (at_ p.1, p.2)
    let v0 := s1.viewed (at1 0 1024)
    let hd : Reader := fun o n => v0.rdPieces s.myPkg (at1 o n)
    let head : Rec := recOf (hd 64 256)
    let n := saSize (hd 384 18) (hd 402 10)
    let v := s1.viewed (at1 0 n)
    let rd : Reader := fun o n => v.rdPieces s.myPkg (at1 o n)
    guardOn f.g s.cg = true ∧ s.cReady (CrQ f true false) [] = .ok () ∧ s.me.inh = true ∧ areaBase s.cur a.toNat = .ok () ∧ s1.areaPas a.toNat 1024 .r .rd = .ok pas0 ∧ s1.me.drained = true ∧ v0.psnPieces s.myPkg (at1 0 1024) = false ∧ hd 0 16 = 1 ∧ hd 42 4 = s.job.rcd.ctx.toNat ∧ head.frame = s.job.rcd.frame ∧ head.code = s.job.rcd.code ∧ hd 384 18 ≤ laneCount ∧ hd 402 10 ≤ 512 ∧ s1.areaPas a.toNat n .r .rd = .ok pas ∧ v.psnPieces s.myPkg (at1 0 n) = false) :=
  by refine ⟨?_, ?_⟩ <;> exact byKernel (letI := @exceptDec; letI := @partDec; letI := @strDec; letI := @bvDec; inferInstance) (by decide +kernel)

/-! The host, the firmware and the kill of a context. -/

def arg0 : Args := { a0 := 0, a1 := 0, a2 := 0, a3 := 0, a4 := 0, a5 := 0 }
def ctxK : Ctx := { ctx1 with image := 1 }
def im1 : Image := { handle := 1, secs := [{ role := .imm, va := 0x2000, len := 4096 }], pages := [(0, 0x80000)], tasks := [0x2000], launch := none }
def pk0 : Pkg := { busy := false, up := true, images := [im1], granted := [(0, 4096)], handles := 2, log := [5, 6, 7] }
def sK (av : Args := arg0) (n : Nat := 0) : State :=
  { State.reset with pkgs := [(0, pk0)], ctxs := [(1, ctxK)], ev := { args := av, id := n, ctx := 1 }, cur := 5 }
def aCr : Args := { arg0 with a0 := 2 + 2 ^ 32, a1 := 0, a2 := 3, a3 := 77, a4 := 1, a5 := 128 }
def alC : Allot := { v := 0xFFFF + 2 ^ 1004 }
def sCr : State := { sK aCr with mem := memSetBits [] (bitKey 0 (hostBase + 8 * 128)) 1024 (0xFFFF + 2 ^ 1004) }
/-- The state that the command leaves when its DOOR is served. -/
def sCr0 : State := ({ sCr with ev := { sCr.ev with args := aCr } }).setPkgAt 0 { pk0 with doors := [] }
def rtC : Option (Nat × State) := (sCr0.setCtxAt 2 (newCtx aCr alC)).newTable 2
def stC1 : State := (rtC.getD (0, {})).2
def stC3 : State := ((stC1.setCtxAt 2 { stC1.ctxAt 2 with root := (rtC.getD (0, {})).1 }).mapPages 2 (rtC.getD (0, {})).1 im1.pages).getD {}
def bxL (r : W64) : LaunchBox := { ctx := 1, image := 1, pri := 3, root := r, args := 0x55 }
def sL (r : W64) : State := { sK with ctxs := [(1, { ctxK with running := false })], ev := { args := arg0, box := bxL r } }
def sKl (c : Ctx) : State := { sK arg0 0x80000 with ctxs := [(1, c)], dir := [(16, own0)] }
def sBk (b : Bank) (u : Bool) : State := { sK with banks := [(9, b)], ev := { id := 9, up := u, el := 3, args := arg0 } }
/-- An object of kind 2: one IMM section of 48 bits at address 2^20 and one byte of names. -/
def objN : Nat :=
  0x004F4854 + 2 ^ 32 * 1 + 2 ^ 48 * 2 + 2 ^ 64 * 1 + 2 ^ 320 * 1 + 2 ^ 512 * (2 ^ 48 * 1 + 2 ^ 128 * 48 + 2 ^ 256 * 2 ^ 20)
def aLd : Args := { arg0 with a1 := 120, a2 := 1024, a3 := 64 }
def sLd0 (m : List Host.Cell) : State := { sK aLd with mem := m }
def mObj : List Host.Cell := memSetBits [] (bitKey 0 hostBase) 960 objN
/-- A pool that leaves no DRAM free. -/
def sLdFull : State := { sLd0 mObj with ctxs := [(1, { ctxK with pool := [(0, 91759)] })] }
def pgsL : List (Nat × Nat) := ((sLd0 mObj).pagesFor 0 ((sLd0 mObj).inUse 0) (fileOf ((sLd0 mObj).hostBytes 0 0 120)).pageVas).getD []
/-- The 64 bytes of a mailbox write that rings DOOR. -/
def boxB : List Byte := List.replicate 55 7 ++ [1] ++ List.replicate 8 0
def sBox : State := { sK with ev := { args := { arg0 with a3 := 1 }, data := boxB } }
def im2 : Image := { im1 with secs := [{ role := .prv, va := 0, len := 4096 }] }
/-- A launch of an image with a PRV section, whose granule a recast holds or not. -/
def sLp (h : Bool) : State := { sL 0x2000 with pkgs := [(0, { pk0 with images := [im2] })], dir := [(16, { own0 with held := h })] }
def sRs (h : Bool) : State := { sK { arg0 with a0 := 1 } with ctxs := [(1, { ctxK with running := false })], dir := [(16, { own0 with held := h })] }
def sEcc : State := { sK { arg0 with a0 := 1, a1 := 0x80000 } (bankOf 0x80000) with ev := { args := { arg0 with a0 := 1, a1 := 0x80000 }, id := bankOf 0x80000 } }
def sHw : State := { sK with ev := { args := { arg0 with a0 := 128 }, data := [1, 2, 3] } }
def sHr : State := { sK with mem := memSetBits [] 0x80000 128 0xABCDEF, crcs := [(256, some 5)], ev := { args := { arg0 with a0 := 0x80000, a1 := 32, a2 := 64 } } }

/-- The hypotheses of HostAndKill are met. -/
theorem witness_HostAndKill :
    (let s : State := { State.reset with cur := 5 }
    (s.pkgAt s.myPkg).busy = true ∧ (s.pkgAt s.myPkg).doors = []) ∧
    (let s : State := sBox
    let v := s.ev.data.foldr (fun b v => b.toNat + 256 * v) 0
    let w (i : Nat) : W64 := BitVec.ofNat 64 (v / 2 ^ (64 * i))
    let args : Args := { a0 := w 0, a1 := w 1, a2 := w 2, a3 := w 3, a4 := w 4, a5 := w 5 }
    s.ev.args.a3 = 1 ∧ s.ev.args.a0 = 0 ∧ s.ev.data.length = 64) ∧
    (let s : State := sK { aLd with a1 := 5000 }
    let a : Args := s.ev.args
    let pkg := s.myPkg
    let is (op : Nat) : Prop := s.cmdAt op s.ev.args = some (op, a)
    let windows := s.inWindow pkg a.a0.toNat a.a1.toNat = true ∧ s.inWindow pkg a.a2.toNat a.a3.toNat = true
    is 1 ∧ ¬windows) ∧
    (let s : State := sLd0 []
    let a : Args := s.ev.args
    let pkg := s.myPkg
    let is (op : Nat) : Prop := s.cmdAt op s.ev.args = some (op, a)
    let file := s.hostBytes pkg a.a0.toNat a.a1.toNat
    let windows := s.inWindow pkg a.a0.toNat a.a1.toNat = true ∧ s.inWindow pkg a.a2.toNat a.a3.toNat = true
    is 1 ∧ windows ∧ (fileOf file).ok = false) ∧
    (let s : State := sLdFull
    let a : Args := s.ev.args
    let pkg := s.myPkg
    let p := s.pkgAt pkg
    let s0 : State := ({ s with ev := { s.ev with args := a } }).setPkgAt pkg { p with doors := p.doors.tail }
    let is (op : Nat) : Prop := s.cmdAt op s.ev.args = some (op, a)
    let file := s.hostBytes pkg a.a0.toNat a.a1.toNat
    let windows := s.inWindow pkg a.a0.toNat a.a1.toNat = true ∧ s.inWindow pkg a.a2.toNat a.a3.toNat = true
    is 1 ∧ windows ∧ (fileOf file).ok = true ∧ s0.pagesFor pkg (s0.inUse pkg) (fileOf file).pageVas = none) ∧
    (let s : State := sLd0 mObj
    let a : Args := s.ev.args
    let pkg := s.myPkg
    let p := s.pkgAt pkg
    let s0 : State := ({ s with ev := { s.ev with args := a } }).setPkgAt pkg { p with doors := p.doors.tail }
    let is (op : Nat) : Prop := s.cmdAt op s.ev.args = some (op, a)
    let file := s.hostBytes pkg a.a0.toNat a.a1.toNat
    let windows := s.inWindow pkg a.a0.toNat a.a1.toNat = true ∧ s.inWindow pkg a.a2.toNat a.a3.toNat = true
    let pages := pgsL
    is 1 ∧ windows ∧ (fileOf file).ok = true ∧ s0.pagesFor pkg (s0.inUse pkg) (fileOf file).pageVas = some pages) ∧
    (let s : State := sK { aCr with a0 := 1 + 2 ^ 32 }
    let a : Args := s.ev.args
    let pkg := s.myPkg
    let x := a.a0.extractLsb' 0 4
    let k := ctxKey pkg x
    let c := s.ctxAt k
    let is (op : Nat) : Prop := s.cmdAt op s.ev.args = some (op, a)
    is 2 ∧ createOk a = true ∧ c.live = true) ∧
    (let s : State := sK { aCr with a4 := 0 }
    let a : Args := s.ev.args
    let is (op : Nat) : Prop := s.cmdAt op s.ev.args = some (op, a)
    is 2 ∧ createOk a = false) ∧
    (let s : State := sCr
    let a : Args := s.ev.args
    let pkg := s.myPkg
    let p := s.pkgAt pkg
    let s0 : State := ({ s with ev := { s.ev with args := a } }).setPkgAt pkg { p with doors := p.doors.tail }
    let x := a.a0.extractLsb' 0 4
    let k := ctxKey pkg x
    let c := s.ctxAt k
    let is (op : Nat) : Prop := s.cmdAt op s.ev.args = some (op, a)
    let im := im1
    let root := (rtC.getD (0, {})).1
    let s1 := stC1
    let s3 := stC3
    let t := (stC3.newPool 2 1).getD {}
    let b : Allot := { v := memBits s.mem (bitKey pkg (hostBase + 8 * a.a5.toNat)) 1024 }
    is 2 ∧ createOk a = true ∧ c.live = false ∧ p.images.find? (fun i => i.handle == (a.a0.extractLsb' 32 32).toNat && !i.pages.isEmpty) = some im ∧ s.inWindow pkg a.a1.toNat (16 * a.a2.toNat) = true ∧ s.inWindow pkg a.a5.toNat 128 = true ∧ b.ok im = true ∧ s.weirsTaken k b = false ∧ s0.sysFree pkg im.grans = true ∧ (s0.setCtxAt k (newCtx a b)).newTable k = some (root, s1) ∧ (s1.setCtxAt k { s1.ctxAt k with root := root }).mapPages k root im.pages = some s3 ∧ s3.newPool k b.slots = some t) ∧
    (let s : State := sK
    let a : Args := s.ev.args
    let asks (sel : Nat) : Prop := s.cmdAt 3 { s.ev.args with a0 := BitVec.ofNat 64 sel } = some (3, a) ∧ a.a0.toNat = sel
    asks 0) ∧
    (let s : State := sK { arg0 with a0 := 1, a1 := 0x80000 }
    let a : Args := s.ev.args
    let asks (sel : Nat) : Prop := s.cmdAt 3 { s.ev.args with a0 := BitVec.ofNat 64 sel } = some (3, a) ∧ a.a0.toNat = sel
    let pa := 0x80000
    pa = a.a1.toNat ∧ place pa ≠ .none ∧ asks 1) ∧
    (let s : State := sK { arg0 with a0 := 2, a1 := 0x80000 }
    let a : Args := s.ev.args
    let asks (sel : Nat) : Prop := s.cmdAt 3 { s.ev.args with a0 := BitVec.ofNat 64 sel } = some (3, a) ∧ a.a0.toNat = sel
    let pa := 0x80000
    pa = a.a1.toNat ∧ place pa ≠ .none ∧ asks 2) :=
  by refine ⟨?_, ?_, ?_, ?_, ?_, ?_, ?_, ?_, ?_, ?_, ?_, ?_⟩ <;> exact byKernel (letI := @exceptDec; letI := @partDec; letI := @strDec; letI := @bvDec; inferInstance) (by decide +kernel)
/-- The hypotheses of HostAndKill are met. -/
theorem witness_HostAndKill_2 :
    (let s : State := sK { arg0 with a0 := 3, a1 := 0x80000 }
    let a : Args := s.ev.args
    let asks (sel : Nat) : Prop := s.cmdAt 3 { s.ev.args with a0 := BitVec.ofNat 64 sel } = some (3, a) ∧ a.a0.toNat = sel
    let pa := 0x80000
    pa = a.a1.toNat ∧ place pa ≠ .none ∧ asks 3) ∧
    (let s : State := sK { arg0 with a0 := 4, a1 := 4095 }
    let a : Args := s.ev.args
    let asks (sel : Nat) : Prop := s.cmdAt 3 { s.ev.args with a0 := BitVec.ofNat 64 sel } = some (3, a) ∧ a.a0.toNat = sel
    asks 4 ∧ a.a1.toNat < 4096) ∧
    (let s : State := sK { arg0 with a0 := 2 }
    let a : Args := s.ev.args
    let pkg := s.myPkg
    let x := a.a0.extractLsb' 0 4
    let k := ctxKey pkg x
    let c := s.ctxAt k
    let is (op : Nat) : Prop := s.cmdAt op s.ev.args = some (op, a)
    is 4 ∧ a.a0.toNat < 16 ∧ c.live = false) ∧
    (let s : State := sRs true
    let a : Args := s.ev.args
    let pkg := s.myPkg
    let p := s.pkgAt pkg
    let s0 : State := ({ s with ev := { s.ev with args := a } }).setPkgAt pkg { p with doors := p.doors.tail }
    let x := a.a0.extractLsb' 0 4
    let k := ctxKey pkg x
    let c := s.ctxAt k
    let is (op : Nat) : Prop := s.cmdAt op s.ev.args = some (op, a)
    let s1 := if c.running || c.killing.isSome || c.killReq.isSome then s0.killNow pkg x else s0
    is 4 ∧ a.a0.toNat < 16 ∧ c.live = true ∧ s1.sysFree pkg (s1.toFree pkg x) = false) ∧
    (let s : State := sRs false
    let a : Args := s.ev.args
    let pkg := s.myPkg
    let p := s.pkgAt pkg
    let s0 : State := ({ s with ev := { s.ev with args := a } }).setPkgAt pkg { p with doors := p.doors.tail }
    let x := a.a0.extractLsb' 0 4
    let k := ctxKey pkg x
    let c := s.ctxAt k
    let is (op : Nat) : Prop := s.cmdAt op s.ev.args = some (op, a)
    let s1 := if c.running || c.killing.isSome || c.killReq.isSome then s0.killNow pkg x else s0
    is 4 ∧ a.a0.toNat < 16 ∧ c.live = true ∧ s1.sysFree pkg (s1.toFree pkg x) = true) ∧
    (let s : State := sK { arg0 with a0 := 5, a1 := 2 }
    let a : Args := s.ev.args
    let pkg := s.myPkg
    let p := s.pkgAt pkg
    let is (op : Nat) : Prop := s.cmdAt op s.ev.args = some (op, a)
    let n := min a.a1.toNat p.log.length
    is 5 ∧ s.inWindow pkg a.a0.toNat (16 * n) = true) ∧
    (let s : State := sK arg0 255
    let a : Args := s.ev.args
    let op := 255
    s.cmdAt s.ev.id s.ev.args = some (op, a) ∧ (op = 0 ∨ 5 < op ∨ op = 3 ∧ 4 < a.a0.toNat) ∧ op < 256) ∧
    (let s : State := sK arg0 6
    let a : Args := s.ev.args
    let op := 6
    s.cmdAt s.ev.id s.ev.args = some (op, a) ∧ (op = 0 ∨ 5 < op ∨ op = 3 ∧ 4 < a.a0.toNat) ∧ op < 256) ∧
    (let s : State := sK arg0 0
    let a : Args := s.ev.args
    let op := 0
    s.cmdAt s.ev.id s.ev.args = some (op, a) ∧ (op = 0 ∨ 5 < op ∨ op = 3 ∧ 4 < a.a0.toNat) ∧ op < 256) ∧
    (let s : State := sK { arg0 with a0 := 5 } 3
    let a : Args := s.ev.args
    let op := 3
    s.cmdAt s.ev.id s.ev.args = some (op, a) ∧ (op = 0 ∨ 5 < op ∨ op = 3 ∧ 4 < a.a0.toNat) ∧ op < 256) ∧
    (let s : State := sL 9
    let bx : LaunchBox := bxL 9
    let pkg := s.myPkg
    let n := 4
    s.launchAt = some bx ∧ s.launchCode pkg bx = (n, none)) ∧
    (let s : State := sLp true
    let bx : LaunchBox := bxL 0x2000
    let pkg := s.myPkg
    let im := im2
    let root := 0x2000
    let args := 0x55
    let free := s.sysFree pkg (((im.secs.filter (·.role == .prv)).map fun y => y.pas im.pages).flatten)
    s.launchAt = some bx ∧ s.launchCode pkg bx = (0, some (im, root, args)) ∧ free = false) :=
  by refine ⟨?_, ?_, ?_, ?_, ?_, ?_, ?_, ?_, ?_, ?_, ?_, ?_⟩ <;> exact byKernel (letI := @exceptDec; letI := @partDec; letI := @strDec; letI := @bvDec; inferInstance) (by decide +kernel)
/-- The hypotheses of HostAndKill are met. -/
theorem witness_HostAndKill_3 :
    (let s : State := sLp false
    let bx : LaunchBox := bxL 0x2000
    let pkg := s.myPkg
    let im := im2
    let root := 0x2000
    let args := 0x55
    let free := s.sysFree pkg (((im.secs.filter (·.role == .prv)).map fun y => y.pas im.pages).flatten)
    s.launchAt = some bx ∧ s.launchCode pkg bx = (0, some (im, root, args)) ∧ free = true) ∧
    (let s : State := sHw
    let pkg := s.myPkg
    let a := s.ev.args
    let pa := a.a0.toNat
    let m := 8 * s.ev.data.length
    a.a3 ≠ 1 ∧ pa % 8 = 0 ∧ hostReach pa m = true ∧ s.hostFree pkg pa m = true) ∧
    (let s : State := { sHw with dir := [(0, { own0 with qr := true })] }
    let pkg := s.myPkg
    let a := s.ev.args
    let pa := a.a0.toNat
    let m := 8 * s.ev.data.length
    a.a3 ≠ 1 ∧ s.hostFree pkg pa m = false) ∧
    (let s : State := sHr
    let pkg := s.myPkg
    let a := s.ev.args
    let pa := a.a0.toNat
    let n := 8 * a.a1.toNat
    let h := hostBase + 8 * a.a2.toNat
    a.a3 ≠ 1 ∧ hostReach pa n = true ∧ hostReach h n = true ∧ s.hostFree pkg pa n = true ∧ pa + n ≤ hostBase ∧ pa % 128 = 0 ∧ h % 128 = 0 ∧ n % 128 = 0) ∧
    (let s : State := sKl { ctxK with killReq := some 5 }
    let pkg := s.myPkg
    let x := s.ev.ctx
    let k := ctxKey pkg x
    let n := 5
    (s.ctxAt k).killing = none ∧ (s.ctxAt k).killReq = some n) ∧
    (let s : State := sKl { ctxK with killing := some 5 }
    let pkg := s.myPkg
    let x := s.ev.ctx
    let k := ctxKey pkg x
    let n := 5
    let e := s.roleAt pkg s.ev.id
    (s.ctxAt k).killing = some n ∧ e.ctx = x ∧ e.sys = false ∧ e.role ≠ .imm ∧ s.foreign pkg x s.ev.id = false) ∧
    (let s : State := { sKl { ctxK with killing := some 5 } with dir := [] }
    let pkg := s.myPkg
    let x := s.ev.ctx
    let k := ctxKey pkg x
    let n := 5
    (s.ctxAt k).killing = some n ∧ s.unflipped pkg x = []) ∧
    (let s : State := sKl { ctxK with killing := some 5 }
    let pkg := s.myPkg
    let x := s.ev.ctx
    let k := ctxKey pkg x
    let n := 5
    (s.ctxAt k).killing = some n ∧ s.unflipped pkg x ≠ []) ∧
    (let s : State := sBk { cnt := 5 } true
    s.ev.id < 4096 ∧ s.ev.up = true) ∧
    (let s : State := sBk { cnt := 5 } false
    let pkg := s.myPkg
    let b := s.bankAt pkg s.ev.id
    s.ev.id < 4096 ∧ s.ev.up = false ∧ s.ev.args.a0 = 0 ∧ b.cnt.toNat + s.ev.el < 65536) ∧
    (let s : State := sEcc
    let pkg := s.myPkg
    let b := s.bankAt pkg s.ev.id
    let d := 0
    let o := 0x80000
    s.ev.id < 4096 ∧ s.ev.up = false ∧ s.ev.args.a0 = 1 ∧ s.ev.el = 0 ∧ place s.ev.args.a1.toNat = .dram d o ∧ bankOf s.ev.args.a1.toNat = s.ev.id ∧ b.ue.toNat < 65535 ∧ (b.thr.toNat < b.cnt.toNat → b.due = true ∨ b.strong = true)) ∧
    (let s : State := sBk { cnt := 5, thr := 3, due := true } false
    let pkg := s.myPkg
    let b := s.bankAt pkg s.ev.id
    s.ev.id < 4096 ∧ b.strong = false ∧ b.busy = false ∧ b.due = true ∧ s.topPages pkg s.ev.id = []) :=
  by refine ⟨?_, ?_, ?_, ?_, ?_, ?_, ?_, ?_, ?_, ?_, ?_, ?_⟩ <;> exact byKernel (letI := @exceptDec; letI := @partDec; letI := @strDec; letI := @bvDec; inferInstance) (by decide +kernel)
/-- The hypotheses of HostAndKill are met. -/
theorem witness_HostAndKill_4 :
    (let s : State := sBk { cnt := 5, busy := true } false
    let pkg := s.myPkg
    let b := s.bankAt pkg s.ev.id
    s.ev.id < 4096 ∧ b.busy = true) :=
  byKernel (letI := @exceptDec; letI := @partDec; letI := @strDec; letI := @bvDec; inferInstance) (by decide +kernel)

/-! Steps, decoding, memory, frames. -/

/-- An event names no stream, or it does. -/
def evDec (e : EvArg) : Decidable (∀ st, e.who ≠ .stream st) := strDec fun st => e.who ≠ .stream st
def awayDec (x : Target) : Decidable (∀ o ps, x ≠ .own o ps) :=
  match x with
  | .own o ps => isFalse fun h => h o ps rfl
  | .mem _ => isTrue fun _ _ e => nomatch e
  | .peer _ _ _ _ _ => isTrue fun _ _ e => nomatch e
def p0 (y : Str) (w : Nat) : State := placeWord State.reset y w
def pC (y : Str) (w : Nat) (h : Core → Core) : State := (p0 y w).updCore 0 h
def pOn (y : Str) (w : Nat) (h : Stream → Stream) : State := pC y w fun c => c.setCtl y (h (c.ctl y))
def abD : Abort := { err := false, st := .c, trap := none, g5 := 0 }
def dueT : Trap := { cause := .atomicFault }
def pDue : State := pOn .a 0 fun x => { x with due := some dueT }
def pStall : State :=
  { pC .c 0x160025002800 fun c => { c.setCtl .c { c.ctl .c with wait := some { since := 0, kind := .queue 2 } } with limit := 1 } with now := 5 }
def pFault : State := pOn .m 0 fun x => { x with walkFault := some (0, 3), tlb := [] }
def turnE : Turn := { dt := 3, act := .event .floorReduction 5 { id := 3 } }
def sAg (x : Turn) : State := { State.reset with agenda := [x] }
def addC : Instr := .addi { g := g0, rd := 3, ra := 0, imm := 5 }
def vOp : VF :=
  { g := g0, tag := 5, vd := 3, va := 1, vb := 2, vc := 4, k := 0, rm := 0, sat := 0, pk := 0, qd := 0, qa := 0, qb := 0, qx := 0 }
/-- A V word of a register source, or of a queue. -/
def vWd (q : Nat) : Nat := ((encode (.vadd { vOp with vc := 0, va := BitVec.ofNat 5 (1 - q), qa := BitVec.ofNat 1 q })).getD (.v, 0)).2
def fly3 : VRes := { dst := .v 1, due := 3, val := {}, wmask := 0, full := true, flags := 0 }
def pV (q slot : Nat) : State := pC .v (vWd q) fun c => { c with v := { c.v with v := [(1, { tag := 5 }), (2, { tag := 5 })], slot := slot, fly := [fly3] } }
def vvX (t : Nat) : VVal := { bits := 0xFEDCBA98765432100123456789ABCDEF8000000080000000FFFFFFFF00000001, tag := BitVec.ofNat 5 t }
def sVst : State := st { coreM with v := { v := [(1, vvX 5), (2, vvX 5), (4, vvX 5)], g := [(5, apB)] } }
def vSt : VF := { vOp with va := 5, vd := 1 }
def pssV : List Pieces := okOf (allPass ((List.range 16).map fun g => sVst.granAccess .w .wr ((sVst.vEa vSt + 128 * g) % 2 ^ 64)))
def aiSt : AiF := { fLd with ad := 8 }
def ciSt : CiF := { g := g0, rd := 5, ra := 3, imm := 0x24000 }
/-- A context that runs one job of PRI 5, under a floor of 4. -/
def sFloor : State :=
  { sAg { dt := 3, act := .copyMove 5 6 7 } with cores := [(5, core0)], ctxs := [(1, { live := true, running := true, fh := some 4 })] }
theorem floorInv_sFloor : FloorInv sFloor := by
  have hd (d : Nat) (x : BitVec 4) : sFloor.dctxAt d x = {} := rfl
  have hc (k : Nat) : sFloor.coreAt k = if k = 5 then core0 else {} := rfl
  have hx (k : Nat) : sFloor.ctxAt k = if k = 1 then { live := true, running := true, fh := some 4 } else {} := rfl
  have hf (pkg : Nat) (x : BitVec 4) : sFloor.floorPkgs pkg x = [pkg] := by
    unfold State.floorPkgs
    rw [hx]
    split <;> rfl
  refine ⟨fun d x q hq => ?_, fun pkg x => ⟨fun p h => ?_, fun _ q hq f g h1 h2 => ?_, fun f _ d _ => ?_⟩⟩
  · rw [hd] at hq; nomatch hq
  · rcases h with ⟨d, _, q, hq, _⟩ | ⟨k, hk, ⟨j, hj, hx, hp⟩ | ⟨q, hq, _⟩⟩
    · rw [hd] at hq; nomatch hq
    · rw [hc] at hj
      split at hj
      · next h5 =>
        subst h5
        cases hj
        subst hx hp hk
        refine ⟨rfl, rfl, rfl, rfl, fun q hq f h => ?_⟩
        rw [hf, List.mem_singleton] at hq
        subst hq
        cases h
        decide
      · nomatch hj
    · rw [hc] at hq
      split at hq <;> nomatch hq
  · rw [hf, List.mem_singleton] at hq
    subst hq
    exact Option.some.inj (h2.symm.trans h1)
  · rw [hd]; exact Nat.zero_le _

/-- The hypotheses of StepRunsDecoded are met. -/
theorem witness_StepRunsDecoded :
    (let s : State := pOn .c 0 fun x => { x with stopped := true }
    let dt : Nat := 0
    let ck : Nat := 0
    let st : Str := Str.c
    let rest : List Turn := []
    let u : State := { s with agenda := rest, now := s.now + dt, cur := ck }
    s.agenda = { dt := dt, act := .stream ck st } :: rest ∧ u.me.canIssue st u.now = false ∧ u.me.abort = none) ∧
    (let s : State := pC .c 0 fun c => { c with abort := some abD }
    let dt : Nat := 0
    let ck : Nat := 0
    let st : Str := Str.c
    let rest : List Turn := []
    let u : State := { s with agenda := rest, now := s.now + dt, cur := ck }
    let ab := abD
    s.agenda = { dt := dt, act := .stream ck st } :: rest ∧ u.me.abort = some ab ∧ (u.me.canIssue st u.now = false ∨ u.me.issued st = false)) ∧
    (let s : State := pDue
    let dt : Nat := 0
    let ck : Nat := 0
    let st : Str := Str.a
    let rest : List Turn := []
    let u : State := { s with agenda := rest, now := s.now + dt, cur := ck }
    let t := dueT
    s.agenda = { dt := dt, act := .stream ck st } :: rest ∧ u.me.canIssue st u.now = true ∧ (u.me.abort = none ∨ u.me.issued st = true) ∧ (u.ctl st).due = some t ∧ u.me.mayTrap st = true) ∧
    (let s : State := pStall
    let dt : Nat := 0
    let ck : Nat := 0
    let st : Str := Str.c
    let rest : List Turn := []
    let u : State := { s with agenda := rest, now := s.now + dt, cur := ck }
    let i := .queueStall
    let v := ((u.stallNow st).map (·.2)).getD u
    s.agenda = { dt := dt, act := .stream ck st } :: rest ∧ u.me.canIssue st u.now = true ∧ (u.me.abort = none ∨ u.me.issued st = true) ∧ ((u.ctl st).due = none ∨ u.me.mayTrap st = false) ∧ stallOf u.me st u.now ≠ none ∧ u.stallNow st = some (i, v)) ∧
    (let s : State := pV 0 4
    let dt : Nat := 0
    let ck : Nat := 0
    let st : Str := Str.v
    let rest : List Turn := []
    let u : State := { s with agenda := rest, now := s.now + dt, cur := ck }
    s.agenda = { dt := dt, act := .stream ck st } :: rest ∧ u.me.canIssue st u.now = true ∧ (u.me.abort = none ∨ u.me.issued st = true) ∧ ((u.ctl st).due = none ∨ u.me.mayTrap st = false) ∧ (stallOf u.me st u.now = none ∨ u.stallNow st = none) ∧ st = .v ∧ u.me.landingDue = true) ∧
    (let s : State := pFault
    let dt : Nat := 0
    let ck : Nat := 0
    let st : Str := Str.m
    let rest : List Turn := []
    let u : State := { s with agenda := rest, now := s.now + dt, cur := ck }
    let t := { cause := .pageFault, info := 0, sub := 3 }
    s.agenda = { dt := dt, act := .stream ck st } :: rest ∧ u.me.canIssue st u.now = true ∧ (u.me.abort = none ∨ u.me.issued st = true) ∧ ((u.ctl st).due = none ∨ u.me.mayTrap st = false) ∧ (stallOf u.me st u.now = none ∨ u.stallNow st = none) ∧ (st = .v → u.me.landingDue = false) ∧ u.wordAt st = .error (.trap t)) ∧
    (let s : State := pOn .c 0 fun x => { x with tlb := [] }
    let dt : Nat := 0
    let ck : Nat := 0
    let st : Str := Str.c
    let rest : List Turn := []
    let u : State := { s with agenda := rest, now := s.now + dt, cur := ck }
    let va := 0
    s.agenda = { dt := dt, act := .stream ck st } :: rest ∧ u.me.canIssue st u.now = true ∧ (u.me.abort = none ∨ u.me.issued st = true) ∧ ((u.ctl st).due = none ∨ u.me.mayTrap st = false) ∧ (stallOf u.me st u.now = none ∨ u.stallNow st = none) ∧ (st = .v → u.me.landingDue = false) ∧ u.wordAt st = .error (.walk va)) ∧
    (let s : State := p0 .c 0x160025002000
    let dt : Nat := 0
    let ck : Nat := 0
    let st : Str := Str.c
    let rest : List Turn := []
    let u : State := { s with agenda := rest, now := s.now + dt, cur := ck }
    let w := 0x160025002000
    let e := .reservedValue
    s.agenda = { dt := dt, act := .stream ck st } :: rest ∧ u.me.canIssue st u.now = true ∧ (u.me.abort = none ∨ u.me.issued st = true) ∧ ((u.ctl st).due = none ∨ u.me.mayTrap st = false) ∧ (stallOf u.me st u.now = none ∨ u.stallNow st = none) ∧ (st = .v → u.me.landingDue = false) ∧ u.wordAt st = .ok w ∧ decode st w = .error e) ∧
    (let s : State := p0 .c 0x400023000005
    let dt : Nat := 0
    let ck : Nat := 0
    let st : Str := Str.c
    let rest : List Turn := []
    let u : State := { s with agenda := rest, now := s.now + dt, cur := ck }
    let w := 0x400023000005
    let i := addC
    s.agenda = { dt := dt, act := .stream ck st } :: rest ∧ u.me.canIssue st u.now = true ∧ (u.me.abort = none ∨ u.me.issued st = true) ∧ ((u.ctl st).due = none ∨ u.me.mayTrap st = false) ∧ (stallOf u.me st u.now = none ∨ u.stallNow st = none) ∧ (st = .v → u.me.landingDue = false) ∧ u.wordAt st = .ok w ∧ decode st w = .ok i) ∧
    (let u : State := pV 0 4
    u.me.canIssue .v u.now = true ∧ (∃ r ∈ u.me.v.fly, r.due < u.me.v.slot)) ∧
    (let u : State := pV 1 3
    let n := vWd 1
    let w := (u.polled .v).getD { since := 0, kind := .free }
    u.me.canIssue .v u.now = true ∧ (∀ r ∈ u.me.v.fly, u.me.v.slot ≤ r.due) ∧ u.polled .v = some w ∧ w.freezes = true ∧ u.wordAt .v = .ok n) ∧
    (let u : State := pV 0 3
    u.me.canIssue .v u.now = true ∧ (∀ r ∈ u.me.v.fly, u.me.v.slot ≤ r.due) ∧ (∀ w, u.polled .v = some w → w.freezes = false)) :=
  by refine ⟨?_, ?_, ?_, ?_, ?_, ?_, ?_, ?_, ?_, ?_, ?_, ?_⟩ <;> exact byKernel (letI := @exceptDec; letI := @partDec; letI := @strDec; letI := @bvDec; letI := @vReadyDec; letI := @eqGet; letI := @evDec; letI := @awayDec; inferInstance) (by decide +kernel)
/-- The hypotheses of StepRunsDecoded are met. -/
theorem witness_StepRunsDecoded_2 :
    (let s : State := sAg turnE
    let dt : Nat := 3
    let ck : Nat := 5
    let i : Instr := .floorReduction
    let ev : EvArg := { id := 3 }
    let rest : List Turn := []
    s.agenda = { dt := dt, act := .event i ck ev } :: rest ∧ isEvent i = true ∧ i ≠ .resultLanding ∧ (isStall i = false ∨ ∀ st, ev.who ≠ .stream st)) ∧
    (let dt : Nat := 3
    let s : State := sAg { dt := 3, act := .event .resultLanding 5 {} }
    let ck : Nat := 5
    let i : Instr := .resultLanding
    let ev : EvArg := {}
    let rest : List Turn := []
    s.agenda = { dt := dt, act := .event i ck ev } :: rest ∧ i = .resultLanding) ∧
    (let dt : Nat := 3
    let s : State := sAg { dt := 3, act := .event .queueStall 5 { who := .stream .c } }
    let ck : Nat := 5
    let i : Instr := .queueStall
    let ev : EvArg := { who := .stream .c }
    let rest : List Turn := []
    let u : State := { s with agenda := rest, now := s.now + dt, cur := ck, ev := ev }
    let st := Str.c
    s.agenda = { dt := dt, act := .event i ck ev } :: rest ∧ isStall i = true ∧ ev.who = .stream st ∧ (u.me.canIssue st u.now = false ∨ u.stallNow st = none)) ∧
    (let dt : Nat := 3
    let s : State := { pStall with agenda := [{ dt := 3, act := .event .queueStall 0 { who := .stream .c } }] }
    let ck : Nat := 0
    let i : Instr := .queueStall
    let ev : EvArg := { who := .stream .c }
    let rest : List Turn := []
    let u : State := { s with agenda := rest, now := s.now + dt, cur := ck, ev := ev }
    let st := Str.c
    let v := ((u.stallNow st).map (·.2)).getD u
    s.agenda = { dt := dt, act := .event i ck ev } :: rest ∧ isStall i = true ∧ ev.who = .stream st ∧ u.me.canIssue st u.now = true ∧ u.stallNow st = some (i, v)) ∧
    (let dt : Nat := 3
    let s : State := sAg { dt := 3, act := .event addC 5 {} }
    let ck : Nat := 5
    let i : Instr := addC
    let ev : EvArg := {}
    let rest : List Turn := []
    s.agenda = { dt := dt, act := .event i ck ev } :: rest ∧ isEvent i = false) ∧
    (let dt : Nat := 3
    let s : State := sAg { dt := 3, act := .copyMove 5 6 7 }
    let ck : Nat := 5
    let id : Nat := 6
    let e : Nat := 7
    let rest : List Turn := []
    s.agenda = { dt := dt, act := .copyMove ck id e } :: rest) ∧
    (let s : State := State.reset
    s.agenda = []) :=
  by refine ⟨?_, ?_, ?_, ?_, ?_, ?_, ?_⟩ <;> exact byKernel (letI := @exceptDec; letI := @partDec; letI := @strDec; letI := @bvDec; letI := @vReadyDec; letI := @eqGet; letI := @evDec; letI := @awayDec; inferInstance) (by decide +kernel)

/-- The hypotheses of DecodeEncode are met. -/
theorem witness_DecodeEncode :
    (let i : Instr := addC
    let st : Str := Str.c
    let w : Nat := 0x400023000005
    i.WellFormed ∧ encode i = some (st, w)) :=
  byKernel (letI := @exceptDec; letI := @partDec; letI := @strDec; letI := @bvDec; letI := @vReadyDec; letI := @eqGet; letI := @evDec; letI := @awayDec; inferInstance) (by decide +kernel)

/-- The hypotheses of EncodeDecode are met. -/
theorem witness_EncodeDecode :
    (let i : Instr := addC
    let st : Str := Str.c
    let w : Nat := 0x400023000005
    w < 2 ^ st.wordBits ∧ decode st w = .ok i) :=
  byKernel (letI := @exceptDec; letI := @partDec; letI := @strDec; letI := @bvDec; letI := @vReadyDec; letI := @eqGet; letI := @evDec; letI := @awayDec; inferInstance) (by decide +kernel)

/-- The hypotheses of StepKeepsMemory are met. -/
theorem witness_StepKeepsMemory_a :
    let s : State := p0 .c 0x400023000005
    Safe s ∧ ∃ t, step s = .next t :=
  ⟨byKernel (inferInstanceAs (Decidable (_ = _))) (by decide +kernel), _, rfl⟩
/-- The hypotheses of StepKeepsMemory are met. -/
theorem witness_StepKeepsMemory_b :
    FloorInv sFloor ∧ ∃ t, step sFloor = .next t :=
  ⟨floorInv_sFloor, _, rfl⟩

/-- The hypotheses of StoreFrames are met. -/
theorem witness_StoreFrames :
    (let f : CiF := ciSt
    let s : State := sMem
    let o : Nat := 0
    let ps : Pieces := [(apAddr 5 0, 6)]
    guardOn f.g s.cg = true ∧ s.scratch (.stream .c) .w .wr (s.cEa f) (widthOf f.wc) (widthOf f.wc) = .ok (o, ps)) ∧
    (let f : AiF := aiSt
    let s : State := sO
    let o : Nat := 0
    let ps : Pieces := [(apAddr 5 0, 8)]
    let sw : Bool := false
    let w := widthOf f.wc
    let ea := s.aEa f
    let qs := aSrcQ f.ad.toNat
    s.me.a.ckpts = [] ∧ s.aReady qs [] = .ok () ∧ f.add = false ∧ s.target s.cur (.stream .a) .w true ea w = .ok (.own o ps, sw) ∧ elemPlace (.own o ps) sw ea w = .ok () ∧ s.rolePieces s.cur s.job s.myPkg ps .wr = true ∧ s.me.footHits ps true = false) ∧
    (let f : AiF := { aiSt with aa := 6, aq := 16, imm := aW 5 0 0 }
    let s : State := sO
    let o : Nat := accBase
    let ps : Pieces := (match (tgt s .add f 40) with | .own _ ps => ps | _ => [])
    let sw : Bool := false
    let ea := s.aEa f
    let qs := aSrcQ f.ad.toNat
    s.me.a.ckpts = [] ∧ s.aReady qs [] = .ok () ∧ f.add = true ∧ s.target s.cur (.stream .a) .add true ea 40 = .ok (.own o ps, sw) ∧ s.addTests (.own o ps) 1 ea = .ok () ∧ s.me.footHit o (o + s.laneStep s.cur o) true = false) ∧
    (let f : AiF := fStv
    let s : State := sW w3
    let o : Nat := 0
    let ps : Pieces := ps16 (apAddr 5 0)
    let sw : Bool := false
    let e : WEntry := w3
    let ea := s.aEa f
    let q := f.ad.toNat - 25
    s.me.a.ckpts = [] ∧ s.me.a.half = none ∧ s.me.wqHead q s.now = some e ∧ f.add = false ∧ s.target s.cur (.stream .a) .w true ea 2048 = .ok (.own o ps, sw) ∧ widePlace (.own o ps) true ea = .ok () ∧ s.me.footHits ps true = false ∧ inPart .regs o 2048 = false ∧ s.rolePieces s.cur s.job s.myPkg ps .wr = true) ∧
    (let f : AiF := { fStv with aa := 9 }
    let s : State := sW w0
    let o : Nat := regBase
    let ps : Pieces := ps16 (apAddr 5 regBase)
    let sw : Bool := false
    let e : WEntry := w0
    let ea := s.aEa f
    let q := f.ad.toNat - 25
    s.me.a.ckpts = [] ∧ s.me.a.half = none ∧ s.me.wqHead q s.now = some e ∧ f.add = false ∧ s.target s.cur (.stream .a) .w true ea 2048 = .ok (.own o ps, sw) ∧ widePlace (.own o ps) true ea = .ok () ∧ s.me.footHits ps true = false ∧ inPart .regs o 2048 = true) ∧
    (let f : AiF := { fStv with aa := 6, aq := 16 }
    let s : State := sW w3
    let o : Nat := accBase
    let ps : Pieces := (match (tgt s .add f 40) with | .own _ ps => ps | _ => [])
    let sw : Bool := false
    let e : WEntry := w3
    let ea := s.aEa f
    let q := f.ad.toNat - 25
    let n := (elemsOf e.val).length
    s.me.a.ckpts = [] ∧ s.me.a.half = none ∧ s.me.wqHead q s.now = some e ∧ f.add = true ∧ e.val.tag ≠ 0 ∧ e.val.psn = false ∧ s.target s.cur (.stream .a) .add true ea 40 = .ok (.own o ps, sw) ∧ s.lanesInWindow ea n = .ok () ∧ s.addTests (.own o ps) n ea = .ok () ∧ s.me.footHit o (o + s.laneStep s.cur o * n) true = false) ∧
    (let f : VF := vSt
    let s : State := sVst
    let pss : List Pieces := pssV
    let ea := s.vEa f
    let w := VF.w f
    let elems := (List.range (VF.n f)).filter fun i => (s.acts f.k (VF.n f)).getD i false
    let gs := (List.range 16).filter fun g => f.k == 0 || elems.any fun i => w * i < 128 * (g + 1) && 128 * g < w * (i + 1)
    let us : VUse := { vs := [((0, f.vd), VF.chk f)], gs := [VF.a f], ks := VF.kNames f, carry := true }
    VReady f.g us s ∧ allPass (gs.map fun g => s.granAccess .w .wr ((ea + 128 * g) % 2 ^ 64)) = .ok pss) :=
  by refine ⟨?_, ?_, ?_, ?_, ?_, ?_, ?_⟩ <;> exact byKernel (letI := @exceptDec; letI := @partDec; letI := @strDec; letI := @bvDec; letI := @vReadyDec; letI := @eqGet; letI := @evDec; letI := @awayDec; inferInstance) (by decide +kernel)
/-- The hypotheses of StoreFrames are met and the word answers a next state. -/
theorem witness_StoreFrames_runs :
    (let f : AiF := { aiSt with aa := 5 }
    let s : State := sO
    let x : Target := tgt s .w f 8
    let sw : Bool := false
    (∀ o ps, x ≠ .own o ps) ∧ s.target s.cur (.stream .a) (if f.add then .add else .w) true (s.aEa f) (if f.add then 40 else widthOf f.wc) = .ok (x, sw) ∧ ∃ t, exec (.sta f) s = .next t) ∧
    (let f : AiF := { fStv with aa := 5 }
    let s : State := sW w3
    let x : Target := tgt s .w f 2048
    let sw : Bool := false
    (∀ o ps, x ≠ .own o ps) ∧ s.target s.cur (.stream .a) (if f.add then .add else .w) true (s.aEa f) (if f.add then 40 else 2048) = .ok (x, sw) ∧ ∃ t, exec (.stv f) s = .next t) ∧
    (let f : CiF := ciSt
    let s : State := sMem
    ∃ t, exec (.ld f) s = .next t) :=
  ⟨⟨byKernel (letI := @exceptDec; letI := @partDec; letI := @strDec; letI := @bvDec; letI := @vReadyDec; letI := @eqGet; letI := @evDec; letI := @awayDec; inferInstance) (by decide +kernel), byKernel (letI := @exceptDec; letI := @partDec; letI := @strDec; letI := @bvDec; letI := @vReadyDec; letI := @eqGet; letI := @evDec; letI := @awayDec; inferInstance) (by decide +kernel), ⟨_, rfl⟩⟩,
   ⟨byKernel (letI := @exceptDec; letI := @partDec; letI := @strDec; letI := @bvDec; letI := @vReadyDec; letI := @eqGet; letI := @evDec; letI := @awayDec; inferInstance) (by decide +kernel), byKernel (letI := @exceptDec; letI := @partDec; letI := @strDec; letI := @bvDec; letI := @vReadyDec; letI := @eqGet; letI := @evDec; letI := @awayDec; inferInstance) (by decide +kernel), ⟨_, rfl⟩⟩,
   ⟨_, rfl⟩⟩
/-- The hypotheses of StoreFrames are met. -/
theorem witness_StoreFrames_a :
    ∀ op ∈ [Instr.lda, .ldv, .fewait, .feset, .feclr, .pf], ∃ t, exec (op fLd) sO = .next t :=
  by
  simp only [List.mem_cons, List.not_mem_nil, or_false]
  rintro op (rfl | rfl | rfl | rfl | rfl | rfl) <;> exact ⟨_, rfl⟩
/-- The hypotheses of StoreFrames are met. -/
theorem witness_StoreFrames_b :
    ∀ op ∈ [Instr.vld, .vldt], ∃ t, exec (op vSt) sVst = .next t :=
  by
  simp only [List.mem_cons, List.not_mem_nil, or_false]
  rintro op (rfl | rfl) <;> exact ⟨_, rfl⟩

/-- The hypotheses of EngineFrames are met and the word answers a next state. -/
theorem witness_EngineFrames_runs :
    (let f : AiF := aiA
    let s : State := sA
    ∃ t, exec (.abr f) s = .next t) ∧
    (let f : AiF := aiA
    let s : State := sA
    ∃ t, exec (.abdec f) s = .next t) ∧
    (let f : AiF := aiA
    let s : State := sA
    ∃ t, exec (.abrQ7 f) s = .next t) ∧
    (let f : ViF := vi
    let s : State := sVst
    ∃ t, exec (.gbrRdv f) s = .next t) :=
  ⟨⟨_, rfl⟩,
   ⟨_, rfl⟩,
   ⟨_, rfl⟩,
   ⟨_, rfl⟩⟩
/-- The hypotheses of EngineFrames are met. -/
theorem witness_EngineFrames_a :
    ∀ op ∈ [Instr.aadd, .asub, .amul, .ashl, .aand, .aaddx, .ajr, .aswz], ∃ t, exec (op arQ) sA = .next t :=
  by
  simp only [List.mem_cons, List.not_mem_nil, or_false]
  rintro op (rfl | rfl | rfl | rfl | rfl | rfl | rfl | rfl) <;> exact ⟨_, rfl⟩
/-- The hypotheses of EngineFrames are met. -/
theorem witness_EngineFrames_b :
    ∀ op ∈ [Instr.aaddi, .alim], ∃ t, exec (op aiA) sA = .next t :=
  by
  simp only [List.mem_cons, List.not_mem_nil, or_false]
  rintro op (rfl | rfl) <;> exact ⟨_, rfl⟩
/-- The hypotheses of EngineFrames are met. -/
theorem witness_EngineFrames_c :
    ∀ op ∈ [Instr.agen, .abrQ7Likely, .abrRdv], ∃ t, exec (op aiA) sA = .next t :=
  by
  simp only [List.mem_cons, List.not_mem_nil, or_false]
  rintro op (rfl | rfl | rfl) <;> exact ⟨_, rfl⟩
/-- The hypotheses of EngineFrames are met. -/
theorem witness_EngineFrames_d :
    ∀ op ∈ [Instr.vadd, .vsub, .vmul, .vfma, .vfms, .vfnma, .vmin, .vmax, .vabs, .vneg, .vrcp, .vrsqrt, .vsqrt, .vexp2, .vlog2, .vand, .vor, .vxor, .vnot, .vsll, .vsrl, .vsra, .vaddsat, .vsubsat, .vmulhi, .vcmpeq, .vcmplt, .vcmple, .kand, .kor, .kxor, .knot, .kpop, .kfirst, .vmov, .vbcast, .vsel, .vredsum, .vredmax, .vredmin, .vredamax, .vscan, .vtag, .vtagrd, .gadd, .gmov, .vperm, .vrot, .vslide, .vzip, .vunzip, .vcompact, .vpart, .vpack, .vunpack, .vcvt, .vdeq, .vscl, .vquant], ∃ t, exec (op vOp) sVst = .next t :=
  by
  simp only [List.mem_cons, List.not_mem_nil, or_false]
  rintro op (rfl | rfl | rfl | rfl | rfl | rfl | rfl | rfl | rfl | rfl | rfl | rfl | rfl | rfl | rfl | rfl | rfl | rfl | rfl | rfl | rfl | rfl | rfl | rfl | rfl | rfl | rfl | rfl | rfl | rfl | rfl | rfl | rfl | rfl | rfl | rfl | rfl | rfl | rfl | rfl | rfl | rfl | rfl | rfl | rfl | rfl | rfl | rfl | rfl | rfl | rfl | rfl | rfl | rfl | rfl | rfl | rfl | rfl | rfl) <;> exact ⟨_, rfl⟩
/-- The hypotheses of EngineFrames are met. -/
theorem witness_EngineFrames_e :
    ∀ op ∈ [Instr.gaddi, .glim, .gbr, .gbdec], ∃ t, exec (op vi) sVst = .next t :=
  by
  simp only [List.mem_cons, List.not_mem_nil, or_false]
  rintro op (rfl | rfl | rfl | rfl) <;> exact ⟨_, rfl⟩

/-! One step each, with values that the spec's rules give by hand, and its worked examples. -/

/-- What a C register word leaves in g5 for sources g3 and g4. -/
def cOut (op : CrF → Instr) (x y : W64) : W64 := (run (op (cr 3 4 5)) (st { core0 with c := { g := [(3, x), (4, y)] } })).cg 5
/-- The XFLAGS of the C stream after it. -/
def cFl8 (op : CrF → Instr) (x y : W64) : BitVec 8 :=
  ((run (op (cr 3 4 5)) (st { core0 with c := { g := [(3, x), (4, y)] } })).ctl .c).xflags
/-- What a C immediate word leaves in g5 for g3. -/
def ciOut (op : CiF → Instr) (x : W64) (n : Nat) (old : W64 := 0) : W64 :=
  (run (op { g := g0, rd := 5, ra := 3, imm := BitVec.ofNat 19 n }) (st { core0 with c := { g := [(3, x), (5, old)] } })).cg 5

/-- 06 R146: sums and products modulo 2^64, high halves signed and unsigned. -/
theorem test_c_arith : cOut .add 0xFFFFFFFFFFFFFFFF 2 = 1 ∧ cOut .sub 3 5 = 0xFFFFFFFFFFFFFFFE ∧ cOut .mul 0x8000000000000001 2 = 2 ∧
    cOut .mulh (-1) (-1) = 0 ∧ cOut .mulhn (-1) (-1) = 0xFFFFFFFFFFFFFFFE := by decide +kernel
/-- 06 R146: bitwise words and shifts by the amount modulo 64. -/
theorem test_c_logic : cOut .and 12 10 = 8 ∧ cOut .or 12 10 = 14 ∧ cOut .xor 12 10 = 6 ∧ cOut .andn 12 10 = 4 ∧ cOut .sll 1 65 = 2 ∧
    cOut .srl 0x8000000000000000 63 = 1 ∧ cOut .sra 0x8000000000000000 63 = -1 := by decide +kernel
/-- 06 R146: the signed and the unsigned order differ. -/
theorem test_c_order : cOut .min (-1) 1 = -1 ∧ cOut .max (-1) 1 = 1 ∧ cOut .minn (-1) 1 = 1 ∧ cOut .maxn (-1) 1 = -1 ∧
    cOut .cmplt (-1) 1 = 1 ∧ cOut .cmpltn (-1) 1 = 0 ∧ cOut .cmple 1 1 = 1 ∧ cOut .cmplen 2 1 = 0 ∧ cOut .cmpeq 7 7 = 1 := by decide +kernel
/-- 06 R147: quotients truncate, remainders take the dividend's sign, a division by 0 sets DZ. -/
theorem test_c_divide : cOut .div (-7) 2 = -3 ∧ cOut .rem (-7) 2 = -1 ∧ cOut .divn (-1) 2 = 0x7FFFFFFFFFFFFFFF ∧ cOut .remn (-1) 2 = 1 ∧
    cFl8 .div 5 0 = 8 ∧ cFl8 .divn 5 0 = 8 ∧ cFl8 .div 0x8000000000000000 (-1) = 4 ∧ cFl8 .div 6 3 = 0 := by decide +kernel
/-- 06 R149: counts. -/
theorem test_c_counts : cOut .clz 1 0 = 63 ∧ cOut .clz 0 0 = 64 ∧ cOut .ctz 8 0 = 3 ∧ cOut .ctz 0 0 = 64 ∧ cOut .popc 0xFF00 0 = 8 := by
  decide +kernel
/-- 06 R148: immediates are signed in `addi` and the compares; shifts take imm 5:0. -/
theorem test_c_immediates : ciOut .addi 1 0x7FFFF = 0 ∧ ciOut .cmplti (-2) 0x7FFFF = 1 ∧ ciOut .cmpeqi (-1) 0x7FFFF = 1 ∧ ciOut .slli 3 4 = 48 ∧
    ciOut .srli (-1) 63 = 1 ∧ ciOut .srai (-8) 1 = -4 ∧ ciOut .bset 0 63 = 0x8000000000000000 ∧ ciOut .bclr 0xFF 0 = 0xFE := by decide +kernel
/-- 06 R154: a branch goes `off` words from its own place; `bdec` counts down and stops at 0. -/
theorem test_c_branches :
    let s : State := st { core0 with c := { ctl := { pc := 960 }, g := [(3, 1), (6, 2)] } }
    ((run (.br { g := g0, ra := 0, off := 0xFFFFFE }) s).ctl .c).pc = 864 ∧ (run (.brl { g := g0, ra := 3, off := 4 }) s).cg 3 = 1008 ∧
    ((run (.brl { g := g0, ra := 3, off := 4 }) s).ctl .c).pc = 1152 ∧ ((run (.bdec { g := g0, ra := 6, off := 4 }) s).ctl .c).pc = 1152 ∧
    (run (.bdec { g := g0, ra := 3, off := 4 }) s).cg 3 = 0 ∧ ((run (.bdec { g := g0, ra := 3, off := 4 }) s).ctl .c).pc = 1008 := by
  decide +kernel
/-- 04 R74: a jump to a target that is no multiple of 48 traps FETCH_ALIGN at the jump. -/
theorem test_c_jump_aligned :
    let s : State := st { core0 with c := { ctl := { pc := 960 }, g := [(3, 96), (4, 97)] } }
    ((run (.jr (cr 3 0 0)) s).ctl .c).pc = 96 ∧ ((run (.jr (cr 4 0 0)) s).ctl .c).pc = 960 ∧ (run (.jr (cr 4 0 0)) s).me.pend = 1 ∧
    ((run (.jr (cr 4 0 0)) s).ctl .c).ecause.toNat % 256 = Cause.fetchAlign.code := by decide +kernel
/-- 04 R81: a word whose guard is false only moves the counter. -/
theorem test_c_guard_false :
    let s : State := st { core0 with c := { ctl := { pc := 960 }, g := [(3, 7), (4, 8)] } }
    let f : CrF := { cr 3 4 5 with g := { gd := 3, gb := 3, gs := 1 } }
    (run (.add f) s).cg 5 = 0 ∧ ((run (.add f) s).ctl .c).pc = 1008 ∧ (run (.add { f with g := { gd := 3, gb := 2, gs := 1 } }) s).cg 5 = 15 := by
  decide +kernel
/-- 06 R153: a load of 6 bits extends the sign where it says so; a store writes its width and no more. -/
theorem test_c_memory :
    let s : State := st { core0 with c := { g := [(3, 0x7E00000000000000), (4, 0x3F)] } } [(2 ^ 57 + 5 * 2 ^ 27, 0xE1)]
    let f : CiF := { g := g0, rd := 5, ra := 3, imm := BitVec.ofNat 19 (4 * 2 ^ 15) }
    (run (.ld f) s).cg 5 = 0x21 ∧ (run (.ld { f with imm := BitVec.ofNat 19 (4 * 2 ^ 15 + 2 ^ 14) }) s).cg 5 = 0xFFFFFFFFFFFFFFE1 ∧
    memByte (run (.st { f with rd := 4, imm := BitVec.ofNat 19 (3 * 2 ^ 15) }) s).mem (2 ^ 57 + 5 * 2 ^ 27) = 0xEF := by decide +kernel
/-- 06 R142, 15 R333: `trap` takes its trap: the cause, the counter of the word and PEND. -/
theorem test_c_trap :
    let s : State := st { core0 with c := { ctl := { started := true, pc := 960 } } }
    let t := run (.trap { g := g0, sub := 0, sys := 0x42 }) s
    (t.ctl .c).ecause.toNat % 256 = Cause.trap.code ∧ (t.ctl .c).epc = 960 ∧ t.me.pend = 1 ∧ (t.ctl .c).pc = 960 := by decide +kernel

/-- 07 R170, R192: A arithmetic, `alim.hi`, and the swizzle of 40,960 that 07 R167 gives as its example. -/
theorem test_a_words :
    let s : State := st { coreM with a := { a := [(3, 40960), (4, 3), (2, 0x12345678)] } }
    let f : ArF := { arA with ad := 5, aa := 3, ab := 4, ac := 0, w := 0 }
    (run (.aadd f) s).me.areg 5 = 40963 ∧ (run (.asub f) s).me.areg 5 = 40957 ∧ (run (.amul f) s).me.areg 5 = 122880 ∧
    (run (.ashl f) s).me.areg 5 = 327680 ∧ (run (.aand { f with ab := 3 }) s).me.areg 5 = 40960 ∧
    (run (.aswz { f with ab := 0, w := 1 }) s).me.areg 5 = 41600 ∧
    (run (.alim { aiA with aq := 0x40, ad := 2, aa := 0, imm := 0x7E000000 }) s).me.areg 2 = 0x7E00000012345678 := by decide +kernel
/-- 07 R176: a store of 16 bits at bit 16 leaves the bytes around it. -/
theorem test_a_store :
    let s := run (.sta { aiA with ad := 8, aa := 3, imm := aW 7 0 16 }) sO
    memByte s.mem (2 ^ 57 + 5 * 2 ^ 27 + 2) = 0x34 ∧ memByte s.mem (2 ^ 57 + 5 * 2 ^ 27 + 3) = 0x12 ∧
    memByte s.mem (2 ^ 57 + 5 * 2 ^ 27) = 0x81 := by decide +kernel

/-- 05 Table 5.4: 10.0, 500 and 70,000 into narrow formats, by rne, by rne with `.sat` and by rz. -/
theorem test_conversions :
    let cv (t md : Nat) (sat : Bool) (x : Int) := roundTag t md sat (.ofInt x)
    let three (t : Nat) (x : Int) := [cv t 0 false x, cv t 0 true x, cv t 2 false x]
    three 12 10 = [(0x52, 0), (0x52, 0), (0x52, 0)] ∧ three 10 10 = [(0x19, 0), (0x19, 0), (0x19, 0)] ∧
    three 11 10 = [(0x1F, 5), (0x1F, 5), (0x1F, 5)] ∧ three 9 10 = [(0x7, 5), (0x7, 5), (0x7, 5)] ∧
    three 12 500 = [(0x7F, 0x15), (0x7E, 5), (0x7E, 5)] ∧ three 13 500 = [(0x60, 1), (0x60, 1), (0x5F, 1)] ∧
    three 15 500 = [(0x5FD0, 0), (0x5FD0, 0), (0x5FD0, 0)] ∧ three 13 70000 = [(0x7C, 5), (0x7B, 5), (0x7B, 5)] ∧
    three 15 70000 = [(0x7C00, 5), (0x7BFF, 5), (0x7BFF, 5)] := by decide +kernel
/-- 05 R107: 0.4, −2.5 and 3 into TRIT, infinities and NaN. -/
theorem test_trits : roundTrit ((Val.ofInt 2).div (.ofInt 5)).1 = (0, 1) ∧ roundTrit (.fin true 5 (-1) false) = (2, 5) ∧
    roundTrit (.ofInt 3) = (1, 5) ∧ roundTrit (.fin false 1 (-2) false) = (0, 1) ∧ roundTrit .nan = (0, 0x10) ∧
    roundTrit (.inf true) = (2, 0x10) := by decide +kernel
/-- 05 R125, R126: the scale of a block whose amax is 10.0 in FP8A, and 0.32 in FP8A. -/
theorem test_block_scale : se8Scale (.ofInt 10) 12 = (122, 0) ∧ roundTag 12 0 false (((Val.ofInt 32).div (.ofInt 100)).1) = (0x2A, 1) := by
  decide +kernel
/-- 05 R127, R128: 2,048 + 1 + 1 in FP16: the tree gives 2,050, the sequence 2,048. -/
theorem test_sum_orders :
    (treeSum 15 0 false ([2048, 1, 1, 0, 0, 0, 0, 0].map fun x => (some (Val.ofInt x), 0))).1 = 0x6801 ∧
    ((ffmt 15).round 0 false (seqSum (ffmt 15) 0 ([2048, 1, 1].map Val.ofInt)).1).1 = 0x6800 := by decide +kernel
/-- 12 Table 12.4, 11 R259: the generator after warm-up, and the first trits of both bases of tile 0 (Table 12.5). -/
theorem test_generator : lfsrN 32 0x9E3779B9 = 0xD91A13CA ∧ lfsrN 32 1 = 0xB6DB68A3 ∧
    tritsFrom 16 0xD91A13CA = [0, -1, 0, 0, 1, 0, 0, 1, -1, 1, 1, 0, 1, 0, 0, 0] ∧
    tritsFrom 16 0xB6DB68A3 = [0, 0, 0, 0, 0, -1, 0, 1, 0, 0, 0, -1, 0, 1, 0, -1] := by decide +kernel
/-- 12 Table 12.6 step 13: the CRC-32C of the bytes of the lane 0x3FC0000000. -/
theorem test_crc : crc32c [0x00, 0x00, 0x00, 0xC0, 0x3F] = 0x2F563F5D := by decide +kernel

/-- v3 of 09 Table 9.6. -/
def v3RT : V2048 := BitVec.ofNat 2048 (0x4900 + 2 ^ 16 * 0xBE00 + 2 ^ 32 * 0x3400 + 2 ^ (16 * 40) * 0x8000 + 2 ^ (16 * 64) * 0x5FD0 +
  2 ^ (16 * 65) * 0x4200 + 2 ^ (16 * 96) * 0x7E00 + 2 ^ (16 * 97) * 0x4000)
/-- v7 after the first word of the round trip. -/
def v7RT : Nat := 0x7A + 2 ^ 8 * 0xE4 + 2 ^ 16 * 0x50 + 2 ^ (8 * 64) * 0x7E + 2 ^ (8 * 65) * 0x44 + 2 ^ (8 * 96) * (2 ^ 256 / 255 * 0x7F)
def sRT : State := st { core0 with v := { v := [(3, { bits := v3RT, tag := 15 })], g := [(6, 0x1111111111111111)] } }
def sRT7 : State := st { core0 with v := { v := [(7, { bits := BitVec.ofNat 2048 v7RT, tag := 12 })], g := [(6, 0x11111111FF7F007A)] } }
def flies (i : Instr) (s : State) : List (VDst × Nat × BitVec 9) :=
  (run i s).me.v.fly.map fun r => (r.dst, (r.val.bits &&& r.wmask).toNat % 2 ^ 1024, r.flags)
def wordOf (y : Str) (w : Nat) : Instr := okOf (decode y w)
/-- 09 Table 9.6: `vquant.fp8a.blk.sat`, from its word in Table 9.5: codes, scale bytes, and the flags OF, NX and NV. -/
theorem test_vquant : ∀ r ∈ flies (wordOf .v 0x28800B0E333C0820) sRT,
    r.1 = .v 7 ∧ r.2.1 = v7RT % 2 ^ 1024 ∧ r.2.2 = 0x15 ∨ r.1 = .g 6 ∧ r.2.1 = 0xFF7F007A := by decide +kernel
/-- 09 Table 9.6: `vdeq.fp16.blk` gives the values back; its flags are SC and NV. -/
theorem test_vdeq : (run (wordOf .v 0x29000BD473300020) sRT7).me.v.fly.map (fun r => (r.dst, r.val.bits.toNat, r.val.tag.toNat, r.flags)) =
    [(.v 10, 0x4900 + 2 ^ 16 * 0xBE00 + 2 ^ 32 * 0x3400 + 2 ^ (16 * 64) * 0x5F00 + 2 ^ (16 * 65) * 0x4200 +
      2 ^ (16 * 96) * (2 ^ 512 / 65535 * 0x7E00), 15, 0x30)] := by decide +kernel

/-- 22 R427: SHA-256 of "abc", the example of the standard that defines it. -/
theorem test_sha256 : sha256 [0x61, 0x62, 0x63] = beBytes 32 0xBA7816BF8F01CFEA414140DE5DAE2223B00361A396177A9CB410FF61F20015AD := by
  decide +kernel

end Sys2Proof.Tests
end

/-!
PROOFS. `vquant` (09 R234, R235) and the two scale rules (05 R124, R125).
-/
namespace Sys2Proof.Quantise
open Sys2Proof Sys2Proof.Machine

/-! The power-of-two scale (05 R124). -/

theorem se8Scale_zero (neg : Bool) (e : Int) (t : Nat) : se8Scale (.fin neg 0 e false) t = (0, 0) := rfl

/-- A magnitude from 2^(k + e) on, below the next power of two: its exponent over that of the format, between the ends of SE8. -/
theorem se8Scale_fin {m k : Nat} (hlo : 2 ^ k ≤ m) (hhi : m < 2 ^ (k + 1)) (e : Int) (t : Nat) :
    se8Scale (.fin false m e false) t = ((max 0 (min (k + e - emaxOf t + 127) 254)).toNat, 0) := by
  have hm : m ≠ 0 := Nat.ne_of_gt (Nat.lt_of_lt_of_le (Nat.two_pow_pos k) hlo)
  have hk : Nat.log2 m = k := (Nat.log2_eq_iff hm).2 ⟨hlo, hhi⟩
  simp only [se8Scale, if_neg hm, hk, Prod.mk.injEq, and_true]
  split
  · omega
  · split <;> omega

/-- The exponents that 05 R124 lists. -/
theorem emaxOf_eq {t : Nat} {x : Int}
    (h : (t, x) ∈ [(12, 8), (13, 15), (10, 4), (11, 2), (9, 2), (5, 6), (4, 4), (3, 2), (2, 1)]) : emaxOf t = x := by
  simp only [List.mem_cons, Prod.mk.injEq, List.not_mem_nil, or_false] at h
  rcases h with ⟨rfl, rfl⟩ | ⟨rfl, rfl⟩ | ⟨rfl, rfl⟩ | ⟨rfl, rfl⟩ | ⟨rfl, rfl⟩ | ⟨rfl, rfl⟩ | ⟨rfl, rfl⟩ | ⟨rfl, rfl⟩ | ⟨rfl, rfl⟩ <;> rfl

/-! The ratio scale (05 R125). -/

theorem log2_mul_two_pow {n : Nat} (hn : n ≠ 0) (j : Nat) : Nat.log2 (n * 2 ^ j) = Nat.log2 n + j := by
  obtain ⟨hlo, hhi⟩ := (Nat.log2_eq_iff hn).1 rfl
  refine (Nat.log2_eq_iff (Nat.mul_ne_zero hn (Nat.ne_of_gt (Nat.two_pow_pos j)))).2 ⟨?_, ?_⟩
  · rw [Nat.pow_add]
    exact Nat.mul_le_mul_right (2 ^ j) hlo
  · rw [Nat.add_right_comm, Nat.pow_add]
    exact Nat.mul_lt_mul_of_pos_right hhi (Nat.two_pow_pos j)

/-- A quotient does not depend on how its divisor divides into magnitude and exponent. -/
theorem div_shift (x : Val) (neg : Bool) (n j : Nat) (e : Int) (st : Bool) :
    x.div (.fin neg (n * 2 ^ j) e st) = x.div (.fin neg n (e + j) st) := by
  cases x with
  | nan => rfl
  | inf s => rfl
  | fin s m f st' =>
    by_cases hn : n = 0
    · simp only [Val.div, hn, Nat.zero_mul, if_true]
    · have hm : m * 2 ^ (Nat.log2 n + j + 130) = m * 2 ^ (Nat.log2 n + 130) * 2 ^ j := by
        rw [Nat.add_right_comm, Nat.pow_add, Nat.mul_assoc]
      have hj : 0 < 2 ^ j := Nat.two_pow_pos j
      have he : f - e - ((Nat.log2 n + j + 130 : Nat) : Int) = f - (e + j) - ((Nat.log2 n + 130 : Nat) : Int) := by omega
      have hr (a : Nat) : (a * 2 ^ j != 0) = (a != 0) := by
        rw [Bool.eq_iff_iff]
        simp only [bne_iff_ne, ne_eq, Nat.mul_eq_zero, Nat.ne_of_gt hj, or_false]
      simp only [Val.div, log2_mul_two_pow hn, if_neg hn, if_neg (Nat.mul_ne_zero hn (Nat.ne_of_gt hj)), hm, he,
        Nat.mul_div_mul_right _ _ hj, Nat.mul_mod_mul_right, hr]

/-- The largest finite value of each format that `vquant` writes, as magnitude and exponent (05 Table 5.1, R106). -/
def largestFinite : List (Nat × Nat × Int) :=
  [(12, 448, 0), (13, 57344, 0), (10, 28, 0), (11, 15, -1), (9, 6, 0), (5, 127, 0), (4, 31, 0), (3, 7, 0), (2, 3, 0)]

/-- The model reads the same values from their codes, with some powers of two in the exponent instead of the magnitude. -/
theorem maxFinite_eq {t : Nat} {x : Nat × Int} (h : (t, x) ∈ largestFinite) :
    ∃ n j : Nat, x.1 = n * 2 ^ j ∧ maxFinite t = .fin false n (x.2 + j) false := by
  simp only [largestFinite, List.mem_cons, Prod.mk.injEq, List.not_mem_nil, or_false] at h
  rcases h with ⟨rfl, rfl⟩ | ⟨rfl, rfl⟩ | ⟨rfl, rfl⟩ | ⟨rfl, rfl⟩ | ⟨rfl, rfl⟩ | ⟨rfl, rfl⟩ | ⟨rfl, rfl⟩ | ⟨rfl, rfl⟩ | ⟨rfl, rfl⟩
  · exact ⟨14, 5, by decide, by decide⟩
  · exact ⟨7, 13, by decide, by decide⟩
  · exact ⟨7, 2, by decide, by decide⟩
  · exact ⟨15, 0, by decide, by decide⟩
  · exact ⟨3, 1, by decide, by decide⟩
  · exact ⟨127, 0, by decide, by decide⟩
  · exact ⟨31, 0, by decide, by decide⟩
  · exact ⟨7, 0, by decide, by decide⟩
  · exact ⟨3, 0, by decide, by decide⟩

/-- −∞ over the largest finite value of any format is −∞: that value is finite and not negative. -/
theorem negInf_div_maxFinite (t : Nat) : (Val.inf true).div (maxFinite t) = (.inf true, 0) := by
  unfold maxFinite
  split
  · have hpos : ¬ ((2 ^ (tagWidth t - 1) : Nat) - 1 : Int) < 0 := by
      have := Nat.two_pow_pos (tagWidth t - 1)
      omega
    exact congrArg (fun neg : Bool => (Val.inf (true != neg), (0 : Fl))) (decide_eq_false hpos)
  · have hall : ∀ F ∈ floatFmts, (Val.inf true).div (F.read F.maxCode).1 = (.inf true, 0) := by decide
    refine hall _ ?_
    unfold ffmt
    split <;> decide

theorem fp32Scale_zero (neg : Bool) (e : Int) (t : Nat) : fp32Scale (.fin neg 0 e false) t = (0, 0) := rfl

theorem fp32Scale_fin {t m : Nat} {x : Nat × Int} (h : (t, x) ∈ largestFinite) (hm : m ≠ 0) (neg : Bool) (e : Int) :
    fp32Scale (.fin neg m e false) t = ((fp32.round 4 false ((Val.fin neg m e false).div (.fin false x.1 x.2 false)).1).1, 0) := by
  obtain ⟨n, j, hx, hmax⟩ := maxFinite_eq h
  have hz : (Val.fin neg m e false).isZero = false := by
    cases m with
    | zero => exact absurd rfl hm
    | succ m => rfl
  simp only [fp32Scale, hz, hmax, hx, div_shift, Bool.false_eq_true, if_false]

theorem fp32Scale_negInf (t : Nat) : fp32Scale (.inf true) t = (fp32.infCode + fp32.sign, 0) := by
  have hr : fp32.round 4 false (.inf true) = (fp32.infCode + fp32.sign, 0) := by decide
  simp only [fp32Scale, Val.isZero, negInf_div_maxFinite, hr, Bool.false_eq_true, if_false]

/-! The blocks of a window, and their scales (09 R234). -/

theorem mem_blocksOf {ps : List (Nat × Nat)} {b : Nat} : b ∈ blocksOf ps ↔ ∃ p ∈ ps, p.2 / 32 = b := by
  have hfold (l : List Nat) : b ∈ ps.foldl (fun l p => if l.contains (p.2 / 32) then l else l ++ [p.2 / 32]) l ↔
      b ∈ l ∨ ∃ p ∈ ps, p.2 / 32 = b := by
    induction ps generalizing l with
    | nil => simp only [List.foldl_nil, List.not_mem_nil, false_and, exists_false, or_false]
    | cons p ps ih =>
      rw [List.foldl_cons, ih]
      simp only [List.mem_cons, or_and_right, exists_or, exists_eq_left, ← or_assoc]
      refine or_congr ?_ Iff.rfl
      by_cases hl : p.2 / 32 ∈ l
      · rw [if_pos (List.contains_iff_mem.2 hl)]
        exact (or_iff_left_of_imp fun h => h ▸ hl).symm
      · rw [if_neg (mt List.contains_iff_mem.1 hl), List.mem_append, List.mem_singleton]
        exact or_congr Iff.rfl eq_comm
  simpa only [blocksOf, List.not_mem_nil, false_or] using hfold []

/-- In a table with one entry per key, a search for a key that it has finds that key's entry. -/
theorem find?_keyed {β : Type} (y : Nat → β) {l : List Nat} {b : Nat} (hb : b ∈ l) :
    (l.map fun b => (b, y b)).find? (fun e => e.1 == b) = some (b, y b) := by
  have hl : l.find? (fun x => x == b) = some b := by
    cases hf : l.find? (fun x => x == b) with
    | none => exact absurd (beq_self_eq_true b) (List.find?_eq_none.1 hf b hb)
    | some c =>
      have hc := List.find?_some hf
      rw [eq_of_beq hc]
  rw [List.find?_map]
  exact congrArg (Option.map fun b => (b, y b)) hl

theorem timesRecip_eq (s : Val) :
    timesRecip s = fun v => ((v.div s).1, if s.isZero then (v.div s).2 ||| fDZ else (v.div s).2) := by
  funext v
  have hflag (b : Bool) (x : Fl) : (x ||| flagIf b fDZ) = if b then x ||| fDZ else x := by
    cases b with
    | true => rfl
    | false => exact BitVec.or_zero
  exact congrArg (Prod.mk _) (hflag _ _)

/-- What the source element of the pair `p` becomes under the entry of its block: its scale, the scale's flags and its largest magnitude. -/
def blockElem (f : VF) (x : V2048) (p : Nat × Nat) : Option (Nat × (Nat × Fl) × Val) → Nat × Fl
  | some (_, (c, fc), am) =>
    let e := quantElem f am (c == 255) (fun v => (v.scale (127 - (c : Int)), 0)) (elemAt f.srcTag x p.1)
    (e.1, fc ||| e.2)
  | none => (0, 0)

/-- In a window every element finds the entry of its own block. -/
theorem map_blockElem_find? (f : VF) (x : V2048) (ps : List (Nat × Nat)) (y : Nat → (Nat × Fl) × Val) :
    (ps.map fun p => blockElem f x p (((blocksOf ps).map fun b => (b, y b)).find? fun e => e.1 == p.2 / 32)) =
      ps.map fun p => blockElem f x p (some (p.2 / 32, y (p.2 / 32))) :=
  List.map_congr_left fun p hp => by rw [find?_keyed y (mem_blocksOf.2 ⟨p, hp, rfl⟩)]

/-- Settles O29: the scales case by case, and a ready word by `vForm_ok`: under `.blk` each element finds the scale of its own block. -/
theorem vQuantises : Obligations.VQuantises := by
  unfold Obligations.VQuantises
  refine ⟨fun t v => ⟨?_, fun neg e => ⟨se8Scale_zero neg e t, fp32Scale_zero neg e t⟩, ?_, ?_, fp32Scale_negInf t⟩, ?_⟩
  · rintro (rfl | rfl) <;> exact ⟨rfl, rfl⟩
  · rintro m e l x hx - ⟨k, rfl, hlo, hhi⟩
    rw [← emaxOf_eq hx]
    exact se8Scale_fin hlo hhi e t
  · intro neg m e x hx hm
    exact fp32Scale_fin hx hm neg e
  · intro f s u X ps v am sc sv recip r q amOf se rb qb bytes hr
    refine ⟨fun hrow => congrArg Host.Outcome.next (vForm_ok f.g f.pk u 10 _ s _ s hr ?_),
      fun hblk => congrArg Host.Outcome.next (vForm_ok f.g f.pk u 10 _ s _ s hr ?_)⟩
    · -- The flags of the scale go to every element and change no code.
      have hcodes : r.map (·.1) = (r.map fun e => (e.1, e.2 ||| sc.2)).map (·.1) := by
        simp only [r, List.map_map, Function.comp_def]
      simp only [hrow, Bool.false_eq_true, if_false, timesRecip_eq, q, hcodes]
      rfl
    · have hrb : _ = rb := map_blockElem_find? f X ps fun b => (se b, amOf b)
      simp only [hblk, if_true, List.map_map, qb, ← hrb]
      rfl

end Sys2Proof.Quantise
